-- ==== Sys2Proof/Word.lean ====
section
/-! DEFINITION. The word types of the LS40 and their plainest arithmetic: bytes, 32-bit words,
little-endian joins and splits (R7). -/

namespace Sys2Proof

/-- One byte. -/
abbrev Byte := BitVec 8

/-- One 32-bit word: a Steward register, a BAR0 register, a word of a command. -/
abbrev Word := BitVec 32

/-- The natural number whose little-endian bytes are `bs` (R7: byte 0 holds bits [7:0]). -/
def leNat : List Byte → Nat
  | [] => 0
  | b :: bs => b.toNat + 256 * leNat bs

/-- The `n` little-endian bytes of `v` (R7). -/
def leBytes : Nat → Nat → List Byte
  | 0, _ => []
  | n + 1, v => BitVec.ofNat 8 v :: leBytes n (v / 256)

/-- Bits [hi:lo] of `v`, as a number. -/
def bitsOf (v hi lo : Nat) : Nat := v / 2 ^ lo % 2 ^ (hi + 1 - lo)

/-- Bit `i` of `v`. -/
def bitOf (v i : Nat) : Bool := v / 2 ^ i % 2 == 1

/-- One as a number when the flag holds, else zero. -/
def b2n (b : Bool) : Nat := if b then 1 else 0

/-- `⌈a ÷ b⌉`. -/
def ceilDiv (a b : Nat) : Nat := (a + b - 1) / b

/-- The signed value of the low `w` bits of `v`. -/
def signedOf (w v : Nat) : Int :=
  if v % 2 ^ w < 2 ^ (w - 1) then (v % 2 ^ w : Nat) else ((v % 2 ^ w : Nat) : Int) - (2 ^ w : Nat)

/-- `n` clamped between `lo` and `hi` (the "nearer bound" of the RW fields). -/
def clampNat (lo hi n : Nat) : Nat := max lo (min hi n)

end Sys2Proof
end

