-- ==== Sys2Proof/Syntax.lean ====
section
/-! DEFINITION. The commands and events of the LS40: one constructor per row of
spec/opcode_table.json, with the operands the surroundings supply. -/

namespace Sys2Proof

/-- What a coded memory reports for the access of a row (R114): no error, one corrected error, or
an uncorrectable error. -/
inductive Ecc where
  | clean | corrected | uncorrectable
  deriving DecidableEq, Repr

/-- Who makes a register access: a PCIe function (0 the physical function) or the Gatehouse (R453). -/
inductive Who where
  | fn (f : Fin 32)
  | gate
  deriving DecidableEq, Repr

/-- What disturbs the read of one 64 B granule, named by its address ÷ 64: in a near channel bytes of dies' shares that a lane
or die fault changes (R220: die, byte of its share, and what is xored into it); in a cellar channel bursts in a row that fail
the link CRC, or what a package's dies report uncorrectable (R223). -/
inductive GranErr where
  | dies (granule : Nat) (flips : List (Fin 18 × Fin 4 × Byte))
  | link (granule fails : Nat)
  | media (granule : Nat)
  deriving DecidableEq, Repr

/-- Readings of one island that Hearth takes each millisecond (R28, R368, R369). `paces` are the
measured paces of its 8 cores in Mbeat/s. -/
structure IslandReading where
  tjC : Nat
  currentA : Nat
  paces : List Nat
  deriving DecidableEq, Repr

/-- Readings of the whole module at one sequencer update (R369 to R371). -/
structure HearthReading where
  islands : List IslandReading
  pIn1ms : Nat
  pIn1s : Nat
  deriving DecidableEq, Repr

/-- What a port's training ended with (R256): nobody answered, or the neighbour's version bitmap and
announced endpoint ID. -/
inductive TrainResult where
  | noAnswer
  | trained (versions : Nat) (neighbor : Nat)
  deriving DecidableEq, Repr

/-- The outcome class of a Lantern sweep (R402). -/
inductive SweepOutcome where
  | pass
  | degradedQuad (q : Fin 4)
  | degradedShadow
  | failed
  deriving DecidableEq, Repr

/-- The first failure a sweep found (Table 15.6): group, format code, row, column, quadrant. -/
structure SweepDetail where
  group : Nat
  format : Nat
  row : Nat
  col : Nat
  quad : Nat
  deriving DecidableEq, Repr

/-- A lane of an array cell that forms a wrong product (R401): in this format, for this pair of codes, with this W48 encoding. -/
structure CellFault where
  fmt : Nat
  row : Fin 128
  col : Fin 128
  lane : Nat
  a : Nat
  b : Nat
  product : BitVec 48
  deriving DecidableEq, Repr

/-- A unit that Lantern can sweep (R399). -/
inductive LUnit where
  | core (c : Fin 192)
  | toll (t : Fin 4)
  deriving DecidableEq, Repr

/-- What the self-check of a Tollhouse apply found (R312): nothing, or the first tile that failed, a
second pass (R309) numbering its tiles on from the first. -/
abbrev ApplyCheck := Option Nat

/-- The envelope of a management request (R415): the session it came in, its VERSION byte, whether any
reserved byte is non-zero, and the sequence number to echo. -/
structure Mgmt where
  session : Nat
  version : Byte
  reservedNonzero : Bool
  seq : Word
  deriving DecidableEq, Repr

/-- The select values a REG_READ or REG_WRITE carries (Table 16.1). -/
structure Selects where
  core : Nat
  chan : Nat
  port : Nat
  toll : Nat
  island : Nat
  deriving DecidableEq, Repr

/-- The transport a secured session is opened on (R414, R418, R425). -/
inductive Transport where
  | tcp | mctp | doe
  deriving DecidableEq, Repr

/-- What verification of a resident image found besides its header (R427): whether BODY_DIGEST matches,
the chain verifies to the fused root, and the signature verifies. The digests and signatures are
external cryptography; the row reports their outcome. -/
structure ImageCheck where
  bodyDigest : Bool
  chain : Bool
  signature : Bool
  deriving DecidableEq, Repr

/-- What the reading of a ledger found (RESULT codes of SNAP_STATUS, R412): the signature is external cryptography; the row
reports its outcome. Resources are the module's own check. -/
inductive RestoreEnd where
  | ok | version | signature | digest | source
  deriving DecidableEq, Repr

/-- A core image as a snapshot holds it (R395, Table 15.3). Memories list their bytes or words that are not zero; `frames`
gives slot and image, `armed` slot,
micro-batch, first command and length, `resident` the slots with a resident tile, `parked` those whose tile is parked, with
its contents, `declared` the forward declarations (R205), `queues` the billets of an endpoint: handle words and slot, or the
status of a poison token with slot 16. -/
structure SavedCore where
  core : Nat
  sp : List (Nat × Byte)
  dmem : List (Nat × Byte)
  imem0 : List (Nat × Word)
  imem1 : List (Nat × Word)
  bank : Bool
  flip : Bool
  frames : List (Nat × List Byte)
  armed : List (Nat × BitVec 16 × Nat × Nat)
  gens : List (BitVec 8)
  resident : List Nat
  parked : List (Nat × List Nat)
  masks : List (BitVec 128)
  soft : BitVec 16
  softFill : BitVec 16
  g : List Word
  pc : BitVec 14
  fflags : BitVec 5
  events : BitVec 16
  admitted : List Word
  declared : List (BitVec 16)
  bqCfg : List Word
  queues : List (Nat × List (Word × Word × Nat))
  fill : Word
  deriving DecidableEq, Repr

/-- A region as a snapshot holds it: the 64 B of its REGION_OPEN, its bytes that are not zero by offset, and the numbers of
its POISONED slots (R410). -/
structure SavedRegion where
  attrs : List Byte
  data : List (Nat × Byte)
  poisoned : List Nat
  deriving DecidableEq, Repr

/-- What a ledger's source delivers (Table 15.3): CTX_OPEN parameters, the step of the boundary, core images, regions,
WINDOW_OPEN bodies, STREAM_SET descriptors and MICROBATCH descriptors of the next step (ring, index, bytes), completion
counters, layer entries and rule records by index, layer state (layer, t, rms_prev), the loss gate (EMA word, whether
it is valid, warm count, whether it is decided, tripped and waited in vain; the records of the step to come and of the one after
it as number, count, loss word and trip), position records (stream, step,
count), the lease period in ms, and the step record. -/
structure Saved where
  params : List Byte
  step : Nat
  cores : List SavedCore
  regions : List SavedRegion
  windows : List (List Byte)
  streams : List (Nat × Nat × List Byte)
  microbatches : List (Nat × Nat × List Byte)
  counters : List (Nat × Word)
  layers : List (Nat × List Byte)
  rules : List (Nat × List Byte)
  layerState : List (Nat × Nat × Word)
  ema : Word
  emaValid : Bool
  warm : Nat
  gate : Bool × Bool × Bool
  curLoss : Nat × Nat × Word × Bool
  nextLoss : Nat × Nat × Word × Bool
  rng : List (Nat × Nat × Nat)
  leaseMs : Nat
  record : List Word
  deriving DecidableEq, Repr

/-- Why the Innkeeper remaps a core (R395, R396). A parity check condemns a quadrant (0 to 3), the shadow set (4) or, with
none, another part of the core (R78). -/
inductive RemapCause where
  | abft | slow | condemned (part : Option (Fin 5)) | fence
  deriving DecidableEq, Repr

/-- The outcome of one unit's self-test or channel's training at bring-up (R437 to R440), for the
units that did not pass; `cal` gives the pace-sensor corrections found for the others, in tenths of a percent. -/
structure BringUp where
  coreFail : List (Fin 192 × SweepOutcome)
  calFail : List (Fin 192)
  cal : List (Fin 192 × Int)
  tollFail : List (Fin 4)
  chanFail : List (Fin 208)
  deriving DecidableEq, Repr

/-- What the surroundings measured up to a row: beat-equivalents waited for a feeder and for the drain unit (R54), in
tolerant mode by the command that the row lets go on (R40), for mesh credits (R190) and by an instance for the completion
of its LDTs, of an XMT or of a BQT (R137, R276), and the bank-arbitration losses of the core not yet reported (R173). -/
structure Waits where
  feed : Nat := 0
  drain : Nat := 0
  skew : Nat := 0
  mesh : Nat := 0
  inst : Nat := 0
  lost : Nat := 0
  deriving DecidableEq, Repr

/-- The commands and events of the LS40. -/
inductive Instr where
  /- Steward integer instructions (R115). Operands of the instruction come from the word the Steward
  fetches from its active bank at its program counter; `e` is what the coded memories report. -/
  | add (c : Fin 192) (e : Ecc) | sub (c : Fin 192) (e : Ecc) | and (c : Fin 192) (e : Ecc)
  | or (c : Fin 192) (e : Ecc) | xor (c : Fin 192) (e : Ecc) | shl (c : Fin 192) (e : Ecc)
  | shr (c : Fin 192) (e : Ecc) | sra (c : Fin 192) (e : Ecc) | slt (c : Fin 192) (e : Ecc)
  | sltu (c : Fin 192) (e : Ecc) | mul (c : Fin 192) (e : Ecc) | mulh (c : Fin 192) (e : Ecc)
  | div (c : Fin 192) (e : Ecc) | divu (c : Fin 192) (e : Ecc) | rem (c : Fin 192) (e : Ecc)
  | remu (c : Fin 192) (e : Ecc) | addi (c : Fin 192) (e : Ecc) | andi (c : Fin 192) (e : Ecc)
  | ori (c : Fin 192) (e : Ecc) | xori (c : Fin 192) (e : Ecc) | shli (c : Fin 192) (e : Ecc)
  | shri (c : Fin 192) (e : Ecc) | srai (c : Fin 192) (e : Ecc) | lui (c : Fin 192) (e : Ecc)
  /- Steward memory instructions (R114, R119). -/
  | lw (c : Fin 192) (e : Ecc) | lh (c : Fin 192) (e : Ecc) | lhu (c : Fin 192) (e : Ecc)
  | lb (c : Fin 192) (e : Ecc) | lbu (c : Fin 192) (e : Ecc) | sw (c : Fin 192) (e : Ecc)
  | sh (c : Fin 192) (e : Ecc) | sb (c : Fin 192) (e : Ecc) | lws (c : Fin 192) (e : Ecc)
  | sws (c : Fin 192) (e : Ecc)
  /- Steward branches and jumps (R115). -/
  | beq (c : Fin 192) (e : Ecc) | bne (c : Fin 192) (e : Ecc) | blt (c : Fin 192) (e : Ecc)
  | bge (c : Fin 192) (e : Ecc) | bltu (c : Fin 192) (e : Ecc) | bgeu (c : Fin 192) (e : Ecc)
  | jal (c : Fin 192) (e : Ecc) | jalr (c : Fin 192) (e : Ecc)
  /- Steward binary32 and binary64 instructions (R116). -/
  | faddS (c : Fin 192) (e : Ecc) | fsubS (c : Fin 192) (e : Ecc) | fmulS (c : Fin 192) (e : Ecc)
  | fdivS (c : Fin 192) (e : Ecc) | fsqrtS (c : Fin 192) (e : Ecc) | fminS (c : Fin 192) (e : Ecc)
  | fmaxS (c : Fin 192) (e : Ecc) | feqS (c : Fin 192) (e : Ecc) | fltS (c : Fin 192) (e : Ecc)
  | fleS (c : Fin 192) (e : Ecc) | fcvtSW (c : Fin 192) (e : Ecc) | fcvtWS (c : Fin 192) (e : Ecc)
  | fmaS (c : Fin 192) (e : Ecc)
  | faddD (c : Fin 192) (e : Ecc) | fsubD (c : Fin 192) (e : Ecc) | fmulD (c : Fin 192) (e : Ecc)
  | fdivD (c : Fin 192) (e : Ecc) | fsqrtD (c : Fin 192) (e : Ecc) | fminD (c : Fin 192) (e : Ecc)
  | fmaxD (c : Fin 192) (e : Ecc) | feqD (c : Fin 192) (e : Ecc) | fltD (c : Fin 192) (e : Ecc)
  | fleD (c : Fin 192) (e : Ecc) | fcvtDW (c : Fin 192) (e : Ecc) | fcvtWD (c : Fin 192) (e : Ecc)
  | fmaD (c : Fin 192) (e : Ecc) | fcvtDS (c : Fin 192) (e : Ecc) | fcvtSD (c : Fin 192) (e : Ecc)
  /- Steward frame, predicate, event and CSR instructions (R115 to R118, R125, R126, R133). -/
  | fld (c : Fin 192) (e : Ecc) | farm (c : Fin 192) (e : Ecc) | fstat (c : Fin 192) (e : Ecc)
  | frd (c : Fin 192) (e : Ecc) | pwr (c : Fin 192) (e : Ecc) | prd (c : Fin 192) (e : Ecc)
  | mskw (c : Fin 192) (e : Ecc) | wait (c : Fin 192) (e : Ecc) | csrr (c : Fin 192) (e : Ecc)
  | csrw (c : Fin 192) (e : Ecc) | halt (c : Fin 192) (e : Ecc)
  /- Instruction banks and Steward control (R122, R123, R140). -/
  | imemFlipRequest (w : Who) (c : Fin 192) | imemFlipTaken (c : Fin 192)
  | stewardStart (w : Who) (c : Fin 192) | stewardStop (w : Who) (c : Fin 192)
  /- Instances (R131, R137). `array` names the place: true for an array instance. `w` and `waitBE` are what was
  waited; `unstarted` lists the positions of Porter requests that had issued no granule. -/
  | pick (c : Fin 192) (array : Bool) | instanceEnd (c : Fin 192) (k : Fin 8) (w : Waits)
  | instanceCancel (c : Fin 192) (k : Fin 8) (status : Byte) (unstarted : List Nat)
  /- Tile commands coming to issue (Chapter 6): the running instance of slot `k` on core `c` reads its
  next command from data memory (R127). `stallBE`: beat-equivalents of scoreboard stall (R129). `tie` says that a BQP's
  request arrives together with that of the BQP before it (R29). -/
  | nop (c : Fin 192) (k : Fin 8) (stallBE : Nat) | opx (c : Fin 192) (k : Fin 8) (stallBE : Nat)
  | opxComplete (c : Fin 192) (w : Waits)
  | caravanSlotCheck (c : Fin 192) (w : Waits) | skewLimitExpiry (c : Fin 192)
  | red (c : Fin 192) (k : Fin 8) (stallBE : Nat) | redComplete (c : Fin 192) (w : Waits)
  | ewl (c : Fin 192) (k : Fin 8) (stallBE : Nat) | ewlComplete (c : Fin 192) (w : Waits)
  | tload (c : Fin 192) (k : Fin 8) (stallBE : Nat)
  | swp (c : Fin 192) (k : Fin 8) (stallBE : Nat)
  | accld (c : Fin 192) (k : Fin 8) (stallBE : Nat)
  | accldComplete (c : Fin 192) (shadow : Bool) (w : Waits)
  | drn (c : Fin 192) (k : Fin 8) (stallBE : Nat)
  | drnComplete (c : Fin 192) (shadow : Bool) (w : Waits)
  | ldt (c : Fin 192) (k : Fin 8) (stallBE : Nat) (errs : List GranErr)
  | ldtComplete (c : Fin 192) (pos : Nat) (w : Waits)
  | stt (c : Fin 192) (k : Fin 8) (stallBE : Nat) | sttComplete (c : Fin 192) (pos : Nat) (w : Waits)
  | acw (c : Fin 192) (k : Fin 8) (stallBE : Nat)
  | acwComplete (c : Fin 192) (pos : Nat) (w : Waits) (errs : List GranErr)
  | xmt (c : Fin 192) (k : Fin 8) (stallBE : Nat) | xmtComplete (c : Fin 192) (pos : Nat) (w : Waits)
  | bqp (c : Fin 192) (k : Fin 8) (stallBE : Nat) (tie : Bool) | bqpAccept (c : Fin 192) (k : Fin 8) (w : Waits)
  | bqt (c : Fin 192) (k : Fin 8) (stallBE : Nat) | bqtTake (c : Fin 192) (k : Fin 8) (w : Waits)
  | wct (c : Fin 192) (k : Fin 8) (stallBE : Nat) | wctCountMet (c : Fin 192) (k : Fin 8) (waitBE : Nat)
  | wctTimeout (c : Fin 192) (k : Fin 8) (waitBE : Nat)
  | pset (c : Fin 192) (k : Fin 8) (stallBE : Nat) | psetCounter (c : Fin 192) (k : Fin 8) (stallBE : Nat)
  | fence (c : Fin 192) (k : Fin 8) (stallBE : Nat) | fenceRelease (c : Fin 192) (k : Fin 8) (waitBE : Nat)
  /- Caravans (R192 to R198). -/
  | caravanTileArrive (c : Fin 192) (w : Waits) | caravanForward (c : Fin 192) (w : Waits)
  | resume (w : Who) (c : Fin 192) | flush (w : Who) (c : Fin 192) | unbind (w : Who) (c : Fin 192)
  /- Micro-batches, steps and snapshot stops (R211, R212, R346, R358, R408, R409). `awaited` says that a multicast of updated
  weights which the module awaits from another module has not closed its count (R14). -/
  | mbAbort (x : Fin 64) (mb : Nat) (status : Byte) | stashRelease (x : Fin 64) (mb : Nat)
  | admitMb (x : Fin 64) | stepOpen (x : Fin 64) | stepBoundary (x : Fin 64) (awaited : Bool)
  | snapshotStopEnd (x : Fin 64) (us : Nat) (errs : List GranErr) | snapshotDrainComplete (x : Fin 64) (ok : Bool)
  /- Memory tiers (R221 to R252). -/
  | refetchComplete (slot : Nat) (arrived : List (List Byte)) (errs : List GranErr)
  | wcEntryTimeout (ch : Fin 208) (granule : Nat) (errs : List GranErr)
  | channelPick (ch : Fin 208) (ns : Nat) (own : Bool)
  | regionCloseEffect (base : Nat) (errs : List GranErr)
  | marginScan (w : Who) (ch : Fin 208) | retrain (w : Who) (ch : Fin 208) (errs : List GranErr)
  | channelServiceComplete (ch : Fin 208) (tMin vMin lane us : Nat) (errs : List GranErr)
  | bar4Read (f : Fin 32) (off len : Nat) (errs : List GranErr)
  | bar4Write (f : Fin 32) (off : Nat) (data : List Byte) (errs : List GranErr)
  /- Fabric ports and flits (R256, R289 to R293). A flit is its 256 B of data, its control bytes and its CRC; `stall` is the time
  that output virtual channels have waited for credit, in units of 10 ns (Table 10.10). -/
  | portTrain (p : Fin 36) | portTrainDone (p : Fin 36) (r : TrainResult) (ms : Nat)
  | neighborIdAnnounce (p : Fin 36) (id : Nat) | selfIdWrite (w : Who) (value : Word)
  | flitReceive (p : Fin 36) (data : List Byte) (ctl crc : Word) (corr01 corr23 uncorr stall : Nat)
  | flitAckTimer (p : Fin 36) | neighborSilent (p : Fin 36)
  | portRetrain (w : Who) (p : Fin 36) | portOutOfService (w : Who) (p : Fin 36)
  | portReturnToService (w : Who) (p : Fin 36)
  /- Fabric packets (R262 to R286). A packet is its 64 B header and payload. `head` is the port and the virtual channel whose
  head packet is routed, none for the packets that wait for injection. -/
  | packetRoute (head : Option (Fin 36 × Fin 12))
  | write (pkt : List Byte) (errs : List GranErr)
  | readReq (pkt : List Byte) (errs : List GranErr)
  | readResp (pkt : List Byte) | completion (pkt : List Byte) | packetTimeout (stream seq : Nat)
  | vcStallEvent (p : Fin 36) (vc : Fin 12)
  /- Routing tables and fences (R268 to R270, R284, R294). -/
  | beginLoad (w : Who) (epoch : Byte) | loadDone (w : Who) | flip (w : Who) | retire (w : Who)
  | forceRetire (w : Who) | abandonLoad (w : Who)
  | tableEntryStore (w : Who) (n : Fin 32) (value : Word) | fenceUpdate (w : Who) (value : Word)
  /- Tollhouses (R304, R305, R313, R316, R317). -/
  | tollTileComplete (t : Fin 4) (layer tile : Nat) (errs : List GranErr) | lossWaitExpiry
  | arriveLimitExpiry (layer : Nat) | tollApplyStart (t : Fin 4) (bad : ApplyCheck) (errs : List GranErr)
  | tollApplyEnd (t : Fin 4)
  /- Rings and descriptors (R326 to R336, R345). `n` is a position in the ring's outstanding list;
  `data` are bytes read from host memory. -/
  | doorbell (f : Fin 32) (x : Fin 64) (r : Fin 256) (value : Word)
  | descriptorFetch (r : Fin 256) (bytes : List Byte)
  | descNop (r : Fin 256) (n : Nat) | step (r : Fin 256) (n : Nat) | microbatch (r : Fin 256) (n : Nat)
  | decode (r : Fin 256) (n : Nat) (data : List Byte) | decodeDeadline (x : Fin 64)
  | copy (r : Fin 256) (n : Nat) (data : List Byte) (errs : List GranErr) | imemLoad (r : Fin 256) (n : Nat) (data : List Byte)
  | dmemLoad (r : Fin 256) (n : Nat) (data : List Byte)
  | regionOpen (r : Fin 256) (n : Nat) (data : List Byte) | regionClose (r : Fin 256) (n : Nat)
  | regionFlush (r : Fin 256) (n : Nat) (errs : List GranErr)
  | windowOpen (r : Fin 256) (n : Nat) | windowClose (r : Fin 256) (n : Nat)
  | tableLoad (r : Fin 256) (n : Nat) (data : List Byte)
  | streamSet (r : Fin 256) (n : Nat) | streamClear (r : Fin 256) (n : Nat)
  | streamArm (f : Fin 32) (x : Fin 64) (s : Fin 64) (value : Word)
  | streamTransferComplete (x : Fin 64) (s : Fin 64) (data : List Byte) (errs : List GranErr)
  | completionRecordWrite (cq : Fin 256) | cqHeadRelease (f : Fin 32) (x : Fin 64) (cq : Fin 256) (value : Word)
  | interruptCoalTimer (cq : Fin 256) | ringEnable (f : Fin 32) (isCq : Bool) (r : Fin 256) (value : Word)
  | hostPieceServe (waiting : List (Fin 64 × Nat))
  /- Mailbox and contexts (R337 to R344, R351, R352, R363). -/
  | mailboxDoorbell (f : Fin 32) (value : Word) | evtHeadWrite (f : Fin 32) (value : Word)
  | ctxOpen (f : Fin 32) | ctxClose (f : Fin 32) (errs : List GranErr) | ctxReclaim (f : Fin 32) | ctxResume (f : Fin 32)
  | mbCancel (f : Fin 32) | decodeCfg (f : Fin 32)
  /- The lease and function resets (R321, R359 to R362). With `numVfs` the row is the disabling of virtual functions by a write
  of SR-IOV NumVFs. -/
  | leaseBeat (f : Fin 32) (value : Word) | leaseWarning (f : Fin 32) | leaseExpiry (f : Fin 32)
  | rearm (f : Fin 32) (value : Word) | functionLevelReset (f : Fin 32) (numVfs : Option (Fin 32))
  /- Hearth (R357, R369 to R384). -/
  | planPublish | hearthTick (h : HearthReading)
  | valveTick (inlet outlet : Int) (flow : Nat) | flowLow | flowLost | inletHigh
  | throttleAssert | throttleDeassert | thrStuck | pinGlitch (leak : Bool)
  | chatterEval (thr leak : Nat) | leakAssert | leak
  | overTemperature | persistentOverTemperature | vmainLow | vmainCollapse | vmainHigh | inputOverPower
  | islandOverCurrent (n : Fin 24) | sequencerSilent | emergencyRelease (cond : Fin 9) (i : Fin 24)
  | telemetryWindow
  /- Faults, Lantern and snapshots (R392 to R412, R443, R444). `raw` is what the pace sensor reads and `pace` what the array's
  beats took, in Mbeat/s. -/
  | coreRemap (c : Fin 192) (cause : RemapCause) | lanternCmd (w : Who) (value : Word)
  | lanternSweepStart | lanternSweepEnd (u : LUnit) (faults : List CellFault) (o : SweepOutcome) (d : SweepDetail)
  | paceCal (w : Who) (value : Word) | paceCalEnd (c : Fin 192) (raw pace : Nat)
  | snapNow (w : Who) (x : Fin 64) | restore (w : Who) (x : Fin 64) (value : Word)
  | restoreComplete (x : Fin 64) (r : RestoreEnd) (saved : Saved)
  | accept (w : Who) (x : Fin 64) | taint (w : Who) (x : Fin 64)
  /- Management requests (R415 to R417, R420, R427 to R432). -/
  | regRead (m : Mgmt) (off : Nat) (sel : Selects) | regWrite (m : Mgmt) (off : Nat) (sel : Selects) (value : Word)
  | imageBegin (m : Mgmt) (type total : Nat) | imageData (m : Mgmt) (off : Nat) (data : List Byte)
  | imageVerify (m : Mgmt) (type : Nat) (k : ImageCheck) | imageActivate (m : Mgmt) (type mode : Nat)
  | deferredActivationStart | handoffReady (us : Nat) | handoffTimeout
  | imageCommit (m : Mgmt) (type : Nat) | imageAbandon (m : Mgmt) (type : Nat)
  | collectorSet (m : Mgmt) (addr : List Byte) | emergencyClear (m : Mgmt)
  | anchorAdd (m : Mgmt) (hash : List Byte) | anchorRemove (m : Mgmt) (hash : List Byte)
  | ownershipClear (m : Mgmt) | reportAck (tagOk : Bool) (seq : Word) | reportResend
  | getMeasurements
  /- The baseboard port (R418). -/
  | gettid | getpldmversion | getpldmtypes | getpldmcommands | getpdrrepositoryinfo | getpdr (record : Nat)
  | getsensorreading (sensor : Nat) | getstatesensorreadings (sensor : Nat) | seteventreceiver (addr : Byte)
  | getfrurecordtablemetadata | getfrurecordtable | unsupportedPldmCmd (type cmd : Byte)
  | i3cDynamicAddress (addr : BitVec 7)
  /- Power-up and pins (R434 to R442, R466). -/
  | vauxUp (imageOk : List Bool) | vauxLoss | railsEnable (mv : Nat) (b : BringUp)
  | perstRelease (strap : BitVec 2) (width rate : Nat) | moduleReady (ms3 msP : Nat) | perstAssert
  /- Registers (R451, R452). -/
  | registerWrite (f : Fin 32) (off : Nat) (be : BitVec 4) (value : Word)
  | registerReadLoLatch (f : Fin 32) (off : Nat)
  /- Later rows of the table. -/
  | leakDeassert | guardUsExpiry (c : Fin 192)
  | keyExchange (t : Transport) (mutAuth : Bool) (root : List Byte) | endSession (session : Nat)
  | ideKm (inSession : Bool) (stream : Fin 9) | ideIntegrityFailure (stream : Fin 9)
  | mctpControl (cmd : Byte)
  deriving DecidableEq, Repr

end Sys2Proof
end

