-- ==== Sys2Proof/Decode.lean ====
section
/-! DEFINITION. Decoders and encoders of the LS40's own programs: Steward instructions (Tables 5.2 and
5.3) and tile commands (Tables 6.1 to 6.12). The rows of the opcode table have no bits of their own. -/

namespace Sys2Proof

/-- The opcode table gives no row any bits, so no word spells a command. -/
def decodeTableWord (_nbits _w : Nat) : Option Instr := none

/- Steward instructions. -/

/-- The Steward's operations, in the order of Table 5.3. -/
inductive SOp where
  | add | sub | and | or | xor | shl | shr | sra | slt | sltu | mul | mulh
  | div | divu | rem | remu
  | addi | andi | ori | xori | shli | shri | srai | lui
  | lw | lh | lhu | lb | lbu | sw | sh | sb | lws | sws
  | beq | bne | blt | bge | bltu | bgeu | jal | jalr
  | faddS | fsubS | fmulS | fdivS | fsqrtS | fminS | fmaxS | feqS | fltS | fleS | fcvtSW | fcvtWS | fmaS
  | faddD | fsubD | fmulD | fdivD | fsqrtD | fminD | fmaxD | feqD | fltD | fleD | fcvtDW | fcvtWD | fmaD
  | fcvtDS | fcvtSD
  | fld | farm | fstat | frd | pwr | prd | mskw | wait | csrr | csrw | halt
  deriving DecidableEq, Repr

/-- The instruction forms of Table 5.2. -/
inductive SForm where
  | g | i | b | j
  deriving DecidableEq, Repr

/-- Operation, opcode, form and function value. -/
abbrev SRow := SOp × Nat × SForm × Nat

/-- Table 5.3, OP 0x00 to 0x17. -/
def integerRows : List SRow :=
  [(.add, 0x00, .g, 0), (.sub, 0x01, .g, 0), (.and, 0x02, .g, 0), (.or, 0x03, .g, 0),
   (.xor, 0x04, .g, 0), (.shl, 0x05, .g, 0), (.shr, 0x06, .g, 0), (.sra, 0x07, .g, 0),
   (.slt, 0x08, .g, 0), (.sltu, 0x09, .g, 0), (.mul, 0x0A, .g, 0), (.mulh, 0x0B, .g, 0),
   (.div, 0x0C, .g, 0), (.divu, 0x0D, .g, 0), (.rem, 0x0E, .g, 0), (.remu, 0x0F, .g, 0),
   (.addi, 0x10, .i, 0), (.andi, 0x11, .i, 0), (.ori, 0x12, .i, 0), (.xori, 0x13, .i, 0),
   (.shli, 0x14, .i, 0), (.shri, 0x15, .i, 0), (.srai, 0x16, .i, 0), (.lui, 0x17, .i, 0)]

/-- Table 5.3, OP 0x18 to 0x29. -/
def memoryRows : List SRow :=
  [(.lw, 0x18, .i, 0), (.lh, 0x19, .i, 0), (.lhu, 0x1A, .i, 0), (.lb, 0x1B, .i, 0),
   (.lbu, 0x1C, .i, 0), (.sw, 0x1D, .i, 0), (.sh, 0x1E, .i, 0), (.sb, 0x1F, .i, 0),
   (.lws, 0x20, .i, 0), (.sws, 0x21, .i, 0), (.beq, 0x22, .b, 0), (.bne, 0x23, .b, 0),
   (.blt, 0x24, .b, 0), (.bge, 0x25, .b, 0), (.bltu, 0x26, .b, 0), (.bgeu, 0x27, .b, 0),
   (.jal, 0x28, .j, 0), (.jalr, 0x29, .i, 0)]

/-- Table 5.3, OP 0x2A. -/
def fp32Rows : List SRow :=
  [(.faddS, 0x2A, .g, 0), (.fsubS, 0x2A, .g, 1), (.fmulS, 0x2A, .g, 2), (.fdivS, 0x2A, .g, 3),
   (.fsqrtS, 0x2A, .g, 4), (.fminS, 0x2A, .g, 5), (.fmaxS, 0x2A, .g, 6), (.feqS, 0x2A, .g, 7),
   (.fltS, 0x2A, .g, 8), (.fleS, 0x2A, .g, 9), (.fcvtSW, 0x2A, .g, 10), (.fcvtWS, 0x2A, .g, 11),
   (.fmaS, 0x2A, .g, 12)]

/-- Table 5.3, OP 0x2B. -/
def fp64Rows : List SRow :=
  [(.faddD, 0x2B, .g, 0), (.fsubD, 0x2B, .g, 1), (.fmulD, 0x2B, .g, 2), (.fdivD, 0x2B, .g, 3),
   (.fsqrtD, 0x2B, .g, 4), (.fminD, 0x2B, .g, 5), (.fmaxD, 0x2B, .g, 6), (.feqD, 0x2B, .g, 7),
   (.fltD, 0x2B, .g, 8), (.fleD, 0x2B, .g, 9), (.fcvtDW, 0x2B, .g, 10), (.fcvtWD, 0x2B, .g, 11),
   (.fmaD, 0x2B, .g, 12), (.fcvtDS, 0x2B, .g, 13), (.fcvtSD, 0x2B, .g, 14)]

/-- Table 5.3, OP 0x30 to 0x3F. -/
def systemRows : List SRow :=
  [(.fld, 0x30, .i, 0), (.farm, 0x31, .g, 0), (.fstat, 0x32, .g, 0), (.frd, 0x33, .i, 0),
   (.pwr, 0x34, .g, 0), (.prd, 0x35, .g, 0), (.mskw, 0x36, .g, 0), (.wait, 0x38, .i, 0),
   (.csrr, 0x39, .i, 0), (.csrw, 0x3A, .i, 0), (.halt, 0x3F, .g, 0)]

/-- Table 5.3, one row per operation. -/
def stewardTable : List SRow :=
  integerRows ++ memoryRows ++ fp32Rows ++ fp64Rows ++ systemRows

/-- The row of Table 5.3 that an opcode and, in the G form, a function value name (R115). -/
def stewardRow (opc fn : Nat) : Option SRow :=
  stewardTable.find? fun r => r.2.1 == opc && (r.2.2.1 != .g || r.2.2.2 == fn)

/-- Opcode, form and function value of an operation. -/
def SOp.row (o : SOp) : Nat × SForm × Nat :=
  ((stewardTable.find? fun r => r.1 == o).map (·.2)).getD (0, .g, 0)

/-- A decoded Steward instruction: the fields that its form has, the others zero. `imm` holds IMM16, the
16-bit or the 21-bit offset, unextended. -/
structure SInstr where
  op : SOp
  d : BitVec 5
  a : BitVec 5
  b : BitVec 5
  imm : BitVec 21
  deriving DecidableEq, Repr

/-- Register roles of an FP operation: whether gd, ga and gb name FP64 pairs, and whether gb is unused
(R113, Table 5.3). -/
def SOp.fpRoles (o : SOp) : Bool × Bool × Bool × Bool :=
  match o with
  | .faddD | .fsubD | .fmulD | .fdivD | .fminD | .fmaxD | .fmaD => (true, true, true, false)
  | .fsqrtD => (true, true, false, true)
  | .feqD | .fltD | .fleD => (false, true, true, false)
  | .fcvtDW => (true, false, false, true)
  | .fcvtWD => (false, true, false, true)
  | .fcvtDS => (true, false, false, true)
  | .fcvtSD => (false, true, false, true)
  | .fsqrtS | .fcvtSW | .fcvtWS => (false, false, false, true)
  | _ => (false, false, false, false)

/-- A register number that may name an FP64 pair: even and not 0 (R113). -/
def pairOk (r : BitVec 5) : Bool := r != 0 && r.toNat % 2 == 0

/-- The rules of Table 5.3 and R113 on field values: a shift's IMM16 [15:5] and LUI's ga are zero, an
unused gb of an FP operation is zero, FP64 pairs are even and not g0, MSKW's ga is a multiple of 4 from
4 to 28. -/
def SInstr.legal (i : SInstr) : Bool :=
  match i.op with
  | .shli | .shri | .srai => decide (i.imm.toNat < 32)
  | .lui => i.a == 0
  | .wait => decide (i.imm.toNat < 2 ^ 12)
  | .mskw => decide (4 ≤ i.a.toNat) && i.a.toNat % 4 == 0
  | o =>
    let (pd, pa, pb, nob) := o.fpRoles
    (!pd || pairOk i.d) && (!pa || pairOk i.a) && (!pb || pairOk i.b) && (!nob || i.b == 0)

/-- The fields that the instruction's form does not have are zero, and IMM16 fits its 16 bits. -/
def SInstr.fieldsOk (i : SInstr) : Bool :=
  match i.op.row.2.1 with
  | .g => i.imm == 0
  | .i => i.b == 0 && decide (i.imm.toNat < 2 ^ 16)
  | .b => i.d == 0 && decide (i.imm.toNat < 2 ^ 16)
  | .j => i.a == 0 && i.b == 0

/-- A Steward instruction that Table 5.3 allows. -/
def SInstr.wf (i : SInstr) : Bool := i.fieldsOk && i.legal

/-- The instruction that a 32-bit word spells; none for an illegal instruction (R113, R115). -/
def decodeSteward (w : Nat) : Option SInstr :=
  match stewardRow (w / 2 ^ 26 % 64) (w % 2 ^ 11) with
  | none => none
  | some (op, _, form, _) =>
    let f1 := BitVec.ofNat 5 (w / 2 ^ 21)
    let f2 := BitVec.ofNat 5 (w / 2 ^ 16)
    let f3 := BitVec.ofNat 5 (w / 2 ^ 11)
    let i : SInstr :=
      match form with
      | .g => ⟨op, f1, f2, f3, 0⟩
      | .i => ⟨op, f1, f2, 0, BitVec.ofNat 21 (w % 2 ^ 16)⟩
      | .b => ⟨op, 0, f1, f2, BitVec.ofNat 21 (w % 2 ^ 16)⟩
      | .j => ⟨op, f1, 0, 0, BitVec.ofNat 21 (w % 2 ^ 21)⟩
    if i.legal then some i else none

/-- The word of a Steward instruction (Table 5.2). -/
def encodeSteward (i : SInstr) : Nat :=
  let (opc, form, fn) := i.op.row
  match form with
  | .g => opc * 2 ^ 26 + i.d.toNat * 2 ^ 21 + i.a.toNat * 2 ^ 16 + i.b.toNat * 2 ^ 11 + fn
  | .i => opc * 2 ^ 26 + i.d.toNat * 2 ^ 21 + i.a.toNat * 2 ^ 16 + i.imm.toNat
  | .b => opc * 2 ^ 26 + i.a.toNat * 2 ^ 21 + i.b.toNat * 2 ^ 16 + i.imm.toNat
  | .j => opc * 2 ^ 26 + i.d.toNat * 2 ^ 21 + i.imm.toNat

/- Tile commands. -/

/-- The fields of a tile command beside the common word (Tables 6.5 to 6.12, R155, R167 to R170). -/
inductive TileArgs where
  | nop
  | opx (a b : BitVec 8) (k : BitVec 24) (mask : BitVec 4) (block : Bool)
      (firstTag slotFirst slotStride : BitVec 16)
  | red (a b : BitVec 8) (n : BitVec 24) (min bside cont : Bool) (idxBase : BitVec 24) (depth : BitVec 8)
  | ewl (a b : BitVec 8) (n : BitVec 24) (op : BitVec 6) (key : BitVec 32) (dst : BitVec 8) (table : Bool)
  | swp (expect : BitVec 8)
  | accld (src : BitVec 8) (live zero : Bool) (fmt : BitVec 5) (scale : BitVec 2) (tag : BitVec 8)
  | drn (dst0 dst1 : BitVec 8) (live clear : Bool) (layout : BitVec 2) (tag : BitVec 8) (key : BitVec 32)
  | ldt (dst : BitVec 8) (mode pri : BitVec 2) (addr : BitVec 48) (group : BitVec 16)
  | stt (src : BitVec 8) (mode : BitVec 2) (addr : BitVec 48) (gen : BitVec 16)
  | acw (src : BitVec 8) (op : BitVec 2) (addr : BitVec 48) (scale : BitVec 32)
  | xmt (src : BitVec 8) (mcast : Bool) (dest : BitVec 16) (window : BitVec 12) (gen : BitVec 20)
      (rcount : BitVec 12) (offset : BitVec 20) (lcount : BitVec 12)
  | bqp (billet : BitVec 8) (endp : BitVec 16)
  | bqt (billet : BitVec 8) (endp : BitVec 16)
  | wct (counter : BitVec 12) (count : BitVec 32) (limit : BitVec 24)
  | psetMask (mask value : BitVec 16)
  | psetCounter (dst : BitVec 4) (counter : BitVec 12) (count : BitVec 32)
  | fence
  deriving DecidableEq, Repr

/-- A tile command: the predicate and its inversion (Table 6.1), and the command's own fields. -/
structure TileCmd where
  pred : BitVec 4
  pinv : Bool
  args : TileArgs
  deriving DecidableEq, Repr

/-- The opcode of Table 6.2. -/
def TileArgs.opcode : TileArgs → Nat
  | .nop => 0x00 | .opx .. => 0x01 | .red .. => 0x02 | .ewl .. => 0x03 | .swp .. => 0x04
  | .accld .. => 0x05 | .drn .. => 0x06 | .ldt .. => 0x10 | .stt .. => 0x11 | .acw .. => 0x12
  | .xmt .. => 0x13 | .bqp .. => 0x18 | .bqt .. => 0x19 | .wct .. => 0x20 | .psetMask .. => 0x21
  | .psetCounter .. => 0x21 | .fence => 0x22

/-- W0 [31:16], W1, W2 and W3 of a command. -/
def TileArgs.words : TileArgs → Nat × Nat × Nat × Nat
  | .nop => (0, 0, 0, 0)
  | .opx a b k m bl t f s =>
    (a.toNat + b.toNat * 2 ^ 8, k.toNat + m.toNat * 2 ^ 24 + b2n bl * 2 ^ 28, t.toNat,
      f.toNat + s.toNat * 2 ^ 16)
  | .red a b n mn bs c ib d =>
    (a.toNat + b.toNat * 2 ^ 8, n.toNat + b2n mn * 2 ^ 24 + b2n bs * 2 ^ 25 + b2n c * 2 ^ 26,
      ib.toNat, d.toNat)
  | .ewl a b n op key dst tb =>
    (a.toNat + b.toNat * 2 ^ 8, n.toNat + op.toNat * 2 ^ 24, key.toNat, dst.toNat + b2n tb * 2 ^ 8)
  | .swp e => (e.toNat, 0, 0, 0)
  | .accld s l z f sc t =>
    (s.toNat + b2n l * 2 ^ 8 + b2n z * 2 ^ 9, f.toNat + sc.toNat * 2 ^ 5 + t.toNat * 2 ^ 8, 0, 0)
  | .drn d0 d1 l c lay t key =>
    (d0.toNat + d1.toNat * 2 ^ 8, b2n l + b2n c * 2 + lay.toNat * 2 ^ 2 + t.toNat * 2 ^ 8, key.toNat, 0)
  | .ldt d m p ad g =>
    (d.toNat + m.toNat * 2 ^ 8 + p.toNat * 2 ^ 10, ad.toNat % 2 ^ 32,
      ad.toNat / 2 ^ 32 + g.toNat * 2 ^ 16, 0)
  | .stt s m ad g =>
    (s.toNat + m.toNat * 2 ^ 8, ad.toNat % 2 ^ 32, ad.toNat / 2 ^ 32, g.toNat)
  | .acw s op ad sc =>
    (s.toNat + op.toNat * 2 ^ 8, ad.toNat % 2 ^ 32, ad.toNat / 2 ^ 32, sc.toNat)
  | .xmt s mc de w g r o l =>
    (s.toNat + b2n mc * 2 ^ 8, de.toNat + w.toNat * 2 ^ 16, g.toNat + r.toNat * 2 ^ 20,
      o.toNat + l.toNat * 2 ^ 20)
  | .bqp b e => (b.toNat, e.toNat, 0, 0)
  | .bqt b e => (b.toNat, e.toNat, 0, 0)
  | .wct c n l => (0, c.toNat, n.toNat, l.toNat)
  | .psetMask m v => (0, v.toNat + m.toNat * 2 ^ 16, 0, 0)
  | .psetCounter d c n => (1, d.toNat + c.toNat * 2 ^ 16, n.toNat, 0)
  | .fence => (0, 0, 0, 0)

/-- The four words of a tile command (R141). -/
def encodeTile (c : TileCmd) : Nat × Nat × Nat × Nat :=
  let w := c.args.words
  (c.args.opcode + c.pred.toNat * 2 ^ 8 + b2n c.pinv * 2 ^ 12 + w.1 * 2 ^ 16, w.2.1, w.2.2.1, w.2.2.2)

/-- The layout of an opcode read from W0 [31:16], W1, W2 and W3; none for a reserved opcode. -/
def tileArgsOf (opc h w1 w2 w3 : Nat) : Option TileArgs :=
  let a8 := BitVec.ofNat 8 h
  let b8 := BitVec.ofNat 8 (h / 2 ^ 8)
  let n24 := BitVec.ofNat 24 w1
  let addr := BitVec.ofNat 48 (w1 + w2 % 2 ^ 16 * 2 ^ 32)
  let m2 := BitVec.ofNat 2 (h / 2 ^ 8)
  match opc with
  | 0x00 => some .nop
  | 0x01 => some (.opx a8 b8 n24 (BitVec.ofNat 4 (w1 / 2 ^ 24)) (bitOf w1 28) (BitVec.ofNat 16 w2)
      (BitVec.ofNat 16 w3) (BitVec.ofNat 16 (w3 / 2 ^ 16)))
  | 0x02 => some (.red a8 b8 n24 (bitOf w1 24) (bitOf w1 25) (bitOf w1 26) (BitVec.ofNat 24 w2)
      (BitVec.ofNat 8 w3))
  | 0x03 => some (.ewl a8 b8 n24 (BitVec.ofNat 6 (w1 / 2 ^ 24)) (BitVec.ofNat 32 w2)
      (BitVec.ofNat 8 w3) (bitOf w3 8))
  | 0x04 => some (.swp a8)
  | 0x05 => some (.accld a8 (bitOf h 8) (bitOf h 9) (BitVec.ofNat 5 w1) (BitVec.ofNat 2 (w1 / 2 ^ 5))
      (BitVec.ofNat 8 (w1 / 2 ^ 8)))
  | 0x06 => some (.drn a8 b8 (bitOf w1 0) (bitOf w1 1) (BitVec.ofNat 2 (w1 / 2 ^ 2))
      (BitVec.ofNat 8 (w1 / 2 ^ 8)) (BitVec.ofNat 32 w2))
  | 0x10 => some (.ldt a8 m2 (BitVec.ofNat 2 (h / 2 ^ 10)) addr (BitVec.ofNat 16 (w2 / 2 ^ 16)))
  | 0x11 => some (.stt a8 m2 addr (BitVec.ofNat 16 w3))
  | 0x12 => some (.acw a8 m2 addr (BitVec.ofNat 32 w3))
  | 0x13 => some (.xmt a8 (bitOf h 8) (BitVec.ofNat 16 w1) (BitVec.ofNat 12 (w1 / 2 ^ 16))
      (BitVec.ofNat 20 w2) (BitVec.ofNat 12 (w2 / 2 ^ 20)) (BitVec.ofNat 20 w3)
      (BitVec.ofNat 12 (w3 / 2 ^ 20)))
  | 0x18 => some (.bqp a8 (BitVec.ofNat 16 w1))
  | 0x19 => some (.bqt a8 (BitVec.ofNat 16 w1))
  | 0x20 => some (.wct (BitVec.ofNat 12 w1) (BitVec.ofNat 32 w2) (BitVec.ofNat 24 w3))
  | 0x21 =>
    if bitOf h 0 then
      some (.psetCounter (BitVec.ofNat 4 w1) (BitVec.ofNat 12 (w1 / 2 ^ 16)) (BitVec.ofNat 32 w2))
    else some (.psetMask (BitVec.ofNat 16 (w1 / 2 ^ 16)) (BitVec.ofNat 16 w1))
  | 0x22 => some .fence
  | _ => none

/-- Reads a command's four words by its layout. Every bit that the layout does not name is to be zero
(R141), which is exactly that the fields read spell the same words again. -/
def decodeTile (w0 w1 w2 w3 : Nat) : Option TileCmd :=
  match tileArgsOf (w0 % 2 ^ 8) (w0 / 2 ^ 16) w1 w2 w3 with
  | none => none
  | some args =>
    let c : TileCmd := ⟨BitVec.ofNat 4 (w0 / 2 ^ 8), bitOf w0 12, args⟩
    if encodeTile c = (w0, w1, w2, w3) then some c else none

/-- The opcode of a command's first word is one of Table 6.2. -/
def opcodeDefined (w0 : Nat) : Bool := (tileArgsOf (w0 % 2 ^ 8) 0 0 0 0).isSome

end Sys2Proof
end

