-- ==== Sys2Proof/Config.lean ====
section
/-! DEFINITION. What the spec leaves open: opaque constants with no body. Nothing can evaluate
them, so a claim that mentions one holds whatever its value. -/

namespace Sys2Proof.Config

/-- The free value numbered `n`, 32 bits (assumption 3): a value the spec does not fix and the
machine goes on with. `n` is the state's free-value counter when the value is drawn. -/
opaque free32 : Nat → BitVec 32

/-- A free byte, numbered as `free32` (assumption 3). -/
opaque freeByte : Nat → BitVec 8

/-- Corners that IEEE 754-2019 leaves to the implementation (R116, assumption 9): 0, tininess is detected
after rounding; 1, FMIN and FMAX prefer a number to a NaN; 2, FCVT to an integer raises inexact;
3, FMA of infinity × 0 + quiet NaN raises invalid. -/
opaque ieeeChoice : Nat → Bool

/-- EWL RECIP, RSQRT, EXP2, LOG2 and DIV (operation number first) on FP32 operands `a`, `b`:
Table 6.10 fixes the result only to within 2 units in the last place (assumption 4). The value
chooses among the results that Table 6.10 allows. -/
opaque ewlChoice : Nat → BitVec 32 → BitVec 32 → Nat

/-- The junction that Hearth's thermal model predicts for an island 50 ms ahead (R373), in °C: draw number, island and
input power in W. The model's constants are fitted and calibrated per module (assumption 5). -/
opaque thermalModel : Nat → Nat → Nat → Nat

/-- The voltage in mV at which an island runs at a pace (R27, R369): draw number, island and pace in Mbeat/s. It is a
property of the silicon (assumption 5). -/
opaque paceVoltage : Nat → Nat → Nat → Nat

/-- The duty that the learnt table of R374 gives for a flow in 0.01 L/min, after the draw number (assumption 5). -/
opaque dutyForFlow : Nat → Nat → Nat

/-- The proportional-integral term of R374 on the outlet error, after the draw number (assumption 5). -/
opaque valvePi : Nat → Int → Int

/-- The layout of a park image is the module's own (R138): byte `i` of the image of a tile whose
contents are listed as numbers (assumption 6). -/
opaque parkByte : List Nat → Nat → BitVec 8

/-- A cell number of the tile that a park image changed by software restores to (R138: "the tile
that results is not defined", assumption 6). -/
opaque parkCell : Nat → Nat → Nat

/-- The digest that a measurement block of Table 16.4 reports, by block index and content as the model lists it: SHA-384 over
an encoding that the spec does not give (R426, assumption 3). -/
opaque measure : Nat → List Nat → List (BitVec 8)

/-- β^n of the bias correction of R308: the spec does not say how the power is formed in FP32 (assumption 18). -/
opaque tollPow : BitVec 32 → Nat → BitVec 32

/-- An FP32 value that is none of BF16 enters a product of the Tollhouse array as the neighbour away from zero: the spec does
not state that conversion (R306, R308, R309; assumption 18). -/
opaque tollUp : BitVec 32 → Bool

end Sys2Proof.Config
end

