-- ==== Sys2Proof/Machine/Num.lean ====
section
/-! DEFINITION. Number formats and arithmetic (Chapter 4): exact dyadic values, rounding, the
encodings of Table 4.2, W48 addition (R92), block scales (R86, R98 to R100), stochastic draws (R104). -/

namespace Sys2Proof.Machine

/-- A value of any format: NaN, an infinity, or `(-1)^neg × m × 2^e` exactly. -/
inductive Val where
  | nan
  | inf (neg : Bool)
  | fin (neg : Bool) (m : Nat) (e : Int)
  deriving DecidableEq, Repr

/-- +0. -/
def Val.zero : Val := .fin false 0 0

/-- 1.0. -/
def Val.one : Val := .fin false 1 0

/-- NaN or an infinity. -/
def Val.nonfinite : Val → Bool
  | .fin _ _ _ => false
  | _ => true

/-- A zero of either sign. -/
def Val.isZero : Val → Bool
  | .fin _ m _ => m == 0
  | _ => false

def Val.isNan : Val → Bool
  | .nan => true
  | _ => false

/-- The sign bit. -/
def Val.isNeg : Val → Bool
  | .nan => false
  | .inf n => n
  | .fin n _ _ => n

def Val.neg : Val → Val
  | .nan => .nan
  | .inf n => .inf (!n)
  | .fin n m e => .fin (!n) m e

def Val.abs : Val → Val
  | .nan => .nan
  | .inf _ => .inf false
  | .fin _ m e => .fin false m e

/-- Times `2^k`, exactly (R88). -/
def Val.scale2 (k : Int) : Val → Val
  | .nan => .nan
  | .inf n => .inf n
  | .fin n m e => .fin n m (e + k)

/-- The integer `(-1)^neg × m × 2^(e - b)` for an exponent `b` at most `e`. -/
def sigAt (neg : Bool) (m : Nat) (e b : Int) : Int :=
  let k : Int := (m * 2 ^ (e - b).toNat : Nat)
  if neg then -k else k

/-- The exact value `k × 2^e` of an integer significand; a zero is +0. -/
def ofSig (k e : Int) : Val := .fin (decide (k < 0)) k.natAbs e

/-- Exact sum. A zero sum of finite values is +0, but −0 + −0 is −0. -/
def Val.add : Val → Val → Val
  | .nan, _ => .nan
  | _, .nan => .nan
  | .inf a, .inf b => if a == b then .inf a else .nan
  | .inf a, .fin _ _ _ => .inf a
  | .fin _ _ _, .inf b => .inf b
  | .fin n1 m1 e1, .fin n2 m2 e2 =>
    if m1 == 0 && m2 == 0 then .fin (n1 && n2) 0 0
    else
      let b := min e1 e2
      ofSig (sigAt n1 m1 e1 b + sigAt n2 m2 e2 b) b

/-- Exact product. -/
def Val.mul : Val → Val → Val
  | .nan, _ => .nan
  | _, .nan => .nan
  | .inf a, .inf b => .inf (a != b)
  | .inf a, .fin n m _ => if m == 0 then .nan else .inf (a != n)
  | .fin n m _, .inf b => if m == 0 then .nan else .inf (n != b)
  | .fin n1 m1 e1, .fin n2 m2 e2 => .fin (n1 != n2) (m1 * m2) (e1 + e2)

/-- `a < b` on numbers; false when either is NaN. -/
def Val.lt : Val → Val → Bool
  | .nan, _ => false
  | _, .nan => false
  | .inf a, .inf b => a && !b
  | .inf a, .fin _ _ _ => a
  | .fin _ _ _, .inf b => !b
  | .fin n1 m1 e1, .fin n2 m2 e2 =>
    let b := min e1 e2
    decide (sigAt n1 m1 e1 b < sigAt n2 m2 e2 b)

/-- Equal as numbers (−0 equals +0); false when either is NaN. -/
def Val.eqv (a b : Val) : Bool := !a.isNan && !b.isNan && !a.lt b && !b.lt a

/-- The exponent of the leading bit of a non-zero significand: `⌊log₂ (m × 2^e)⌋`. -/
def topExp (m : Nat) (e : Int) : Int := Nat.log2 m + e

/-- The roundings in use (R101, R99, R102). -/
inductive Rnd where
  /-- To nearest, ties to even. -/
  | rne
  /-- Toward zero. -/
  | rtz
  /-- Upward, of a magnitude (the UE4M3 scale choice of R99). -/
  | up
  /-- Stochastic with `n` random bits of value `r` (R102). -/
  | sr (n r : Nat)
  deriving DecidableEq, Repr

/-- Whether `n + rem ÷ den` quanta, `rem < den`, round up to `n + 1`. -/
def Rnd.goesUp (r : Rnd) (n rem den : Nat) : Bool :=
  match r with
  | .rne => decide (den < 2 * rem) || (2 * rem == den && n % 2 == 1)
  | .rtz => false
  | .up => rem != 0
  | .sr k d => decide (d < rem * 2 ^ k / den)

/-- Rounds the magnitude `m × 2^e` to a whole number of quanta `2^q`. -/
def roundQuanta (r : Rnd) (m : Nat) (e q : Int) : Nat :=
  if q ≤ e then m * 2 ^ (e - q).toNat
  else
    let den := 2 ^ (q - e).toNat
    let n := m / den
    if r.goesUp n (m % den) den then n + 1 else n

/-- The magnitude `(num ÷ den) × 2^e` in whole quanta `2^q`, rounded. -/
def roundRatio (r : Rnd) (num den : Nat) (e q : Int) : Nat :=
  let a := num * 2 ^ (e - q).toNat
  let b := den * 2 ^ (q - e).toNat
  let n := a / b
  if r.goesUp n (a % b) b then n + 1 else n

/-- How a format spells NaN (Table 4.2). -/
inductive NanKind where
  /-- All exponent bits one: fraction 0 an infinity, any other fraction NaN. -/
  | ieee
  /-- Only all ones is NaN, no infinity (FP8-E4M3). -/
  | allOnes
  /-- Neither NaN nor infinity (FP6, FP4). -/
  | none
  deriving DecidableEq, Repr

/-- A floating-point format of Table 4.2. -/
structure FFmt where
  ebits : Nat
  fbits : Nat
  bias : Int
  kind : NanKind
  deriving DecidableEq, Repr

def fp32 : FFmt := ⟨8, 23, 127, .ieee⟩
def fp64 : FFmt := ⟨11, 52, 1023, .ieee⟩
def fp19 : FFmt := ⟨8, 10, 127, .ieee⟩
def bf16 : FFmt := ⟨8, 7, 127, .ieee⟩
def fp16 : FFmt := ⟨5, 10, 15, .ieee⟩
def e4m3 : FFmt := ⟨4, 3, 7, .allOnes⟩
def e5m2 : FFmt := ⟨5, 2, 15, .ieee⟩
def e3m2 : FFmt := ⟨3, 2, 3, .none⟩
def e2m3 : FFmt := ⟨2, 3, 1, .none⟩
def e2m1 : FFmt := ⟨2, 1, 1, .none⟩
def w48 : FFmt := ⟨10, 37, 511, .ieee⟩

/-- The exponent of the smallest subnormal (Table 4.2). -/
def FFmt.minQ (f : FFmt) : Int := 1 - f.bias - f.fbits

/-- The quantum of the format at a non-zero magnitude `m × 2^e`. -/
def FFmt.quantum (f : FFmt) (m : Nat) (e : Int) : Int := max (topExp m e - f.fbits) f.minQ

/-- Largest finite value as significand and exponent (Table 4.2). -/
def FFmt.maxFin (f : FFmt) : Nat × Int :=
  match f.kind with
  | .ieee => (2 ^ (f.fbits + 1) - 1, (2 ^ f.ebits - 2 : Nat) - f.bias - f.fbits)
  | .allOnes => (2 ^ (f.fbits + 1) - 2, (2 ^ f.ebits - 1 : Nat) - f.bias - f.fbits)
  | .none => (2 ^ (f.fbits + 1) - 1, (2 ^ f.ebits - 1 : Nat) - f.bias - f.fbits)

/-- `m1 × 2^e1 < m2 × 2^e2`. -/
def magLt (m1 : Nat) (e1 : Int) (m2 : Nat) (e2 : Int) : Bool :=
  let b := min e1 e2
  decide (m1 * 2 ^ (e1 - b).toNat < m2 * 2 ^ (e2 - b).toNat)

/-- The magnitude exceeds the largest finite value. -/
def FFmt.beyond (f : FFmt) (m : Nat) (e : Int) : Bool := magLt f.maxFin.1 f.maxFin.2 m e

/-- The magnitude is at least the largest finite value plus half the unit in its last place. -/
def FFmt.reachesInf (f : FFmt) (m : Nat) (e : Int) : Bool :=
  !magLt m e (2 * f.maxFin.1 + 1) (f.maxFin.2 - 1)

/-- The value of an encoding (R82, R84). -/
def FFmt.decode (f : FFmt) (b : Nat) : Val :=
  let fr := b % 2 ^ f.fbits
  let ex := b / 2 ^ f.fbits % 2 ^ f.ebits
  let s := bitOf b (f.ebits + f.fbits)
  if f.kind = .ieee ∧ ex = 2 ^ f.ebits - 1 then (if fr = 0 then .inf s else .nan)
  else if f.kind = .allOnes ∧ ex = 2 ^ f.ebits - 1 ∧ fr = 2 ^ f.fbits - 1 then .nan
  else if ex = 0 then .fin s fr f.minQ
  else .fin s (2 ^ f.fbits + fr) (ex - f.bias - f.fbits)

/-- The canonical NaN of a format (R84); a format without NaN has none and writes +0 (R95). -/
def FFmt.canonNan (f : FFmt) : Nat :=
  match f.kind with
  | .ieee => (2 ^ f.ebits - 1) * 2 ^ f.fbits + 2 ^ (f.fbits - 1)
  | .allOnes => 2 ^ (f.ebits + f.fbits) - 1
  | .none => 0

/-- The encoding of a magnitude that the format holds exactly. -/
def FFmt.encodeMag (f : FFmt) (m : Nat) (e : Int) : Nat :=
  if m = 0 then 0
  else
    let q := f.quantum m e
    let n := roundQuanta .rtz m e q
    if n < 2 ^ f.fbits then n
    else (q + f.bias + f.fbits).toNat * 2 ^ f.fbits + (n - 2 ^ f.fbits)

/-- The encoding of a value that the format holds exactly. A format without infinity has no code
for one; R95 has replaced it before. -/
def FFmt.encode (f : FFmt) : Val → Nat
  | .nan => f.canonNan
  | .inf s => b2n s * 2 ^ (f.ebits + f.fbits) + (2 ^ f.ebits - 1) * 2 ^ f.fbits
  | .fin s m e => b2n s * 2 ^ (f.ebits + f.fbits) + f.encodeMag m e

/-- Rounds a magnitude within the finite range to the format's grid. -/
def FFmt.roundMag (f : FFmt) (r : Rnd) (s : Bool) (m : Nat) (e : Int) : Val :=
  if m = 0 then .fin s 0 0
  else .fin s (roundQuanta r m e (f.quantum m e)) (f.quantum m e)

/-- Largest finite value with sign `s`. -/
def FFmt.maxVal (f : FFmt) (s : Bool) : Val := .fin s f.maxFin.1 f.maxFin.2

/-- Round to nearest even with overflow to infinity, and whether it overflowed: W48 addition (R92),
drain stages 2 to 5 (R61), conversions to FP32 (R94), IEEE results (R116). Overflow is judged on the
rounded result. -/
def FFmt.roundNE (f : FFmt) : Val → Val × Bool
  | .fin s m e =>
    if f.reachesInf m e then (.inf s, true)
    else if f.beyond m e then (f.maxVal s, false)
    else (f.roundMag .rne s m e, false)
  | v => (v, false)

/-- The conversion of R95 to a floating-point output format, and whether it counts as overflow. -/
def FFmt.convert (f : FFmt) (r : Rnd) : Val → Val × Bool
  | .nan => (if f.kind = .none then .zero else .nan, false)
  | .inf s => (if f.kind = .ieee then .inf s else f.maxVal s, false)
  | .fin s m e =>
    if f.beyond m e then
      (if f.kind = .ieee ∧ r ≠ .rtz ∧ f.reachesInf m e then .inf s else f.maxVal s, true)
    else if (f.roundMag r s m e).isZero ∧ f.kind = .none then (.zero, false)
    else (f.roundMag r s m e, false)

/-- W48 addition of an exact sum `s` into the accumulator `a` (R92): a zero sum leaves `a` unchanged;
an exact zero result is +0. The flag is the sticky overflow. -/
def w48Add (a s : Val) : Val × Bool :=
  if s.isZero then (a, false)
  else
    let x := a.add s
    if x.isZero then (.zero, false) else w48.roundNE x

/-- An exact value rounded once to W48 by round-to-nearest-even (R47, R57). -/
def w48Round (v : Val) : Val := (w48.roundNE v).1

/-- Rounded to FP32 by round-to-nearest-even, with the overflow count (R61 stage 2, R94). -/
def toFp32 (v : Val) : Val × Bool := fp32.roundNE v

/-- The element formats and W48 by code (Table 4.1). -/
def ffmtOf (code : Nat) : Option FFmt :=
  match code with
  | 0 => some fp32 | 1 => some fp19 | 2 => some bf16 | 3 => some fp16 | 4 => some e4m3
  | 5 => some e5m2 | 6 => some e3m2 | 7 => some e2m3 | 8 => some e2m1 | 14 => some w48
  | _ => none

/-- A format code names an element format or W48 (Table 4.1): not 11, 12 or 15 to 31. -/
def fmtDefined (code : Nat) : Bool := code ≤ 10 || code == 13 || code == 14

/-- Bits an element occupies in a packed plane (R81, R149). -/
def fmtBits (code : Nat) : Nat :=
  match code with
  | 0 => 32 | 1 => 32 | 2 => 16 | 3 => 16 | 6 => 6 | 7 => 6 | 8 => 4 | 10 => 4 | 14 => 48
  | _ => 8

/-- Products per cell per beat of one format (Table 3.1; FP32 takes three beats for one). -/
def fmtP (code : Nat) : Nat :=
  match code with
  | 4 => 2 | 5 => 2 | 9 => 2 | 13 => 2 | 6 => 2 | 7 => 2 | 8 => 4 | 10 => 4
  | _ => 1

/-- Permitted operand pairings (R91). -/
def pairingOk (a b : Nat) : Bool :=
  if a == 0 || b == 0 then a == 0 && b == 0
  else
    let int (c : Nat) := c == 9 || c == 10
    let flt (c : Nat) := (1 ≤ c && c ≤ 8) || c == 13
    (int a && int b) || (flt a && flt b)

/-- Scale kinds that Table 4.3 permits for a format: 0 none, 1 E8M0, 2 UE4M3. -/
def scaleOk (fmt kind : Nat) : Bool :=
  kind == 0 || ((kind == 1 || kind == 2) && ((4 ≤ fmt && fmt ≤ 10)))

/-- Elements per block of a scale kind; BFP8 segments count as 32 (R86, R90). -/
def blockLen (fmt kind : Nat) : Nat := if fmt == 13 || kind == 1 then 32 else if kind == 2 then 16 else 0

/-- The value of an E8M0 scale byte (R86). -/
def e8m0Val (x : Nat) : Val := if x = 255 then .nan else .fin false 1 ((x : Int) - 127)

/-- The value of a UE4M3 scale byte (R86): bit [7] is ignored. -/
def ue4m3Val (x : Nat) : Val := e4m3.decode (x % 128)

/-- Two's-complement value of the low `w` bits times `2^(-f)`. -/
def intVal (w f b : Nat) : Val := ofSig (signedOf w b) (-(f : Int))

/-- The value of an element's raw bits, before any block scale, for a format with the scale kind
`kind` (R82, R85, R90). FP19 ignores container bits [12:0] (R81). A BFP8 element counts in units of
its segment exponent. -/
def elemVal (fmt kind raw : Nat) : Val :=
  match fmt with
  | 1 => fp19.decode (raw / 2 ^ 13)
  | 9 => intVal 8 (if kind == 0 then 0 else 6) raw
  | 10 => intVal 4 (if kind == 0 then 0 else 2) raw
  | 13 => if raw % 128 = 0 then .zero else .fin (bitOf raw 7) (raw % 128) (-6)
  | c => match ffmtOf c with
    | some f => f.decode raw
    | none => .nan

/-- The value of the scale byte of an element's block, 1 when the format carries none. -/
def scaleVal (fmt kind byte : Nat) : Val :=
  if fmt == 13 then e8m0Val byte else if kind == 1 then e8m0Val byte
  else if kind == 2 then ue4m3Val byte else .one

/-- A scaled element value with its operand offset `t` (R86, R88). A NaN scale makes it NaN, and so does an infinite element
under a zero UE4M3 scale, a product whose value R86 does not give (assumption 105). -/
def scaledVal (fmt kind raw byte : Nat) (t : Int) : Val :=
  ((elemVal fmt kind raw).mul (scaleVal fmt kind byte)).scale2 t

/-- `x` rounded toward zero to BF16 (the hi and lo parts of R46). -/
def toBf16RTZ : Val → Val
  | .fin s m e => if bf16.beyond m e then bf16.maxVal s else bf16.roundMag .rtz s m e
  | v => v

/-- The hi and lo parts of an FP32 element (R46). -/
def fp32Split (x : Val) : Val × Val :=
  let hi := toBf16RTZ x
  (hi, toBf16RTZ (x.add hi.neg))

/-- The value of an encoded FP32 word. -/
def fp32Of (w : Nat) : Val := fp32.decode (w % 2 ^ 32)

/-- The exact sum of values, from left to right. -/
def sumExact (vs : List Val) : Val := vs.foldl Val.add .zero

/- Random draws (R104). -/

/-- The mixing function of R104, modulo 2⁶⁴. -/
def mix64 (x : Nat) : Nat :=
  let x := x % 2 ^ 64
  let x := Nat.xor x (x / 2 ^ 32)
  let x := x * 0xD6E8FEB86659FD93 % 2 ^ 64
  let x := Nat.xor x (x / 2 ^ 29)
  let x := x * 0x9E6C63D0676A9A99 % 2 ^ 64
  Nat.xor x (x / 2 ^ 32)

/-- The key of a draw (R104) but for the element and the copy. -/
structure DrawKey where
  seed : Nat
  stream : Nat
  step : Nat
  mb : Nat
  tile : Nat
  sel : Nat
  deriving DecidableEq, Repr

/-- The random word for one rounded element (R104). -/
def draw (k : DrawKey) (elem copy : Nat) : Nat :=
  let a := (k.step % 2 ^ 40) * 2 ^ 24 + (k.stream % 2 ^ 8) * 2 ^ 16 + k.mb % 2 ^ 16
  let b := (k.tile % 2 ^ 32) * 2 ^ 32 + (k.sel % 2 ^ 17) * 2 ^ 15 + (copy % 2) * 2 ^ 14 + elem % 2 ^ 14
  let h := mix64 (Nat.xor (Nat.xor (k.seed % 2 ^ 64) a) 0x5851F42D4C957F2D)
  mix64 (Nat.xor h b)

/-- The rounding of one element in the frame's mode (R101, R102). -/
def roundModeOf (code : Nat) (k : DrawKey) (elem copy : Nat) : Rnd :=
  match code with
  | 0 => .rne
  | 1 => .rtz
  | 2 => .sr 8 (draw k elem copy / 2 ^ 56)
  | 3 => .sr 12 (draw k elem copy / 2 ^ 52)
  | _ => .sr 16 (draw k elem copy / 2 ^ 48)

/- Output conversion, one block at a time (stages 6 and 7, R95 to R100). -/

/-- How one written element counts (R65): the first rule that applies. -/
inductive Count where
  | none | nan | ovf | inf
  deriving DecidableEq, Repr

/-- An element at stage 6: its value after stage 5, whether an earlier stage overflowed, and its
rounding. -/
structure Elem where
  v : Val
  ovf : Bool
  r : Rnd
  deriving DecidableEq, Repr

/-- The count of R65 from the value after stage 5, an overflow of any stage, and whether the element
ends as an infinity or as one written largest finite. -/
def countOf (v : Val) (ovf isInf : Bool) : Count :=
  if v.isNan then .nan else if ovf then .ovf else if isInf then .inf else .none

/-- Integer limits of a format's width: the largest and the smallest in magnitude. -/
def intMax (w : Nat) (neg : Bool) : Nat := if neg then 2 ^ (w - 1) else 2 ^ (w - 1) - 1

/-- Two's-complement bits of `(-1)^neg × n`. -/
def intBits (w : Nat) (neg : Bool) (n : Nat) : Nat := if neg then (2 ^ w - n) % 2 ^ w else n

/-- Conversion of a finite magnitude to INT8 or INT4 with `f` fraction bits (R95, R98, R99): rounded to
an integer first, then held to the limit of its own sign. The flag says that the limit was applied. -/
def toInt (w f : Nat) (r : Rnd) (neg : Bool) (m : Nat) (e : Int) : Nat × Bool :=
  let n := if m = 0 then 0 else roundQuanta r m (e + f) 0
  if intMax w neg < n then (intBits w neg (intMax w neg), true) else (intBits w neg n, false)

/-- One unscaled element to the output format: its bits and its count (R95). -/
def convertElem (fmt : Nat) (x : Elem) : Nat × Count :=
  if fmt == 9 || fmt == 10 then
    let w := fmtBits fmt
    match x.v with
    | .nan => (0, .nan)
    | .inf s => (intBits w s (intMax w s), countOf x.v x.ovf true)
    | .fin s m e =>
      let (b, o) := toInt w 0 x.r s m e
      (b, countOf x.v (x.ovf || o) false)
  else
    let f := (ffmtOf fmt).getD fp32
    let (v, o) := f.convert x.r x.v
    let c := countOf x.v (x.ovf || o) (x.v.nonfinite || v.nonfinite)
    (if fmt == 1 then f.encode v * 2 ^ 13 else f.encode v, c)

/-- The largest finite magnitude of a list of values, as a value (`amax` of R97; zero if none). -/
def amax (vs : List Val) : Val :=
  vs.foldl (fun a v => if v.nonfinite then a else if a.lt v.abs then v.abs else a) .zero

/-- `emax` of Table R98. -/
def emaxOf (fmt : Nat) : Int :=
  match fmt with
  | 4 => 8 | 5 => 15 | 6 => 4 | 7 => 2 | 8 => 2
  | _ => 0

/-- The largest finite value of an element format for the scale of R99 (an integer format with a block
scale ends at 127 × 2⁻⁶ or 7 × 2⁻²; DEDUCED, assumption 8). -/
def elemMax (fmt : Nat) : Nat × Int :=
  match fmt with
  | 9 => (127, -6)
  | 10 => (7, -2)
  | c => ((ffmtOf c).getD fp32).maxFin

/-- One scaled element written clamped (R98, R99): its bits and whether the clamp acted. `num ÷ den ×
2^e` is the scaled magnitude. -/
def clampElem (fmt : Nat) (r : Rnd) (neg : Bool) (num den : Nat) (e : Int) : Nat × Bool :=
  if fmt == 9 || fmt == 10 then
    let w := fmtBits fmt
    let f : Int := if fmt == 9 then 6 else 2
    let n := roundRatio r num den (e + f) 0
    if intMax w neg < n then (intBits w neg (intMax w neg), true) else (intBits w neg n, false)
  else
    let f := (ffmtOf fmt).getD fp32
    let (mm, me) := f.maxFin
    let lo := min e me
    if decide (mm * den * 2 ^ (me - lo).toNat < num * 2 ^ (e - lo).toNat) then
      (f.encode (f.maxVal neg), true)
    else if num = 0 then (b2n neg * 2 ^ (f.ebits + f.fbits), false)
    else
      -- the binade of the quotient fixes the quantum
      let t0 : Int := (Nat.log2 num : Int) - Nat.log2 den + e
      let below := decide (num * 2 ^ (e - t0).toNat < den * 2 ^ (t0 - e).toNat)
      let t := if below then t0 - 1 else t0
      let q := max (t - f.fbits) f.minQ
      (b2n neg * 2 ^ (f.ebits + f.fbits) + f.encodeMag (roundRatio r num den e q) q, false)

/-- Bits and count of an element of a block whose scale is the dyadic `sm × 2^se`; `clampCounts` is
true under UE4M3 (R99) and false under E8M0 (R98). -/
def blockElem (fmt : Nat) (clampCounts : Bool) (sm : Nat) (se : Int) (x : Elem) : Nat × Count :=
  match x.v with
  | .nan => (0, .nan)
  | .inf s => (e5m2.encode (.inf s), countOf x.v x.ovf true)
  | .fin s m e =>
    if sm = 0 then (0, countOf x.v x.ovf false)
    else
      let (b, o) := clampElem fmt x.r s m sm (e - se)
      (b, countOf x.v (x.ovf || (clampCounts && o)) false)

/-- A block under a NaN scale (R97): bytes 0, only its NaNs and infinities counted (an element whose
earlier stage overflowed counts as overflow, R65). -/
def nanBlock (xs : List Elem) : List (Nat × Count) :=
  xs.map fun x => (0, if x.v.nonfinite then countOf x.v x.ovf true else .none)

/-- One block of an E8M0-scaled output (R98): scale byte and elements. -/
def e8m0Block (fmt : Nat) (xs : List Elem) : Nat × List (Nat × Count) :=
  if xs.any (fun x => x.v.isNan || (x.v.nonfinite && fmt != 5)) then (0xFF, nanBlock xs)
  else
    match amax (xs.map (·.v)) with
    | .fin _ m e =>
      if m = 0 then (0, xs.map (blockElem fmt false 1 (-127)))
      else
        let x := max (-127) (min 127 (topExp m e - emaxOf fmt))
        ((x + 127).toNat, xs.map (blockElem fmt false 1 x))
    | _ => (0xFF, nanBlock xs)

/-- The UE4M3 byte of `amax ÷ largest finite`, rounded upward and held to 448 (R99). -/
def ue4m3Scale (fmt m : Nat) (e : Int) : Nat :=
  let (mm, me) := elemMax fmt
  -- smallest byte 0x00 to 0x7E whose value is at least the quotient
  ((List.range 0x7F).find? fun b =>
    match ue4m3Val b with
    | .fin _ sm se => !magLt (sm * mm) (se + me) m e
    | _ => true).getD 0x7E

/-- One block of a UE4M3-scaled output (R99). -/
def ue4m3Block (fmt : Nat) (xs : List Elem) : Nat × List (Nat × Count) :=
  if xs.any (fun x => x.v.isNan || (x.v.nonfinite && fmt != 5)) then (0x7F, nanBlock xs)
  else
    match amax (xs.map (·.v)) with
    | .fin _ m e =>
      if m = 0 then (0, xs.map (blockElem fmt true 0 0))
      else
        let b := ue4m3Scale fmt m e
        match ue4m3Val b with
        | .fin _ sm se => (b, xs.map (blockElem fmt true sm se))
        | _ => (0x7F, nanBlock xs)
    | _ => (0x7F, nanBlock xs)

/-- One BFP8 segment (R100). -/
def bfp8Block (xs : List Elem) : Nat × List (Nat × Count) :=
  if xs.any (fun x => x.v.nonfinite) then (0xFF, nanBlock xs)
  else
    match amax (xs.map (·.v)) with
    | .fin _ m e =>
      if m = 0 then (0, xs.map fun x => (0, countOf x.v x.ovf false))
      else
        let x0 := (max 0 (min 254 (topExp m e + 127))).toNat
        let mag (xb : Nat) (x : Elem) : Nat :=
          match x.v with
          | .fin _ m e => if m = 0 then 0 else roundQuanta x.r m e ((xb : Int) - 133)
          | _ => 0
        let bump := xs.any fun x => decide (128 ≤ mag x0 x)
        let xb := if bump && decide (x0 < 254) then x0 + 1 else x0
        (xb, xs.map fun x =>
          let k := mag xb x
          let c := min k 127
          (if c = 0 then 0 else b2n x.v.isNeg * 128 + c, countOf x.v (x.ovf || decide (127 < k)) false))
    | _ => (0xFF, nanBlock xs)

/-- One block (or, with no scale, any run) of output elements: the scale byte where the format has one,
the element bits and the counts. -/
def outBlock (fmt kind : Nat) (xs : List Elem) : Option Nat × List (Nat × Count) :=
  if fmt == 13 then let (s, es) := bfp8Block xs; (some s, es)
  else if kind == 1 then let (s, es) := e8m0Block fmt xs; (some s, es)
  else if kind == 2 then let (s, es) := ue4m3Block fmt xs; (some s, es)
  else (none, xs.map (convertElem fmt))

/-- A list cut into runs of `n` (the last may be shorter); `fuel` runs at most. -/
def chunks {α : Type} (n : Nat) : Nat → List α → List (List α)
  | 0, _ => []
  | fuel + 1, xs => if xs.isEmpty then [] else xs.take n :: chunks n fuel (xs.drop n)

/-- One line along the contiguous axis: scale bytes and elements with their counts. -/
def outLine (fmt kind : Nat) (xs : List Elem) : List Nat × List (Nat × Count) :=
  let n := blockLen fmt kind
  if n = 0 then ([], (outBlock fmt kind xs).2)
  else
    let bs := (chunks n xs.length xs).map (outBlock fmt kind)
    (bs.filterMap (·.1), bs.flatMap (·.2))

end Sys2Proof.Machine
end

