-- ==== Sys2Proof/Machine/Map.lean ====
section
/-! DEFINITION. Sparse maps in one canonical form: keys strictly rising, no entry equal to the default
of its key. Memories, register blocks and accumulator sets are such maps, so equal contents are equal
data. -/

namespace Sys2Proof.Machine

/-- A sparse map from numbers. -/
abbrev SMap (α : Type) := List (Nat × α)

/-- The value at a key; `d` gives what an unlisted key holds. -/
def SMap.get {α : Type} (d : Nat → α) : SMap α → Nat → α
  | [], k => d k
  | (k', v) :: m, k => if k' = k then v else SMap.get d m k

/-- Writes one key, keeping the canonical form. -/
def SMap.set {α : Type} [DecidableEq α] (d : Nat → α) : SMap α → Nat → α → SMap α
  | [], k, v => if v = d k then [] else [(k, v)]
  | (k', v') :: m, k, v =>
    if k < k' then (if v = d k then (k', v') :: m else (k, v) :: (k', v') :: m)
    else if k = k' then (if v = d k then m else (k, v) :: m)
    else (k', v') :: SMap.set d m k v

/-- Writes several keys in order. -/
def SMap.setAll {α : Type} [DecidableEq α] (d : Nat → α) (m : SMap α) (kvs : List (Nat × α)) : SMap α :=
  kvs.foldl (fun m kv => SMap.set d m kv.1 kv.2) m

/-- Keys strictly rise from `lo` on, and no entry equals its default. -/
def SMap.wfFrom {α : Type} [DecidableEq α] (d : Nat → α) : Nat → SMap α → Bool
  | _, [] => true
  | lo, (k, v) :: m => decide (lo ≤ k) && decide (v ≠ d k) && SMap.wfFrom d (k + 1) m

/-- The canonical form. -/
def SMap.wf {α : Type} [DecidableEq α] (d : Nat → α) (m : SMap α) : Bool := SMap.wfFrom d 0 m

/-- A byte memory. A byte that nothing has written reads as 0 (assumption 2). -/
abbrev Memory := List Host.Cell

/-- What an unlisted byte reads as. -/
def memDefault (_ : Nat) : Byte := 0

/-- The canonical form of a memory. -/
def Memory.wf (m : Memory) : Bool := SMap.wf memDefault m

/-- One byte. -/
def Memory.read (m : Memory) (a : Nat) : Byte := SMap.get memDefault m a

/-- Entries below `a`. -/
def Memory.below (m : Memory) (a : Nat) : Memory := m.filter fun c => decide (c.1 < a)

/-- Entries at `a` and above. -/
def Memory.from (m : Memory) (a : Nat) : Memory := m.filter fun c => decide (a ≤ c.1)

/-- Entries of a run of bytes from `a`, the defaults left out. -/
def Memory.cells : Nat → List Byte → Memory
  | _, [] => []
  | a, b :: bs => if b = memDefault a then Memory.cells (a + 1) bs else (a, b) :: Memory.cells (a + 1) bs

/-- The `n` bytes from `a`, walking the sorted entries once. -/
def Memory.runFrom : Memory → Nat → Nat → List Byte
  | _, _, 0 => []
  | [], a, n + 1 => memDefault a :: Memory.runFrom [] (a + 1) n
  | (k, v) :: m, a, n + 1 =>
    if k = a then v :: Memory.runFrom m (a + 1) n
    else memDefault a :: Memory.runFrom ((k, v) :: m) (a + 1) n

/-- The `n` bytes from `a`. -/
def Memory.readRun (m : Memory) (a n : Nat) : List Byte := Memory.runFrom (m.from a) a n

/-- Writes a run of bytes from `a`. -/
def Memory.writeRun (m : Memory) (a : Nat) (bs : List Byte) : Memory :=
  m.below a ++ (Memory.cells a bs ++ m.from (a + bs.length))

/-- A little-endian number of `n` bytes at `a` (R7). -/
def Memory.readLE (m : Memory) (a n : Nat) : Nat := leNat (m.readRun a n)

/-- Writes a little-endian number of `n` bytes at `a` (R7). -/
def Memory.writeLE (m : Memory) (a n v : Nat) : Memory := m.writeRun a (leBytes n v)

/-- A block of 32-bit registers by byte offset. -/
abbrev Regs := SMap Word

/-- Registers of a block hold the reset values that the block's `d` gives. -/
def Regs.rd (d : Nat → Word) (m : Regs) (off : Nat) : Nat := (SMap.get d m off).toNat

def Regs.wr (d : Nat → Word) (m : Regs) (off v : Nat) : Regs := SMap.set d m off (BitVec.ofNat 32 v)

/-- Adds to a 32-bit counter that wraps. -/
def Regs.bump (d : Nat → Word) (m : Regs) (off n : Nat) : Regs := Regs.wr d m off (Regs.rd d m off + n)

/-- Adds to a 32-bit counter that saturates. -/
def Regs.bumpSat (d : Nat → Word) (m : Regs) (off n : Nat) : Regs :=
  Regs.wr d m off (min (Regs.rd d m off + n) (2 ^ 32 - 1))

/-- A 64-bit counter whose LO register is at `off` and HI at `off + 4`. -/
def Regs.rd64 (d : Nat → Word) (m : Regs) (off : Nat) : Nat :=
  Regs.rd d m off + Regs.rd d m (off + 4) * 2 ^ 32

def Regs.bump64 (d : Nat → Word) (m : Regs) (off n : Nat) : Regs :=
  let v := Regs.rd64 d m off + n
  Regs.wr d (Regs.wr d m off v) (off + 4) (v / 2 ^ 32)

/-- Replaces bits [hi:lo] of a register. -/
def Regs.wrBits (d : Nat → Word) (m : Regs) (off hi lo v : Nat) : Regs :=
  let w := Regs.rd d m off
  Regs.wr d m off (w - bitsOf w hi lo * 2 ^ lo + v % 2 ^ (hi + 1 - lo) * 2 ^ lo)

end Sys2Proof.Machine
end

