-- ==== Sys2Proof/Machine/State.lean ====
section
/-! DEFINITION. The state of the LS40 module as plain data, and its reset value. -/

namespace Sys2Proof.Machine

/-- No command of the block stops it: every failure the spec names is a status, a register or an answer.
The type is empty. -/
inductive Fault where
  deriving DecidableEq, Repr

/-- Why the model declines a command. -/
inductive Refusal where
  /-- A row that has no meaning yet. Raised only by an arm of `exec`; safe. -/
  | notModelled (mnemonic : String)
  deriving DecidableEq, Repr

/-! ### Cores (Chapters 2 to 8) -/

/-- A cell of one accumulator set (R44): the W48 accumulator, the absolute sum (witness cells only), the
index and the two sticky flags. -/
structure Cell where
  acc : BitVec 48 := 0
  abs : BitVec 48 := 0
  idx : BitVec 24 := 0
  ovf : Bool := false
  nf : Bool := false
  deriving DecidableEq, Repr

/-- Accumulator set (R36, R44, R51, R155). Cell keys: 128·i + j for data cells, 16384 + 64·q + i for the
witness column and 16640 + 64·q + j for the witness row of quadrant q. `tag` is none while the set has
held no tag since core reset. `red` is the depth of the RED mark, `poison` the recorded status, 0 when
clean. -/
structure AccSet where
  cells : SMap Cell := []
  tag : Option Byte := none
  complete : Bool := false
  red : Option Nat := none
  poison : Byte := 0
  deriving DecidableEq, Repr

/-- STATE of CORE_STW_STATUS (Table 5.10). -/
inductive StwState where
  | halted | running | waiting | faulted
  deriving DecidableEq, Repr

/-- A Steward (R113 to R118). `waitD` and `waitMask` are those of the WAIT it waits in. -/
structure Steward where
  g : Vector Word 32
  pc : BitVec 14
  bank : Bool
  state : StwState
  cause : Nat
  fflags : BitVec 5
  events : BitVec 16
  stopReq : Bool
  deriving DecidableEq, Repr

/-- A billet table entry as read (Table 7.2), with its number. -/
structure BEntry where
  num : Nat
  base : Nat
  size : Nat
  w1 : Nat
  w2 : Nat
  w3 : Nat
  deriving DecidableEq, Repr

/-- A frame instance (R126, R131). `next` is the index in its list of the next command to issue, `held` the
WCT or FENCE that holds its issue (R128). `cancel` is the status the Innkeeper gave, `failed` the first
failing status, `fencedSeen` says that a command returned PARTIAL_FENCED. -/
structure Inst where
  mb : BitVec 16
  start : Nat
  len : Nat
  running : Bool
  next : Nat
  held : Option TileCmd
  maskEmpty : Bool
  nonfinite : Bool
  poisoned : Bool
  cancel : Option Byte
  failed : Option Byte
  fencedSeen : Bool
  startedAt : Nat
  /-- Entries filled and slots taken by the instance's BQTs (R186): entry number, endpoint, slot. -/
  taken : List (Nat × Nat × Nat)
  deriving DecidableEq, Repr

/-- A frame slot (R125, R138): the frame image, the instance, the status registers' parts, the instance
generation (R189), whether the frame holds a resident tile, and the set saved while it is parked with the
image bytes written. -/
structure Slot where
  image : Option (List Byte) := none
  inst : Option Inst := none
  lastStatus : Byte := 0
  lastMb : BitVec 16 := 0
  gen : BitVec 8 := 0
  resident : Bool := false
  parked : Option AccSet := none
  deriving DecidableEq, Repr

/-- A command on the array engine, the shadow path or the control unit (R128). `mask` and `tol` are
latched at its start (R67, R77); `tile` counts caravan tiles consumed; `waiting` marks a tolerant wait; `arrived` is the
moment at which the request of a BQP arrived (R29). -/
structure Job where
  slot : Fin 8
  seq : Nat
  cmd : TileCmd
  ents : List BEntry
  started : Bool
  mask : BitVec 128
  tol : Nat
  tile : Nat
  waiting : Bool
  poison : Byte
  arrived : Nat := 0
  deriving DecidableEq, Repr

/-- What a Porter LDT found when it read its granules (R162, R241): `held` that a channel is held for service (R251). -/
inductive LoadData where
  | bytes (bs : List Byte)
  | bad
  | refetching (slot : Nat)
  | held
  deriving DecidableEq, Repr

/-- An outstanding Porter request (R187 to R189). `gen` is the generation it was issued under; a request
whose slot has moved on is stale. `ctx`, `rows` and `cols` are its frame's. `tag` is a caravan insertion's. The fields from
`expected` on are an XMT's: completions expected and returned, and the outcomes seen. -/
structure PJob where
  slot : Fin 8
  gen : BitVec 8
  seq : Nat
  mb : BitVec 16
  ctx : Nat
  rows : Nat
  cols : Nat
  cmd : TileCmd
  ent : BEntry
  data : LoadData
  urgent : Bool
  stale : Bool
  dropped : Bool
  tag : BitVec 16
  expected : Nat
  returned : Nat
  negative : Bool
  timedOut : Bool
  /-- Bitmap of the members named by fenced-discards (R286). -/
  pruned : Nat
  deriving DecidableEq, Repr

/-- A queue element of a billet-queue endpoint (R185, R186): a handle with word 1 and its slot, or a
poison token. -/
inductive QItem where
  | handle (w0 w1 : Word) (slot : Nat)
  | token (status : Byte)
  deriving DecidableEq, Repr

/-- A receiving endpoint (R184): its queue, which of its 16 slots are occupied, and the cores that its arbiter has granted
since module reset, the least recent first (R30). -/
structure Endpoint where
  queue : List QItem := []
  busy : BitVec 16 := 0
  grants : List Nat := []
  deriving DecidableEq, Repr

/-- A caravan tile or poison token in a place of the buffer (R192, R194). -/
structure CTile where
  tag : BitVec 16
  poison : Byte
  bytes : List Byte
  consumed : Bool
  forwarded : Bool
  deriving DecidableEq, Repr

inductive CarState where
  | unbound | bound | hold | fenced
  deriving DecidableEq, Repr

/-- A caravan port (R191): the caravan block it is bound to (Table 5.6), its places and OWED. `resuming` says
that a RESUME forwards what is owed (R195); `inbound` are tiles on the mesh towards the port, each with the
core that sent it. -/
structure Caravan where
  state : CarState := .unbound
  forward : Bool := false
  id : Nat := 0
  position : Nat := 0
  prev : Nat := 0xFF
  next : Nat := 0xFF
  tiles : List CTile := []
  owed : Nat := 0
  resuming : Bool := false
  inbound : List (Nat × CTile) := []
  deriving DecidableEq, Repr

/-- An activation table (R63): segment words (m at 2s, c at 2s + 1) and E0. -/
structure ActTable where
  seg : SMap Word := []
  e0 : Byte := 0
  deriving DecidableEq, Repr

/-- One core (R112). `regs` holds its stored window registers by BAR0 offset; `win` and `stepSh` are the
telemetry copies (R384). `role` is GLB_CORE_MAP.ROLE. `modFence` marks CORE_ARRAY_CFG bits that the
module set (R78). -/
structure Core where
  regs : Regs
  win : Regs
  stepSh : Regs
  stw : Steward
  imem0 : SMap Word
  imem1 : SMap Word
  flipPending : Bool
  dmem : Memory
  sp : Memory
  slots : Vector Slot 8
  soft : BitVec 16
  softFill : BitVec 16
  mask : Vector (BitVec 128) 16
  act : Vector ActTable 2
  live : AccSet
  shadow : AccSet
  /-- The slot whose resident tile is in the live set. -/
  liveOwner : Option (Fin 8)
  arrayQ : List Job
  shadowQ : List Job
  porterQ : List PJob
  /-- BQPs and BQTs that wait on the queue unit. -/
  queueQ : List Job
  ends : Vector Endpoint 16
  car : Caravan
  /-- Admission queue entries (CSR ADMIT words) and abort notices held back (R349). -/
  admitQ : List Word
  heldNotices : List Word
  fwdDone : List (BitVec 16)
  /-- Completed tile loads per readiness group and micro-batch (R130, R162). -/
  groups : List ((BitVec 16 × BitVec 16) × Nat)
  ctx : Option (Fin 64)
  role : Nat
  degraded : Bool
  aliasTo : Option (Fin 192)
  modFence : BitVec 5
  /-- QUAD_FENCE and SHADOW_FENCE in force since the last frame boundary (Table 3.5). -/
  arrayCfg : BitVec 5
  /-- Skew-stall beat-equivalents (R40). -/
  skewStall : Nat
  /-- Refused by the energy selection since this time, with an array instance ready (R356). -/
  refusedAt : Option Nat
  /-- The guard time of R356 has passed (GUARD_US_EXPIRY). -/
  guardPassed : Bool
  /-- Draw committed for the running array instance, in µW (R356): HEAT_CLASS in pJ × pace in Mbeat/s. -/
  draw : Nat
  /-- Pace-sensor correction in tenths of a percent (R443) and measured pace in Mbeat/s (R28). -/
  correction : Int
  paceM : Nat
  /-- Fenced by the slow-core path (R403, R444). -/
  slowFenced : Bool
  deriving DecidableEq, Repr

/-! ### Contexts (Chapters 8, 13, 15) -/

/-- A submission descriptor in the module: its ring, the index the ring gave it and its 64 bytes. -/
structure DescRef where
  ring : Nat
  idx : Nat
  bytes : List Byte
  deriving DecidableEq, Repr

/-- STATE of INNK_CTX_STATE (Table 13.7). -/
inductive CtxState where
  | closed | opened | orphaned | parkedBoundary | parkedMid
  deriving DecidableEq, Repr

/-- A completion record (Table 12.5) before it is written; `idx` is the descriptor's, none for a stream
arm or a record held over a resume, which `heldOver` marks (R363). -/
structure Rec where
  sq : Nat
  idx : Option Nat
  tag : Nat
  status : Byte
  type : Nat
  d16 : Nat
  d32 : Nat
  d64 : Nat
  irq : Bool
  time : Nat
  heldOver : Bool := false
  deriving DecidableEq, Repr

/-- A micro-batch (R211, R212, R347). `admitted` and `resv` hold once admitted; `extents` are the
overflow extents allocated (R210): extent number of the micro-batch and place; `failed` the first
failing status; `aborted` the abort status; `done` says that it has completed or been released. `batch`
says that it is a decode batch (R353). -/
structure Mb where
  mb : Nat
  step : Nat
  est : Nat
  admitted : Bool
  resv : Nat
  resvBase : List Nat
  extents : List (Nat × Nat)
  spilled : Bool
  failed : Option Byte
  aborted : Option Byte
  desc : Option DescRef
  batch : Bool
  done : Bool
  /-- A weight-gradient instance of it has issued (R351). -/
  wg : Bool
  deriving DecidableEq, Repr

/-- A decode request in a batch, or one that waits for a buffer, with its input row (R353, R354). -/
structure DecReq where
  desc : DescRef
  data : List Byte
  deriving DecidableEq, Repr

/-- An open or closed decode batch: its buffer, index, requests in row order, and its deadline. -/
structure Batch where
  buf : Nat
  mb : Nat
  closed : Bool
  deadline : Nat
  reqs : List DecReq
  deriving DecidableEq, Repr

/-- Decode configuration (Table 13.3). -/
structure DecCfg where
  buffers : Nat
  deadlineUs : Nat
  base : Nat
  inStride : Nat
  outStride : Nat
  stashMib : Nat
  deriving DecidableEq, Repr

/-- A generation slot at the snapshot destination (R393): `nextOk` says that the step after it passed its check. -/
structure Gen where
  complete : Bool := false
  confirmed : Bool := false
  nextOk : Bool := false
  step : Nat := 0
  deriving DecidableEq, Repr

/-- The snapshot machinery of a context beside its registers (R393, R408 to R412). `phase`: 0 idle, 1 stop, 2 drain,
3 restore; `slot` is the slot that the drain writes; `now` that a snapshot is to be taken at the next boundary it may;
`staged` the step held by the staging area; `ledger` the unsigned ledger of the last stop (R410), `taken` what that stop
took (Table 15.3). -/
structure Snap where
  phase : Nat := 0
  slot : Bool := false
  gen0 : Gen := {}
  gen1 : Gen := {}
  newest : Bool := false
  result : Nat := 0
  seq : Nat := 0
  now : Bool := false
  lastEnd : Nat := 0
  lastStop : Option Nat := none
  staged : Option Nat := none
  restoreFunc : Nat := 0
  ledger : List Byte := []
  taken : Option Saved := none
  deriving DecidableEq, Repr

/-- A context (R341). -/
structure Ctx where
  state : CtxState
  fn : Nat
  decode : Bool
  orphan : Nat
  part : Nat
  weight : Nat
  filler : Option Nat
  sqFirst : Nat
  sqCount : Nat
  cqFirst : Nat
  cqCount : Nat
  ccFirst : Nat
  ccCount : Nat
  seed : Nat
  /-- The parameters of its CTX_OPEN (Table 15.3). -/
  params : List Byte
  cores : List Nat
  fill : Nat
  /-- Stash (R209, R210). -/
  poolMib : Nat
  freeMib : Nat
  ovfCap : Nat
  poolRegion : Nat
  ovfRegion : Nat
  /-- Step: the last index (none before the first STEP), whether the next may carry any index (R346), whether a step is
  open, MB_COUNT, its descriptor. -/
  step : Option Nat
  anyStep : Bool
  inStep : Bool
  mbCount : Nat
  stepDesc : Option DescRef
  stepOpenAt : Nat
  fetchedMbs : List Nat
  /-- STEP descriptors that wait and micro-batches queued or in flight. -/
  waitingSteps : List DescRef
  mbs : List Mb
  /-- The first taint of the open step: cause and status (R392). -/
  taint : Option (Nat × Byte)
  tainted : Bool
  taintCause : Nat
  /-- Cores that ran work of the context during the open step (R392). -/
  ran : List Nat
  /-- Random-stream position records (R106): stream → (step, count); unlisted is the derived one. -/
  rng : SMap (Nat × Nat)
  /-- Step record accumulators (Table 13.8): core time in ns of CLASS 0 to 2, starved and skew, summed. -/
  accFwd : Nat
  accAgrad : Nat
  accWgrad : Nat
  accStarved : Nat
  accSkew : Nat
  accMbOk : Nat
  accMbFailed : Nat
  accPartial : Nat
  accOvfBytes : Nat
  lastMbEnd : Option Nat
  reduceEnd : Option Nat
  snapUs : Nat
  /-- The step profile of R357: COMMITTED at each millisecond of the last step and of this one. -/
  profile : List Nat
  profileNow : List Nat
  dec : Option DecCfg
  batches : List Batch
  nextBatch : Nat
  decWaiting : List DecReq
  deficit : Nat
  /-- The rules of R360 hold, from the expiry to the resume; completion records are held (R361). -/
  orphaned : Bool
  held : List Rec
  reclaimed : Bool
  snap : Snap
  deriving DecidableEq, Repr

/-! ### Memory tiers (Chapter 9) -/

/-- MIRROR of a region (Table 9.2). -/
inductive Mirror where
  | none
  | peer (ep win gen off : Nat)
  | host (fn addr : Nat)
  deriving DecidableEq, Repr

/-- A region (Table 9.2). `size` is in 4 KiB units, `slot` in 64 B units. `closing` is the REGION_CLOSE
that waits to take effect (R227). -/
structure Region where
  base : Nat
  size : Nat
  ctx : Nat
  kind : Nat
  slot : Nat
  home : Nat
  ro : Bool
  snapshot : Bool
  mirror : Mirror
  closing : Option DescRef
  /-- FILL of the REGION_OPEN, which a ledger keeps (R410). -/
  fill : Nat := 0
  deriving DecidableEq, Repr

/-- The state of a tile slot (Table 9.7). -/
inductive SlotSt where
  | clean | dirty | poisoned | refetching
  deriving DecidableEq, Repr

/-- A directory entry (R237). `comp` and `stored` are the compression code and stored bytes of the tile in
the cellar (R233), of the home copy for a tiered slot. -/
structure DirEnt where
  st : SlotSt := .clean
  gen : Nat := 0
  comp : Nat := 0
  stored : Nat := 0
  deriving DecidableEq, Repr

/-- A refetch under way (R241): its number, the slot's address, the state before the fault, whether a whole write has
overtaken it, and the writes that wait for it (Table 9.7). `home` says that the home copy is being tried; `got`
are the parts of a peer mirror's tile that have come, `asked` how many were asked for. -/
structure Refetch where
  serial : Nat
  slot : Nat
  prior : SlotSt
  overtaken : Bool
  writes : List (Nat × List Byte)
  home : Bool
  asked : Nat
  got : List (Nat × List Byte)
  failed : Bool
  deriving DecidableEq, Repr

/-- A write-combining entry (R247): granule number and bytes covered; oldest first in its channel. The data
stands in memory at once, since every later read sees it. -/
structure WcEntry where
  gran : Nat
  mask : BitVec 64
  deriving DecidableEq, Repr

/-- Accesses that wait at a channel for granule slots (R248, R249), in a run: the partition charged, none for directory and
reserved-range traffic, the class (0 urgent, 1 normal, 2 background), the tokens of each access in bytes, and the accesses
left. -/
structure ChanReq where
  part : Option (Fin 16)
  cls : Nat
  cost : Nat
  left : Nat
  deriving DecidableEq, Repr

/-- A memory channel (R251 to R253). `regs` holds its stored window registers; `win` and `stepSh` their
copies. `dieCorr` counts corrections per die in this telemetry window. `st` is CHAN_INFO.STATE; `svc`
SVC_STATUS.SVC. `tokens` are the partition buckets in bytes, `reqs` the accesses that wait for their granule slots, oldest first. -/
structure Chan where
  regs : Regs
  win : Regs
  stepSh : Regs
  dieCorr : SMap Nat
  erased : Option Nat
  st : Nat
  svc : Nat
  wc : List WcEntry
  tokens : SMap Nat
  lastPart : Nat
  reqs : List ChanReq
  deriving DecidableEq, Repr

/-- A service operation in request order (R251): channel, OP, and whether it runs. -/
structure SvcOp where
  chan : Nat
  op : Nat
  running : Bool
  deriving DecidableEq, Repr

/-! ### Rings and streams (Chapter 12) -/

/-- A fetched descriptor that is not yet completed (R329); `waits` says that it has started and its row is taken again. -/
structure OutDesc where
  ref : DescRef
  started : Bool
  waits : Bool := false
  deriving DecidableEq, Repr

/-- A submission ring (R326 to R329); its programmed registers are in the module's registers. -/
structure SubRing where
  ctx : Option (Fin 64) := none
  head : Nat := 0
  tail : Nat := 0
  badDb : Bool := false
  out : List OutDesc := []
  deriving DecidableEq, Repr

/-- A completion ring (R332, R333): records that wait, and the records not yet signalled (R339). -/
structure CompRing where
  ctx : Option (Fin 64) := none
  head : Nat := 0
  tail : Nat := 0
  waiting : List Rec := []
  unsig : Nat := 0
  firstAt : Nat := 0
  deriving DecidableEq, Repr

/-- STATE of a stream (Table 12.7). -/
inductive StreamSt where
  | undefined | idle | busy | latched
  deriving DecidableEq, Repr

/-- A stream (R335, R336): the STREAM_SET that defined it, the next arm's k, ARM_SEQ and buffer of the
running transfer and of the latched arm, and the STREAM_CLEAR that waits. -/
structure Stream where
  st : StreamSt := .undefined
  set : Option DescRef := none
  k : Nat := 0
  run : Nat × Nat := (0, 0)
  latch : Nat × Nat := (0, 0)
  clearing : Option DescRef := none
  deriving DecidableEq, Repr

/-! ### The Elved fabric (Chapter 10) -/

/-- STATE of PORT_STATUS (Table 10.9). -/
inductive PortSt where
  | down | training | up | held | outOfService
  deriving DecidableEq, Repr

/-- A copy of a packet that leaves, or is to leave, by a port: its number, the reception that feeds it (none when it was whole
from the start), its bytes as far as they have come, flits come, in all and sent, and the virtual channel (R264). -/
structure OutPkt where
  key : Nat
  rid : Option Nat
  bytes : List Byte
  got : Nat
  flits : Nat
  sent : Nat
  vc : Nat
  deriving DecidableEq, Repr

/-- A flit in a replay buffer (R289): link sequence number, virtual channel, data, its packet's number, and whether it is the
packet's last. -/
structure RepFlit where
  seq : Nat
  vc : Nat
  data : List Byte
  key : Nat
  last : Bool
  deriving DecidableEq, Repr

/-- What becomes of a packet that arrives: not yet routed, taken on its way or in, or discarded. -/
inductive RxFate where
  | unrouted | taken | discarded
  deriving DecidableEq, Repr

/-- A packet that arrives, or has arrived, on a virtual channel of a port: its number, channel, the version its port ran, bytes as far as they
have come, flits come and in all, and flits that have left the channel's buffer (R264). -/
structure RxFlow where
  rid : Nat
  version : Nat
  vc : Nat
  bytes : List Byte
  got : Nat
  flits : Nat
  gone : Nat
  fate : RxFate
  deriving DecidableEq, Repr

/-- A fabric port (R255, R264, R289 to R293). `before` is the state that a return to service restores. `replay` is the replay
buffer; `begun` are the packets of which a flit has been sent and whose last flit is not acknowledged, `waiting` those not yet
begun; `rx` are the packets in the input buffers, oldest first, `credit` the credits of the output channels. `fec01` and `fec23` count corrected symbols of the two lane pairs in this telemetry
window, `last01` and `last23` in the last one. -/
structure Port where
  regs : Regs
  win : Regs
  stepSh : Regs
  st : PortSt
  before : PortSt
  degraded : Bool
  lanes : Nat
  version : Nat
  neighbor : Nat
  run : Nat
  good : Nat
  trainMs : Nat
  rxSeq : Nat
  txSeq : Nat
  unacked : Nat
  fec01 : Nat
  fec23 : Nat
  last01 : Nat
  last23 : Nat
  replay : List RepFlit
  begun : List OutPkt
  waiting : List OutPkt
  rx : List RxFlow
  credit : SMap Nat
  deriving DecidableEq, Repr

/-- State of a bank of routing and group tables (Table 10.5). -/
inductive BankSt where
  | empty | loading | ready | active | draining
  deriving DecidableEq, Repr

/-- A bank: routing entries by endpoint, words of group entries by 32 · group + word. -/
structure Bank where
  st : BankSt
  epoch : Nat
  route : SMap Word
  group : SMap Word
  deriving DecidableEq, Repr

/-- A remote window (Table 10.6). `closing` is the WINDOW_CLOSE that waits for the packets that passed their check (R279). -/
structure Window where
  id : Nat
  gen : Nat
  ctx : Nat
  base : Nat
  size : Nat
  target : Nat
  op : Nat
  fmt : Nat
  read : Bool
  closing : Option DescRef := none
  deriving DecidableEq, Repr

/-- Who waits for the answers of a packet: an XMT (core, slot, generation, sequence number), a layer of a
Tollhouse, or a refetch (its number, offset in the slot). -/
inductive Sender where
  | xmt (core slot gen seq : Nat)
  | layer (n : Nat)
  | refetch (serial off : Nat)
  deriving DecidableEq, Repr

/-- A packet awaiting completions (R272, R275). -/
structure Await where
  stream : Nat
  seq : Nat
  left : Nat
  by_ : Sender
  deriving DecidableEq, Repr

/-- A packet that waits for injection, with what its answers are awaited by. -/
structure TxPkt where
  bytes : List Byte
  wait : Option Await
  deriving DecidableEq, Repr

/-- A packet delivered locally that has not been acted on: the port it came by, its reception, its bytes, the flits still to
come, and the window whose check it has passed (R279). -/
structure RxPkt where
  port : Option Nat
  bytes : List Byte
  rid : Option Nat := none
  left : Nat := 0
  passed : Option Window := none
  deriving DecidableEq, Repr

/-! ### Tollhouses (Chapter 11) -/

/-- State of a layer (Table 11.3). -/
inductive LayerSt where
  | idle | arriving | queued | applying
  deriving DecidableEq, Repr

/-- The running state of a layer. `got` are bytes received per tile of the round that arrives, `done` the processed
tiles with their digest and tile sum of squares (W48), `late` that its arrival limit has passed in this step,
`t` and `rms` its rule state (R308). `status` to `pruned` belong to the apply or hold under way; `wasTripped` says that the round
taken in this step had tripped (R316). -/
structure Layer where
  st : LayerSt
  got : SMap Nat
  done : List (Nat × Nat × Nat)
  trip : Option Nat
  late : Bool
  finished : Bool
  sumSq : Nat
  rowSums : SMap Word
  colSums : SMap Word
  t : Nat
  rms : Word
  status : Byte
  cause : Nat
  negative : Bool
  timedOut : Bool
  pruned : Nat
  wasTripped : Bool
  deriving DecidableEq, Repr

/-- A gradient tile in staging (R303): its layer and number, its whole size and the bytes that have come. -/
structure Staged where
  layer : Nat
  tile : Nat
  size : Nat
  data : Memory
  deriving DecidableEq, Repr

/-- A Tollhouse. `failed` says that a self-check failed in this step, `fenced` that it is fenced, `passed` that a sweep has
passed it since and the next table load returns it (R402); `queue` are its
QUEUED layers in order; `staged` are the tiles in staging; `normSq` is the W48 sum of R314; `gram` and `prods` are the Gram
area and the products p and q of the last orthogonalised apply (R298, R309), as words by block. -/
structure Toll where
  regs : Regs
  win : Regs
  stepSh : Regs
  failed : Bool
  fenced : Bool
  passed : Bool
  queue : List Nat
  staged : List Staged
  current : Option Nat
  normSq : Nat
  gram : List Word
  prods : List Word
  deriving DecidableEq, Repr

/-- Loss records of one step (R315): their number, ΣCOUNT, ΣLOSS in FP32, and whether one carried TRIP. -/
structure LossSum where
  records : Nat := 0
  count : Nat := 0
  loss : Word := 0
  trip : Bool := false
  deriving DecidableEq, Repr

/-- The loss gate (R316): records of the present step and of the next one. -/
structure LossGate where
  cur : LossSum := {}
  next : LossSum := {}
  decided : Bool := false
  tripped : Bool := false
  waitExpired : Bool := false
  valid : Bool := false
  warm : Nat := 0
  deriving DecidableEq, Repr

/-! ### Lantern (Chapter 15) -/

/-- An item of the Lantern queue: a sweep of a Tollhouse or core with its groups (R399), or with `cal` a pace
calibration (R443). -/
structure Sweep where
  toll : Bool
  unit : Nat
  groups : Nat
  cal : Bool := false
  deriving DecidableEq, Repr

/-! ### The module -/

/-! ### Hearth (Chapter 14) -/

/-- A voltage island (Tables 2.3 and 14.6). `base` is the base voltage in mV, `want` the setting that the sequencer
drives, or has stored while a response holds the islands (R382), `tj` and `amps` its last readings, `pace`
HRTH_ISLAND_PACE as last refreshed, `over` the over-current response. The rest is the slow-core path (R403, R404), in
telemetry windows in a row: with the deficit, at 60 mV with the core below target, with raises withheld, with the core
well above target, with the island slow; `slow` that the path is under way, `falling` that OFFSET_MV falls, `remap` a
core that is to be remapped. -/
structure Island where
  base : Nat := 0
  want : Nat := 0
  offset : Nat := 0
  tj : Nat := 0
  amps : Nat := 0
  pace : Word := 0
  overAmps : Bool := false
  deficits : Nat := 0
  belows : Nat := 0
  withheld : Nat := 0
  aboves : Nat := 0
  slows : Nat := 0
  slow : Bool := false
  falling : Bool := false
  remap : Option Nat := none
  deriving DecidableEq, Repr

/-- Hearth. `plan` is the Innkeeper's plan in µW (R357); `conds` the rows of Table 14.4 that hold or whose response has
not been released, the over-current row apart, which each island holds; `leakQuiet` the time since which LEAK_N has been
deasserted without chatter; `removed` compute power removal (R383); `winHot` and `winCap` what the present telemetry
window has seen (R403). -/
structure Hearth where
  islands : Vector Island 24
  plan : List Nat
  conds : Vector Bool 9
  capping : Bool
  flowLow : Bool
  flowLost : Bool
  thrLow : Bool
  thrChatter : Bool
  leakLow : Bool
  leakChatter : Bool
  leakQuiet : Option Nat
  removed : Bool
  winHot : Bool
  winCap : Bool
  deriving DecidableEq, Repr

/-! ### Power, Gatehouse (Chapters 16 and 17) -/

/-- What power-up has reached (R434, R441): VAUX up, the VMAIN rails enabled, steps 4 to 6 ended, PERST_N released, the
PCIe link up with its width and rate, and the module ready. -/
structure Power where
  vaux : Bool
  rails : Bool
  tested : Bool
  perst : Bool
  link : Bool
  width : Nat
  rate : Nat
  ready : Bool
  deriving DecidableEq, Repr

/-- What is fixed when the module is built (R2, R418, R455). -/
structure Mfg where
  variant : Nat
  stepping : Nat
  serial : Nat
  date : Nat
  spares : List Nat
  fused : List Nat
  deriving DecidableEq, Repr

/-- An image slot of the non-volatile store: its bytes, the bytes that IMAGE_BEGIN announced, and VALID. -/
structure ImageSlot where
  bytes : Memory
  total : Nat
  valid : Bool
  deriving DecidableEq, Repr

/-- A resident image type (R428, R429): slots A and B, the running one (none without an image), the committed one,
whether the running one is a trial, the slot that a MODE 1 activation named, whether the inactive slot is open for
writing, the fused count, and whether an IMAGE_ABANDON has ended the trial (R430). -/
structure ImageType where
  a : ImageSlot
  b : ImageSlot
  running : Option Bool
  committed : Bool
  trial : Bool
  next : Option Bool
  opened : Bool
  fused : Nat
  abandoned : Bool
  deriving DecidableEq, Repr

/-- A secured session (R414, R416, R425). `root` is the hash of the root the requester's chain ends in, `anchored` the
anchor check that it holds for its life. -/
structure Session where
  id : Nat
  transport : Transport
  mutAuth : Bool
  root : List Byte
  anchored : Bool
  deriving DecidableEq, Repr

/-- An item that the Gatehouse reports (R420, R421, R435, R404). -/
inductive Report where
  | fault (entry : List Byte)
  | event (value : Nat)
  | emergency (cond : Nat)
  | window (seq : Nat)
  | stepRecord (ctx : Nat) (words : List Nat)
  | portStall (port vc : Nat)
  | ideFailure (stream : Nat)
  | bootWait (cause : Nat)
  | slowModule (island : Nat)
  deriving DecidableEq, Repr

/-- A message that waits in the Gatehouse's buffers during a pause of its own (R431). -/
inductive Held where
  | regRead (m : Mgmt) (off : Nat) (sel : Selects)
  | regWrite (m : Mgmt) (off : Nat) (sel : Selects) (value : Word)
  | imageBegin (m : Mgmt) (type total : Nat)
  | imageData (m : Mgmt) (off : Nat) (data : List Byte)
  | imageVerify (m : Mgmt) (type : Nat) (k : ImageCheck)
  | imageActivate (m : Mgmt) (type mode : Nat)
  | imageCommit (m : Mgmt) (type : Nat)
  | imageAbandon (m : Mgmt) (type : Nat)
  | collectorSet (m : Mgmt) (addr : List Byte)
  | emergencyClear (m : Mgmt)
  | anchorAdd (m : Mgmt) (hash : List Byte)
  | anchorRemove (m : Mgmt) (hash : List Byte)
  | ownershipClear (m : Mgmt)
  | reportAck (tagOk : Bool) (seq : Word)
  | keyExchange (t : Transport) (mutAuth : Bool) (root : List Byte)
  | endSession (session : Nat)
  | getMeasurements
  | ideKm (inSession : Bool) (stream : Fin 9)
  deriving DecidableEq, Repr

/-- The Gatehouse. `deferred` and `pausing` are the type of an activation that waits under R432, or of the hand-off under
way; `reports` the unacknowledged reports with their sequence numbers, oldest first; `latch` its HI latches (R452);
`ide` says which IDE streams are secure (R320); `held` the messages that wait in a pause (R431). -/
structure Gate where
  images : Vector ImageType 3
  deferred : Option (Fin 3)
  pausing : Option (Fin 3)
  anchors : List (List Byte)
  sessions : List Session
  nextSession : Nat
  collector : Option (List Byte)
  nextReport : Nat
  reports : List (Nat × Report)
  acked : Nat
  i3c : BitVec 7
  receiver : Option Byte
  ide : Vector Bool 9
  latch : Regs
  held : List Held
  deriving DecidableEq, Repr

/-- What the module hands to the outside, oldest first (the model's own record of its outputs). -/
inductive Out where
  /-- A memory-write TLP to a function's host memory. -/
  | hostWrite (fn : Nat) (addr : Nat) (bytes : List Byte)
  /-- Memory reads of a range of a function's host memory, whose bytes the row that names them takes as an operand. -/
  | hostRead (fn : Nat) (addr len : Nat)
  /-- The signed ledger that a drain writes last into a generation slot (R409, R410). -/
  | ledger (ctx : Nat) (slot : Bool) (bytes : List Byte)
  /-- What a drain has written into a generation slot before its ledger (Table 15.3, R409). -/
  | snapshot (ctx : Nat) (slot : Bool) (taken : Saved)
  | msix (fn : Nat) (vector : Nat)
  /-- A flit on a port: 256 B of data, control bytes and CRC. -/
  | flit (port : Nat) (data : List Byte) (ctl crc : Word)
  /-- Link control on a port: the versions and the endpoint ID offered in training, credits of an input channel, an
  acknowledge, a request to replay, a replay, an announced endpoint ID. -/
  | trainOffer (port versions id : Nat)
  | linkCredit (port vc n : Nat)
  | linkAck (port seq : Nat)
  | linkNak (port seq : Nat)
  | replay (port seq : Nat)
  | announce (port id : Nat)
  | answer (session : Nat) (bytes : List Byte)
  /-- A PLDM answer: type, command, completion code and data fields. -/
  | pldm (type cmd code : Nat) (data : List Nat)
  | platformEvent (receiver : Byte) (cond : Nat)
  | report (seq : Nat) (r : Report)
  | measurements (blocks : List (Nat × List Byte))
  | mctpAnswer (cmd : Byte)
  /-- The Device Readiness Status message (R441). -/
  | deviceReady
  /-- What a register read returned, to a function or (none) to the Gatehouse. -/
  | regRead (fn : Option Nat) (off value : Nat)
  /-- The completion of a BAR4 read: 0 with data, 1 with the EP bit, 2 Unsupported Request. -/
  | barRead (fn status : Nat) (bytes : List Byte)
  deriving DecidableEq, Repr

/-- STATE of INNK_LEASE_STATUS (Table 13.5). -/
inductive Lease where
  | inactive | active | expired
  deriving DecidableEq, Repr

/-- What the module keeps for one PCIe function: its own registers by BAR0 offset (selects, BAR4 base,
MSI-X table, lease period, telemetry view), the HI latches of R452 by offset, the mailbox bytes (R337), whether its header
reads as zero after a reset (R321), the base-2 logarithm of the size of BAR4 (R322) and the lease (R359). -/
structure Fn where
  regs : Regs
  latch : Regs
  box : Memory
  boxZero : Bool
  bar4Log : Nat
  lease : Lease
  lastBeat : Option Word
  beatAt : Nat
  warned : Bool
  deriving DecidableEq, Repr

/-- What the reads of the present row meet, and the class of its accesses (the model's own): disturbed granules (R221) and the
class of R248; `paid` that their tokens are charged already. -/
structure Meet where
  errs : List GranErr := []
  cls : Nat := 1
  paid : Bool := false
  deriving DecidableEq, Repr

/-- The state of the LS40 module. -/
structure State where
  /-- The time reference in µs (R33). -/
  time : Nat
  cores : Vector Core 192
  ctxs : Vector Ctx 64
  fns : Vector Fn 32
  /-- SR-IOV NumVFs: virtual functions 1 to this one are enabled (R321). -/
  numVfs : Nat
  /-- Registers outside the unit windows, by BAR0 offset, and their shadow copies (R384, R385). -/
  regs : Regs
  win : Regs
  stepSh : Regs
  /-- The host engine (R345): the context that began the previous round, the one that began this round, and the one in
  service. -/
  hostPrev : Nat
  hostFirst : Option Nat
  hostCur : Option Nat
  /-- Bytes of both tiers by module-local address; a cellar tile is held as the channel delivers it. -/
  mem : Memory
  /-- Granules (address ÷ 64) written with the poison marker (R222). -/
  marked : SMap Bool
  regions : List Region
  /-- Directory entries by slot address (R237). -/
  dir : SMap DirEnt
  refetches : List Refetch
  /-- Refetches begun since reset. -/
  refetchNo : Nat
  meet : Meet
  chans : Vector Chan 208
  svcQ : List SvcOp
  sqs : Vector SubRing 256
  cqs : Vector CompRing 256
  /-- Streams by 64 · context + stream. -/
  streams : SMap Stream
  /-- Completion counters (R295). -/
  cc : SMap Word
  ports : Vector Port 36
  banks : Vector Bank 2
  /-- Fence table and membership bitmap, by word (R284, R287). -/
  fence : SMap Word
  member : SMap Word
  windows : List Window
  /-- One more than the generation each window ID held at its last close (R277). -/
  winGen : SMap Nat
  /-- Packets that wait for injection, packets delivered here, packets awaiting answers, stream positions. -/
  txQ : List TxPkt
  inbox : List RxPkt
  awaiting : List Await
  streamSeq : SMap Word
  /-- Packets and copies numbered since reset. -/
  flowNo : Nat
  tolls : Vector Toll 4
  layers : SMap Layer
  /-- The layer table and the rule records in force, by index, and the inactive copy (R299). -/
  layerTab : SMap (List Byte)
  ruleTab : SMap (List Byte)
  nextTabs : Option (SMap (List Byte) × SMap (List Byte))
  lossGate : LossGate
  /-- The values of Table 11.8's writable registers that are in force. -/
  tollRegs : Regs
  /-- Permissions that R356 gave under the starvation guard. -/
  guardPermits : Nat
  /-- Moments at which requests for billet queues have arrived (R29). -/
  moments : Nat
  lanternQ : List Sweep
  lanternRun : List Sweep
  /-- Fault-log entries by index (R389). -/
  faultLog : SMap (List Byte)
  hearth : Hearth
  power : Power
  mfg : Mfg
  gatehouse : Gate
  /-- The model's counter of free values drawn (assumption 3). -/
  free : Nat
  out : List Out
  /-- Commands that wait, first in first out. -/
  pending : List Instr
  deriving DecidableEq, Repr

/- Reset values of units. -/

/-- A closed context. -/
def closedCtx : Ctx :=
  { state := .closed, fn := 0, decode := false, orphan := 0, part := 0, weight := 0, filler := none, sqFirst := 0, sqCount := 0,
    cqFirst := 0, cqCount := 0, ccFirst := 0, ccCount := 0, seed := 0, params := [], cores := [], fill := 0, poolMib := 0, freeMib := 0,
    ovfCap := 0, poolRegion := 0, ovfRegion := 0, step := none, anyStep := true, inStep := false, mbCount := 0, stepDesc := none,
    stepOpenAt := 0, fetchedMbs := [], waitingSteps := [], mbs := [], taint := none, tainted := false, taintCause := 0,
    ran := [], rng := [], accFwd := 0, accAgrad := 0, accWgrad := 0, accStarved := 0, accSkew := 0, accMbOk := 0,
    accMbFailed := 0, accPartial := 0, accOvfBytes := 0, lastMbEnd := none, reduceEnd := none, snapUs := 0, profile := [],
    profileNow := [], dec := none, batches := [], nextBatch := 0, decWaiting := [], deficit := 0, orphaned := false,
    held := [], reclaimed := false, snap := {} }

/-- A Steward after core reset (R113, R118). -/
def resetSteward : Steward :=
  { g := Vector.replicate 32 0, pc := 0, bank := false, state := .halted, cause := 0, fflags := 0, events := 0, stopReq := false }

/-- What the model's module is built as (R1, R2, R455; assumption 1): an LS40-T180 whose spares are the last six cores of
each die. -/
def builtAs : Mfg :=
  { variant := 0, stepping := 0, serial := 0, date := 0
    spares := [90, 91, 92, 93, 94, 95, 186, 187, 188, 189, 190, 191], fused := [] }

/-- The manufacturing role of a core: 0 enabled, 1 spare, 2 fused off. -/
def Mfg.role (m : Mfg) (c : Nat) : Nat := if m.fused.contains c then 2 else if m.spares.contains c then 1 else 0

/-- A core after core reset (R63, R66). -/
def resetCore (role : Nat) : Core :=
  { regs := [], win := [], stepSh := [], stw := resetSteward, imem0 := [], imem1 := [], flipPending := false, dmem := []
    sp := [], slots := Vector.replicate 8 {}, soft := 0, softFill := 0, mask := Vector.replicate 16 (BitVec.allOnes 128)
    act := Vector.replicate 2 {}, live := {}, shadow := {}, liveOwner := none, arrayQ := [], shadowQ := [], porterQ := []
    queueQ := [], ends := Vector.replicate 16 {}, car := {}, admitQ := [], heldNotices := [], fwdDone := [], groups := []
    ctx := none, role := role, degraded := false, aliasTo := none, modFence := 0, arrayCfg := 0, skewStall := 0, refusedAt := none
    guardPassed := false, draw := 0, correction := 0, paceM := 0, slowFenced := false }

/-- A channel after reset. -/
def resetChan : Chan :=
  { regs := [], win := [], stepSh := [], dieCorr := [], erased := none, st := 0, svc := 0, wc := [], tokens := [], lastPart := 15, reqs := [] }

/-- A fabric port after reset. -/
def resetPort : Port :=
  { regs := [], win := [], stepSh := [], st := .down, before := .down, degraded := false, lanes := 0, version := 0
    neighbor := 0xFFFF, run := 0, good := 0, trainMs := 0, rxSeq := 0, txSeq := 0, unacked := 0, fec01 := 0, fec23 := 0
    last01 := 0, last23 := 0, replay := [], begun := [], waiting := [], rx := [], credit := [] }

/-- A Tollhouse after reset. -/
def resetToll : Toll :=
  { regs := [], win := [], stepSh := [], failed := false, fenced := false, passed := false, queue := [], staged := [], current := none, normSq := 0, gram := [], prods := [] }

/-- A function after reset. -/
def resetFn : Fn :=
  { regs := [], latch := [], box := [], boxZero := false, bar4Log := 32, lease := .inactive, lastBeat := none, beatAt := 0, warned := false }

/-- Hearth before VAUX. -/
def resetHearth : Hearth :=
  { islands := Vector.replicate 24 {}, plan := [], conds := Vector.replicate 9 false, capping := false, flowLow := false
    flowLost := false, thrLow := false, thrChatter := false, leakLow := false, leakChatter := false, leakQuiet := some 0
    removed := false, winHot := false, winCap := false }

/-- Power before VAUX. -/
def resetPower : Power :=
  { vaux := false, rails := false, tested := false, perst := false, link := false, width := 0, rate := 0, ready := false }

/-- The committed image that a type holds at shipment (assumption 1): a header of version 1 for level 1 with release 1,
hand-off format 1 and an empty body. -/
def shippedImage (type : Nat) : ImageSlot :=
  let cells (n v : Nat) : Memory := if v = 0 then [] else [(n, BitVec.ofNat 8 v)]
  { bytes := (0, 1#8) :: ((cells 1 type).append [(2, 1#8), (4, 1#8), (0x0A, 1#8), (0x0C, 1#8)]), total := 352, valid := false }

/-- An image type at shipment. -/
def shippedType (type : Nat) : ImageType :=
  { a := shippedImage type, b := { bytes := [], total := 0, valid := false }, running := none, committed := false, trial := false
    next := none, opened := false, fused := 0, abandoned := false }

/-- The Gatehouse before VAUX. -/
def resetGate : Gate :=
  { images := Vector.ofFn fun i : Fin 3 => shippedType i.val, deferred := none, pausing := none, anchors := [], sessions := []
    nextSession := 0, collector := none, nextReport := 0, reports := [], acked := 0, i3c := 0, receiver := none
    ide := Vector.replicate 9 false, latch := [], held := [] }

/-- The module right after module reset: every register at its reset value, no memory written, VAUX not yet up. -/
def State.reset : State :=
  { time := 0
    cores := Vector.ofFn fun c : Fin 192 => resetCore (builtAs.role c.val)
    ctxs := Vector.replicate 64 closedCtx
    fns := Vector.replicate 32 resetFn
    numVfs := 0
    regs := [], win := [], stepSh := [], hostPrev := 63, hostFirst := none, hostCur := none, mem := [], marked := []
    regions := [], dir := [], refetches := [], refetchNo := 0, meet := {}
    chans := Vector.replicate 208 resetChan
    svcQ := []
    sqs := Vector.replicate 256 {}
    cqs := Vector.replicate 256 {}
    streams := [], cc := []
    ports := Vector.replicate 36 resetPort
    banks := Vector.replicate 2 { st := .empty, epoch := 0, route := [], group := [] }
    fence := [], member := [], windows := [], winGen := [], txQ := [], inbox := [], awaiting := [], streamSeq := [], flowNo := 0
    tolls := Vector.replicate 4 resetToll
    layers := [], layerTab := [], ruleTab := [], nextTabs := none, lossGate := {}, tollRegs := [], guardPermits := 0, moments := 0
    lanternQ := [], lanternRun := [], faultLog := [], hearth := resetHearth, power := resetPower, mfg := builtAs
    gatehouse := resetGate, free := 0, out := [], pending := [] }

end Sys2Proof.Machine
end

