-- ==== Sys2Proof/Machine/Ops.lean ====
section
/-! DEFINITION. Named operations over the state that several families share: units, registers, the fault
log. -/

namespace Sys2Proof.Machine

/-- What every meaning answers. -/
abbrev Result := Host.Outcome State Fault Refusal

/- Units. -/

def State.core (s : State) (c : Fin 192) : Core := s.cores[c]

def State.setCore (s : State) (c : Fin 192) (k : Core) : State := { s with cores := s.cores.set c k }

def State.modCore (s : State) (c : Fin 192) (f : Core → Core) : State := s.setCore c (f (s.core c))

def State.ctx (s : State) (x : Fin 64) : Ctx := s.ctxs[x]

def State.setCtx (s : State) (x : Fin 64) (k : Ctx) : State := { s with ctxs := s.ctxs.set x k }

def State.modCtx (s : State) (x : Fin 64) (f : Ctx → Ctx) : State := s.setCtx x (f (s.ctx x))

/-- A unit number as an index of its kind. -/
def coreOf? (n : Nat) : Option (Fin 192) := if h : n < 192 then some ⟨n, h⟩ else none

def ctxOf? (n : Nat) : Option (Fin 64) := if h : n < 64 then some ⟨n, h⟩ else none

/-- Every core index, and every context index. -/
def allCores : List (Fin 192) := List.finRange 192

def allCtxs : List (Fin 64) := List.finRange 64

/-- Applies an update to each unit of a list, in order. -/
def State.eachCore (s : State) (cs : List (Fin 192)) (f : State → Fin 192 → State) : State := cs.foldl f s

/- Core registers (stored ones). -/

/-- Reset values of the core window's stored registers (Table 18.5). -/
def coreReset (off : Nat) : Word :=
  if off = 0x20108 then 0x100000 else if off = 0x20204 then 0x1004 else 0

def Core.rd (k : Core) (off : Nat) : Nat := Regs.rd coreReset k.regs off

def Core.wr (k : Core) (off v : Nat) : Core := { k with regs := Regs.wr coreReset k.regs off v }

def Core.bump (k : Core) (off n : Nat) : Core := { k with regs := Regs.bump coreReset k.regs off n }

def Core.bumpSat (k : Core) (off n : Nat) : Core := { k with regs := Regs.bumpSat coreReset k.regs off n }

def Core.bump64 (k : Core) (off n : Nat) : Core := { k with regs := Regs.bump64 coreReset k.regs off n }

/-- Adds to a 16-bit saturating field in bits [lo + 15:lo] of a core register. -/
def Core.bumpHalf (k : Core) (off lo n : Nat) : Core :=
  let v := min 0xFFFF (bitsOf (k.rd off) (lo + 15) lo + n)
  { k with regs := Regs.wrBits coreReset k.regs off (lo + 15) lo v }

/-- Array beats taken by the core (Table 2.7). -/
def Core.beats (k : Core) (n : Nat) : Core := k.bump64 0x20100 n

/-- Counts what was waited and lost up to a row (R54, R137, R173, R190); tolerant waits are counted apart (R40). -/
def Core.waited (k : Core) (w : Waits) : Core :=
  ((((k.bump 0x20228 w.feed).bump 0x2022C w.drain).bump 0x20624 w.mesh).bump 0x20438 w.inst).bump 0x20618 w.lost

/- Module registers. -/

/-- Reset values of the registers outside the unit windows (Table 18.5). -/
def glbReset (off : Nat) : Word :=
  if off = 0x10000 then 1
  else if 0x60000 ≤ off ∧ off < 0x61000 then
    (if off % 16 = 8 then 0xC else if off % 16 = 12 then 0x10000 else 0)
  else if 0x61000 ≤ off ∧ off < 0x62000 then (if off % 16 = 8 then 0x1000C else 0)
  else if 0x90600 ≤ off ∧ off < 0x90690 then 0x3F
  else if off = 0x50000 then 0xFFFF else if off = 0x5002C then 0x32
  else if off = 0x69100 then 0x03E80640
  else if off = 0x70008 then 0x00640AF0 else if off = 0x70010 ∨ off = 0x7001C then 0x4B0
  else if off = 0x70014 then 0x5F5C else if off = 0x70018 then 0x14105437 else if off = 0x70030 then 0x64
  else if off = 0x90050 then 0x03020100 else if off = 0x90058 then 0x64
  else if off = 0xA8000 then 0xA00 else if off = 0xA8004 then 0x40000000
  else if off = 0xA8008 then 0x3F7AE148 else if off = 0xA8014 then 0x03E80064
  else 0

def State.rd (s : State) (off : Nat) : Nat := Regs.rd glbReset s.regs off

def State.wr (s : State) (off v : Nat) : State := { s with regs := Regs.wr glbReset s.regs off v }

def State.bump (s : State) (off n : Nat) : State := { s with regs := Regs.bump glbReset s.regs off n }

def State.wrBits (s : State) (off hi lo v : Nat) : State :=
  { s with regs := Regs.wrBits glbReset s.regs off hi lo v }

/-- Adds to a saturating field of bits [hi:lo]. -/
def State.bumpField (s : State) (off hi lo n : Nat) : State :=
  s.wrBits off hi lo (min (2 ^ (hi + 1 - lo) - 1) (bitsOf (s.rd off) hi lo + n))

/- Completion statuses (Table 12.6). -/

def stOk : Byte := 0x00
def stPartial : Byte := 0x01
def stWindowClosed : Byte := 0x02
def stStash : Byte := 0x03
def stWeightPoison : Byte := 0x04
def stSkew : Byte := 0x05
def stAbft : Byte := 0x06
def stCancelled : Byte := 0x07
def stLease : Byte := 0x09
def stVersion : Byte := 0x0A
def stReserved : Byte := 0x0B
def stBankActive : Byte := 0x0C
def stHold : Byte := 0x0D
def stFenced : Byte := 0x0E
def stTimeout : Byte := 0x0F

/-- The codes of Table 12.6 that are failures (R146, R334). -/
def failingStatus (st : Byte) : Bool := decide (2 ≤ st.toNat ∧ st.toNat ≤ 15 ∧ st.toNat ≠ 8)

/- The fault log (R388, R389). -/

/-- What a fault-log entry says. `unitType` is UNIT_TYPE of R389. -/
structure LogEntry where
  kind : Nat
  status : Byte := 0
  ctx : Option (Fin 64) := none
  unitType : Nat := 0
  unit : Nat := 0
  detail0 : Nat := 0
  detail1 : Nat := 0
  deriving DecidableEq, Repr

/-- The 32 bytes of an entry (R389). -/
def LogEntry.bytes (e : LogEntry) (time seq step : Nat) : List Byte :=
  leBytes 4 time ++ (leBytes 1 e.kind ++ (e.status :: (leBytes 1 (match e.ctx with
    | some x => x.val + 0x80
    | none => 0) ++ (leBytes 1 e.unitType ++ (leBytes 2 e.unit ++ (leBytes 2 seq ++
    (leBytes 4 e.detail0 ++ (leBytes 8 e.detail1 ++ leBytes 8 (step % 2 ^ 40)))))))))

/-- The step index of a context, 0 while undefined (R343, R389). -/
def State.stepOf (s : State) (x : Option (Fin 64)) : Nat :=
  match x with
  | some x => (s.ctx x).step.getD 0
  | none => 0

/-- The Innkeeper's sequencer is paused for a hand-off: it starts nothing, and what comes to it waits (R431). -/
def State.innkPaused (s : State) : Bool := s.gatehouse.pausing == some 0

/- Reports of the Gatehouse (R420, R421). -/

/-- Queues a numbered report and sends it to the collector; a full queue drops its oldest report. -/
def State.report (s : State) (r : Report) : State :=
  let g := s.gatehouse
  let full : Bool := decide (4096 ≤ g.reports.length)
  let q := if full then g.reports.drop 1 else g.reports
  let n := g.nextReport
  let g1 : Gate := { g with reports := q ++ [(n, r)], nextReport := (n + 1) % 2 ^ 32 }
  let s1 : State := { s with gatehouse := g1, out := if g.collector.isSome then s.out ++ [.report n r] else s.out }
  if full then s1.bumpField 0x1010 15 0 1 else s1

/-- Writes one fault-log entry: at TAIL mod 1,024; a ring that holds 1,024 unread entries
loses its oldest one, which LOST counts; the Gatehouse reports the entry (R389). -/
def State.logFault (s : State) (e : LogEntry) : State :=
  let tail := bitsOf (s.rd 0x90004) 15 0
  let head := bitsOf (s.rd 0x90000) 15 0
  let full := 1024 ≤ (tail + 2 ^ 16 - head) % 2 ^ 16
  let b := e.bytes s.time tail (s.stepOf e.ctx)
  let s1 := { s with faultLog := SMap.set (fun _ => []) s.faultLog (tail % 1024) b }
  let s2 := s1.wrBits 0x90004 15 0 (tail + 1)
  (if full then s2.bumpField 0x90004 31 16 1 else s2).report (.fault b)

/-- Draws the next free 32-bit value (assumption 3). -/
def State.drawFree (s : State) : Word × State := (Config.free32 s.free, { s with free := s.free + 1 })

end Sys2Proof.Machine
end

