-- ==== Sys2Proof/Machine/Frame.lean ====
section
/-! DEFINITION. Layer frames (R125, Tables 5.5 to 5.7), frame slots, predicates (R133) and billet-table
entries (Table 7.2) as the units read them. -/

namespace Sys2Proof.Machine

/-- `n` little-endian bytes of an image at `off`. -/
def imgLE (img : List Byte) (off n : Nat) : Nat := leNat ((img.drop off).take n)

/-- Bits [hi:lo] of the image byte at `off`. -/
def imgBits (img : List Byte) (off hi lo : Nat) : Nat := bitsOf (imgLE img off 1) hi lo

/-- An operand block (Table 5.6). -/
structure Operand where
  fmt : Nat
  scale : Nat
  /-- EXP_OFFSET as stored, 7 bits. -/
  offRaw : Nat
  deriving DecidableEq, Repr

/-- The exponent offset t (R88). -/
def Operand.t (o : Operand) : Int := signedOf 7 o.offRaw

/-- A readiness entry (R130). -/
structure Ready where
  type : Nat
  object : Nat
  count : Nat
  deriving DecidableEq, Repr

/-- The fields of a layer frame (Table 5.6). -/
structure Frame where
  version : Nat
  frameId : Nat
  context : Nat
  tolerant : Bool
  shape : Nat
  rbcast : Bool
  accUse : Nat
  cls : Nat
  priority : Nat
  round : Nat
  stream : Nat
  heat : Nat
  park : Nat
  a : Operand
  b : Operand
  bCaravan : Bool
  outFmt : Nat
  outScale : Nat
  rows : Nat
  cols : Nat
  scaleMode : Nat
  biasMode : Nat
  act : Nat
  scale : Nat
  scaleVec : Nat
  biasVec : Nat
  caravanEn : Bool
  forward : Bool
  caravanId : Nat
  position : Nat
  prev : Nat
  next : Nat
  ready : List Ready
  deriving DecidableEq, Repr

/-- Reads the fields of an image. -/
def frameOf (img : List Byte) : Frame where
  version := imgLE img 0x000 1
  frameId := imgLE img 0x002 2
  context := imgBits img 0x004 5 0
  tolerant := imgBits img 0x005 0 0 == 1
  shape := imgBits img 0x005 2 1
  rbcast := imgBits img 0x005 3 3 == 1
  accUse := imgBits img 0x005 5 4
  cls := imgBits img 0x006 2 0
  priority := imgBits img 0x006 4 3
  round := imgBits img 0x007 2 0
  stream := imgLE img 0x008 1
  heat := imgLE img 0x00A 2
  park := imgLE img 0x00C 4
  a := ⟨imgBits img 0x040 4 0, imgBits img 0x040 6 5, imgBits img 0x041 6 0⟩
  b := ⟨imgBits img 0x060 4 0, imgBits img 0x060 6 5, imgBits img 0x061 6 0⟩
  bCaravan := imgBits img 0x062 0 0 == 1
  outFmt := imgBits img 0x080 4 0
  outScale := imgBits img 0x080 6 5
  rows := imgLE img 0x0A0 2
  cols := imgLE img 0x0A2 2
  scaleMode := imgBits img 0x0C0 1 0
  biasMode := imgBits img 0x0C0 3 2
  act := imgBits img 0x0C0 5 4
  scale := imgLE img 0x0C4 4
  scaleVec := imgLE img 0x0C8 4
  biasVec := imgLE img 0x0CC 4
  caravanEn := imgBits img 0x100 0 0 == 1
  forward := imgBits img 0x100 1 1 == 1
  caravanId := imgLE img 0x101 1
  position := imgLE img 0x102 1
  prev := imgLE img 0x103 1
  next := imgLE img 0x104 1
  ready := (List.range 8).map fun n =>
    ⟨imgLE img (0x140 + 8 * n) 1, imgLE img (0x141 + 8 * n) 2, imgLE img (0x144 + 8 * n) 4⟩

/-- Bits of byte `off` of an image that Table 5.6 and R130 name. PARAM is not checked. -/
def frameNamed (off : Nat) : Nat :=
  if 0x200 ≤ off then 0xFF
  else if 0x140 ≤ off ∧ off < 0x180 then (if off % 8 = 3 then 0 else 0xFF)
  else if 0x180 ≤ off then 0
  else match off with
    | 0x000 => 0xFF | 0x002 => 0xFF | 0x003 => 0xFF | 0x004 => 0x3F | 0x005 => 0x3F | 0x006 => 0x1F
    | 0x007 => 0x07 | 0x008 => 0xFF | 0x00A => 0xFF | 0x00B => 0xFF | 0x00C => 0xFF | 0x00D => 0xFF
    | 0x00E => 0xFF | 0x00F => 0xFF | 0x040 => 0x7F | 0x041 => 0x7F | 0x060 => 0x7F | 0x061 => 0x7F
    | 0x062 => 0x01 | 0x080 => 0x7F | 0x0A0 => 0xFF | 0x0A1 => 0xFF | 0x0A2 => 0xFF | 0x0A3 => 0xFF
    | 0x0C0 => 0x3F | 0x0C4 => 0xFF | 0x0C5 => 0xFF | 0x0C6 => 0xFF | 0x0C7 => 0xFF | 0x0C8 => 0xFF
    | 0x0C9 => 0xFF | 0x0CA => 0xFF | 0x0CB => 0xFF | 0x0CC => 0xFF | 0x0CD => 0xFF | 0x0CE => 0xFF
    | 0x0CF => 0xFF | 0x100 => 0x03 | 0x101 => 0xFF | 0x102 => 0xFF | 0x103 => 0xFF | 0x104 => 0xFF
    | _ => 0

/-- A reserved bit of the image is non-zero (R9, R10). -/
def frameReserved (img : List Byte) : Bool :=
  (List.range 0x200).any fun i => Nat.land (img.getD i 0).toNat (255 - frameNamed i) != 0

/-- Rows and columns of a shape (Table 3.3). -/
def shapeRows (shape : Nat) : Nat := if shape = 1 then 256 else if shape = 2 then 192 else 128

def shapeCols (shape : Nat) : Nat := if shape = 0 then 128 else 64

/-- The frame uses the row-broadcast path (R52). -/
def Frame.rowPath (f : Frame) : Bool := f.shape != 0 || f.rbcast

/-- A reserved code or value in a field of Table 5.7's second row. ACT 3 names no table and is taken as
reserved (DEDUCED, assumption 10). -/
def Frame.badCodes (f : Frame) : Bool :=
  !fmtDefined f.a.fmt || !fmtDefined f.b.fmt || decide (14 < f.outFmt) || f.a.scale == 3 || f.b.scale == 3 ||
    f.outScale == 3 || f.shape == 3 || f.accUse == 3 || decide (3 < f.cls) || decide (4 < f.round) ||
    f.biasMode == 1 || f.act == 3 || f.ready.any fun r => decide (4 < r.type)

/-- The rows of Table 5.7 that depend on the image alone, in their order; `filler` says that CONTEXT is
the filler context. -/
def Frame.badFields (f : Frame) (filler : Bool) : Bool :=
  !pairingOk f.a.fmt f.b.fmt || !scaleOk f.a.fmt f.a.scale || !scaleOk f.b.fmt f.b.scale ||
    f.outFmt == 11 || f.outFmt == 12 || !scaleOk f.outFmt f.outScale ||
    (f.outFmt == 14 && (f.scaleMode != 0 || f.biasMode != 0 || f.act != 0)) ||
    ((f.a.fmt == 0 || f.a.fmt == 14) && f.a.offRaw != 0) ||
    ((f.b.fmt == 0 || f.b.fmt == 14) && f.b.offRaw != 0) ||
    (f.bCaravan && !f.caravanEn) ||
    f.rows == 0 || f.cols == 0 || decide (shapeRows f.shape < f.rows) || decide (shapeCols f.shape < f.cols) ||
    (f.accUse == 2 && (f.park == 0 || filler))

/-- The checks of Table 5.7 but its last row, in its order: `own` and `filler` are the core's owning
context and the filler context it names, `fused` tells fused-off cores. 0 when all pass. -/
def frameCheck (img : List Byte) (own filler : Option Nat) (fused : Nat → Bool) : Byte :=
  let f := frameOf img
  if f.version ≠ 1 then stVersion
  else if frameReserved img || f.badCodes || f.badFields (filler == some f.context && own != some f.context) then
    stReserved
  else if own ≠ some f.context ∧ filler ≠ some f.context then stReserved
  else if (decide (192 ≤ f.prev) && decide (f.prev ≤ 254)) || (decide (192 ≤ f.next) && decide (f.next ≤ 254)) then
    stReserved
  else if (f.prev != 0xFF && fused f.prev) || (f.next != 0xFF && fused f.next) then stFenced
  else stOk

/- Slots, instances and predicates. -/

def Core.slot (k : Core) (i : Fin 8) : Slot := k.slots[i]

def Core.setSlot (k : Core) (i : Fin 8) (v : Slot) : Core := { k with slots := k.slots.set i v }

def Core.modSlot (k : Core) (i : Fin 8) (f : Slot → Slot) : Core := k.setSlot i (f (k.slot i))

def Core.modInst (k : Core) (i : Fin 8) (f : Inst → Inst) : Core :=
  k.modSlot i fun v => { v with inst := v.inst.map f }

def allSlots : List (Fin 8) := List.finRange 8

/-- The frame loaded in a slot. -/
def Core.frame (k : Core) (i : Fin 8) : Option Frame := (k.slot i).image.map frameOf

/-- A slot number taken from three bits. -/
def slotOf (n : Nat) : Fin 8 := ⟨n % 8, Nat.mod_lt _ (by decide)⟩

/-- The frame of a slot belongs to the owning context (and not to its filler). -/
def Core.owned (k : Core) (f : Frame) : Bool := k.ctx.map (·.val) == some f.context

/-- Predicate bits as an instance of slot `i` sees them (R133): the software set of its frame's context
and its own condition bits; an empty slot sees the owner's set. -/
def Core.predBits (k : Core) (i : Fin 8) : Nat :=
  let soft := match k.frame i with
    | some f => if k.owned f then k.soft else k.softFill
    | none => k.soft
  let cond := match (k.slot i).inst with
    | some n => b2n n.maskEmpty * 2 ^ 12 + b2n n.nonfinite * 2 ^ 13 + b2n n.poisoned * 2 ^ 14 +
        b2n n.cancel.isSome * 2 ^ 15
    | none => 0
  1 + bitsOf soft.toNat 11 1 * 2 + cond

/-- Writes the software bits of `mask` [11:1] of the set that slot `i`'s frame uses (R133). -/
def Core.writeSoft (k : Core) (filler : Bool) (mask value : BitVec 16) : Core :=
  let m := mask &&& 0x0FFE#16
  let mix (w : BitVec 16) := (w &&& ~~~m) ||| (value &&& m)
  if filler then { k with softFill := mix k.softFill } else { k with soft := mix k.soft }

/-- CORE_FRAME_STATUS of a slot (Table 5.12). -/
def Core.frameStatus (k : Core) (i : Fin 8) : Nat :=
  let v := k.slot i
  let st := match v.image, v.inst with
    | none, _ => 0
    | some _, none => 1
    | some _, some n => if n.running then 3 else 2
  let mb := match v.inst with
    | some n => n.mb.toNat
    | none => v.lastMb.toNat
  st + b2n v.resident * 4 + b2n v.parked.isSome * 8 + v.lastStatus.toNat * 2 ^ 8 + mb * 2 ^ 16

/- The billet table (R174 to R176). -/

/-- Address of entry n in data memory (R174). -/
def entryAddr (n : Nat) : Nat := 0x1F000 + 16 * n

/-- Reads entry `n` (Table 7.2). -/
def Core.entry (k : Core) (n : Nat) : BEntry :=
  let w (i : Nat) := k.dmem.readLE (entryAddr n + 4 * i) 4
  { num := n, base := w 0 % 2 ^ 17, size := w 0 / 2 ^ 17, w1 := w 1, w2 := w 2, w3 := w 3 }

def BEntry.handle (e : BEntry) : Nat := e.base + e.size * 2 ^ 17
def BEntry.fmt (e : BEntry) : Nat := bitsOf e.w1 4 0
def BEntry.scale (e : BEntry) : Nat := bitsOf e.w1 6 5
def BEntry.orient (e : BEntry) : Bool := bitOf e.w1 7
def BEntry.layout (e : BEntry) : Nat := bitsOf e.w1 10 8
def BEntry.len (e : BEntry) : Nat := bitsOf e.w1 20 12
def BEntry.tstride (e : BEntry) : Nat := bitsOf e.w1 28 21
def BEntry.ctx (e : BEntry) : Nat := bitsOf e.w2 5 0
def BEntry.poison (e : BEntry) : Nat := bitsOf e.w2 15 8
def BEntry.tag (e : BEntry) : Nat := bitsOf e.w2 31 16
/-- The extent in bytes (R175). -/
def BEntry.extent (e : BEntry) : Nat := e.size * 128
/-- First byte of the billet in the scratchpad. -/
def BEntry.addr (e : BEntry) : Nat := e.base * 64
/-- The extent runs beyond line 131,071 (R175). -/
def BEntry.overruns (e : BEntry) : Bool := decide (131072 < e.base + 2 * e.size)

/-- A handle word as base line, size and address (R175). -/
def handleEntry (h : Nat) : BEntry := { num := 256, base := h % 2 ^ 17, size := h / 2 ^ 17 % 2 ^ 15, w1 := 0, w2 := 0, w3 := 0 }

/-- Writes POISON of entry `n`. -/
def Core.setPoison (k : Core) (n : Nat) (st : Byte) : Core :=
  { k with dmem := k.dmem.writeRun (entryAddr n + 9) [st] }

/-- The lines of two extents overlap. -/
def linesOverlap (b1 n1 b2 n2 : Nat) : Bool := decide (b1 < b2 + n2 ∧ b2 < b1 + n1)

/-- Poisons a billet (R182): every entry whose extent overlaps its lines takes the status. -/
def Core.poisonBillet (k : Core) (e : BEntry) (st : Byte) : Core :=
  (List.range 256).foldl (fun k n =>
    let o := k.entry n
    if o.size ≠ 0 ∧ linesOverlap o.base (2 * o.size) e.base (2 * e.size) = true then k.setPoison n st else k) k

/-- Writes the four words of an entry. -/
def Core.writeEntry (k : Core) (n w0 w1 w2 w3 : Nat) : Core :=
  let bs := leBytes 4 w0 ++ (leBytes 4 w1 ++ (leBytes 4 w2 ++ leBytes 4 w3))
  { k with dmem := k.dmem.writeRun (entryAddr n) bs }

end Sys2Proof.Machine
end

