-- ==== Sys2Proof/Machine/Billet.lean ====
section
/-! DEFINITION. Billets: layouts and slices (R177, R179), element and scale places (R81), required extents
(R149, Table 6.4), and the entry rules of R176. -/

namespace Sys2Proof.Machine

/-- The bits [bits − 1:0] at bit address `at` of a memory, little-endian (R81). -/
def rawBits (m : Memory) (at' bits : Nat) : Nat :=
  m.readLE (at' / 8) ((at' % 8 + bits + 7) / 8) / 2 ^ (at' % 8) % 2 ^ bits

/-- Bytes that `n` packed elements of a format take. -/
def planeBytes (fmt n : Nat) : Nat := (n * fmtBits fmt + 7) / 8

/-- `n` rounded up to whole lines of 64 B. -/
def lineUp (n : Nat) : Nat := (n + 63) / 64 * 64

/-- Scale bytes per slice of `len` elements (R177). -/
def scalePer (fmt kind len : Nat) : Nat := if blockLen fmt kind = 0 then 0 else ceilDiv len (blockLen fmt kind)

/-- `S` slices with their scale plane fit the extent (R177). -/
def slicesFit (fmt kind len extent n : Nat) : Bool :=
  if blockLen fmt kind = 0 then decide (n * len * fmtBits fmt ≤ extent * 8)
  else decide (lineUp (planeBytes fmt (n * len)) + n * scalePer fmt kind len ≤ extent)

/-- The largest `n' ≤ n` slices that fit, looking `fuel` steps down. -/
def slicesDown (fmt kind len extent : Nat) : Nat → Nat → Nat
  | 0, n => n
  | fuel + 1, n => if slicesFit fmt kind len extent n then n else slicesDown fmt kind len extent fuel (n - 1)

/-- S, the slices that a row-major or column-major billet holds (R177). The line that the scale plane
rounds up to costs fewer than 128 slices. -/
def sliceCount (fmt kind len extent : Nat) : Nat :=
  if len = 0 then 0
  else slicesDown fmt kind len extent 128
    (extent * 8 / (len * fmtBits fmt + 8 * scalePer fmt kind len))

/-- S of a table entry. -/
def BEntry.slices (e : BEntry) : Nat := sliceCount e.fmt e.scale e.len e.extent

/-- Lines per skewed block (Table 7.3): four times the element width in bytes. -/
def skewLines (fmt : Nat) : Nat := fmtBits fmt / 2

/-- Lines of a skewed tile's scale plane (R177). -/
def skewScaleLines (kind : Nat) : Nat := if kind = 1 then 8 else if kind = 2 then 16 else 0

/-- Lines of a whole skewed tile (R177). -/
def skewTileLines (fmt kind : Nat) : Nat := 64 * skewLines fmt + skewScaleLines kind

/-- Bit address of element (i, j) of a skewed tile that begins at byte `base` (R177). -/
def skewBit (fmt base i j : Nat) : Nat :=
  let slot := 8 * (i / 16) + (j / 16 + i / 16) % 8
  (base + slot * skewLines fmt * 64) * 8 + ((i % 16) * 16 + j % 16) * fmtBits fmt

/-- Byte address of the scale of element (i, j) of a skewed tile. -/
def skewScale (fmt kind base i j : Nat) : Nat :=
  base + 64 * skewLines fmt * 64 + (if kind = 1 then i * 4 + j / 32 else i * 8 + j / 16)

/-- Where a stored matrix lies: byte base, format, scale kind, layout, LEN, S and TSTRIDE. A billet in the
scratchpad and a caravan tile's planes are both read so. -/
structure Stored where
  mem : Memory
  base : Nat
  fmt : Nat
  kind : Nat
  layout : Nat
  len : Nat
  slices : Nat
  tstride : Nat
  deriving DecidableEq, Repr

/-- A billet in the scratchpad as a stored matrix. -/
def Core.stored (k : Core) (e : BEntry) : Stored :=
  { mem := k.sp, base := e.addr, fmt := e.fmt, kind := e.scale, layout := e.layout, len := e.len,
    slices := e.slices, tstride := e.tstride }

/-- Raw bits and scale byte of element `e` of slice `s` of a row-major or column-major matrix. -/
def Stored.sliceElem (m : Stored) (s e : Nat) : Nat × Nat :=
  let raw := rawBits m.mem (m.base * 8 + (s * m.len + e) * fmtBits m.fmt) (fmtBits m.fmt)
  let bl := blockLen m.fmt m.kind
  let sc := if bl = 0 then 0
    else (m.mem.read (m.base + lineUp (planeBytes m.fmt (m.slices * m.len)) +
      s * scalePer m.fmt m.kind m.len + e / bl)).toNat
  (raw, sc)

/-- Raw bits and scale byte of element (i, j) of the skewed tile that `s` selects. -/
def Stored.skewElem (m : Stored) (tile i j : Nat) : Nat × Nat :=
  let base := m.base + tile * skewTileLines m.fmt m.kind * 64
  let raw := rawBits m.mem (skewBit m.fmt base i j) (fmtBits m.fmt)
  let sc := if blockLen m.fmt m.kind = 0 then 0 else (m.mem.read (skewScale m.fmt m.kind base i j)).toNat
  (raw, sc)

/-- Element `e` of slice `s` as a feeder reads it along stored rows (`rows`) or stored columns (R179). -/
def Stored.feed (m : Stored) (rows : Bool) (s e : Nat) : Nat × Nat :=
  if m.layout = 3 then
    let t := s / 128 * m.tstride
    if rows then m.skewElem t (s % 128) e else m.skewElem t e (s % 128)
  else m.sliceElem s e

/-- Its scaled value with offset `t`. -/
def Stored.feedVal (m : Stored) (rows : Bool) (t : Int) (s e : Nat) : Val :=
  let (raw, sc) := m.feed rows s e
  scaledVal m.fmt m.kind raw sc t

/-- Element `q` of an element sequence (R159): linear, or row-major of length LEN. -/
def Stored.seqVal (m : Stored) (t : Int) (q : Nat) : Val :=
  if m.layout = 0 then
    scaledVal m.fmt m.kind (rawBits m.mem (m.base * 8 + q * fmtBits m.fmt) (fmtBits m.fmt)) 0 t
  else
    let (raw, sc) := m.sliceElem (q / m.len) (q % m.len)
    scaledVal m.fmt m.kind raw sc t

/- Entry rules of check 4 (R176). -/

/-- The reserved fields and values of an entry (Table 7.2). -/
def BEntry.fieldsOk (e : BEntry) : Bool :=
  fmtDefined e.fmt && scaleOk e.fmt e.scale && decide (e.layout ≤ 4) && !bitOf e.w1 11 &&
    bitsOf e.w1 31 29 == 0 &&
    (if e.layout == 1 || e.layout == 2 then decide (1 ≤ e.len ∧ e.len ≤ 256) else e.len == 0) &&
    (if e.layout == 3 then decide (1 ≤ e.tstride) else e.tstride == 0) &&
    bitsOf e.w2 7 6 == 0 && (e.layout == 4 || e.tag == 0) && e.w3 == 0

/-- A filler entry lies inside the filler region; an owning entry lies outside it (R197). `region` is the
region as an entry, none when the owning context names no filler. -/
def regionOk (e : BEntry) (region : Option BEntry) (filler : Bool) : Bool :=
  match region with
  | none => true
  | some r =>
    if filler then decide (r.base ≤ e.base ∧ e.base + 2 * e.size ≤ r.base + 2 * r.size) && r.size != 0
    else !(r.size != 0 && linesOverlap e.base (2 * e.size) r.base (2 * r.size))

/-- The outcome of the entry rules for one billet of a command. -/
inductive EntryCheck where
  | fail
  | ok
  /-- A read of an empty entry that records poison: decided at check 5 (R176). -/
  | poisoned
  deriving DecidableEq, Repr

/-- The entry rules of R176 that hold for every use: `dest` when the command names the entry as a
destination. An entry of layout 4 names no scratchpad, so the extent rules do not bear on it (DEDUCED,
assumption 12). -/
def BEntry.check (e : BEntry) (ctx : Nat) (dest : Bool) (region : Option BEntry) (filler : Bool) : EntryCheck :=
  if e.size = 0 ∧ e.layout ≠ 4 then
    if e.poison ≠ 0 ∧ dest = false ∧ e.ctx = ctx then .poisoned else .fail
  else if e.ctx ≠ ctx then .fail
  else if !e.fieldsOk then .fail
  else if e.layout = 4 then .ok
  else if e.overruns then .fail
  else if !regionOk e region filler then .fail
  else .ok

/-- Bytes of `lines` lines of `len` elements with their scale bytes (Table 6.4, R149). -/
def needBytes (fmt kind lines len : Nat) : Nat := planeBytes fmt (lines * len) + lines * scalePer fmt kind len

/-- OPX layout and extent rules for one side (R179, Table 6.4): `rows` says the feeder reads stored rows,
`side` the shape's side, `n` the slices read. -/
def BEntry.feedOk (e : BEntry) (rows : Bool) (side n : Nat) : Bool :=
  if e.layout = 3 then
    e.fmt != 14 && e.fmt != 13 && decide (side ≤ 128) &&
      decide (((ceilDiv n 128 - 1) * e.tstride + 1) * skewTileLines e.fmt e.scale * 64 ≤ e.extent)
  else if e.layout = (if rows then 1 else 2) then e.len == side && decide (n ≤ e.slices)
  else false

/-- An element sequence of `n` elements in a billet (R159, R178). -/
def BEntry.seqOk (e : BEntry) (n : Nat) : Bool :=
  if e.layout = 0 then blockLen e.fmt e.scale == 0 && decide (planeBytes e.fmt n ≤ e.extent)
  else if e.layout = 1 then decide (ceilDiv n e.len ≤ e.slices)
  else false

/-- A destination of `lines` slices of LEN elements (R178). -/
def BEntry.linesOk (e : BEntry) (layout len lines : Nat) : Bool :=
  e.layout == layout && e.len == len && decide (lines ≤ e.slices)

/-- A vector billet of a frame (R473): non-zero handle, extent large enough and within the scratchpad. -/
def vectorOk (handle n : Nat) : Bool :=
  let e := handleEntry handle
  handle != 0 && decide (4 * n ≤ e.extent) && !e.overruns

/-- Element `n` of an FP32 vector billet (R473). -/
def Core.vecElem (k : Core) (handle n : Nat) : Val := fp32Of (k.sp.readLE ((handleEntry handle).addr + 4 * n) 4)

/- Writing. -/

/-- Packs element codes of `bits` bits each into bytes, little-endian (R81). -/
def packBits (bits : Nat) (es : List Nat) : List Byte :=
  let v := es.foldr (fun e acc => e % 2 ^ bits + acc * 2 ^ bits) 0
  leBytes ((es.length * bits + 7) / 8) v

/-- Writes the packed elements of a run at bit offset `at'` from `base`, keeping the other bits of the
first and last bytes. -/
def writePacked (m : Memory) (base at' bits : Nat) (es : List Nat) : Memory :=
  let nb := (at' % 8 + es.length * bits + 7) / 8
  let a := base + at' / 8
  let old := m.readLE a nb
  let v := es.foldr (fun e acc => e % 2 ^ bits + acc * 2 ^ bits) 0
  let w := es.length * bits
  let new := old - old / 2 ^ (at' % 8) % 2 ^ w * 2 ^ (at' % 8) + v * 2 ^ (at' % 8)
  m.writeLE a nb new

/-- Writes slice `s` of a row-major or column-major billet: element codes and scale bytes. -/
def Core.writeSlice (k : Core) (e : BEntry) (s : Nat) (codes scales : List Nat) : Core :=
  let b := fmtBits e.fmt
  let m1 := writePacked k.sp e.addr (s * e.len * b) b codes
  let at' := e.addr + lineUp (planeBytes e.fmt (e.slices * e.len)) + s * scalePer e.fmt e.scale e.len
  { k with sp := if scales.isEmpty then m1 else m1.writeRun at' (scales.map (BitVec.ofNat 8)) }

end Sys2Proof.Machine
end

