-- ==== Sys2Proof/Machine/Array.lean ====
section
/-! DEFINITION. The arithmetic of the outer-product array (Chapter 3): OPX, witnesses, RED, ACCLD, the
witness check and the drain stages. Nothing here touches queues or registers. -/

namespace Sys2Proof.Machine

/- Accumulator sets. -/

def cellDefault (_ : Nat) : Cell := {}

def AccSet.cell (a : AccSet) (key : Nat) : Cell := SMap.get cellDefault a.cells key

def AccSet.setCell (a : AccSet) (key : Nat) (v : Cell) : AccSet :=
  { a with cells := SMap.set cellDefault a.cells key v }

/-- A zero set with clear flags, no RED mark, tag 0 and no complete mark (R132, R138). -/
def AccSet.cleared : AccSet := { tag := some 0 }

def Cell.val (c : Cell) : Val := w48.decode c.acc.toNat
def Cell.absVal (c : Cell) : Val := w48.decode c.abs.toNat

/-- One W48 addition into a cell, with its sticky flags (R92, R107). -/
def Cell.addVal (c : Cell) (x : Val) : Cell :=
  let (v, o) := w48Add c.val x
  { c with acc := BitVec.ofNat 48 (w48.encode v), ovf := c.ovf || o, nf := c.nf || (!x.isZero && v.nonfinite) }

/-- One W48 addition into the absolute sum of a witness cell. -/
def Cell.addAbs (c : Cell) (x : Val) : Cell :=
  { c with abs := BitVec.ofNat 48 (w48.encode (w48Add c.absVal x).1) }

/- Shapes (R74). -/

/-- Quadrants of a tall shape in chain order; `fence` is QUAD_FENCE (Table 3.3). -/
def chainOf (shape fence : Nat) : List Nat :=
  if shape = 1 then [0, 1, 2, 3] else ([0, 1, 2, 3].filter fun q => !bitOf fence q).take 3

/-- A shape on a core: its code and its quadrant chain. -/
structure Shape where
  code : Nat
  chain : List Nat
  deriving DecidableEq, Repr

def shapeOf (code fence : Nat) : Shape := ⟨code, if code = 0 then [] else chainOf code fence⟩

/-- Quadrant of a logical cell: row group v and column group h. -/
def Shape.quad (s : Shape) (r j : Nat) : Nat :=
  if s.code = 0 then 2 * (r / 64) + j / 64 else s.chain.getD (r / 64) 0

/-- Physical row and column of a logical cell. -/
def Shape.phys (s : Shape) (r j : Nat) : Nat × Nat :=
  let q := s.quad r j
  (64 * (q / 2) + r % 64, 64 * (q % 2) + j % 64)

/-- Key of a logical data cell, which is also `elem` of R104. -/
def Shape.key (s : Shape) (r j : Nat) : Nat := 128 * (s.phys r j).1 + (s.phys r j).2

/-- Column groups and row groups of 64 in the shape. -/
def Shape.colGroups (s : Shape) : Nat := if s.code = 0 then 2 else 1
def Shape.rowGroups (s : Shape) : Nat := shapeRows s.code / 64

def wcolKey (q i : Nat) : Nat := 16384 + 64 * q + i
def wrowKey (q j : Nat) : Nat := 16640 + 64 * q + j

/- Masks (R66). -/

/-- The latched mask and its interpretation. -/
structure MaskSel where
  bits : BitVec 128
  block : Bool
  deriving DecidableEq, Repr

/-- Cell (i, j) is enabled. -/
def MaskSel.on (m : MaskSel) (i j : Nat) : Bool :=
  m.bits.getLsbD (if m.block then 8 * (i / 16) + j / 16 else i)

/-- Enabled cells of the shape; masks apply in the square shape only (R69). -/
def MaskSel.count (m : MaskSel) (s : Shape) : Nat :=
  let ones := ((List.range (if m.block then 64 else 128)).filter fun i => m.bits.getLsbD i).length
  if s.code = 0 then ones * (if m.block then 256 else 128) else shapeRows s.code * shapeCols s.code

/-- A row mask disables row i, whose witness-column cells are then gated (R56). -/
def MaskSel.rowOff (m : MaskSel) (s : Shape) (i : Nat) : Bool := s.code == 0 && !m.block && !m.bits.getLsbD i

/-- The mask enables no cell (R68): a block mask takes its 64 block bits alone (R66). -/
def MaskSel.none (m : MaskSel) : Bool := if m.block then m.bits.toNat % 2 ^ 64 == 0 else m.bits == 0

/-- The mask as it applies in the shape. -/
def MaskSel.in_ (m : MaskSel) (s : Shape) (i j : Nat) : Bool := s.code != 0 || m.on i j

/- OPX (R45, R46, R56). -/

/-- One element position of one beat: the a values by row and the b values by column. -/
structure Pos where
  a : List Val
  b : List Val
  deriving DecidableEq, Repr

def valAt (vs : List Val) (i : Nat) : Val := vs.getD i .zero

/-- The three beats of an FP32 position (R46): hi·hi, hi·lo, lo·hi; a non-finite element takes part in the
first alone. -/
def fp32Beats (p : Pos) : List (List Pos) :=
  let hi (x : Val) := if x.nonfinite then x else (fp32Split x).1
  let hi0 (x : Val) := if x.nonfinite then .zero else (fp32Split x).1
  let lo (x : Val) := if x.nonfinite then .zero else (fp32Split x).2
  [[⟨p.a.map hi, p.b.map hi⟩], [⟨p.a.map hi0, p.b.map lo⟩], [⟨p.a.map lo, p.b.map hi0⟩]]

/-- The beats of a run of positions: `p` positions a beat, or three beats a position for FP32. -/
def beatsOf (fp32Op : Bool) (p : Nat) (ps : List Pos) : List (List Pos) :=
  if fp32Op then ps.flatMap fp32Beats else chunks p ps.length ps

/-- The exact sum of a beat's products at (i, j). -/
def beatSum (beat : List Pos) (i j : Nat) : Val :=
  sumExact (beat.map fun p => (valAt p.a i).mul (valAt p.b j))

/-- Accumulates every beat into data cell (i, j). -/
def opxCell (beats : List (List Pos)) (i j : Nat) (c : Cell) : Cell :=
  beats.foldl (fun c beat => c.addVal (beatSum beat i j)) c

/-- Sum of one aligned segment of 16 values, exact and rounded once (R47), and of their absolute values;
`on` excludes masked elements. -/
def segSum (vs : List Val) (first : Nat) (on : Nat → Bool) : Val × Val :=
  let xs := (List.range 16).map fun d => if on (first + d) then valAt vs (first + d) else .zero
  (w48Round (sumExact xs), w48Round (sumExact (xs.map Val.abs)))

/-- The four segments of group g of 64 elements, summed exactly: the spec does not say that this sum is itself rounded
(DESIGN CHOICE, assumption 90). -/
def groupSum (vs : List Val) (g : Nat) (on : Nat → Bool) : Val × Val :=
  let ss := (List.range 4).map fun b => segSum vs (64 * g + 16 * b) on
  (sumExact (ss.map (·.1)), sumExact (ss.map (·.2)))

/-- Witness accumulation of one position (R56). -/
def witnessAdd (x : Val) (s : Val × Val) (c : Cell) : Cell := (c.addVal (x.mul s.1)).addAbs (x.abs.mul s.2)

/-- Witness-column cell of row i for column group h. -/
def opxWcol (sh : Shape) (m : MaskSel) (beats : List (List Pos)) (i h : Nat) (c : Cell) : Cell :=
  beats.foldl (fun c beat => beat.foldl (fun c p =>
    witnessAdd (valAt p.a i) (groupSum p.b h fun j => m.in_ sh i j) c) c) c

/-- Witness-row cell of column j for row group v. -/
def opxWrow (sh : Shape) (m : MaskSel) (beats : List (List Pos)) (v j : Nat) (c : Cell) : Cell :=
  beats.foldl (fun c beat => beat.foldl (fun c p =>
    witnessAdd (valAt p.b j) (groupSum p.a v fun i => m.in_ sh i j) c) c) c

/-- Updates one cell. -/
def AccSet.mod (a : AccSet) (key : Nat) (f : Cell → Cell) : AccSet := a.setCell key (f (a.cell key))

/-- An OPX run of beats on the live set: data cells of the shape that the mask enables, then the witnesses (R45, R56).
Rows and columns beyond the tile receive zeros (R150), which change nothing (R55) unless the other element is not finite; so
the whole shape is taken only then. -/
def AccSet.opx (a : AccSet) (sh : Shape) (m : MaskSel) (tileRows tileCols : Nat) (beats : List (List Pos)) : AccSet :=
  let wild := beats.any fun beat => beat.any fun p => p.a.any Val.nonfinite || p.b.any Val.nonfinite
  let rows := if wild then shapeRows sh.code else tileRows
  let cols := if wild then shapeCols sh.code else tileCols
  let cells := (List.range rows).flatMap fun i => (List.range cols).map fun j => (i, j)
  let a1 := cells.foldl (fun a ij =>
    if m.in_ sh ij.1 ij.2 then a.mod (sh.key ij.1 ij.2) (opxCell beats ij.1 ij.2) else a) a
  let wc := (List.range rows).flatMap fun i => (List.range sh.colGroups).map fun h => (i, h)
  let a2 := wc.foldl (fun a ih =>
    if m.rowOff sh ih.1 then a
    else a.mod (wcolKey (sh.quad ih.1 (64 * ih.2)) (ih.1 % 64)) (opxWcol sh m beats ih.1 ih.2)) a1
  let wr := (List.range cols).flatMap fun j => (List.range sh.rowGroups).map fun v => (v, j)
  wr.foldl (fun a vj =>
    a.mod (wrowKey (sh.quad (64 * vj.1) vj.2) (vj.2 % 64)) (opxWrow sh m beats vj.1 vj.2)) a2

/-- The zero flag of an element (R47): of an FP32 element it says that the element enters the array as zero (R93). The one
flag stands for the element in all three beats, whatever its lo part is (DESIGN CHOICE, assumption 91). -/
def zeroFlag (fp32Op : Bool) (x : Val) : Bool := if fp32Op then (fp32Split x).1.isZero else x.isZero

/-- Zero-gated products (R55) of one position: none when either slice holds a non-finite element;
otherwise the enabled cells whose a or b element has its zero flag. `en` counts the enabled cells of the shape. -/
def gatedOf (sh : Shape) (m : MaskSel) (fp32Op : Bool) (en : Nat) (p : Pos) : Nat :=
  if p.a.any Val.nonfinite || p.b.any Val.nonfinite then 0
  else
    let nz := ((List.range p.a.length).flatMap fun i => (List.range p.b.length).map fun j => (i, j)).filter
      fun ij => m.in_ sh ij.1 ij.2 && !zeroFlag fp32Op (valAt p.a ij.1) && !zeroFlag fp32Op (valAt p.b ij.2)
    en - nz.length

/- RED (R70, R71). -/

/-- `x` beats `y` (R70). -/
def redBeats (min : Bool) (x y : Val) : Bool := if min then x.lt y else y.lt x

/-- The value arriving at a cell takes the place of the kept one. A value of the stream gives way to an equal kept value; a
value that a cell to the left has passed on (`passed`) stands earlier in the stream than what is kept here, and equal values
rank by stream position (R70; assumption 92). -/
def redTakes (min passed : Bool) (x y : Val) : Bool := if passed then !redBeats min y x else redBeats min x y

/-- A list cell as a RED without CONT sets it: value and index; the sticky flags stand (R71, R107). -/
def redStart (min : Bool) (c : Cell) : Cell :=
  { c with acc := BitVec.ofNat 48 (w48.encode (.inf (!min))), idx := 0xFFFFFF }

/-- One value enters a list: each cell keeps the better value and passes the other on. -/
def redInsert (min passed : Bool) : List (Val × BitVec 24) → Val × BitVec 24 → List (Val × BitVec 24)
  | [], _ => []
  | y :: ys, x =>
    if redTakes min passed x.1 y.1 then x :: redInsert min true ys y else y :: redInsert min passed ys x

/-- The list of one row after a stream of values and indices; the flag says a NaN was discarded. -/
def redRow (min : Bool) (kept : List (Val × BitVec 24)) (stream : List (Val × BitVec 24)) :
    List (Val × BitVec 24) × Bool :=
  stream.foldl (fun r x => if x.1.isNan then (r.1, true) else (redInsert min false r.1 x, r.2)) (kept, false)

/-- RED over row i of the live set: depth k. -/
def AccSet.redRow (a : AccSet) (sh : Shape) (i k : Nat) (min cont : Bool)
    (stream : List (Val × BitVec 24)) : AccSet :=
  let start (j : Nat) : Cell := if cont then a.cell (sh.key i j) else redStart min (a.cell (sh.key i j))
  let kept := (List.range k).map fun j => ((start j).val, (start j).idx)
  let (out, nan) := Machine.redRow min kept stream
  ((List.range k).zip out).foldl (fun a jv =>
    let old := start jv.1
    a.setCell (sh.key i jv.1)
      { old with acc := BitVec.ofNat 48 (w48.encode jv.2.1), idx := jv.2.2, nf := old.nf || (nan && jv.1 == 0) }) a

/- ACCLD (R49, R154). -/

/-- One value and its absolute value added into a witness cell as a row is loaded: the overflow flag stays clear (R107). -/
def Cell.load (c : Cell) (x t : Val) : Cell := { (c.addVal x).addAbs t with ovf := c.ovf }

/-- The set that an ACCLD leaves: data cells from `v`, zeros elsewhere, witnesses of the loaded values,
sticky flags of what was loaded. A witness-column cell takes the exact sum of its row, rounded once; a witness-row cell
takes the values row by row, each addition rounded (DESIGN CHOICE, assumption 38). `tag` and the complete mark are the
command's. -/
def loadSet (sh : Shape) (rows cols : Nat) (v : Nat → Nat → Val) (tag : Byte) : AccSet :=
  let cellOf (i j : Nat) : Cell :=
    { acc := BitVec.ofNat 48 (w48.encode (v i j)), nf := (v i j).nonfinite }
  let cells := (List.range rows).flatMap fun i => (List.range cols).map fun j => (i, j)
  let a0 : AccSet := { tag := some tag }
  let a1 := cells.foldl (fun a ij => a.setCell (sh.key ij.1 ij.2) (cellOf ij.1 ij.2)) a0
  let rowVals (i h : Nat) := ((List.range cols).filter fun j => j / 64 == h).map fun j => v i j
  let wc := (List.range rows).flatMap fun i => (List.range sh.colGroups).map fun h => (i, h)
  let a2 := wc.foldl (fun a ih =>
    a.mod (wcolKey (sh.quad ih.1 (64 * ih.2)) (ih.1 % 64)) fun c =>
      c.load (w48Round (sumExact (rowVals ih.1 ih.2))) (w48Round (sumExact ((rowVals ih.1 ih.2).map Val.abs)))) a1
  cells.foldl (fun a ij =>
    a.mod (wrowKey (sh.quad ij.1 ij.2) (ij.2 % 64)) fun c => c.load (v ij.1 ij.2) (v ij.1 ij.2).abs) a2

/- The witness check (R57, R58). -/

/-- The exact sum of listed cells whose key satisfies `p`, rounded once to W48. -/
def AccSet.sumWhere (a : AccSet) (p : Nat → Bool) (f : Cell → Val) : Val :=
  w48Round (sumExact ((a.cells.filter fun e => p e.1).map fun e => f e.2))

/-- `|s − w| > tol × t` exactly, with tol = mant × 2^(exp − 38). -/
def exceedsTol (s w t : Val) (mant exp : Nat) : Bool :=
  ((Val.fin false mant ((exp : Int) - 38)).mul t).lt (s.add w.neg).abs

/-- The marks of one quadrant. -/
structure Marks where
  rows : List Nat
  cols : List Nat
  cross : Bool
  skipped : Nat
  deriving DecidableEq, Repr

def Marks.any (m : Marks) : Bool := !m.rows.isEmpty || !m.cols.isEmpty || m.cross

/-- Class of a marked quadrant (R58). -/
def Marks.cls (m : Marks) : Nat :=
  if m.rows.length = 1 ∧ m.cols.length = 1 then 0
  else if !m.rows.isEmpty && !m.cols.isEmpty then 1 else 2

/-- The comparison of one row, column or cross-check: none when skipped. -/
def compare1 (s w t : Val) (mant exp : Nat) : Option Bool :=
  if s.nonfinite || w.nonfinite || t.nonfinite then none else some (exceedsTol s w t mant exp)

/-- Quadrant of a physical data-cell key. -/
def keyQuad (key : Nat) : Nat := 2 * (key / 128 / 64) + key % 128 / 64

/-- The check of quadrant q (R57). -/
def AccSet.checkQuad (a : AccSet) (mant exp q : Nat) : Marks :=
  let inQ (key : Nat) : Bool := decide (key < 16384) && keyQuad key == q
  let rowRes := (List.range 64).map fun i =>
    (i, compare1 (a.sumWhere (fun k => inQ k && k / 128 % 64 == i) Cell.val)
      (a.cell (wcolKey q i)).val (a.cell (wcolKey q i)).absVal mant exp)
  let colRes := (List.range 64).map fun j =>
    (j, compare1 (a.sumWhere (fun k => inQ k && k % 64 == j) Cell.val)
      (a.cell (wrowKey q j)).val (a.cell (wrowKey q j)).absVal mant exp)
  let inCol (k : Nat) : Bool := decide (wcolKey q 0 ≤ k ∧ k < wcolKey q 64)
  let inRow (k : Nat) : Bool := decide (wrowKey q 0 ≤ k ∧ k < wrowKey q 64)
  let cr := compare1 (a.sumWhere inRow Cell.val) (a.sumWhere inCol Cell.val)
    (a.sumWhere inCol Cell.absVal) mant exp
  { rows := (rowRes.filter fun r => r.2 == some true).map (·.1),
    cols := (colRes.filter fun r => r.2 == some true).map (·.1),
    cross := cr == some true,
    skipped := (rowRes.filter fun r => r.2 == none).length + (colRes.filter fun r => r.2 == none).length +
      b2n (cr == none) }

/-- Quadrants that a shape uses. -/
def Shape.quads (s : Shape) : List Nat := if s.code = 0 then [0, 1, 2, 3] else s.chain

/-- CORE_ABFT_STATUS without VALID and OVERFLOW, and CORE_ABFT_DETAIL, of a failed check (Table 3.7);
none when nothing is marked. `cmd` is CMD_INDEX. -/
def abftRecord (ms : List (Nat × Marks)) (cmd : Nat) : Option (Nat × Nat) :=
  match ms.filter fun m => m.2.any with
  | [] => none
  | (q, m) :: rest =>
    let kind := if rest.isEmpty then m.cls
      else if m.cls == 2 && rest.all (fun r => r.2.cls == 2) then 2 else 1
    let quads := ((q, m) :: rest).foldl (fun acc r => acc + 2 ^ r.1) 0
    let row := m.rows.head?
    let col := m.cols.head?
    some (q * 2 + kind * 8 + quads * 2 ^ 12 + cmd % 2 ^ 16 * 2 ^ 16,
      row.getD 0 + b2n row.isSome * 2 ^ 6 + col.getD 0 * 2 ^ 8 + b2n col.isSome * 2 ^ 14 +
        m.rows.length * 2 ^ 16 + m.cols.length * 2 ^ 24)

/- Drain stages 2 to 5 (Table 3.2). -/

/-- An FP32 value with whether a step of the command overflowed on the way (R65). -/
structure StageVal where
  v : Val
  ovf : Bool
  deriving DecidableEq, Repr

/-- Rounds an FP32 operation's exact result; overflow counts when its operands were finite. -/
def stageRound (x : StageVal) (exact : Val) : StageVal :=
  let (v, o) := fp32.roundNE exact
  ⟨v, x.ovf || o⟩

/-- Activation-table defaults: m = 1.0, c = +0 (R63). -/
def actDefault (k : Nat) : Word := if k % 2 = 0 then 0x3F800000 else 0

/-- Segment of an FP32 input (R63). -/
def actSegment (e0 : Int) (x : Val) : Nat :=
  let w := fp32.encode x
  let sgn := w / 2 ^ 31 % 2
  if x.isZero then 64 * sgn
  else
    let e : Int := (w / 2 ^ 23 % 256 : Nat) - 127
    64 * sgn + 4 * (min 15 (max 0 (e - e0))).toNat + w / 2 ^ 21 % 4

/-- Stage 5 (R63). -/
def ActTable.apply (t : ActTable) (x : StageVal) : StageVal :=
  if x.v.nonfinite then x
  else
    let s := actSegment (signedOf 8 t.e0.toNat) x.v
    let m := fp32Of (SMap.get actDefault t.seg (2 * s)).toNat
    let c := fp32Of (SMap.get actDefault t.seg (2 * s + 1)).toNat
    stageRound x ((m.mul x.v).add c)

/-- Stages 3 to 5 for one element: `r` and `j` index per-row and per-column vectors. -/
def Core.stages (k : Core) (f : Frame) (r j : Nat) (x : StageVal) : StageVal :=
  let x3 := match f.scaleMode with
    | 1 => stageRound x (x.v.mul (fp32Of f.scale))
    | 2 => stageRound x (x.v.mul (k.vecElem f.scaleVec r))
    | 3 => stageRound x (x.v.mul (k.vecElem f.scaleVec j))
    | _ => x
  let x4 := match f.biasMode with
    | 2 => stageRound x3 (x3.v.add (k.vecElem f.biasVec r))
    | 3 => stageRound x3 (x3.v.add (k.vecElem f.biasVec j))
    | _ => x3
  match f.act with
  | 1 => k.act[0].apply x4
  | 2 => k.act[1].apply x4
  | _ => x4

/-- Tile counts of R65: NaN, infinity, overflow. -/
structure Counts where
  nan : Nat
  inf : Nat
  ovf : Nat
  deriving DecidableEq, Repr

/-- Counts each element once (R65): a NaN first, then an overflow of either copy, then an infinity. -/
def mergeCount (a b : Count) : Count :=
  if a = .nan ∨ b = .nan then .nan else if a = .ovf ∨ b = .ovf then .ovf
  else if a = .inf ∨ b = .inf then .inf else .none

def countAll (cs : List Count) : Counts :=
  ⟨(cs.filter (· == .nan)).length, (cs.filter (· == .inf)).length, (cs.filter (· == .ovf)).length⟩

end Sys2Proof.Machine
end

