-- ==== Sys2Proof/Machine/Codes.lean ====
section
/-! DEFINITION. What a channel stores of a granule and finds when it reads it: the near tier's Reed-Solomon code (R219, R220),
the dies in error (R221), the poison marker (R222) and the cellar's link and dies (R223). -/

namespace Sys2Proof.Machine

/- The field GF(2⁸) with x⁸ + x⁴ + x³ + x² + 1 (R220). -/

/-- Multiplication by α, the element x. -/
def gfTimesX (a : Byte) : Byte := if a.msb then (a <<< 1) ^^^ 0x1D#8 else a <<< 1

/-- Multiplication by αⁿ. -/
def gfAlpha : Nat → Byte → Byte
  | 0, a => a
  | n + 1, a => gfTimesX (gfAlpha n a)

/-- The syndromes of a word at the generator's roots α⁰ and α¹; byte `i` stands at xⁱ. -/
def syndromes (word : List Byte) : Byte × Byte :=
  word.zipIdx.foldl (fun s p => (s.1 ^^^ p.1, s.2 ^^^ gfAlpha p.2 p.1)) (0, 0)

/-- 1 ÷ (1 + α) is α²³⁰. -/
def gfOverOnePlusAlpha (a : Byte) : Byte := gfAlpha 230 a

/-- The two check bytes of 16 data bytes, at x⁰ and x¹; the data follow from x² on. -/
def checkBytes (data : List Byte) : Byte × Byte :=
  let s := syndromes (0 :: 0 :: data)
  let c1 := gfOverOnePlusAlpha (s.1 ^^^ s.2)
  (s.1 ^^^ c1, c1)

/-- The code word of 16 data bytes. -/
def codeWord (data : List Byte) : List Byte := (checkBytes data).1 :: (checkBytes data).2 :: data

/-- Byte `j` of the share of data die `d` in a granule (R219, assumption 108): the die's lanes carry nibble `d` of every
transfer, and the byte joins those of transfers 2j and 2j + 1. -/
def dataShare (gran : List Byte) (d j : Nat) : Byte :=
  let nibble (t : Nat) : Byte := (gran.getD (8 * t + d / 2) 0 >>> (4 * (d % 2))) &&& 0x0F#8
  nibble (2 * j) ||| (nibble (2 * j + 1) <<< 4)

/-- What die `d` holds at byte `j` of its share: data dies 0 to 15, and check dies 16 and 17. With the poison marker both
check bytes of every code word are wrong (R222). -/
def storedShare (gran : List Byte) (marker : Bool) (d : Fin 18) (j : Fin 4) : Byte :=
  let c := checkBytes ((List.range 16).map fun e => dataShare gran e j.val)
  let spoil (b : Byte) : Byte := if marker then ~~~b else b
  if d.val < 16 then dataShare gran d.val j.val else if d.val = 16 then spoil c.1 else spoil c.2

/-- What a fault on the lanes or in a die changes of a share as it is read. -/
def flipOf (flips : List (Fin 18 × Fin 4 × Byte)) (d : Fin 18) (j : Fin 4) : Byte :=
  (flips.filter fun f => f.1 == d && f.2.1 == j).foldl (fun b f => b ^^^ f.2.2) 0

/-- The dies whose bytes, as read, are not those of the granule's code words. -/
def badDies (gran : List Byte) (marker : Bool) (flips : List (Fin 18 × Fin 4 × Byte)) : List (Fin 18) :=
  (List.finRange 18).filter fun d => (List.finRange 4).any fun j =>
    (storedShare gran marker d j ^^^ flipOf flips d j) != storedShare gran false d j

/-- What the controller makes of a granule (R221, R223). -/
inductive GranVerdict where
  | clean
  | corrected (die : Nat)
  | uncorrectable
  deriving DecidableEq, Repr

/-- A near granule: errors in one die are corrected. With a die erased its bytes are erasures, and an error in another die is
uncorrectable; a granule with the marker always is. -/
def nearVerdict (gran : List Byte) (marker : Bool) (erased : Option Nat) (flips : List (Fin 18 × Fin 4 × Byte)) : GranVerdict :=
  if marker then .uncorrectable
  else match badDies gran marker flips with
    | [] => .clean
    | [d] => match erased with
      | some e => if e = d.val then .corrected e else .uncorrectable
      | none => .corrected d.val
    | _ => .uncorrectable

/-- A cellar granule: a burst that fails the link CRC is retried up to 3 times, and the dies may report it uncorrectable. -/
def cellarVerdict (marker : Bool) (linkFails : Nat) (media : Bool) : GranVerdict :=
  if marker || media || decide (3 < linkFails) then .uncorrectable else .clean

end Sys2Proof.Machine
end

