-- ==== Sys2Proof/Machine/Tiers.lean ====
section
/-! DEFINITION. The memory tiers (Chapter 9): address map and interleave, channels and their decoding, regions, the accesses
that partitions pay for, and write combining. -/

namespace Sys2Proof.Machine

/- The address map (R216 to R218). -/

def nearDie : Nat := 0x6000000000
def nearEnd : Nat := 0xC000000000
def cellarBase : Nat := 0x100000000000
def cellarEnd : Nat := 0x120000000000
def stashBase : Nat := 0xF00000000000
def stashEnd : Nat := 0xF10000000000

def isNear (a : Nat) : Bool := decide (a < nearEnd)
def isCellar (a : Nat) : Bool := decide (cellarBase ≤ a ∧ a < cellarEnd)
def inStash (a : Nat) : Bool := decide (stashBase ≤ a ∧ a < stashEnd)

/-- The die of an address of either tier. -/
def dieOf (a : Nat) : Nat := if isNear a then a / nearDie else (a - cellarBase) / 2 ^ 40

/-- The channel of an address: 0 to 191 near, 192 to 207 cellar (R217, R253). -/
def chanNum (a : Nat) : Nat :=
  if isNear a then 96 * (a / nearDie) + a % nearDie / 4096 % 96
  else 192 + 8 * ((a - cellarBase) / 2 ^ 40) + (a - cellarBase) / 4096 % 8

def chanAt (n : Nat) : Fin 208 := ⟨n % 208, Nat.mod_lt _ (by decide)⟩

def chanOf (a : Nat) : Fin 208 := chanAt (chanNum a)

/-- Channels of one die in the tier of an address, and the offset of the address in the range of its die (R217). -/
def dieChans (a : Nat) : Nat := if isNear a then 96 else 8
def dieOffset (a : Nat) : Nat := if isNear a then a % nearDie else (a - cellarBase) % 2 ^ 40

/-- The address of a byte within its channel (R217). -/
def chanAddr (a : Nat) : Nat := dieOffset a / 4096 / dieChans a * 4096 + dieOffset a % 4096

/-- The channels of a range of one die with the granules that it has in each (R217). -/
def channelRuns (a n : Nat) : List (Fin 208 × Nat) :=
  if n = 0 then []
  else
    let count := dieChans a
    let lo := dieOffset a / 64
    let hi := (dieOffset a + n + 63) / 64
    let first := lo / 64
    let last := (hi - 1) / 64
    (List.range (min count (last + 1 - first))).map fun d =>
      let whole := 64 * ((last - (first + d)) / count + 1)
      let head := if d = 0 then lo - 64 * first else 0
      let tail := if (last - (first + d)) % count = 0 then 64 * (last + 1) - hi else 0
      (chanOf (a - a % 4096 + 4096 * d), whole - head - tail)

/-- A range of one tier and one die that leaves the reserved top of the die alone (R218). -/
def openRange (a n : Nat) : Bool :=
  decide (0 < n) &&
  ((isNear a && decide (a % nearDie + n ≤ 0x5FC0000000)) ||
    (isCellar a && decide ((a - cellarBase) % 2 ^ 40 + n ≤ 2 ^ 40)))

/- Channels. -/

def State.chan (s : State) (c : Fin 208) : Chan := s.chans[c]

def State.modChan (s : State) (c : Fin 208) (f : Chan → Chan) : State := { s with chans := s.chans.set c (f (s.chan c)) }

def chanReset (_ : Nat) : Word := 0

def Chan.rd (k : Chan) (off : Nat) : Nat := Regs.rd chanReset k.regs off
def Chan.wr (k : Chan) (off v : Nat) : Chan := { k with regs := Regs.wr chanReset k.regs off v }
def Chan.bump (k : Chan) (off n : Nat) : Chan := { k with regs := Regs.bump chanReset k.regs off n }

/-- CHAN_INFO (Table 9.10). -/
def State.chanInfo (s : State) (c : Fin 208) : Nat :=
  let k := s.chan c
  let er := match k.erased with
    | some d => d
    | none => 0x1F
  let unit := if c.val < 192 then 2 * (c.val / 16) + 32 * (c.val % 16) + 512 * (c.val / 96)
    else 1 + 2 * (c.val - 192) + 512 * ((c.val - 192) / 8)
  unit + k.st * 2 ^ 10 + er * 2 ^ 12

/-- A fault-log entry of a channel. -/
def State.logChan (s : State) (c : Fin 208) (kind : Nat) (st : Byte) (x : Option (Fin 64)) : State :=
  s.logFault { kind := kind, status := st, ctx := x, unitType := if c.val < 192 then 2 else 3,
               unit := if c.val < 192 then c.val else c.val - 192, detail0 := s.chanInfo c }

/-- Counts a correction attributed to a die of a near channel; beyond 4,096 in one telemetry window the die is
erased (R221). -/
def State.corrected (s : State) (c : Fin 208) (die : Nat) : State :=
  let s1 := s.modChan c fun k =>
    let n := SMap.get (fun _ => 0) k.dieCorr die + 1
    { k.bump 0x30010 1 with dieCorr := SMap.set (fun _ => 0) k.dieCorr die n }
  let k := s1.chan c
  if k.erased = none ∧ 4096 < SMap.get (fun _ => 0) k.dieCorr die then
    (s1.modChan c fun k => { k with erased := some die }).logChan c 0x02 stOk none
  else s1

/-- The flips that a row's read of granule `g` meets. -/
def flipsAt (errs : List GranErr) (g : Nat) : List (Fin 18 × Fin 4 × Byte) :=
  errs.flatMap fun e => match e with
    | .dies h fs => if g = h then fs else []
    | _ => []

/-- Link failures in a row that the read of granule `g` meets. -/
def linkFailsAt (errs : List GranErr) (g : Nat) : Nat :=
  errs.foldl (fun n e => match e with
    | .link h k => if g = h then max n k else n
    | _ => n) 0

def mediaAt (errs : List GranErr) (g : Nat) : Bool := errs.contains (.media g)

/-- What a controller makes of granule `g` as the row's read finds it (R221 to R223). -/
def State.verdict (s : State) (g : Nat) : GranVerdict :=
  let c := chanOf (64 * g)
  let marker := SMap.get (fun _ => false) s.marked g
  if 192 ≤ c.val then cellarVerdict marker (linkFailsAt s.meet.errs g) (mediaAt s.meet.errs g)
  else
    let fs := flipsAt s.meet.errs g
    if fs.isEmpty then (if marker then .uncorrectable else .clean)
    else nearVerdict (s.mem.readRun (64 * g) 64) marker (s.chan c).erased fs

/-- A controller decodes granule `g` and counts (R221): whether it is uncorrectable. Every granule of a failed channel is
(R252). -/
def State.decodeGran (s : State) (g : Nat) : Bool × State :=
  let c := chanOf (64 * g)
  let uncorr : Bool × State := (true, s.modChan c fun k => k.bump 0x30014 1)
  if (s.chan c).st = 2 then uncorr
  else match s.verdict g with
    | .clean => (false, s)
    | .corrected d => (false, s.corrected c d)
    | .uncorrectable => uncorr

/-- Decodes granules: those found uncorrectable. -/
def State.decodeGrans (s : State) (gs : List Nat) : List Nat × State :=
  gs.foldl (fun p g =>
    let (bad, t) := p.2.decodeGran g
    (if bad then p.1 ++ [g] else p.1, t)) ([], s)

/-- The granules of `n` bytes from `a`. -/
def granules (a n : Nat) : List Nat := if n = 0 then [] else (List.range ((a + n - 1) / 64 + 1 - a / 64)).map (· + a / 64)

/- Regions (R224 to R226). -/

def Region.bytes (r : Region) : Nat := r.size * 4096
def Region.holds (r : Region) (a n : Nat) : Bool := decide (r.base ≤ a ∧ a + n ≤ r.base + r.bytes)
/-- A region of tile slots (kinds 1 to 3). -/
def Region.tiled (r : Region) : Bool := decide (1 ≤ r.kind ∧ r.kind ≤ 3)
def Region.slotBytes (r : Region) : Nat := r.slot * 64
/-- Slots that the region holds whole. -/
def Region.slots (r : Region) : Nat := if r.slot = 0 then 0 else r.bytes / r.slotBytes
/-- The base of the slot that holds `a`. -/
def Region.slotBase (r : Region) (a : Nat) : Nat := r.base + (a - r.base) / r.slotBytes * r.slotBytes
/-- Bases of the slots that a range reaches. -/
def Region.slotsOf (r : Region) (a n : Nat) : List Nat :=
  if n = 0 then []
  else
    let i := (a - r.base) / r.slotBytes
    let j := (a + n - 1 - r.base) / r.slotBytes
    (List.range (j + 1 - i)).map fun d => r.base + (i + d) * r.slotBytes

/-- The region that holds a whole range. -/
def State.regionAt (s : State) (a n : Nat) : Option Region := s.regions.find? fun r => r.holds a n

/-- The owning context of a region. -/
def Region.owner (r : Region) : Option (Fin 64) := ctxOf? r.ctx

/- Regulator tokens (R246 to R249). -/

/-- The class of an access. -/
def urgentClass : Nat := 0
def normalClass : Nat := 1
def backgroundClass : Nat := 2

/-- The partition that pays for an access at `a`: that of the context that owns the region there (R248). -/
def State.partOf (s : State) (a : Nat) : Option (Fin 16) :=
  match (s.regionAt a 1).bind Region.owner with
  | some x => some ⟨(s.ctx x).part % 16, Nat.mod_lt _ (by decide)⟩
  | none => none

/-- Accesses to the granules of a range queue at their channels, `cost` bytes of tokens each. Traffic of no partition is
urgent (R248). -/
def State.charge (s : State) (a n cls cost : Nat) : State :=
  let p := s.partOf a
  if s.meet.paid then s
  else (channelRuns a n).foldl (fun s r => s.modChan r.1 fun k =>
    { k with reqs := k.reqs ++ [{ part := p, cls := if p.isSome then cls else urgentClass, cost := cost, left := r.2 }] }) s

/-- Reads of a range in the row's class. -/
def State.chargeReads (s : State) (a n : Nat) : State := s.charge a n s.meet.cls 64

/-- The same for granules at their places. -/
def State.chargeGrans (s : State) (cost : Nat) (as_ : List Nat) : State := as_.foldl (fun s a => s.charge a 64 s.meet.cls cost) s

/-- A channel of a range is held for service, and its new requests wait (R251). -/
def State.heldAt (s : State) (a n : Nat) : Bool := (channelRuns a n).any fun r => (s.chan r.1).st == 1

/-- A row whose reads meet `errs`. -/
def State.meeting (s : State) (errs : List GranErr) : State := { s with meet := { errs := errs } }

/-- The same state with accesses of another class. -/
def State.inClass (s : State) (cls : Nat) : State := { s with meet := { s.meet with cls := cls } }

/-- `f` on a state whose accesses have paid their tokens. -/
def State.prepaid (s : State) (f : State → State) : State :=
  { f { s with meet := { s.meet with paid := true } } with meet := s.meet }

/-- A row whose reads meet `errs`: what it met is gone after it. -/
def meetRow (errs : List GranErr) (f : State → Result) (s : State) : Result :=
  match f (s.meeting errs) with
  | .next t => .next { t with meet := s.meet }
  | r => r

/- Writes (R221, R222, R247). -/

/-- Writes granules with the poison marker: every later read finds them uncorrectable (R222). -/
def State.markGrans (s : State) (gs : List Nat) : State :=
  { s with marked := gs.foldl (fun m g => SMap.set (fun _ => false) m g true) s.marked }

/-- Writes whole granules: poison markers and write-combining entries of theirs go. -/
def State.putWhole (s : State) (a : Nat) (bs : List Byte) : State :=
  let inside (g : Nat) : Bool := decide (a / 64 ≤ g ∧ g < (a + bs.length) / 64)
  { s with
    mem := s.mem.writeRun a bs
    marked := s.marked.filter fun e => !inside e.1
    chans := s.chans.map fun k => { k with wc := k.wc.filter fun e => !inside e.gran } }

/-- Writes whole granules and queues the writes at their channels. -/
def State.putFull (s : State) (a : Nat) (bs : List Byte) : State := (s.charge a bs.length s.meet.cls 64).putWhole a bs

/-- A read-modify-write of granule `g`, whose bytes stand in memory: an uncorrectable read leaves the poison marker
(R222, R247). -/
def State.mergeGran (s : State) (g : Nat) : State :=
  let (bad, s1) := s.decodeGran g
  let s2 := s1.charge (64 * g) 64 s1.meet.cls 128
  if bad then s2.markGrans [g] else s2

/-- Evicts the write-combining entry of granule `g`. -/
def State.evictGran (s : State) (g : Nat) : State :=
  (s.modChan (chanOf (64 * g)) fun k => { k.bump 0x3001C 1 with wc := k.wc.filter fun e => e.gran != g }).mergeGran g

/-- Evicts the entries of channel `c` that `p` picks, the oldest first. -/
def State.evictChan (s : State) (c : Fin 208) (p : WcEntry → Bool) : State :=
  ((s.chan c).wc.filter p).foldl (fun s e => s.evictGran e.gran) s

/-- Evicts every entry of the granules of a range. -/
def State.evictRange (s : State) (a n : Nat) : State :=
  (channelRuns a n).foldl (fun s r => s.evictChan r.1 fun e => decide (a / 64 ≤ e.gran ∧ 64 * e.gran < a + n)) s

/-- Bits [lo + n − 1:lo] of a granule's byte mask. -/
def byteMask (lo n : Nat) : BitVec 64 := BitVec.ofNat 64 ((2 ^ n - 1) * 2 ^ lo)

/-- A partial write within one granule (Table 9.8); a cellar channel merges it at once. An entry that covers its granule is
written without a read. -/
def State.putPartial (s : State) (a : Nat) (bs : List Byte) : State :=
  let g := a / 64
  let s1 := { s with mem := s.mem.writeRun a bs }
  if !isNear a then s1.mergeGran g
  else
    let c := chanOf a
    let m := byteMask (a % 64) bs.length
    let k := s1.chan c
    match k.wc.find? (fun e => e.gran == g) with
    | some e =>
      let m1 := e.mask ||| m
      if m1 = BitVec.allOnes 64 then
        let s2 := s1.modChan c fun k => { k.bump 0x30018 1 with wc := k.wc.filter fun e => e.gran != g }
        { s2.charge (64 * g) 64 s.meet.cls 64 with marked := s2.marked.filter fun e => e.1 != g }
      else
        let put (e : WcEntry) : WcEntry := if e.gran = g then { e with mask := m1 } else e
        s1.modChan c fun k => { k with wc := k.wc.map put }
    | none =>
      let s2 := match k.wc with
        | o :: _ => if 64 ≤ k.wc.length then s1.evictGran o.gran else s1
        | [] => s1
      s2.modChan c fun k => { k with wc := k.wc ++ [{ gran := g, mask := m }] }

/-- Writes a run of bytes: its whole granules, and its partial first and last ones. -/
def State.putBytes (s : State) (a : Nat) (bs : List Byte) : State :=
  let head := min bs.length ((64 - a % 64) % 64)
  let s1 := if head = 0 then s else s.putPartial a (bs.take head)
  let rest := bs.drop head
  let mid := rest.length / 64 * 64
  let s2 := if mid = 0 then s1 else s1.putFull (a + head) (rest.take mid)
  let tail := rest.drop mid
  if tail = [] then s2 else s2.putPartial (a + head + mid) tail

end Sys2Proof.Machine
end

