-- ==== Sys2Proof/Machine/HostOps.lean ====
section
/-! DEFINITION. What the Innkeeper tells the host: mailbox events (R337, R338), MSI-X messages (R339) and
completion records (R329, R333, R361). -/

namespace Sys2Proof.Machine

def State.fn (s : State) (f : Fin 32) : Fn := s.fns[f]

def State.modFn (s : State) (f : Fin 32) (g : Fn → Fn) : State := { s with fns := s.fns.set f (g (s.fn f)) }

def fnOf (n : Nat) : Fin 32 := ⟨n % 32, Nat.mod_lt _ (by decide)⟩

def allFns : List (Fin 32) := List.finRange 32

/-- Reset values of a function's own registers (Table 13.5); an MSI-X vector is masked after reset
(PRESUMED, the PCI Express base specification; assumption 33). -/
def fnReset (off : Nat) : Word :=
  if off = 0x69004 then 0x14 else if 0x18000 ≤ off ∧ off < 0x1C000 ∧ off % 16 = 12 then 1 else 0

def Fn.rd (k : Fn) (off : Nat) : Nat := Regs.rd fnReset k.regs off

def Fn.wr (k : Fn) (off v : Nat) : Fn := { k with regs := Regs.wr fnReset k.regs off v }

/-- MSI-X vectors of a function (R339). -/
def vectorsOf (f : Fin 32) : Nat := if f = 0 then 512 else 48

/-- Sends an MSI-X message, or sets the pending bit of a masked vector (R339). A function whose lease has
expired receives none (R360). -/
def State.msix (s : State) (f : Fin 32) (v : Nat) : State :=
  let k := s.fn f
  if k.lease = .expired then s
  else if bitOf (k.rd (0x18000 + 16 * v + 12)) 0 then
    let off := 0x1C000 + v / 32 * 4
    s.modFn f fun k => k.wr off (Nat.lor (k.rd off) (2 ^ (v % 32)))
  else { s with out := s.out ++ [.msix f.val v] }

/- Mailbox events. -/

/-- Entries of the event ring that the host has not consumed (R337). -/
def Fn.evtUsed (k : Fn) : Nat := (k.box.readLE 0x0C 2 + 0x10000 - k.box.readLE 0x10 2) % 0x10000

def Fn.evtFull (k : Fn) : Bool := decide (256 ≤ k.evtUsed)

/-- The 64 bytes of an event entry (R337). -/
def eventBytes (evt seq : Nat) (st : Byte) (unsolicited : Bool) (body : List Byte) : List Byte :=
  let hd := leBytes 1 1 ++ (leBytes 1 evt ++ (leBytes 2 seq ++ (st :: (leBytes 1 (b2n unsolicited) ++
    leBytes 2 body.length))))
  let e := hd ++ body
  e ++ List.replicate (64 - e.length) 0

/-- Posts an event entry and signals it by vector 0 (R338, R339). An unsolicited event that finds the ring
full is dropped and counted in LOST. Nothing is posted to a function whose lease has expired (R360). -/
def State.postEvent (s : State) (f : Fin 32) (evt seq : Nat) (st : Byte) (unsolicited : Bool)
    (body : List Byte) : State :=
  let k := s.fn f
  if k.lease = .expired then s
  else if k.evtFull then
    s.modFn f fun k => { k with box := k.box.writeLE 0x14 4 (k.box.readLE 0x14 4 + 1) }
  else
    let tail := k.box.readLE 0x0C 2
    let m1 := k.box.writeRun (0x5000 + 64 * (tail % 256)) (eventBytes evt seq st unsolicited body)
    let m2 := m1.writeLE 0x0C 2 (tail + 1)
    (s.modFn f fun k => { k with box := m2 }).msix f 0

/-- Answers a request (R338). -/
def State.answer (s : State) (f : Fin 32) (msg seq : Nat) (st : Byte) (body : List Byte) : State :=
  s.postEvent f msg seq st false body

/-- An unsolicited event to the owner of a context (R341); none for an orphaned context until it is resumed (R360). -/
def State.tellOwner (s : State) (x : Fin 64) (evt : Nat) (body : List Byte) : State :=
  if (s.ctx x).orphaned then s else s.postEvent (fnOf (s.ctx x).fn) evt 0 stOk true body

/- Completion records. -/

def State.sq (s : State) (r : Fin 256) : SubRing := s.sqs[r]

def State.modSq (s : State) (r : Fin 256) (g : SubRing → SubRing) : State := { s with sqs := s.sqs.set r (g (s.sq r)) }

def State.cq (s : State) (r : Fin 256) : CompRing := s.cqs[r]

def State.modCq (s : State) (r : Fin 256) (g : CompRing → CompRing) : State := { s with cqs := s.cqs.set r (g (s.cq r)) }

def ringOf (n : Nat) : Fin 256 := ⟨n % 256, Nat.mod_lt _ (by decide)⟩

def sqCfgOff (r : Nat) : Nat := 0x60008 + 16 * r
def cqCfgOff (r : Nat) : Nat := 0x61008 + 16 * r

/-- ENABLE and entries of a submission ring (Table 12.10). -/
def State.sqEnabled (s : State) (r : Fin 256) : Bool := bitOf (s.rd (sqCfgOff r)) 0
def State.sqSize (s : State) (r : Fin 256) : Nat := 2 ^ bitsOf (s.rd (sqCfgOff r)) 4 1
/-- The completion ring a submission ring names. -/
def State.cqOf (s : State) (r : Fin 256) : Fin 256 := ringOf (bitsOf (s.rd (sqCfgOff r)) 12 5)
def State.cqEnabled (s : State) (r : Fin 256) : Bool := bitOf (s.rd (cqCfgOff r)) 0
def State.cqSize (s : State) (r : Fin 256) : Nat := 2 ^ bitsOf (s.rd (cqCfgOff r)) 4 1

/-- A field of a descriptor. -/
def DescRef.le (d : DescRef) (off n : Nat) : Nat := leNat ((d.bytes.drop off).take n)

/-- Queues a record on the completion ring `q`, or holds it while its context is orphaned (R361). -/
def State.pushRec (s : State) (x : Option (Fin 64)) (q : Fin 256) (r : Rec) : State :=
  match x with
  | some x =>
    if (s.ctx x).orphaned then s.modCtx x fun k => { k with held := k.held ++ [{ r with idx := none, heldOver := true }] }
    else s.modCq q fun k => { k with waiting := k.waiting ++ [r] }
  | none => s

/-- Completes a descriptor (R329, R333): its record waits in the completion ring of its submission ring; an
orphaned context's record is held and the descriptor leaves its ring (R361). -/
def State.complete (s : State) (d : DescRef) (st : Byte) (d16 d32 d64 : Nat) : State :=
  let r := ringOf d.ring
  let x := (s.sq r).ctx
  let rec_ : Rec :=
    { sq := d.ring, idx := some d.idx, tag := d.le 4 4, status := st, type := d.le 1 1, d16 := d16,
      d32 := d32, d64 := d64, irq := bitOf (d.le 2 1) 0, time := s.time }
  let s1 := s.pushRec x (s.cqOf r) rec_
  let gone := match x with
    | some x => (s.ctx x).orphaned
    | none => true
  if gone then s1.modSq r fun k => { k with out := k.out.filter fun o => o.ref.idx != d.idx } else s1

end Sys2Proof.Machine
end

