-- ==== Sys2Proof/Machine/Innk.lean ====
section
/-! DEFINITION. Shared operations of the Innkeeper (Chapters 8 and 13): events of the Steward, admission
entries and notices, forward declarations, the failure, abort and completion of micro-batches, taints. -/

namespace Sys2Proof.Machine

/- Units of a context. -/

/-- The cores that a context holds. -/
def State.ctxCores (s : State) (x : Fin 64) : List (Fin 192) := allCores.filter fun c => (s.core c).ctx == some x

/-- Applies an update to every core of a context. -/
def State.onCtxCores (s : State) (x : Fin 64) (f : Core → Core) : State :=
  (s.ctxCores x).foldl (fun s c => s.modCore c f) s

/-- Every slot that holds an instance of a frame of context `x`, its fillers on borrowed cores included. -/
def State.ctxInsts (s : State) (x : Fin 64) : List (Fin 192 × Fin 8) :=
  allCores.flatMap fun c => (allSlots.filter fun i =>
    match ((s.core c).slot i).inst, (s.core c).frame i with
    | some _, some f => f.context == x.val
    | _, _ => false).map fun i => (c, i)

/-- The instances of micro-batch `m` of context `x`; with `cls`, only those of that CLASS. -/
def State.mbInsts (s : State) (x : Fin 64) (m : Nat) (cls : Option Nat) : List (Fin 192 × Fin 8) :=
  (s.ctxInsts x).filter fun p =>
    match ((s.core p.1).slot p.2).inst, (s.core p.1).frame p.2 with
    | some n, some f => n.mb.toNat == m && (match cls with
        | some q => f.cls == q
        | none => true)
    | _, _ => false

/-- Raises WAIT events (R118). -/
def Core.raiseEvent (k : Core) (bit : Nat) : Core :=
  { k with stw := { k.stw with events := k.stw.events ||| (1#16 <<< bit) } }

/- Admission queues (R117, R348, R349). -/

def admitWord (m : Nat) : Word := BitVec.ofNat 32 (2 ^ 31 + m % 2 ^ 16)
def noticeWord (m : Nat) : Word := BitVec.ofNat 32 (2 ^ 31 + 2 ^ 30 + m % 2 ^ 16)

/-- Appends an entry to the admission queue and raises event 8 (R118). -/
def Core.postAdmit (k : Core) (w : Word) : Core := ({ k with admitQ := k.admitQ ++ [w] }).raiseEvent 8

/-- Posts an abort notice (R349): in place of the unread admission entry, else in a free place, else held
back; event 10 rises. -/
def Core.postNotice (k : Core) (m : Nat) : Core :=
  let k1 :=
    if k.admitQ.contains (admitWord m) then
      { k with admitQ := k.admitQ.map fun w => if w = admitWord m then noticeWord m else w }
    else if k.admitQ.length < 16 ∧ k.heldNotices = [] then k.postAdmit (noticeWord m)
    else { k with heldNotices := k.heldNotices ++ [noticeWord m] }
  k1.raiseEvent 10

/-- A read of CSR ADMIT takes the oldest entry, and a held notice takes the freed place (R117, R349). -/
def Core.admitRead (k : Core) : Word × Core :=
  match k.admitQ with
  | [] => (0, k)
  | w :: q =>
    let k1 := { k with admitQ := q }
    match k.heldNotices with
    | [] => (w, k1)
    | h :: hs => (w, ({ k1 with heldNotices := hs }).postAdmit h)

/-- A core whose queue R211 treats as full (R349). -/
def Core.admitFull (k : Core) : Bool := decide (16 ≤ k.admitQ.length) || !k.heldNotices.isEmpty

/- Micro-batches. -/

/-- The record of micro-batch `m`: of the open step for a training context, the latest for a decode context. -/
def Ctx.isMb (k : Ctx) (m : Nat) (r : Mb) : Bool := r.mb == m && (k.decode || k.step == some r.step)

def Ctx.mbFind (k : Ctx) (m : Nat) : Option Mb := (k.mbs.filter (k.isMb m)).getLast?

/-- Updates that record. -/
def Ctx.mbMod (k : Ctx) (m : Nat) (f : Mb → Mb) : Ctx :=
  { k with mbs := k.mbs.map fun r => if k.isMb m r && !r.done then f r else r }

/-- The overflow extents in use by a context (R214). -/
def Ctx.ovfUsed (k : Ctx) : Nat := k.mbs.foldl (fun n r => n + r.extents.length) 0

/-- Registers of a context's stash block (Table 8.3). -/
def stashOff (x : Fin 64) (r : Nat) : Nat := 0x68000 + 32 * x.val + r

/-- Taints the open step; the first taint counts (R392). -/
def State.taintStep (s : State) (x : Fin 64) (cause : Nat) (st : Byte) : State :=
  s.modCtx x fun k => { k with taint := some (k.taint.getD (cause, st)) }

/-- Every forward instance of `m` that will run has completed: every core has declared `m` and none is armed or
running (R205). A forward instance that fails or is cancelled aborts `m`, so that those of an `m` that is not aborted have all
completed, with OK or, also a success under R146, with PARTIAL_FENCED (assumption 100). -/
def State.forwardsDone (s : State) (x : Fin 64) (m : Nat) : Bool :=
  (s.ctxCores x).all (fun c => (s.core c).fwdDone.contains (BitVec.ofNat 16 m)) && (s.mbInsts x m (some 0)).isEmpty

/-- Releases the reservation and the extents of a finished micro-batch (R211, R212). -/
def Ctx.releaseMb (k : Ctx) (m : Nat) : Ctx :=
  match k.mbFind m with
  | none => k
  | some r =>
    let k1 := { k with freeMib := k.freeMib + r.resv }
    k1.mbMod m fun r => { r with resv := 0, resvBase := [], extents := [], done := true }

/-- Host memory writes of one run of bytes, unless the function's lease forbids them (R360). -/
def State.hostWrite (s : State) (x : Fin 64) (a : Nat) (bs : List Byte) : State :=
  if (s.ctx x).orphaned ∨ (s.fn (fnOf (s.ctx x).fn)).lease = .expired then s
  else { s with out := s.out ++ [.hostWrite (s.ctx x).fn a bs] }

/- Decode batches (R352 to R354). -/

/-- Bytes of one buffer (R352). -/
def DecCfg.bufBytes (d : DecCfg) : Nat := (64 + 128 * (d.inStride + d.outStride) + 4095) / 4096 * 4096

def DecCfg.bufBase (d : DecCfg) (b : Nat) : Nat := d.base + b * d.bufBytes

/-- Queues a micro-batch for admission (R211). -/
def newMb (mb step est : Nat) (desc : Option DescRef) (batch : Bool) : Mb :=
  { mb := mb, step := step, est := est, admitted := false, resv := 0, resvBase := [], extents := [],
    spilled := false, failed := none, aborted := none, desc := desc, batch := batch, done := false,
    wg := false }

/-- Closes a batch (R353): zero rows, header, queued for admission. -/
def State.closeBatch (s : State) (x : Fin 64) (mb : Nat) : State :=
  let k := s.ctx x
  match k.dec, k.batches.find? (fun b => b.mb == mb && !b.closed) with
  | some d, some b =>
    let rows := b.reqs.length
    let a := d.bufBase b.buf
    let zeros := List.replicate ((128 - rows) * d.inStride) (0 : Byte)
    let hdr := leBytes 2 rows ++ (leBytes 2 mb ++ List.replicate 60 0)
    let s1 := (s.putFull (a + 64 + rows * d.inStride) zeros).putFull a hdr
    s1.modCtx x fun k =>
      { k with
        batches := k.batches.map fun q => if q.mb = mb ∧ q.closed = false then { q with closed := true } else q
        mbs := k.mbs.filter (fun r => !(r.mb == mb && r.done)) ++ [newMb mb 0 (d.stashMib * 2 ^ 20) none true] }
  | _, _ => s

/-- Joins a request to the open batch, opening one in the next free buffer; a request that finds no free
buffer waits (R353). -/
def State.joinBatch (s : State) (x : Fin 64) (q : DecReq) : State :=
  let k := s.ctx x
  match k.dec with
  | none => s
  | some d =>
    let put (s : State) (b : Batch) : State :=
      let row := b.reqs.length
      let bytes := q.data ++ List.replicate (d.inStride - q.data.length) 0
      let a := d.bufBase b.buf + 64 + row * d.inStride
      let b1 := { b with reqs := b.reqs ++ [q] }
      let s1 := s.putFull a bytes
      let s2 := s1.modCtx x fun k => { k with batches := k.batches.map fun o => if o.mb = b.mb then b1 else o }
      if row + 1 = 128 then s2.closeBatch x b.mb else s2
    match k.batches.find? (fun b => !b.closed) with
    | some b => put s b
    | none =>
      match (List.range d.buffers).find? (fun n => !(k.batches.any fun b => b.buf == n)) with
      | none => s.modCtx x fun k => { k with decWaiting := k.decWaiting ++ [q] }
      | some n =>
        let b : Batch :=
          { buf := n, mb := k.nextBatch, closed := false, deadline := s.time + d.deadlineUs, reqs := [] }
        let next := (k.nextBatch + 1) % 0xFFFE
        put (s.modCtx x fun k => { k with batches := k.batches ++ [b], nextBatch := next }) b

/-- Requests that waited join the batch of the freed buffer, in fetch order (R353). -/
def State.joinWaiting (s : State) (x : Fin 64) : State :=
  let w := (s.ctx x).decWaiting
  w.foldl (fun s q => s.joinBatch x q) (s.modCtx x fun k => { k with decWaiting := [] })

/-- An orphaned decode context parks once no admitted batch of it is left (Table 13.4). -/
def Ctx.settleDecode (k : Ctx) : Ctx :=
  if k.decode ∧ k.orphaned ∧ k.state = .orphaned ∧ (k.mbs.all fun r => r.done || !r.admitted) = true then
    { k with state := .parkedBoundary }
  else k

/-- The end of a batch (R354): outputs copied and DECODEs completed with OK, or completed with the batch's
status; the declarations of the batch discarded (R205) and the buffer freed. -/
def State.endBatch (s : State) (x : Fin 64) (mb : Nat) (st : Byte) : State :=
  let k := s.ctx x
  match k.dec, k.batches.find? (fun b => b.mb == mb) with
  | some d, some b =>
    let a := d.bufBase b.buf + 64 + 128 * d.inStride
    let rows := b.reqs.length
    let one (s : State) (p : DecReq × Nat) : State :=
      let out := s.mem.readRun (a + p.2 * d.outStride) (p.1.desc.le 0x24 4)
      let s1 := if st = stOk then s.hostWrite x (p.1.desc.le 0x18 8) out else s
      s1.complete p.1.desc st rows (p.1.desc.le 8 4) 0
    let s1 := b.reqs.zipIdx.foldl one s
    let s2 := s1.onCtxCores x fun c => { c with fwdDone := c.fwdDone.filter fun w => w.toNat != mb }
    (s2.modCtx x fun k => { k with batches := k.batches.filter fun q => q.mb != mb }).joinWaiting x
  | _, _ => s

/-- Finishes micro-batch `m` with a status: stash released, counted, its MICROBATCH or batch completed. -/
def State.finishMb (s : State) (x : Fin 64) (m : Nat) (st : Byte) : State :=
  match (s.ctx x).mbFind m with
  | none => s
  | some r =>
    if r.done then s
    else
      let s1 := s.modCtx x fun k => k.releaseMb m
      let ok := st = stOk ∨ st = stPartial
      let count (k : Ctx) : Ctx :=
        if r.aborted.isSome then k
        else if ok then { k with accMbOk := k.accMbOk + 1 } else { k with accMbFailed := k.accMbFailed + 1 }
      let s2 := s1.modCtx x fun k => { count k with lastMbEnd := some s.time }
      if r.batch then (s2.endBatch x m st).modCtx x Ctx.settleDecode
      else match r.desc with
        | some d => s2.complete d st m 0 r.step
        | none => s2

/-- Completes micro-batch `m` when every instance of it has ended (Table 12.4): every core has declared it and
none is armed or running (DEDUCED, assumption 14). Aborted ones end at STASH_RELEASE. -/
def State.settleMb (s : State) (x : Fin 64) (m : Nat) : State :=
  match (s.ctx x).mbFind m with
  | none => s
  | some r =>
    if r.done || !r.admitted || r.aborted.isSome then s
    else if s.forwardsDone x m && (s.mbInsts x m none).isEmpty then s.finishMb x m (r.failed.getD stOk)
    else s

/-- CSR FWD_DONE (R205). -/
def State.fwdDeclared (s : State) (c : Fin 192) (m : BitVec 16) : State :=
  let s1 := s.modCore c fun k => if k.fwdDone.contains m then k else { k with fwdDone := k.fwdDone ++ [m] }
  match (s.core c).ctx with
  | some x => s1.settleMb x m.toNat
  | none => s1

/-- The status with which an instance armed for `m` of context `x` ends at once: of an aborted micro-batch (R212
step 3), or CANCELLED under orphan policy 1 and while parked mid-step (Table 13.4). -/
def State.armBlocked (s : State) (x : Nat) (m : BitVec 16) : Option Byte :=
  match ctxOf? x with
  | none => none
  | some x =>
    let k := s.ctx x
    if k.state = .parkedMid ∨ (k.state = .orphaned ∧ k.orphan = 1) then some stCancelled
    else match k.mbFind m.toNat with
      | some r => r.aborted
      | none => none

/-- Records the abort of micro-batch `m` (R212): counted, a notice to every core of the context (R349); one that
was never admitted finishes at once. -/
def State.recordAbort (s : State) (x : Fin 64) (m : Nat) (st : Byte) : State :=
  match (s.ctx x).mbFind m with
  | none => s
  | some r =>
    let s1 := s.modCtx x fun k => k.mbMod m fun r => { r with aborted := some st }
    let s2 := (s1.bumpField (stashOff x 0x14) 15 0 1).bumpField (stashOff x 0x14) 31 16 1
    let s3 := s2.onCtxCores x fun k => k.postNotice m
    if r.admitted then s3 else s3.finishMb x m st

/- Steps. -/

/-- Class, starved and skew time of a context's cores, in ns (Table 13.8). -/
def Ctx.addTime (k : Ctx) (cls ns : Nat) : Ctx :=
  match cls with
  | 0 => { k with accFwd := k.accFwd + ns }
  | 1 => { k with accAgrad := k.accAgrad + ns }
  | 2 => { k with accWgrad := k.accWgrad + ns }
  | _ => k

/-- Nanoseconds that `be` beat-equivalents take at a core's measured pace (R24). -/
def Core.beNs (k : Core) (be : Nat) : Nat := be * 1000 / k.paceM

/-- Skew-stall time of the step's timer (R40). -/
def State.skewTime (s : State) (c : Fin 192) (be : Nat) : State :=
  match (s.core c).ctx with
  | some x => s.modCtx x fun k => { k with accSkew := k.accSkew + (s.core c).beNs be }
  | none => s

/-- Counts a tile drawn on a random stream (R106); a record not listed is the derived position. -/
def State.tileDrawn (s : State) (x : Nat) (stream : Nat) : State :=
  match ctxOf? x with
  | none => s
  | some x =>
    let d : Nat → Nat × Nat := fun _ => ((s.ctx x).step.getD 0, 0)
    let p := SMap.get d (s.ctx x).rng stream
    s.modCtx x fun k => { k with rng := SMap.set d k.rng stream (p.1, (p.2 + 1) % 2 ^ 32) }

/- Lantern's queue (R399). -/

/-- Queues a sweep while fewer than 16 are queued. -/
def State.queueSweep (s : State) (w : Sweep) : State :=
  if s.lanternQ.length < 16 then { s with lanternQ := s.lanternQ ++ [w] } else s

/-- The sweep after an ABFT mismatch: groups 0, 1, 4 and 5 (R59, R399). -/
def State.abftQueued (s : State) (c : Fin 192) : State := s.queueSweep { toll := false, unit := c.val, groups := 0x33 }

/-- Body of STEWARD_FAULT (Table 13.1). -/
def stewardFaultBody (x : Fin 64) (c : Fin 192) (k : Core) : List Byte :=
  leBytes 1 x.val ++ (leBytes 1 c.val ++ (leBytes 2 k.stw.cause ++
    leBytes 2 (k.stw.pc.toNat + b2n k.stw.bank * 2 ^ 14)))

end Sys2Proof.Machine
end

