-- ==== Sys2Proof/Machine/Issue.lean ====
section
/-! DEFINITION. The command issue unit (R126 to R134, R145, R474): checks, scoreboard, predicates,
failures, tokens and the end of an instance. -/

namespace Sys2Proof.Machine

/- Recording failures. -/

/-- Sets a W1C status register unless VALID is set, when OVERFLOW (bits [lo + 3:lo]) counts to 15. `v` holds
the fields without VALID; `more` are the registers recorded with it. -/
def Core.recordW1C (k : Core) (off lo v : Nat) (more : List (Nat × Nat)) : Core :=
  if bitOf (k.rd off) 0 then
    { k with regs := Regs.wrBits coreReset k.regs off (lo + 3) lo (min 15 (bitsOf (k.rd off) (lo + 3) lo + 1)) }
  else more.foldl (fun k m => k.wr m.1 m.2) (k.wr off (v + 1))

/-- CORE_CMD_FAULT and CORE_CMD_FAULT_IDX (R148, Tables 6.14, 6.15). -/
def Core.recordCmdFault (k : Core) (slot : Fin 8) (st : Byte) (opcode : Nat) (atIssue : Bool) (idx mb : Nat) : Core :=
  k.recordW1C 0x20500 4 (slot.val * 2 + st.toNat * 2 ^ 8 + opcode % 256 * 2 ^ 16 + b2n atIssue * 2 ^ 24)
    [(0x20504, idx % 2 ^ 16 + mb * 2 ^ 16)]

/-- The first failing status of an instance is the one it reports (R131). -/
def Core.failInst (k : Core) (slot : Fin 8) (st : Byte) : Core :=
  k.modInst slot fun n => { n with failed := some (n.failed.getD st) }

/-- The micro-batch of a slot's instance. -/
def Core.mbOf (k : Core) (slot : Fin 8) : Nat :=
  match (k.slot slot).inst with
  | some n => n.mb.toNat
  | none => (k.slot slot).lastMb.toNat

/-- A command ends with a status: OK does nothing more, PARTIAL_FENCED is remembered (R146), any other is
recorded and ends the instance (R131, R148). -/
def Core.cmdEnded (k : Core) (slot : Fin 8) (seq opcode : Nat) (atIssue : Bool) (st : Byte) : Core :=
  if st = stOk then k
  else if st = stPartial then k.modInst slot fun n => { n with fencedSeen := true }
  else (k.recordCmdFault slot st opcode atIssue seq (k.mbOf slot)).failInst slot st

/- The scoreboard (R129). -/

/-- A registered range: first line, lines, written. -/
abbrev Range := Nat × Nat × Bool

def BEntry.range (e : BEntry) (w : Bool) : Range := (e.base, 2 * e.size, w)

/-- The billets of a command in the order the checks take them, with whether each is written (R145). -/
def cmdBillets (f : Frame) : TileArgs → List (Nat × Bool)
  | .opx a b .. => (a.toNat, false) :: (if f.bCaravan then [] else [(b.toNat, false)])
  | .red a b _ _ bs .. => (a.toNat, false) :: (if bs then [(b.toNat, false)] else [])
  | .ewl a b _ op _ d _ =>
    if op = 63 then [(a.toNat, false)]
    else ((a.toNat, false) :: (if ewlUnaryOp op.toNat then [] else [(b.toNat, false)])) ++ [(d.toNat, true)]
  | .accld sr _ z .. => if z then [] else [(sr.toNat, false)]
  | .drn d0 d1 _ _ lay .. => (d0.toNat, true) :: (if lay = 2 ∨ lay = 0 then [(d1.toNat, true)] else [])
  | .ldt d .. => [(d.toNat, true)]
  | .stt sr .. => [(sr.toNat, false)]
  | .acw sr .. => [(sr.toNat, false)]
  | .xmt sr .. => [(sr.toNat, false)]
  | .bqp b _ => [(b.toNat, false)]
  | _ => []
where
  /-- EWL operations with one operand (Table 6.10). -/
  ewlUnaryOp (op : Nat) : Bool := op == 0 || (decide (6 ≤ op) && decide (op ≤ 11))

/-- The frame's vector billets, which a DRN or EWL reads (R473). -/
def vectorRanges (f : Frame) : List Range :=
  (if 2 ≤ f.scaleMode then [(handleEntry f.scaleVec).range false] else []) ++
    (if 2 ≤ f.biasMode then [(handleEntry f.biasVec).range false] else [])

/-- The ranges a command registers, from the entries read for its billets; the last billet of a row-major DRN has an entry
when the DRN is to find a RED tile. -/
def cmdRanges (f : Frame) (a : TileArgs) (ents : List BEntry) : List Range :=
  let own := ((cmdBillets f a).zip ents).filterMap fun p =>
    if p.2.layout = 4 then none else some (p.2.range p.1.2)
  match a with
  | .drn .. => own ++ vectorRanges f
  | .ewl _ _ _ op .. => if op = 63 then own else own ++ vectorRanges f
  | _ => own

/-- Ranges of every command in progress on the core. -/
def Core.activeRanges (k : Core) : List Range :=
  let ofJob (j : Job) : List Range :=
    match k.frame j.slot with
    | some f => cmdRanges f j.cmd.args j.ents
    | none => []
  let ofP (j : PJob) : List Range :=
    match k.frame j.slot with
    | some f => cmdRanges f j.cmd.args [j.ent]
    | none => []
  k.arrayQ.flatMap ofJob ++ (k.shadowQ.flatMap ofJob ++ (k.queueQ.flatMap ofJob ++ k.porterQ.flatMap ofP))

/-- A range may be registered: a write overlaps nothing, a read overlaps no write (R129). -/
def rangeClear (act : List Range) (r : Range) : Bool :=
  act.all fun q => !(linesOverlap r.1 r.2.1 q.1 q.2.1 && (r.2.2 || q.2.2))

/-- The command's ranges are clear and the scoreboard has room for them. -/
def Core.scoreboardClear (k : Core) (rs : List Range) : Bool :=
  rs.all (rangeClear k.activeRanges) && decide (k.activeRanges.length + rs.length ≤ 32)

/-- Makes LDTs urgent that `p` picks; each newly urgent one counts in CORE_PORTER_LATE (R188). -/
def Core.makeLate (k : Core) (p : PJob → Bool) : Core :=
  let late (j : PJob) : Bool := j.cmd.args.opcode == 0x10 && !j.urgent && p j
  let n := (k.porterQ.filter late).length
  { k with porterQ := k.porterQ.map fun j => if late j then { j with urgent := true } else j }.bump 0x20628 n

/-- A command stalls on the destination lines of LDTs (R188); an insertion into a caravan has none. -/
def Core.lateOn (k : Core) (rs : List Range) : Core :=
  k.makeLate fun j => j.ent.layout != 4 && rs.any fun r => linesOverlap j.ent.base (2 * j.ent.size) r.1 r.2.1

/- Issue checks (Table 6.3). -/

/-- One billet of a command with the rules its use adds (format, layout, extent). -/
structure BUse where
  num : Nat
  dest : Bool
  rule : BEntry → Bool

/-- The filler region as an entry while the owning context names a filler (R197). -/
def State.fillRegion (s : State) (c : Fin 192) : Option BEntry :=
  match (s.core c).ctx with
  | some x => if (s.ctx x).filler.isSome then some (handleEntry ((s.core c).rd 0x20600)) else none
  | none => none

/-- Check 4 over a command's billets: RESERVED_NONZERO unless each passes (R176). -/
def State.usesOk (s : State) (c : Fin 192) (f : Frame) (us : List BUse) : Bool :=
  let k := s.core c
  us.all fun u =>
    let e := k.entry u.num
    match e.check f.context u.dest (s.fillRegion c) (!k.owned f) with
    | .fail => false
    | .poisoned => true
    | .ok => u.rule e

/-- Check 5: the status recorded with the first poisoned billet that is read (R147). -/
def Core.readPoison (k : Core) (us : List BUse) : Option Byte :=
  ((us.filter fun u => !u.dest && (k.entry u.num).poison != 0).head?).map fun u =>
    BitVec.ofNat 8 (k.entry u.num).poison

/-- The outcome of bringing a command to issue once checks 1 to 3 have passed. -/
inductive Verdict where
  | fail (st : Byte)
  /-- It passes its checks and fails as it begins to act, with what that changes. -/
  | failIn (s : State) (st : Byte)
  /-- It still waits: its engine or place is not free. -/
  | wait
  /-- It stalls on its ranges (R129). -/
  | stall (rs : List Range)
  | run (s : State)

/-- Checks 4 and 5 of a command's billets, then its ranges (R129, R145); `go` runs with the entries. -/
def State.withBillets (s : State) (c : Fin 192) (f : Frame) (a : TileArgs) (us : List BUse) (extra : Bool)
    (go : List BEntry → Verdict) : Verdict :=
  let k := s.core c
  if !s.usesOk c f us || !extra then .fail stReserved
  else match k.readPoison us with
    | some st => .fail st
    | none =>
      let ents := us.map fun u => k.entry u.num
      if !k.scoreboardClear (cmdRanges f a ents) then .stall (cmdRanges f a ents) else go ents

/-- The billet of a command that moves bytes as they stand: none of layout 4. -/
def plainUses (b : BitVec 8) : List BUse := [⟨b.toNat, false, fun e => e.layout != 4⟩]

/-- The predicate of a command, sampled for its slot (R134). -/
def Core.predTrue (k : Core) (i : Fin 8) (cmd : TileCmd) : Bool :=
  bitOf (k.predBits i) cmd.pred.toNat != cmd.pinv

/-- The words of command `n` of an instance (R126, R127). -/
def Core.cmdWords (k : Core) (n : Inst) (i : Nat) : Nat × Nat × Nat × Nat :=
  let w (j : Nat) := k.dmem.readLE (16 * (n.start + i) + 4 * j) 4
  (w 0, w 1, w 2, w 3)

/-- The opcode of a command, 0x121 for PSET MODE 1 and 0x103 for TLOAD, so that each names one row. -/
def rowCode (w0 w1 : Nat) : Nat :=
  let op := w0 % 256
  if op = 0x21 ∧ bitOf w0 16 then 0x121 else if op = 0x03 ∧ bitsOf w1 29 24 = 63 then 0x103 else op

/-- Goes on past the command (issued or skipped). -/
def Core.advance (k : Core) (i : Fin 8) : Core := k.modInst i fun n => { n with next := n.next + 1 }

/-- An OPX with caravan b-source that ends with `owed` of its tiles not consumed puts the port into hold (R195). -/
def Core.carHold (k : Core) (owed : Nat) : Core :=
  if k.car.state = .bound ∧ owed ≠ 0 then { k with car := { k.car with state := .hold, owed := owed } } else k

/-- Caravan tiles of an OPX of length K (R151). -/
def caravanTiles (n : Nat) : Nat := ceilDiv n 128

/-- An OPX with caravan b-source that fails at issue leaves all its tiles (R195, which names every failure, before R145;
assumption 98). The words of the command give its opcode and K. -/
def Core.opxLost (k : Core) (f : Frame) (w0 w1 : Nat) : Core :=
  if w0 % 256 = 1 ∧ f.bCaravan = true then k.carHold (caravanTiles (w1 % 2 ^ 24)) else k

/-- One tile-command row: the running instance of slot `i` brings its next command to issue (R127, R128,
R145). `code` is the row's `rowCode`. Check 1 decides an undefined opcode whatever row names it; another
row's opcode is not this event. `accept` says that the command's engine accepts it before any check (R161).
`ok1` and `ok2` are the row's own rules of checks 1 and 2. `stall` beat-equivalents of scoreboard stall are
counted (R129). -/
def issueStep (c : Fin 192) (i : Fin 8) (stall code : Nat) (accept : Core → Bool) (ok1 : Frame → TileArgs → Bool)
    (ok2 : Frame → TileCmd → Core → Bool) (body : Frame → Inst → TileCmd → State → Verdict) (s : State) : Result :=
  let k := s.core c
  match (k.slot i).inst, k.frame i with
  | some n, some f =>
    if !n.running || n.held.isSome || n.failed.isSome || decide (n.len ≤ n.next) then .next s
    else
      let (w0, w1, w2, w3) := k.cmdWords n n.next
      let fails (k : Core) (st : Byte) : Core := (k.opxLost f w0 w1).cmdEnded i n.next w0 true st
      let failAt (st : Byte) : Result := .next (s.modCore c fun k => fails k st)
      if !opcodeDefined w0 then failAt stReserved
      else if rowCode w0 w1 ≠ code ∨ !accept k then .next s
      else match decodeTile w0 w1 w2 w3 with
        | none => failAt stReserved
        | some cmd =>
          if !ok1 f cmd.args || !ok2 f cmd k then failAt stReserved
          else if !k.predTrue i cmd then .next (s.modCore c fun k => (k.advance i).bump 0x2043C 1)
          else
            let s1 := s.modCore c fun k => k.bump 0x20444 stall
            match body f n cmd s1 with
            | .fail st => .next (s1.modCore c fun k => fails k st)
            | .failIn t st => .next (t.modCore c fun k => k.cmdEnded i n.next w0 false st)
            | .wait => .next s
            | .stall rs => .next (s.modCore c fun k => k.lateOn rs)
            | .run t => .next (t.modCore c fun k => k.advance i)
  | _, _ => .next s

/-- A new job of an instance. -/
def newJob (i : Fin 8) (n : Inst) (cmd : TileCmd) (ents : List BEntry) : Job :=
  { slot := i, seq := n.next, cmd := cmd, ents := ents, started := false, mask := 0, tol := 0, tile := 0,
    waiting := false, poison := 0 }

/- Endpoints (R183, R184, R397). -/

/-- Endpoint `ep` as core and number, through the alias of its core (R397). -/
def State.endpoint (s : State) (ep : Nat) : Option (Fin 192 × Fin 16) :=
  match coreOf? (ep / 16) with
  | none => none
  | some f => some ((s.core f).aliasTo.getD f, ⟨ep % 16, Nat.mod_lt _ (by decide)⟩)

/-- The endpoints emptied; their arbiters keep their ranks, which only a module reset clears (R30). -/
def Core.emptyEnds (k : Core) : Vector Endpoint 16 := k.ends.map fun e => { grants := e.grants }

def Core.bqCfg (k : Core) (e : Fin 16) : Nat := k.rd (0x20640 + 4 * e.val)

def Core.end_ (k : Core) (e : Fin 16) : Endpoint := k.ends[e]

def Core.setEnd (k : Core) (e : Fin 16) (v : Endpoint) : Core := { k with ends := k.ends.set e v }

/-- The receive slots of an endpoint as one extent (R184). -/
def Core.slotsEntry (k : Core) (e : Fin 16) : BEntry :=
  { num := 256, base := bitsOf (k.bqCfg e) 16 0, size := 16 * bitsOf (k.bqCfg e) 27 17, w1 := 0, w2 := 0, w3 := 0 }

/-- Whether an endpoint is open to an instance of core `c` (checks 1 and 4, R184): RESERVED_NONZERO when out of
range, disabled, of another context, of the filler when the instance is not (or the reverse), or with slots of the filler
outside the filler region of their core (R197); CORE_FENCED on a fused-off core. -/
def State.endpointStatus (s : State) (c : Fin 192) (filler : Bool) (ep : Nat) : Byte :=
  match s.endpoint ep with
  | none => stReserved
  | some (d, e) =>
    let k := s.core d
    let cfg := k.bqCfg e
    if k.role = 2 then stFenced
    else if !bitOf cfg 28 || bitsOf cfg 27 17 == 0 then stReserved
    else if k.ctx ≠ (s.core c).ctx ∨ k.ctx = none then stReserved
    else if bitOf cfg 29 != filler || (filler && !regionOk (k.slotsEntry e) (s.fillRegion d) true) then stReserved
    else stOk

/-- Puts a poison token into an endpoint's queue (R183, R185). -/
def State.putToken (s : State) (ep : Nat) (st : Byte) : State :=
  match s.endpoint ep with
  | none => s
  | some (d, e) => s.modCore d fun k =>
      k.setEnd e { k.end_ e with queue := (k.end_ e).queue ++ [.token st] }

/-- The poison flush of an instance that ends early (R183): over the commands not issued, each BQP whose
predicate is true now and whose ENDPOINT would pass sends a token. -/
def State.poisonFlush (s : State) (c : Fin 192) (i : Fin 8) (n : Inst) (f : Frame) (st : Byte) : State :=
  ((List.range n.len).drop n.next).foldl (fun s j =>
    let k := s.core c
    let (w0, w1, w2, w3) := k.cmdWords n j
    match decodeTile w0 w1 w2 w3 with
    | some ⟨p, v, .bqp b ep⟩ =>
      if k.predTrue i ⟨p, v, .bqp b ep⟩ && s.endpointStatus c (!k.owned f) ep.toNat == stOk then
        s.putToken ep.toNat st
      else s
    | _ => s) s

/- The end of an instance (R131, R132, R186). -/

/-- Commands of slot `i` in progress. -/
def Core.outstanding (k : Core) (i : Fin 8) : Bool :=
  k.arrayQ.any (·.slot == i) || k.shadowQ.any (·.slot == i) || k.porterQ.any (·.slot == i) ||
    k.queueQ.any (·.slot == i)

/-- The status an instance reports (R131, R146). -/
def Inst.status (n : Inst) : Byte :=
  match n.cancel, n.failed with
  | some st, _ => st
  | none, some st => st
  | none, none => if n.fencedSeen then stPartial else stOk

/-- Empties the entries that the instance's BQTs filled and returns the slots (R186). -/
def Core.returnSlots (k : Core) (n : Inst) : Core :=
  n.taken.foldl (fun k t =>
    let k1 := k.writeEntry t.1 0 0 0 0
    if t.2.2 < 16 then
      let e : Fin 16 := ⟨t.2.1 % 16, Nat.mod_lt _ (by decide)⟩
      k1.setEnd e { k1.end_ e with busy := (k1.end_ e).busy &&& ~~~(1#16 <<< t.2.2) }
    else k1) k

/-- The accumulator sets after an array instance (R132). -/
def Core.clearSets (k : Core) (i : Fin 8) (f : Frame) : Core :=
  if f.accUse = 1 then { k with live := .cleared, shadow := .cleared, liveOwner := none }
  else if f.accUse = 2 then
    let k1 := k.modSlot i fun v => { v with resident := true }
    { k1 with shadow := .cleared, liveOwner := some i }
  else k

/-- Ends the instance of slot `i` with status `st`: poison flush when its list is not complete, sets cleared
when it ran, slots returned, status and event reported, its class time taken. -/
def State.endCore (s : State) (c : Fin 192) (i : Fin 8) (st : Byte) : State :=
  match ((s.core c).slot i).inst, (s.core c).frame i with
  | some n, some f =>
    let s1 := if n.next < n.len then s.poisonFlush c i n f st else s
    let s2 := s1.modCore c fun k =>
      let k1 := if n.running then k.clearSets i f else k
      let k2 := k1.returnSlots n
      let k3 := k2.modSlot i fun v => { v with inst := none, lastStatus := st, lastMb := n.mb }
      (if n.running ∧ f.accUse ≠ 0 then { k3 with draw := 0 } else k3).raiseEvent i.val
    match ctxOf? f.context with
    | some x =>
      if n.running ∧ f.accUse ≠ 0 then s2.modCtx x fun k => k.addTime f.cls ((s.time - n.startedAt) * 1000) else s2
    | none => s2
  | _, _ => s

/-- Cancels the instance of slot `i` (R131, R189): its generation advances, requests issued before become
stale, those of `unstarted` that insert no caravan tile are dropped and complete with CANCELLED, CANCEL is set; an armed instance
not yet issued ends at once. -/
def State.cancelInst (s : State) (c : Fin 192) (i : Fin 8) (st : Byte) (unstarted : List Nat) : State :=
  match ((s.core c).slot i).inst with
  | none => s
  | some n =>
    let s1 := s.modCore c fun k =>
      let stale (p : PJob × Nat) : Option PJob :=
        if p.1.slot ≠ i then some p.1
        else if unstarted.contains p.2 ∧ p.1.ent.layout ≠ 4 then none
        else some { p.1 with stale := true }
      let q := k.porterQ.zipIdx.filterMap stale
      let gone := k.porterQ.zipIdx.filter fun p => (stale p).isNone
      let mark (n : Inst) : Inst := { n with cancel := some (n.cancel.getD st) }
      let k1 := gone.foldl (fun k p => k.recordCmdFault i stCancelled p.1.cmd.args.opcode false p.1.seq p.1.mb.toNat) k
      ({ k1 with porterQ := q }).modSlot i fun v => { v with gen := v.gen + 1, inst := v.inst.map mark }
    if n.running then s1 else s1.endCore c i (n.cancel.getD st)

end Sys2Proof.Machine
end

