-- ==== Sys2Proof/Machine/Instances.lean ====
section
/-! DEFINITION. What follows the end of an instance: the failure, abort or completion of its micro-batch
(R205, R212, R350, R394), the taint of the step (R392), parking mid-step and the Steward's fault (R398). -/

namespace Sys2Proof.Machine

/-- Aborts micro-batch `m` (R212): its instances are cancelled with the status, notices are posted. -/
def State.abortMb (s : State) (x : Fin 64) (m : Nat) (st : Byte) : State :=
  match (s.ctx x).mbFind m with
  | none => s
  | some r =>
    if r.done || r.aborted.isSome then s
    else (s.mbInsts x m none).foldl (fun s p => s.cancelInst p.1 p.2 st []) (s.recordAbort x m st)

/-- Parks a context mid-step: it runs no instance, so every instance is cancelled with `st` (R361,
Table 13.4). -/
def State.parkMid (s : State) (x : Fin 64) (st : Byte) : State :=
  let k := s.ctx x
  if k.state = .opened ∨ k.state = .orphaned then
    let s1 := s.modCtx x fun k => { k with state := .parkedMid }
    (s1.ctxInsts x).foldl (fun s p => s.cancelInst p.1 p.2 st []) s1
  else s

/-- A core whose Steward has faulted is fenced once no instance is left on it, and its context parks
mid-step (R398). -/
def State.settleFault (s : State) (c : Fin 192) : State :=
  let k := s.core c
  if k.stw.state = .faulted ∧ k.role = 0 ∧ (allSlots.all fun i => (k.slot i).inst.isNone) = true then
    let s1 := s.modCore c fun k => { k with role := 3 }
    match k.ctx with
    | some x => s1.parkMid x stCancelled
    | none => s1
  else s

/-- The Innkeeper receives the Steward's fault: STEWARD_FAULT to the owner (R364), then R398. -/
def State.stwFaulted (s : State) (c : Fin 192) : State :=
  let k := s.core c
  let s1 := match k.ctx with
    | some x => s.tellOwner x 0x81 (stewardFaultBody x c k)
    | none => s
  s1.settleFault c

/-- The micro-batch of an instance that ended with status `st` and was not cancelled. A failing forward
instance, or any failing one while a forward instance has not completed, aborts it (R205, R394); a later
failure marks it failed and taints the step (R350, R392). A failing closing instance taints (R392). -/
def State.failMb (s : State) (x : Fin 64) (f : Frame) (m : Nat) (st : Byte) : State :=
  if m = 0xFFFF then (if (s.ctx x).decode || !(s.ctx x).inStep then s else s.taintStep x 2 st)
  else if f.cls = 0 ∨ s.forwardsDone x m = false then s.abortMb x m st
  else
    let s1 := s.modCtx x fun k => k.mbMod m fun r => { r with failed := some (r.failed.getD st) }
    if (s.ctx x).decode then s1 else s1.taintStep x 1 st

/-- A cancellation of an instance of micro-batch `m` is a failure of it (R146): its context runs, and it is not the abort of
`m` itself that cancelled it (assumption 100). -/
def State.cancelFails (s : State) (x : Fin 64) (m : Nat) : Bool :=
  let k := s.ctx x
  (k.state == .opened || k.state == .orphaned) && (m == 0xFFFF || match k.mbFind m with
    | some r => r.aborted.isNone && !r.done
    | none => false)

/-- What follows the end with status `st` of instance `n` of frame `f` for its micro-batch (R205, R350). -/
def State.instEnded (s : State) (n : Inst) (f : Frame) (st : Byte) : State :=
  match ctxOf? f.context with
  | none => s
  | some x =>
    let bad := st ≠ stOk ∧ st ≠ stPartial ∧ (n.cancel = none ∨ s.cancelFails x n.mb.toNat = true)
    (if bad then s.failMb x f n.mb.toNat st else s).settleMb x n.mb.toNat

/-- Ends the instance of slot `i` (R131) and settles its micro-batch and its core. -/
def State.endInst (s : State) (c : Fin 192) (i : Fin 8) (st : Byte) : State :=
  match ((s.core c).slot i).inst, (s.core c).frame i with
  | some n, some f =>
    ((s.endCore c i st).instEnded n f st).settleFault c
  | _, _ => s

/-- Cancels the instance of slot `i` for its own sake: one that was only armed has then ended. -/
def State.cancelOne (s : State) (c : Fin 192) (i : Fin 8) (st : Byte) (unstarted : List Nat) : State :=
  let s1 := s.cancelInst c i st unstarted
  match ((s.core c).slot i).inst, (s.core c).frame i with
  | some n, some f => (if n.running then s1 else s1.instEnded { n with cancel := some (n.cancel.getD st) } f (n.cancel.getD st)).settleFault c
  | _, _ => s1

end Sys2Proof.Machine
end

