-- ==== Sys2Proof/Machine/Packet.lean ====
section
/-! DEFINITION. Fabric packets (R257 to R260, R272): header fields, checks, and the packets this module
builds. -/

namespace Sys2Proof.Machine

/- Checks. -/

/-- One bit of a reflected 32-bit CRC. -/
def crc32Bit (poly x : Word) : Word := if x.getLsbD 0 then (x >>> 1) ^^^ poly else x >>> 1

def crc32Byte (poly x : Word) (b : Byte) : Word :=
  let y := x ^^^ b.setWidth 32
  crc32Bit poly (crc32Bit poly (crc32Bit poly (crc32Bit poly (crc32Bit poly (crc32Bit poly
    (crc32Bit poly (crc32Bit poly y)))))))

/-- A reflected CRC with initial value 0xFFFF_FFFF and final inversion; `poly` is the reflected polynomial. -/
def crc32With (poly : Word) (bs : List Byte) : Word := ~~~(bs.foldl (crc32Byte poly) 0xFFFFFFFF#32)

/-- The CRC-32 of R257 (polynomial 0x04C1_1DB7). -/
def crc32 (bs : List Byte) : Word := crc32With 0xEDB88320#32 bs

/-- The CRC-32C of R260 (polynomial 0x1EDC_6F41). -/
def crc32c (bs : List Byte) : Word := crc32With 0x82F63B78#32 bs

/- Fields of a packet (Table 10.2). -/

def pktField (p : List Byte) (off n : Nat) : Nat := leNat ((p.drop off).take n)

/-- Replaces `n` bytes at `off`. -/
def setField (p : List Byte) (off n v : Nat) : List Byte := p.take off ++ (leBytes n v ++ p.drop (off + n))

def pktVersion (p : List Byte) : Nat := pktField p 0 1
def pktType (p : List Byte) : Nat := bitsOf (pktField p 1 1) 3 0
def pktMcast (p : List Byte) : Bool := bitOf (pktField p 1 1) 4
def pktEpoch (p : List Byte) : Nat := pktField p 2 1
def pktHops (p : List Byte) : Nat := bitsOf (pktField p 4 1) 5 0
def pktDest (p : List Byte) : Nat := pktField p 8 3
def pktSrc (p : List Byte) : Nat := pktField p 0x0C 3
def pktSeq (p : List Byte) : Nat := pktField p 0x10 4
def pktStream (p : List Byte) : Nat := bitsOf (pktField p 0x14 2) 11 0
def pktWindow (p : List Byte) : Nat := bitsOf (pktField p 0x16 2) 11 0
def pktGen (p : List Byte) : Nat := bitsOf (pktField p 0x18 4) 19 0
def pktOffset (p : List Byte) : Nat := pktField p 0x1C 4
def pktLength (p : List Byte) : Nat := bitsOf (pktField p 0x20 2) 12 0
def pktRcount (p : List Byte) : Nat := bitsOf (pktField p 0x22 2) 11 0
def pktCstatus (p : List Byte) : Nat := pktField p 0x28 1
def pktCcount (p : List Byte) : Nat := bitsOf (pktField p 0x2A 2) 8 0
def pktMlo (p : List Byte) : Nat := pktField p 0x2C 1
def pktMhi (p : List Byte) : Nat := pktField p 0x2D 1
def pktPcrc (p : List Byte) : Nat := pktField p 0x30 4
def pktPayload (p : List Byte) : List Byte := p.drop 64
/-- WRITE and READ_REQ are requests, the others answers (R264). -/
def pktRequest (p : List Byte) : Bool := pktType p == 0 || pktType p == 1
/-- Bits [23:16] of DEST and SRC are zero (R258). -/
def pktIdsOk (p : List Byte) : Bool := pktField p 0x0A 1 == 0 && pktField p 0x0E 1 == 0

/-- PCRC of a packet (R260). -/
def pcrcOf (p : List Byte) : Nat := (crc32c ((setField p 3 2 0).take 0x30 ++ p.drop 64)).toNat

def pcrcOk (p : List Byte) : Bool := pktPcrc p == pcrcOf p

/-- Payload bytes that a header announces (Table 10.3): none for a READ_REQ, a COMPLETION or a READ_RESP that is not OK. Of a
reserved type LENGTH is taken (assumption 110). -/
def pktPayloadLen (p : List Byte) : Nat :=
  if pktType p = 1 ∨ pktType p = 3 ∨ (pktType p = 2 ∧ pktCstatus p ≠ 0) then 0 else pktLength p

/-- Flits that a packet with this header fills (R257). -/
def pktFlits (p : List Byte) : Nat := ceilDiv (64 + pktPayloadLen p) 256

/-- Flit `i` of a packet: its 256 B, zeros beyond the packet (R257). -/
def flitData (p : List Byte) (i : Nat) : List Byte :=
  let d := (p.drop (256 * i)).take 256
  d ++ List.replicate (256 - d.length) 0

/-- The virtual channel of a packet on a link: by the parity of its epoch, its class and its kind (R264). The numbering is the
model's (assumption 110). -/
def vcOf (p : List Byte) (vcc : Nat) : Nat := pktEpoch p % 2 * 6 + vcc % 3 * 2 + b2n (!pktRequest p)

/-- The control bytes of a flit (R257; their layout is the model's, assumption 110): sequence number, acknowledge field, whether
a replay of what follows the acknowledged flit is asked for, the virtual channel of the data (15 for none), and credits given
back: channel and number. -/
def linkCtl (seq ack : Nat) (nak : Bool) (vc creditVc credits : Nat) : Word :=
  BitVec.ofNat 32 (seq % 1024 + ack % 1024 * 2 ^ 10 + b2n nak * 2 ^ 20 + vc % 16 * 2 ^ 21 + creditVc % 16 * 2 ^ 25 + credits % 8 * 2 ^ 29)

def ctlSeq (c : Word) : Nat := bitsOf c.toNat 9 0
def ctlAck (c : Word) : Nat := bitsOf c.toNat 19 10
def ctlNak (c : Word) : Bool := bitOf c.toNat 20
def ctlVc (c : Word) : Nat := bitsOf c.toNat 24 21
def ctlCreditVc (c : Word) : Nat := bitsOf c.toNat 28 25
def ctlCredits (c : Word) : Nat := bitsOf c.toNat 31 29

/-- The CRC-32 of a flit: over its data and its control bytes (R257). -/
def flitCrc (data : List Byte) (ctl : Word) : Word := crc32 (data ++ leBytes 4 ctl.toNat)

/-- The fields of a packet that its builder knows; the rest is filled at injection. -/
structure Hdr where
  type : Nat
  mcast : Bool := false
  dest : Nat
  seq : Nat
  stream : Nat
  window : Nat := 0
  gen : Nat := 0
  offset : Nat := 0
  length : Nat := 0
  rcount : Nat := 0
  member : Nat := 0
  cstatus : Nat := 0
  ccount : Nat := 0
  mlo : Nat := 0
  mhi : Nat := 0

/-- The packet of a header and payload. -/
def Hdr.packet (h : Hdr) (payload : List Byte) : List Byte :=
  let a := leBytes 1 1 ++ (leBytes 1 (h.type + b2n h.mcast * 16) ++ (leBytes 6 0 ++ (leBytes 4 (h.dest % 2 ^ 24) ++ leBytes 4 0)))
  let b := leBytes 4 h.seq ++ (leBytes 2 h.stream ++ (leBytes 2 h.window ++ (leBytes 4 h.gen ++ leBytes 4 h.offset)))
  let c := leBytes 2 h.length ++ (leBytes 2 h.rcount ++ (leBytes 2 0 ++ (leBytes 2 h.member ++ leBytes 2 h.cstatus)))
  let d := leBytes 2 h.ccount ++ (leBytes 1 h.mlo ++ (leBytes 1 h.mhi ++ leBytes 18 0))
  a ++ (b ++ (c ++ (d ++ payload)))

/- Sending. -/

/-- Puts a packet among those that wait for injection. -/
def State.send (s : State) (p : List Byte) (w : Option Await) : State := { s with txQ := s.txQ ++ [⟨p, w⟩] }

/-- The next sequence number of a stream (R272). -/
def State.nextSeq (s : State) (stream : Nat) : Nat × State :=
  let n := SMap.get (fun _ => 0) s.streamSeq stream
  (n.toNat, { s with streamSeq := SMap.set (fun _ => 0) s.streamSeq stream (n + 1) })

/-- The endpoint ID that packets leave with: the alias while it is valid (R406). -/
def State.aliasId (s : State) : Option Nat :=
  if bitOf (s.rd 0x90054) 16 then some (bitsOf (s.rd 0x90054) 15 0) else none

def State.selfId (s : State) : Nat := bitsOf (s.rd 0x50000) 15 0

def State.sourceId (s : State) : Nat := s.aliasId.getD s.selfId

/-- A COMPLETION of a request (R273). -/
def State.sendCompletion (s : State) (p : List Byte) (cstatus ccount mlo mhi member : Nat) : State :=
  let h : Hdr := { type := 3, dest := pktSrc p, seq := pktSeq p, stream := pktStream p, cstatus := cstatus, ccount := ccount,
                   mlo := mlo, mhi := mhi, member := member }
  s.send (h.packet []) none

/-- A fenced-discard completion for members `lo` to `hi` (R273, R283, R285). -/
def State.sendFenced (s : State) (p : List Byte) (lo hi : Nat) : State :=
  (s.bump 0x5020C 1).sendCompletion p 1 (hi + 1 - lo) lo hi lo

end Sys2Proof.Machine
end

