-- ==== Sys2Proof/Machine/Flags.lean ====
section
/-! DEFINITION. IEEE 754-2019 arithmetic of the Steward and its sticky exception flags (R116, CSR
FFLAGS of Table 5.4). -/

namespace Sys2Proof.Machine

/-- The exceptions of one operation: [0] inexact, [1] underflow, [2] overflow, [3] divide by zero,
[4] invalid (Table 5.4). -/
structure FFlags where
  inexact : Bool := false
  underflow : Bool := false
  overflow : Bool := false
  divZero : Bool := false
  invalid : Bool := false
  deriving DecidableEq, Repr

/-- FFLAGS bits [4:0]. -/
def FFlags.bits (f : FFlags) : BitVec 5 :=
  BitVec.ofNat 5 (b2n f.inexact + 2 * b2n f.underflow + 4 * b2n f.overflow + 8 * b2n f.divZero +
    16 * b2n f.invalid)

def FFlags.withInvalid (f : FFlags) (b : Bool) : FFlags := { f with invalid := f.invalid || b }

def FFlags.withDivZero (f : FFlags) (b : Bool) : FFlags := { f with divZero := f.divZero || b }

/-- Tininess (IEEE 754-2019 leaves detection before or after rounding to the implementation: a free
choice, assumption 9). -/
def isTiny (f : FFmt) (m : Nat) (e : Int) : Bool :=
  if m = 0 then false
  else if Config.ieeeChoice 0 then
    let q := topExp m e - f.fbits
    magLt (roundQuanta .rne m e q) q 1 (1 - f.bias)
  else decide (topExp m e < 1 - f.bias)

/-- Rounds an exact value to the format by round-to-nearest-even, with its flags. -/
def roundFlags (f : FFmt) (v : Val) : Val × FFlags :=
  match v with
  | .fin _ m e =>
    let (r, o) := f.roundNE v
    let ix := o || !r.eqv v
    (r, { inexact := ix, overflow := o, underflow := ix && isTiny f m e })
  | v => (v, {})

/-- Whether an encoding is a signalling NaN of an IEEE format. -/
def isSnan (f : FFmt) (b : Nat) : Bool := (f.decode b).isNan && !bitOf b (f.fbits - 1)

/-- ⌊√n⌋ by bits from `2^k` down. -/
def isqrtLoop (n : Nat) : Nat → Nat → Nat
  | 0, r => r
  | k + 1, r => if (r + 2 ^ k) * (r + 2 ^ k) ≤ n then isqrtLoop n k (r + 2 ^ k) else isqrtLoop n k r

def isqrt (n : Nat) : Nat := isqrtLoop n (Nat.log2 n / 2 + 1) 0

/-- The quotient of non-zero magnitudes to 70 bits, its last bit odd when the remainder is not zero:
rounds as the exact quotient does. -/
def quotSticky (m1 : Nat) (e1 : Int) (m2 : Nat) (e2 : Int) : Nat × Int :=
  let sh := 70 + Nat.log2 m2 - Nat.log2 m1
  let n := m1 * 2 ^ sh
  (2 * (n / m2) + (if n % m2 = 0 then 0 else 1), e1 - e2 - sh - 1)

/-- The root of a magnitude, sticky as `quotSticky`. -/
def sqrtSticky (m : Nat) (e : Int) : Nat × Int :=
  let m1 := if e % 2 = 0 then m else 2 * m
  let e1 := if e % 2 = 0 then e else e - 1
  let n := m1 * 2 ^ 140
  let s := isqrt n
  (2 * s + (if s * s = n then 0 else 1), e1 / 2 - 70 - 1)

/-- x ÷ y before rounding, and the divide-by-zero exception. -/
def Val.divExact : Val → Val → Val × Bool
  | .nan, _ => (.nan, false)
  | _, .nan => (.nan, false)
  | .inf _, .inf _ => (.nan, false)
  | .inf a, .fin n _ _ => (.inf (a != n), false)
  | .fin n _ _, .inf b => (.fin (n != b) 0 0, false)
  | .fin n1 m1 e1, .fin n2 m2 e2 =>
    if m2 = 0 then (if m1 = 0 then (.nan, false) else (.inf (n1 != n2), true))
    else if m1 = 0 then (.fin (n1 != n2) 0 0, false)
    else
      let (m, e) := quotSticky m1 e1 m2 e2
      (.fin (n1 != n2) m e, false)

/-- √x before rounding. -/
def Val.sqrtExact : Val → Val
  | .nan => .nan
  | .inf n => if n then .nan else .inf false
  | .fin n m e =>
    if m = 0 then .fin n 0 0
    else if n then .nan
    else
      let (r, re) := sqrtSticky m e
      .fin false r re

/-- An arithmetic result of IEEE 754-2019: rounded, with invalid raised by a signalling NaN operand or
by a NaN that no operand brought. -/
def finishFp (f : FFmt) (snan nanIn : Bool) (r : Val) : Nat × FFlags :=
  let (v, fl) := roundFlags f r
  (f.encode v, fl.withInvalid (snan || (r.isNan && !nanIn)))

/-- Binary operations. -/
def fpAdd (f : FFmt) (a b : Nat) : Nat × FFlags :=
  let x := f.decode a; let y := f.decode b
  finishFp f (isSnan f a || isSnan f b) (x.isNan || y.isNan) (x.add y)

def fpSub (f : FFmt) (a b : Nat) : Nat × FFlags :=
  let x := f.decode a; let y := f.decode b
  finishFp f (isSnan f a || isSnan f b) (x.isNan || y.isNan) (x.add y.neg)

def fpMul (f : FFmt) (a b : Nat) : Nat × FFlags :=
  let x := f.decode a; let y := f.decode b
  finishFp f (isSnan f a || isSnan f b) (x.isNan || y.isNan) (x.mul y)

def fpDiv (f : FFmt) (a b : Nat) : Nat × FFlags :=
  let x := f.decode a; let y := f.decode b
  let (r, dz) := x.divExact y
  let (w, fl) := finishFp f (isSnan f a || isSnan f b) (x.isNan || y.isNan) r
  (w, fl.withDivZero dz)

def fpSqrt (f : FFmt) (a : Nat) : Nat × FFlags :=
  let x := f.decode a
  finishFp f (isSnan f a) x.isNan x.sqrtExact

/-- gd + ga × gb with one rounding (FMA). An infinity times zero plus a quiet NaN raises invalid or not
by the implementation (IEEE 754-2019 7.2; assumption 9). -/
def fpFma (f : FFmt) (a b c : Nat) : Nat × FFlags :=
  let x := f.decode a; let y := f.decode b; let z := f.decode c
  let p := x.mul y
  let badProd := p.isNan && !x.isNan && !y.isNan
  let sn := isSnan f a || isSnan f b || isSnan f c || (badProd && (!z.isNan || Config.ieeeChoice 3))
  finishFp f sn (x.isNan || y.isNan || z.isNan) (p.add z)

/-- FMIN and FMAX: −0 is below +0. With one NaN operand the result is the NaN or the number, as the
implementation reads IEEE 754-2019 minimum or minimumNumber (assumption 9). -/
def fpMinMax (f : FFmt) (max : Bool) (a b : Nat) : Nat × FFlags :=
  let x := f.decode a; let y := f.decode b
  let less (u v : Val) : Bool := u.lt v || (u.eqv v && u.isNeg && !v.isNeg)
  let r :=
    if x.isNan then (if y.isNan || !Config.ieeeChoice 1 then .nan else y)
    else if y.isNan then (if Config.ieeeChoice 1 then x else .nan)
    else if max then (if less x y then y else x) else (if less y x then y else x)
  (f.encode r, ({} : FFlags).withInvalid (isSnan f a || isSnan f b))

/-- FEQ, a quiet comparison; FLT and FLE, signalling (IEEE 754-2019; DEDUCED, assumption 9). -/
def fpCmp (f : FFmt) (quiet : Bool) (p : Val → Val → Bool) (a b : Nat) : Nat × FFlags :=
  let x := f.decode a; let y := f.decode b
  let nan := x.isNan || y.isNan
  (b2n (!nan && p x y), ({} : FFlags).withInvalid (isSnan f a || isSnan f b || (nan && !quiet)))

/-- A 32-bit signed integer to a float (FCVT.S.W, FCVT.D.W). -/
def fpFromInt (f : FFmt) (a : Nat) : Nat × FFlags :=
  let (v, fl) := roundFlags f (ofSig (signedOf 32 a) 0)
  (f.encode v, fl)

/-- A float to a 32-bit signed integer, toward zero, saturating, NaN to 0 (R116). Whether a fraction cut
off raises inexact is the implementation's (assumption 9). -/
def fpToInt (f : FFmt) (a : Nat) : Nat × FFlags :=
  match f.decode a with
  | .nan => (0, { invalid := true })
  | .inf s => (if s then 2 ^ 31 else 2 ^ 31 - 1, { invalid := true })
  | .fin s m e =>
    let n := roundQuanta .rtz m e 0
    if (if s then 2 ^ 31 else 2 ^ 31 - 1) < n then (if s then 2 ^ 31 else 2 ^ 31 - 1, { invalid := true })
    else
      let exact := (Val.fin s n 0).eqv (.fin s m e)
      (if s then (2 ^ 32 - n) % 2 ^ 32 else n, { inexact := !exact && Config.ieeeChoice 2 })

/-- Conversion between binary32 and binary64 (FCVT.D.S, FCVT.S.D). -/
def fpConvert (src dst : FFmt) (a : Nat) : Nat × FFlags :=
  let x := src.decode a
  finishFp dst (isSnan src a) x.isNan x

end Sys2Proof.Machine
end

