-- ==== Sys2Proof/Machine/Ewl.lean ====
section
/-! DEFINITION. The EWL operations (Table 6.10) on FP32 values. -/

namespace Sys2Proof.Machine

/-- The magnitude code of FP32 nearest to `num ÷ den × 2^e`, its quantum, and whether it overflows. -/
def nearCode (num den : Nat) (e : Int) : Nat × Int × Bool :=
  let t0 : Int := (Nat.log2 num : Int) - Nat.log2 den + e
  let below := decide (num * 2 ^ (e - t0).toNat < den * 2 ^ (t0 - e).toNat)
  let t := if below then t0 - 1 else t0
  let q := max (t - 23) (-149)
  let n := roundRatio .rne num den e q
  if fp32.reachesInf n q then (0, q, true) else (fp32.encodeMag n q, q, false)

/-- The code chosen freely among `code − 2` to `code + 2` that satisfy `near` (assumption 4). -/
def pickCode (choice code : Nat) (near : Nat → Bool) : Nat :=
  let cands := ((List.range 5).map fun d => code + d - 2).filter near
  cands.getD (choice % cands.length) code

/-- A positive ratio within 2 units in the last place; the flag is overflow. -/
def ulpRatio (choice num den : Nat) (e : Int) : Val × Bool :=
  let (code, q, o) := nearCode num den e
  if o then (.inf false, true)
  else
    let near (c : Nat) : Bool :=
      match fp32.decode c with
      | .fin _ m me =>
        let b := min (min e me) q
        let x : Int := (m * den * 2 ^ (me - b).toNat : Nat) - (num * 2 ^ (e - b).toNat : Nat)
        decide (x.natAbs ≤ 2 * den * 2 ^ (q - b).toNat)
      | _ => false
    (fp32.decode (pickCode choice code near), false)

/-- 1 ÷ √(m × 2^e) within 2 units in the last place. -/
def ulpRsqrt (choice m : Nat) (e : Int) : Val :=
  let (r, re) := sqrtSticky m e
  let (code, q, _) := nearCode 1 r (-re)
  let two : Val := .fin false 2 q
  let x : Val := .fin false m e
  let near (c : Nat) : Bool :=
    let v := fp32.decode c
    let lo := v.add two.neg
    let hi := v.add two
    !v.nonfinite && (lo.isNeg || lo.isZero || !Val.one.lt ((lo.mul lo).mul x)) && !((hi.mul hi).mul x).lt Val.one
  fp32.decode (pickCode choice code near)

/-- A positive value in `[lo, hi] × 2^e` within 2 units in the last place of that interval, which encloses the exact
result. -/
def ulpBetween (choice lo hi : Nat) (e : Int) : Val :=
  let (code, q, _) := nearCode (max lo 1) 1 e
  let two : Val := .fin false 2 q
  let near (c : Nat) : Bool :=
    let v := fp32.decode c
    !v.nonfinite && !(v.add two).lt (.fin false lo e) && !(Val.fin false hi e).lt (v.add two.neg)
  fp32.decode (pickCode choice code near)

/- 2^x and log₂ x to 64 fraction bits, enclosed between values rounded down and up. -/

/-- 2^(2^−i) for i = 1 to `n`, times 2^96, each rounded down, or (`up`) up, from the one before. -/
def rootsOf2 (up : Bool) : Nat → Nat → List Nat
  | 0, _ => []
  | n + 1, r => let t := isqrt (r * 2 ^ 96) + b2n up; t :: rootsOf2 up n t

/-- 2^(f ÷ 2^64) times 2^96, rounded down or up; `f` is below 2^64. -/
def pow2Frac (up : Bool) (f : Nat) : Nat :=
  ((rootsOf2 up 64 (2 ^ 97)).zipIdx).foldl (fun acc r =>
    if f / 2 ^ (63 - r.2) % 2 = 1 then (acc * r.1 + (if up then 2 ^ 96 - 1 else 0)) / 2 ^ 96 else acc) (2 ^ 96)

/-- `n` binary digits of log₂ of y ÷ 2^200 from 1 up to 2, by squaring with rounding down or up. -/
def log2Digits (up : Bool) : Nat → Nat → Nat → Nat
  | 0, _, acc => acc
  | n + 1, y, acc =>
    let z := (y * y + (if up then 2 ^ 200 - 1 else 0)) / 2 ^ 200
    if 2 ^ 201 ≤ z then log2Digits up n ((z + b2n up) / 2) (2 * acc + 1) else log2Digits up n z (2 * acc)

def withSign (v : Val) (neg : Bool) : Val := if neg then v.neg else v

def codeOf (v : Val) : BitVec 32 := BitVec.ofNat 32 (fp32.encode v)

/-- x ÷ y within 2 units in the last place; zeros, infinities and NaNs as IEEE 754-2019 gives. -/
def ewlDiv (op : Nat) (x y : Val) : StageVal :=
  match x, y with
  | .fin n1 m1 e1, .fin n2 m2 e2 =>
    if m1 = 0 ∨ m2 = 0 then ⟨(x.divExact y).1, false⟩
    else
      let (v, o) := ulpRatio (Config.ewlChoice op (codeOf x) (codeOf y)) m1 m2 (e1 - e2)
      ⟨withSign v (n1 != n2), o⟩
  | _, _ => ⟨(x.divExact y).1, false⟩

def ewlRsqrt (x : Val) : StageVal :=
  match x with
  | .nan => ⟨.nan, false⟩
  | .inf n => ⟨if n then .nan else .zero, false⟩
  | .fin n m e =>
    if m = 0 then ⟨.inf n, false⟩
    else if n then ⟨.nan, false⟩
    else ⟨ulpRsqrt (Config.ewlChoice 9 (codeOf x) 0) m e, false⟩

/-- 2^x within 2 units in the last place (assumption 4); 2^128 and above lie beyond FP32, and below 2^−152 only the smallest
codes are near. -/
def ewlExp2 (x : Val) : StageVal :=
  match x with
  | .nan => ⟨.nan, false⟩
  | .inf n => ⟨if n then .zero else .inf false, false⟩
  | .fin n m e =>
    if m = 0 then ⟨.one, false⟩
    else if !x.lt (.fin false 128 0) then ⟨.inf false, true⟩
    else if x.lt (.fin true 152 0) then ⟨fp32.decode (Config.ewlChoice 10 (codeOf x) 0 % 3), false⟩
    else
      let k : Int := if -64 ≤ e then (m * 2 ^ (e + 64).toNat : Nat) else (m / 2 ^ (-64 - e).toNat : Nat)
      let r : Int := if n then -k - (if -64 ≤ e then 0 else 1) else k
      let f := (r % 2 ^ 64).toNat
      let hi := if f + 1 = 2 ^ 64 then 2 ^ 97 else pow2Frac true (f + 1)
      ⟨ulpBetween (Config.ewlChoice 10 (codeOf x) 0) (pow2Frac false f) hi (r / 2 ^ 64 - 96), false⟩

/-- log₂ x within 2 units in the last place (assumption 4). -/
def ewlLog2 (x : Val) : StageVal :=
  match x with
  | .nan => ⟨.nan, false⟩
  | .inf n => ⟨if n then .nan else .inf false, false⟩
  | .fin n m e =>
    if m = 0 then ⟨.inf true, false⟩
    else if n then ⟨.nan, false⟩
    else if x.eqv .one then ⟨.zero, false⟩
    else
      let y := m * 2 ^ (200 - Nat.log2 m)
      let whole : Int := topExp m e * 2 ^ 64
      let lo : Int := whole + log2Digits false 64 y 0
      let hi : Int := whole + log2Digits true 64 y 0 + 1
      let c := Config.ewlChoice 11 (codeOf x) 0
      if lo < 0 then ⟨(ulpBetween c (-hi).toNat (-lo).toNat (-64)).neg, false⟩
      else ⟨ulpBetween c lo.toNat hi.toNat (-64), false⟩

/-- MAX and MIN of Table 6.10: +0 above −0, NaN if either is NaN. -/
def ewlMax (x y : Val) : Val :=
  if x.isNan || y.isNan then .nan
  else if x.lt y || (x.eqv y && x.isNeg && !y.isNeg) then y else x

def ewlMin (x y : Val) : Val :=
  if x.isNan || y.isNan then .nan
  else if y.lt x || (x.eqv y && y.isNeg && !x.isNeg) then y else x

/-- One element of an EWL (Table 6.10). The inputs' own conversions may have overflowed (R94). -/
def ewlOp (op : Nat) (a b : StageVal) : StageVal :=
  let x := a.v
  let y := b.v
  let o := a.ovf || b.ovf
  let one (r : StageVal) : StageVal := ⟨r.v, a.ovf || r.ovf⟩
  match op with
  | 0 => a
  | 1 => stageRound ⟨x, o⟩ (x.add y)
  | 2 => stageRound ⟨x, o⟩ (x.add y.neg)
  | 3 => stageRound ⟨x, o⟩ (x.mul y)
  | 4 => ⟨ewlMax x y, o⟩
  | 5 => ⟨ewlMin x y, o⟩
  | 6 => ⟨x.abs, a.ovf⟩
  | 7 => stageRound a (x.mul x)
  | 8 => one (ewlDiv 8 .one x)
  | 9 => one (ewlRsqrt x)
  | 10 => one (ewlExp2 x)
  | 11 => one (ewlLog2 x)
  | 12 => ⟨if !y.isZero then x else .zero, o⟩
  | 13 => ⟨if y.lt x then .one else .zero, o⟩
  | _ => let r := ewlDiv 14 x y; ⟨r.v, o || r.ovf⟩

/-- The operations with one operand. -/
def ewlUnary (op : Nat) : Bool := op == 0 || (decide (6 ≤ op) && decide (op ≤ 11)) || op == 63

/-- A defined operation code. -/
def ewlDefined (op : Nat) : Bool := decide (op ≤ 14) || op == 63

end Sys2Proof.Machine
end

