-- ==== Sys2Proof/Machine/ArrayCmds.lean ====
section
/-! DEFINITION. The array engine and the shadow path: OPX, RED, EWL, TLOAD, SWP, ACCLD and DRN, their
start checks (R474) and completions (Chapters 2, 3 and 6). -/

namespace Sys2Proof.Machine

/- Sets and queues. -/

/-- The command acts on the live set: a row-broadcast frame, or SET = 1 (R52). -/
def usesLive (f : Frame) (live : Bool) : Bool := f.rowPath || live

def Core.setOf (k : Core) (live : Bool) : AccSet := if live then k.live else k.shadow

def Core.putSet (k : Core) (live : Bool) (a : AccSet) : Core :=
  if live then { k with live := a } else { k with shadow := a }

/-- The shape of a frame on the core (R74), with the quadrant fences in force since the frame's start (Table 3.5). -/
def Core.shape (k : Core) (f : Frame) : Shape := shapeOf f.shape (bitsOf k.arrayCfg.toNat 3 0)

/-- CMD_INDEX and status records of a failed schedule check (R41, Table 2.9), and its fault-log entry. -/
def State.recordSkew (s : State) (c : Fin 192) (caravan tolerant wrongTag : Bool) (expected found cmd : Nat) : State :=
  let s1 := s.modCore c fun k => k.recordW1C 0x2010C 4
    (b2n caravan * 2 + b2n tolerant * 4 + b2n wrongTag * 8 + expected * 2 ^ 16)
    [(0x20110, found % 2 ^ 16 + cmd % 2 ^ 16 * 2 ^ 16)]
  let k := s1.core c
  s1.logFault { kind := 0x05, status := stSkew, ctx := k.ctx, unitType := 1, unit := c.val,
                detail0 := k.rd 0x2010C, detail1 := k.rd 0x20110 }

/-- The condition bits of an instance (Table 5.8). -/
def Core.condPoisoned (k : Core) (i : Fin 8) : Core := k.modInst i fun n => { n with poisoned := true }

def Core.condNonfinite (k : Core) (i : Fin 8) : Core := k.modInst i fun n => { n with nonfinite := true }

def Core.condMaskEmpty (k : Core) (i : Fin 8) (b : Bool) : Core := k.modInst i fun n => { n with maskEmpty := b }

/-- The outcome of an SWP's check (Table 2.6). -/
inductive SwpCheck where
  | proceed
  | wait
  | fail (wrongTag : Bool) (found : Nat)
  deriving DecidableEq, Repr

/-- The SWP check: the shadow set holds the expected tag and is complete (R36, R38). A command on the shadow
path that names the expected tag and is not finished makes the check late, not wrong. -/
def Core.swpCheck (k : Core) (tolerant : Bool) (tag : Byte) : SwpCheck :=
  let found := match k.shadow.tag with
    | some t => t.toNat
    | none => 0xFFFF
  let naming := k.shadowQ.any fun j => match j.cmd.args with
    | .accld _ _ _ _ _ t => t == tag
    | .drn _ _ _ _ _ t _ => t == tag
    | _ => false
  if k.shadow.tag = some tag then
    if k.shadow.complete then .proceed else if tolerant then .wait else .fail false found
  else if naming then (if tolerant then .wait else .fail false found)
  else .fail true found

/-- Exchanges the sets (R50). -/
def Core.swap (k : Core) : Core := { k with live := k.shadow, shadow := k.live }

/-- Marks a set poisoned with a status unless it is already. -/
def AccSet.taint (a : AccSet) (st : Byte) : AccSet := if a.poison = 0 then { a with poison := st } else a

/-- An SWP that fails its check (R41). -/
def State.swpFail (s : State) (c : Fin 192) (j : Job) (tolerant wrongTag : Bool) (tag : Byte) (found : Nat) : State :=
  let s1 := s.recordSkew c false tolerant wrongTag tag.toNat found j.seq
  s1.modCore c fun k =>
    (({ k with live := k.live.taint stSkew, shadow := k.shadow.taint stSkew }).condPoisoned j.slot).cmdEnded
      j.slot j.seq 0x04 false stSkew

/-- The start check of a command on the set it finds (R474): R150, R157, R158. An index billet that issue did not foresee
meets the entry rules here. -/
def State.startOk (s : State) (c : Fin 192) (f : Frame) (j : Job) : Bool :=
  let k := s.core c
  match j.cmd.args with
  | .opx .. => k.live.red.isNone
  | .red _ _ _ _ _ cont _ d => !cont || k.live.red == some (d.toNat + 1)
  | .drn _ d1 live _ lay _ _ =>
    let dst0 := (j.ents[0]?).getD (k.entry 0)
    match (k.setOf (usesLive f live)).red with
    | some depth =>
      let idx := (j.ents[1]?).getD (k.entry d1.toNat)
      lay == 0 && dst0.linesOk 1 depth f.rows && idx.layout == 0 && decide (f.rows * depth * 4 ≤ idx.extent) &&
        (j.ents[1]?.isSome || idx.check f.context true (s.fillRegion c) (!k.owned f) == .ok)
    | none => lay != 0 || (d1 == 0 && dst0.linesOk 1 f.cols f.rows)
  | _ => true

/-- A command that the drain unit serves, and a table load. -/
def drainUser : TileArgs → Bool
  | .drn .. => true
  | .ewl .. => true
  | _ => false

def tableLoad : TileArgs → Bool
  | .ewl _ _ _ op .. => op == 63
  | _ => false

/-- The drain unit may serve job `j` of the shadow path or of the array engine: it serves one command at a time (R63, R73),
and a DRN keeps its place among the table loads, for it uses the table of its moment of issue (R160). -/
def Core.drainFree (k : Core) (shadow : Bool) (j : Job) : Bool :=
  let busy (q : List Job) : Bool := match q with
    | h :: _ => h.started && drainUser h.cmd.args
    | [] => false
  let earlier (q : List Job) (p : TileArgs → Bool) : Bool := q.any fun h => decide (h.seq < j.seq) && p h.cmd.args
  if !drainUser j.cmd.args then true
  else if shadow then !busy k.arrayQ && !earlier k.arrayQ tableLoad
  else !busy k.shadowQ && !(tableLoad j.cmd.args && earlier k.shadowQ drainUser)

/-- What starting the head of a queue does. -/
inductive Started where
  /-- It runs until its completion row. -/
  | runs (s : State) (j : Job)
  /-- It has ended already (SWP, a failed start check). -/
  | ended (s : State)

/-- Starts one job (R36, R67, R77, R154, R156). -/
def State.startJob (s : State) (c : Fin 192) (j : Job) : Started :=
  let k := s.core c
  match k.frame j.slot with
  | none => .ended s
  | some f =>
    if !s.startOk c f j then
      let owed := match j.cmd.args with
        | .opx _ _ kk .. => if f.bCaravan then caravanTiles kk.toNat else 0
        | _ => 0
      .ended (s.modCore c fun k => (k.carHold owed).cmdEnded j.slot j.seq j.cmd.args.opcode false stReserved)
    else
      match j.cmd.args with
      | .opx _ _ _ m bl .. =>
        if f.bCaravan then .runs s { j with started := true }
        else
          let bits := k.mask[m.toNat]'m.isLt
          .runs (s.modCore c fun k => k.condMaskEmpty j.slot (MaskSel.none ⟨bits, bl⟩)) { j with started := true, mask := bits }
      | .swp tag =>
        if f.rowPath then .ended (s.modCore c fun k => k.beats 1)
        else match k.swpCheck f.tolerant tag with
          | .proceed => .ended (s.modCore c fun k => k.swap.beats 1)
          | .wait => .runs s { j with started := true, waiting := true }
          | .fail w found => .ended (s.swpFail c j f.tolerant w tag found)
      | .accld _ live _ _ _ tag =>
        let l := usesLive f live
        .runs (s.modCore c fun k => k.putSet l { k.setOf l with tag := some tag, complete := false, red := none })
          { j with started := true }
      | .drn _ _ live .. =>
        let l := usesLive f live
        .runs (s.modCore c fun k => k.putSet l { k.setOf l with complete := false })
          { j with started := true, tol := k.rd 0x20204 }
      | _ => .runs s { j with started := true }

/-- Starts heads of the array queue until one runs or waits for the drain unit. -/
def State.startArray : Nat → State → Fin 192 → State
  | 0, s, _ => s
  | fuel + 1, s, c =>
    match (s.core c).arrayQ with
    | [] => s
    | j :: rest =>
      if j.started || !(s.core c).drainFree false j then s
      else match s.startJob c j with
        | .runs t j' => t.modCore c fun k => { k with arrayQ := j' :: rest }
        | .ended t => (t.modCore c fun k => { k with arrayQ := rest }).startArray fuel c

/-- Starts heads of the shadow queue until one runs or waits for the drain unit. -/
def State.startShadow : Nat → State → Fin 192 → State
  | 0, s, _ => s
  | fuel + 1, s, c =>
    match (s.core c).shadowQ with
    | [] => s
    | j :: rest =>
      if j.started || !(s.core c).drainFree true j then s
      else match s.startJob c j with
        | .runs t j' => t.modCore c fun k => { k with shadowQ := j' :: rest }
        | .ended t => (t.modCore c fun k => { k with shadowQ := rest }).startShadow fuel c

/-- Starts what can start: the shadow path, the array engine, and a shadow command that a table load held up and that may
start now. -/
def State.startEngines (s : State) (c : Fin 192) : State :=
  let shadow (s : State) : State := s.startShadow ((s.core c).shadowQ.length + 1) c
  let s1 := shadow s
  shadow (s1.startArray ((s1.core c).arrayQ.length + 1) c)

/-- Appends a job to the array engine or the shadow path and starts what can start. -/
def State.pushJob (s : State) (c : Fin 192) (shadow : Bool) (j : Job) : State :=
  (s.modCore c fun k => if shadow then { k with shadowQ := k.shadowQ ++ [j] }
    else { k with arrayQ := k.arrayQ ++ [j] }).startEngines c

/-- Ends the head of a queue with a status and starts what follows. -/
def State.popJob (s : State) (c : Fin 192) (shadow : Bool) (j : Job) (st : Byte) : State :=
  (s.modCore c fun k =>
    let k1 := if shadow then { k with shadowQ := k.shadowQ.tail } else { k with arrayQ := k.arrayQ.tail }
    k1.cmdEnded j.slot j.seq j.cmd.args.opcode false st).startEngines c

/-- Bank accesses of a command: its registered lines, each once (DEDUCED, assumption 13). -/
def Core.spAccess (k : Core) (f : Frame) (j : Job) : Core :=
  k.bump64 0x20610 ((cmdRanges f j.cmd.args j.ents).foldl (fun n r => n + r.2.1) 0)

/-- The running head of the array queue with its frame. -/
def Core.arrayHead (k : Core) : Option (Job × Frame) :=
  match k.arrayQ with
  | [] => none
  | j :: _ => if j.started then (k.frame j.slot).map fun f => (j, f) else none

def Core.shadowHead (k : Core) : Option (Job × Frame) :=
  match k.shadowQ with
  | [] => none
  | j :: _ => if j.started then (k.frame j.slot).map fun f => (j, f) else none

/-- A reserved-field rule that needs no frame. -/
def always : Core → Bool := fun _ => true

/-- A frame with ACC_USE none uses no array engine command (R132). -/
def usesArray (f : Frame) : Bool := f.accUse != 0

/- OPX (R150 to R153). -/

/-- p of a frame's pairing (R91). -/
def Frame.p (f : Frame) : Nat := min (fmtP f.a.fmt) (fmtP f.b.fmt)

def Frame.isFp32 (f : Frame) : Bool := f.a.fmt == 0

/-- Beats that a whole caravan tile takes (R151). -/
def Frame.tileBeats (f : Frame) : Nat := if f.isFp32 then 384 else 128 / f.p

/-- Check 1 of an OPX (Table 6.5, R151). -/
def opxOk1 (f : Frame) : TileArgs → Bool
  | .opx _ b kk _ _ tag first stride =>
    let tc := if f.bCaravan then caravanTiles kk.toNat else 0
    kk != 0 && (!f.bCaravan || b == 0) && (f.bCaravan || tag == 0) &&
      (if tc < 2 then first == 0 else decide (f.tileBeats ≤ first.toNat)) &&
      (if tc < 3 then stride == 0 else decide (f.tileBeats ≤ stride.toNat))
  | _ => false

/-- Check 2 of an OPX (R69, R132, R135). -/
def opxOk2 (f : Frame) (cmd : TileCmd) (_ : Core) : Bool :=
  match cmd.args with
  | .opx _ _ _ m bl .. =>
    usesArray f && (!f.bCaravan || (cmd.pred == 0 && !cmd.pinv)) && (f.shape == 0 || (m == 0 && !bl))
  | _ => false

/-- The format named for an operand's billet (R176). -/
def fmtIs (o : Operand) (e : BEntry) : Bool := e.fmt == o.fmt && e.scale == o.scale

/-- The billets of an OPX and their rules (R176). -/
def opxUses (f : Frame) (a b : BitVec 8) (kk : BitVec 24) : List BUse :=
  ⟨a.toNat, false, fun e => fmtIs f.a e && e.feedOk e.orient (shapeRows f.shape) kk.toNat⟩ ::
    (if f.bCaravan then []
     else [⟨b.toNat, false, fun e => fmtIs f.b e && e.feedOk (!e.orient) (shapeCols f.shape) kk.toNat⟩])

/-- OPX. -/
def execOpx (c : Fin 192) (i : Fin 8) (stall : Nat) (s : State) : Result :=
  issueStep c i stall 0x01 always opxOk1 opxOk2 (fun f n cmd s =>
    match cmd.args with
    | .opx a b kk .. =>
      s.withBillets c f cmd.args (opxUses f a b kk) true fun ents => .run (s.pushJob c false (newJob i n cmd ents))
    | _ => .wait) s

/-- The positions k = `first` to `first + n − 1` of an OPX, the b side from `b`. -/
def opxPositions (k : Core) (f : Frame) (ea : BEntry) (first n : Nat) (b : Nat → Nat → Val) : List Pos :=
  let ma := k.stored ea
  (List.range n).map fun d =>
    { a := (List.range f.rows).map fun i => ma.feedVal ea.orient f.a.t (first + d) i,
      b := (List.range f.cols).map fun j => b (first + d) j }

/-- Accumulates positions into the live set and counts gated and masked products (R55, R67). Missing
positions of the last beat are zeros and zero-gated (R46). -/
def Core.accumulate (k : Core) (f : Frame) (mask : MaskSel) (ps : List Pos) : Core :=
  let sh := k.shape f
  let all := shapeRows f.shape * shapeCols f.shape
  let en := mask.count sh
  let times := if f.isFp32 then 3 else 1
  let pad := if f.isFp32 then 0 else ceilDiv ps.length f.p * f.p - ps.length
  let gated := (ps.foldl (fun n p => n + gatedOf sh mask f.isFp32 en p) 0 + pad * en) * times
  let masked := (all - en) * (ps.length + pad) * times
  let k1 := { k with live := k.live.opx sh mask f.rows f.cols (beatsOf f.isFp32 f.p ps) }
  (k1.bump64 0x20218 gated).bump64 0x20220 masked

/-- Beats of an OPX that it takes after its last slot check: all of them without slots (R151, R152). -/
def opxLastBeats (f : Frame) (kk : Nat) : Nat :=
  let n := if f.bCaravan then kk - 128 * (caravanTiles kk - 1) else kk
  if f.isFp32 then 3 * n else ceilDiv n f.p

/-- The beats from slot n − 1, or from the first beat, to slot n are taken when slot n is reached: those of tile n − 1, and
slack beats (R23, R151). -/
def Core.slotBeats (k : Core) (f : Frame) (n first stride : Nat) : Core :=
  let d := if n = 0 then 0 else if n = 1 then first else stride
  (k.beats d).bump 0x20508 (d - f.tileBeats)

/-- OPX_COMPLETE: the OPX at the head of the array takes its last beat (R153). With a caravan every tile has
been consumed at its slot check. -/
def execOpxComplete (c : Fin 192) (w : Waits) (s : State) : Result :=
  match (s.core c).arrayHead with
  | some (j, f) =>
    match j.cmd.args with
    | .opx _ _ kk _ bl .. =>
      if f.bCaravan ∧ j.tile < caravanTiles kk.toNat then .next s
      else
        let s1 := s.modCore c fun k =>
          let k1 := match f.bCaravan, j.ents with
            | false, ea :: eb :: _ =>
              let mb := k.stored eb
              k.accumulate f ⟨j.mask, bl⟩
                (opxPositions k f ea 0 kk.toNat fun s e => mb.feedVal (!eb.orient) f.b.t s e)
            | _, _ => k
          ((k1.beats (opxLastBeats f kk.toNat)).waited w).spAccess f j
        .next (s1.popJob c false j stOk)
    | _ => .next s
  | none => .next s

/- RED (R158). -/

def redOk1 (_ : Frame) : TileArgs → Bool
  | .red _ b n _ bs _ base _ => n != 0 && (bs || b == 0) && (!bs || base == 0)
  | _ => false

def redOk2 (f : Frame) (cmd : TileCmd) (_ : Core) : Bool :=
  match cmd.args with
  | .red _ _ n _ bs _ base d =>
    usesArray f && f.accUse != 2 && decide (d.toNat + 1 ≤ shapeCols f.shape) &&
      (bs || decide (base.toNat + n.toNat - 1 < 0xFFFFFF))
  | _ => false

/-- The billets of a RED and their rules. -/
def redUses (f : Frame) (a b : BitVec 8) (nn : BitVec 24) (bs : Bool) : List BUse :=
  ⟨a.toNat, false, fun e => fmtIs f.a e && e.linesOk 2 f.rows nn.toNat⟩ ::
    (if bs then [⟨b.toNat, false, fun e => e.layout == 0 && decide (nn.toNat * f.rows * 4 ≤ e.extent)⟩] else [])

/-- RED. -/
def execRed (c : Fin 192) (i : Fin 8) (stall : Nat) (s : State) : Result :=
  issueStep c i stall 0x02 always redOk1 redOk2 (fun f n cmd s =>
    match cmd.args with
    | .red a b nn _ bs .. =>
      s.withBillets c f cmd.args (redUses f a b nn bs) true fun ents =>
        .run (s.pushJob c false (newJob i n cmd ents))
    | _ => .wait) s

/-- The stream of one row: values with their indices, and how many indices were out of range (R71, R158). -/
def redStream (k : Core) (f : Frame) (ea : BEntry) (eb : Option BEntry) (n base i : Nat) :
    List (Val × BitVec 24) × Nat :=
  let ma := k.stored ea
  let idx (p : Nat) : Nat := match eb with
    | some e => k.sp.readLE (e.addr + 4 * (p * f.rows + i)) 4
    | none => base + p
  let xs := (List.range n).map fun p => (ma.feedVal false f.a.t p i, idx p)
  (xs.map fun x => (x.1, if x.2 < 2 ^ 24 then BitVec.ofNat 24 x.2 else 0xFFFFFF),
    (xs.filter fun x => decide (2 ^ 24 ≤ x.2)).length)

/-- RED_COMPLETE: the lists settle and the set takes the RED mark with its depth (R70, R71, R155). The NaNs discarded count
in CORE_NF_NAN now, and in no later DRN's tile counts (R108; DESIGN CHOICE, assumption 93). -/
def execRedComplete (c : Fin 192) (w : Waits) (s : State) : Result :=
  match (s.core c).arrayHead with
  | some (j, f) =>
    match j.cmd.args, j.ents with
    | .red _ _ n mn bs cont base d, ea :: rest =>
      let depth := d.toNat + 1
      let s1 := s.modCore c fun k =>
        let sh := k.shape f
        let eb := if bs then rest.head? else none
        let live := (List.range (shapeRows f.shape)).foldl (fun a i =>
          let st := if i < f.rows then (redStream k f ea eb n.toNat base.toNat i).1 else []
          a.redRow sh i depth mn cont st) k.live
        let bad := (List.range f.rows).foldl (fun t i =>
          let r := redStream k f ea eb n.toNat base.toNat i
          t + r.2 + (r.1.filter fun x => x.1.isNan).length) 0
        (((({ k with live := { live with red := some depth } }).beats (n.toNat + depth)).bumpSat 0x20300 bad).waited
          w).spAccess f j
      .next (s1.popJob c false j stOk)
    | _, _ => .next s
  | none => .next s

/- Counting what a DRN or EWL wrote (R65, R108, R109). -/

/-- Adds a tile's counts to CORE_NF_NAN, CORE_NF_INF and CORE_NF_OVF; non-zero counts raise NONFINITE. -/
def Core.countTile (k : Core) (i : Fin 8) (t : Counts) : Core :=
  let k1 := ((k.bumpSat 0x20300 t.nan).bumpSat 0x20304 t.inf).bumpSat 0x20308 t.ovf
  if t.nan + t.inf + t.ovf = 0 then k1 else k1.condNonfinite i

/-- The draw key of a frame's command (R104). -/
def State.drawKey (s : State) (f : Frame) (mb tile : Nat) : DrawKey :=
  match ctxOf? f.context with
  | some x => { seed := (s.ctx x).seed, stream := f.stream, step := (s.ctx x).step.getD 0, mb := mb, tile := tile, sel := 0 }
  | none => { seed := 0, stream := f.stream, step := 0, mb := mb, tile := tile, sel := 0 }

/-- `mb` of a draw key: the micro-batch, 0 for work outside any (the closing index; R104, R204). -/
def keyMb (mb : Nat) : Nat := if mb = 0xFFFF then 0 else mb

/-- Counts a tile drawn on the frame's stream when its rounding is stochastic (R106). -/
def State.countDraw (s : State) (f : Frame) : State := if 2 ≤ f.round then s.tileDrawn f.context f.stream else s

/- EWL (R159). -/

def ewlOk1 (_ : Frame) : TileArgs → Bool
  | .ewl _ b n op _ _ t => ewlDefined op.toNat && n != 0 && !t && (!ewlUnary op.toNat || b == 0)
  | _ => false

def arrayOk2 (f : Frame) (_ : TileCmd) (_ : Core) : Bool := usesArray f

/-- The frame's vectors pass check 4 (R473): `rows` and `cols` are the elements they need. -/
def vectorsOk (f : Frame) (rows cols : Nat) : Bool :=
  (decide (f.scaleMode < 2) || vectorOk f.scaleVec (if f.scaleMode = 2 then rows else cols)) &&
    (decide (f.biasMode < 2) || vectorOk f.biasVec (if f.biasMode = 2 then rows else cols))

/-- The billets of an EWL and their rules. -/
def ewlUses (f : Frame) (a b d : BitVec 8) (nn : BitVec 24) (op : BitVec 6) : List BUse :=
  (⟨a.toNat, false, fun e => fmtIs f.a e && e.seqOk nn.toNat⟩ ::
    (if ewlUnary op.toNat then [] else [⟨b.toNat, false, fun e => fmtIs f.b e && e.seqOk nn.toNat⟩])) ++
    [⟨d.toNat, true, fun e => e.fmt == f.outFmt && e.scale == f.outScale && e.seqOk nn.toNat⟩]

/-- EWL. -/
def execEwl (c : Fin 192) (i : Fin 8) (stall : Nat) (s : State) : Result :=
  issueStep c i stall 0x03 always ewlOk1 arrayOk2 (fun f n cmd s =>
    match cmd.args with
    | .ewl a b nn op _ d _ =>
      s.withBillets c f cmd.args (ewlUses f a b d nn op) (vectorsOk f 128 128) fun ents => .run (s.pushJob c false (newJob i n cmd ents))
    | _ => .wait) s

/-- Element q of an EWL after stage 5, with its rounding (R94, R104, R159). -/
def ewlElem (k : Core) (f : Frame) (key : DrawKey) (op : Nat) (ea : BEntry) (eb : Option BEntry) (q : Nat) : Elem :=
  let conv (v : Val) : StageVal := let (w, o) := toFp32 v; ⟨w, o⟩
  let x := conv ((k.stored ea).seqVal f.a.t q)
  let y := match eb with
    | some e => conv ((k.stored e).seqVal f.b.t q)
    | none => ⟨.zero, false⟩
  let r := k.stages f (q % 128) (q / 128 % 128) (ewlOp op x y)
  ⟨r.v, r.ovf, roundModeOf f.round { key with tile := key.tile + q / 16384 } (q % 16384) 0⟩

/-- Writes an element sequence (R159): its counts and the core. -/
def Core.writeSeq (k : Core) (e : BEntry) (xs : List Elem) : Core × List Count :=
  if e.layout = 0 then
    let r := (outLine e.fmt e.scale xs).2
    ({ k with sp := writePacked k.sp e.addr 0 (fmtBits e.fmt) (r.map (·.1)) }, r.map (·.2))
  else
    (chunks e.len xs.length xs).zipIdx.foldl (fun acc p =>
      let (sc, r) := outLine e.fmt e.scale p.1
      (acc.1.writeSlice e p.2 (r.map (·.1)) sc, acc.2 ++ r.map (·.2))) (k, [])

/-- EWL_COMPLETE: the last result is written, or the table is loaded (R160). The wait for the drain unit is
among its waits (R73). -/
def execEwlComplete (c : Fin 192) (w : Waits) (s : State) : Result :=
  match (s.core c).arrayHead with
  | some (j, f) =>
    match j.cmd.args with
    | .ewl _ _ n op key _ _ =>
      if op = 63 then
        -- TLOAD (R160)
        let k := s.core c
        match j.ents with
        | ea :: _ =>
          let img := k.sp.readRun ea.addr 1040
          let bad := (img.drop 0x401).any (· != 0)
          let tb := match j.cmd.args with
            | .ewl _ _ _ _ _ _ t => b2n t
            | _ => 0
          let seg := SMap.setAll actDefault [] ((List.range 256).map fun w => (w, BitVec.ofNat 32 (imgLE img (4 * w) 4)))
          let s1 := s.modCore c fun k =>
            let k1 := ((k.beats 17).waited w).spAccess f j
            if bad then k1
            else { k1 with act := k1.act.set (tb % 2) { seg := seg, e0 := img.getD 0x400 0 } (Nat.mod_lt _ (by decide)) }
          .next (s1.popJob c false j (if bad then stReserved else stOk))
        | [] => .next s
      else
        let k := s.core c
        match j.ents with
        | ea :: rest =>
          let unary := ewlUnary op.toNat
          let eb := if unary then none else rest.head?
          match rest.getLast? with
          | none => .next s
          | some ed =>
            let dk := s.drawKey f (keyMb (k.mbOf j.slot)) key.toNat
            let xs := (List.range n.toNat).map (ewlElem k f dk op.toNat ea eb)
            let (k1, cs) := k.writeSeq ed xs
            let k2 := ((k1.setPoison ed.num 0).countTile j.slot (countAll cs)).spAccess f j
            let k3 := (k2.beats (ceilDiv n.toNat 128)).waited w
            .next (((s.setCore c k3).countDraw f).popJob c false j stOk)
        | [] => .next s
    | _ => .next s
  | none => .next s

/- TLOAD (R160). -/

def tloadOk1 (_ : Frame) : TileArgs → Bool
  | .ewl _ b n op key d _ => op == 63 && n == 0 && key == 0 && d == 0 && b == 0
  | _ => false

/-- The billet of a TLOAD and its rule. -/
def tloadUses (f : Frame) (a : BitVec 8) : List BUse :=
  [⟨a.toNat, false, fun e => fmtIs f.a e && (e.layout == 1 || e.layout == 0 && blockLen e.fmt e.scale == 0) &&
    decide (1040 ≤ e.extent)⟩]

/-- TLOAD: the table source is an element-free billet of 1,040 B; it completes at EWL_COMPLETE. It uses no scale or bias
vector, and the check of R473 is not made for it (DESIGN CHOICE, assumption 94). -/
def execTload (c : Fin 192) (i : Fin 8) (stall : Nat) (s : State) : Result :=
  issueStep c i stall 0x103 always tloadOk1 arrayOk2 (fun f n cmd s =>
    match cmd.args with
    | .ewl a .. =>
      s.withBillets c f cmd.args (tloadUses f a) true fun ents => .run (s.pushJob c false (newJob i n cmd ents))
    | _ => .wait) s

/- SWP (R155). -/

def swpOk1 (_ : Frame) : TileArgs → Bool
  | .swp _ => true
  | _ => false

/-- SWP: one beat on the array engine, with the check of R36 when it starts. -/
def execSwp (c : Fin 192) (i : Fin 8) (stall : Nat) (s : State) : Result :=
  issueStep c i stall 0x04 always swpOk1 arrayOk2 (fun _ n cmd s =>
    .run (s.pushJob c false (newJob i n cmd []))) s

/-- CORE_SKEW_LIMIT (Table 2.8). -/
def Core.skewLimit (k : Core) : Nat := bitsOf (k.rd 0x20108) 23 0

/-- SKEW_LIMIT_EXPIRY for an SWP: its tolerant wait reaches CORE_SKEW_LIMIT (Table 2.6). -/
def State.swpLimit (s : State) (c : Fin 192) (j : Job) (f : Frame) (tag : Byte) : State :=
  let be := (s.core c).skewLimit
  let found := match (s.core c).shadow.tag with
    | some t => t.toNat
    | none => 0xFFFF
  let s1 := (s.skewTime c be).modCore c fun k => { k with skewStall := k.skewStall + be, arrayQ := k.arrayQ.tail }
  (s1.swpFail c j f.tolerant false tag found).startEngines c

/-- An SWP that waits in tolerant mode and has waited `be` fails when that reaches CORE_SKEW_LIMIT (Table 2.6). -/
def State.swpOverdue (s : State) (c : Fin 192) (be : Nat) : State :=
  match (s.core c).arrayHead with
  | some (j, f) =>
    match j.cmd.args with
    | .swp tag => if j.waiting ∧ (s.core c).skewLimit ≤ be then s.swpLimit c j f tag else s
    | _ => s
  | none => s

/-- Re-evaluates an SWP that waits in tolerant mode; `be` is the time waited (R38, R40), less than the limit. -/
def State.swpRetry (s : State) (c : Fin 192) (be : Nat) : State :=
  match (s.core c).arrayHead with
  | some (j, f) =>
    match j.cmd.args with
    | .swp tag =>
      if !j.waiting then s
      else match (s.core c).swpCheck f.tolerant tag with
        | .wait => s
        | .proceed =>
          ((s.skewTime c be).modCore c fun k => { k.swap.beats 1 with skewStall := k.skewStall + be }).popJob c false j stOk
        | .fail w found =>
          let s1 := (s.skewTime c be).modCore c fun k => { k with skewStall := k.skewStall + be, arrayQ := k.arrayQ.tail }
          (s1.swpFail c j f.tolerant w tag found).startEngines c
    | _ => s
  | none => s

/- ACCLD (R154). -/

def accldOk1 (_ : Frame) : TileArgs → Bool
  | .accld sr _ z fm sc _ =>
    if z then sr == 0 && fm == 0 && sc == 0 else fmtDefined fm.toNat && scaleOk fm.toNat sc.toNat
  | _ => false

/-- The billet of an ACCLD and its rule. -/
def accldUses (f : Frame) (sr : BitVec 8) (z : Bool) (fm : BitVec 5) (sc : BitVec 2) : List BUse :=
  let rule (e : BEntry) : Bool := e.fmt == fm.toNat && e.scale == sc.toNat &&
    (if e.layout = 3 then e.fmt != 14 && e.fmt != 13 && decide (f.rows ≤ 128) &&
        decide (skewTileLines e.fmt e.scale * 64 ≤ e.extent)
      else e.linesOk 1 f.cols f.rows)
  if z then [] else [⟨sr.toNat, false, rule⟩]

/-- ACCLD. -/
def execAccld (c : Fin 192) (i : Fin 8) (stall : Nat) (s : State) : Result :=
  issueStep c i stall 0x05 always accldOk1 arrayOk2 (fun f n cmd s =>
    match cmd.args with
    | .accld sr live z fm sc _ =>
      s.withBillets c f cmd.args (accldUses f sr z fm sc) true fun ents =>
        .run (s.pushJob c (!usesLive f live) (newJob i n cmd ents))
    | _ => .wait) s

/-- The value at (i, j) of the tile that an ACCLD loads (R94). -/
def accldVal (k : Core) (e : BEntry) (i j : Nat) : Val :=
  let m := k.stored e
  let (raw, sc) := if e.layout = 3 then m.skewElem 0 i j else m.sliceElem i j
  scaledVal e.fmt e.scale raw sc 0

/-- On the shadow path no wait is a wait of the array (R54). -/
def foregroundWaits (shadow : Bool) (w : Waits) : Waits := if shadow then { w with feed := 0, drain := 0 } else w

/-- ACCLD_COMPLETE: the last row's write is acknowledged and the set is complete; poison that an SWP left on it while the
ACCLD ran stays (R41). `shadow` names the shadow path; a foreground ACCLD counts its waits for a feeder and for the drain
unit (R54). A tolerant SWP that waited for it goes on. -/
def execAccldComplete (c : Fin 192) (shadow : Bool) (w : Waits) (s0 : State) : Result :=
  match (if shadow then (s0.core c).shadowHead else (s0.core c).arrayHead) with
  | some (j, f) =>
    match j.cmd.args with
    | .accld _ _ z _ _ tag =>
      let s := if shadow then s0.swpOverdue c w.skew else s0
      let s1 := s.modCore c fun k =>
        let v (i j' : Nat) : Val := match z, j.ents with
          | false, e :: _ => accldVal k e i j'
          | _, _ => .zero
        let set : AccSet := { loadSet (k.shape f) (if z then 0 else f.rows) f.cols v tag with
          complete := true, poison := (k.setOf (!shadow)).poison }
        let k1 := ((k.putSet (!shadow) set).spAccess f j).waited (foregroundWaits shadow w)
        if shadow then k1 else k1.beats 128
      .next ((s1.popJob c shadow j stOk).swpRetry c w.skew)
    | _ => .next s0
  | none => .next s0

/- DRN (R156, R157). -/

def drnOk1 (_ : Frame) : TileArgs → Bool
  | .drn _ d1 _ _ lay _ _ => lay != 3 && (lay != 1 || d1 == 0)
  | _ => false

/-- The rule of DST0 at issue: with LAYOUT 0 and a RED tile to come (`red`) the length is settled by the depth of the set
found at the start (R157). -/
def drnDst0 (f : Frame) (lay : BitVec 2) (red : Bool) (e : BEntry) : Bool :=
  e.fmt == f.outFmt && e.scale == f.outScale &&
    (if lay = 0 then (if red then e.layout == 1 else e.linesOk 1 f.cols f.rows)
     else if lay = 1 then e.linesOk 2 f.rows f.cols
     else e.linesOk 1 f.cols f.rows)

/-- The rule of DST1: the column-major copy, or a linear index billet. -/
def drnDst1 (f : Frame) (lay : BitVec 2) (e : BEntry) : Bool :=
  if lay = 2 then e.fmt == f.outFmt && e.scale == f.outScale && e.linesOk 2 f.rows f.cols
  else e.layout == 0

/-- The billets of a DRN and their rules: DST1 is named when it is not 0, and for the index billet of a RED tile also when
it is (R143, R157). -/
def drnUses (f : Frame) (d0 d1 : BitVec 8) (lay : BitVec 2) (red : Bool) : List BUse :=
  ⟨d0.toNat, true, drnDst0 f lay red⟩ ::
    (if lay = 2 ∨ (lay = 0 ∧ (d1 ≠ 0 ∨ red = true)) then [⟨d1.toNat, true, drnDst1 f lay⟩] else [])

/-- Puts a job into a list in issue order. -/
def inOrder (j : Job) : List Job → List Job
  | [] => [j]
  | h :: t => if j.seq < h.seq then j :: h :: t else h :: inOrder j t

/-- Whether the set that a command issued now is to find holds the RED mark, once every command issued before it has run:
the marks of the live and the shadow set, through each command in issue order (R155). -/
def Core.redAhead (k : Core) (f : Frame) (live : Bool) : Bool :=
  let mark (m : Bool × Bool) (j : Job) : Bool × Bool :=
    let on (l v : Bool) : Bool × Bool := if l then (v, m.2) else (m.1, v)
    match j.cmd.args with
    | .red .. => (true, m.2)
    | .accld _ l .. => on (usesLive f l) false
    | .drn _ _ l clear .. => if clear then on (usesLive f l) false else m
    | .swp _ => if f.rowPath then m else (m.2, m.1)
    | _ => m
  let m := ((k.arrayQ ++ k.shadowQ).foldl (fun q j => inOrder j q) []).foldl mark (k.live.red.isSome, k.shadow.red.isSome)
  if usesLive f live then m.1 else m.2

/-- DRN. -/
def execDrn (c : Fin 192) (i : Fin 8) (stall : Nat) (s : State) : Result :=
  issueStep c i stall 0x06 always drnOk1 arrayOk2 (fun f n cmd s =>
    match cmd.args with
    | .drn d0 d1 live _ lay .. =>
      s.withBillets c f cmd.args (drnUses f d0 d1 lay ((s.core c).redAhead f live))
        (vectorsOk f (shapeRows f.shape) (shapeCols f.shape)) fun ents =>
          .run (s.pushJob c (!usesLive f live) (newJob i n cmd ents))
    | _ => .wait) s

/-- Element (r, j) of a drained tile after stage 5, with the rounding of copy `copy` (Table 3.2, R104). -/
def drainElem (k : Core) (f : Frame) (sh : Shape) (set : AccSet) (key : DrawKey) (copy r j : Nat) : Elem :=
  let v := (set.cell (sh.key r j)).val
  if f.outFmt = 14 then ⟨v, false, .rne⟩
  else
    let x2 : StageVal := let (w, o) := toFp32 v; ⟨w, o⟩
    let x5 := k.stages f r j x2
    ⟨x5.v, x5.ovf, roundModeOf f.round key (sh.key r j) copy⟩

/-- Writes the copy whose line n is `line n`: the core and the counts of each line. -/
def Core.writeLines (k : Core) (e : BEntry) (fmt kind lines : Nat) (line : Nat → List Elem) :
    Core × List (List Count) :=
  (List.range lines).foldl (fun acc n =>
    let (sc, r) := outLine fmt kind (line n)
    (acc.1.writeSlice e n (r.map (·.1)) sc, acc.2 ++ [r.map (·.2)])) (k, [])

/-- The drained copies of a tile and its counts, one per element (R64, R65). -/
def Core.drainCopies (k : Core) (f : Frame) (set : AccSet) (key : DrawKey) (lay : BitVec 2) (ents : List BEntry) :
    Core × List Count :=
  let sh := k.shape f
  let rowLine (copy r : Nat) := (List.range f.cols).map fun j => drainElem k f sh set key copy r j
  let colLine (copy j : Nat) := (List.range f.rows).map fun r => drainElem k f sh set key copy r j
  match ents with
  | [] => (k, [])
  | e0 :: rest =>
    if lay = 1 then
      let (k1, cs) := k.writeLines e0 f.outFmt f.outScale f.cols (colLine 1)
      (k1, cs.flatten)
    else
      let (k1, cs) := k.writeLines e0 f.outFmt f.outScale f.rows (rowLine 0)
      match lay = 2, rest with
      | _, e1 :: _ =>
        if lay = 2 then
          let (k2, ds) := k1.writeLines e1 f.outFmt f.outScale f.cols (colLine 1)
          let cnt (r j : Nat) := mergeCount (((cs.getD r []).getD j .none)) ((ds.getD j []).getD r .none)
          (k2, (List.range f.rows).flatMap fun r => (List.range f.cols).map fun j => cnt r j)
        else (k1, cs.flatten)
      | _, [] => (k1, cs.flatten)

/-- The values and indices of a RED tile (R72). -/
def Core.drainLists (k : Core) (f : Frame) (set : AccSet) (key : DrawKey) (depth : Nat) (e0 e1 : BEntry) :
    Core × List Count :=
  let sh := k.shape f
  let (k1, cs) := k.writeLines e0 f.outFmt f.outScale f.rows fun r =>
    (List.range depth).map fun j => drainElem k f sh set key 0 r j
  let idx := (List.range f.rows).flatMap fun r => (List.range depth).flatMap fun j =>
    leBytes 4 (set.cell (sh.key r j)).idx.toNat
  ({ k1 with sp := k1.sp.writeRun e1.addr idx }, cs.flatten)

/-- The set after a DRN: CLEAR leaves a clean zero tile; either way it takes TAG and the complete mark
(R51, R156). -/
def AccSet.drained (a : AccSet) (clear : Bool) (tag : Byte) : AccSet :=
  if clear then { tag := some tag, complete := true }
  else { a with tag := some tag, complete := true }

/-- Any cell of the shape's tile holds the flag. -/
def AccSet.anyFlag (a : AccSet) (p : Cell → Bool) : Bool := a.cells.any fun e => decide (e.1 < 16384) && p e.2

/-- The fault-log entry of an ABFT mismatch (Table 15.1), with CORE_ABFT_STATUS and CORE_ABFT_DETAIL. -/
def State.logAbft (s : State) (c : Fin 192) : State :=
  let k := s.core c
  s.logFault { kind := 0x04, status := stAbft, ctx := k.ctx, unitType := 1, unit := c.val, detail0 := k.rd 0x20208, detail1 := k.rd 0x2020C }

/-- DRN_COMPLETE: every copy is written and every check has been made (R57 to R59, R156). A mark gives ABFT_MISMATCH even
when the set was poisoned before (DESIGN CHOICE, assumption 95). -/
def execDrnComplete (c : Fin 192) (shadow : Bool) (w : Waits) (s0 : State) : Result :=
  match (if shadow then (s0.core c).shadowHead else (s0.core c).arrayHead) with
  | some (j, f) =>
    match j.cmd.args with
    | .drn _ d1 _ clear lay tag key =>
      let s := if shadow then s0.swpOverdue c w.skew else s0
      let k := s.core c
      let sh := k.shape f
      let set := k.setOf (!shadow)
      let marks := if set.red.isSome then []
        else sh.quads.map fun q => (q, set.checkQuad (bitsOf j.tol 7 0) (bitsOf j.tol 12 8) q)
      let skipped := marks.foldl (fun n m => n + m.2.skipped) 0
      let failed := abftRecord marks j.seq
      let dk := s.drawKey f (keyMb (k.mbOf j.slot)) key.toNat
      let dsts := match set.red with
        | some _ => [(j.ents[0]?).getD (k.entry 0), (j.ents[1]?).getD (k.entry d1.toNat)]
        | none => j.ents
      let (k1, cs) := match set.red, dsts with
        | some depth, e0 :: e1 :: _ => k.drainLists f set dk depth e0 e1
        | _, _ => k.drainCopies f set dk lay dsts
      let k2 := (((k1.countTile j.slot (countAll cs)).bumpHalf 0x2030C 0 (b2n (set.anyFlag (·.nf)))).bumpHalf
        0x2030C 16 (b2n (set.anyFlag (·.ovf)))).bump 0x20210 skipped
      let k3 := ((k2.putSet (!shadow) (set.drained clear tag)).spAccess f j).waited (foregroundWaits shadow w)
      let k4 := if shadow then k3 else k3.beats 128
      let st := if failed.isSome then stAbft else if set.poison ≠ 0 then set.poison else stOk
      let k5 := if st = stOk then dsts.foldl (fun k e => k.setPoison e.num 0) k4
        else (dsts.foldl (fun k e => k.poisonBillet e st) k4).condPoisoned j.slot
      let k6 := match failed with
        | some (stat, det) => k5.recordW1C 0x20208 8 stat [(0x2020C, det)]
        | none => k5
      let s1 := (s.setCore c k6).countDraw f
      let s2 := if failed.isSome then (s1.logAbft c).abftQueued c else s1
      .next ((s2.popJob c shadow j st).swpRetry c w.skew)
    | _ => .next s0
  | none => .next s0

end Sys2Proof.Machine
end

