-- ==== Sys2Proof/Machine/Ready.lean ====
section
/-! DEFINITION. Completion counters (R168, R295), what a readiness list waits for (R130), and the LDTs that an
instance waits for (R188). -/

namespace Sys2Proof.Machine

/-- The counter belongs to the context (check 4). -/
def State.counterOpen (s : State) (f : Frame) (n : Nat) : Bool :=
  match ctxOf? f.context with
  | some x => decide ((s.ctx x).ccFirst ≤ n ∧ n < (s.ctx x).ccFirst + (s.ctx x).ccCount)
  | none => false

def State.counter (s : State) (n : Nat) : Word := SMap.get (fun _ => 0) s.cc n

/-- Advances a completion counter, which wraps. -/
def State.bumpCounter (s : State) (n k : Nat) : State :=
  { s with cc := SMap.set (fun _ => 0) s.cc n (s.counter n + BitVec.ofNat 32 k) }

/-- The counter has reached COUNT: (v − COUNT) mod 2³² < 2³¹ (R168). -/
def State.reached (s : State) (n : Nat) (count : Word) : Bool := !(s.counter n - count).msb

/- Readiness (R130). -/

/-- Items in an endpoint's queue. -/
def State.queued (s : State) (ep : Nat) : List QItem :=
  match s.endpoint ep with
  | some (d, e) => ((s.core d).end_ e).queue
  | none => []

/-- Tile loads completed in a load group for a micro-batch. -/
def Core.groupCount (k : Core) (g : Nat) (m : BitVec 16) : Nat :=
  match k.groups.find? fun e => e.1.1.toNat == g && e.1.2 == m with
  | some e => e.2
  | none => 0

/-- A readiness entry holds. -/
def State.entryHolds (s : State) (c : Fin 192) (m : BitVec 16) (r : Ready) : Bool :=
  match r.type with
  | 0 => true
  | 1 => decide (r.count ≤ (s.queued r.object).length)
  | 2 => decide (r.count ≤ (s.core c).groupCount r.object m)
  | 3 => s.reached r.object (BitVec.ofNat 32 r.count)
  | 4 => decide (r.count ≤ (s.core c).car.tiles.length)
  | _ => false

/-- A candidate: slot, instance and frame. -/
structure Cand where
  slot : Fin 8
  inst : Inst
  frame : Frame
  deriving DecidableEq, Repr

/-- The armed instances for a place: array (`true`) or not. -/
def Core.armedFor (k : Core) (array : Bool) : List Cand :=
  allSlots.filterMap fun i =>
    match (k.slot i).inst, k.frame i with
    | some n, some f => if !n.running && (f.accUse != 0) == array then some ⟨i, n, f⟩ else none
    | _, _ => none

/-- LDTs become urgent for which an armed array instance of the owning context waits, all else being ready
(R188). -/
def State.markLate (s : State) (c : Fin 192) : State :=
  ((s.core c).armedFor true).foldl (fun s d =>
    let missing := d.frame.ready.filter fun r => !s.entryHolds c d.inst.mb r
    if (s.core c).owned d.frame && !missing.isEmpty && (missing.all fun r => r.type == 2) then
      s.modCore c fun k => k.makeLate fun j =>
        match j.cmd.args with
        | .ldt _ _ _ _ g => j.mb == d.inst.mb && missing.any fun r => r.object == g.toNat
        | _ => false
    else s) s

/-- The same on every core, for a change that any instance may wait for. -/
def State.markLateAll (s : State) : State := allCores.foldl State.markLate s

end Sys2Proof.Machine
end

