-- ==== Sys2Proof/Machine/Caravan.lean ====
section
/-! DEFINITION. Caravans: the slot check of an OPX (R37, R41, R151), the port's places, forwarding, hold and
its ways out (R191 to R195). -/

namespace Sys2Proof.Machine

/-- A field of the 64 B header of an engine-ready tile (Table 9.4). -/
def tileField (bs : List Byte) (off n : Nat) : Nat := leNat ((bs.drop off).take n)

def tileLayout (bs : List Byte) : Nat := bitsOf (tileField bs 2 1) 2 0

/-- The planes of a caravan tile as the b-feeder reads them: in the frame's operand format, along stored rows,
or stored columns for a column-major tile (R192). -/
def tileStored (f : Frame) (bs : List Byte) : Stored :=
  { mem := Memory.cells 0 (bs.drop 64), base := 0, fmt := f.b.fmt, kind := f.b.scale, layout := tileLayout bs,
    len := 128, slices := 128, tstride := 1 }

def tileVal (f : Frame) (bs : List Byte) (s j : Nat) : Val :=
  (tileStored f bs).feedVal (tileLayout bs != 2) f.b.t (s % 128) j

/-- A member consumes while a slot holds a loaded frame with B_SOURCE 1 (R193). -/
def Core.consumer (k : Core) : Bool :=
  allSlots.any fun i => match k.frame i with
    | some f => f.bCaravan
    | none => false

/-- The oldest tile that no OPX has consumed: the head of the buffer. -/
def Core.carHead (k : Core) : Option CTile := k.car.tiles.find? fun t => !t.consumed

/-- Updates the head tile. -/
def modHead (f : CTile → CTile) : List CTile → List CTile
  | [] => []
  | t :: ts => if t.consumed then t :: modHead f ts else f t :: ts

def Core.setTiles (k : Core) (ts : List CTile) : Core := { k with car := { k.car with tiles := ts } }

/-- Frees places (R193): at a consumer that does not forward, a consumed tile; at a relay that does not
forward, every tile. -/
def Core.freePlaces (k : Core) : Core :=
  if k.car.forward ∨ k.car.state ≠ .bound then k
  else if k.consumer then k.setTiles (k.car.tiles.filter fun t => !t.consumed)
  else k.setTiles []

/-- A port whose RESUME has nothing left to do returns to bound (R195). -/
def Core.settlePort (k : Core) : Core :=
  if k.car.resuming ∧ k.car.owed = 0 ∧ (k.car.tiles.all fun t => !t.consumed) = true then
    { k with car := { k.car with state := .bound, resuming := false } }
  else k

/-- A RESUME at a member that does not forward frees the tiles owed as they come (R195). -/
def Core.resumeTail (k : Core) : Core :=
  if k.car.resuming ∧ k.car.forward = false then
    let ts := k.car.tiles.filter fun t => !t.consumed
    let n := min k.car.owed ts.length
    ({ k with car := { k.car with tiles := ts.drop n, owed := k.car.owed - n } }).settlePort
  else k

/-- The tile that the port may forward now (R193, R195): at a consumer one that has been consumed, at a relay
the oldest; during a RESUME the consumed ones, then those owed. -/
def Core.nextForward (k : Core) : Option CTile :=
  if !k.car.forward then none
  else match k.car.state with
    | .bound => if k.consumer then k.car.tiles.find? (·.consumed) else k.car.tiles.head?
    | .hold =>
      if !k.car.resuming then none
      else match k.car.tiles.find? (·.consumed) with
        | some t => some t
        | none => if k.car.owed = 0 then none else k.car.tiles.head?
    | _ => none

/-- Forwards that tile, when a place is free at NEXT_CORE: its transfer counts and its place is freed (R190, R193). -/
def State.forward (s : State) (c : Fin 192) : Option State :=
  let k := s.core c
  match k.nextForward, coreOf? k.car.next with
  | some t, some d =>
    let n := s.core d
    if n.car.state = .fenced ∨ 4 ≤ n.car.tiles.length + n.car.inbound.length then none
    else
      let s1 := s.modCore c fun k =>
        let owed := if k.car.state = .hold ∧ t.consumed = false then k.car.owed - 1 else k.car.owed
        let k1 := { k with car := { k.car with tiles := k.car.tiles.erase t, owed := owed } }
        (((k1.bump 0x2062C 1).bump64 0x2061C (max 1 (ceilDiv t.bytes.length 256)))).settlePort
      let sent := { t with consumed := false, forwarded := false }
      some (s1.modCore d fun n => { n with car := { n.car with inbound := n.car.inbound ++ [(c.val, sent)] } })
  | _, _ => none

/-- Forwards the tiles that the port has consumed, as far as places are free: a poison token's forwarding begins as it is
consumed, before the port goes into hold (R194, R195). -/
def State.forwardConsumed : Nat → State → Fin 192 → State
  | 0, s, _ => s
  | fuel + 1, s, c =>
    if ((s.core c).car.tiles.any fun t => t.consumed) && (s.core c).car.state == .bound && (s.core c).consumer then
      match s.forward c with
      | some t => t.forwardConsumed fuel c
      | none => s
    else s

/- The slot check. -/

/-- An OPX that fails its slot check (R41): the live tile and the head tile are poisoned, the failure is
recorded, the port holds. -/
def State.opxFail (s : State) (c : Fin 192) (j : Job) (f : Frame) (tc : Nat) (wrongTag : Bool) (expected found : Nat) :
    State :=
  let s1 := s.recordSkew c true f.tolerant wrongTag expected found j.seq
  (s1.modCore c fun k =>
    let mark (t : CTile) : CTile := if t.poison = 0 then { t with poison := stSkew } else t
    let k1 := (k.setTiles (modHead mark k.car.tiles)).carHold (tc - j.tile)
    (({ k1 with live := k1.live.taint stSkew, arrayQ := k1.arrayQ.tail }).condPoisoned j.slot).cmdEnded
      j.slot j.seq 0x01 false stSkew).startEngines c

/-- The check of tile `j.tile` (Table 2.6, R151): none while it waits. A poison token at a passing check poisons
the live tile and fails the OPX with its status (R194). -/
def State.slotCheck (s : State) (c : Fin 192) (j : Job) (f : Frame) (kk first : Nat) (m : BitVec 4) (bl : Bool) : State :=
  let k := s.core c
  let tc := caravanTiles kk
  let expected := (first + j.tile) % 2 ^ 16
  match k.carHead with
  | none =>
    if j.tile = 0 then s
    else if f.tolerant then s.modCore c fun k => { k with arrayQ := { j with waiting := true } :: k.arrayQ.tail }
    else s.opxFail c j f tc false expected 0xFFFF
  | some t =>
    if t.tag.toNat ≠ expected then s.opxFail c j f tc true expected t.tag.toNat
    else
      let used (t : CTile) : CTile := { t with consumed := true }
      let bits := if j.tile = 0 then k.mask[m.toNat]'m.isLt else j.mask
      let k1 := k.setTiles (modHead used k.car.tiles)
      let k2 := if j.tile = 0 then k1.condMaskEmpty j.slot (MaskSel.none ⟨bits, bl⟩) else k1
      if t.poison ≠ 0 then
        ((((s.setCore c k2.freePlaces).forwardConsumed 4 c).modCore c fun k =>
          let k3 := k.carHold (tc - j.tile - 1)
          let k4 := ({ k3 with live := k3.live.taint t.poison, arrayQ := k3.arrayQ.tail }).condPoisoned j.slot
          k4.cmdEnded j.slot j.seq 0x01 false t.poison)).startEngines c
      else
        let k3 := match j.ents with
          | ea :: _ =>
            let n := min 128 (kk - 128 * j.tile)
            k2.accumulate f ⟨bits, bl⟩ (opxPositions k2 f ea (128 * j.tile) n fun s e => tileVal f t.bytes s e)
          | [] => k2
        let j1 := { j with tile := j.tile + 1, waiting := false, mask := bits }
        s.setCore c ({ k3.freePlaces with arrayQ := j1 :: k3.arrayQ.tail })

/-- CARAVAN_SLOT_CHECK: the OPX at the head of the array meets its next tile. Tile 0 is a handshake: while the
buffer is empty this is not the event, and its wait is a feed wait (R54). The beats up to a later slot are counted as the slot is
reached, whatever its check finds (R23). -/
def execCaravanSlotCheck (c : Fin 192) (w : Waits) (s : State) : Result :=
  match (s.core c).arrayHead with
  | some (j, f) =>
    match j.cmd.args with
    | .opx _ _ kk m bl tag first stride =>
      if !f.bCaravan || j.waiting || decide (caravanTiles kk.toNat ≤ j.tile) then .next s
      else if j.tile = 0 ∧ (s.core c).carHead = none then .next s
      else
        let s1 := s.modCore c fun k => (k.slotBeats f j.tile first.toNat stride.toNat).waited w
        .next (s1.slotCheck c j f kk.toNat tag.toNat m bl)
    | _ => .next s
  | none => .next s

/-- An OPX whose tolerant wait reaches CORE_SKEW_LIMIT fails as late (Table 2.6). -/
def State.opxLimit (s : State) (c : Fin 192) (j : Job) (f : Frame) (kk tag : Nat) : State :=
  let be := (s.core c).skewLimit
  let s1 := (s.skewTime c be).modCore c fun k => { k with skewStall := k.skewStall + be }
  s1.opxFail c j f (caravanTiles kk) false ((tag + j.tile) % 2 ^ 16) 0xFFFF

/-- An OPX that waits for a tile and has waited `be` fails when that reaches CORE_SKEW_LIMIT. -/
def State.opxOverdue (s : State) (c : Fin 192) (be : Nat) : State :=
  match (s.core c).arrayHead with
  | some (j, f) =>
    match j.cmd.args with
    | .opx _ _ kk _ _ tag .. => if j.waiting ∧ (s.core c).skewLimit ≤ be then s.opxLimit c j f kk.toNat tag.toNat else s
    | _ => s
  | none => s

/-- SKEW_LIMIT_EXPIRY: a tolerant wait reaches CORE_SKEW_LIMIT and fails (Table 2.6). -/
def execSkewLimitExpiry (c : Fin 192) (s : State) : Result :=
  match (s.core c).arrayHead with
  | some (j, f) =>
    if !j.waiting then .next s
    else match j.cmd.args with
      | .swp tag => .next (s.swpLimit c j f tag)
      | .opx _ _ kk _ _ tag .. => .next (s.opxLimit c j f kk.toNat tag.toNat)
      | _ => .next s
  | none => .next s

/-- Puts a tile into the buffer; an OPX that waits for it in tolerant mode checks it after `skewBE`, unless that is as long
as the limit. -/
def State.tilePresent (s : State) (c : Fin 192) (t : CTile) (skewBE : Nat) : State :=
  let s1 := (s.opxOverdue c skewBE).modCore c fun k => ((k.setTiles (k.car.tiles ++ [t])).freePlaces).resumeTail
  match (s1.core c).arrayHead with
  | some (j, f) =>
    match j.cmd.args with
    | .opx _ _ kk m bl first .. =>
      if j.waiting then
        let s2 := (s1.skewTime c skewBE).modCore c fun k => { k with skewStall := k.skewStall + skewBE }
        s2.slotCheck c { j with waiting := false } f kk.toNat first.toNat m bl
      else s1.markLate c
    | _ => s1.markLate c
  | none => s1.markLate c

/-- CARAVAN_TILE_ARRIVE: the first transfer of the next tile on the mesh arrives and the tile is present. A tile
from a core that another context holds is discarded (R191). -/
def execCaravanTileArrive (c : Fin 192) (w : Waits) (s : State) : Result :=
  let k := s.core c
  match k.car.inbound with
  | [] => .next s
  | (src, t) :: rest =>
    if k.car.state = .fenced then .next s
    else
      let s1 := s.modCore c fun k => { k with car := { k.car with inbound := rest } }
      let same := match coreOf? src with
        | some p => (s.core p).ctx == k.ctx && k.ctx.isSome
        | none => false
      .next (if same then (s1.modCore c fun k => k.waited w).tilePresent c t w.skew else s1)

/-- CARAVAN_FORWARD: a tile is forwarded to NEXT_CORE once a place is free there, and its place is freed. -/
def execCaravanForward (c : Fin 192) (w : Waits) (s : State) : Result :=
  .next (match s.forward c with
    | some t => t.modCore c fun k => k.waited w
    | none => s)

/- The ways out of hold (R195), and UNBIND (R198). -/

def Core.carResume (k : Core) : Core :=
  if k.car.state = .hold then (({ k with car := { k.car with resuming := true } }).resumeTail).settlePort else k

def Core.carFlush (k : Core) : Core :=
  if k.car.state = .hold then
    { k with car := { k.car with state := .bound, resuming := false, owed := 0, tiles := [] } }
  else k

def Core.carUnbind (k : Core) : Core :=
  if k.car.state = .bound ∧ k.car.tiles = [] then { k with car := { inbound := k.car.inbound } } else k

/-- Whether a writer's writes reach a unit of context `x`: the physical function, the Gatehouse, or the
function that owns the context (R124, R198). -/
def State.owns (s : State) (w : Who) (x : Option (Fin 64)) : Bool :=
  match w, x with
  | .gate, _ => true
  | .fn f, some x => f == 0 || (s.ctx x).fn == f.val && (s.ctx x).state != .closed
  | .fn f, none => f == 0

/-- A write to a core register of Chapters 5 and 7 by a writer that reaches it; a fused-off core discards
writes (R4). -/
def State.coreWrite (s : State) (w : Who) (c : Fin 192) (f : Core → Core) : Result :=
  if s.owns w (s.core c).ctx && (s.core c).role != 2 then .next (s.modCore c f) else .next s

/-- RESUME. -/
def execResume (w : Who) (c : Fin 192) (s : State) : Result := s.coreWrite w c Core.carResume

/-- FLUSH. -/
def execFlush (w : Who) (c : Fin 192) (s : State) : Result := s.coreWrite w c Core.carFlush

/-- UNBIND. -/
def execUnbind (w : Who) (c : Fin 192) (s : State) : Result := s.coreWrite w c Core.carUnbind

/-- A write of CORE_CARAVAN_CTL; more than one of its bits set discards it whole (R195). -/
def Core.carCtl (k : Core) (v : Nat) : Core :=
  match v % 8 with
  | 1 => k.carResume
  | 2 => k.carFlush
  | 4 => k.carUnbind
  | _ => k

end Sys2Proof.Machine
end

