-- ==== Sys2Proof/Machine/Tiles.lean ====
section
/-! DEFINITION. Engine-ready tiles (R228 to R232): digest, header, planes, regrouping between layouts, and
the compression codes of the cellar (R233 to R235). -/

namespace Sys2Proof.Machine

/- CRC-64 (R230). -/

/-- One bit of the CRC: polynomial 0x42F0_E1EB_A9EA_3693, no reflection. -/
def crc64Bit (x : BitVec 64) : BitVec 64 := if x.msb then (x <<< 1) ^^^ 0x42F0E1EBA9EA3693#64 else x <<< 1

def crc64Byte (x : BitVec 64) (b : Byte) : BitVec 64 :=
  let y := x ^^^ (b.setWidth 64 <<< 56)
  crc64Bit (crc64Bit (crc64Bit (crc64Bit (crc64Bit (crc64Bit (crc64Bit (crc64Bit y)))))))

/-- CRC-64 with initial value 0 and no final inversion (R230). -/
def crc64 (bs : List Byte) : BitVec 64 := bs.foldl crc64Byte 0

/- Headers (Table 9.4). -/

def tileVersion (bs : List Byte) : Nat := tileField bs 0 1
def tileFmt (bs : List Byte) : Nat := bitsOf (tileField bs 1 1) 4 0
def tileScale (bs : List Byte) : Nat := bitsOf (tileField bs 1 1) 6 5
def tileComp (bs : List Byte) : Nat := bitsOf (tileField bs 3 1) 3 0
def tileRows (bs : List Byte) : Nat := tileField bs 4 2
def tileCols (bs : List Byte) : Nat := tileField bs 6 2
def tileGen (bs : List Byte) : Nat := tileField bs 8 2
def tileStoredBytes (bs : List Byte) : Nat := tileField bs 0x0C 4
def tileDigest (bs : List Byte) : Nat := tileField bs 0x38 8

/-- Bytes of the element plane and of the scale plane of a whole tile (R228). -/
def elemPlane (fmt : Nat) : Nat := 16384 * fmtBits fmt / 8

def scalePlane (fmt kind : Nat) : Nat := if fmt = 13 ∨ kind = 1 then 512 else if kind = 2 then 1024 else 0

def planes (fmt kind : Nat) : Nat := elemPlane fmt + scalePlane fmt kind

/-- Bytes of a whole tile with its header, uncompressed. -/
def tileBytes (fmt kind : Nat) : Nat := 64 + planes fmt kind

/-- The digest of a tile (R230). -/
def digestOf (bs : List Byte) : Nat :=
  let b3 := BitVec.ofNat 8 (tileField bs 3 1 / 16 * 16)
  let head := bs.take 3 ++ (b3 :: (((bs.drop 4).take 8) ++ (List.replicate 4 0 ++ (bs.drop 16).take 40)))
  (crc64 (head ++ bs.drop 64)).toNat

/-- A header that R231 finds valid. A tile is delivered with COMP 0, so another code is invalid here. -/
def headerValid (bs : List Byte) : Bool :=
  tileVersion bs == 1 && !bitOf (tileField bs 1 1) 7 && decide (tileField bs 2 1 < 8) && decide (tileField bs 3 1 < 16) &&
    tileField bs 0x0A 2 == 0 && ((bs.drop 0x10).take 40).all (· == 0) && fmtDefined (tileFmt bs) && scaleOk (tileFmt bs) (tileScale bs) &&
    decide (1 ≤ tileLayout bs ∧ tileLayout bs ≤ 3) && tileComp bs == 0 &&
    decide (1 ≤ tileRows bs ∧ tileRows bs ≤ 128) && decide (1 ≤ tileCols bs ∧ tileCols bs ≤ 128) &&
    tileStoredBytes bs == planes (tileFmt bs) (tileScale bs)

/-- The digest of the header matches the tile. -/
def digestOk (bs : List Byte) : Bool := tileDigest bs == digestOf bs

/-- The header that STT builds (R232), with the digest over `ps`. -/
def buildTile (fmt kind layout rows cols gen : Nat) (ps : List Byte) : List Byte :=
  let head := leBytes 1 1 ++ (leBytes 1 (fmt + kind * 32) ++ (leBytes 1 layout ++ (leBytes 1 0 ++
    (leBytes 2 rows ++ (leBytes 2 cols ++ (leBytes 2 gen ++ (leBytes 2 0 ++ leBytes 4 (planes fmt kind))))))))
  let h56 := head ++ List.replicate 40 0
  let d := digestOf (h56 ++ (List.replicate 8 0 ++ ps))
  h56 ++ (leBytes 8 d ++ ps)

/- Planes between layouts (R177, Table 9.5). -/

/-- Row and column of the element at each place of a skewed tile's element plane. -/
def skewOrder : List (Nat × Nat) :=
  (List.range 64).flatMap fun slot =>
    let r := slot / 8
    let c := (slot % 8 + 8 - r) % 8
    (List.range 256).map fun e => (16 * r + e / 16, 16 * c + e % 16)

/-- The same for a row-major tile. -/
def rowOrder : List (Nat × Nat) := (List.range 128).flatMap fun i => (List.range 128).map fun j => (i, j)

/-- The element plane of a tile in the order of layout `dst`; row-major and skewed are regrouped, and
column-major stays as it is. -/
def regroup (fmt src dst : Nat) (plane : List Byte) : List Byte :=
  if src = dst then plane
  else
    let m : Stored := { mem := Memory.cells 0 plane, base := 0, fmt := fmt, kind := 0, layout := src, len := 128,
                        slices := 128, tstride := 1 }
    let order := if dst = 3 then skewOrder else rowOrder
    packBits (fmtBits fmt) (order.map fun p => (m.feed true p.1 p.2).1)

/-- The destinations that Table 9.5 lists for a tile layout. -/
def layoutPair (tile : Nat) (e : BEntry) : Bool :=
  e.layout == 4 || (e.layout == 3 && tile != 2) || (e.len == 128 && e.layout == (if tile = 2 then 2 else 1))

/-- Byte places of the element plane and scale plane of the first tile of a billet, relative to its base. -/
def BEntry.scaleAt (e : BEntry) : Nat :=
  if e.layout = 3 then 64 * skewLines e.fmt * 64 else lineUp (planeBytes e.fmt (e.slices * e.len))

/-- A billet that holds both planes of a whole tile (R231, R232). -/
def BEntry.holdsTile (e : BEntry) : Bool :=
  if e.layout = 3 then e.fmt != 13 && e.fmt != 14 && decide (skewTileLines e.fmt e.scale * 64 ≤ e.extent)
  else (e.layout == 1 || e.layout == 2) && e.len == 128 && decide (128 ≤ e.slices)

/-- Places a tile in a billet. -/
def Core.placeTile (k : Core) (e : BEntry) (bs : List Byte) : Core :=
  let ps := bs.drop 64
  let n := elemPlane e.fmt
  let m1 := k.sp.writeRun e.addr (regroup e.fmt (tileLayout bs) e.layout (ps.take n))
  { k with sp := if scalePlane e.fmt e.scale = 0 then m1 else m1.writeRun (e.addr + e.scaleAt) (ps.drop n) }

/-- The planes of a billet as a tile carries them. -/
def Core.takePlanes (k : Core) (e : BEntry) : List Byte :=
  k.sp.readRun e.addr (elemPlane e.fmt) ++ k.sp.readRun (e.addr + e.scaleAt) (scalePlane e.fmt e.scale)

/- Compression (R233 to R235). -/

/-- Zero bytes up to a multiple of 64. -/
def padLine (bs : List Byte) : List Byte := bs ++ List.replicate (lineUp bs.length - bs.length) 0

/-- Exponent field and residue of an element of `w` bytes (R234). -/
def expoOf (w x : Nat) : Nat := if w = 2 then x / 2 ^ 7 % 256 else x / 2 ^ 23 % 256
def residueOf (w x : Nat) : Nat := if w = 2 then x / 2 ^ 15 * 2 ^ 7 + x % 2 ^ 7 else x / 2 ^ 31 * 2 ^ 23 + x % 2 ^ 23

/-- The element of an exponent and a residue. -/
def joinExpo (w e r : Nat) : Nat :=
  if w = 2 then r / 2 ^ 7 * 2 ^ 15 + e * 2 ^ 7 + r % 2 ^ 7 else r / 2 ^ 23 * 2 ^ 31 + e * 2 ^ 23 + r % 2 ^ 23

/-- The base, the width and the deltas of a group of exponents. -/
def expGroup (xs : List Nat) : List Byte :=
  let lo := xs.foldl min 255
  let span := xs.foldl max 0 - lo
  let w := if span = 0 then 0 else Nat.log2 span + 1
  leBytes 1 lo ++ (leBytes 1 w ++ packBits w (xs.map (· - lo)))

/-- Exponent-plane code of a plane of format `fmt` (R234). -/
def expEncode (fmt : Nat) (plane : List Byte) : List Byte :=
  let w := fmtBits fmt / 8
  let es := (chunks w 16384 plane).map leNat
  padLine (((chunks 16 1024 (es.map (expoOf w))).flatMap expGroup) ++ es.flatMap fun x => leBytes (w - 1) (residueOf w x))

/-- The exponents of `n` groups of 16 at the front of a stream, and the bytes after them. -/
def expGroupsOf : Nat → List Byte → List Nat × List Byte
  | 0, bs => ([], bs)
  | n + 1, bs =>
    let lo := tileField bs 0 1
    let w := tileField bs 1 1 % 16
    let v := leNat ((bs.drop 2).take (2 * w))
    let (es, rest) := expGroupsOf n (bs.drop (2 + 2 * w))
    (((List.range 16).map fun i => lo + v / 2 ^ (i * w) % 2 ^ w) ++ es, rest)

/-- The plane of an exponent-plane code. -/
def expDecode (fmt : Nat) (bs : List Byte) : List Byte :=
  let w := fmtBits fmt / 8
  let (es, rest) := expGroupsOf 1024 bs
  (es.zip (chunks (w - 1) 16384 rest)).flatMap fun p => leBytes w (joinExpo w p.1 (leNat p.2))

/-- Runs of equal flags, of at most 128, with their values. -/
def runsOf {α : Type} (p : α → Bool) : List α → List (Bool × List α)
  | [] => []
  | x :: xs =>
    match runsOf p xs with
    | (b, r) :: rs => if b = p x ∧ r.length < 128 then (b, x :: r) :: rs else (p x, [x]) :: (b, r) :: rs
    | [] => [(p x, [x])]

/-- Zero-run code of a plane in 16 B words (R235). -/
def zrunEncode (plane : List Byte) : List Byte :=
  padLine ((runsOf (fun w => w.all (· == 0)) (chunks 16 (plane.length / 16) plane)).flatMap fun r =>
    if r.1 then leBytes 1 (r.2.length - 1) else leBytes 1 (0x80 + (r.2.length - 1)) ++ r.2.flatten)

/-- The first `words` words of a zero-run code; `fuel` bounds its control bytes. -/
def zrunDecode : Nat → Nat → List Byte → List Byte
  | 0, _, _ => []
  | fuel + 1, words, bs =>
    match words, bs with
    | 0, _ => []
    | _, [] => []
    | words, c :: rest =>
      let n := min words (c.toNat % 128 + 1)
      if c.toNat < 128 then List.replicate (16 * n) 0 ++ zrunDecode fuel (words - n) rest
      else rest.take (16 * n) ++ zrunDecode fuel (words - n) (rest.drop (16 * n))

/-- The codes that Table 9.6 permits for a plane of format `fmt`, with their streams. -/
def planeCodes (fmt : Nat) (plane : List Byte) : List (Nat × List Byte) :=
  (if fmt ≤ 2 then [(1, expEncode fmt plane)] else []) ++ (if fmtBits fmt = 4 then [] else [(2, zrunEncode plane)])

/-- The code under which a cellar channel stores a plane (R233): the smallest, the lower on a tie. -/
def planeCode (fmt : Nat) (plane : List Byte) : Nat × List Byte :=
  (planeCodes fmt plane).foldl (fun b c => if c.2.length < b.2.length then c else b) (0, plane)

/-- A header with another COMP and STORED_BYTES. -/
def withComp (h : List Byte) (comp stored : Nat) : List Byte :=
  h.take 3 ++ (BitVec.ofNat 8 (tileField h 3 1 / 16 * 16 + comp) :: ((h.drop 4).take 8 ++ (leBytes 4 stored ++ h.drop 16)))

/-- A tile as a cellar channel stores it (R233): the element plane coded, the scale plane as it is. -/
def cellarEncode (bs : List Byte) : List Byte :=
  let fmt := tileFmt bs
  let n := elemPlane fmt
  let c := planeCode fmt ((bs.drop 64).take n)
  let body := c.2 ++ (bs.drop 64).drop n
  withComp (bs.take 64) c.1 body.length ++ body

/-- COMP and STORED_BYTES under which a cellar channel stores a tile. -/
def cellarCode (bs : List Byte) : Nat × Nat := (tileComp (cellarEncode bs), tileStoredBytes (cellarEncode bs))

/-- A stored tile as the channel delivers it (R233): COMP 0, STORED_BYTES the plane sizes, the planes decoded. A header that
names no code of Table 9.6 delivers the bytes as they are. -/
def cellarDecode (bs : List Byte) : List Byte :=
  let fmt := tileFmt bs
  let body := bs.drop 64
  let n := elemPlane fmt
  let sc := scalePlane fmt (tileScale bs)
  let used := tileStoredBytes bs - sc
  let deliver (plane : List Byte) : List Byte :=
    withComp (bs.take 64) 0 (planes fmt (tileScale bs)) ++ (plane ++ (body.drop used).take sc)
  match tileComp bs with
  | 1 => if fmt ≤ 2 then deliver (expDecode fmt (body.take used)) else bs
  | 2 => if fmtBits fmt = 4 then bs else deliver (zrunDecode (n / 16 + 1) (n / 16) (body.take used))
  | _ => bs

end Sys2Proof.Machine
end

