-- ==== Sys2Proof/Machine/Memory.lean ====
section
/-! DEFINITION. Reads and writes of the memory tiers by region (Chapter 9): the tile directory, cellar tiles, poison and the start
of a refetch, the stash window. -/

namespace Sys2Proof.Machine

/- The directory (R237, R238). -/

def dirDefault (_ : Nat) : DirEnt := {}

def State.dirAt (s : State) (slot : Nat) : DirEnt := SMap.get dirDefault s.dir slot

def State.setDir (s : State) (slot : Nat) (d : DirEnt) : State := { s with dir := SMap.set dirDefault s.dir slot d }

/-- The state a written slot takes: DIRTY, which kinds 1 and 3 read as CLEAN (R237). -/
def Region.dirty (r : Region) : SlotSt := if r.kind = 2 then .dirty else .clean

/-- The element and scale planes of the tile can be told from its header. -/
def headerSane (bs : List Byte) : Bool := fmtDefined (tileFmt bs) && scaleOk (tileFmt bs) (tileScale bs)

/-- Bytes of a tile by its header. -/
def headerBytes (bs : List Byte) : Nat := tileBytes (tileFmt bs) (tileScale bs)

/-- A write from the slot's base covers it whole: every granule of the header and both planes (R237). -/
def coversWhole (bs : List Byte) : Bool := decide (64 ≤ bs.length) && headerSane bs && decide (headerBytes bs ≤ bs.length)

/- Cellar tiles (R233). -/

/-- The bytes of a slot as its channel delivers them. -/
def State.delivered (s : State) (r : Region) (slot : Nat) : List Byte :=
  let bs := s.mem.readRun slot r.slotBytes
  if r.kind = 3 then cellarDecode bs else bs

/-- Writes a tile to the cellar, coded where its header tells its planes. -/
def State.storeTile (s : State) (a : Nat) (bs : List Byte) : State :=
  s.putFull a (if headerSane bs ∧ headerBytes bs ≤ bs.length then cellarEncode (bs.take (headerBytes bs)) else bs)

/-- `old` with `bs` in place from `off` on. -/
def splice (old : List Byte) (off : Nat) (bs : List Byte) : List Byte :=
  old.take off ++ (List.replicate (off - old.length) 0 ++ (bs ++ old.drop (off + bs.length)))

/-- The bytes of a range of a region as its channels deliver them. -/
def State.rangeBytes (s : State) (r : Region) (a n : Nat) : List Byte :=
  if r.kind = 3 then
    let base := r.slotBase a
    let all := (r.slotsOf a n).flatMap fun slot =>
      let d := s.delivered r slot
      d ++ List.replicate (r.slotBytes - d.length) 0
    (all.drop (a - base)).take n
  else s.mem.readRun a n

/-- Bytes of a tile that its slot holds in memory: in the cellar the header and STORED_BYTES. -/
def State.storedAt (s : State) (a n : Nat) : Nat := min n (64 + tileStoredBytes (s.mem.readRun a 64))

/- Writes (Table 9.7). -/

/-- A write within one slot (Table 9.7): a partial one to a REFETCHING slot waits for the refetch. -/
def State.writeSlot (s : State) (r : Region) (a : Nat) (bs : List Byte) : State :=
  let slot := r.slotBase a
  let whole := a == slot && coversWhole bs
  let d := s.dirAt slot
  if d.st = .refetching ∧ whole = false then
    let put (f : Refetch) : Refetch :=
      if f.slot = slot ∧ f.overtaken = false then { f with writes := f.writes ++ [(a, bs)] } else f
    { s with refetches := s.refetches.map put }
  else
    let s1 := if r.kind = 3 then s.storeTile slot (if whole then bs else splice (s.delivered r slot) (a - slot) bs)
      else s.putBytes a bs
    let st := if whole ∨ d.st ≠ .poisoned then r.dirty else .poisoned
    let h := s1.mem.readRun slot 64
    let gen := if a < slot + 64 then tileGen h else d.gen
    let code := if r.kind = 3 then (tileComp h, tileStoredBytes h) else (d.comp, d.stored)
    let s2 := s1.setDir slot { st := st, gen := gen, comp := code.1, stored := code.2 }
    let pass (f : Refetch) : Refetch := if f.slot = slot then { f with overtaken := true } else f
    if d.st = .refetching then { s2 with refetches := s2.refetches.map pass } else s2

/-- Cuts a run of bytes at slot boundaries; `off` is its offset in the region. -/
def slotPieces (slotBytes : Nat) : Nat → Nat → List Byte → List (Nat × List Byte)
  | 0, _, _ => []
  | fuel + 1, off, bs =>
    if bs = [] then []
    else
      let n := slotBytes - off % slotBytes
      (off, bs.take n) :: slotPieces slotBytes fuel (off + n) (bs.drop n)

/-- A write that reaches its region. -/
def State.writeIn (s : State) (r : Region) (a : Nat) (bs : List Byte) : State :=
  if r.tiled then
    (slotPieces r.slotBytes bs.length (a - r.base) bs).foldl (fun s p => s.writeSlot r (r.base + p.1) p.2) s
  else s.putBytes a bs

/-- A write from another source than a core: discarded and counted per granule in a read-only region (R226). -/
def State.writeOther (s : State) (r : Region) (a : Nat) (bs : List Byte) : State :=
  if r.ro then (granules a bs.length).foldl (fun s g => s.modChan (chanOf (64 * g)) fun k => k.bump 0x30024 1) s
  else s.writeIn r a bs

/- Poison and the start of a refetch (R240, R241). -/

/-- The home copy is a refetch source for a fault in a CLEAN near copy of a tiered slot (R240). -/
def Region.hasHome (r : Region) (st : SlotSt) : Bool := r.kind == 2 && st == .clean

/-- The region's mirror is a refetch source; a host's is not while its lease has expired (R240), nor while the region's
context is orphaned (R360). -/
def State.hasMirror (s : State) (r : Region) : Bool :=
  match r.mirror with
  | .none => false
  | .peer .. => true
  | .host f _ => (s.fn (fnOf f)).lease != .expired && (match r.owner with
    | some x => !(s.ctx x).orphaned
    | none => true)

/-- Asks a mirror for the slot of refetch `serial`: a peer by READ_REQs of at most 4 KiB (R241, R281), the host by memory
reads. The stream is the model's choice. -/
def State.askMirror (s : State) (r : Region) (serial slot : Nat) : State :=
  match r.mirror with
  | .peer ep win gen off =>
    let base := off + (slot - r.base)
    (List.range (ceilDiv r.slotBytes 4096)).foldl (fun s n =>
      let (q, s1) := s.nextSeq 0
      let h : Hdr := { type := 1, dest := ep, seq := q, stream := 0, window := win, gen := gen, offset := base + 4096 * n,
                       length := min 4096 (r.slotBytes - 4096 * n) }
      s1.send (h.packet []) (some { stream := 0, seq := q, left := 1, by_ := .refetch serial (4096 * n) })) s
  | .host f a => { s with out := s.out ++ [.hostRead f (a + (slot - r.base)) r.slotBytes] }
  | .none => s

/-- Requests that a refetch from a mirror makes. -/
def Region.mirrorAsks (r : Region) : Nat :=
  match r.mirror with
  | .peer .. => ceilDiv r.slotBytes 4096
  | .host .. => 1
  | .none => 0

/-- The refetches that a die runs: the oldest 8 (R241). -/
def State.runningRefetches (s : State) (die : Nat) : List Refetch :=
  (s.refetches.filter fun f => dieOf f.slot == die).take 8

/-- Sends the requests of the running refetches of a die whose source is a mirror. -/
def State.startRefetches (s : State) (die : Nat) : State :=
  (s.runningRefetches die).foldl (fun s f =>
    match s.regionAt f.slot 1 with
    | some r =>
      if f.home = false ∧ f.asked = 0 ∧ s.hasMirror r = true then
        let mark (g : Refetch) : Refetch := if g.serial = f.serial then { g with asked := r.mirrorAsks } else g
        ({ s with refetches := s.refetches.map mark }).askMirror r f.serial f.slot
      else s
    | none => s) s

/-- A data fault in a slot that is CLEAN or DIRTY: a refetch where a source is available, else POISONED
(Table 9.7). The granules found bad stay unreadable until they are written whole. -/
def State.faultSlot (s : State) (r : Region) (slot : Nat) (bad : List Nat) : State :=
  let d := s.dirAt slot
  let s1 := s.markGrans bad
  let home := r.hasHome d.st
  if home || s.hasMirror r then
    let s2 := s1.setDir slot { d with st := .refetching }
    let f : Refetch :=
      { serial := s.refetchNo, slot := slot, prior := d.st, overtaken := false, writes := [], home := home, asked := 0, got := [], failed := false }
    let s3 : State := { s2 with refetches := s2.refetches ++ [f], refetchNo := s2.refetchNo + 1 }
    s3.startRefetches (dieOf slot)
  else (s1.setDir slot { d with st := .poisoned }).logChan (chanOf slot) 0x03 stWeightPoison r.owner

/- Reads. -/

/-- What a reader of a slot must do. -/
inductive SlotRead where
  | ok | bad | wait (slot : Nat)
  deriving DecidableEq, Repr

def SlotRead.join : SlotRead → SlotRead → SlotRead
  | .wait n, _ => .wait n
  | _, .wait n => .wait n
  | .bad, _ => .bad
  | _, .bad => .bad
  | .ok, .ok => .ok

/-- A reader reaches the part of `[a, a + n)` that lies in one slot. -/
def State.readSlot (s : State) (r : Region) (slot a n : Nat) : SlotRead × State :=
  match (s.dirAt slot).st with
  | .refetching => (.wait slot, s)
  | .poisoned => (.bad, s)
  | _ =>
    let lo := max a slot
    let hi := min (a + n) (slot + r.slotBytes)
    let (bad, s1) := s.decodeGrans (granules lo (hi - lo))
    if bad = [] then (.ok, s1)
    else
      let s2 := s1.faultSlot r slot bad
      (if (s2.dirAt slot).st = .refetching then .wait slot else .bad, s2)

/-- A raw read of a range of one region (R242): a bad raw granule fails it at once. -/
def State.readRaw (s : State) (r : Region) (a n : Nat) : SlotRead × State :=
  if r.tiled then
    (r.slotsOf a n).foldl (fun p slot =>
      let (o, t) := p.2.readSlot r slot a n
      (p.1.join o, t)) (.ok, s)
  else
    let (bad, s1) := s.decodeGrans (granules a n)
    match bad with
    | [] => (.ok, s1)
    | g :: _ => (.bad, s1.logChan (chanOf (64 * g)) 0x03 stWeightPoison r.owner)

/-- The tile in a slot as it is delivered, by its header; the header alone where it tells no size. -/
def State.tileAt (s : State) (r : Region) (slot : Nat) : List Byte :=
  let h := s.mem.readRun slot 64
  if headerSane h ∧ headerBytes h ≤ r.slotBytes then (if r.kind = 3 then s.delivered r slot else s.mem.readRun slot (headerBytes h)).take (headerBytes h)
  else h

/-- Bytes that a read of the tile in a slot takes from memory. -/
def State.tileSpan (s : State) (r : Region) (slot : Nat) : Nat :=
  if r.kind = 3 then s.storedAt slot r.slotBytes else (s.tileAt r slot).length

/-- A tile read of a slot (R231): its granules, then the digest; a mismatch is a data fault. -/
def State.readTile (s : State) (r : Region) (slot : Nat) : LoadData × State :=
  let bs := s.tileAt r slot
  match s.readSlot r slot slot (s.tileSpan r slot) with
  | (.wait n, t) => (.refetching n, t)
  | (.bad, t) => (.bad, t)
  | (.ok, t) =>
    if headerSane bs ∧ digestOk bs = false then
      let t1 := t.faultSlot r slot []
      (if (t1.dirAt slot).st = .refetching then .refetching slot else .bad, t1)
    else (.bytes bs, t)

/- The stash window (R209, R210). -/

/-- The memory address of byte `o` of a micro-batch's stash: none in an extent never allocated. -/
def Mb.stashAddr (m : Mb) (o : Nat) : Option Nat :=
  if o < m.resv * 2 ^ 20 then (m.resvBase[o / 2 ^ 20]?).map (· + o % 2 ^ 20)
  else
    let p := o - m.resv * 2 ^ 20
    (m.extents.find? fun e => e.1 == p / 65536).map fun e => e.2 + p % 65536

/-- Places of the granules of a stash range. -/
def Mb.stashGrans (m : Mb) (o n : Nat) : List (Option Nat) := (List.range (n / 64)).map fun i => m.stashAddr (o + 64 * i)

/-- The bytes at places: zeros where nothing was allocated. -/
def State.placesBytes (s : State) (gs : List (Option Nat)) : List Byte :=
  gs.flatMap fun
    | some a => s.mem.readRun a 64
    | none => List.replicate 64 0

/-- Tile-mode accesses at this offset are coded: the tile begins in the overflow stash (R210, assumption 109). -/
def Mb.stashCoded (m : Mb) (o : Nat) : Bool := decide (m.resv * 2 ^ 20 ≤ o)

/-- Granules that a read of `n` bytes takes: of a coded tile the header and STORED_BYTES. -/
def State.stashSpan (s : State) (m : Mb) (o n : Nat) (tile : Bool) : List (Option Nat) :=
  let gs := m.stashGrans o n
  if tile && m.stashCoded o then gs.take (1 + (tileStoredBytes (s.placesBytes (gs.take 1)) + 63) / 64) else gs

/-- Reads a stash range. -/
def State.readStash (s : State) (m : Mb) (o n : Nat) (tile : Bool) : LoadData × State :=
  let gs := s.stashSpan m o n tile
  let (bad, s1) := s.decodeGrans ((gs.filterMap id).map (· / 64))
  match bad with
  | [] =>
    let bs := s.placesBytes (m.stashGrans o n)
    (.bytes (if tile && m.stashCoded o then (cellarDecode bs).take n else bs), s1)
  | g :: _ => (.bad, s1.logChan (chanOf (64 * g)) 0x03 stWeightPoison none)

/-- Extents that a write of a stash range needs and that are not allocated. -/
def Mb.newExtents (m : Mb) (o n : Nat) : List Nat :=
  let lo := max o (m.resv * 2 ^ 20) - m.resv * 2 ^ 20
  let hi := o + n - m.resv * 2 ^ 20
  if hi ≤ lo then []
  else ((List.range ((hi - 1) / 65536 + 1 - lo / 65536)).map (· + lo / 65536)).filter fun x =>
    m.extents.all fun e => e.1 != x

/-- Places of the overflow stash in use by a context. -/
def Ctx.extentPlaces (k : Ctx) : List Nat := k.mbs.flatMap fun m => m.extents.map (·.2)

/-- The lowest free extent of the overflow stash, if one is free (the place is the module's choice, R210). -/
def Ctx.freeExtent (k : Ctx) : Option Nat :=
  let used := k.extentPlaces
  ((List.range (min k.ovfCap (used.length + 1))).map fun n => k.ovfRegion + 65536 * n).find? fun a => !used.contains a

/-- Erases a range of memory to zero with its markers. -/
def State.zero (s : State) (a n : Nat) : State :=
  let outside (g : Nat) : Bool := decide (g < a / 64 ∨ (a + n + 63) / 64 ≤ g)
  { s with
    mem := s.mem.below a ++ s.mem.from (a + n)
    marked := s.marked.filter fun e => outside e.1
    chans := s.chans.map fun k => { k with wc := k.wc.filter fun e => outside e.gran } }

/-- Allocates and zeroes one extent of micro-batch `m` (R210), counting it (Table 8.3). -/
def State.allocExtent (s : State) (x : Fin 64) (m ext : Nat) : Option State :=
  let k := s.ctx x
  match k.freeExtent, k.mbFind m with
  | some a, some r =>
    let s1 := s.modCtx x fun k => (k.mbMod m fun r => { r with extents := r.extents ++ [(ext, a)], spilled := true })
    let s2 := (s1.zero a 65536)
    let s3 := if r.spilled then s2 else s2.bumpField (stashOff x 0x18) 15 0 1
    let used := (s3.ctx x).ovfUsed
    some (if s3.rd (stashOff x 0x10) < used then s3.wr (stashOff x 0x10) used else s3)
  | _, _ => none

/-- Allocates every extent a write needs before its first granule (R212 step 1). -/
def State.allocExtents (s : State) (x : Fin 64) (m : Nat) : List Nat → Option State
  | [] => some s
  | e :: es => match s.allocExtent x m e with
    | some t => t.allocExtents x m es
    | none => none

/-- What a write of a stash range stores: a tile in the overflow stash is coded (R210). -/
def Mb.stashForm (m : Mb) (o : Nat) (tile : Bool) (bs : List Byte) : List Byte :=
  if tile && m.stashCoded o then cellarEncode bs else bs

/-- Writes whole granules at their places. -/
def State.writeStash (s : State) (gs : List (Option Nat)) (bs : List Byte) : State :=
  (gs.zip (chunks 64 gs.length bs)).foldl (fun s p => match p.1 with
    | some a => s.putFull a p.2
    | none => s) s

end Sys2Proof.Machine
end

