-- ==== Sys2Proof/Machine/QueueCmds.lean ====
section
/-! DEFINITION. The queue unit and the control unit: BQP and BQT (R167, R184 to R186), NOP, WCT, PSET and
FENCE (R168 to R170). -/

namespace Sys2Proof.Machine

/- The control unit. -/

def anyFrame (_ : Frame) (_ : TileCmd) (_ : Core) : Bool := true

/-- NOP: completes at issue. -/
def execNop (c : Fin 192) (i : Fin 8) (stall : Nat) (s : State) : Result :=
  issueStep c i stall 0x00 always (fun _ a => a.opcode == 0) anyFrame (fun _ _ _ s => .run s) s

/-- WCT: holds issue until its counter reaches COUNT. -/
def execWct (c : Fin 192) (i : Fin 8) (stall : Nat) (s : State) : Result :=
  issueStep c i stall 0x20 always (fun _ a => a.opcode == 0x20) anyFrame (fun f _ cmd s =>
    match cmd.args with
    | .wct n _ _ =>
      if s.counterOpen f n.toNat then .run (s.modCore c fun k => k.modInst i fun m => { m with held := some cmd })
      else .fail stReserved
    | _ => .wait) s

/-- The WCT that holds the issue of slot `i`. -/
def Core.heldWct (k : Core) (i : Fin 8) : Option (Nat × Word × Nat) :=
  match (k.slot i).inst with
  | some n =>
    match n.held with
    | some ⟨_, _, .wct ctr count limit⟩ => some (ctr.toNat, count, limit.toNat)
    | _ => none
  | none => none

/-- Releases the issue of slot `i`; the time held counts in CORE_INST_WAIT (R137). -/
def Core.release (k : Core) (i : Fin 8) (be : Nat) : Core :=
  (k.bump 0x20438 be).modInst i fun n => { n with held := none }

/-- The sequence number of the command that slot `i` issued last. -/
def Core.lastSeq (k : Core) (i : Fin 8) : Nat :=
  match (k.slot i).inst with
  | some n => n.next - 1
  | none => 0

/-- WCT_COUNT_MET: the counter has reached COUNT and the WCT completes with OK. -/
def execWctCountMet (c : Fin 192) (i : Fin 8) (waitBE : Nat) (s : State) : Result :=
  match (s.core c).heldWct i with
  | some (n, count, _) => if s.reached n count then .next (s.modCore c fun k => k.release i waitBE) else .next s
  | none => .next s

/-- WCT_TIMEOUT: a non-zero LIMIT is reached first and the WCT completes with TIMEOUT. -/
def execWctTimeout (c : Fin 192) (i : Fin 8) (waitBE : Nat) (s : State) : Result :=
  match (s.core c).heldWct i with
  | some (n, count, limit) =>
    if limit = 0 ∨ s.reached n count = true then .next s
    else .next (s.modCore c fun k => (k.release i waitBE).cmdEnded i (k.lastSeq i) 0x20 false stTimeout)
  | none => .next s

/-- PSET in MODE 0: software bits and the condition bits NONFINITE and POISONED; writes to bits 0, 12 and 15 are
discarded (R169). -/
def Core.psetBits (k : Core) (i : Fin 8) (filler : Bool) (mask value : BitVec 16) : Core :=
  (k.writeSoft filler mask value).modInst i fun n =>
    { n with
      nonfinite := if mask.getLsbD 13 then value.getLsbD 13 else n.nonfinite
      poisoned := if mask.getLsbD 14 then value.getLsbD 14 else n.poisoned }

/-- PSET, MODE 0. -/
def execPset (c : Fin 192) (i : Fin 8) (stall : Nat) (s : State) : Result :=
  issueStep c i stall 0x21 always (fun _ a => a.opcode == 0x21) anyFrame (fun f _ cmd s =>
    match cmd.args with
    | .psetMask m v => .run (s.modCore c fun k => k.psetBits i (!k.owned f) m v)
    | _ => .wait) s

/-- Check 1 of PSET in MODE 1: DST from 1 to 11 (R169). -/
def psetOk1 (_ : Frame) : TileArgs → Bool
  | .psetCounter d .. => decide (1 ≤ d.toNat ∧ d.toNat ≤ 11)
  | _ => false

/-- PSET, MODE 1: a software bit becomes whether the counter has reached COUNT. -/
def execPsetCounter (c : Fin 192) (i : Fin 8) (stall : Nat) (s : State) : Result :=
  issueStep c i stall 0x121 always psetOk1 anyFrame (fun f _ cmd s =>
    match cmd.args with
    | .psetCounter d n count =>
      if !s.counterOpen f n.toNat then .fail stReserved
      else
        let m : BitVec 16 := 1#16 <<< d.toNat
        let v := if s.reached n.toNat count then m else 0
        .run (s.modCore c fun k => k.writeSoft (!k.owned f) m v)
    | _ => .wait) s

/-- FENCE: holds issue until every earlier command of its instance has completed. -/
def execFence (c : Fin 192) (i : Fin 8) (stall : Nat) (s : State) : Result :=
  issueStep c i stall 0x22 always (fun _ a => a.opcode == 0x22) anyFrame (fun _ _ cmd s =>
    .run (s.modCore c fun k => k.modInst i fun m => { m with held := some cmd })) s

/-- FENCE_RELEASE: the earlier commands have completed and issue continues. -/
def execFenceRelease (c : Fin 192) (i : Fin 8) (waitBE : Nat) (s : State) : Result :=
  match ((s.core c).slot i).inst with
  | some n =>
    match n.held with
    | some ⟨_, _, .fence⟩ =>
      if (s.core c).outstanding i then .next s else .next (s.modCore c fun k => k.release i waitBE)
    | _ => .next s
  | none => .next s

/- The queue unit. -/

def endpointInRange : Frame → TileArgs → Bool
  | _, .bqp _ e => decide (e.toNat < 3072)
  | _, .bqt _ e => decide (e.toNat < 3072)
  | _, _ => false

/-- BQP: check 4 on its billet, its endpoint and the slot size; a poisoned billet passes check 5 (R167). Its request
arrives as it starts, at a moment of its own or, in a tie, at that of the request before it (R29). -/
def execBqp (c : Fin 192) (i : Fin 8) (stall : Nat) (tie : Bool) (s : State) : Result :=
  issueStep c i stall 0x18 always endpointInRange anyFrame (fun f n cmd s =>
    match cmd.args with
    | .bqp b ep =>
      let k := s.core c
      let e := k.entry b.toNat
      let size := match s.endpoint ep.toNat with
        | some (d, q) => bitsOf ((s.core d).bqCfg q) 27 17
        | none => 0
      if !s.usesOk c f (plainUses b) then .fail stReserved
      else
        let st := s.endpointStatus c (!k.owned f) ep.toNat
        if st ≠ stOk then .fail st
        else if size < e.size then .fail stReserved
        else if !k.scoreboardClear (cmdRanges f cmd.args [e]) then .stall (cmdRanges f cmd.args [e])
        else
          let m := if tie then s.moments else s.moments + 1
          .run ({ s with moments := m }.modCore c fun k =>
            { k with queueQ := k.queueQ ++
                [{ newJob i n cmd [e] with started := true, poison := BitVec.ofNat 8 e.poison, arrived := m }] })
    | _ => .wait) s

/-- The first waiting BQP (`push`) or BQT of slot `i`. -/
def Core.queueJob (k : Core) (i : Fin 8) (push : Bool) : Option Job :=
  k.queueQ.find? fun j => j.slot == i && (j.cmd.args.opcode == (if push then 0x18 else 0x19))

/-- The lowest free receive slot of an endpoint (R184). -/
def Endpoint.freeSlot (e : Endpoint) : Option Nat := (List.range 16).find? fun n => !e.busy.getLsbD n

/-- Ends a job of the queue unit. -/
def Core.endQueueJob (k : Core) (j : Job) (st : Byte) : Core :=
  { k with queueQ := k.queueQ.erase j }.cmdEnded j.slot j.seq j.cmd.args.opcode false st

/- Arbitration of the BQPs into one endpoint (R29, R30, R185). -/

/-- The moments at which the BQPs that wait on core `c` for an endpoint arrived. -/
def State.bqpArrivals (s : State) (d : Fin 192) (q : Fin 16) (c : Fin 192) : List Nat :=
  (s.core c).queueQ.filterMap fun j =>
    match j.cmd.args with
    | .bqp _ ep => if s.endpoint ep.toNat = some (d, q) then some j.arrived else none
    | _ => none

/-- The rank of a core at an arbiter: 0 when it has never been granted, else its place in the order of the last grants. -/
def Endpoint.rank (e : Endpoint) (c : Fin 192) : Nat :=
  match e.grants.idxOf? c.val with
  | some n => n + 1
  | none => 0

/-- The core is granted: it ranks last from now on. -/
def Endpoint.grant (e : Endpoint) (c : Fin 192) : Endpoint := { e with grants := e.grants.erase c.val ++ [c.val] }

/-- Core `c` may be granted the endpoint for a request of moment `m`: no other core's request came earlier, and none that
came together with it ranks ahead. Among requesters never granted the row that comes wins (assumption 7). -/
def State.bqpWins (s : State) (d : Fin 192) (q : Fin 16) (c : Fin 192) (m : Nat) : Bool :=
  let en := (s.core d).end_ q
  allCores.all fun o => o == c || (s.bqpArrivals d q o).all fun a => decide (m < a ∨ a = m ∧ en.rank c ≤ en.rank o)

/-- BQP_ACCEPT: the queue has room, and a slot is free for a billet: it is copied whole and its handle queued
(R185); a poisoned billet puts a token and completes with its status (R167). The waits name those for mesh
credits (R190). A request that its arbiter does not grant yet waits on. -/
def execBqpAccept (c : Fin 192) (i : Fin 8) (w : Waits) (s : State) : Result :=
  match (s.core c).queueJob i true with
  | some j =>
    match j.cmd.args, j.ents with
    | .bqp _ ep, e :: _ =>
      match s.endpoint ep.toNat with
      | none => .next s
      | some (d, q) =>
        let en := (s.core d).end_ q
        if 16 ≤ en.queue.length ∨ s.bqpWins d q c j.arrived = false then .next s
        else if j.poison ≠ 0 then
          let s1 := (s.putToken ep.toNat j.poison).modCore d fun k => k.setEnd q ((k.end_ q).grant c)
          .next ((s1.modCore c fun k => (k.waited w).endQueueJob j j.poison).markLate d)
        else match en.freeSlot with
          | none => .next s
          | some n =>
            let cfg := (s.core d).bqCfg q
            let line := bitsOf cfg 16 0 + 2 * n * bitsOf cfg 27 17
            let data := (s.core c).sp.readRun e.addr e.extent
            let w0 := BitVec.ofNat 32 (line % 2 ^ 17 + e.size * 2 ^ 17)
            let s1 := s.modCore d fun k =>
              let item := QItem.handle w0 (BitVec.ofNat 32 e.w1) n
              (({ k with sp := k.sp.writeRun (line * 64) data }).bump64 0x20610 (2 * e.size)).setEnd q
                ({ en with queue := en.queue ++ [item], busy := en.busy ||| (1#16 <<< n) }.grant c)
            .next ((s1.modCore c fun k =>
              (((k.bump64 0x2061C (ceilDiv e.extent 256)).bump64 0x20610 (2 * e.size)).waited w).endQueueJob j stOk).markLate d)
    | _, _ => .next s
  | none => .next s

/-- BQT: its endpoint is one of its own core's (R167); BILLET is not checked. -/
def execBqt (c : Fin 192) (i : Fin 8) (stall : Nat) (s : State) : Result :=
  issueStep c i stall 0x19 always endpointInRange anyFrame (fun f n cmd s =>
    match cmd.args with
    | .bqt _ ep =>
      let st := s.endpointStatus c (!(s.core c).owned f) ep.toNat
      let own := match s.endpoint ep.toNat with
        | some (d, _) => d == c
        | none => false
      if st ≠ stOk then .fail st
      else if !own then .fail stReserved
      else .run (s.modCore c fun k => { k with queueQ := k.queueQ ++ [{ newJob i n cmd [] with started := true }] })
    | _ => .wait) s

/-- BQT_TAKE: the head of the queue is taken into the entry (R186); a token leaves a poisoned billet with no
extent and the BQT completes with its status. -/
def execBqtTake (c : Fin 192) (i : Fin 8) (w : Waits) (s : State) : Result :=
  let k := s.core c
  match k.queueJob i false, k.frame i with
  | some j, some f =>
    match j.cmd.args with
    | .bqt b ep =>
      match s.endpoint ep.toNat with
      | none => .next s
      | some (_, q) =>
        let en := k.end_ q
        match en.queue with
        | [] => .next s
        | item :: rest =>
          let k1 := (k.waited w).setEnd q { en with queue := rest }
          let w3 := (k.entry b.toNat).w3
          match item with
          | .handle w0 w1 n =>
            let k2 := k1.writeEntry b.toNat w0.toNat w1.toNat f.context w3
            let k3 := k2.modInst i fun m => { m with taken := m.taken ++ [(b.toNat, q.val, n)] }
            .next (s.setCore c (k3.endQueueJob j stOk))
          | .token st =>
            let k2 := k1.writeEntry b.toNat 0 0 (f.context + st.toNat * 2 ^ 8) w3
            let k3 := k2.modInst i fun m => { m with taken := m.taken ++ [(b.toNat, q.val, 16)], poisoned := true }
            .next (s.setCore c (k3.endQueueJob j st))
    | _ => .next s
  | _, _ => .next s

end Sys2Proof.Machine
end

