-- ==== Sys2Proof/Machine/Porter.lean ====
section
/-! DEFINITION. The Porter (R161 to R164, R187 to R189, R194, R225): LDT, STT and ACW. -/

namespace Sys2Proof.Machine

/-- The Porter takes up to 16 requests; a further command waits unchecked (R161). -/
def porterAccepts (k : Core) : Bool := decide (k.porterQ.length < 16)

/-- A request of a command that comes to issue; its context and its tile's size are those of its frame. -/
def newPJob (k : Core) (i : Fin 8) (n : Inst) (cmd : TileCmd) (e : BEntry) (data : LoadData) : PJob :=
  let of (g : Frame → Nat) : Nat := ((k.frame i).map g).getD 0
  { slot := i, gen := (k.slot i).gen, seq := n.next, mb := n.mb, ctx := of (·.context), rows := of (·.rows), cols := of (·.cols), cmd := cmd, ent := e, data := data,
    urgent := false, stale := false, dropped := false, tag := BitVec.ofNat 16 e.tag, expected := 0, returned := 0,
    negative := false, timedOut := false, pruned := 0 }

/-- Bytes a Porter command moves: a tile by the entry's format, or the billet's extent (R161, R228). -/
def BEntry.moved (e : BEntry) (tile : Bool) : Nat := if tile then tileBytes e.fmt e.scale else e.extent

/- What a command reaches (R209, R225). -/

/-- A region, or a range of the stash of the instance's micro-batch. -/
inductive Reach where
  | region (r : Region)
  | stash (x : Fin 64) (m : Mb) (off : Nat)

/-- The stash of an instance's micro-batch: none under the closing index or without a pool (R209). -/
def State.stashOf (s : State) (ctx : Nat) (mb : BitVec 16) : Option (Fin 64 × Mb) :=
  match ctxOf? ctx with
  | none => none
  | some x =>
    if mb = 0xFFFF#16 ∨ (s.ctx x).poolMib = 0 then none
    else match (s.ctx x).mbFind mb.toNat with
      | some m => if m.admitted && !m.done then some (x, m) else none
      | none => none

/-- The range of a command: in the stash window, or whole in one open region of its context whose kind `kinds`
lists; a tile-mode command on tile slots names a slot base, and its range is the slot (R225). A command that comes
to issue (`issue`) finds no region whose close is requested (R227). -/
def State.reach (s : State) (issue : Bool) (ctx : Nat) (mb : BitVec 16) (a n : Nat) (tile : Bool) (kinds : List Nat) : Option Reach :=
  if inStash a then
    if stashEnd < a + n then none
    else (s.stashOf ctx mb).map fun p => .stash p.1 p.2 (a - stashBase)
  else match s.regionAt a 1 with
    | none => none
    | some r =>
      if r.ctx ≠ ctx ∨ (issue && r.closing.isSome) = true ∨ kinds.contains r.kind = false then none
      else if tile && r.tiled then
        if a = r.slotBase a ∧ r.holds a r.slotBytes = true ∧ n ≤ r.slotBytes then some (.region r) else none
      else if r.holds a n then some (.region r) else none

/-- A write reaches no read-only region (R226), and ACW only the pool of a stash (Table 9.3). -/
def Reach.writable (r : Reach) (n : Nat) (poolOnly : Bool) : Bool :=
  match r with
  | .region r => !r.ro
  | .stash _ m off => !poolOnly || decide (off + n ≤ m.resv * 2 ^ 20)

/- LDT. -/

def ldtKinds (tile : Bool) : List Nat := if tile then [0, 1, 2, 3] else [0, 1, 2, 4]

/-- A channel that a command reaches is held for service (R251). -/
def State.reachHeld (s : State) (t : Reach) (a n : Nat) : Bool :=
  match t with
  | .region _ => s.heldAt a n
  | .stash _ m off => (m.stashGrans off n).any fun g => match g with
    | some p => s.heldAt p 64
    | none => false

/-- Queues the reads of an LDT at their channels (R248): a cellar tile costs its stored bytes (R233). -/
def State.chargeLoad (s : State) (t : Reach) (a n cls : Nat) (tile : Bool) : State :=
  match t with
  | .region r => s.charge a (if tile && r.kind == 3 then s.storedAt a n else n) cls 64
  | .stash _ m off => (s.stashSpan m off n tile).foldl (fun s g => match g with
    | some p => s.charge p 64 cls 64
    | none => s) s

/-- Reads what an LDT loads. -/
def State.readReach (s : State) (t : Reach) (a n : Nat) (tile : Bool) : LoadData × State :=
  if s.reachHeld t a n then (.held, s)
  else match t with
  | .stash _ m off => s.readStash m off n tile
  | .region r =>
    if tile && r.tiled then s.readTile r a
    else match s.readRaw r a n with
      | (.ok, u) => (.bytes (s.mem.readRun a n), u)
      | (.bad, u) => (.bad, u)
      | (.wait slot, u) => (.refetching slot, u)

/-- Checks 1 and 2 of LDT: an aligned ADDR and a defined MODE; an insertion at POSITION 0 of a caravan (R194). -/
def ldtOk1 (_ : Frame) : TileArgs → Bool
  | .ldt _ m _ a _ => decide (m.toNat < 2) && decide (a.toNat % 64 = 0)
  | _ => false

def ldtOk2 (f : Frame) (cmd : TileCmd) (k : Core) : Bool :=
  match cmd.args with
  | .ldt d m .. => m != 0 || (k.entry d.toNat).layout != 4 || (f.caravanEn && f.position == 0)
  | _ => false

/-- Layouts that an LDT's destination may have (Table 7.4). In tile mode one that Table 9.5 lists for some tile must hold a whole
tile, and any other fails with WEIGHT_POISON once the tile has come (R231). -/
def BEntry.ldtDest (e : BEntry) (tile : Bool) : Bool :=
  if tile then !(e.layout == 3 || (e.len == 128 && (e.layout == 1 || e.layout == 2))) || e.holdsTile else e.layout != 4

/-- Advances TAG of a caravan-insertion entry (R194). -/
def Core.advanceTag (k : Core) (e : BEntry) : Core :=
  { k with dmem := k.dmem.writeLE (entryAddr e.num + 10) 2 (e.tag + 1) }

/-- The billet of an LDT and its rule. -/
def ldtUses (d : BitVec 8) (tile : Bool) : List BUse := [⟨d.toNat, true, fun e => e.ldtDest tile⟩]

/-- LDT: checked, read and outstanding. -/
def execLdt (c : Fin 192) (i : Fin 8) (stall : Nat) (errs : List GranErr) (s : State) : Result :=
  meetRow errs (issueStep c i stall 0x10 porterAccepts ldtOk1 ldtOk2 (fun f n cmd s =>
    match cmd.args with
    | .ldt d m _ addr _ =>
      let tile : Bool := m == 0
      let e := (s.core c).entry d.toNat
      let a := addr.toNat
      let t := s.reach true f.context n.mb a (e.moved tile) tile (ldtKinds tile)
      s.withBillets c f cmd.args (ldtUses d tile) t.isSome fun _ =>
        match t with
        | none => .wait
        | some t =>
          let (data, s1) := s.readReach t a (e.moved tile) tile
          .run ((s1.modCore c fun k =>
            let k1 := if e.layout = 4 then k.advanceTag e else k
            { k1 with porterQ := k1.porterQ ++ [newPJob k i n cmd e data] }).markLate c)
    | _ => .wait)) s

/-- GROUP's count for the micro-batch advances (R162). -/
def Core.bumpGroup (k : Core) (g mb : BitVec 16) : Core :=
  if k.groups.any (fun e => e.1.1 == g && e.1.2 == mb) then
    { k with groups := k.groups.map fun e => if e.1.1 == g && e.1.2 == mb then (e.1, e.2 + 1) else e }
  else { k with groups := k.groups ++ [((g, mb), 1)] }

/-- Takes a Porter request off the queue with its status (R146, R189). The failure of a stale request is captured (R148) and
leaves its instance, which reports the status of its cancellation, to its remaining commands (R131). -/
def Core.endPorter (k : Core) (pos : Nat) (j : PJob) (st : Byte) : Core :=
  let k1 := { k with porterQ := k.porterQ.eraseIdx pos }
  if j.stale then
    (if st = stOk ∨ st = stPartial then k1
     else k1.recordCmdFault j.slot st j.cmd.args.opcode false j.seq j.mb.toNat)
  else k1.cmdEnded j.slot j.seq j.cmd.args.opcode false st

/-- A loaded tile passes the checks of R231. -/
def tileAccepted (e : BEntry) (bs : List Byte) : Bool :=
  headerValid bs && digestOk bs && tileFmt bs == e.fmt && tileScale bs == e.scale && layoutPair (tileLayout bs) e

/-- The bytes that an LDT may place, none when it fails (R162). -/
def PJob.good (j : PJob) (tile : Bool) : Option (List Byte) :=
  match j.data with
  | .bytes bs => if !tile || tileAccepted j.ent bs then some bs else none
  | _ => none

/-- The request waits for a refetch or for a channel held for service. -/
def PJob.refetching (j : PJob) : Bool :=
  match j.data with
  | .refetching _ => true
  | .held => true
  | _ => false

/-- An insertion enters the buffer in issue order and when a place is free (R194). -/
def Core.mayInsert (k : Core) (pos : Nat) : Bool :=
  ((k.porterQ.take pos).all fun j => j.ent.layout != 4 || j.cmd.args.opcode != 0x10) &&
    decide (k.car.tiles.length + k.car.inbound.length < 4) && k.car.state != .fenced

/-- An insertion's tile or poison token enters the buffer (R189, R194). -/
def State.insertTile (s : State) (c : Fin 192) (pos : Nat) (j : PJob) (group : BitVec 16) (skewBE : Nat) : State :=
  let put (poison : Byte) (bs : List Byte) : CTile :=
    { tag := j.tag, poison := poison, bytes := bs, consumed := false, forwarded := false }
  if j.stale then (s.modCore c fun k => k.endPorter pos j stCancelled).tilePresent c (put stCancelled []) skewBE
  else match j.good true with
    | some bs => (s.modCore c fun k => (k.endPorter pos j stOk).bumpGroup group j.mb).tilePresent c (put 0 bs) skewBE
    | none => (s.modCore c fun k => k.endPorter pos j stWeightPoison).tilePresent c (put stWeightPoison []) skewBE

/-- An LDT into a billet completes (R162, R189): placed and ready, or poisoned. -/
def Core.landLdt (k : Core) (pos : Nat) (j : PJob) (tile : Bool) (group : BitVec 16) : Core :=
  let poison (st : Byte) : Core := ((k.poisonBillet j.ent st).condPoisoned j.slot).endPorter pos j st
  if j.stale then poison stCancelled
  else match j.good tile with
    | none => poison stWeightPoison
    | some bs =>
      let k1 := if tile then k.placeTile j.ent bs else { k with sp := k.sp.writeRun j.ent.addr bs }
      (((k1.setPoison j.ent.num 0).bump64 0x20610 (2 * j.ent.size)).endPorter pos j stOk).bumpGroup group j.mb

/-- Queues the reads of the LDT at the head of its completion: urgent when it is late (R188, R248). -/
def State.chargeLdt (s : State) (j : PJob) : State :=
  match j.cmd.args with
  | .ldt _ m _ addr _ =>
    let tile : Bool := m == 0
    match s.reach false j.ctx j.mb addr.toNat (j.ent.moved tile) tile (ldtKinds tile) with
    | some t => s.chargeLoad t addr.toNat (j.ent.moved tile) (if j.urgent then urgentClass else normalClass) tile
    | none => s
  | _ => s

/-- LDT_COMPLETE of the request at `pos`; an OPX that waits for its tile goes on. -/
def execLdtComplete (c : Fin 192) (pos : Nat) (w : Waits) (s : State) : Result :=
  match (s.core c).porterQ[pos]? with
  | none => .next s
  | some j =>
    match j.cmd.args with
    | .ldt _ m _ _ group =>
      if j.refetching ∧ j.stale = false then .next s
      else if j.ent.layout = 4 then
        if (s.core c).mayInsert pos then
          .next (((s.chargeLdt j).modCore c fun k => k.waited w).insertTile c pos j group w.skew)
        else .next s
      else .next ((s.chargeLdt j).modCore c fun k => (k.landLdt pos j (m == 0) group).waited w)
    | _ => .next s

/-- LDTs that waited as `which` says read again (R242, R251). -/
def State.serveLdts (s : State) (which : LoadData → Bool) : State :=
  let again (s : State) (j : PJob) : LoadData × State :=
    match j.cmd.args with
    | .ldt _ m _ addr _ =>
      let tile : Bool := m == 0
      match s.reach false j.ctx j.mb addr.toNat (j.ent.moved tile) tile (ldtKinds tile) with
      | some t => s.readReach t addr.toNat (j.ent.moved tile) tile
      | none => (.bad, s)
    | _ => (.bad, s)
  let one (c : Fin 192) (s : State) (p : PJob × Nat) : State :=
    if which p.1.data then
      let (d, t) := again s p.1
      t.modCore c fun k => { k with porterQ := k.porterQ.set p.2 { p.1 with data := d } }
    else s
  allCores.foldl (fun s c => (s.core c).porterQ.zipIdx.foldl (one c) s) s

/- STT. -/

def sttKinds (tile : Bool) : List Nat := ldtKinds tile

def sttOk1 (_ : Frame) : TileArgs → Bool
  | .stt _ m a g => decide (m.toNat < 2) && decide (a.toNat % 64 = 0) && (m == 0 || g == 0)
  | _ => false

/-- A tile header holds at most 128 rows and columns (R232). -/
def sttOk2 (f : Frame) (cmd : TileCmd) (_ : Core) : Bool :=
  match cmd.args with
  | .stt _ m .. => m != 0 || decide (f.rows ≤ 128 ∧ f.cols ≤ 128)
  | _ => false

/-- Starts a write: a stash range gets its extents, and the micro-batch is aborted when one is missing
(R212). -/
def State.startWrite (s : State) (t : Reach) (n : Nat) (go : State → Verdict) : Verdict :=
  match t with
  | .region _ => go s
  | .stash x m off =>
    match s.allocExtents x m.mb (m.newExtents off n) with
    | some u => go u
    | none => .failIn (s.abortMb x m.mb stStash) stStash

/-- Puts a request on the Porter. -/
def State.toPorter (s : State) (c : Fin 192) (i : Fin 8) (n : Inst) (cmd : TileCmd) (e : BEntry) : State :=
  s.modCore c fun k => { k with porterQ := k.porterQ ++ [newPJob k i n cmd e (.bytes [])] }

/-- The billet of an STT and its rule. -/
def sttUses (b : BitVec 8) (tile : Bool) : List BUse := [⟨b.toNat, false, fun e => if tile then e.holdsTile else e.layout != 4⟩]

/-- STT: checked, its extents allocated, outstanding. -/
def execStt (c : Fin 192) (i : Fin 8) (stall : Nat) (s : State) : Result :=
  issueStep c i stall 0x11 porterAccepts sttOk1 sttOk2 (fun f n cmd s =>
    match cmd.args with
    | .stt b m addr _ =>
      let tile : Bool := m == 0
      let e := (s.core c).entry b.toNat
      let len := e.moved tile
      let t := (s.reach true f.context n.mb addr.toNat len tile (sttKinds tile)).filter fun t => t.writable len false
      s.withBillets c f cmd.args (sttUses b tile) t.isSome fun _ =>
        match t with
        | none => .wait
        | some t => s.startWrite t len fun u => .run (u.toPorter c i n cmd e)
    | _ => .wait) s

/-- What an STT writes: the tile with its header (R232), or the billet verbatim. -/
def Core.sttBytes (k : Core) (rows cols : Nat) (e : BEntry) (tile : Bool) (gen : Nat) : List Byte :=
  if tile then buildTile e.fmt e.scale e.layout rows cols gen (k.takePlanes e) else k.sp.readRun e.addr e.extent

/-- A write must wait: a slot it covers in part is REFETCHING (Table 9.7). -/
def State.writeWaits (s : State) (r : Region) (a : Nat) (bs : List Byte) : Bool :=
  r.tiled && (r.slotsOf a bs.length).any fun slot =>
    (s.dirAt slot).st == .refetching && !(decide (a ≤ slot) && coversWhole ((bs.drop (slot - a)).take r.slotBytes))

/-- STT_COMPLETE of the request at `pos`. -/
def execSttComplete (c : Fin 192) (pos : Nat) (w : Waits) (s : State) : Result :=
  match (s.core c).porterQ[pos]? with
  | none => .next s
  | some j =>
    match j.cmd.args with
    | .stt _ m addr gen =>
      let tile : Bool := m == 0
      let bs := (s.core c).sttBytes j.rows j.cols j.ent tile gen.toNat
      let fin (t : State) : Result := .next (t.modCore c fun k =>
        (((k.bump64 0x2061C (ceilDiv bs.length 256)).bump64 0x20610 (2 * j.ent.size)).waited w).endPorter pos j stOk)
      match s.reach false j.ctx j.mb addr.toNat bs.length false [0, 1, 2, 3, 4] with
      | some t =>
        if s.reachHeld t addr.toNat bs.length then .next s
        else match t with
        | .region r => if s.writeWaits r addr.toNat bs then .next s else fin (s.writeIn r addr.toNat bs)
        | .stash x mb off =>
          let form := mb.stashForm off tile bs
          let ovf := off + bs.length - max off (mb.resv * 2 ^ 20)
          fin ((s.writeStash (mb.stashGrans off form.length) form).modCtx x fun k => { k with accOvfBytes := k.accOvfBytes + ovf })
      | none => fin s
    | _ => .next s

/- ACW (R244 to R246). -/

/-- Bytes that one update takes whole: a granule, or a W48 group of three. -/
def acwUnit (fmt : Nat) : Nat := if fmt = 14 then 192 else 64

def acwOk1 (_ : Frame) : TileArgs → Bool
  | .acw _ op a sc => decide (a.toNat % 64 = 0) && (op == 3 || sc == 0)
  | _ => false

def acwFmt (fmt : Nat) : Bool := fmt == 14 || fmt == 0 || fmt == 2 || fmt == 3

def acwOk2 (_ : Frame) (cmd : TileCmd) (k : Core) : Bool :=
  match cmd.args with
  | .acw b .. => acwFmt (k.entry b.toNat).fmt
  | _ => false

/-- ACW: checked and outstanding. W48 groups align to the address the command names, or to the window offset. -/
def execAcw (c : Fin 192) (i : Fin 8) (stall : Nat) (s : State) : Result :=
  issueStep c i stall 0x12 porterAccepts acwOk1 acwOk2 (fun f n cmd s =>
    match cmd.args with
    | .acw b _ addr _ =>
      let e := (s.core c).entry b.toNat
      let a := addr.toNat
      let t := (s.reach true f.context n.mb a e.extent false [0, 1, 2]).filter fun t => t.writable e.extent true
      let off := if inStash a then a - stashBase else a
      let ok := t.isSome && decide (off % acwUnit e.fmt = 0 ∧ e.extent % acwUnit e.fmt = 0)
      s.withBillets c f cmd.args (plainUses b) ok fun _ => .run (s.toPorter c i n cmd e)
    | _ => .wait) s

/-- One element update (R245): the new encoding, and whether the result is infinite or NaN. -/
def acwElem (fmt op : Nat) (scale : Val) (old x : Nat) : Nat × Bool :=
  match ffmtOf fmt with
  | none => (old, false)
  | some ff =>
    let s := ff.decode old
    let v := ff.decode x
    let r := match op with
      | 1 => ewlMax s v
      | 2 => ewlMin s v
      | _ =>
        let y := if op = 3 then scale.mul v else v
        if fmt = 14 then (w48Add s y).1 else (ff.roundNE (s.add y)).1
    (ff.encode r, r.nonfinite)

/-- Updates a run of elements: the new bytes and the non-finite results. -/
def acwBytes (fmt op : Nat) (scale : Val) (old x : List Byte) : List Byte × Nat :=
  let w := fmtBits fmt / 8
  let n := old.length / w
  let rs := ((chunks w n old).zip (chunks w n x)).map fun p => acwElem fmt op scale (leNat p.1) (leNat p.2)
  (rs.flatMap fun r => leBytes w r.1, (rs.filter fun r => r.2).length)

/-- Applies updates beside memory to the units of a range whose granules stand at `gs` (addresses): those with a
bad granule are left. A unit is its granules' addresses, the place of its data in them and the data. CHAN_ACW_OPS and CHAN_ACW_NF count on the channel of each unit's granules. -/
def State.applyUnits (s : State) (r : Option Region) (fmt op : Nat) (scale : Val) (bad : List Nat) :
    List (List Nat × Nat × List Byte) → State
  | [] => s
  | (gs, off, x) :: us =>
    if gs.any fun a => bad.contains (a / 64) then s.applyUnits r fmt op scale bad us
    else
      let old := gs.flatMap fun a => s.mem.readRun a 64
      let (upd, nf) := acwBytes fmt op scale ((old.drop off).take x.length) x
      let new := old.take off ++ (upd ++ old.drop (off + upd.length))
      let s1 := gs.foldl (fun s a => ((s.evictRange a 64).charge a 64 s.meet.cls 128).modChan (chanOf a) fun k => k.bump 0x30020 1) s
      let s2 := s1.prepaid fun s => (gs.zip (chunks 64 gs.length new)).foldl (fun s p => match r with
        | some r => s.writeIn r p.1 p.2
        | none => s.putFull p.1 p.2) s
      let s3 := match gs with
        | a :: _ => s2.modChan (chanOf a) fun k => k.bump 0x30028 nf
        | [] => s2
      s3.applyUnits r fmt op scale bad us

/-- What beside-memory updates find before they apply: the granules found bad, or a slot whose refetch they wait
for (R242, R244). A bad granule of a raw region, or of a slot that is or ends POISONED, takes or keeps the poison marker. -/
def State.acwDecode (s : State) (r : Option Region) (as_ : List Nat) : Option (List Nat) × State :=
  let slots := match r with
    | some r => if r.tiled then (as_.map r.slotBase).eraseDups else []
    | none => []
  if slots.any fun slot => (s.dirAt slot).st == .refetching then (none, s)
  else
    let (bad, s1) := s.decodeGrans (as_.map (· / 64))
    match r with
    | none => (some bad, s1.markGrans bad)
    | some r =>
      let s2 := slots.foldl (fun s slot =>
        let here := bad.filter fun g => r.slotBase (64 * g) == slot
        if here ≠ [] ∧ ((s.dirAt slot).st = .clean ∨ (s.dirAt slot).st = .dirty) then s.faultSlot r slot here else s) s1
      if slots.any fun slot => (s2.dirAt slot).st == .refetching then (none, s2) else (some bad, s2.markGrans bad)

/-- Applies ACW data of format `fmt` to the granules at `as_`: the state and whether any was left, or none while
it waits for a refetch. -/
def State.acwApply (s : State) (r : Option Region) (fmt op : Nat) (scale : Val)
    (as_ : List Nat) (x : List Byte) : Option Bool × State :=
  match s.acwDecode r as_ with
  | (none, t) => (none, t)
  | (some bad, t) =>
    let n := acwUnit fmt / 64
    let units := (chunks n (as_.length / n) as_).zip (chunks (acwUnit fmt) (as_.length / n) x)
    (some (!bad.isEmpty), t.applyUnits r fmt op scale bad (units.map fun u => (u.1, 0, u.2)))

/-- ACW_COMPLETE of the request at `pos`. -/
def execAcwComplete (c : Fin 192) (pos : Nat) (w : Waits) (errs : List GranErr) (s : State) : Result :=
  meetRow errs (fun s =>
  match (s.core c).porterQ[pos]? with
  | none => .next s
  | some j =>
    match j.cmd.args with
    | .acw _ op addr sc =>
      let x := (s.core c).sp.readRun j.ent.addr j.ent.extent
      let fin (p : Option Bool × State) : Result :=
        match p with
        | (none, t) => .next t
        | (some left, t) => .next (t.modCore c fun k =>
            let k1 := ((k.bump64 0x2061C (ceilDiv x.length 256)).bump64 0x20610 (2 * j.ent.size)).waited w
            k1.endPorter pos j (if left then stWeightPoison else stOk))
      let go (r : Option Region) (as_ : List Nat) : Result :=
        fin (s.acwApply r j.ent.fmt op.toNat (fp32Of sc.toNat) as_ x)
      match s.reach false j.ctx j.mb addr.toNat j.ent.extent false [0, 1, 2] with
      | some t =>
        if s.reachHeld t addr.toNat j.ent.extent then .next s
        else match t with
        | .region r => go (some r) ((List.range (j.ent.extent / 64)).map fun n => addr.toNat + 64 * n)
        | .stash _ mb off => go none ((mb.stashGrans off j.ent.extent).filterMap id)
      | none => go none []
    | _ => .next s) s

end Sys2Proof.Machine
end

