-- ==== Sys2Proof/Machine/Fabric.lean ====
section
/-! DEFINITION. The Elved fabric: links and ports (R255 to R257, R289 to R293), table epochs and the tables'
registers (R267 to R271, R284, R294), and the routing of packets (R258 to R262, R282 to R285). -/

namespace Sys2Proof.Machine

/- Ports. -/

def State.port (s : State) (p : Fin 36) : Port := s.ports[p]

def State.modPort (s : State) (p : Fin 36) (f : Port → Port) : State := { s with ports := s.ports.set p (f (s.port p)) }

def portOf? (n : Nat) : Option (Fin 36) := if h : n < 36 then some ⟨n, h⟩ else none

def allPorts : List (Fin 36) := List.finRange 36

def portReset (_ : Nat) : Word := 0

def Port.rd (k : Port) (off : Nat) : Nat := Regs.rd portReset k.regs off
def Port.bump (k : Port) (off n : Nat) : Port := { k with regs := Regs.bump portReset k.regs off n }
def Port.bump64 (k : Port) (off n : Nat) : Port := { k with regs := Regs.bump64 portReset k.regs off n }
/-- Adds to a 16-bit field that wraps. -/
def Port.bumpHalf (k : Port) (off lo n : Nat) : Port :=
  { k with regs := Regs.wrBits portReset k.regs off (lo + 15) lo (bitsOf (k.rd off) (lo + 15) lo + n) }

def Port.up (k : Port) : Bool := k.st == .up

def PortSt.code : PortSt → Nat
  | .down => 0 | .training => 1 | .up => 2 | .held => 3 | .outOfService => 4

/-- PORT_STATUS (Table 10.9). -/
def Port.status (k : Port) : Nat :=
  k.st.code + b2n (k.degraded && k.up) * 8 + (if k.up then k.lanes else 0) * 16 + (if k.up then k.version else 0) * 2 ^ 8 +
    k.neighbor * 2 ^ 16

/-- PORT_LINK (Table 10.9). -/
def Port.link (k : Port) : Nat := k.run + k.trainMs * 2 ^ 8

def State.logPort (s : State) (p : Fin 36) : State :=
  s.logFault { kind := 0x01, unitType := 4, unit := p.val, detail0 := (s.port p).status, detail1 := (s.port p).link }

/- Virtual channels (R264). -/

/-- Credits of an output virtual channel: 16 when the link comes up. -/
def creditReset (_ : Nat) : Nat := 16
def Port.credits (k : Port) (vc : Nat) : Nat := SMap.get creditReset k.credit vc
def Port.addCredit (k : Port) (vc n : Nat) : Port :=
  { k with credit := SMap.set creditReset k.credit vc (min 16 (k.credits vc + n)) }

/-- The copy sends a flit next if it has one and its channel a credit. -/
def OutPkt.ready (o : OutPkt) (k : Port) : Bool := decide (o.sent < o.got) && k.credits o.vc != 0

/-- The copy that sends the next flit: one begun, or the first that waits on a channel on which none is unfinished, so that
flits of two packets are never interleaved on one channel (R264). Among channels the oldest goes first (assumption 110). -/
def Port.nextCopy (k : Port) : Option OutPkt :=
  match k.begun.find? fun o => o.ready k with
  | some o => some o
  | none => k.waiting.find? fun o => o.ready k && (k.begun.all fun b => b.vc != o.vc || b.sent == b.flits) &&
      ((k.waiting.takeWhile fun w => w.key != o.key).all fun w => w.vc != o.vc)

/-- Sends one flit of a copy; it stays in the replay buffer until it is acknowledged (R289). -/
def Port.sendFlit (k : Port) (p : Nat) (o : OutPkt) : Port × Out :=
  let data := flitData o.bytes o.sent
  let ctl := linkCtl k.txSeq (k.rxSeq + 1023) false o.vc 15 0
  let o1 := { o with sent := o.sent + 1 }
  let put (l : List OutPkt) : List OutPkt := if l.any fun b => b.key == o.key then l.map fun b => if b.key = o.key then o1 else b else l ++ [o1]
  let f : RepFlit := { seq := k.txSeq, vc := o.vc, data := data, key := o.key, last := o1.sent == o.flits }
  let k1 := { k.bump64 0x40024 1 with
    waiting := k.waiting.filter fun w => w.key != o.key, begun := put k.begun, replay := k.replay ++ [f]
    credit := SMap.set creditReset k.credit o.vc (k.credits o.vc - 1), txSeq := (k.txSeq + 1) % 1024, unacked := 0 }
  (k1, .flit p data ctl (flitCrc data ctl))

/-- Sends flits while the replay buffer of 64 has room (R255, R289). -/
def Port.pump (k : Port) (p : Nat) : Nat → Port × List Out
  | 0 => (k, [])
  | fuel + 1 =>
    match (if k.up && decide (k.replay.length < 64) then k.nextCopy else none) with
    | none => (k, [])
    | some o =>
      let (k1, f) := k.sendFlit p o
      let (k2, fs) := k1.pump p fuel
      (k2, f :: fs)

def State.pumpPort (s : State) (p : Fin 36) : State :=
  let (k1, fs) := (s.port p).pump p.val 64
  let s1 := s.modPort p fun _ => k1
  { s1 with out := s1.out ++ fs }

/-- A packet as it is handed on: the reception that feeds it, its bytes as far as they have come, flits come and in all. -/
structure Flow where
  rid : Option Nat := none
  port : Option Nat := none
  bytes : List Byte
  got : Nat
  flits : Nat

/-- A packet that is whole. -/
def wholeFlow (b : List Byte) : Flow := { bytes := b, got := pktFlits b, flits := pktFlits b }

/-- Gives a packet to a port, to leave on a virtual channel of class `vcc`. -/
def State.toPort (s : State) (p : Fin 36) (f : Flow) (vcc : Nat) : State :=
  let o : OutPkt := { key := s.flowNo, rid := f.rid, bytes := f.bytes, got := f.got, flits := f.flits, sent := 0, vc := vcOf f.bytes vcc }
  ({ s with flowNo := s.flowNo + 1 }.modPort p fun k => { k with waiting := k.waiting ++ [o] }).pumpPort p

/-- Every port has sent the flits of a reception that it can send. -/
def State.pumpAll (s : State) : State := allPorts.foldl (fun s p => s.pumpPort p) s

/- Input buffers (R264). -/

/-- Flits of a reception that have left its virtual channel: those that every copy has sent. The last flit of a packet for this
module leaves when the packet is acted on (assumption 110). -/
def State.flowGone (s : State) (f : RxFlow) : Nat :=
  match f.fate with
  | .unrouted => 0
  | .discarded => f.got
  | .taken =>
    let sent := allPorts.flatMap fun p => (((s.port p).begun ++ (s.port p).waiting).filter fun o => o.rid == some f.rid).map (·.sent)
    let here := if s.inbox.any fun r => r.rid == some f.rid then f.flits - 1 else f.got
    (sent ++ [here]).foldl min f.got

/-- Gives back the credits of flits that have left the input buffers, and forgets packets that have left whole. -/
def State.settleRx (s : State) : State :=
  allPorts.foldl (fun s p =>
    let fs := (s.port p).rx.map fun f => (f, s.flowGone f)
    let back := (fs.filter fun e => decide (e.1.gone < e.2)).map fun e => Out.linkCredit p.val e.1.vc (e.2 - e.1.gone)
    let left := (fs.filter fun e => decide (e.2 < e.1.flits)).map fun e => { e.1 with gone := e.2 }
    if fs.isEmpty then s else { s.modPort p fun k => { k with rx := left } with out := s.out ++ (if (s.port p).up then back else []) }) s

/- Banks (R267 to R270). -/

def State.bank (s : State) (b : Fin 2) : Bank := s.banks[b]

def State.modBank (s : State) (b : Fin 2) (f : Bank → Bank) : State := { s with banks := s.banks.set b (f (s.bank b)) }

def bankOf (n : Nat) : Fin 2 := ⟨n % 2, Nat.mod_lt _ (by decide)⟩

def BankSt.code : BankSt → Nat
  | .empty => 0 | .loading => 1 | .ready => 2 | .active => 3 | .draining => 4

/-- The bank in a state, bank 0 first. -/
def State.bankIn (s : State) (st : BankSt) : Option (Fin 2) := (List.finRange 2).find? fun b => (s.bank b).st == st

/-- The injection epoch: of the ACTIVE bank. -/
def State.injectEpoch (s : State) : Option Nat := (s.bankIn .active).map fun b => (s.bank b).epoch

/-- The bank that routes packets of an epoch, the ACTIVE one first; without an ACTIVE bank the module routes nothing (R268). -/
def State.routingBank (s : State) (e : Nat) : Option Bank :=
  if (s.bankIn .active).isNone then none
  else ([BankSt.active, .draining, .ready].filterMap fun st => (s.bankIn st).map s.bank).find? fun b => b.epoch == e

/-- RTBL_EPOCH (Table 10.11). -/
def State.rtblEpoch (s : State) : Nat :=
  (s.injectEpoch.getD (bitsOf (s.rd 0x50004) 7 0)) + (s.bank 0).epoch * 2 ^ 8 + (s.bank 1).epoch * 2 ^ 16 +
    (s.bank 0).st.code * 2 ^ 24 + (s.bank 1).st.code * 2 ^ 27 + b2n (bitOf (s.rd 0x50004) 30) * 2 ^ 30

/-- RTBL_DRAIN: packets of the DRAINING epoch that the module holds (R269). -/
def State.drainCount (s : State) : Nat :=
  match s.bankIn .draining with
  | none => 0
  | some b =>
    let e := (s.bank b).epoch
    let old (p : List Byte) : Bool := pktEpoch p == e
    let held (k : Port) : Nat := ((k.begun ++ k.waiting).filter fun o => old o.bytes).length +
      (k.rx.filter fun f => f.fate == .unrouted && old f.bytes).length
    (s.inbox.filter fun r => old r.bytes).length + allPorts.foldl (fun n p => n + held (s.port p)) 0

/-- Only the physical function and the Gatehouse write the fabric's registers (R293, R294). -/
def planeWrites : Who → Bool
  | .gate => true
  | .fn f => f == 0

def State.refuseCmd (s : State) : State := s.wrBits 0x50004 30 30 1

/-- BEGIN_LOAD: the inactive bank goes to LOADING, unless it is DRAINING (R268). -/
def execBeginLoad (w : Who) (epoch : Byte) (s : State) : Result :=
  if !planeWrites w then .next s
  else
    let b : Fin 2 := match s.bankIn .active with
      | some a => if a = 0 then 1 else 0
      | none => (s.bankIn .empty).getD 0
    if (s.bank b).st = .draining then .next s.refuseCmd
    else .next (s.modBank b fun k => { k with st := .loading, epoch := epoch.toNat })

/-- LOAD_DONE. -/
def execLoadDone (w : Who) (s : State) : Result :=
  if !planeWrites w then .next s
  else match s.bankIn .loading with
    | some b => .next (s.modBank b fun k => { k with st := .ready })
    | none => .next s.refuseCmd

/-- FLIP: the READY bank becomes ACTIVE and the old one DRAINING; arrivals of the old epoch count from here. -/
def execFlip (w : Who) (s : State) : Result :=
  if !planeWrites w then .next s
  else match s.bankIn .ready with
    | none => .next s.refuseCmd
    | some b =>
      let s1 := match s.bankIn .active with
        | some a => (s.modBank a fun k => { k with st := .draining }).wr 0x50010 0
        | none => s
      .next ((s1.modBank b fun k => { k with st := .active }).wrBits 0x50004 7 0 (s.bank b).epoch)

/-- RETIRE. -/
def execRetire (w : Who) (s : State) : Result :=
  if !planeWrites w then .next s
  else match s.bankIn .draining with
    | none => .next s.refuseCmd
    | some b => if s.drainCount = 0 then .next (s.modBank b fun k => { k with st := .empty }) else .next s.refuseCmd

/-- FORCE_RETIRE: packets of the epoch still held are discarded and counted (R270). -/
def execForceRetire (w : Who) (s : State) : Result :=
  if !planeWrites w then .next s
  else match s.bankIn .draining with
    | none => .next s.refuseCmd
    | some b =>
      let e := (s.bank b).epoch
      let keep (p : List Byte) : Bool := pktEpoch p != e
      let s1 := s.bump 0x50200 s.drainCount
      let clear (k : Port) : Port :=
        { k with
          waiting := k.waiting.filter fun o => keep o.bytes, begun := k.begun.filter fun o => keep o.bytes
          rx := k.rx.map fun f => if keep f.bytes then f else { f with fate := .discarded } }
      let s2 : State := { s1 with inbox := s1.inbox.filter fun r => keep r.bytes, ports := s1.ports.map clear }
      .next (s2.modBank b fun k => { k with st := .empty }).settleRx

/-- ABANDON_LOAD. -/
def execAbandonLoad (w : Who) (s : State) : Result :=
  if !planeWrites w then .next s
  else match (s.bankIn .loading).or (s.bankIn .ready) with
    | some b => .next (s.modBank b fun k => { k with st := .empty })
    | none => .next s.refuseCmd

/- Entries (R294). -/

def noWord (_ : Nat) : Word := 0

/-- The entry or word that RTBL_IDX selects: word `n` of it. -/
def State.tableWord (s : State) (n : Nat) : Nat :=
  let idx := s.rd 0x50014
  let i := bitsOf idx 15 0
  let b := s.bank (bankOf (bitsOf idx 16 16))
  match bitsOf idx 18 17 with
  | 0 => if n = 0 then (SMap.get noWord b.route i).toNat else 0
  | 1 => if i < 4096 then (SMap.get noWord b.group (32 * i + n)).toNat else 0
  | 2 => if n = 0 ∧ i < 2048 then (SMap.get noWord s.fence i).toNat else 0
  | _ => if n = 0 ∧ i < 2048 then (SMap.get noWord s.member i).toNat else 0

/-- A write to RTBL_IDX selects an entry, and RTBL_DATA then reads it. -/
def State.selectEntry (s : State) (v : Nat) : State :=
  let s1 := s.wr 0x50014 (bitsOf v 18 0)
  (List.range 32).foldl (fun t n => t.wr (0x50100 + 4 * n) (s1.tableWord n)) s1

/-- TABLE_ENTRY_STORE: a write of RTBL_DATAn; DATA0 stores a routing entry or a bitmap word, DATA31 a group entry.
Entries of a bank that is not LOADING are discarded. -/
def execTableEntryStore (w : Who) (n : Fin 32) (value : Word) (s : State) : Result :=
  if !planeWrites w then .next s
  else
    let s1 := s.wr (0x50100 + 4 * n.val) value.toNat
    let idx := s.rd 0x50014
    let i := bitsOf idx 15 0
    let b := bankOf (bitsOf idx 16 16)
    let loading := (s.bank b).st = .loading
    match bitsOf idx 18 17 with
    | 0 =>
      if n.val = 0 ∧ loading then .next (s1.modBank b fun k => { k with route := SMap.set noWord k.route i value })
      else .next s1
    | 1 =>
      if n.val = 31 ∧ loading ∧ i < 4096 then
        let kvs := (List.range 32).map fun j => (32 * i + j, BitVec.ofNat 32 (s1.rd (0x50100 + 4 * j)))
        .next (s1.modBank b fun k => { k with group := SMap.setAll noWord k.group kvs })
      else .next s1
    | 2 => .next (if n.val = 0 ∧ i < 2048 then { s1 with fence := SMap.set noWord s1.fence i value } else s1)
    | _ => .next (if n.val = 0 ∧ i < 2048 then { s1 with member := SMap.set noWord s1.member i value } else s1)

/-- RTBL_CHECKSUM over the LOADING bank, 0 without one (R294). -/
def State.checksum (s : State) : Nat :=
  match s.bankIn .loading with
  | none => 0
  | some b =>
    let k := s.bank b
    let words (m : SMap Word) (n : Nat) : List Byte := (List.range n).flatMap fun i => leBytes 4 (SMap.get noWord m i).toNat
    (crc32 (words k.route 65536 ++ words k.group (4096 * 32))).toNat

/- Fences and members (R284, R287). -/

def bitmapBit (m : SMap Word) (ep : Nat) : Bool := (SMap.get noWord m (ep / 32)).getLsbD (ep % 32)

def State.fenced (s : State) (ep : Nat) : Bool := bitmapBit s.fence ep
def State.isMember (s : State) (ep : Nat) : Bool := bitmapBit s.member ep

def setBitmap (m : SMap Word) (ep : Nat) (b : Bool) : SMap Word :=
  let w := SMap.get noWord m (ep / 32)
  let k : Word := 1#32 <<< (ep % 32)
  SMap.set noWord m (ep / 32) (if b then w ||| k else w &&& ~~~k)

/-- FENCE_UPDATE: applied only under the next fence epoch, else RESYNC is set (R284). -/
def execFenceUpdate (w : Who) (value : Word) (s : State) : Result :=
  if !planeWrites w then .next s
  else
    let next := bitsOf (s.rd 0x50020) 15 0
    if next = (bitsOf (s.rd 0x5001C) 15 0 + 1) % 65536 then
      let s1 := { s with fence := setBitmap s.fence (bitsOf value.toNat 15 0) (bitOf value.toNat 16) }
      .next (s1.wrBits 0x5001C 15 0 next)
    else .next (s.wrBits 0x5001C 16 16 1)

/- Delivery and routing (R261, R262, R267, R282, R283, R285, R406). -/

/-- Discards a packet for its epoch, version, type, hops, route or reserved ID bits. -/
def State.stale (s : State) : State := s.bump 0x50200 1

/-- GLB_PORT_SUBST: the port used in place of port `q` (R406). -/
def State.substPort (s : State) (q : Nat) : Option (Fin 36) :=
  let v := s.rd (0x90600 + 4 * q)
  portOf? (if q < 36 ∧ bitOf v 6 = true then bitsOf v 5 0 else q)

/-- The port of a routing-entry field when it names one in service. -/
def State.servicePort (s : State) (q : Nat) : Option (Fin 36) :=
  match s.substPort q with
  | some p => if q < 36 ∧ (s.port p).up then some p else none
  | none => none

/-- The port a unicast packet leaves by, with its class (R262, Table 10.4). -/
def State.routeOf (s : State) (b : Bank) (dest : Nat) : Option (Fin 36 × Nat) :=
  let e := (SMap.get noWord b.route dest).toNat
  let vcc := bitsOf e 17 16
  if vcc = 3 then none
  else ((s.servicePort (bitsOf e 5 0)).or (s.servicePort (bitsOf e 13 8))).map fun p => (p, vcc)

/-- A packet as it leaves by a port: class rewritten, one more hop. -/
def Flow.stamped (f : Flow) (vcc : Nat) : Flow :=
  { f with bytes := setField (setField f.bytes 3 1 vcc) 4 1 (pktHops f.bytes + 1) }

/-- A group entry's word. -/
def Bank.groupWord (b : Bank) (g n : Nat) : Nat := (SMap.get noWord b.group (32 * g + n)).toNat

/-- LO and HI of port `q` in a group entry (Table 10.7). -/
def Bank.groupRange (b : Bank) (g q : Nat) : Nat × Nat :=
  let h := bitsOf (b.groupWord g (4 + q / 2)) (16 * (q % 2) + 15) (16 * (q % 2))
  (h % 256, h / 256)

/-- Sends one branch of a multicast, or prunes it (R283). -/
def State.branch (s : State) (b : Bank) (f : Flow) (q : Nat) : State :=
  let g := pktDest f.bytes % 4096
  let (lo, hi) := b.groupRange g q
  match s.substPort q with
  | none => s.sendFenced f.bytes lo hi
  | some r =>
    let k := s.port r
    if !k.up || (k.neighbor != 0xFFFF && s.fenced k.neighbor) then s.sendFenced f.bytes lo hi
    else
      let vcc := bitsOf (SMap.get noWord b.route k.neighbor).toNat 17 16
      if vcc = 3 then s.stale else s.toPort r (f.stamped vcc) vcc

/-- Takes a packet for this module: it is acted on when its last flit has come. -/
def State.deliver (s : State) (f : Flow) : State :=
  let whole := f.got == f.flits
  { s with inbox := s.inbox ++ [{ port := f.port, bytes := if whole then f.bytes.take (64 + pktPayloadLen f.bytes) else f.bytes,
                                  rid := f.rid, left := f.flits - f.got }] }

/-- Routes a packet that this module holds (R261, R262, R282 to R285). -/
def State.routePacket (s : State) (b : Bank) (f : Flow) : State :=
  let p := f.bytes
  let dest := pktDest p
  if pktMcast p then
    let g := dest % 4096
    if !bitOf (b.groupWord g 0) 0 then s.stale
    else
      let ports := b.groupWord g 2 + b.groupWord g 3 % 16 * 2 ^ 32
      let spent := decide (63 ≤ pktHops p)
      let s1 := if bitOf (b.groupWord g 0) 1 then s.deliver f else s
      ((List.range 36).filter fun q => bitOf ports q).foldl (fun s q => if spent then s.stale else s.branch b f q) s1
  else if dest = 0xFFFF then s.stale
  else if dest = s.selfId ∨ s.aliasId = some dest then s.deliver f
  else if s.fenced dest then (if pktRequest p then s.sendFenced p 0 0 else s)
  else match s.routeOf b dest with
    | none => s.stale
    | some (q, vcc) => if 63 ≤ pktHops p then s.stale else s.toPort q (f.stamped vcc) vcc

/-- A packet whose first flit has come by a port: the checks that discard it where it is found (R258, R259, R267). -/
def State.arrive (s : State) (version : Nat) (f : Flow) : State :=
  if pktVersion f.bytes ≠ version ∨ pktIdsOk f.bytes = false ∨ 4 ≤ pktType f.bytes then s.stale
  else match s.routingBank (pktEpoch f.bytes) with
    | none => s.stale
    | some b => (if b.st = .draining then s.bump 0x50010 1 else s).routePacket b f

/-- The packet at the head of a virtual channel of a port. -/
def Port.head (k : Port) (vc : Nat) : Option RxFlow := k.rx.find? fun f => f.vc == vc

/-- Sets the fate of a reception: discarded where nothing has taken it. -/
def State.sealFlow (s : State) (q : Fin 36) (rid : Nat) : State :=
  let kept := (s.inbox.any fun r => r.rid == some rid) || allPorts.any fun p =>
    ((s.port p).begun ++ (s.port p).waiting).any fun o => o.rid == some rid
  let mark (f : RxFlow) : RxFlow := if f.rid = rid then { f with fate := if kept then .taken else .discarded } else f
  s.modPort q fun k => { k with rx := k.rx.map mark }

/-- Routes the head of a virtual channel once. -/
def State.routeHead (s : State) (q : Fin 36) (vc : Fin 12) : State :=
  match (s.port q).head vc.val with
  | none => s
  | some f =>
    if f.fate ≠ .unrouted then s
    else
      let w : Flow := { rid := some f.rid, port := some q.val, bytes := f.bytes, got := f.got, flits := f.flits }
      ((s.arrive f.version w).sealFlow q f.rid).settleRx

/-- A packet awaits answers only while fewer than 8,192 do (R276). -/
def State.mayInject (s : State) (t : TxPkt) : Bool := t.wait.isNone || decide (s.awaiting.length < 8192)

/-- The packet as it is injected: epoch, source, membership epoch and PCRC (R260, R267, R406). -/
def State.injected (s : State) (epoch : Nat) (p : List Byte) : List Byte :=
  let p1 := setField (setField (setField p 2 1 epoch) 0x0C 4 s.sourceId) 0x24 2 (bitsOf (s.rd 0x50028) 15 0)
  setField p1 0x30 4 (pcrcOf p1)

/-- Injects the oldest packet that may go; without an ACTIVE bank it is discarded (R268). -/
def State.inject (s : State) : State :=
  match s.txQ.find? s.mayInject with
  | none => s
  | some t =>
    let s1 := { s with txQ := s.txQ.erase t, awaiting := s.awaiting ++ t.wait.toList }
    match s.bankIn .active with
    | none => s1.stale
    | some b => s1.routePacket (s.bank b) (wholeFlow (s.injected (s.bank b).epoch t.bytes))

/-- PACKET_ROUTE: the head packet of a virtual channel, whose first flit has come, is routed at this hop; without one, the
oldest packet that waits for injection here is. -/
def execPacketRoute (head : Option (Fin 36 × Fin 12)) (s : State) : Result :=
  match head with
  | none => .next s.inject
  | some (q, vc) => .next (s.routeHead q vc)

/- The ports' life (R256, R290 to R293). -/

/-- The group-entry port of a multicast copy that waits at port `p`: `p`, or the port it stands in for (R406). -/
def State.branchPort (s : State) (t : Bank) (g : Nat) (p : Fin 36) : Nat :=
  let ports := t.groupWord g 2 + t.groupWord g 3 % 16 * 2 ^ 32
  ((List.range 36).find? fun q => bitOf ports q && s.substPort q == some p).getD p.val

/-- Discards what has come of a packet that a port had received in part, wherever it went on to. -/
def State.dropFlow (s : State) (rid : Nat) : State :=
  let keep (o : OutPkt) : Bool := o.rid != some rid
  { s with
    inbox := s.inbox.filter fun r => r.rid != some rid
    ports := s.ports.map fun k =>
      { k with begun := k.begun.filter keep, waiting := k.waiting.filter keep, rx := k.rx.filter fun f => f.rid != rid } }

/-- Takes a port's packets away (R291): those that had crossed the link in part, in either direction, are discarded and
counted; those not begun are routed again, multicast copies pruned. A packet that has come whole stays. -/
def State.dropPackets (s : State) (p : Fin 36) : State :=
  let k := s.port p
  let part := k.rx.filter fun f => decide (f.got < f.flits)
  let n := k.begun.length + (part.filter fun f => f.fate != .discarded).length
  let s1 := part.foldl (fun s f => s.dropFlow f.rid) s
  let s2 := s1.modPort p fun k => { k.bumpHalf 0x40020 16 n with begun := [], replay := [], waiting := [], credit := [] }
  (k.waiting.filter fun o => part.all fun f => o.rid != some f.rid).foldl (fun s o =>
    let w : Flow := { rid := o.rid, bytes := o.bytes, got := o.got, flits := o.flits }
    match s.routingBank (pktEpoch o.bytes) with
    | none => s.stale
    | some t =>
      if pktMcast o.bytes then
        let g := pktDest o.bytes % 4096
        let (lo, hi) := t.groupRange g (s.branchPort t g p)
        s.sendFenced o.bytes lo hi
      else match s.routeOf t (pktDest o.bytes) with
        | some (q, vcc) => s.toPort q { w with bytes := setField o.bytes 3 1 vcc } vcc
        | none => s.stale) s2

/-- Takes a port to a state in which it carries nothing. -/
def State.takeDown (s : State) (p : Fin 36) (st : PortSt) : State :=
  (s.modPort p fun k => { k with st := st, before := k.st }).dropPackets p

/-- The neighbour, the version and the run of a port that is down. A degraded port keeps its pair of lanes until PORT_CTL
retrains it (R292). -/
def Port.cleared (k : Port) : Port :=
  { k with lanes := if k.degraded then k.lanes else 0, version := 0, neighbor := 0xFFFF, run := 0, good := 0 }

/-- The protocol versions of this generation (Table 10.1). -/
def versionsHere : Nat := 2

/-- Training begins: the neighbour is offered the versions of this side and its endpoint ID (R256). -/
def State.beginTraining (s : State) (p : Fin 36) : State :=
  let s1 := s.modPort p fun k => { k.cleared with st := .training }
  { s1 with out := s1.out ++ [.trainOffer p.val versionsHere s1.selfId] }

/-- PORT_TRAIN: a port that is down trains. -/
def execPortTrain (p : Fin 36) (s : State) : Result := if (s.port p).st = .down then .next (s.beginTraining p) else .next s

/-- PORT_TRAIN_DONE: up on the highest common version, held without one, or down after 100 ms. `versions` is a bitmap
by version number. -/
def execPortTrainDone (p : Fin 36) (r : TrainResult) (ms : Nat) (s : State) : Result :=
  if (s.port p).st ≠ .training then .next s
  else
    let s1 := s.modPort p fun k => { k with trainMs := min 255 ms }
    let down := s1.modPort p fun k => { k.cleared with st := .down }
    match r with
    | .noAnswer => .next down
    | .trained versions neighbor =>
      if 100 < ms then .next down
      else if Nat.land versions versionsHere = 0 then .next (s1.modPort p fun k => { k.cleared with st := .held, neighbor := neighbor % 65536 })
      else
        let s2 := s1.modPort p fun k =>
          { k.cleared with
            st := .up, lanes := if k.degraded then k.lanes else 15, version := 1, neighbor := neighbor % 65536, rxSeq := 0, txSeq := 0
            unacked := 0, replay := [], begun := [], credit := [] }
        .next ((s2.pumpPort p).settleRx)

/-- NEIGHBOR_ID_ANNOUNCE. -/
def execNeighborIdAnnounce (p : Fin 36) (id : Nat) (s : State) : Result :=
  if (s.port p).up then .next (s.modPort p fun k => { k with neighbor := id % 65536 }) else .next s

/-- SELF_ID_WRITE: announced on every port that is up (R256). -/
def execSelfIdWrite (w : Who) (value : Word) (s : State) : Result :=
  if !planeWrites w then .next s
  else
    let s1 := s.wr 0x50000 (bitsOf value.toNat 15 0)
    let ups := allPorts.filter fun p => (s1.port p).up
    .next { s1 with out := s1.out ++ ups.map fun p => Out.announce p.val s1.selfId }

/-- PORT_RETRAIN: PORT_CTL OP 1; discarded during training (Table 17.3). -/
def execPortRetrain (w : Who) (p : Fin 36) (s : State) : Result :=
  if !planeWrites w || (s.port p).st == .training then .next s
  else .next (((s.takeDown p .training).modPort p fun k => { k with degraded := false }).beginTraining p)

/-- PORT_OUT_OF_SERVICE: PORT_CTL OP 2. -/
def execPortOutOfService (w : Who) (p : Fin 36) (s : State) : Result :=
  if !planeWrites w || (s.port p).st == .training || (s.port p).st == .outOfService then .next s
  else .next (s.takeDown p .outOfService)

/-- PORT_RETURN_TO_SERVICE: PORT_CTL OP 3; the port is again as it was. -/
def execPortReturnToService (w : Who) (p : Fin 36) (s : State) : Result :=
  if !planeWrites w || (s.port p).st != .outOfService then .next s
  else .next (s.modPort p fun k => { k with st := k.before })

/-- A port goes down (R291). -/
def State.portDown (s : State) (p : Fin 36) : State :=
  ((s.logPort p).takeDown p .down).modPort p Port.cleared

/-- NEIGHBOR_SILENT: silent for 1 ms. -/
def execNeighborSilent (p : Fin 36) (s : State) : Result := if (s.port p).up then .next (s.portDown p) else .next s

/-- VC_STALL_EVENT (R265). -/
def execVcStallEvent (p : Fin 36) (vc : Fin 12) (s : State) : Result :=
  if (s.port p).up then .next ((s.bump 0x50218 1).report (.portStall p.val vc.val)) else .next s

/- Flits (R289 to R291). -/

/-- Flits up to the one at `n` leave the replay buffer; packets whose last flit goes are acknowledged. -/
def Port.acked (k : Port) (n : Nat) : Port :=
  let gone := k.replay.take (n + 1)
  { k with replay := k.replay.drop (n + 1), begun := k.begun.filter fun o => !(gone.any fun f => f.last && f.key == o.key) }

/-- An acknowledge field: flits up to sequence number `ack` have been received. -/
def Port.ackTo (k : Port) (ack : Nat) : Port :=
  match k.replay.findIdx? fun f => f.seq == ack with
  | some i => k.acked i
  | none => k

/-- The flits of the replay buffer as they are sent again. -/
def Port.resent (k : Port) (p : Nat) : List Out :=
  k.replay.map fun f =>
    let ctl := linkCtl f.seq (k.rxSeq + 1023) false f.vc 15 0
    .flit p f.data ctl (flitCrc f.data ctl)

/-- A replay request of this port counts a run; at 16 the port degrades, or goes down (R290, R291). -/
def State.replayRun (s : State) (p : Fin 36) : State :=
  let k := s.port p
  if k.run < 16 then s
  else if k.degraded then s.portDown p
  else
    let lanes := if k.last23 < k.last01 then 12 else 3
    (s.modPort p fun k => { k.bumpHalf 0x40020 0 1 with degraded := true, lanes := lanes, run := 0, good := 0 }).logPort p

/-- Asks the neighbour to replay from the expected number. -/
def State.askReplay (s : State) (p : Fin 36) : State :=
  let s1 := s.modPort p fun k => { k.bump 0x4001C 1 with run := k.run + 1, good := 0 }
  ({ s1 with out := s1.out ++ [Out.linkNak p.val (s1.port p).rxSeq] }).replayRun p

/-- Acknowledges what has been received. -/
def State.sendAck (s : State) (p : Fin 36) : State :=
  let k := s.port p
  let s1 := s.modPort p fun k => { k with unacked := 0 }
  { s1 with out := s1.out ++ [Out.linkAck p.val ((k.rxSeq + 1023) % 1024)] }

/-- A flit's data reach the packet under way on its virtual channel, or begin one. -/
def State.takeFlit (s : State) (p : Fin 36) (vc : Nat) (data : List Byte) : State :=
  match (s.port p).rx.find? fun f => f.vc == vc && decide (f.got < f.flits) with
  | none =>
    let f : RxFlow := { rid := s.flowNo, version := (s.port p).version, vc := vc, bytes := data, got := 1, flits := pktFlits data, gone := 0, fate := .unrouted }
    { s with flowNo := s.flowNo + 1 }.modPort p fun k => { k with rx := k.rx ++ [f] }
  | some f =>
    let grow (o : OutPkt) : OutPkt := if o.rid = some f.rid then { o with bytes := o.bytes ++ data, got := o.got + 1 } else o
    let take (r : RxPkt) : RxPkt :=
      if r.rid = some f.rid then
        let b := r.bytes ++ data
        { r with bytes := if r.left = 1 then b.take (64 + pktPayloadLen b) else b, left := r.left - 1 }
      else r
    let come (g : RxFlow) : RxFlow := if g.rid = f.rid then { g with bytes := g.bytes ++ data, got := g.got + 1 } else g
    let s1 : State := { s with
      inbox := s.inbox.map take
      ports := s.ports.map fun k => { k with begun := k.begun.map grow, waiting := k.waiting.map grow, rx := k.rx.map come } }
    s1.pumpAll

/-- Flits in the buffer of an input virtual channel. -/
def Port.buffered (k : Port) (vc : Nat) : Nat := (k.rx.filter fun f => f.vc == vc).foldl (fun n f => n + (f.got - f.gone)) 0

/-- Some output virtual channel has a flit to send and no credit. -/
def Port.starved (k : Port) : Bool := (k.begun ++ k.waiting).any fun o => decide (o.sent < o.got) && k.credits o.vc == 0

/-- Link control of a flit that arrived well: the acknowledge field, a request to replay, credits. -/
def State.linkControl (s : State) (p : Fin 36) (ctl : Word) : State :=
  let s1 := s.modPort p fun k => (k.ackTo (ctlAck ctl)).addCredit (ctlCreditVc ctl) (if ctlCreditVc ctl < 12 then ctlCredits ctl else 0)
  let k := s1.port p
  let s2 := if ctlNak ctl ∧ k.replay ≠ [] then
      let t := s1.modPort p fun k => k.bump64 0x40024 k.replay.length
      { t with out := t.out ++ (Out.replay p.val ((ctlAck ctl + 1) % 1024) :: k.resent p.val) }
    else s1
  s2.pumpPort p

/-- FLIT_RECEIVE: `corr01` and `corr23` are the symbols corrected on each lane pair, `uncorr` the code words not correctable. A
flit whose CRC fails, whose number is not the expected one, or that its channel's buffer has no place for, is discarded and
asked for again. -/
def execFlitReceive (p : Fin 36) (data : List Byte) (ctl crc : Word) (corr01 corr23 uncorr stall : Nat) (s : State) : Result :=
  let k := s.port p
  if !k.up then .next s
  else
    let s1 := s.modPort p fun k =>
      { (((k.bump64 0x4002C 1).bump 0x40010 (corr01 + corr23)).bump 0x40014 uncorr).bump 0x40034 (if k.starved then stall else 0) with
        fec01 := k.fec01 + corr01, fec23 := k.fec23 + corr23 }
    if crc ≠ flitCrc data ctl then .next ((s1.modPort p fun k => k.bump 0x40018 1).askReplay p)
    else
      let s2 := s1.linkControl p ctl
      if 12 ≤ ctlVc ctl then .next s2.settleRx
      else if ctlSeq ctl ≠ k.rxSeq ∨ 16 ≤ k.buffered (ctlVc ctl) then .next (s2.askReplay p).settleRx
      else
        let s3 := s2.modPort p fun k =>
          let g := k.good + 1
          { k with rxSeq := (k.rxSeq + 1) % 1024, unacked := k.unacked + 1, good := g % 1024, run := if g = 1024 then 0 else k.run }
        let s4 := s3.takeFlit p (ctlVc ctl) data
        .next (if 16 ≤ (s4.port p).unacked then s4.sendAck p else s4).settleRx

/-- FLIT_ACK_TIMER: 1 µs after a flit that no acknowledge has covered. -/
def execFlitAckTimer (p : Fin 36) (s : State) : Result :=
  if (s.port p).up && (s.port p).unacked != 0 then .next (s.sendAck p) else .next s

end Sys2Proof.Machine
end

