-- ==== Sys2Proof/Machine/TollMath.lean ====
section
/-! DEFINITION. Tollhouses, arithmetic (R297, R300, R306 to R309): the fields of layer entries and rule records, FP32 with its
overflows, products on the array, and the rule families tile by tile. -/

namespace Sys2Proof.Machine

/- The layer table and the rule records (Tables 11.2 and 11.5). -/

def tabField (e : List Byte) (off n : Nat) : Nat := leNat ((e.drop off).take n)

def leValid (e : List Byte) : Bool := bitOf (tabField e 1 1) 0
def leToll (e : List Byte) : Nat := bitsOf (tabField e 1 1) 2 1
def leRule (e : List Byte) : Nat := bitsOf (tabField e 2 2) 11 0
def leRows (e : List Byte) : Nat := bitsOf (tabField e 4 4) 19 0
def leCols (e : List Byte) : Nat := bitsOf (tabField e 8 4) 19 0
def leGradFmt (e : List Byte) : Nat := bitsOf (tabField e 0x0C 1) 4 0
def leSFmt (e : List Byte) : Nat := bitsOf (tabField e 0x0D 1) 4 0
def leWcFmt (e : List Byte) : Nat := bitsOf (tabField e 0x0E 1) 4 0
def leWcScale (e : List Byte) : Nat := bitsOf (tabField e 0x0E 1) 6 5
def lePark (e : List Byte) : Nat := tabField e 0x10 6
def leGstride (e : List Byte) : Nat := tabField e 0x18 4
def leWstride (e : List Byte) : Nat := tabField e 0x1C 4
def leW (e : List Byte) : Nat := tabField e 0x20 6
def leM (e : List Byte) : Nat := tabField e 0x28 6
def leV (e : List Byte) : Nat := tabField e 0x30 6
def leX (e : List Byte) : Nat := tabField e 0x38 6
def leGroup (e : List Byte) : Nat := bitsOf (tabField e 0x40 2) 11 0
def leWin (e : List Byte) : Nat := bitsOf (tabField e 0x42 2) 11 0
def leGen (e : List Byte) : Nat := bitsOf (tabField e 0x44 4) 19 0
def leWinOffset (e : List Byte) : Nat := tabField e 0x48 4
def leRcount (e : List Byte) : Nat := bitsOf (tabField e 0x4C 2) 11 0
def leLcount (e : List Byte) : Nat := bitsOf (tabField e 0x4E 2) 11 0
def leCtx (e : List Byte) : Nat := bitsOf (tabField e 0x50 1) 5 0

def rrFamily (r : List Byte) : Nat := bitsOf (tabField r 1 1) 2 0
def rrVariant (r : List Byte) : Nat := bitsOf (tabField r 1 1) 5 3
def rrBiasCorr (r : List Byte) : Bool := bitOf (tabField r 2 1) 0
def rrClip (r : List Byte) : Bool := bitOf (tabField r 2 1) 1
def rrMomentum (r : List Byte) : Bool := bitOf (tabField r 2 1) 2
def rrRound (r : List Byte) : Nat := bitsOf (tabField r 3 1) 2 0
def rrStream (r : List Byte) : Nat := tabField r 4 1
def rrIters (r : List Byte) : Nat := bitsOf (tabField r 5 1) 3 0
def rrMaxStale (r : List Byte) : Nat := tabField r 6 2
/-- An FP32 parameter. -/
def rrF (r : List Byte) (off : Nat) : Val := fp32Of (tabField r off 4)
def rrS (r : List Byte) (off : Nat) : StageVal := ⟨rrF r off, false⟩

/-- Nesterov momentum of family 3. -/
def rrNesterov (r : List Byte) : Bool := bitOf (rrVariant r) 0

def colBlocks (e : List Byte) : Nat := ceilDiv (leCols e) 128
def rowBlocks (e : List Byte) : Nat := ceilDiv (leRows e) 128
/-- Tiles of a layer (R300). -/
def leTiles (e : List Byte) : Nat := rowBlocks e * colBlocks e

/-- Rows and columns of the layer that a tile holds, and whether element (i, j) lies within the layer. -/
def tileRowsAt (e : List Byte) (n : Nat) : Nat := min 128 (leRows e - n / colBlocks e * 128)
def tileColsAt (e : List Byte) (n : Nat) : Nat := min 128 (leCols e - n % colBlocks e * 128)
def inLayer (e : List Byte) (n q : Nat) : Bool := decide (q / 128 < tileRowsAt e n ∧ q % 128 < tileColsAt e n)

/- FP32 by round-to-nearest-even (R308). -/

def f32 (v : Val) : Val := (toFp32 v).1
def fadd (a b : Val) : Val := f32 (a.add b)
def fsub (a b : Val) : Val := f32 (a.add b.neg)
def fmul (a b : Val) : Val := f32 (a.mul b)
def fdiv (a b : Val) : Val := f32 (a.divExact b).1
def fsqrt (a : Val) : Val := f32 a.sqrtExact
def f32Bits (v : Val) : Word := BitVec.ofNat 32 (fp32.encode v)

/-- The same with whether a finite result left the range of FP32 on the way. -/
def fround (ovf : Bool) (v : Val) : StageVal := stageRound ⟨v, ovf⟩ v
def sadd (a b : StageVal) : StageVal := fround (a.ovf || b.ovf) (a.v.add b.v)
def ssub (a b : StageVal) : StageVal := fround (a.ovf || b.ovf) (a.v.add b.v.neg)
def smul (a b : StageVal) : StageVal := fround (a.ovf || b.ovf) (a.v.mul b.v)
def sdiv (a b : StageVal) : StageVal := fround (a.ovf || b.ovf) (a.v.divExact b.v).1
def ssqrt (a : StageVal) : StageVal := fround a.ovf a.v.sqrtExact
def szero : StageVal := ⟨.zero, false⟩
def sone : StageVal := ⟨.one, false⟩

/- Products on the array (R297). -/

/-- A 128 × 128 block in row order. -/
abbrev Block := Array StageVal

def blockOf (f : Nat → Nat → StageVal) : Block := ((List.range 16384).map fun q => f (q / 128) (q % 128)).toArray

def blockAt (b : Block) (i j : Nat) : StageVal := b.getD (128 * i + j) szero

def flipBlock (b : Block) : Block := blockOf fun i j => blockAt b j i

/-- A tile's values as a block. -/
def plainBlock (vs : List Val) : Block := (vs.map fun v => (⟨v, false⟩ : StageVal)).toArray

/-- An operand of the BF16 array. The spec does not say how a value that is none of BF16 is converted: which of its two
neighbours enters is free (assumption 18). -/
def tollOperand (v : Val) : Val :=
  let w := fp32.encode v
  bf16.decode (w / 65536 + b2n (w % 65536 != 0 && Config.tollUp (BitVec.ofNat 32 w)))

def arrayShape : Shape := shapeOf 0 0

/-- One product of two blocks added into the array: a rank-one update each beat. -/
def AccSet.product (acc : AccSet) (a b : Block) : AccSet :=
  let row (k : Nat) : List Val := (List.range 128).map fun i => tollOperand (blockAt a i k).v
  let col (k : Nat) : List Val := (List.range 128).map fun j => tollOperand (blockAt b k j).v
  acc.opx arrayShape ⟨BitVec.allOnes 128, false⟩ 128 128 ((List.range 128).map fun k => [⟨row k, col k⟩])

/-- The block as it is drained in FP32. -/
def AccSet.drainedBlock (acc : AccSet) : Block := blockOf fun i j => fround false (acc.cell (arrayShape.key i j)).val

/-- The witnesses agree within TOLL_ABFT_TOL (R57). -/
def AccSet.agrees (acc : AccSet) (tol : Nat) : Bool :=
  arrayShape.quads.all fun q => !(acc.checkQuad (bitsOf tol 7 0) (bitsOf tol 12 8) q).any

/-- Overflowed elements of a block. -/
def blockOvf (b : Block) : Nat := (b.toList.filter (·.ovf)).length

/-- A matrix of blocks. -/
structure BMat where
  cols : Nat
  blocks : Array Block

def bmat (rows cols : Nat) (f : Nat → Nat → Block) : BMat :=
  { cols := cols, blocks := ((List.range (rows * cols)).map fun q => f (q / cols) (q % cols)).toArray }

def BMat.at_ (m : BMat) (i j : Nat) : Block := m.blocks.getD (m.cols * i + j) #[]

/-- Block (i, j) of a product over `inner` blocks, accumulated in the array. -/
def BMat.dot (a b : BMat) (inner i j : Nat) : Block :=
  ((List.range inner).foldl (fun acc k => acc.product (a.at_ i k) (b.at_ k j)) AccSet.cleared).drainedBlock

/-- The product of two square matrices of n × n blocks. -/
def BMat.mul (a b : BMat) (n : Nat) : BMat := bmat n n fun i j => a.dot b n i j

/-- `f` on each element with its place. -/
def BMat.map (a : BMat) (n : Nat) (f : Nat → Nat → StageVal → StageVal) : BMat :=
  bmat n n fun i j => blockOf fun r c => f (128 * i + r) (128 * j + c) (blockAt (a.at_ i j) r c)

def BMat.ovf (a : BMat) : Nat := a.blocks.foldl (fun n b => n + blockOvf b) 0

/-- The matrix as the Gram area holds it, in BF16. -/
def BMat.stored (a : BMat) (n : Nat) : BMat := a.map n fun _ _ x => ⟨tollOperand x.v, false⟩

/-- The elements of a matrix in FP32, in the order of its blocks. -/
def BMat.words (a : BMat) : List Word := a.blocks.toList.flatMap fun b => b.toList.map fun x => f32Bits x.v

/- Statistics (R306). -/

/-- A sum of squares in W48, in the order given. -/
def sumSquares (vs : List Val) : Val := vs.foldl (fun a v => (w48Add a (v.mul v)).1) .zero

/-- A Kronecker product of a tile on the array: G·Gᵀ, or Gᵀ·G. -/
def kronecker (vs : List Val) (left : Bool) : AccSet :=
  let g := plainBlock vs
  if left then AccSet.cleared.product g (flipBlock g) else AccSet.cleared.product (flipBlock g) g

/- The rule families (R308). -/

/-- The clip scale s. -/
def clipScale (sumSq : Nat) (r : List Byte) : StageVal :=
  if rrClip r then
    let x := sdiv (rrS r 0x1C) (ssqrt (fround false (w48.decode sumSq)))
    if x.v.lt .one then x else sone
  else sone

/-- 1 − β^n of the bias correction, 1 without it. -/
def biasCorr (r : List Byte) (off n : Nat) : StageVal :=
  if rrBiasCorr r then ssub sone ⟨fp32Of (Config.tollPow (BitVec.ofNat 32 (tabField r off 4)) n).toNat, false⟩ else sone

/-- w − lr × (u + wd × w). -/
def decayStep (r : List Byte) (w u : StageVal) : StageVal := ssub w (smul (rrS r 8) (sadd u (smul (rrS r 0x18) w)))

/-- One element of family 0: new w, m and v. -/
def elementwise (r : List Byte) (t : Nat) (s w m v grad : StageVal) : StageVal × StageVal × StageVal :=
  let b1 := rrS r 0x0C
  let b2 := rrS r 0x10
  let g := smul s grad
  if rrVariant r = 2 then
    let m1 := sadd (smul b1 m) (smul (ssub sone b1) g)
    let v1 := sadd (smul b2 v) (smul (smul (ssub sone b2) g) g)
    let den := sadd (ssqrt (sdiv v1 (biasCorr r 0x10 (t + 1)))) (rrS r 0x14)
    let u := sdiv (sdiv m1 (biasCorr r 0x0C (t + 1))) den
    (decayStep r w u, m1, v1)
  else
    let m1 := sadd (smul b1 m) g
    let u := if rrVariant r = 1 then sadd g (smul b1 m1) else m1
    (decayStep r w u, m1, v)

/-- What the apply of one tile reads: gradient, weights, momentum and second moment. -/
structure TileIn where
  grad : Block
  w : Block
  m : Block
  v : Block

/-- A tile's new weights with the tensors to write. -/
structure TileOut where
  w : List StageVal
  m : Option (List StageVal) := none
  v : Option (List StageVal) := none
  /-- The factored rule's Σu² so far. -/
  rms : StageVal := szero
  fallback : Nat := 0
  beats : Nat := 0

/-- A value per element of a tile; positions beyond the layer's edge hold zero (R300). -/
def perElem (e : List Byte) (n : Nat) (f : Nat → StageVal) : List StageVal :=
  (List.range 16384).map fun q => if inLayer e n q then f q else szero

def arrAt (a : Block) (q : Nat) : StageVal := a.getD q szero

/-- What does not change within an apply: the layer's t, rms_prev and clip scale. -/
structure RuleState where
  t : Nat
  rms : Word
  s : StageVal

/-- Family 0 on a tile. -/
def applyElementwise (l : RuleState) (e r : List Byte) (n : Nat) (i : TileIn) : TileOut :=
  let f (q : Nat) := elementwise r l.t l.s (arrAt i.w q) (arrAt i.m q) (arrAt i.v q) (arrAt i.grad q)
  { w := perElem e n fun q => (f q).1, m := some (perElem e n fun q => (f q).2.1),
    v := if rrVariant r = 2 then some (perElem e n fun q => (f q).2.2) else none }

/-- Momentum of families 1 and 2. -/
def withMomentum (r : List Byte) (m u : StageVal) (decayed : Bool) : StageVal :=
  let b := rrS r 0x0C
  if decayed then sadd (smul b m) (smul (ssub sone b) u) else sadd (smul b m) u

/-- Weights, and momentum where the rule keeps it, from the updates `us` of a tile. -/
def withUpdate (e r : List Byte) (n : Nat) (i : TileIn) (us : Block) (decayed : Bool) : TileOut :=
  let ms := (perElem e n fun q => withMomentum r (arrAt i.m q) (arrAt us q) decayed).toArray
  let u := if rrMomentum r then ms else us
  { w := perElem e n fun q => decayStep r (arrAt i.w q) (arrAt u q), m := if rrMomentum r then some ms.toList else none }

/-- Family 1 on a tile; `rv`, `cv` are the new vectors, `sum` the sum of rv, `acc` Σu² so far. -/
def applyFactored (l : RuleState) (e r : List Byte) (n : Nat) (i : TileIn) (rv cv : Block) (sum acc : StageVal) : TileOut :=
  let d := sdiv ⟨fp32Of l.rms.toNat, false⟩ (rrS r 0x24)
  let cl := if Val.one.lt d.v then d else sone
  let u (q : Nat) : StageVal :=
    let ri := arrAt rv (n / colBlocks e * 128 + q / 128)
    let cj := arrAt cv (n % colBlocks e * 128 + q % 128)
    sdiv (sdiv (smul l.s (arrAt i.grad q)) (ssqrt (sdiv (smul ri cj) sum))) cl
  let us := (perElem e n u).toArray
  let acc1 := (List.range 16384).foldl (fun a q => if inLayer e n q then sadd a (smul (arrAt us q) (arrAt us q)) else a) acc
  { withUpdate e r n i us true with rms := acc1 }

/-- Family 2 on a tile: L · (s × G) · R with the roots, or the fallback (R311). -/
def applyTwoSided (l : RuleState) (e r : List Byte) (n age : Nat) (i : TileIn) (lroot rroot : Block) : TileOut :=
  let sg := (perElem e n fun q => smul l.s (arrAt i.grad q)).toArray
  let stale := decide (rrMaxStale r < age)
  let u := (AccSet.cleared.product (AccSet.cleared.product lroot sg).drainedBlock rroot).drainedBlock
  let us := (perElem e n fun q => if stale then smul (smul (rrS r 0x24) l.s) (arrAt i.grad q) else arrAt u q).toArray
  { withUpdate e r n i us false with fallback := b2n stale, beats := if stale then 0 else 256 }

/- The orthogonalised rule (R309). -/

/-- Blocks along the smaller and along the larger dimension. -/
def orthoSide (e : List Byte) : Nat := min (rowBlocks e) (colBlocks e)
def orthoPanels (e : List Byte) : Nat := max (rowBlocks e) (colBlocks e)

/-- The rows are the smaller dimension: q stands to the left of the momentum. -/
def orthoLeft (e : List Byte) : Bool := decide (leRows e ≤ leCols e)

/-- Array beats of the first pass: the Gram product of each panel, then four products per iteration. -/
def orthoBeats (e r : List Byte) : Nat :=
  let n := orthoSide e
  128 * (orthoPanels e * n ^ 2 + rrIters r * 4 * n ^ 3)

/-- Block `k` of panel `p` along the smaller dimension, as it stands to the left of its own transpose. -/
def panelBlock (e : List Byte) (tiles : Array Block) (p k : Nat) : Block :=
  if orthoLeft e then tiles.getD (colBlocks e * k + p) #[] else flipBlock (tiles.getD (colBlocks e * p + k) #[])

/-- a + panel_gram, in the Gram area. -/
def addPanel (e : List Byte) (tiles : Array Block) (a : BMat) (p : Nat) : BMat :=
  let n := orthoSide e
  let g := bmat n n fun i j => (AccSet.cleared.product (panelBlock e tiles p i) (flipBlock (panelBlock e tiles p j))).drainedBlock
  (a.map n fun i j x => sadd x (blockAt (g.at_ (i / 128) (j / 128)) (i % 128) (j % 128))).stored n

/-- The Gram matrix of the new momentum, panel by panel. -/
def gramOf (e : List Byte) (tiles : Array Block) : BMat :=
  let n := orthoSide e
  (List.range (orthoPanels e)).foldl (addPanel e tiles) (bmat n n fun _ _ => #[])

/-- trace(a). -/
def BMat.trace (a : BMat) (n : Nat) : StageVal :=
  (List.range (128 * n)).foldl (fun t d => sadd t (blockAt (a.at_ (d / 128) (d / 128)) (d % 128) (d % 128))) szero

/-- What the iterations work on: p, q, a, and the out-of-range results so far. -/
structure NsState where
  p : BMat
  q : BMat
  a : BMat
  ovf : Nat

/-- f = √trace(a), a ÷ f², q = I ÷ f. -/
def nsStart (a : BMat) (n : Nat) : NsState :=
  let f := ssqrt (a.trace n)
  let a1 := a.map n fun _ _ x => sdiv x (smul f f)
  let q := bmat n n fun i j => blockOf fun r c => if 128 * i + r = 128 * j + c then sdiv sone f else szero
  { p := q, q := q, a := a1.stored n, ovf := a1.ovf + q.ovf }

/-- One iteration with the coefficients C0, C1, C2. -/
def nsStep (r : List Byte) (n : Nat) (s : NsState) : NsState :=
  let aa := s.a.mul s.a n
  let poly (i j : Nat) (x : StageVal) : StageVal :=
    let y := blockAt (aa.at_ (i / 128) (j / 128)) (i % 128) (j % 128)
    let d := if i = j then rrS r 0x24 else szero
    sadd (sadd d (smul (rrS r 0x28) x)) (smul (rrS r 0x2C) y)
  let p := s.a.map n poly
  let q := p.mul s.q n
  let a := s.a.mul (p.mul p n) n
  { p := p, q := q, a := a.stored n, ovf := s.ovf + p.ovf + q.ovf + a.ovf }

/-- `k` iterations. -/
def nsIterate (r : List Byte) (n : Nat) : Nat → NsState → NsState
  | 0, s => s
  | k + 1, s => nsIterate r n k (nsStep r n s)

/-- q · x, or x · q, for the block of tile `n` of a matrix with the layer's tiles. -/
def orthoProduct (e : List Byte) (q : BMat) (tiles : Array Block) (n : Nat) : Block :=
  let i := n / colBlocks e
  let j := n % colBlocks e
  let t : BMat := { cols := colBlocks e, blocks := tiles }
  if orthoLeft e then q.dot t (orthoSide e) i j else t.dot q (orthoSide e) i j

/-- The second pass on a tile: `mn` is the layer's new momentum, `sg` its scaled gradient. -/
def applyOrtho (e r : List Byte) (n : Nat) (i : TileIn) (q : BMat) (mn sg : Array Block) : TileOut :=
  let x0 := orthoProduct e q mn n
  let y := orthoProduct e q sg n
  let x := if rrNesterov r then blockOf fun a b => sadd (blockAt y a b) (smul (rrS r 0x0C) (blockAt x0 a b)) else x0
  { w := perElem e n fun k => decayStep r (arrAt i.w k) (smul (rrS r 0x30) (arrAt x k))
    beats := orthoSide e * 128 * (1 + b2n (rrNesterov r)) }

end Sys2Proof.Machine
end

