-- ==== Sys2Proof/Machine/Toll.lean ====
section
/-! DEFINITION. Tollhouses, arrival (R299 to R306): the layer table, payloads, tiles and their statistics, the loss
gate (R315, R316). -/

namespace Sys2Proof.Machine

/- Tollhouses and layers. -/

def State.toll (s : State) (t : Fin 4) : Toll := s.tolls[t]

def State.modToll (s : State) (t : Fin 4) (f : Toll → Toll) : State := { s with tolls := s.tolls.set t (f (s.toll t)) }

def tollOf (n : Nat) : Fin 4 := ⟨n % 4, Nat.mod_lt _ (by decide)⟩

def allTolls : List (Fin 4) := List.finRange 4

/-- Reset values of the Tollhouse window (Table 11.7). -/
def tollReset (off : Nat) : Word := if off = 0xA0028 then 0x1004 else 0

def Toll.rd (k : Toll) (off : Nat) : Nat := Regs.rd tollReset k.regs off
def Toll.wr (k : Toll) (off v : Nat) : Toll := { k with regs := Regs.wr tollReset k.regs off v }
def Toll.bump (k : Toll) (off n : Nat) : Toll := { k with regs := Regs.bump tollReset k.regs off n }
def Toll.bumpSat (k : Toll) (off n : Nat) : Toll := { k with regs := Regs.bumpSat tollReset k.regs off n }
def Toll.bump64 (k : Toll) (off n : Nat) : Toll := { k with regs := Regs.bump64 tollReset k.regs off n }
/-- Adds to a 16-bit field that saturates. -/
def Toll.bumpHalf (k : Toll) (off lo n : Nat) : Toll :=
  { k with regs := Regs.wrBits tollReset k.regs off (lo + 15) lo (min 0xFFFF (bitsOf (k.rd off) (lo + 15) lo + n)) }

def layerDefault (_ : Nat) : Layer :=
  { st := .idle, got := [], done := [], trip := none, late := false, finished := false, sumSq := 0, rowSums := [],
    colSums := [], t := 0, rms := 0, status := 0, cause := 0, negative := false, timedOut := false, pruned := 0,
    wasTripped := false }

def State.layer (s : State) (n : Nat) : Layer := SMap.get layerDefault s.layers n

def State.setLayer (s : State) (n : Nat) (l : Layer) : State := { s with layers := SMap.set layerDefault s.layers n l }

def State.modLayer (s : State) (n : Nat) (f : Layer → Layer) : State := s.setLayer n (f (s.layer n))

/-- Bytes of a gradient tile. -/
def gradBytes (e : List Byte) : Nat := tileBytes (leGradFmt e) 0

/-- The VALID layers of the active table: index and entry. -/
def State.validLayers (s : State) : List (Nat × List Byte) := s.layerTab.filter fun p => leValid p.2

def State.layerEntry (s : State) (n : Nat) : Option (List Byte) := (s.validLayers.find? fun p => p.1 == n).map (·.2)

def State.ruleOf (s : State) (e : List Byte) : List Byte := SMap.get (fun _ => []) s.ruleTab (leRule e)

/-- The Tollhouse that serves Tollhouse `t`'s layers (GLB_TOLL_MAP, R405). -/
def State.servedBy (s : State) (t : Nat) : Fin 4 := tollOf (bitsOf (s.rd 0x90050) (8 * t + 1) (8 * t))

/- Payloads (R302, R303). -/

/-- The layer whose gradient image holds a whole range at a window of target `t`: one of that Tollhouse, or of the substitute
that serves it (R405). -/
def State.gradLayer (s : State) (t a n : Nat) : Option (Nat × List Byte) :=
  s.validLayers.find? fun p =>
    (leToll p.2 == t || tollOf (leToll p.2) == s.servedBy t) &&
      decide (lePark p.2 ≤ a ∧ a + n ≤ lePark p.2 + leTiles p.2 * leGstride p.2)

/-- Bytes of staging in use, and its size (Table 11.1). -/
def Toll.stagedBytes (k : Toll) : Nat := k.staged.foldl (fun n e => n + e.size) 0
def stagingBytes : Nat := 12 * 2 ^ 20

/-- The place of a tile in staging, if it has one. -/
def Toll.stagedTile (k : Toll) (layer n : Nat) : Option Staged := k.staged.find? fun d => d.layer == layer && d.tile == n

/-- Frees the staging of the tiles that `p` picks. -/
def Toll.unstage (k : Toll) (p : Staged → Bool) : Toll := { k with staged := k.staged.filter fun d => !p d }

/-- A part of tile `n` goes straight to the park image: the tile began without a place in staging, or finds none (R303). -/
def State.partSpills (s : State) (t : Fin 4) (layer n size : Nat) : Bool :=
  if SMap.get (fun _ => 0) (s.layer layer).got n = 0 then decide (stagingBytes < (s.toll t).stagedBytes + size)
  else ((s.toll t).stagedTile layer n).isNone

/-- The first cause trips a layer. -/
def Layer.tripped (l : Layer) (cause : Nat) : Layer := { l with trip := some (l.trip.getD cause) }

/-- Takes the part of a payload that lies in tile `n` at `off` of its slot, into staging or into the park image; bytes beyond
the tile's size are stored nowhere (R303, R304). -/
def State.takePart (s : State) (t : Fin 4) (layer : Nat) (e : List Byte) (r : Region) (n off : Nat) (bs : List Byte) : State :=
  let size := gradBytes e
  let have_ := SMap.get (fun _ => 0) (s.layer layer).got n
  let kept := bs.take (size - off)
  let s1 :=
    if s.partSpills t layer n size then
      let s0 := if have_ = 0 then s.modToll t fun k => k.bump 0xA0018 1 else s
      s0.writeOther r (lePark e + n * leGstride e + off) kept
    else
      let place (k : Toll) : Toll := if have_ = 0 then { k with staged := k.staged ++ [⟨layer, n, size, []⟩] } else k
      let put (d : Staged) : Staged := if d.layer = layer ∧ d.tile = n then { d with data := d.data.writeRun off kept } else d
      s.modToll t fun k => { place k with staged := (place k).staged.map put }
  s1.modLayer layer fun l =>
    let l1 := { l with st := if l.st = .idle then .arriving else l.st, got := SMap.set (fun _ => 0) l.got n (have_ + bs.length) }
    if size < off + bs.length ∨ size < have_ + bs.length then l1.tripped 4 else l1

/-- What becomes of a payload: answered WINDOW_CLOSED, waiting in a state in which a refetch may have begun, or taken. -/
inductive TollTake where
  | closed
  | wait (s : State)
  | taken (s : State)

/-- Hands a payload to Tollhouse target `t` (R302, R305): it waits while the layer is QUEUED, and, where it goes to the park
image, for a channel held for service (R251). -/
def State.tollPayload (s : State) (t : Nat) (r : Region) (a : Nat) (bs : List Byte) : TollTake :=
  match s.gradLayer t a bs.length with
  | none => .closed
  | some (n, e) =>
    let l := s.layer n
    let parts := slotPieces (leGstride e) bs.length (a - lePark e) bs
    let q := s.servedBy t
    if l.late then .closed
    else if l.st = .queued ∨ (s.heldAt a bs.length && parts.any fun p => s.partSpills q n (p.1 / leGstride e) (gradBytes e)) = true then
      .wait s
    else .taken (parts.foldl (fun s p => s.takePart q n e r (p.1 / leGstride e) (p.1 % leGstride e) p.2) s)

/- Tiles (R304, R306). -/

/-- A tile in memory as a stored matrix. -/
def tileMatrix (bs : List Byte) : Stored :=
  { mem := Memory.cells 0 (bs.drop 64), base := 0, fmt := tileFmt bs, kind := tileScale bs, layout := tileLayout bs,
    len := 128, slices := 128, tstride := 1 }

/-- Element (i, j) of a tile. -/
def tileElem (bs : List Byte) (i j : Nat) : Val :=
  let m := tileMatrix bs
  if m.layout = 2 then m.feedVal false 0 j i else m.feedVal true 0 i j

/-- The elements of a tile in row order. -/
def tileElems (bs : List Byte) : List Val := rowOrder.map fun p => tileElem bs p.1 p.2

def getF (m : SMap Word) (n : Nat) : Val := fp32Of (SMap.get noWord m n).toNat

/-- Adds a tile's row or column sums to the layer's, which are held in FP32. -/
def addSums (m : SMap Word) (base : Nat) (vs : List Val) : SMap Word :=
  vs.zipIdx.foldl (fun m p => SMap.set noWord m (base + p.2) (f32Bits (fadd (getF m (base + p.2)) (f32 p.1)))) m

/-- The header and the digest of an arrived tile (R231, R304). -/
def gradTileOk (e : List Byte) (bs : List Byte) : Bool :=
  headerValid bs && digestOk bs && tileFmt bs == leGradFmt e && tileScale bs == 0

/-- Squares of a layer's norm bound: √ΣS exceeds HOLD_NORM. -/
def normExceeds (sumSq : Nat) (bound : Val) : Bool := !bound.isZero && (bound.mul bound).lt (w48.decode sumSq)

/-- The statistics of one processed tile (Table 11.4). -/
def Layer.addStats (l : Layer) (e r : List Byte) (n : Nat) (bs : List Byte) (vs : List Val) : Layer :=
  let sq := sumSquares vs
  let l1 := { l with
    sumSq := w48.encode (w48Add (w48.decode l.sumSq) sq).1
    done := l.done ++ [(n, tileDigest bs, w48.encode sq)] }
  if rrFamily r = 1 then
    let g := vs.toArray
    let row (i : Nat) : Val := sumSquares ((List.range 128).map fun j => g.getD (128 * i + j) .zero)
    let col (j : Nat) : Val := sumSquares ((List.range 128).map fun i => g.getD (128 * i + j) .zero)
    { l1 with
      rowSums := addSums l1.rowSums (n / colBlocks e * 128) ((List.range 128).map row)
      colSums := addSums l1.colSums (n % colBlocks e * 128) ((List.range 128).map col) }
  else l1

/- The loss gate (R315, R316). -/

/-- A writable register of Table 11.8 as it is in force. -/
def State.tollReg (s : State) (off : Nat) : Nat := Regs.rd glbReset s.tollRegs off
def State.scopeModule (s : State) : Bool := bitOf (s.tollReg 0xA8000) 0
def State.spikeEn (s : State) : Bool := bitOf (s.tollReg 0xA8000) 1
def State.lossExpect (s : State) : Nat := bitsOf (s.tollReg 0xA8000) 31 16

/-- Decides the gate (R316). -/
def State.decideGate (s : State) (waitExpired : Bool) : State :=
  let g := s.lossGate
  let mean := fdiv (fp32Of g.cur.loss.toNat) (f32 (ofSig g.cur.count 0))
  let has := g.cur.count != 0
  let ema := fp32Of (s.rd 0xA800C)
  let spike := g.valid && decide (bitsOf (s.tollReg 0xA8000) 15 8 ≤ g.warm) &&
    (fmul (fp32Of (s.tollReg 0xA8004)) ema).lt mean
  let trip := waitExpired || g.cur.trip || (has && (mean.nonfinite || spike))
  let g1 := { g with decided := true, tripped := trip, waitExpired := waitExpired }
  let s1 := if has then s.wr 0xA8010 (fp32.encode mean) else s
  if trip ∨ has = false then { s1 with lossGate := g1 }
  else if !g.valid then { s1.wr 0xA800C (fp32.encode mean) with lossGate := { g1 with valid := true, warm := 0 } }
  else
    let beta := fp32Of (s.tollReg 0xA8008)
    let new := fadd (fmul beta ema) (fmul (fsub .one beta) mean)
    { s1.wr 0xA800C (fp32.encode new) with lossGate := { g1 with warm := min 255 (g.warm + 1) } }

/-- Some layer of the module is QUEUED. -/
def State.anyQueued (s : State) : Bool := s.layers.any fun p => p.2.st == .queued

/-- The gate is decided once LOSS_EXPECT records have arrived: at once when none is expected. -/
def State.tryGate (s : State) : State :=
  if s.spikeEn && !s.lossGate.decided && decide (s.lossExpect ≤ s.lossGate.cur.records) then s.decideGate false else s

/-- A loss record counts for the present step or the next. -/
def LossSum.take (l : LossSum) (bs : List Byte) : LossSum :=
  { records := l.records + 1, count := l.count + tabField bs 2 2,
    loss := f32Bits (fadd (fp32Of l.loss.toNat) (fp32Of (tabField bs 8 4))), trip := l.trip || bitOf (tabField bs 1 1) 0 }

/-- The module's present step for loss records: between a boundary and the next STEP, the step to come (assumption 114). -/
def Ctx.lossStep (k : Ctx) : Nat :=
  match k.step with
  | none => 0
  | some n => if k.inStep then n else n + 1

/-- A write to the control page (R315): a loss record at offset 0; none when it is answered WINDOW_CLOSED. Records that
come after the decision are extras. -/
def State.lossRecord (s : State) (ctx off : Nat) (bs : List Byte) : Option State :=
  match ctxOf? ctx with
  | none => none
  | some x =>
    let step := (s.ctx x).lossStep
    let ok := off == 0 && bs.length == 64 && tabField bs 0 1 == 1 && decide (tabField bs 1 1 < 2) && (bs.drop 0x0C).all (· == 0)
    if !ok then none
    else if tabField bs 4 4 = step % 2 ^ 32 then
      if s.lossGate.decided then some s else some ({ s with lossGate := { s.lossGate with cur := s.lossGate.cur.take bs } }).tryGate
    else if tabField bs 4 4 = (step + 1) % 2 ^ 32 then some { s with lossGate := { s.lossGate with next := s.lossGate.next.take bs } }
    else none

/-- Every VALID layer of a context has left ARRIVING (R358). -/
def State.layersLeft (s : State) (x : Fin 64) : Bool :=
  s.validLayers.all fun p => leCtx p.2 != x.val || (s.layer p.1).finished || (s.layer p.1).st == .queued || (s.layer p.1).st == .applying

/-- A layer whose tiles are all processed becomes QUEUED (R305); the context's reduction ends with its last one. -/
def State.queueLayer (s : State) (t : Fin 4) (n : Nat) : State :=
  let s1 := (s.modLayer n fun l => { l with st := .queued }).modToll t fun k => { k with queue := k.queue ++ [n] }
  let s2 := match (s.layerEntry n).bind fun e => ctxOf? (leCtx e) with
    | some x => if s1.layersLeft x then s1.modCtx x fun k => { k with reduceEnd := some s.time } else s1
    | none => s1
  s2.tryGate

/-- A Tollhouse write: discarded in a read-only region, lost where no region is (R226). -/
def State.tollWrite (s : State) (a : Nat) (bs : List Byte) : State :=
  match s.regionAt a bs.length with
  | some r => s.writeOther r a bs
  | none => s

/-- The bytes of a range as its channels deliver them. -/
def State.bytesAt (s : State) (a n : Nat) : List Byte :=
  match s.regionAt a n with
  | some r => s.rangeBytes r a n
  | none => s.mem.readRun a n

/-- What came of a Tollhouse's reads: they wait (R242, R251), or these ranges cannot be read. -/
inductive TollRead where
  | wait
  | ready (bad : List (Nat × Nat))

/-- One read of a Tollhouse after others. -/
def State.tollRead1 (p : TollRead × State) (q : Nat × Nat) : TollRead × State :=
  match p.2.regionAt q.1 q.2 with
  | none => p
  | some r =>
    let (o, t) := (p.2.chargeReads q.1 q.2).readRaw r q.1 q.2
    match p.1, o with
    | .wait, _ => (.wait, t)
    | _, .wait _ => (.wait, t)
    | .ready bad, .bad => (.ready (bad ++ [q]), t)
    | .ready bad, .ok => (.ready bad, t)

/-- The reads of a Tollhouse, charged to the partition of the layer's context (R297). -/
def State.tollReads (s : State) (rs : List (Nat × Nat)) : TollRead × State :=
  if rs.any fun q => s.heldAt q.1 q.2 then (.wait, s) else rs.foldl State.tollRead1 (.ready [], s)

/-- A self-check of Tollhouse `t` failed on layer `n` of context `x` (R312, R391, R399): it holds every later layer of the step
and is fenced at the boundary, the step is tainted, a sweep is queued. -/
def State.selfCheckFailed (s : State) (t : Fin 4) (n : Nat) (x : Option (Fin 64)) : State :=
  let s1 := ((s.modToll t fun k => { k with failed := true }).queueSweep { toll := true, unit := t.val, groups := 0x34 }).logFault
    { kind := 0x0A, status := stAbft, ctx := x, unitType := 5, unit := t.val, detail0 := n % 4096 + stAbft.toNat * 2 ^ 16 }
  match x with
  | some x => s1.taintStep x 3 stAbft
  | none => s1

/-- Drains both Kronecker products of a tile to the park image, after the tile's slot (R306). One whose witnesses do not agree
is a failed self-check, and neither is written (assumption 113). -/
def State.putKronecker (s : State) (t : Fin 4) (layer : Nat) (e : List Byte) (at' : Nat) (vs : List Val) : State :=
  let lg := kronecker vs true
  let rg := kronecker vs false
  let tol := (s.toll t).rd 0xA0028
  let s1 := s.modToll t fun k => k.bump64 0xA0020 512
  if !(lg.agrees tol && rg.agrees tol) then s1.selfCheckFailed t layer (ctxOf? (leCtx e))
  else
    let words (b : Block) : List Byte := b.toList.flatMap fun x => leBytes 4 (fp32.encode x.v)
    let s2 := (s1.tollWrite at' (words lg.drainedBlock)).tollWrite (at' + 65536) (words rg.drainedBlock)
    s2.modToll t fun k => k.bumpSat 0xA0010 (blockOvf lg.drainedBlock + blockOvf rg.drainedBlock)

/-- The check and the statistics of a tile `bs` (R304, R306); `ok` says that it could be read. -/
def State.processTile (s : State) (t : Fin 4) (layer tile : Nat) (e : List Byte) (ok : Bool) (bs : List Byte) : State :=
  let r := s.ruleOf e
  if !(ok && gradTileOk e bs) then
    (s.modToll t fun k => k.bumpSat 0xA000C 16384).modLayer layer fun l =>
      { l.tripped 4 with done := l.done ++ [(tile, tileDigest bs, 0)] }
  else
    let vs := tileElems bs
    let nf := (vs.filter (·.nonfinite)).length
    let s1 := (s.modToll t fun k => k.bumpSat 0xA000C nf).modLayer layer fun l =>
      let l1 := l.addStats e r tile bs vs
      let l2 := if nf = 0 then l1 else l1.tripped 0
      if normExceeds l2.sumSq (rrF r 0x20) && l2.done.length == leTiles e then l2.tripped 3 else l2
    if rrFamily r = 2 then s1.putKronecker t layer e (lePark e + tile * leGstride e + gradBytes e) vs else s1

/-- TOLL_TILE_COMPLETE: the last byte of a tile has arrived. The tile, whole in staging or read back from the park image, is
checked and its statistics are formed; a staged one is then written to the park image (R303, R304, R306). -/
def execTollTileComplete (t : Fin 4) (layer tile : Nat) (errs : List GranErr) (s : State) : Result :=
  meetRow errs (fun s => match s.layerEntry layer with
  | none => .next s
  | some e =>
    let l := s.layer layer
    let size := gradBytes e
    let slot := lePark e + tile * leGstride e
    if s.servedBy (leToll e) ≠ t ∨ l.done.any (fun d => d.1 == tile) = true ∨
        (l.st ≠ .arriving ∧ l.st ≠ .applying) ∨ SMap.get (fun _ => 0) l.got tile < size ∨ s.heldAt slot size = true then .next s
    else
      let go (s : State) (ok : Bool) (bs : List Byte) : Result :=
        let s1 := s.processTile t layer tile e ok bs
        let s2 := if ((s.toll t).stagedTile layer tile).isSome then s1.tollWrite slot bs else s1
        let s3 := s2.modToll t fun k => k.unstage fun d => d.layer == layer && d.tile == tile
        let l3 := s3.layer layer
        .next (if l3.st = .arriving ∧ l3.done.length = leTiles e then s3.queueLayer t layer else s3)
      match (s.toll t).stagedTile layer tile with
      | some d => go s true (d.data.readRun 0 size)
      | none => match s.tollReads [(slot, size)] with
        | (.wait, u) => .next u
        | (.ready bad, u) => go u bad.isEmpty (s.bytesAt slot size)) s

/-- LOSS_WAIT_EXPIRY: LOSS_WAIT_MS has run out since the first QUEUED layer. -/
def execLossWaitExpiry (s : State) : Result :=
  if s.spikeEn && !s.lossGate.decided && s.anyQueued then .next (s.decideGate true) else .next s

/-- Every micro-batch of a context's open step has been fetched and has completed or been aborted. -/
def Ctx.mbsDone (k : Ctx) : Bool := decide (k.mbCount ≤ k.fetchedMbs.length) && k.mbs.all fun r => k.step != some r.step || r.done

/-- ARRIVE_LIMIT_EXPIRY: ARRIVE_MS has run out for a VALID layer that is not complete (R317). -/
def execArriveLimitExpiry (layer : Nat) (s : State) : Result :=
  match s.layerEntry layer with
  | none => .next s
  | some e =>
    let l := s.layer layer
    match ctxOf? (leCtx e) with
    | none => .next s
    | some x =>
      if (l.st ≠ .arriving ∧ l.st ≠ .idle) ∨ l.finished = true ∨ (s.ctx x).inStep = false ∨ (s.ctx x).mbsDone = false then .next s
      else
        let q := s.servedBy (leToll e)
        let s1 := s.modToll q fun k => k.unstage fun d => d.layer == layer
        .next ((s1.modLayer layer fun l => { l with trip := some 6, late := true }).queueLayer q layer)

end Sys2Proof.Machine
end

