-- ==== Sys2Proof/Machine/TollRules.lean ====
section
/-! DEFINITION. Tollhouses, applies (R305, R308 to R313, R316): the choice of a layer, the rule families, the
multicast of new weights, and the end of an apply or hold. -/

namespace Sys2Proof.Machine

/- Reading and writing state tensors (R300). -/

/-- Address of tile `n` of a state tensor. -/
def tensorAt (base fmt n : Nat) : Nat := base + n * 16384 * (fmtBits fmt / 8)

/-- The elements of a run of `k` values of a state format. -/
def State.tensor (s : State) (a fmt k : Nat) : List Val :=
  let w := fmtBits fmt / 8
  (chunks w k (s.bytesAt a (k * w))).map fun b => ((ffmtOf fmt).getD fp32).decode (leNat b)

/-- What the apply of a layer knows: entry, rule record, layer index, draw key without its tile. -/
structure Apply where
  n : Nat
  e : List Byte
  r : List Byte
  key : DrawKey

/-- Draw key of a tile (R308). -/
def Apply.keyOf (a : Apply) (tile : Nat) : DrawKey := { a.key with tile := tile }

/-- Encodes the elements of a tile to a state format, with the results that left a range (R308). -/
def Apply.encode (a : Apply) (tile fmt copy : Nat) (vs : List StageVal) : List Nat × Nat :=
  let rs := vs.zipIdx.map fun p => (p.1.ovf, convertElem fmt ⟨p.1.v, p.1.ovf, roundModeOf (rrRound a.r) (a.keyOf tile) p.2 copy⟩)
  (rs.map (·.2.1), (rs.filter fun c => c.1 || c.2.2 == .ovf).length)

/-- The values that codes of a state format hold. -/
def decodeCodes (fmt : Nat) (cs : List Nat) : List Val := cs.map ((ffmtOf fmt).getD fp32).decode

/-- Writes codes of a state format. -/
def State.writeCodes (s : State) (at' fmt : Nat) (cs : List Nat) : State :=
  s.tollWrite at' (cs.flatMap fun c => leBytes (fmtBits fmt / 8) c)

/-- Counts results out of range (TOLL_APPLY_OVF). -/
def State.tollOvf (s : State) (t : Fin 4) (n : Nat) : State := s.modToll t fun k => k.bumpSat 0xA0010 n

/-- Writes a tile of a state tensor: its codes, and the state. -/
def State.writeTensor (s : State) (t : Fin 4) (a : Apply) (base tile : Nat) (vs : List StageVal) : List Nat × State :=
  let fmt := leSFmt a.e
  let (cs, o) := a.encode tile fmt 0 vs
  (cs, (s.writeCodes (tensorAt base fmt tile) fmt cs).tollOvf t o)

/- An apply. -/

/-- Address of a gradient tile's slot in the park image. -/
def parkSlot (e : List Byte) (n : Nat) : Nat := lePark e + n * leGstride e

/-- The gradient tile of the park image, when its digest and sum of squares are those of its arrival (R312). -/
def State.parkTile (s : State) (a : Apply) (l : Layer) (n : Nat) : Option (List Val) :=
  let bs := s.bytesAt (parkSlot a.e n) (gradBytes a.e)
  let vs := tileElems bs
  match l.done.find? fun d => d.1 == n with
  | none => none
  | some d =>
    if headerValid bs && tileDigest bs == d.2.1 && digestOk bs && w48.encode (sumSquares vs) == d.2.2 then some vs else none

def State.tileIn (s : State) (a : Apply) (n : Nat) (grad : List Val) : TileIn :=
  let f := leSFmt a.e
  let get (base : Nat) : Block := plainBlock (s.tensor (tensorAt base f n) f 16384)
  { grad := plainBlock grad, w := get (leW a.e), m := get (leM a.e), v := get (leV a.e) }

/-- The vectors of a factored layer: rows, then columns, from V_ADDR (assumption 19). -/
def State.vectors (s : State) (a : Apply) : Block × Block :=
  let f := leSFmt a.e
  (plainBlock (s.tensor (leV a.e) f (leRows a.e)), plainBlock (s.tensor (leV a.e + leRows a.e * (fmtBits f / 8)) f (leCols a.e)))

/-- β₂ × old + (1 − β₂) × (sum + ε₁) over a vector. -/
def newVector (r : List Byte) (old : Block) (sums : SMap Word) (n : Nat) : Block :=
  let b := rrS r 0x10
  ((List.range n).map fun i =>
    sadd (smul b (arrAt old i)) (smul (ssub sone b) (sadd ⟨getF sums i, false⟩ (rrS r 0x28)))).toArray

/-- Writes a factored vector. Its draws are keyed with tile 0, copy 0 and the index in the vector as the element, a key that
R104 does not give (assumption 106). -/
def State.writeVector (s : State) (t : Fin 4) (a : Apply) (at' : Nat) (v : Block) : State :=
  let (cs, o) := a.encode 0 (leSFmt a.e) 0 v.toList
  (s.writeCodes at' (leSFmt a.e) cs).tollOvf t o

/-- Updates one Kronecker statistic of a tile: β₂ × old + (1 − β₂) × new (R308); it stands at `at'`. -/
def State.kronUpdate (s : State) (t : Fin 4) (r : List Byte) (at' new : Nat) : State :=
  let b := rrS r 0x10
  let one (p : Val × Val) : StageVal := sadd (smul b ⟨p.1, false⟩) (smul (ssub sone b) ⟨p.2, false⟩)
  let vs := ((s.tensor at' 0 16384).zip (s.tensor new 0 16384)).map one
  (s.writeCodes at' 0 (vs.map fun x => fp32.encode x.v)).tollOvf t (vs.filter (·.ovf)).length

/-- Bank and STEP of a root header (R311). -/
def rootHeader (b : List Byte) : Nat × Nat := (bitsOf (tabField b 0 1) 0 0, tabField b 8 5)

/-- The roots of a tile: left, then right. -/
def State.roots (s : State) (a : Apply) (bank n : Nat) : Block × Block :=
  let at' := leX a.e + 4096 + (bank * leTiles a.e + n) * 65536
  (plainBlock (s.tensor at' 2 16384), plainBlock (s.tensor (at' + 32768) 2 16384))

/-- Ranges that an apply reads for tile `n`, a hold its weights alone (R310). -/
def tileReads (e r : List Byte) (bank : Nat) (hold : Bool) (n : Nat) : List (Nat × Nat) :=
  let f := leSFmt e
  let size := 16384 * (fmtBits f / 8)
  let w := [(tensorAt (leW e) f n, size)]
  if hold then w
  else
    let m := if rrFamily r = 0 ∨ rrFamily r = 3 ∨ rrMomentum r = true then [(tensorAt (leM e) f n, size)] else []
    let v := if rrFamily r = 0 ∧ rrVariant r = 2 then [(tensorAt (leV e) f n, size)] else []
    let two := if rrFamily r = 2 then
        [(parkSlot e n + gradBytes e, 131072), (leV e + n * 131072, 131072), (leX e + 4096 + (bank * leTiles e + n) * 65536, 65536)]
      else []
    (parkSlot e n, gradBytes e) :: (w ++ (m ++ (v ++ two)))

/-- Ranges that an apply reads once for the layer. -/
def layerReads (e r : List Byte) : List (Nat × Nat) :=
  let w := fmtBits (leSFmt e) / 8
  match rrFamily r with
  | 1 => [(leV e, leRows e * w), (leV e + leRows e * w, leCols e * w)]
  | 2 => [(leX e, 64)]
  | _ => []

/-- What is fixed for every tile of an apply: vectors and their sum, age and bank of the roots, q with the momentum that the
park image holds and the scaled gradient, the tiles of which something cannot be read, and whether this is a second pass, whose
gradients the first one has read and checked. -/
structure Round where
  rule : RuleState
  rv : Block := #[]
  cv : Block := #[]
  sum : StageVal := szero
  age : Nat := 0
  bank : Nat := 0
  q : BMat := { cols := 0, blocks := #[] }
  mn : Array Block := #[]
  sg : Array Block := #[]
  mnCodes : List (List Nat) := []
  bad : List Nat := []
  second : Bool := false

/-- The new values of a tile. -/
def State.tileOut (s : State) (a : Apply) (d : Round) (acc : StageVal) (n : Nat) (grad : List Val) : TileOut :=
  let i := s.tileIn a n grad
  match rrFamily a.r with
  | 0 => applyElementwise d.rule a.e a.r n i
  | 1 => applyFactored d.rule a.e a.r n i d.rv d.cv d.sum acc
  | 2 =>
    let roots := s.roots a d.bank n
    applyTwoSided d.rule a.e a.r n d.age i roots.1 roots.2
  | _ => applyOrtho a.e a.r n i d.q d.mn d.sg

/-- Writes what a tile's apply gives: the codes of its weights, and the state. -/
def State.putTileOut (s : State) (t : Fin 4) (a : Apply) (d : Round) (n : Nat) (o : TileOut) : List Nat × State :=
  let (cs, s1) := s.writeTensor t a (leW a.e) n o.w
  let s2 := match o.m with
    | some m => (s1.writeTensor t a (leM a.e) n m).2
    | none => s1
  let s3 := match o.v with
    | some v => (s2.writeTensor t a (leV a.e) n v).2
    | none => s2
  let s4 := match rrFamily a.r with
    | 2 =>
      let g := parkSlot a.e n + gradBytes a.e
      (s3.kronUpdate t a.r (leV a.e + n * 131072) g).kronUpdate t a.r (leV a.e + n * 131072 + 65536) (g + 65536)
    | 3 => s3.writeCodes (tensorAt (leM a.e) (leSFmt a.e) n) (leSFmt a.e) (d.mnCodes.getD n [])
    | _ => s3
  (cs, s4.modToll t fun k => (k.bumpHalf 0xA001C 16 o.fallback).bump64 0xA0020 o.beats)

/-- What an apply leaves: whether every self-check passed, Σu², and the weights of the tiles it has written. -/
structure Applied where
  ok : Bool
  rms : StageVal
  new : List (Nat × List Val)

/-- Applies the tiles in order; a failed self-check, or a tile that cannot be read, stops the apply (R312, assumption 115). -/
def State.applyTiles (s : State) (t : Fin 4) (a : Apply) (l : Layer) (d : Round) : Applied → List Nat → Applied × State
  | p, [] => (p, s)
  | p, n :: ns =>
    match if d.bad.contains n then none else if d.second then some [] else s.parkTile a l n with
    | none => ({ p with ok := false }, s)
    | some grad =>
      let o := s.tileOut a d p.rms n grad
      let (cs, s1) := s.putTileOut t a d n o
      s1.applyTiles t a l d { p with rms := o.rms, new := p.new ++ [(n, decodeCodes (leSFmt a.e) cs)] } ns

/-- Every tile in order. -/
def State.applyAll (s : State) (t : Fin 4) (a : Apply) (l : Layer) (d : Round) : Applied × State :=
  s.applyTiles t a l d { ok := true, rms := szero, new := [] } (List.range (leTiles a.e))

/-- Where a tile of the new momentum stands in the park image: over the gradient's slot, or beside the gradient that a
Nesterov rule keeps (assumption 116). -/
def momentumSlot (e r : List Byte) (n : Nat) : Nat := parkSlot e n + (if rrNesterov r then gradBytes e else 0)

/-- The first pass of the orthogonalised rule (R309): the new momentum goes to the park image, its Gram matrix is formed and
iterated. None when a tile fails its self-check as it is read. -/
def State.orthoPass (s : State) (t : Fin 4) (a : Apply) (l : Layer) (d : Round) : Option (Round × State) :=
  let tiles := List.range (leTiles a.e)
  let f := leSFmt a.e
  let n := orthoSide a.e
  let grads := tiles.filterMap fun i => if d.bad.contains i then none else s.parkTile a l i
  if grads.length ≠ tiles.length then none
  else
    let sg := grads.zipIdx.map fun p => perElem a.e p.2 fun q => smul d.rule.s ⟨p.1.getD q .zero, false⟩
    let mn := sg.zipIdx.map fun p =>
      let m := plainBlock (s.tensor (tensorAt (leM a.e) f p.2) f 16384)
      let g := p.1.toArray
      perElem a.e p.2 fun q => sadd (smul (rrS a.r 0x0C) (arrAt m q)) (arrAt g q)
    let coded := mn.zipIdx.map fun p => a.encode p.2 f 0 p.1
    let s1 := coded.zipIdx.foldl (fun s p => (s.writeCodes (momentumSlot a.e a.r p.2) f p.1.1).tollOvf t p.1.2) s
    let blocks := (mn.map List.toArray).toArray
    let ns := nsIterate a.r n (rrIters a.r) (nsStart (gramOf a.e blocks) n)
    let s2 := s1.modToll t fun k =>
      { k.bump64 0xA0020 (orthoBeats a.e a.r) with gram := ns.a.words, prods := ns.p.words ++ ns.q.words }
    some ({ d with
      q := ns.q, mn := (coded.map fun c => plainBlock (decodeCodes f c.1)).toArray, sg := (sg.map List.toArray).toArray
      mnCodes := coded.map (·.1), second := true, bad := (d.bad.filter fun b => decide (tiles.length ≤ b)).map (· - tiles.length) },
      s2.tollOvf t ns.ovf)

/-- The apply of a layer by the family of its rule. -/
def State.applyLayer (s : State) (t : Fin 4) (a : Apply) (l : Layer) (bad : List Nat) : Applied × State :=
  let d : Round := { rule := { t := l.t, rms := l.rms, s := clipScale l.sumSq a.r }, bad := bad }
  match rrFamily a.r with
  | 1 =>
    let (rv0, cv0) := s.vectors a
    let rv := newVector a.r rv0 l.rowSums (leRows a.e)
    let cv := newVector a.r cv0 l.colSums (leCols a.e)
    let (p, s1) := s.applyAll t a l { d with rv := rv, cv := cv, sum := rv.foldl sadd szero }
    if p.ok then
      let w := fmtBits (leSFmt a.e) / 8
      let s2 := (s1.writeVector t a (leV a.e) rv).writeVector t a (leV a.e + leRows a.e * w) cv
      let rms := ssqrt (sdiv p.rms (fround false (ofSig (leRows a.e * leCols a.e : Nat) 0)))
      (p, (s2.modLayer a.n fun l => { l with rms := f32Bits rms.v }).tollOvf t (b2n rms.ovf))
    else (p, s1)
  | 2 =>
    let (bank, at') := rootHeader (s.bytesAt (leX a.e) 64)
    let age := a.key.step - at'
    let s0 := s.modToll t fun k => k.wr 0xA001C (k.rd 0xA001C / 65536 * 65536 + max (k.rd 0xA001C % 65536) (min age 0xFFFF))
    s0.applyAll t a l { d with bank := bank, age := age }
  | 3 =>
    match s.orthoPass t a l d with
    | none => ({ ok := false, rms := szero, new := [] }, s)
    | some (d1, s1) => s1.applyAll t a l d1
  | _ => s.applyAll t a l d

/- The multicast of weights (R313). -/

/-- The group that a multicast may use: VALID and rooted here (R282), in the bank that injection uses. -/
def State.groupMembers (s : State) (g : Nat) : Option Nat :=
  match s.bankIn .active with
  | none => none
  | some b =>
    let k := s.bank b
    if bitOf (k.groupWord g 0) 0 ∧ k.groupWord g 1 % 65536 = s.sourceId then some (bitsOf (k.groupWord g 0) 24 16) else none

/-- The payloads of a run of bytes as an XMT cuts it, with their offsets (R165). -/
def xmtParts (w48 : Bool) (bs : List Byte) : List (Nat × List Byte) :=
  let n := if w48 then 4032 else 4096
  (chunks n (bs.length + 1) bs).zipIdx.map fun p => (n * p.2, p.1)

/-- Parts of a transfer that lie at or beyond 4 GiB, where no window reaches (R277). -/
def beyondWindows (offset : Nat) (ps : List (Nat × List Byte)) : Nat := (ps.filter fun p => decide (2 ^ 32 ≤ offset + p.1)).length

/-- Sends the packets of a transfer; `h` gives the header of all of them, `left` the answers each awaits. A part beyond every
window takes its number and is not sent: each of its answers would be WINDOW_CLOSED (R165, assumption 58). -/
def State.sendParts (s : State) (h : Hdr) (offset left : Nat) (by_ : Sender) (ps : List (Nat × List Byte)) : State :=
  ps.foldl (fun s p =>
    let (q, s1) := s.nextSeq h.stream
    let h1 := { h with seq := q, offset := offset + p.1, length := p.2.length }
    if 2 ^ 32 ≤ offset + p.1 then s1
    else s1.send (h1.packet p.2) (some { stream := h.stream, seq := q, left := left, by_ := by_ })) s

/-- The compute copy of tile `n` with weights `vs` as an engine-ready tile; its GEN is not stated and is free (assumption 3). -/
def State.computeCopy (s : State) (a : Apply) (n : Nat) (vs : List Val) : List Byte × Nat × State :=
  let es := vs.zipIdx.map fun p => (⟨p.1, false, roundModeOf (rrRound a.r) (a.keyOf n) p.2 1⟩ : Elem)
  let lines := (chunks 128 128 es).map fun l => outLine (leWcFmt a.e) (leWcScale a.e) l
  let codes := lines.flatMap fun l => l.2.map (·.1)
  let ovf := (lines.flatMap fun l => l.2.filter fun c => c.2 == .ovf).length
  let ps := packBits (fmtBits (leWcFmt a.e)) codes ++ lines.flatMap fun l => l.1.map (BitVec.ofNat 8)
  let (gen, s1) := s.drawFree
  (buildTile (leWcFmt a.e) (leWcScale a.e) 1 (tileRowsAt a.e n) (tileColsAt a.e n) (gen.toNat % 65536) ps, ovf, s1)

/-- The weights of tile `n` as they are sent: as they were written, or as they stand. Weights that cannot be read are free
(assumption 115). -/
def State.weightsOf (s : State) (a : Apply) (new : List (Nat × List Val)) (bad : List Nat) (n : Nat) : List Val :=
  match new.find? fun p => p.1 == n with
  | some p => p.2
  | none =>
    if bad.contains n then (List.range 16384).map fun q => fp32Of (Config.free32 (s.free * 2 ^ 48 + q)).toNat
    else s.tensor (tensorAt (leW a.e) (leSFmt a.e) n) (leSFmt a.e) 16384

/-- A completion counter belongs to a context (R274). -/
def State.counterOf (s : State) (ctx n : Nat) : Bool :=
  match ctxOf? ctx with
  | some x => decide ((s.ctx x).ccFirst ≤ n ∧ n < (s.ctx x).ccFirst + (s.ctx x).ccCount)
  | none => false

/-- Sends every tile's compute copy to the layer's group by the rules of an XMT (R165): a group that may not be used or an
LCOUNT that the layer's context does not hold is refused, and a part beyond 4 GiB counts as answered WINDOW_CLOSED. -/
def State.sendWeights (s : State) (a : Apply) (t : Fin 4) (new : List (Nat × List Val)) (bad : List Nat) : State :=
  match s.groupMembers (leGroup a.e), s.counterOf (leCtx a.e) (leLcount a.e) with
  | some members, true =>
    let h : Hdr := { type := 0, mcast := true, dest := leGroup a.e, seq := 0, stream := leLcount a.e, window := leWin a.e,
                     gen := leGen a.e, rcount := leRcount a.e }
    (List.range (leTiles a.e)).foldl (fun s n =>
      let (bs, ovf, s1) := s.computeCopy a n (s.weightsOf a new bad n)
      let at' := leWinOffset a.e + n * leWstride a.e
      let parts := xmtParts (leWcFmt a.e == 14) bs
      let lost := beyondWindows at' parts * members
      let s2 := (s1.tollOvf t ovf).sendParts h at' members (.layer a.n) parts
      if lost = 0 then s2
      else (s2.bumpCounter (leLcount a.e) lost).markLateAll.modLayer a.n fun l => { l with negative := true }) s
  | _, _ => s.modLayer a.n fun l => { l with status := if l.status = stOk then stReserved else l.status }

/- The choice of a layer (R305, R316, R405). -/

/-- Every VALID layer of the module has left ARRIVING. -/
def State.allLeft (s : State) : Bool :=
  s.validLayers.all fun p => let l := s.layer p.1; l.finished || l.st == .queued || l.st == .applying

/-- A context that parked at once under orphan policy 1: no further layer of it is applied (Table 13.4). -/
def State.layerStopped (s : State) (n : Nat) : Bool :=
  match (s.layerEntry n).bind fun e => ctxOf? (leCtx e) with
  | some x => (s.ctx x).orphaned && (s.ctx x).orphan == 1
  | none => false

/-- The layer that a Tollhouse may take next. -/
def State.nextLayer (s : State) (t : Fin 4) : Option Nat :=
  let k := s.toll t
  let q := k.queue.filter fun n => !s.layerStopped n
  if k.current.isSome || (s.spikeEn && !s.lossGate.decided) then none
  else if s.scopeModule then
    (if s.allLeft then q.foldl (fun m n => some (min n (m.getD n))) none else none)
  else q.head?

/-- Bytes of statistics of the factored layers served by a Tollhouse before layer `n` in the table, and of `n`. -/
def State.statBytes (s : State) (t : Fin 4) (n : Nat) : Nat :=
  let here := s.validLayers.filter fun p => s.servedBy (leToll p.2) == t && decide (p.1 ≤ n) && rrFamily (s.ruleOf p.2) == 1
  here.foldl (fun x p => x + 4 * (leRows p.2 + leCols p.2)) 0

/-- A layer of a fenced Tollhouse that its substitute has no room for, or any layer when all four are fenced (R405). -/
def State.noRoom (s : State) (t : Fin 4) (n : Nat) (e : List Byte) : Bool :=
  (allTolls.all fun q => (s.toll q).fenced) ||
    (s.servedBy (leToll e) != tollOf (leToll e) && rrFamily (s.ruleOf e) == 1 && decide (4 * 2 ^ 20 < s.statBytes t n))

/-- The layer's round of this step had tripped, whether it waits or has been taken (R316). -/
def Layer.trippedNow (l : Layer) : Bool := l.wasTripped || (!l.finished && l.st == .queued && l.trip.isSome)

/-- The cause for which a layer is held, if it is (R312, R316). -/
def State.holdCause (s : State) (t : Fin 4) (n : Nat) (e : List Byte) : Option Nat :=
  let l := s.layer n
  if (s.toll t).failed || s.noRoom t n e then some 5
  else match l.trip with
    | some c => some c
    | none =>
      if s.spikeEn && s.lossGate.tripped then some 1
      else if s.scopeModule && s.validLayers.any (fun p => (s.layer p.1).trippedNow) then some 2
      else none

/-- TOLL_APPLY_LAST (Table 11.7). -/
def applyLast (n : Nat) (st : Byte) (cause : Nat) : Nat := n % 4096 + st.toNat * 2 ^ 16 + cause % 8 * 2 ^ 24

/-- A layer enters its apply or hold: the round's arrival state goes. -/
def State.beginRound (s : State) (t : Fin 4) (n : Nat) : State :=
  let l := s.layer n
  let s1 := s.modToll t fun k => { k with queue := k.queue.erase n, current := some n }
  s1.setLayer n { l with
    st := .applying, got := [], done := [], trip := none, sumSq := 0, rowSums := [], colSums := [], status := stOk, cause := 0,
    negative := false, timedOut := false, pruned := 0, wasTripped := l.trip.isSome }

/-- Adds ΣS of a layer that is applied or held to the Tollhouse's sum (R314). -/
def State.addNorm (s : State) (t : Fin 4) (sumSq : Nat) : State :=
  s.modToll t fun k => { k with normSq := w48.encode (w48Add (w48.decode k.normSq) (w48.decode sumSq)).1 }

/-- The tiles of which one of the ranges `bad` is read; all of them where it is read for the layer. -/
def badTiles (e r : List Byte) (bank : Nat) (hold : Bool) (bad : List (Nat × Nat)) : List Nat :=
  (List.range (leTiles e)).filter fun n =>
    ((tileReads e r bank hold n).any bad.contains) || (!hold && (layerReads e r).any bad.contains)

/-- TOLL_APPLY_START: the Tollhouse takes its next layer, applies or holds it, and sends its weights. `fail` is a tile whose
duplicate or witness check fails; the tiles of an orthogonalised rule's second pass are numbered on from those of its first.
While something that it reads is being refetched or held for service, it waits. -/
def execTollApplyStart (t : Fin 4) (fail : ApplyCheck) (errs : List GranErr) (s : State) : Result :=
  meetRow errs (fun s =>
    let s := s.tryGate
    match s.nextLayer t with
    | none => .next s
    | some n =>
      match s.layerEntry n with
      | none => .next (s.modToll t fun k => { k with queue := k.queue.erase n })
      | some e =>
        let l := s.layer n
        let r := s.ruleOf e
        let x := ctxOf? (leCtx e)
        let (seed, step) := match x with
          | some x => ((s.ctx x).seed, (s.ctx x).step.getD 0)
          | none => (0, 0)
        let a : Apply := { n := n, e := e, r := r, key := { seed := seed, stream := rrStream r, step := step, mb := 0xFFFE, tile := 0, sel := n + 1 } }
        let cause := s.holdCause t n e
        let hold := cause.isSome
        let bank := (rootHeader (s.bytesAt (leX e) 64)).1
        let reads := (if hold then [] else layerReads e r) ++ (List.range (leTiles e)).flatMap (tileReads e r bank hold)
        match s.tollReads reads with
        | (.wait, u) => .next u
        | (.ready lost, u) =>
          let bad := badTiles e r bank hold lost
          let weights := (badTiles e r bank true lost)
          let s1 := if 2 ≤ rrRound r then (List.range (leTiles e)).foldl (fun s _ => s.tileDrawn (leCtx e) (rrStream r)) u else u
          let s2 := s1.beginRound t n
          match cause with
          | some c => .next (((s2.addNorm t l.sumSq).modLayer n fun l => { l with status := stHold, cause := c }).sendWeights a t [] weights)
          | none =>
            let (p, s3) := s2.applyLayer t a l (bad ++ fail.toList)
            if p.ok then .next (((s3.addNorm t l.sumSq).modLayer n fun l => { l with t := l.t + 1 }).sendWeights a t p.new weights)
            else
              let s4 := (s3.modLayer n fun l => { l with status := stAbft }).selfCheckFailed t n x
              .next (s4.sendWeights a t p.new weights)) s

/-- The layer still awaits answers. -/
def State.layerWaits (s : State) (n : Nat) : Bool :=
  s.awaiting.any (fun w => w.by_ == .layer n) || s.txQ.any fun p => match p.wait with
    | some w => w.by_ == .layer n
    | none => false

/-- TOLL_APPLY_END: every completion is matched; the outcome is recorded and the Tollhouse is free (R305, R313). -/
def execTollApplyEnd (t : Fin 4) (s : State) : Result :=
  match (s.toll t).current with
  | none => .next s
  | some n =>
    if s.layerWaits n then .next s
    else
      let l := s.layer n
      let sent := if l.negative then stWindowClosed else if l.timedOut then stTimeout
        else if l.pruned ≠ 0 then stPartial else stOk
      let st := if l.status ≠ stOk then l.status else sent
      let s1 := s.modToll t fun k =>
        let k1 := { k.wr 0xA0004 (applyLast n st l.cause) with current := none }
        if st = stHold then k1.bumpHalf 0xA0008 16 1 else if st = stAbft then k1 else k1.bumpHalf 0xA0008 0 1
      let full := match s.layerEntry n with
        | some e => l.done.length == leTiles e
        | none => false
      let s2 := s1.modLayer n fun l =>
        { l with st := if l.got = [] then .idle else .arriving, finished := true }
      let s3 := match s.layerEntry n with
        | some e => match ctxOf? (leCtx e) with
          | some x => if sent = stPartial then s2.modCtx x fun k => { k with accPartial := k.accPartial + 1 } else s2
          | none => s2
        | none => s2
      .next (if full then s3.queueLayer t n else s3)

end Sys2Proof.Machine
end

