-- ==== Sys2Proof/Machine/Requests.lean ====
section
/-! DEFINITION. XMT (R165), and what the fabric delivers: requests at a window (R278 to R281), answers and the
completion timeout (R272 to R275). -/

namespace Sys2Proof.Machine

/- XMT. -/

def xmtOk1 (_ : Frame) : TileArgs → Bool
  | .xmt _ mc dest .. => !mc || decide (dest.toNat < 4096)
  | _ => false

/-- XMT: checked, cut into packets that wait for injection, outstanding. -/
def execXmt (c : Fin 192) (i : Fin 8) (stall : Nat) (s : State) : Result :=
  issueStep c i stall 0x13 porterAccepts xmtOk1 anyFrame (fun f n cmd s =>
    match cmd.args with
    | .xmt b mc dest win gen rcount off lcount =>
      let k := s.core c
      let e := k.entry b.toNat
      let w48 : Bool := e.fmt == 14
      let members := if mc then s.groupMembers dest.toNat else some 1
      let ok := s.counterOpen f lcount.toNat && members.isSome && (!w48 || decide (e.extent % 192 = 0))
      s.withBillets c f cmd.args (plainUses b) ok fun _ =>
        match members with
        | none => .wait
        | some m =>
          let h : Hdr := { type := 0, mcast := mc, dest := dest.toNat, seq := 0, stream := lcount.toNat, window := win.toNat,
                           gen := gen.toNat, rcount := rcount.toNat }
          let parts := xmtParts w48 (k.sp.readRun e.addr e.extent)
          let at' := off.toNat * (if w48 then 12288 else 4096)
          let s1 := s.sendParts h at' m (.xmt c.val i.val (k.slot i).gen.toNat n.next) parts
          let lost := beyondWindows at' parts * m
          let j := { newPJob k i n cmd e (.bytes []) with expected := parts.length * m, returned := lost, negative := lost != 0 }
          .run ((s1.bumpCounter lcount.toNat lost).markLateAll.modCore c fun k => { k with porterQ := k.porterQ ++ [j] })
    | _ => .wait) s

/-- The status of an XMT whose completions have all returned (R165). -/
def PJob.xmtStatus (j : PJob) : Byte :=
  if j.negative then stWindowClosed else if j.timedOut then stTimeout else if j.pruned ≠ 0 then stPartial else stOk

/-- Records the pruned members of an XMT (R286, Table 10.13). -/
def Core.recordPruned (k : Core) (j : PJob) : Core :=
  k.recordW1C 0x20720 4 (j.slot.val * 2 + j.seq % 65536 * 2 ^ 16)
    ((List.range 8).map fun i => (0x20700 + 4 * i, j.pruned / 2 ^ (32 * i) % 2 ^ 32))

/-- XMT_COMPLETE of the request at `pos`. -/
def execXmtComplete (c : Fin 192) (pos : Nat) (w : Waits) (s : State) : Result :=
  match (s.core c).porterQ[pos]? with
  | none => .next s
  | some j =>
    match j.cmd.args with
    | .xmt .. =>
      if j.returned < j.expected then .next s
      else
        let st := j.xmtStatus
        let s1 := s.modCore c fun k =>
          let k1 := ((k.bump64 0x2061C (ceilDiv j.ent.extent 256)).bump64 0x20610 (2 * j.ent.size)).waited w
          let k2 := if st = stPartial then k1.recordPruned j else k1
          k2.endPorter pos j st
        match ctxOf? j.ctx with
        | some x => .next (if st = stPartial then s1.modCtx x fun k => { k with accPartial := k.accPartial + 1 } else s1)
        | none => .next s1
    | _ => .next s

/- Requests at a window. -/

/-- Takes a delivered packet of a type, all of whose flits have come; none when no such packet has been delivered. -/
def State.takePkt (s : State) (type : Nat) (p : List Byte) : Option (RxPkt × State) :=
  if pktType p ≠ type then none
  else (s.inbox.find? fun r => r.bytes == p && r.left == 0).map fun r => (r, { s with inbox := s.inbox.erase r })

/-- The member index with which this module answers a packet (R273, Table 10.7). -/
def State.ownMember (s : State) (p : List Byte) : Nat :=
  if !pktMcast p then 0
  else match s.routingBank (pktEpoch p) with
    | some b => bitsOf (b.groupWord (pktDest p % 4096) 0) 15 8
    | none => 0

/-- The checks of R278 on a request. -/
def State.windowFor (s : State) (p : List Byte) : Option Window :=
  let len := pktLength p
  match s.windows.find? fun w => w.id == pktWindow p && w.closing.isNone with
  | none => none
  | some w =>
    let w48 := w.target == 0 && w.op != 0 && w.fmt == 14
    if !s.isMember (pktSrc p % 65536) || w.gen != pktGen p || decide (w.size < pktOffset p + len) || decide (4096 < len) ||
        (w48 && decide (pktOffset p % 192 ≠ 0 ∨ len % 192 ≠ 0)) then none
    else if (if pktType p = 0 then s.counterOf w.ctx (pktRcount p) else w.read) then some w else none

/-- The window of a request: the one whose check it has passed already (R279), or the one that it passes now. -/
def State.passedWindow (s : State) (r : RxPkt) : Option Window := r.passed.or (s.windowFor r.bytes)

/-- A request that passed its check waits: it is held with its window. -/
def State.holdRequest (s : State) (inbox : List RxPkt) (r : RxPkt) (w : Window) : State :=
  { s with inbox := inbox.map fun q => if q = r then { q with passed := some w } else q }

/-- A request that has passed the check of a window is not answered yet. -/
def State.windowBusy (s : State) (w : Window) : Bool := s.inbox.any fun p => (p.passed.map (·.id)) == some w.id

/-- Closes a window, keeping its generation for R277. -/
def State.dropWindow (s : State) (w : Window) : State :=
  { s with windows := s.windows.filter fun v => v.id != w.id, winGen := SMap.set (fun _ => 0) s.winGen w.id (w.gen + 1) }

/-- Completes the closes of windows that nothing holds any more (R279). -/
def State.settleWindows (s : State) : State :=
  (s.windows.filter fun w => w.closing.isSome && !s.windowBusy w).foldl (fun s w => match w.closing with
    | some d => (s.dropWindow w).complete d stOk 0 0 0
    | none => s) s

/-- What follows once a delivered packet has been acted on: its place in the input buffer is free, and a close that waited for
it completes. -/
def State.packetDone (s : State) : State := s.settleRx.settleWindows

/-- Answers WINDOW_CLOSED (R278). -/
def State.answerClosed (s : State) (p : List Byte) : State := s.sendCompletion p 2 1 0 0 (s.ownMember p)

/-- Answers OK after the payload has been applied; RCOUNT advances by 1 (R273). -/
def State.answerOk (s : State) (p : List Byte) : State :=
  (s.bumpCounter (pktRcount p) 1).markLateAll.sendCompletion p 0 1 0 0 (s.ownMember p)

/-- Units of a beside-memory write of payload `bs` at `a` (R280): W48 groups, or the part of each granule. -/
def windowUnits (fmt a : Nat) (bs : List Byte) : List (List Nat × Nat × List Byte) :=
  if fmt = 14 then
    (chunks 192 (bs.length / 192) bs).zipIdx.map fun p =>
      let b := a + 192 * p.2
      ([b, b + 64, b + 128], 0, p.1)
  else (slotPieces 64 bs.length a bs).map fun p => ([p.1 / 64 * 64], p.1 % 64, p.2)

/-- A beside-memory write: it waits for a refetch. -/
def State.windowAcw (s : State) (r : Region) (w : Window) (a : Nat) (bs : List Byte) : TollTake :=
  match s.acwDecode (some r) ((granules a bs.length).map (· * 64)) with
  | (none, t) => .wait t
  | (some bad, t) => .taken (t.applyUnits (some r) w.fmt (w.op - 1) .one bad (windowUnits w.fmt a bs))

/-- Applies a WRITE that passed its checks. -/
def State.applyWrite (s : State) (w : Window) (p : List Byte) : TollTake :=
  let bs := (pktPayload p).take (pktLength p)
  let a := w.base + pktOffset p
  match s.regionAt a (max 1 bs.length) with
  | none => .closed
  | some r =>
    if w.target ≠ 0 then
      if pktOffset p < 4096 then
        match s.lossRecord w.ctx (pktOffset p) bs with
        | some t => .taken t
        | none => .closed
      else s.tollPayload (w.target - 1) r a bs
    else if r.ro then .taken (s.writeOther r a bs)
    else if s.heldAt a bs.length then .wait s
    else if w.op = 0 then (if s.writeWaits r a bs then .wait s else .taken (s.writeOther r a bs))
    else s.windowAcw r w a bs

/-- What a delivered request meets before its window: a damaged packet, a fenced module (R260, R285). -/
def State.requestGate (s : State) (p : List Byte) : Option State :=
  if !pcrcOk p then some (s.bump 0x50204 1)
  else if s.fenced s.selfId then some (s.sendFenced p (s.ownMember p) (s.ownMember p))
  else none

/-- WRITE: its last flit has arrived. -/
def execWrite (pkt : List Byte) (errs : List GranErr) (s : State) : Result :=
  meetRow errs (fun s => match s.takePkt 0 pkt with
  | none => .next s
  | some (p, s1) =>
    match s1.requestGate pkt with
    | some t => .next t.packetDone
    | none =>
      match s1.passedWindow p with
      | none => .next ((s1.bump 0x50208 1).answerClosed pkt).packetDone
      | some w =>
        match s1.applyWrite w pkt with
        | .taken t => .next (t.answerOk pkt).packetDone
        | .wait t => .next (t.holdRequest s.inbox p w)
        | .closed =>
          let t := if w.target = 0 then s1.bump 0x50208 1
            else s1.modToll (s1.servedBy (w.target - 1)) fun k => k.bump 0xA002C 1
          .next (t.answerClosed pkt).packetDone) s

/-- The READ_RESP of a READ_REQ (R281): data, or none and CSTATUS WINDOW_CLOSED. -/
def State.readAnswer (s : State) (pkt : List Byte) (st : Nat) (bs : List Byte) : State :=
  let h : Hdr := { type := 2, dest := pktSrc pkt, seq := pktSeq pkt, stream := pktStream pkt, length := bs.length,
                   cstatus := st, ccount := 1 }
  s.send (h.packet bs) none

/-- READ_REQ: answered by one READ_RESP, or waiting for a refetch or a channel held for service (R251, R281). -/
def execReadReq (pkt : List Byte) (errs : List GranErr) (s : State) : Result :=
  meetRow errs (fun s => match s.takePkt 1 pkt with
  | none => .next s
  | some (p, s1) =>
    match s1.requestGate pkt with
    | some t => .next t.packetDone
    | none =>
      match s1.passedWindow p with
      | none => .next ((s1.bump 0x50208 1).readAnswer pkt 2 []).packetDone
      | some w =>
        let a := w.base + pktOffset pkt
        let len := pktLength pkt
        match s1.regionAt a (max 1 len) with
        | none => .next ((s1.bump 0x50208 1).readAnswer pkt 2 []).packetDone
        | some r =>
          if s1.heldAt a len then .next (s1.holdRequest s.inbox p w)
          else match s1.readRaw r a len with
            | (.ok, t) => .next ((t.chargeReads a len).readAnswer pkt 0 (s1.rangeBytes r a len)).packetDone
            | (.bad, t) => .next (t.readAnswer pkt 2 []).packetDone
            | (.wait _, t) => .next (t.holdRequest s.inbox p w)) s

/- Answers. -/

def State.matching (s : State) (stream seq : Nat) : Option Await :=
  s.awaiting.find? fun w => w.stream == stream && w.seq == seq

def State.late (s : State) : State := s.bump 0x50210 1

/-- Updates a refetch. -/
def State.modRefetch (s : State) (serial : Nat) (f : Refetch → Refetch) : State :=
  { s with refetches := s.refetches.map fun r => if r.serial = serial then f r else r }

/-- READ_RESP at its source. -/
def execReadResp (pkt : List Byte) (s : State) : Result :=
  match s.takePkt 2 pkt with
  | none => .next s
  | some (_, s0) =>
    let s1 := s0.packetDone
    if !pcrcOk pkt then .next (s1.bump 0x50204 1)
    else match s1.matching (pktStream pkt) (pktSeq pkt) with
      | some w =>
        match w.by_ with
        | .refetch serial off =>
          let s2 := { s1 with awaiting := s1.awaiting.erase w }
          let put (r : Refetch) : Refetch :=
            if pktCstatus pkt ≠ 0 then { r with failed := true } else { r with got := r.got ++ [(off, pktPayload pkt)] }
          .next (s2.modRefetch serial put)
        | _ => .next s1.late
      | none => .next s1.late

/-- Bits `lo` to `hi` of a member bitmap. -/
def memberBits (lo hi : Nat) : Nat := if hi < lo then 0 else (2 ^ (hi + 1 - lo) - 1) * 2 ^ lo

/-- Gives an outcome to whoever waits for a packet: `n` completions with their CSTATUS and members, or a timeout. -/
def State.outcome (s : State) (w : Await) (n : Nat) (cstatus members : Nat) (timeout : Bool) : State :=
  match w.by_ with
  | .refetch serial _ => s.modRefetch serial fun r => { r with failed := true }
  | .layer l =>
    (s.bumpCounter w.stream n).markLateAll.modLayer l fun y =>
      { y with negative := y.negative || cstatus == 2, timedOut := y.timedOut || timeout, pruned := Nat.lor y.pruned members }
  | .xmt c slot gen seq =>
    let s1 := (s.bumpCounter w.stream n).markLateAll
    match coreOf? c with
    | none => s1
    | some c => s1.modCore c fun k =>
        { k with porterQ := k.porterQ.map fun j =>
            if j.slot.val = slot ∧ j.gen.toNat = gen ∧ j.seq = seq then
              { j with returned := j.returned + n, negative := j.negative || cstatus == 2, timedOut := j.timedOut || timeout,
                       pruned := Nat.lor j.pruned members }
            else j }

/-- COMPLETION at its source: LCOUNT advances by CCOUNT (R273). -/
def execCompletion (pkt : List Byte) (s : State) : Result :=
  match s.takePkt 3 pkt with
  | none => .next s
  | some (_, s0) =>
    let s1 := s0.packetDone
    if !pcrcOk pkt then .next (s1.bump 0x50204 1)
    else match s1.matching (pktStream pkt) (pktSeq pkt) with
      | none => .next s1.late
      | some w =>
        let n := min w.left (pktCcount pkt)
        let members := if pktCstatus pkt = 1 then memberBits (pktMlo pkt) (pktMhi pkt) else 0
        let rest := s1.awaiting.erase w
        let s2 := { s1 with awaiting := if w.left ≤ n then rest else rest ++ [{ w with left := w.left - n }] }
        .next (s2.outcome w n (pktCstatus pkt) members false)

/-- PACKET_TIMEOUT: the completion timeout of RTBL_CTO has passed for a packet (R275). -/
def execPacketTimeout (stream seq : Nat) (s : State) : Result :=
  match s.matching stream seq with
  | none => .next s
  | some w =>
    let s1 := { s.bump 0x50214 1 with awaiting := s.awaiting.erase w }
    .next (s1.outcome w w.left 0 0 true)

end Sys2Proof.Machine
end

