-- ==== Sys2Proof/Machine/Channels.lean ====
section
/-! DEFINITION. Events of the memory tiers: the end of a refetch (R240 to R243), write-back (R239), write-combining
timeouts (R247), the regulator's pick (R249), region closes (R227), channel service (R251, R252) and BAR4 (R323,
R337). -/

namespace Sys2Proof.Machine

/- Refetches. -/

/-- The tile that a refetch's present source delivered: the home copy as its channel decodes it, the parts of a peer mirror, or
what came from a host mirror (none when it did not arrive within 20 ms). -/
def State.refetched (s : State) (r : Region) (f : Refetch) (arrived : List (List Byte)) : Option (List Byte) × State :=
  if f.home then
    let a := r.home + (f.slot - r.base)
    let n := s.storedAt a r.slotBytes
    let (bad, s1) := (s.charge a n urgentClass 64).decodeGrans (granules a n)
    (if bad = [] then some (cellarDecode (s.mem.readRun a n)) else none, s1)
  else match r.mirror with
    | .none => (none, s)
    | .peer .. =>
      if f.failed ∨ f.asked = 0 ∨ f.got.length < f.asked then (none, s)
      else (some ((f.got.foldl (fun (m : Memory) p => m.writeRun p.1 p.2) []).readRun 0 r.slotBytes), s)
    | .host .. => (if s.hasMirror r then arrived.head? else none, s)

/-- A refetched tile is taken: valid header, matching digest, and the generation of the slot (R241). -/
def goodRefetch (gen : Nat) (bs : List Byte) : Option (List Byte) :=
  if headerSane bs ∧ headerBytes bs ≤ bs.length then
    let t := bs.take (headerBytes bs)
    if headerValid t && digestOk t && tileGen t == gen then some t else none
  else none

/-- Ends a refetch: waiting writes act from the state reached (Table 9.7), waiting loads are served (R242), and the die
starts the next one. -/
def State.endRefetch (s : State) (r : Region) (f : Refetch) (ok : Bool) : State :=
  let s1 : State := { s with refetches := s.refetches.filter fun g => g.serial != f.serial }
  let s2 := if ok then s1.bumpField 0x9040C 15 0 1 else s1.bumpField 0x9040C 31 16 1
  let s3 := f.writes.foldl (fun s w => s.writeSlot r w.1 w.2) s2
  (s3.serveLdts fun d => d == .refetching f.slot).startRefetches (dieOf f.slot)

/-- Writes a refetched tile whole into the faulted copy, in the urgent class (R241, R248). -/
def State.putTile (s : State) (r : Region) (slot : Nat) (t : List Byte) : State :=
  let s1 := (s.inClass urgentClass).evictRange slot t.length
  let s2 := if r.kind = 3 then s1.storeTile slot t else s1.putFull slot t
  s2.inClass normalClass

/-- REFETCH_COMPLETE of the slot at `slot`: its present source has delivered, or has not within 20 ms of the fault. It waits for a
channel held for service. -/
def execRefetchComplete (slot : Nat) (arrived : List (List Byte)) (errs : List GranErr) (s : State) : Result :=
  meetRow errs (fun s => match s.regionAt slot 1, (s.runningRefetches (dieOf slot)).find? (fun f => f.slot == slot) with
  | some r, some f =>
    let d := s.dirAt slot
    if s.heldAt slot r.slotBytes || (f.home && s.heldAt (r.home + (slot - r.base)) r.slotBytes) then .next s
    else
      let (got, s0) := s.refetched r f arrived
      match got.bind (goodRefetch d.gen) with
      | some t =>
        if f.overtaken then .next (s0.endRefetch r f true)
        else
          let s1 := s0.putTile r slot t
          let h := s1.mem.readRun slot 64
          let code := if r.kind = 3 then (tileComp h, tileStoredBytes h) else (d.comp, d.stored)
          let s2 := s1.setDir slot { st := f.prior, gen := tileGen t, comp := code.1, stored := code.2 }
          .next (s2.endRefetch r f true)
      | none =>
        if f.home ∧ s.hasMirror r = true ∧ f.overtaken = false then
          let s1 := s0.modRefetch f.serial fun g => { g with home := false }
          .next (s1.startRefetches (dieOf slot))
        else if f.overtaken then .next (s0.endRefetch r f false)
        else
          let s1 := (s0.setDir slot { d with st := .poisoned }).logChan (chanOf slot) 0x03 stWeightPoison r.owner
          .next (s1.endRefetch r f false)
  | _, _ => .next s) s

/- Write-back (R239). -/

/-- Writes a DIRTY slot of a tiered region back to its home: read, coded, and CLEAN. An uncorrectable read takes the
refetch path instead; a slot whose channels are held for service stays DIRTY. -/
def State.writeBack (s : State) (r : Region) (slot : Nat) : State :=
  let home := r.home + (slot - r.base)
  if (s.dirAt slot).st ≠ .dirty ∨ s.heldAt slot r.slotBytes = true ∨ s.heldAt home r.slotBytes = true then s
  else
    let s0 := (s.inClass backgroundClass).evictRange slot r.slotBytes
    match s0.readSlot r slot slot r.slotBytes with
    | (.ok, s1) =>
      let s2 := ((s1.chargeReads slot r.slotBytes).storeTile home (s1.mem.readRun slot r.slotBytes)).inClass normalClass
      let h := s2.mem.readRun home 64
      s2.setDir slot { s2.dirAt slot with st := .clean, comp := tileComp h, stored := tileStoredBytes h }
    | (_, s1) => s1.inClass normalClass

/-- The DIRTY slots of a region. -/
def State.dirtySlots (s : State) (r : Region) : List Nat :=
  (s.dir.filter fun e => decide (r.base ≤ e.1 ∧ e.1 < r.base + r.bytes) && e.2.st == .dirty).map (·.1)

/-- Writes back every DIRTY slot of a region. -/
def State.flushRegion (s : State) (r : Region) : State := (s.dirtySlots r).foldl (fun s slot => s.writeBack r slot) s

/-- Nothing of a region's write-back is left: no DIRTY slot, and none that a refetch may make DIRTY again. -/
def State.flushed (s : State) (r : Region) : Bool :=
  (s.dirtySlots r).isEmpty && !(s.refetches.any fun f => r.holds f.slot 1)

/- Write combining. -/

/-- WC_ENTRY_TIMEOUT: an entry untouched for 2 µs is evicted. -/
def execWcEntryTimeout (ch : Fin 208) (granule : Nat) (errs : List GranErr) (s : State) : Result :=
  meetRow errs (fun s => .next (s.evictChan ch fun e => e.gran == granule)) s

/- Partition regulators (R249). -/

def zeroTokens (_ : Nat) : Nat := 0

def Chan.rate (k : Chan) (p : Nat) : Nat := bitsOf (k.rd (0x30100 + 4 * p)) 7 0
def Chan.burst (k : Chan) (p : Nat) : Nat := bitsOf (k.rd (0x30100 + 4 * p)) 23 8
def Chan.hard (k : Chan) (p : Nat) : Bool := bitOf (k.rd (0x30100 + 4 * p)) 24

/-- Buckets gain RATE bytes per ns, up to BURST KiB. -/
def Chan.refill (k : Chan) (ns : Nat) : Chan :=
  let one (m : SMap Nat) (p : Nat) : SMap Nat :=
    SMap.set zeroTokens m p (min (k.burst p * 1024) (SMap.get zeroTokens m p + k.rate p * ns))
  { k with tokens := (List.range 16).foldl one k.tokens }

/-- The accesses that partition `p` would have served: urgent, then normal, then background, each in arrival order. -/
def headRequest (waiting : List ChanReq) (p : Nat) : Option ChanReq :=
  let mine := waiting.filter fun q => (q.part.map (·.val)) == some p
  [0, 1, 2].findSome? fun c => mine.find? fun q => q.cls == c

/-- The partitions that may be served in this granule slot. -/
def Chan.eligible (k : Chan) (waiting : List ChanReq) : List Nat :=
  let has (p : Nat) : Bool := (headRequest waiting p).isSome
  let paid := (List.range 16).filter fun p =>
    match headRequest waiting p with
    | some q => decide (q.cost ≤ SMap.get zeroTokens k.tokens p)
    | none => false
  let urgent := paid.filter fun p => waiting.any fun q => (q.part.map (·.val)) == some p && q.cls == 0
  let e := if urgent.isEmpty then paid else urgent
  if e.isEmpty then (List.range 16).filter fun p => has p && !k.hard p else e

/-- The next partition of a list after the one served last. -/
def nextAfter (last : Nat) (e : List Nat) : Option Nat := ((List.range 16).map fun d => (last + 1 + d) % 16).find? fun p => e.contains p

/-- One access of the first run that is `q` has been served. -/
def serveOne (q : ChanReq) : List ChanReq → List ChanReq
  | [] => []
  | r :: rs => if r = q then (if r.left ≤ 1 then rs else { r with left := r.left - 1 } :: rs) else r :: serveOne q rs

/-- Chooses and serves one access (R249). With `own` the granule slot goes to directory or reserved-range traffic, which belongs
to no partition and is urgent: it pays no tokens and leaves the round robin as it is (assumption 54). -/
def Chan.pick (k : Chan) (ns : Nat) (own : Bool) : Chan :=
  let k1 := k.refill ns
  if own then match k1.reqs.find? fun q => q.part.isNone with
    | some q => { k1 with reqs := serveOne q k1.reqs }
    | none => k1
  else match nextAfter k1.lastPart (k1.eligible k1.reqs) with
    | none => k1
    | some p =>
      match headRequest k1.reqs p with
      | none => k1
      | some q =>
        { k1.bump (0x30140 + 4 * p) 1 with
          tokens := SMap.set zeroTokens k1.tokens p (SMap.get zeroTokens k1.tokens p - q.cost), lastPart := p, reqs := serveOne q k1.reqs }

/-- CHANNEL_PICK: the granule slot `ns` nanoseconds after the last one; a channel held for service serves none. -/
def execChannelPick (ch : Fin 208) (ns : Nat) (own : Bool) (s : State) : Result :=
  if (s.chan ch).st = 1 then .next (s.modChan ch fun k => k.refill ns) else .next (s.modChan ch fun k => k.pick ns own)

/- Region closes (R227, R277). -/

/-- A range reaches a region. -/
def Region.meets (r : Region) (a n : Nat) : Bool := decide (a < r.base + r.bytes ∧ r.base < a + n)

/-- The address of a Porter command. -/
def porterAddr : TileArgs → Option Nat
  | .ldt _ _ _ a _ => some a.toNat
  | .stt _ _ a _ => some a.toNat
  | .acw _ _ a _ => some a.toNat
  | _ => none

/-- A Porter request reaches a region. -/
def PJob.reaches (j : PJob) (r : Region) : Bool :=
  match porterAddr j.cmd.args with
  | some a => r.meets a (max 64 (max j.ent.extent (j.ent.moved true)))
  | none => false

/-- The stream's local range for buffer `n` (R335). -/
def streamLocal (d : DescRef) (n : Nat) : Nat := d.le 0x18 6 + n * d.le 0x24 4

/-- A running or latched stream reaches a region. -/
def Stream.reaches (t : Stream) (r : Region) : Bool :=
  match t.set with
  | some d => (t.st == .busy || t.st == .latched) && (List.range (d.le 0x0A 2)).any fun n => r.meets (streamLocal d n) (d.le 0x0C 4)
  | none => false

/-- A COPY or REGION_FLUSH that has begun and waits reaches a region. -/
def OutDesc.reaches (o : OutDesc) (r : Region) : Bool :=
  o.started && o.waits && (match o.ref.le 1 1 with
    | 0x10 => r.meets (o.ref.le 0x18 6) (o.ref.le 0x20 4)
    | 0x22 => r.base == o.ref.le 0x10 6
    | _ => false)

/-- Something that reaches a region is outstanding (R227). -/
def State.regionBusy (s : State) (r : Region) : Bool :=
  (allCores.any fun c => (s.core c).porterQ.any fun j => j.reaches r) ||
    (s.refetches.any fun f => r.holds f.slot 1) ||
    (s.windows.any fun w => r.meets w.base w.size && s.windowBusy w) ||
    (s.streams.any fun p => p.2.reaches r) || (s.sqs.toList.any fun k => k.out.any fun o => o.reaches r)

/-- Removes a region: the windows over it first, its write-combining entries evicted, its directory slots freed. -/
def State.dropRegion (s : State) (r : Region) : State :=
  let s1 := (s.windows.filter fun w => r.meets w.base w.size).foldl (fun s w => s.dropWindow w) s
  let s2 := s1.evictRange r.base r.bytes
  { s2 with
    regions := s2.regions.filter fun q => q.base != r.base
    dir := s2.dir.filter fun e => !r.holds e.1 1
    refetches := s2.refetches.filter fun f => !r.holds f.slot 1 }

/-- REGION_CLOSE_EFFECT: nothing that reaches the region is outstanding any more. -/
def execRegionCloseEffect (base : Nat) (errs : List GranErr) (s : State) : Result :=
  meetRow errs (fun s => match s.regions.find? (fun r => r.base == base && r.closing.isSome) with
  | none => .next s
  | some r =>
    if s.regionBusy r then .next s
    else
      let s1 := s.dropRegion r
      match r.closing with
      | some d => .next (s1.complete d stOk 0 0 0)
      | none => .next s1) s

/- Channel service (R251, R252). -/

/-- The stack or cellar package of a channel: at most one operation runs in each. -/
def serviceUnit (ch : Nat) : Nat := if ch < 192 then ch / 16 else 12 + (ch - 192)

def svcCode (running : Bool) : Nat := if running then 2 else 1

/-- Starts the oldest waiting operation of a unit when none runs there. A retrain evicts the write-combining buffer and
holds the channel; a failed channel keeps its STATE. -/
def State.startService (s : State) (unit : Nat) : State :=
  let mine (o : SvcOp) : Bool := serviceUnit o.chan == unit
  if s.svcQ.any fun o => mine o && o.running then s
  else match s.svcQ.find? mine with
    | none => s
    | some o =>
      let run (l : List SvcOp) : List SvcOp := l.erase o
      let c := chanAt o.chan
      let s1 : State := { s with svcQ := { o with running := true } :: run s.svcQ }
      let s2 := if o.op = 2 then s1.evictChan c (fun _ => true) else s1
      s2.modChan c fun k => { k with svc := svcCode true, st := if o.op = 2 ∧ k.st ≠ 2 then 1 else k.st }

/-- Requests a service operation. -/
def State.requestService (s : State) (w : Who) (ch : Fin 208) (op : Nat) : State :=
  if !planeWrites w then s
  else
    let s1 : State := { s with svcQ := s.svcQ ++ [{ chan := ch.val, op := op, running := false }] }
    let s2 := s1.modChan ch fun k => if k.svc = 2 then k else { k with svc := svcCode false }
    s2.startService (serviceUnit ch.val)

/-- MARGIN_SCAN. -/
def execMarginScan (w : Who) (ch : Fin 208) (s : State) : Result := .next (s.requestService w ch 1)

/-- RETRAIN. -/
def execRetrain (w : Who) (ch : Fin 208) (errs : List GranErr) (s : State) : Result :=
  meetRow errs (fun s => .next (s.requestService w ch 2)) s

/-- RESULT of an operation: 1 pass, 2 marginal, 3 failed. -/
def serviceResult (tMin vMin : Nat) : Nat :=
  if tMin < 8 ∨ vMin < 15 then 3 else if tMin < 16 ∨ vMin < 30 then 2 else 1

/-- CHANNEL_SERVICE_COMPLETE: the margins found and the time taken; loads that were held are read (R251). -/
def execChannelServiceComplete (ch : Fin 208) (tMin vMin lane us : Nat) (errs : List GranErr) (s : State) : Result :=
  meetRow errs (fun s => match s.svcQ.find? (fun o => o.chan == ch.val && o.running) with
  | none => .next s
  | some o =>
    let t := tMin % 128
    let v := vMin % 256
    let r := serviceResult t v
    let s1 : State := { s with svcQ := s.svcQ.erase o }
    let again := s1.svcQ.any fun q => q.chan == ch.val
    let s2 := s1.modChan ch fun k =>
      let k1 := (k.wr 0x3000C (t + v * 2 ^ 8 + lane % 256 * 2 ^ 16)).wr 0x30008 (r * 4 + b2n (o.op == 2) * 16 + min us 0xFFFF * 2 ^ 16)
      { k1 with
        svc := if again then svcCode false else 0
        st := if r = 3 then 2 else if o.op = 2 then 0 else k.st
        erased := if o.op = 2 ∧ r = 1 then none else k.erased }
    .next ((s2.serveLdts fun d => d == .held).startService (serviceUnit ch.val))) s

/- BAR4 (R322, R323). -/

/-- PCIE_BAR4_BASE of a function. -/
def Fn.bar4Base (k : Fn) : Nat := k.rd 0x10204 + k.rd 0x10208 * 2 ^ 32

/-- The region that a window access reaches: a whole range in one near region of kind 0, 1 or 2 of a context that the
function owns. -/
def State.bar4Region (s : State) (f : Fin 32) (a n : Nat) : Option Region :=
  match s.regionAt a n with
  | none => none
  | some r => match r.owner with
    | none => none
    | some x =>
      if isNear a ∧ r.kind ≤ 2 ∧ (s.ctx x).state ≠ .closed ∧ (s.ctx x).fn = f.val then some r else none

def State.bar4Reject (s : State) (f : Fin 32) : State := s.modFn f fun k => { k with regs := Regs.bump fnReset k.regs 0x1020C 1 }

/-- How a BAR4 read is answered: data, the EP bit, or Unsupported Request. -/
def State.barAnswer (s : State) (f : Fin 32) (status : Nat) (bs : List Byte) : State := { s with out := s.out ++ [.barRead f.val status bs] }

/-- An access lies within the BAR4 of a function (R322). -/
def Fn.inBar4 (k : Fn) (off len : Nat) : Bool := decide (off + len ≤ 2 ^ k.bar4Log)

/-- A byte of a mailbox as the host reads it: VERSION reads 1, reserved bytes 0 (R337). After a reset of the function the
header reads as zero (R321), until the host writes the mailbox again (assumption 103). -/
def Fn.boxByte (k : Fn) (off : Nat) : Byte := if off = 0 then (if k.boxZero then 0 else 1) else if 0x10000 ≤ off then 0 else k.box.read off

/-- BAR4_READ. An offset beyond the size of the BAR is no access to it; a channel held for service holds the read too (R251,
assumption 111). -/
def execBar4Read (f : Fin 32) (off len : Nat) (errs : List GranErr) (s : State) : Result :=
  meetRow errs (fun s => if (s.fn f).inBar4 off len = false then .next s
  else if off < 0x1000000 then
    .next (s.barAnswer f 0 ((List.range len).map fun i => (s.fn f).boxByte (off + i)))
  else
    let a := (s.fn f).bar4Base + (off - 0x1000000)
    match s.bar4Region f a len with
    | none => .next ((s.bar4Reject f).barAnswer f 2 [])
    | some r =>
      if s.heldAt a len then .next s
      else match s.readRaw r a len with
        | (.ok, t) => .next ((t.chargeReads a len).barAnswer f 0 (s.mem.readRun a len))
        | (_, t) => .next (t.barAnswer f 1 [])) s

/-- A mailbox doorbell (R337): accepted by the rule of R327 with 128 entries. -/
def State.reqDoorbell (s : State) (f : Fin 32) (v : Nat) : State :=
  let k := s.fn f
  let head := k.box.readLE 0x08 2
  let tail := k.box.readLE 0x04 2
  let d := (v % 0x10000 + 0x10000 - head) % 0x10000
  if (tail + 0x10000 - head) % 0x10000 ≤ d ∧ d ≤ 128 then s.modFn f fun k => { k with box := k.box.writeLE 0x04 2 v, boxZero := false }
  else s

/-- A write to EVT_HEAD: the events that the host has consumed. The acceptance rule of R333 is taken for it. -/
def State.evtRelease (s : State) (f : Fin 32) (v : Nat) : State :=
  let k := s.fn f
  let head := k.box.readLE 0x10 2
  let tail := k.box.readLE 0x0C 2
  if (v % 0x10000 + 0x10000 - head) % 0x10000 ≤ (tail + 0x10000 - head) % 0x10000 then
    s.modFn f fun k => { k with box := k.box.writeLE 0x10 2 v, boxZero := false }
  else s

/-- Bytes at `off` of a field that a write replaces in part: none when it does not reach the field. -/
def mergedField (m : Memory) (at' n off : Nat) (bs : List Byte) : Option Nat :=
  if off < at' + n ∧ at' < off + bs.length then some ((m.writeRun off bs).readLE at' n) else none

/-- A host write to the mailbox (R337): the request ring, REQ_TAIL and EVT_HEAD take it. -/
def State.boxWrite (s : State) (f : Fin 32) (off : Nat) (bs : List Byte) : State :=
  let ring : List (Nat × Byte) := (bs.zipIdx.map fun p => (off + p.2, p.1)).filter fun p => decide (0x1000 ≤ p.1 ∧ p.1 < 0x5000)
  let m := (s.fn f).box
  let s1 := s.modFn f fun k => { k with box := SMap.setAll memDefault k.box ring, boxZero := false }
  let s2 := match mergedField m 0x04 2 off bs with
    | some v => s1.reqDoorbell f v
    | none => s1
  match mergedField m 0x10 2 off bs with
  | some v => s2.evtRelease f v
  | none => s2

/-- BAR4_WRITE. -/
def execBar4Write (f : Fin 32) (off : Nat) (data : List Byte) (errs : List GranErr) (s : State) : Result :=
  meetRow errs (fun s => if (s.fn f).inBar4 off data.length = false then .next s
  else if off < 0x10000 then .next (s.boxWrite f off data)
  else if off < 0x1000000 then .next s
  else
    let a := (s.fn f).bar4Base + (off - 0x1000000)
    match s.bar4Region f a (max 1 data.length) with
    | none => .next (s.bar4Reject f)
    | some r => if s.heldAt a data.length then .next s else .next (s.writeOther r a data)) s

end Sys2Proof.Machine
end

