-- ==== Sys2Proof/Machine/Rings.lean ====
section
/-! DEFINITION. Rings (R326 to R334): doorbells, the fetch and checks of descriptors, completion records and their
interrupts, ring enables, the host engine's pieces (R345) and the mailbox doorbells (R337). -/

namespace Sys2Proof.Machine

/- Ownership. -/

/-- A function owns a context that is not closed. -/
def State.ownsCtx (s : State) (f : Fin 32) (x : Fin 64) : Bool := (s.ctx x).state != .closed && (s.ctx x).fn == f.val

/-- The function that owns a ring's context. -/
def State.ringOwner (s : State) (x : Option (Fin 64)) : Option (Fin 32) := x.map fun x => fnOf (s.ctx x).fn

/-- A function reaches a ring's registers (R340). -/
def State.ownsRing (s : State) (f : Fin 32) (x : Option (Fin 64)) : Bool :=
  match x with
  | some x => s.ownsCtx f x
  | none => false

/- Doorbells. -/

/-- (a − b) mod 65,536. -/
def ringDist (a b : Nat) : Nat := (a % 0x10000 + 0x10000 - b % 0x10000) % 0x10000

/-- The acceptance rule of R327. -/
def doorbellOk (head tail t size : Nat) : Bool := decide (ringDist tail head ≤ ringDist t head ∧ ringDist t head ≤ size)

/-- What a read of the doorbell page of context `x` returns (R322): zero to a function that does not own the context; the spec
does not say what the owner reads. No row of the table reads BAR2 (assumption 104). -/
def State.doorbellWord (s : State) (f : Fin 32) (x : Fin 64) : Word := if s.ownsCtx f x then Config.free32 s.free else 0

/-- DOORBELL: a 32-bit write at 4 × r of the doorbell page of context `x`. -/
def execDoorbell (f : Fin 32) (x : Fin 64) (r : Fin 256) (value : Word) (s : State) : Result :=
  let k := s.sq r
  if !s.ownsCtx f x ∨ k.ctx ≠ some x ∨ s.sqEnabled r = false then .next s
  else if value.toNat < 0x10000 ∧ doorbellOk k.head k.tail value.toNat (s.sqSize r) = true then
    .next (s.modSq r fun k => { k with tail := value.toNat })
  else .next (s.modSq r fun k => { k with badDb := true })

/-- CQ_HEAD_RELEASE: the driver releases records up to a HEAD between the last release and TAIL (R333; the exchange of
roles is read so, DEDUCED, assumption 20). -/
def execCqHeadRelease (f : Fin 32) (x : Fin 64) (cq : Fin 256) (value : Word) (s : State) : Result :=
  let k := s.cq cq
  if !s.ownsCtx f x ∨ k.ctx ≠ some x ∨ s.cqEnabled cq = false then .next s
  else if value.toNat < 0x10000 ∧ ringDist value.toNat k.head ≤ ringDist k.tail k.head then
    .next (s.modCq cq fun k => { k with head := value.toNat })
  else .next s

/-- MAILBOX_DOORBELL: a write to REQ_TAIL. -/
def execMailboxDoorbell (f : Fin 32) (value : Word) (s : State) : Result := .next (s.reqDoorbell f (value.toNat % 0x10000))

/-- EVT_HEAD_WRITE. -/
def execEvtHeadWrite (f : Fin 32) (value : Word) (s : State) : Result := .next (s.evtRelease f (value.toNat % 0x10000))

/- Ring enables (R326, R332, R339, R340). -/

/-- Writes INNK_SQ_CFG: while ENABLE is 1, the other fields keep their values; a refused enable leaves ENABLE 0. -/
def State.writeSqCfg (s : State) (r : Fin 256) (v : Nat) : State :=
  let old := s.rd (sqCfgOff r)
  let v := v % 2 ^ 13
  if bitOf old 0 then s.wr (sqCfgOff r) (old / 2 * 2 + v % 2)
  else
    let size := bitsOf v 4 1
    let ok := bitOf v 0 && decide (6 ≤ size) && (s.cq (ringOf (bitsOf v 12 5))).ctx == (s.sq r).ctx
    let s1 := s.wr (sqCfgOff r) (v / 2 * 2 + b2n ok)
    if ok then s1.modSq r fun k => { k with head := 0, tail := 0 } else s1

/-- Writes INNK_CQ_CFG. -/
def State.writeCqCfg (s : State) (r : Fin 256) (v : Nat) : State :=
  let old := s.rd (cqCfgOff r)
  let v := v - bitsOf v 15 14 * 2 ^ 14
  let coal := bitsOf v 31 16 * 2 ^ 16
  if bitOf old 0 then s.wr (cqCfgOff r) (bitsOf old 15 1 * 2 + coal + v % 2)
  else
    let vectors := match s.ringOwner (s.cq r).ctx with
      | some f => vectorsOf f
      | none => 0
    let ok := bitOf v 0 && decide (6 ≤ bitsOf v 4 1) && decide (bitsOf v 13 5 < vectors)
    let s1 := s.wr (cqCfgOff r) (v / 2 * 2 + b2n ok)
    if ok then s1.modCq r fun k => { k with head := 0, tail := 0, unsig := 0 } else s1

/-- RING_ENABLE: a write of a ring's CFG register by the function that owns its context. -/
def execRingEnable (f : Fin 32) (isCq : Bool) (r : Fin 256) (value : Word) (s : State) : Result :=
  if isCq then (if s.ownsRing f (s.cq r).ctx then .next (s.writeCqCfg r value.toNat) else .next s)
  else if s.ownsRing f (s.sq r).ctx then .next (s.writeSqCfg r value.toNat)
  else .next s

/- Completion records (R333, R339). -/

/-- The 32 bytes of a record (Table 12.5). -/
def Rec.bytes (r : Rec) (head tail size : Nat) : List Byte :=
  let a := leBytes 4 r.tag ++ (leBytes 2 (if r.heldOver then 0 else head) ++ (leBytes 1 r.sq ++ [r.status]))
  let b := leBytes 1 r.type ++ (leBytes 1 0 ++ (leBytes 2 r.d16 ++ leBytes 4 r.d32))
  let phase := (tail / size + 1) % 2
  a ++ (b ++ (leBytes 8 r.d64 ++ (leBytes 4 r.time ++ (leBytes 3 0 ++ leBytes 1 phase))))

/-- Host address of a ring. -/
def State.ringBase (s : State) (cfg : Nat) : Nat := s.rd (cfg - 8) / 2 ^ 12 * 2 ^ 12 + s.rd (cfg - 4) * 2 ^ 32

/-- COAL_COUNT, with 0 taken as 1, and COAL_US. -/
def State.coalCount (s : State) (q : Fin 256) : Nat := max 1 (bitsOf (s.rd (cqCfgOff q)) 23 16)
def State.coalUs (s : State) (q : Fin 256) : Nat := bitsOf (s.rd (cqCfgOff q)) 31 24

/-- Sends a completion ring's interrupt. -/
def State.signalCq (s : State) (q : Fin 256) : State :=
  match s.ringOwner (s.cq q).ctx with
  | some f => (s.msix f (bitsOf (s.rd (cqCfgOff q)) 13 5)).modCq q fun k => { k with unsig := 0 }
  | none => s

/-- A completion ring may be written: enabled, with a free slot, and its function's lease not lost (R339, R360). -/
def State.cqOpen (s : State) (q : Fin 256) : Bool :=
  let k := s.cq q
  match k.ctx with
  | none => false
  | some x => s.cqEnabled q && decide (ringDist k.tail k.head < s.cqSize q) && !(s.ctx x).orphaned &&
      (s.fn (fnOf (s.ctx x).fn)).lease != .expired

/-- Writes the oldest record that waits: one host write, TAIL, then the interrupt when it is due; its descriptor is
complete. -/
def State.writeRec (s : State) (q : Fin 256) : State :=
  let k := s.cq q
  match k.waiting, k.ctx with
  | r :: rest, some x =>
    if !s.cqOpen q then s
    else
      let size := s.cqSize q
      let sq := ringOf r.sq
      let bytes := r.bytes (s.sq sq).head k.tail size
      let a := s.ringBase (cqCfgOff q) + 32 * (k.tail % size)
      let s1 : State := { s with out := s.out ++ [.hostWrite (s.ctx x).fn a bytes] }
      let s2 := s1.modCq q fun k =>
        { k with waiting := rest, tail := (k.tail + 1) % 0x10000, unsig := k.unsig + 1, firstAt := if k.unsig = 0 then s.time else k.firstAt }
      let s3 := match r.idx with
        | some i => s2.modSq sq fun k => { k with out := k.out.filter fun o => o.ref.idx != i }
        | none => s2
      if r.irq ∨ s3.coalCount q ≤ (s3.cq q).unsig then s3.signalCq q else s3
  | _, _ => s

/-- COMPLETION_RECORD_WRITE. -/
def execCompletionRecordWrite (cq : Fin 256) (s : State) : Result :=
  if s.innkPaused then .next s else .next (s.writeRec cq)

/-- Writes every record that waits and finds room. -/
def State.writeRecs (s : State) (q : Fin 256) : State := (s.cq q).waiting.foldl (fun s _ => s.writeRec q) s

/-- INTERRUPT_COAL_TIMER: COAL_US has passed since the first record not yet signalled. -/
def execInterruptCoalTimer (cq : Fin 256) (s : State) : Result :=
  if s.coalUs cq = 0 ∨ (s.cq cq).unsig = 0 ∨ s.cqEnabled cq = false then .next s else .next (s.signalCq cq)

/- Descriptors: reserved fields and ranges (R330, R331, Tables 12.3 and 12.4). -/

def DescRef.type (d : DescRef) : Nat := d.le 1 1
def DescRef.barrier (d : DescRef) : Bool := bitOf (d.le 2 1) 1
/-- Bits [hi:lo] of the field of `n` bytes at `off`. -/
def DescRef.bits (d : DescRef) (off n hi lo : Nat) : Nat := bitsOf (d.le off n) hi lo

/-- Named bits of byte `off` for a field of `w` bits at `at'`. -/
def fieldMask (at' w off : Nat) : Nat := if off < at' then 0 else 2 ^ min 8 (w - 8 * (off - at')) - 1

/-- The fields of a body: byte offset and width in bits. -/
def bodyFields (d : DescRef) : List (Nat × Nat) :=
  let kind := d.bits 8 1 2 0
  let mirror := d.bits 9 1 1 0
  match d.type with
  | 0x01 => [(8, 40), (0x10, 16)]
  | 0x02 => [(8, 40), (0x10, 16), (0x18, 48)]
  | 0x03 => [(8, 32), (0x10, 64), (0x18, 64), (0x20, 32), (0x24, 32)]
  | 0x10 => [(8, 1), (0x10, 64), (0x18, 48), (0x20, 32)]
  | 0x11 => [(8, 8), (9, 1), (0x0A, 14), (0x0C, 15), (0x10, 64)]
  | 0x12 => [(8, 8), (0x0C, 17), (0x10, 64), (0x18, 18)]
  | 0x20 =>
    let home := if kind = 2 then [(0x18, 48)] else []
    let slot := if 1 ≤ kind ∧ kind ≤ 3 then [(9, 2), (0x0A, 16)] else []
    let m := if mirror = 1 then [(0x20, 16), (0x22, 12), (0x24, 20), (0x28, 32)]
      else if mirror = 2 then [(0x20, 5), (0x30, 64)] else []
    [(8, 7), (0x0C, 32), (0x10, 48), (0x38, 64)].append (home.append (slot.append m))
  | 0x21 => [(0x10, 48)]
  | 0x22 => [(0x10, 48)]
  | 0x24 => [(8, 12), (0x0A, 6), (0x0B, 5), (0x0C, 20), (0x10, 48), (0x18, 21)]
  | 0x25 => [(8, 12)]
  | 0x28 => [(0x10, 64), (0x18, 13), (0x1A, 13)]
  | 0x30 => [(8, 6), (9, 1), (0x0A, 16), (0x0C, 32), (0x10, 64), (0x18, 48), (0x20, 32), (0x24, 32)]
  | 0x31 => [(8, 6)]
  | _ => []

def descNamed (d : DescRef) (off : Nat) : Nat :=
  if off < 2 then 255 else if off = 2 then 3 else if off = 3 then 0 else if off < 8 then 255
  else (bodyFields d).foldl (fun m f => Nat.lor m (fieldMask f.1 f.2 off)) 0

/-- Bytes whose reserved bits are not zero. -/
def reservedAt (d : DescRef) : List Nat := (List.range 64).filter fun i => Nat.land (d.le i 1) (255 - descNamed d i) != 0

/-- Descriptor types of Table 12.4. -/
def typeKnown (t : Nat) : Bool := [0, 1, 2, 3, 0x10, 0x11, 0x12, 0x20, 0x21, 0x22, 0x24, 0x25, 0x28, 0x30, 0x31].contains t

/-- Fields outside their range: byte offset, and whether the value is allowed. -/
def rangeRules (d : DescRef) : List (Nat × Bool) :=
  let kind := d.bits 8 1 2 0
  match d.type with
  | 0x01 => [(0x10, decide (1 ≤ d.le 0x10 2 ∧ d.le 0x10 2 ≤ 65534))]
  | 0x02 => [(0x10, decide (d.le 0x10 2 ≤ 0xFFFD))]
  | 0x11 => [(0x0C, decide (1 ≤ d.bits 0x0C 2 14 0 ∧ d.bits 0x0C 2 14 0 ≤ 16384))]
  | 0x20 =>
    let fill := d.bits 8 1 6 5
    let mir := d.bits 9 1 1 0
    [(8, decide (kind ≤ 4 ∧ fill ≠ 3) && (fill != 2 || mir != 0)), (9, mir != 3),
      (0x0A, decide (kind = 0 ∨ kind = 4 ∨ 1 ≤ d.le 0x0A 2)), (0x0C, d.le 0x0C 4 != 0), (0x10, d.le 0x10 6 % 4096 == 0),
      (0x18, decide (kind ≠ 2 ∨ d.le 0x18 6 % 4096 = 0))]
  | 0x24 =>
    let target := d.bits 0x0A 1 2 0
    let op := d.bits 0x0A 1 4 3
    let fmt := d.le 0x0B 1
    [(0x0A, decide (target ≤ 4)), (0x0B, fmtDefined fmt && (decide (target ≠ 0 ∨ op = 0) || [0, 2, 3, 14].contains fmt)), (0x10, d.le 0x10 6 % 4096 == 0),
      (0x18, decide (1 ≤ d.le 0x18 3 ∧ d.le 0x18 3 ≤ 1048576))]
  | 0x28 => [(0x18, decide (d.le 0x18 2 ≤ 4096)), (0x1A, decide (d.le 0x1A 2 ≤ 4096))]
  | 0x30 => [(0x0A, d.le 0x0A 2 != 0)]
  | _ => []

def leastOf : List Nat → Option Nat
  | [] => none
  | n :: ns => some (ns.foldl min n)

/-- Check 2 of R331: the offset of the first failing field. -/
def check2 (d : DescRef) : Option Nat :=
  if !typeKnown d.type then some 1
  else leastOf ((reservedAt d).append (((rangeRules d).filter fun r => !r.2).map (·.1)))

/- Check 3: resources and refusals (Table 12.4). -/

/-- A refusal: status and byte offset. -/
abbrev Refuse := Byte × Nat

def refuseAt (ok : Bool) (off : Nat) : Option Refuse := if ok then none else some (stReserved, off)

/-- A local range that a transfer may reach: one region of kind 0, 1, 2 or 4 of the context, not read-only when
written. -/
def State.copyRegion (s : State) (x : Fin 64) (a n : Nat) (write : Bool) : Option Region :=
  match s.regionAt a (max 1 n) with
  | some r => if r.ctx = x.val ∧ [0, 1, 2, 4].contains r.kind = true ∧ !(write && r.ro) then some r else none
  | none => none

/-- The same for a transfer that begins: the region is not closing (R227). -/
def State.mayCopy (s : State) (x : Fin 64) (a n : Nat) (write : Bool) : Bool :=
  (s.copyRegion x a n write).any fun r => r.closing.isNone

/-- Ranges of the tiers that regions use: their own, and the homes they own. -/
def Region.ranges (r : Region) : List (Nat × Nat) :=
  (r.base, r.bytes) :: (if r.kind = 2 then [(r.home, r.bytes)] else [])

/-- A range meets no region and no home. -/
def State.rangeFree (s : State) (a n : Nat) : Bool :=
  s.regions.all fun r => r.ranges.all fun q => !decide (a < q.1 + q.2 ∧ q.1 < a + n)

/-- Directory slots of the module. -/
def State.dirSlots (s : State) : Nat := s.regions.foldl (fun n r => if r.tiled then n + r.slots else n) 0

/-- The region that a REGION_OPEN describes. -/
def regionOf (x : Fin 64) (d : DescRef) : Region :=
  { base := d.le 0x10 6, size := d.le 0x0C 4, ctx := x.val, kind := d.bits 8 1 2 0, slot := d.le 0x0A 2, home := d.le 0x18 6,
    ro := bitOf (d.le 8 1) 3, snapshot := bitOf (d.le 8 1) 4,
    mirror := match d.bits 9 1 1 0 with
      | 1 => .peer (d.le 0x20 2) (d.bits 0x22 2 11 0) (d.bits 0x24 4 19 0) (d.le 0x28 4)
      | 2 => .host (d.bits 0x20 1 4 0) (d.le 0x30 8)
      | _ => .none,
    closing := none, fill := d.bits 8 1 6 5 }

/-- The limits of R218 and R224 on a REGION_OPEN. -/
def State.regionRefusal (s : State) (r : Region) : Option Refuse :=
  let tier := if r.kind ≤ 2 then isNear r.base else isCellar r.base
  let placed := tier && openRange r.base r.bytes && s.rangeFree r.base r.bytes
  let home := r.kind != 2 || (isCellar r.home && openRange r.home r.bytes && s.rangeFree r.home r.bytes)
  let slots := if r.tiled then r.slots else 0
  (refuseAt (decide (s.regions.length < 4096)) 0x08).or ((refuseAt (decide (s.dirSlots + slots ≤ 2 ^ 27)) 0x0C).or
    ((refuseAt placed 0x10).or (refuseAt home 0x18)))

/-- A region of the context that a descriptor names by its base. -/
def State.namedRegion (s : State) (x : Fin 64) (base : Nat) : Option Region :=
  s.regions.find? fun r => r.base == base && r.ctx == x.val && decide (r.kind ≤ 4)

/-- The core a descriptor names, or its refusal. -/
def State.coreRefusal (s : State) (x : Fin 64) (n : Nat) : Option Refuse :=
  match coreOf? n with
  | none => some (stReserved, 8)
  | some c =>
    if (s.core c).role = 2 then some (stFenced, 0) else if (s.core c).ctx = some x then none else some (stReserved, 8)

/-- Index of a stream. -/
def streamKey (x : Fin 64) (n : Nat) : Nat := 64 * x.val + n

def streamDefault (_ : Nat) : Stream := {}

def State.stream (s : State) (x : Fin 64) (n : Nat) : Stream := SMap.get streamDefault s.streams (streamKey x n)

def State.setStream (s : State) (x : Fin 64) (n : Nat) (t : Stream) : State :=
  { s with streams := SMap.set streamDefault s.streams (streamKey x n) t }

/-- An IMEM_LOAD is refused under R121. -/
def Core.bankBusy (k : Core) (bank : Nat) : Bool := k.flipPending || b2n k.stw.bank == bank

/-- Check 3 of R331 for the resources that a descriptor names; a stream is held from its STREAM_SET on (assumption 112). -/
def State.check3 (s : State) (x : Fin 64) (d : DescRef) : Option Refuse :=
  match d.type with
  | 0x03 =>
    match (s.ctx x).dec with
    | none => some (stReserved, 1)
    | some c => (refuseAt (decide (d.le 0x20 4 ≤ c.inStride)) 0x20).or (refuseAt (decide (d.le 0x24 4 ≤ c.outStride)) 0x24)
  | 0x10 =>
    let a := d.le 0x18 6
    let n := d.le 0x20 4
    (refuseAt (a % 64 == 0 && s.mayCopy x a n (d.bits 8 1 0 0 == 0)) 0x18).or (refuseAt (n % 64 == 0) 0x20)
  | 0x11 =>
    (s.coreRefusal x (d.le 8 1)).or ((refuseAt (decide (d.bits 0x0A 2 13 0 + d.bits 0x0C 2 14 0 ≤ 16384)) 0x0A).or
      (match coreOf? (d.le 8 1) with
        | some c => if (s.core c).bankBusy (d.bits 9 1 0 0) then some (stBankActive, 0) else none
        | none => none))
  | 0x12 =>
    let off := d.bits 0x0C 4 16 0
    let n := d.bits 0x18 4 17 0
    (s.coreRefusal x (d.le 8 1)).or ((refuseAt (off % 4 == 0) 0x0C).or ((refuseAt (decide (n % 4 = 0 ∧ off + n ≤ 131072)) 0x18).or
      (match coreOf? (d.le 8 1) with
        | some c => if (s.core c).stw.state = .halted ∨ (s.core c).stw.state = .faulted then none else some (stBankActive, 0)
        | none => none)))
  | 0x20 => s.regionRefusal (regionOf x d)
  | 0x21 => refuseAt ((s.namedRegion x (d.le 0x10 6)).any fun r => r.closing.isNone) 0x10
  | 0x22 => refuseAt ((s.namedRegion x (d.le 0x10 6)).any fun r => r.kind == 2 && r.closing.isNone) 0x10
  | 0x24 =>
    let id := d.bits 8 2 11 0
    let base := d.le 0x10 6
    let beside := d.bits 0x0A 1 2 0 == 0 && d.bits 0x0A 1 4 3 != 0
    let held := (s.regionAt base (d.le 0x18 3 * 4096)).any fun r =>
      r.ctx == x.val && r.closing.isNone && (!beside || [0, 1, 2, 5].contains r.kind)
    let w48 := beside && d.le 0x0B 1 == 14
    (refuseAt (s.windows.all fun w => w.id != id) 0x08).or
      ((if SMap.get (fun _ => 0) s.winGen id = d.bits 0x0C 4 19 0 + 1 then some (stWindowClosed, 0) else none).or
        (refuseAt (held && (!w48 || base % 12288 == 0)) 0x10))
  | 0x25 => refuseAt (s.windows.any fun w => w.id == d.bits 8 2 11 0 && w.ctx == x.val && w.closing.isNone) 0x08
  | 0x28 => refuseAt ((s.ctx x).fn == 0) 0x01
  | 0x30 =>
    let n := d.le 0x0C 4
    let write := d.bits 9 1 0 0 == 0
    let ok := (List.range (d.le 0x0A 2)).all fun b =>
      let a := streamLocal d b
      a % 64 == 0 && s.mayCopy x a n write
    let t := s.stream x (d.bits 8 1 5 0)
    (refuseAt (n % 64 == 0) 0x0C).or ((refuseAt ok 0x18).or
      (if t.st = .busy ∨ t.st = .latched ∨ t.clearing.isSome = true then some (stBankActive, 0) else none))
  | 0x31 => refuseAt (s.stream x (d.bits 8 1 5 0)).set.isSome 8
  | _ => none

/-- The checks of R331 in order. -/
def State.descRefusal (s : State) (x : Fin 64) (d : DescRef) : Option Refuse :=
  if d.le 0 1 ≠ 1 then some (stVersion, 0)
  else match check2 d with
    | some off => some (stReserved, off)
    | none => s.check3 x d

/- Fetch (R328, R329, R331). -/

/-- A context's rings are fetched from: it runs and its function's lease is not lost (R344, R360). -/
def State.fetches (s : State) (x : Fin 64) : Bool :=
  (s.ctx x).state == .opened && !(s.ctx x).orphaned && (s.fn (fnOf (s.ctx x).fn)).lease != .expired

/-- An index that no outstanding descriptor of a ring has. -/
def SubRing.nextIdx (k : SubRing) : Nat := k.out.foldl (fun n o => max n (o.ref.idx + 1)) 0

/-- Host address of slot HEAD mod 2^SIZE_LOG2 of a submission ring (R326). -/
def State.sqSlot (s : State) (r : Fin 256) : Nat := s.ringBase (sqCfgOff r) + 64 * ((s.sq r).head % s.sqSize r)

/-- Reads of a range of host memory for a context (R323, R326, R331). -/
def State.hostRead (s : State) (x : Fin 64) (a n : Nat) : State := { s with out := s.out ++ [.hostRead (s.ctx x).fn a n] }

/-- DESCRIPTOR_FETCH: the 64 bytes read from the ring's next slot. -/
def execDescriptorFetch (r : Fin 256) (bytes : List Byte) (s : State) : Result :=
  let k := s.sq r
  match k.ctx with
  | none => .next s
  | some x =>
    if !s.sqEnabled r ∨ k.head = k.tail ∨ 64 ≤ k.out.length ∨ s.fetches x = false ∨ bytes.length ≠ 64 ∨ s.innkPaused = true then .next s
    else
      let d : DescRef := { ring := r.val, idx := k.nextIdx, bytes := bytes }
      let bad := s.descRefusal x d
      let s1 := s.modSq r fun k =>
        { k with head := (k.head + 1) % 0x10000, out := k.out ++ [{ ref := d, started := bad.isSome }] }
      let s1 := s1.hostRead x (s.sqSlot r) 64
      match bad with
      | none => .next s1
      | some (st, off) => .next (s1.complete d st (if st = stReserved then off else 0) 0 0)

/- Starting a descriptor. -/

/-- Descriptor `n` of a ring's outstanding list may start now: of the type, not started, every earlier one started, and
none outstanding before a barrier; or it has begun and waits. -/
def State.mayStart (s : State) (r : Fin 256) (n type : Nat) : Option (Fin 64 × OutDesc) :=
  let k := s.sq r
  match k.ctx, k.out[n]? with
  | some x, some o =>
    if o.ref.type = type ∧ (o.started = false ∨ o.waits = true) ∧ ((k.out.take n).all fun q => q.started) = true ∧ (o.ref.barrier = false ∨ n = 0) then some (x, o)
    else none
  | _, _ => none

/-- Marks a descriptor as started. -/
def State.started (s : State) (d : DescRef) : State :=
  s.modSq (ringOf d.ring) fun k => { k with out := k.out.map fun o => if o.ref.idx = d.idx then { o with started := true } else o }

/-- A started descriptor that waits, and one whose wait is over. -/
def State.setWaits (s : State) (d : DescRef) (b : Bool) : State :=
  s.modSq (ringOf d.ring) fun k => { k with out := k.out.map fun o => if o.ref.idx = d.idx then { o with waits := b } else o }

/-- Starts a descriptor: the refusals of Table 12.4 are judged again, since the resources may have changed after the
fetch (assumption 21). One that has begun and waits goes on: a close waits for it (R227). -/
def State.startDesc (s : State) (r : Fin 256) (n type : Nat) (go : Fin 64 → DescRef → State → State) : Result :=
  match s.mayStart r n type with
  | none => .next s
  | some (x, o) =>
    let d := o.ref
    let s1 := (s.started d).setWaits d false
    match if o.waits then none else s1.check3 x d with
    | some (st, off) => .next (s1.complete d st (if st = stReserved then off else 0) 0 0)
    | none => .next (go x d s1)

/-- The same for a transfer from or to the host, which is not carried out while the context's host is gone (R360). -/
def State.startHost (s : State) (r : Fin 256) (n type : Nat) (go : Fin 64 → DescRef → State → State) : Result :=
  match (s.sq r).ctx with
  | none => .next s
  | some x => if s.fetches x then s.startDesc r n type go else .next s

/-- DESC_NOP. -/
def execDescNop (r : Fin 256) (n : Nat) (s : State) : Result := s.startDesc r n 0x00 fun _ d s => s.complete d stOk 0 0 0

/- The host engine (R345). -/

/-- The next context at or after offset `o` from the context that began the previous round that has a piece waiting. -/
def roundNext (prev o : Nat) (waiting : List (Fin 64 × Nat)) : Option (Fin 64 × Nat) :=
  ((List.range 64).map (· + 1)).findSome? fun d =>
    if d < o then none else waiting.find? fun w => w.1.val == (prev + d) % 64

/-- Distance of a context from the one that began the previous round, 1 to 64. -/
def roundDist (prev x : Nat) : Nat := (x + 63 - prev) % 64 + 1

def State.servePiece (s : State) (x : Fin 64) (bytes : Nat) : State := s.modCtx x fun k => { k with deficit := k.deficit - bytes }

/-- The round-robin visit of a context: its deficit grows, and it is in service. -/
def State.visit (s : State) (x : Fin 64) : State :=
  { s.modCtx x fun k => { k with deficit := k.deficit + 4096 * k.weight } with
    hostCur := some x.val, hostFirst := some (s.hostFirst.getD x.val) }

/-- HOST_PIECE_SERVE: the contexts with a piece waiting, each with the bytes of its next piece. -/
def execHostPieceServe (waiting : List (Fin 64 × Nat)) (s : State) : Result :=
  let cur := s.hostCur.bind ctxOf?
  let piece := cur.bind fun x => waiting.find? fun w => w.1 == x
  match piece with
  | some (x, n) =>
    if n ≤ (s.ctx x).deficit then .next (s.servePiece x n)
    else
      match roundNext s.hostPrev (roundDist s.hostPrev x.val + 1) waiting with
      | some (y, m) => .next ((s.visit y).servePiece y m)
      | none =>
        let prev := s.hostFirst.getD s.hostPrev
        let s1 : State := { s with hostPrev := prev, hostFirst := none, hostCur := none }
        match roundNext prev 1 waiting with
        | some (y, m) => .next ((s1.visit y).servePiece y m)
        | none => .next s1
  | none =>
    let s1 := match cur with
      | some x => s.modCtx x fun k => { k with deficit := 0 }
      | none => s
    let from_ := match cur with
      | some x => roundDist s.hostPrev x.val + 1
      | none => 1
    match roundNext s.hostPrev from_ waiting with
    | some (y, m) => .next ((s1.visit y).servePiece y m)
    | none =>
      let prev := s.hostFirst.getD s.hostPrev
      let s2 : State := { s1 with hostPrev := prev, hostFirst := none, hostCur := none }
      match roundNext prev 1 waiting with
      | some (y, m) => .next ((s2.visit y).servePiece y m)
      | none => .next s2

end Sys2Proof.Machine
end

