-- ==== Sys2Proof/Machine/Tables.lean ====
section
/-! DEFINITION. Table loads (R299 to R301, R307): the checks of layer entries and rule records. -/

namespace Sys2Proof.Machine

/-- Bits outside the named fields of a block of `n` bytes are zero. -/
def onlyNamed (fields : List (Nat × Nat)) (n : Nat) (bs : List Byte) : Bool :=
  (List.range n).all fun i =>
    Nat.land (tabField bs i 1) (255 - fields.foldl (fun m f => Nat.lor m (fieldMask f.1 f.2 i)) 0) == 0

/-- Named fields of a layer entry (Table 11.2); X_ADDR is named for the two-sided family alone. -/
def entryFields (family : Nat) : List (Nat × Nat) :=
  let x := if family = 2 then [(0x38, 48)] else []
  let a := [(0, 8), (1, 3), (2, 12), (4, 20), (8, 20), (0x0C, 5), (0x0D, 5), (0x0E, 7), (0x10, 48), (0x18, 32), (0x1C, 32), (0x20, 48)]
  let b := [(0x28, 48), (0x30, 48), (0x40, 12), (0x42, 12), (0x44, 20), (0x48, 32), (0x4C, 12), (0x4E, 12), (0x50, 6)]
  x.append (a.append b)

/-- Named fields of a rule record (Table 11.5). -/
def ruleFields : List (Nat × Nat) := [(0, 8), (1, 6), (2, 3), (3, 3), (4, 8), (5, 4), (6, 16), (8, 352)]

/-- A rule record without reserved bits, every field in its range. -/
def ruleFits (r : List Byte) : Bool :=
  let v := rrVariant r
  onlyNamed ruleFields 64 r && decide (rrFamily r ≤ 3) && decide (rrRound r ≤ 4) &&
    (match rrFamily r with
      | 0 => decide (v ≤ 2)
      | 3 => decide (v ≤ 1 ∧ 1 ≤ rrIters r)
      | _ => v == 0)

/-- Bytes that one gradient tile needs in the park image (R300, R306). -/
def parkTileBytes (e r : List Byte) : Nat := gradBytes e + (if rrFamily r = 2 then 131072 else 0)

/-- A layer entry without reserved bits, every field in its range or list. -/
def entryFits (rules : List (List Byte)) (e : List Byte) : Bool :=
  match rules[leRule e]? with
  | none => false
  | some r =>
    onlyNamed (entryFields (rrFamily r)) 128 e && leRows e != 0 && leCols e != 0 && [0, 2, 13].contains (leGradFmt e) &&
      [0, 2].contains (leSFmt e) && fmtDefined (leWcFmt e) && scaleOk (leWcFmt e) (leWcScale e) && lePark e % 4096 == 0 &&
      leGstride e % 64 == 0 && decide (parkTileBytes e r ≤ leGstride e) && leWstride e % 4096 == 0 &&
      (rrFamily r != 3 || decide (min (leRows e) (leCols e) ≤ 4096))

def parkBytes (e : List Byte) : Nat := leTiles e * leGstride e

/-- A park image in one Tollhouse-target window of its own Tollhouse, above the control page (R301, R405). -/
def State.parkPlaced (s : State) (e : List Byte) : Bool :=
  s.windows.any fun w =>
    decide (1 ≤ w.target) && (w.target - 1 == leToll e || s.servedBy (w.target - 1) == tollOf (leToll e)) && w.ctx == leCtx e &&
      decide (w.base + 4096 ≤ lePark e ∧ lePark e + parkBytes e ≤ w.base + w.size)

/-- No two park images overlap. -/
def parksApart : List (List Byte) → Bool
  | [] => true
  | e :: es => (es.all fun f => decide (lePark e + parkBytes e ≤ lePark f ∨ lePark f + parkBytes f ≤ lePark e)) && parksApart es

/-- Bytes of row and column vectors of one Tollhouse's factored layers. -/
def factoredBytes (rules es : List (List Byte)) (t : Nat) : Nat :=
  es.foldl (fun n e => if leToll e = t ∧ rrFamily (rules.getD (leRule e) []) = 1 then n + 4 * (leRows e + leCols e) else n) 0

/-- The status of a table load (R301). -/
def State.tableStatus (s : State) (entries rules : List (List Byte)) : Byte :=
  let valid := entries.filter leValid
  if (entries.any fun e => tabField e 0 1 != 1) || (rules.any fun r => tabField r 0 1 != 1) then stVersion
  else if (rules.all ruleFits) && (entries.all (entryFits rules)) && (valid.all fun e => s.parkPlaced e) && parksApart valid &&
      ((List.range 4).all fun t => decide (factoredBytes rules valid t ≤ 4 * 2 ^ 20)) then stOk
  else stReserved

/-- A list of byte blocks as a table by index. -/
def asTable (l : List (List Byte)) : SMap (List Byte) :=
  SMap.setAll (fun _ => []) [] (l.zipIdx.map fun p => (p.2, p.1))

/-- TABLE_LOAD: LAYERS entries of 128 B, then RULES records of 64 B, read from the host (Table 12.4). -/
def execTableLoad (r : Fin 256) (n : Nat) (data : List Byte) (s : State) : Result :=
  s.startHost r n 0x28 fun x d s =>
    let layers := d.bits 0x18 2 12 0
    let entries := chunks 128 layers (data.take (128 * layers))
    let rules := chunks 64 (d.bits 0x1A 2 12 0) (data.drop (128 * layers))
    let st := s.tableStatus entries rules
    let s0 := s.hostRead x (d.le 0x10 8) (128 * layers + 64 * d.bits 0x1A 2 12 0)
    let s1 : State := if st = stOk then { s0 with nextTabs := some (asTable entries, asTable rules) } else s0
    s1.complete d st 0 0 0

/-- The inactive copy replaces the active one at a step boundary (R299): its layers are IDLE with t at 0 (R305, R308). -/
def State.swapTables (s : State) : State :=
  match s.nextTabs with
  | none => s
  | some (l, r) =>
    let clear (k : Toll) : Toll := { k with queue := [], staged := [], current := none }
    { s with layerTab := l, ruleTab := r, nextTabs := none, layers := [], tolls := s.tolls.map clear }

/-- The layer-table entries of a closed context are not VALID (R344). -/
def State.dropLayers (s : State) (x : Fin 64) : State :=
  let drop (m : SMap (List Byte)) : SMap (List Byte) :=
    m.map fun p => if leCtx p.2 = x.val then (p.1, setField p.2 1 1 (tabField p.2 1 1 / 2 * 2)) else p
  { s with
    layerTab := drop s.layerTab
    nextTabs := match s.nextTabs with
      | some (l, r) => some (drop l, r)
      | none => none }

end Sys2Proof.Machine
end

