-- ==== Sys2Proof/Machine/Descs.lean ====
section
/-! DEFINITION. What descriptors do once they start (Table 12.4): transfers, regions, windows, streams (R335, R336), and
the queueing of steps, micro-batches and decode requests (R346, R347, R353). -/

namespace Sys2Proof.Machine

/- Transfers. -/

/-- The result of a read for a transfer: its bytes, a failure, or a wait for a refetch (R242). -/
def State.readLocal (s : State) (x : Fin 64) (a n : Nat) : LoadData × State :=
  match s.copyRegion x a n false with
  | none => (.bad, s)
  | some r => match (s.chargeReads a n).readRaw r a n with
    | (.ok, t) => (.bytes (s.rangeBytes r a n), t)
    | (.bad, t) => (.bad, t)
    | (.wait slot, t) => (.refetching slot, t)

/-- A write of a transfer to its local range. -/
def State.writeLocal (s : State) (x : Fin 64) (a : Nat) (bs : List Byte) : State :=
  match s.copyRegion x a bs.length true with
  | some r => s.writeIn r a bs
  | none => s

/-- COPY; `data` are the LENGTH bytes read from the host when DIR is 0. It waits for a channel held for service. -/
def execCopy (r : Fin 256) (n : Nat) (data : List Byte) (errs : List GranErr) (s : State) : Result :=
  meetRow errs (fun s => s.startHost r n 0x10 fun x d s =>
    let a := d.le 0x18 6
    let len := d.le 0x20 4
    if s.heldAt a len then s.setWaits d true
    else if d.bits 8 1 0 0 = 0 then ((s.hostRead x (d.le 0x10 8) len).writeLocal x a (data.take len)).complete d stOk 0 0 0
    else match s.readLocal x a len with
      | (.bytes bs, t) => (t.hostWrite x (d.le 0x10 8) bs).complete d stOk 0 0 0
      | (.bad, t) => t.complete d stWeightPoison 0 0 0
      | (_, t) => t.setWaits d true) s

/-- Writes words into an instruction bank. -/
def Core.loadBank (k : Core) (bank off : Nat) (ws : List Nat) : Core :=
  let kvs := ws.zipIdx.map fun p => (off + p.2, BitVec.ofNat 32 p.1)
  if bank = 0 then { k with imem0 := SMap.setAll (fun _ => 0) k.imem0 kvs } else { k with imem1 := SMap.setAll (fun _ => 0) k.imem1 kvs }

/-- IMEM_LOAD; `data` are the words read from the host. -/
def execImemLoad (r : Fin 256) (n : Nat) (data : List Byte) (s : State) : Result :=
  s.startHost r n 0x11 fun x d s =>
    let words := d.bits 0x0C 2 14 0
    match coreOf? (d.le 8 1) with
    | some c =>
      let ws := (chunks 4 words (data.take (4 * words))).map leNat
      let s1 := s.hostRead x (d.le 0x10 8) (4 * words)
      (s1.modCore c fun k => k.loadBank (d.bits 9 1 0 0) (d.bits 0x0A 2 13 0) ws).complete d stOk 0 0 0
    | none => s.complete d stReserved 8 0 0

/-- DMEM_LOAD; `data` are the bytes read from the host. -/
def execDmemLoad (r : Fin 256) (n : Nat) (data : List Byte) (s : State) : Result :=
  s.startHost r n 0x12 fun x d s =>
    match coreOf? (d.le 8 1) with
    | some c =>
      let bs := data.take (d.bits 0x18 4 17 0)
      let s1 := s.hostRead x (d.le 0x10 8) (d.bits 0x18 4 17 0)
      (s1.modCore c fun k => { k with dmem := k.dmem.writeRun (d.bits 0x0C 4 16 0) bs }).complete d stOk 0 0 0
    | none => s.complete d stReserved 8 0 0

/- Regions. -/

/-- Writes the image that fills a region, and the directory entries of its slots: each slot is written, so DIRTY where
the region is tiered (R237, assumption 22). -/
def State.fillContents (s : State) (r : Region) (bs : List Byte) : State :=
  let s1 := s.putFull r.base bs
  if !r.tiled then s1
  else
    let one (s : State) (n : Nat) : State :=
      let slot := r.base + n * r.slotBytes
      let t := (bs.drop (n * r.slotBytes)).take r.slotBytes
      let s1 := if r.kind = 3 then s.prepaid fun s => s.storeTile slot t else s
      let h := s1.mem.readRun slot 64
      let code := if r.kind = 3 then (tileComp h, tileStoredBytes h) else (0, 0)
      s1.setDir slot { st := r.dirty, gen := tileGen t, comp := code.1, stored := code.2 }
    (List.range r.slots).foldl one s1

/-- The host reads that fill a region: its image under FILL 1, every slot from a host mirror under FILL 2. -/
def State.fillReads (s : State) (x : Fin 64) (d : DescRef) (r : Region) : State :=
  if d.bits 8 1 6 5 = 1 then s.hostRead x (d.le 0x38 8) r.bytes
  else match r.mirror with
    | .host f a => { s with out := s.out ++ [.hostRead f a r.bytes] }
    | _ => s

/-- REGION_OPEN; `data` are the region's contents as the host image or the mirror delivers them, under FILL 1 or 2. -/
def execRegionOpen (r : Fin 256) (n : Nat) (data : List Byte) (s : State) : Result :=
  s.startHost r n 0x20 fun x d s =>
    let g := regionOf x d
    let s1 : State := { s with regions := s.regions ++ [g] }
    let bs := data.take g.bytes
    let s2 := if d.bits 8 1 6 5 = 0 then s1.zero g.base g.bytes
      else (s1.fillReads x d g).fillContents g (bs ++ List.replicate (g.bytes - bs.length) 0)
    s2.complete d stOk 0 0 0

/-- REGION_CLOSE: the close is requested; it completes with REGION_CLOSE_EFFECT. -/
def execRegionClose (r : Fin 256) (n : Nat) (s : State) : Result :=
  s.startDesc r n 0x21 fun x d s =>
    let mark (g : Region) : Region := if g.base = d.le 0x10 6 ∧ g.ctx = x.val then { g with closing := some d } else g
    { s with regions := s.regions.map mark }

/-- The write-backs of a tiered region may reach the home slots that a drain has not read (R409): they wait while the
context's snapshot drains. -/
def State.drainHolds (s : State) (r : Region) : Bool :=
  match r.owner with
  | some x => (s.ctx x).snap.phase == 2 && r.snapshot
  | none => false

/-- REGION_FLUSH: every DIRTY slot is written back; it waits while a slot is being refetched. -/
def execRegionFlush (r : Fin 256) (n : Nat) (errs : List GranErr) (s : State) : Result :=
  meetRow errs (fun s => s.startDesc r n 0x22 fun x d s =>
    match s.namedRegion x (d.le 0x10 6) with
    | some g =>
      if s.drainHolds g then s.setWaits d true
      else
        let s1 := s.flushRegion g
        if s1.flushed g then s1.complete d stOk 0 0 0 else s1.setWaits d true
    | none => s.complete d stReserved 0x10 0 0) s

/- Windows (R277, R279). -/

/-- WINDOW_OPEN. -/
def execWindowOpen (r : Fin 256) (n : Nat) (s : State) : Result :=
  s.startDesc r n 0x24 fun x d s =>
    let w : Window :=
      { id := d.bits 8 2 11 0, gen := d.bits 0x0C 4 19 0, ctx := x.val, base := d.le 0x10 6, size := d.le 0x18 3 * 4096,
        target := d.bits 0x0A 1 2 0, op := d.bits 0x0A 1 4 3, fmt := d.le 0x0B 1, read := bitOf (d.le 0x0A 1) 5 }
    ({ s with windows := s.windows ++ [w] }).complete d stOk 0 0 0

/-- WINDOW_CLOSE: from now on no packet passes; the close completes when every packet that passed has been answered. -/
def execWindowClose (r : Fin 256) (n : Nat) (s : State) : Result :=
  s.startDesc r n 0x25 fun _ d s =>
    let mark (w : Window) : Window := if w.id = d.bits 8 2 11 0 then { w with closing := some d } else w
    ({ s with windows := s.windows.map mark }).settleWindows

/- Streams (R335, R336). -/

/-- STREAM_SET. -/
def execStreamSet (r : Fin 256) (n : Nat) (s : State) : Result :=
  s.startDesc r n 0x30 fun x d s =>
    (s.setStream x (d.bits 8 1 5 0) { st := .idle, set := some d }).complete d stOk 0 0 0

/-- The record of an arm: ARM_SEQ and buffer of `arm` (R335). -/
def State.armRecord (s : State) (x : Fin 64) (n : Nat) (d : DescRef) (arm : Nat × Nat) (st : Byte) : State :=
  let r : Rec := { sq := d.ring, idx := none, tag := d.le 4 4, status := st, type := 0x32, d16 := arm.1, d32 := arm.2 % 65536 + n * 65536,
                   d64 := 0, irq := false, time := s.time }
  s.pushRec (some x) (s.cqOf (ringOf d.ring)) r

/-- STREAM_CLEAR (Table 12.7): at once, or when no transfer is outstanding; a latched arm is reported CANCELLED. -/
def execStreamClear (r : Fin 256) (n : Nat) (s : State) : Result :=
  s.startDesc r n 0x31 fun x d s =>
    let i := d.bits 8 1 5 0
    let t := s.stream x i
    if t.clearing.isSome then s.setWaits d true
    else match t.st, t.set with
      | .busy, _ => s.setStream x i { t with clearing := some d }
      | .latched, some q =>
        (s.setStream x i { t with st := .busy, clearing := some d }).armRecord x i q t.latch stCancelled
      | _, _ => (s.setStream x i {}).complete d stOk 0 0 0

def stArmOverrun : Byte := 0x08

/-- STREAM_ARM: a 32-bit write at 0x800 + 4 × s of the doorbell page of context `x`. -/
def execStreamArm (f : Fin 32) (x : Fin 64) (i : Fin 64) (value : Word) (s : State) : Result :=
  let t := s.stream x i.val
  match t.set with
  | none => .next s
  | some d =>
    if !s.ownsCtx f x ∨ 0x10000 ≤ value.toNat then .next s
    else
      let arm := (value.toNat, t.k % d.le 0x0A 2)
      match t.st with
      | .undefined => .next s
      | .idle => .next (s.setStream x i.val { t with st := .busy, k := t.k + 1, run := arm })
      | .busy => .next (s.setStream x i.val { t with st := .latched, k := t.k + 1, latch := arm })
      | .latched => .next (s.armRecord x i.val d arm stArmOverrun)

/-- The end of a stream's transfer: its record; the latched arm starts, or a waiting STREAM_CLEAR completes. -/
def State.endTransfer (s : State) (x : Fin 64) (i : Nat) (st : Byte) : State :=
  let t := s.stream x i
  match t.set with
  | none => s
  | some d =>
    let s1 := s.armRecord x i d t.run st
    if t.st = .latched then s1.setStream x i { t with st := .busy, run := t.latch }
    else match t.clearing with
      | some c => (s1.setStream x i {}).complete c stOk 0 0 0
      | none => s1.setStream x i { t with st := .idle }

/-- STREAM_TRANSFER_COMPLETE; `data` are the bytes read from the host when DIR is 0. It waits for a channel held for service. -/
def execStreamTransferComplete (x : Fin 64) (i : Fin 64) (data : List Byte) (errs : List GranErr) (s : State) : Result :=
  meetRow errs (fun s =>
    let t := s.stream x i.val
    match t.set with
    | none => .next s
    | some d =>
      let a := streamLocal d t.run.2
      let len := d.le 0x0C 4
      let at' := d.le 0x10 8 + t.run.2 * d.le 0x20 4
      if (t.st ≠ .busy ∧ t.st ≠ .latched) ∨ s.fetches x = false ∨ s.heldAt a len = true then .next s
      else if d.bits 9 1 0 0 = 0 then .next (((s.hostRead x at' len).writeLocal x a (data.take len)).endTransfer x i.val stOk)
      else match s.readLocal x a len with
        | (.bytes bs, u) => .next ((u.hostWrite x at' bs).endTransfer x i.val stOk)
        | (.bad, u) => .next (u.endTransfer x i.val stWeightPoison)
        | (_, u) => .next u) s

/- Steps, micro-batches and decode requests. -/

/-- STEP: it waits until it can open its step; a decode context has no steps (R346). -/
def execStep (r : Fin 256) (n : Nat) (s : State) : Result :=
  s.startDesc r n 0x01 fun x d s =>
    if (s.ctx x).decode then s.complete d stReserved 0 0 (d.le 8 5)
    else s.modCtx x fun k => { k with waitingSteps := k.waitingSteps ++ [d] }

/-- The boundary of a step has been reached. -/
def Ctx.stepPast (k : Ctx) (n : Nat) : Bool :=
  match k.step with
  | none => false
  | some m => if k.inStep then decide (n < m) else decide (n ≤ m) && !k.anyStep

/-- A MICROBATCH that R347 refuses. A decode context takes none (DESIGN CHOICE, assumption 23). -/
def Ctx.mbRefused (k : Ctx) (step mb : Nat) : Bool :=
  k.decode || k.stepPast step || (k.inStep && k.step == some step && decide (k.mbCount ≤ mb)) ||
    (k.inStep && k.step == some step && k.fetchedMbs.contains mb) || k.mbs.any fun m => m.step == step && m.mb == mb

/-- MICROBATCH: queued for admission (R211). -/
def execMicrobatch (r : Fin 256) (n : Nat) (s : State) : Result :=
  s.startDesc r n 0x02 fun x d s =>
    let step := d.le 8 5
    let mb := d.le 0x10 2
    if (s.ctx x).mbRefused step mb then s.complete d stReserved mb 0 step
    else s.modCtx x fun k =>
      { k with
        mbs := k.mbs ++ [newMb mb step (d.le 0x18 6) (some d) false]
        fetchedMbs := if k.inStep ∧ k.step = some step then k.fetchedMbs ++ [mb] else k.fetchedMbs }

/-- DECODE; `data` is the input row read from the host. -/
def execDecode (r : Fin 256) (n : Nat) (data : List Byte) (s : State) : Result :=
  s.startHost r n 0x03 fun x d s => (s.hostRead x (d.le 0x10 8) (d.le 0x20 4)).joinBatch x { desc := d, data := data.take (d.le 0x20 4) }

/-- DECODE_DEADLINE: the open batch's deadline has come. -/
def execDecodeDeadline (x : Fin 64) (s : State) : Result :=
  match (s.ctx x).batches.find? (fun b => !b.closed) with
  | some b => .next (s.closeBatch x b.mb)
  | none => .next s

end Sys2Proof.Machine
end

