-- ==== Sys2Proof/Machine/Picker.lean ====
section
/-! DEFINITION. The ready picker (R130, R137), the Innkeeper's permission (R205, R356), the start of an
instance with park and restore (R53, R75, R138, R191), its end and its cancellation (R131, R183). -/

namespace Sys2Proof.Machine

/- Energy (R356). -/

/-- COMMITTED in µW: the draws of running array instances and of running sweeps (R356, R399). A sweep draws
3,000 pJ per beat at its island's pace. -/
def State.committed (s : State) : Nat :=
  let cores := allCores.foldl (fun n c => n + (s.core c).draw) 0
  let one (w : Sweep) : Nat :=
    match (if w.toll then none else coreOf? w.unit) with
    | some c => 3000 * (s.core c).paceM
    | none => 0
  s.lanternRun.foldl (fun n w => n + one w) cores

def State.budgetW (s : State) : Nat := bitsOf (s.rd 0x69104) 15 0
def State.hot (s : State) : Bool := bitOf (s.rd 0x69104) 31
def State.hotClass (s : State) : Nat := bitsOf (s.rd 0x69100) 15 0

/-- The draw of a frame on a core, in µW. -/
def Core.drawOf (k : Core) (f : Frame) : Nat := f.heat * k.paceM

/-- The energy rule of R356 for one array instance. -/
def State.energyPermits (s : State) (c : Fin 192) (f : Frame) : Bool :=
  let k := s.core c
  k.guardPassed ||
    (!(s.hot && decide (s.hotClass < f.heat)) && decide (s.committed + k.drawOf f ≤ s.budgetW * 1000000))

/- Readiness (R130). -/

/-- The status of a poison token at the head of a queue that the list names, with its endpoint. -/
def State.headToken (s : State) (f : Frame) : Option (Nat × Byte) :=
  (f.ready.filterMap fun r =>
    if r.type = 1 then
      match s.queued r.object with
      | .token st :: _ => some (r.object, st)
      | _ => none
    else none).head?

def State.isReady (s : State) (c : Fin 192) (f : Frame) (m : BitVec 16) : Bool :=
  (f.ready.all fun r => s.entryHolds c m r) && (s.headToken f).isNone

/- Candidates (R137). -/

/-- A place is free: no running instance holds it. -/
def Core.placeFree (k : Core) (array : Bool) : Bool :=
  allSlots.all fun i =>
    match (k.slot i).inst, k.frame i with
    | some n, some f => !(n.running && (f.accUse != 0) == array)
    | _, _ => true

/-- The context of a frame may run instances: open, or orphaned and not parked (R361). -/
def State.ctxRuns (s : State) (x : Nat) : Bool :=
  match ctxOf? x with
  | some x => (s.ctx x).state == .opened || (s.ctx x).state == .orphaned
  | none => false

/-- R205: a weight-gradient instance waits for every forward instance; the closing index never waits (R204). -/
def State.wgradPermits (s : State) (d : Cand) : Bool :=
  match ctxOf? d.frame.context with
  | some x => d.frame.cls != 2 || d.inst.mb == 0xFFFF#16 || s.forwardsDone x d.inst.mb.toNat
  | none => false

/-- The picker's order: PRIORITY, micro-batch, live resident tile, slot. -/
def Core.before (k : Core) (a b : Cand) : Bool :=
  let live (d : Cand) : Nat := if k.liveOwner = some d.slot then 0 else 1
  let key (d : Cand) : Nat :=
    ((3 - d.frame.priority) * 2 ^ 16 + d.inst.mb.toNat) * 16 + live d * 8 + d.slot.val
  decide (key a < key b)

def Core.best (k : Core) : List Cand → Option Cand
  | [] => none
  | d :: ds => match k.best ds with
    | none => some d
    | some e => some (if k.before d e then d else e)

/-- Ready candidates that R205 and the contexts' states let run. -/
def State.candidates (s : State) (c : Fin 192) (array : Bool) : List Cand :=
  ((s.core c).armedFor array).filter fun d =>
    s.ctxRuns d.frame.context && s.isReady c d.frame d.inst.mb && s.wgradPermits d

/-- Owning-context candidates, or the filler's when there are none; a filler array instance only while no
resident tile is live. An owning instance that is ready, and that the energy rule refuses or R205 does not let run, is no
candidate here and does not keep a filler instance from starting: R137 takes the energy rule first (assumption 96). -/
def Core.preferOwner (k : Core) (array : Bool) (ds : List Cand) : List Cand :=
  let own := ds.filter fun d => k.owned d.frame
  if !own.isEmpty then own else if array && k.liveOwner.isSome then [] else ds

/- Park and restore (R138). -/

/-- The contents of a set as the park image carries them. -/
def AccSet.numbers (a : AccSet) : List Nat :=
  let cell (e : Nat × Cell) : List Nat :=
    [e.1, e.2.acc.toNat, e.2.abs.toNat, e.2.idx.toNat, b2n e.2.ovf, b2n e.2.nf]
  let head : List Nat :=
    [(match a.tag with
      | some t => t.toNat + 1
      | none => 0), b2n a.complete, (match a.red with
      | some d => d + 1
      | none => 0), a.poison.toNat]
  head ++ a.cells.flatMap cell

/-- The set of such numbers. -/
def AccSet.ofNumbers (l : List Nat) : AccSet :=
  let cell (n : Nat) : Nat × Cell :=
    let v (i : Nat) : Nat := l.getD (4 + 6 * n + i) 0
    (v 0, { acc := BitVec.ofNat 48 (v 1), abs := BitVec.ofNat 48 (v 2), idx := BitVec.ofNat 24 (v 3), ovf := v 4 == 1, nf := v 5 == 1 })
  let h (i : Nat) : Nat := l.getD i 0
  { cells := (List.range ((l.length - 4) / 6)).map cell, tag := if h 0 = 0 then none else some (BitVec.ofNat 8 (h 0 - 1))
    complete := h 1 == 1, red := if h 2 = 0 then none else some (h 2 - 1), poison := BitVec.ofNat 8 (h 3) }

/-- Bytes of a park image. -/
def parkSize : Nat := 108736

/-- The park image of a set; its layout is the module's own (assumption 6). -/
def parkImage (a : AccSet) : List Byte := (List.range parkSize).map (Config.parkByte a.numbers)

/-- The tile that a changed park image restores to: not defined (R138), so every cell is free (assumption 6). -/
def changedTile (seed : Nat) : AccSet :=
  let cell (key : Nat) : Nat × Cell :=
    (key, { acc := BitVec.ofNat 48 (Config.parkCell seed key),
            abs := if key < 16384 then 0 else BitVec.ofNat 48 (Config.parkCell seed (key + 2 ^ 16)),
            idx := BitVec.ofNat 24 (Config.parkCell seed (key + 2 ^ 17)),
            ovf := bitOf (Config.parkCell seed (key + 2 ^ 18)) 0, nf := bitOf (Config.parkCell seed (key + 2 ^ 18)) 1 })
  { cells := SMap.setAll (fun _ => {}) [] ((List.range 16896).map cell),
    tag := some (BitVec.ofNat 8 (Config.parkCell seed (2 ^ 20))),
    complete := bitOf (Config.parkCell seed (2 ^ 20 + 1)) 0 }

/-- Park beats: 128, counted in CORE_BEAT_COUNT and CORE_PARK_BEATS; the image's lines count as bank accesses. -/
def Core.parkBeats (k : Core) : Core := ((k.beats 128).bump 0x20440 128).bump64 0x20610 (parkSize / 64)

/-- Parks the live resident tile of slot `j`. -/
def Core.park (k : Core) (j : Fin 8) : Core :=
  let e := handleEntry (match k.frame j with
    | some f => f.park
    | none => 0)
  let tile := k.live
  let k1 := { k with sp := k.sp.writeRun e.addr (parkImage tile), live := .cleared, liveOwner := none }
  (k1.modSlot j fun v => { v with parked := some tile }).parkBeats

/-- Restores the parked tile of slot `i` into the live set. -/
def State.restore (s : State) (c : Fin 192) (i : Fin 8) : State :=
  let k := s.core c
  match (k.slot i).parked, k.frame i with
  | some tile, some f =>
    let same := k.sp.readRun (handleEntry f.park).addr parkSize = parkImage tile
    let t := if same then tile else changedTile s.free
    let s1 := if same then s else { s with free := s.free + 1 }
    s1.modCore c fun k =>
      (({ k with live := t, liveOwner := some i }).modSlot i fun v => { v with parked := none }).parkBeats
  | _, _ => s

/- The start of an instance. -/

/-- A frame's caravan block equals the binding. -/
def Caravan.binds (p : Caravan) (f : Frame) : Bool :=
  p.forward == f.forward && p.id == f.caravanId && p.position == f.position && p.prev == f.prev && p.next == f.next

/-- A neighbour named by a frame is held by the context that holds this core, or is 0xFF (R191). -/
def State.neighborOk (s : State) (c : Fin 192) (n : Nat) : Bool :=
  n == 0xFF || (match coreOf? n with
    | some d => (s.core d).ctx == (s.core c).ctx
    | none => false)

/-- The checks when an instance starts: R53, Table 3.4, R191 and the PARK_BILLET rule of R138. -/
def State.startStatus (s : State) (c : Fin 192) (i : Fin 8) (f : Frame) : Byte :=
  let k := s.core c
  let cfg := k.rd 0x20200
  let fenced := ((List.range 4).filter fun q => bitOf cfg q).length
  let owner := match k.liveOwner with
    | some j => if j = i then none else k.frame j
    | none => none
  if (f.shape == 2 && decide (2 ≤ fenced)) || (f.shape != 2 && decide (1 ≤ fenced)) then stFenced
  else if !f.rowPath && bitOf cfg 4 then stFenced
  else if f.caravanEn &&
      (!(s.neighborOk c f.prev && s.neighborOk c f.next) || (k.car.state != .unbound && !k.car.binds f)) then stReserved
  else if f.accUse != 0 && (match owner with
      | some o => decide ((handleEntry o.park).extent < parkSize) || (handleEntry o.park).overruns
      | none => false) then stReserved
  else stOk

/-- Binds an unbound port to the caravan block of a frame (R191). -/
def Core.bindPort (k : Core) (f : Frame) : Core :=
  if f.caravanEn ∧ k.car.state = .unbound then
    ({ k with car := { k.car with
        state := .bound, forward := f.forward, id := f.caravanId, position := f.position, prev := f.prev,
        next := f.next } }).freePlaces
  else k

/-- The park billet's range that a start registers is clear (R138). -/
def Core.parkClear (k : Core) (i : Fin 8) (f : Frame) : Bool :=
  let h (g : Frame) (w : Bool) : Bool := rangeClear k.activeRanges ((handleEntry g.park).range w)
  (f.accUse == 0) || ((match k.liveOwner with
    | some j => j == i || (match k.frame j with
      | some g => h g true
      | none => true)
    | none => true) && ((k.slot i).parked.isNone || h f false))

/-- Starts an instance: a failed start check ends it before its first command; else park, restore, bind, and
the draw is committed. -/
def State.startInst (s : State) (c : Fin 192) (d : Cand) : State :=
  let st := s.startStatus c d.slot d.frame
  if st ≠ stOk then s.endInst c d.slot st
  else
    let array := d.frame.accUse != 0
    let k := s.core c
    let s1 := match k.liveOwner with
      | some j => if array ∧ j ≠ d.slot then s.modCore c fun k => k.park j else s
      | none => s
    let s2 := if array then s1.restore c d.slot else s1
    let s3 := s2.modCore c fun k =>
      let k1 := (k.bindPort d.frame).modInst d.slot fun n => { n with running := true, startedAt := s.time }
      if array then
        { k1 with draw := k.drawOf d.frame, refusedAt := none, guardPassed := false, arrayCfg := BitVec.ofNat 5 (k.rd 0x20200) }
      else k1
    let s4 := if array ∧ k.guardPassed = true then { s3 with guardPermits := s3.guardPermits + 1 } else s3
    match ctxOf? d.frame.context with
    | some x => s4.modCtx x fun q =>
        let q1 := { q with ran := if q.ran.contains c.val then q.ran else q.ran ++ [c.val] }
        if d.frame.cls = 2 then q1.mbMod d.inst.mb.toNat fun r => { r with wg := true } else q1
    | none => s4

/-- Ends one armed instance held back by a poison token: the token is taken and its status reported (R183). -/
def State.endPoisoned (s : State) (c : Fin 192) (array : Bool) : Option State :=
  let held := ((s.core c).armedFor array).filterMap fun d => (s.headToken d.frame).map fun t => (d, t)
  match held with
  | [] => none
  | (d, t) :: _ =>
    let s1 := match s.endpoint t.1 with
      | some (q, e) => s.modCore q fun k => k.setEnd e { k.end_ e with queue := (k.end_ e).queue.tail }
      | none => s
    some (s1.endInst c d.slot t.2)

/-- The picker fills a place (R137). Each candidate that the energy rule refuses counts in INNK_ENERGY_HOLD
(R356). -/
def State.pick (s : State) (c : Fin 192) (array : Bool) : State :=
  match s.endPoisoned c array with
  | some t => t
  | none =>
    let s1 := s.markLate c
    let k := s1.core c
    if !k.placeFree array ∨ k.role = 3 ∨ k.role = 2 then s1
    else
      let ready := s1.candidates c array
      let ok := if array then ready.filter fun d => s1.energyPermits c d.frame else ready
      let s2 := if array then s1.bump 0x69108 (ready.length - ok.length) else s1
      match k.best (k.preferOwner array ok) with
      | some d => if k.parkClear d.slot d.frame then s2.startInst c d else s2
      | none =>
        if array ∧ ok.length < ready.length ∧ k.refusedAt = none then
          s2.modCore c fun k => { k with refusedAt := some s.time }
        else s2

/-- PICK. -/
def execPick (c : Fin 192) (array : Bool) (s : State) : Result := if s.innkPaused then .next s else .next (s.pick c array)

/-- GUARD_US_EXPIRY: a core has waited GUARD_US with a ready array instance refused; the next request is
permitted whatever the budget (R356). -/
def execGuardUsExpiry (c : Fin 192) (s : State) : Result :=
  if (s.core c).refusedAt = none ∨ s.innkPaused = true then .next s
  else .next ((s.modCore c fun k => { k with guardPassed := true }).pick c true)

/-- An instance may end: every command has issued or one has failed, and none is in progress. -/
def Core.canEnd (k : Core) (i : Fin 8) : Bool :=
  match (k.slot i).inst with
  | some n => n.running && !k.outstanding i &&
      (n.failed.isSome || (n.held.isNone && decide (n.len ≤ n.next)))
  | none => false

/-- INSTANCE_END. The waits name those for LDTs in progress after the last command had issued (R137). Once the instance of a
caravan OPX that failed has ended, the Innkeeper writes RESUME (R394). -/
def execInstanceEnd (c : Fin 192) (i : Fin 8) (w : Waits) (s : State) : Result :=
  let k := s.core c
  match (k.slot i).inst, k.frame i with
  | some n, some f =>
    if !k.canEnd i then .next s
    else
      let s1 := (s.modCore c fun k => k.waited w).endInst c i n.status
      .next (if f.bCaravan then s1.modCore c Core.carResume else s1).markLateAll
  | _, _ => .next s

/-- INSTANCE_CANCEL. A code that is no failing status of Table 12.6 cancels nothing. -/
def execInstanceCancel (c : Fin 192) (i : Fin 8) (st : Byte) (unstarted : List Nat) (s : State) : Result :=
  if failingStatus st then .next (s.cancelOne c i st unstarted).markLateAll else .next s

end Sys2Proof.Machine
end

