-- ==== Sys2Proof/Machine/Saved.lean ====
section
/-! DEFINITION. The state records and contents that a snapshot takes of a context (Table 15.3, R106, R205, R317, R395), as
the module hands them to the snapshot's destination. -/

namespace Sys2Proof.Machine

/-- Offset of a register of a context's snapshot block (Table 15.7). -/
def snapOff (x : Fin 64) (r : Nat) : Nat := 0x91000 + 64 * x.val + r

/-- Bytes 0x08 to 0x37 of the REGION_OPEN of a region (Table 12.4). -/
def Region.openBytes (r : Region) : List Byte :=
  let mirror : Nat × List Byte := match r.mirror with
    | .none => (0, leBytes 24 0)
    | .peer ep win gen off => (1, leBytes 2 ep ++ leBytes 2 win ++ leBytes 4 gen ++ leBytes 16 off)
    | .host fn addr => (2, leBytes 16 fn ++ leBytes 8 addr)
  leBytes 1 (r.kind + 8 * b2n r.ro + 16 * b2n r.snapshot + 32 * r.fill) ++ leBytes 1 mirror.1 ++ leBytes 2 r.slot ++ leBytes 4 r.size ++
    leBytes 8 r.base ++ leBytes 8 r.home ++ mirror.2

/-- The WINDOW_OPEN of a window (Table 12.4). -/
def Window.openBytes (w : Window) : List Byte :=
  leBytes 8 0 ++ leBytes 2 w.id ++ leBytes 1 (w.target + 8 * w.op + 32 * b2n w.read) ++ leBytes 1 w.fmt ++ leBytes 4 w.gen ++
    leBytes 8 w.base ++ leBytes 40 (w.size / 4096)

/-- The endpoint's queue: handle words with their slot, and a poison token as its status with slot 16. -/
def Endpoint.saved (e : Endpoint) : List (Word × Word × Nat) :=
  e.queue.map fun q => match q with
    | .handle w0 w1 n => (w0, w1, n)
    | .token st => (st.setWidth 32, 0, 16)

/-- The image of core `c` (R395, step 4), with its declarations (R205). -/
def Core.saved (k : Core) (c : Fin 192) : SavedCore :=
  let inst (i : Fin 8) : Option (Nat × BitVec 16 × Nat × Nat) := (k.slot i).inst.map fun n => (i.val, n.mb, n.start, n.len)
  { core := c.val, sp := k.sp, dmem := k.dmem, imem0 := k.imem0, imem1 := k.imem1, bank := k.stw.bank, flip := k.flipPending
    frames := allSlots.filterMap fun i => (k.slot i).image.map fun b => (i.val, b)
    armed := allSlots.filterMap inst
    gens := allSlots.map fun i => (k.slot i).gen
    resident := (allSlots.filter fun i => (k.slot i).resident).map (·.val)
    parked := allSlots.filterMap fun i => (k.slot i).parked.map fun a => (i.val, a.numbers)
    masks := k.mask.toList, soft := k.soft, softFill := k.softFill, g := k.stw.g.toList, pc := k.stw.pc, fflags := k.stw.fflags
    events := k.stw.events, admitted := k.admitQ, declared := k.fwdDone
    bqCfg := (List.range 16).map fun e => BitVec.ofNat 32 (k.rd (0x20640 + 4 * e))
    queues := k.ends.toList.zipIdx.map fun e => (e.2, e.1.saved)
    fill := BitVec.ofNat 32 (k.rd 0x20600) }

/-- A region as a snapshot holds it; one without SNAPSHOT keeps only its attributes (R407, Table 15.3). -/
def State.savedRegion (s : State) (r : Region) : SavedRegion :=
  let inside := Memory.below (Memory.from s.mem r.base) (r.base + r.bytes)
  { attrs := leBytes 8 0 ++ (r.openBytes ++ leBytes 8 0)
    data := if r.snapshot then inside.map fun p => (p.1 - r.base, p.2) else []
    poisoned := if r.snapshot && r.tiled then
        (List.range r.slots).filter fun n => (s.dirAt (r.base + n * r.slotBytes)).st == .poisoned
      else [] }

/-- Loss records as a snapshot holds them. -/
def LossSum.saved (l : LossSum) : Nat × Nat × Word × Bool := (l.records, l.count, l.loss, l.trip)

/-- Loss records as a restore reads them. -/
def LossSum.restored (v : Nat × Nat × Word × Bool) : LossSum := { records := v.1, count := v.2.1, loss := v.2.2.1, trip := v.2.2.2 }

/-- What a snapshot of context `x` holds as things stand. -/
def State.saved (s : State) (x : Fin 64) : Saved :=
  let k := s.ctx x
  let layers := s.validLayers.filter fun p => leCtx p.2 == x.val
  let word (off : Nat) : Word := BitVec.ofNat 32 (s.rd off)
  { params := k.params, step := k.step.getD 0
    cores := (s.ctxCores x).map fun c => (s.core c).saved c
    regions := (s.regions.filter fun r => r.ctx == x.val && decide (r.kind ≤ 4)).map s.savedRegion
    windows := (s.windows.filter fun w => w.ctx == x.val).map Window.openBytes
    streams := (s.streams.filter fun e => e.1 / 64 == x.val).filterMap fun e => e.2.set.map fun d => (d.ring, d.idx, d.bytes)
    microbatches := (k.mbs.filter fun r => !r.admitted && !r.done).filterMap fun r => r.desc.map fun d => (d.ring, d.idx, d.bytes)
    counters := (List.range k.ccCount).map fun i => (k.ccFirst + i, s.counter (k.ccFirst + i))
    layers := layers
    rules := (s.ruleTab.filter fun r => layers.any fun p => leRule p.2 == r.1)
    layerState := layers.map fun p => (p.1, (s.layer p.1).t, (s.layer p.1).rms)
    ema := word 0xA800C, emaValid := s.lossGate.valid, warm := s.lossGate.warm
    gate := (s.lossGate.decided, s.lossGate.tripped, s.lossGate.waitExpired)
    curLoss := s.lossGate.cur.saved
    nextLoss := s.lossGate.next.saved
    rng := k.rng.map fun e => (e.1, e.2.1, e.2.2)
    leaseMs := (s.fn (fnOf k.fn)).rd 0x69004
    record := (List.range 16).map fun i => SMap.get (fun _ => 0) s.stepSh (0x80000 + 64 * x.val + 4 * i) }

end Sys2Proof.Machine
end

