-- ==== Sys2Proof/Machine/Steps.lean ====
section
/-! DEFINITION. Steps and micro-batches (R14, R205, R211, R212, R346 to R351, R358), their records and shadows (R385), and
the snapshot stop, drain and confirmation (R392, R393, R407 to R411). -/

namespace Sys2Proof.Machine

/- Abort and release (R212). -/

/-- MB_ABORT: steps 2 and 5 of R212. A code that is no failing status of Table 12.6 aborts nothing. -/
def execMbAbort (x : Fin 64) (mb : Nat) (status : Byte) (s : State) : Result :=
  if failingStatus status then .next (s.abortMb x mb status) else .next s

/-- A Porter request of micro-batch `m` of context `x` is outstanding, on whatever core it was issued. -/
def State.porterHolds (s : State) (x : Fin 64) (m : Nat) : Bool :=
  allCores.any fun c => (s.core c).porterQ.any fun j => j.ctx == x.val && j.mb.toNat == m

/-- STASH_RELEASE: every instance of an aborted micro-batch has ended and its Porter requests have completed. -/
def execStashRelease (x : Fin 64) (mb : Nat) (s : State) : Result :=
  match (s.ctx x).mbFind mb with
  | none => .next s
  | some r => match r.aborted with
    | none => .next s
    | some st =>
      if r.done ∨ (s.mbInsts x mb none).isEmpty = false ∨ s.porterHolds x mb = true then .next s else .next (s.finishMb x mb st)

/- Admission (R211, R348). -/

/-- The oldest queued micro-batch: the lowest step and index, or for a decode context the batch queued first. -/
def Ctx.oldestMb (k : Ctx) : Option Mb :=
  let q := k.mbs.filter fun r => !r.done && !r.admitted
  if k.decode then q.head?
  else q.foldl (fun b r => match b with
    | none => some r
    | some o => if r.step < o.step ∨ (r.step = o.step ∧ r.mb < o.mb) then some r else some o) none

/-- Free MiB places of the pool, lowest first. -/
def Ctx.freePlaces (k : Ctx) (n : Nat) : List Nat :=
  let used := k.mbs.flatMap fun r => r.resvBase
  (((List.range k.poolMib).map fun i => k.poolRegion + i * 2 ^ 20).filter fun a => !used.contains a).take n

/-- Updates one micro-batch record. -/
def Ctx.updMb (k : Ctx) (r : Mb) (f : Mb → Mb) : Ctx := { k with mbs := k.mbs.map fun q => if q = r then f q else q }

/-- A queued micro-batch that can never fit is aborted with STASH_EXHAUSTED and counted. -/
def State.rejectMb (s : State) (x : Fin 64) (r : Mb) : State :=
  let s1 := s.modCtx x fun k => k.updMb r fun q => { q with aborted := some stStash, done := true }
  let s2 := (s1.bumpField (stashOff x 0x14) 15 0 1).bumpField (stashOff x 0x14) 31 16 1
  let s3 := s2.onCtxCores x fun k => k.postNotice r.mb
  if r.batch then s3.endBatch x r.mb stStash
  else match r.desc with
    | some d => s3.complete d stStash r.mb 0 r.step
    | none => s3

/-- Reserves stash for a micro-batch and posts it to every core. -/
def State.admitMb (s : State) (x : Fin 64) (r : Mb) (need : Nat) : State :=
  let places := (s.ctx x).freePlaces need
  let s1 := s.modCtx x fun k =>
    { k.updMb r (fun q => { q with admitted := true, resv := need, resvBase := places }) with freeMib := k.freeMib - need }
  s1.onCtxCores x fun k => k.postAdmit (admitWord r.mb)

/-- The loop of R211. -/
def State.admitLoop (s : State) (x : Fin 64) : Nat → State
  | 0 => s
  | fuel + 1 =>
    let k := s.ctx x
    match k.oldestMb with
    | none => s
    | some r =>
      let need := ceilDiv r.est (2 ^ 20)
      if k.poolMib < need then (s.rejectMb x r).admitLoop x fuel
      else if !k.decode && (!k.inStep || k.step != some r.step) then s
      else if k.freeMib < need then s
      else if (s.ctxCores x).any fun c => (s.core c).admitFull then s
      else (s.admitMb x r need).admitLoop x fuel

/-- ADMIT: a parked context admits nothing (R361). -/
def execAdmitMb (x : Fin 64) (s : State) : Result :=
  let k := s.ctx x
  if s.innkPaused then .next s
  else if k.state = .opened ∨ k.state = .orphaned then .next (s.admitLoop x (k.mbs.length + 1)) else .next s

/- Opening a step (R346, R347). -/

/-- Opens a step. Its micro-batches fetched before are counted; those beyond MB_COUNT are refused. The step starts with no
declaration (R205). -/
def State.openStep (s : State) (x : Fin 64) (d : DescRef) : State :=
  let step := d.le 8 5
  let count := d.le 0x10 2
  let early := (s.ctx x).mbs.filter fun r => r.step == step
  let bad := early.filter fun r => decide (count ≤ r.mb)
  let s1 := s.modCtx x fun k =>
    { k with
      step := some step, anyStep := false, inStep := true, mbCount := count, stepDesc := some d, stepOpenAt := s.time
      fetchedMbs := (early.filter fun r => decide (r.mb < count)).map (·.mb)
      mbs := k.mbs.filter fun r => !bad.contains r
      taint := none, ran := [], lastMbEnd := none, reduceEnd := none }
  bad.foldl (fun s r => match r.desc with
    | some d => if r.done then s else s.complete d stReserved r.mb 0 step
    | none => s) (s1.onCtxCores x fun c => { c with fwdDone := [] })

/-- STEP_OPEN: the oldest STEP that waits, once the previous step has reached its boundary and the snapshot stop after it
has ended. A STEP of another index than the next is refused. -/
def execStepOpen (x : Fin 64) (s : State) : Result :=
  let k := s.ctx x
  match k.waitingSteps with
  | [] => .next s
  | d :: rest =>
    if k.state ≠ .opened ∨ k.orphaned = true ∨ k.inStep = true ∨ k.snap.phase = 1 ∨ s.innkPaused = true then .next s
    else
      let s1 := s.modCtx x fun k => { k with waitingSteps := rest }
      let next := k.anyStep || (match k.step with
        | some n => d.le 8 5 == n + 1
        | none => true)
      if next then .next (s1.openStep x d) else .next (s1.complete d stReserved 0 0 (d.le 8 5))

/- The step record (Table 13.8) and the shadows (R385). -/

/-- The layer-table entries of a context that are VALID. -/
def State.ctxLayers (s : State) (x : Fin 64) : List (Nat × List Byte) := s.validLayers.filter fun p => leCtx p.2 == x.val

/-- Layers of a context held in this step. -/
def State.layersHeld (s : State) (x : Fin 64) : Nat :=
  ((s.ctxLayers x).filter fun p => (s.layer p.1).finished && (s.layer p.1).status == stHold).length

/-- 32-bit saturation. -/
def sat32 (n : Nat) : Nat := min n (2 ^ 32 - 1)

/-- The sum of the four TOLL_NORM_SQ values, in FP32. -/
def State.normSum (s : State) : Nat :=
  fp32.encode (allTolls.foldl (fun a t => fadd a (f32 (w48.decode (s.toll t).normSq))) .zero)

/-- Non-finite counts of a context's cores and of the Tollhouses. -/
def State.nfSum (s : State) (x : Fin 64) : Nat :=
  let cores := (s.ctxCores x).foldl (fun n c => n + (s.core c).rd 0x20300 + (s.core c).rd 0x20304) 0
  allTolls.foldl (fun n t => n + (s.toll t).rd 0xA000C) cores

/-- The 16 words of a context's step record as they accumulate (R358). REDUCE ends when every layer has left ARRIVING. -/
def State.stepRecord (s : State) (x : Fin 64) : List Nat :=
  let k := s.ctx x
  let wall := if k.inStep then s.time - k.stepOpenAt else 0
  let last := k.lastMbEnd.getD s.time
  let left := if s.layersLeft x then max last (k.reduceEnd.getD last) else s.time
  let step := k.step.getD 0
  [sat32 wall, sat32 (k.accFwd / 1000), sat32 (k.accAgrad / 1000), sat32 (k.accWgrad / 1000), sat32 (k.accStarved / 1000),
    sat32 (k.accSkew / 1000), (if k.inStep then left - last else 0), (if k.inStep then s.time - left else 0), k.snapUs,
    k.accMbOk % 65536 + k.accMbFailed % 65536 * 65536, k.accPartial % 65536 + s.layersHeld x % 65536 * 65536, s.normSum,
    sat32 (s.nfSum x), sat32 (k.accOvfBytes / 1024), step % 2 ^ 32, step / 2 ^ 32 % 256]

/-- Word `i` of a context's stash block (Table 8.3). -/
def State.stashWord (s : State) (x : Fin 64) (i : Nat) : Nat :=
  let k := s.ctx x
  match i with
  | 0 => k.poolMib
  | 1 => k.freeMib
  | 2 => k.ovfCap
  | 3 => k.ovfUsed
  | 4 => s.rd (stashOff x 0x10)
  | 5 => s.rd (stashOff x 0x14)
  | 6 => s.rd (stashOff x 0x18)
  | _ => 0

def noReg (_ : Nat) : Word := 0

/-- The offsets and live values of a context's stash block and step record. -/
def State.ctxWords (s : State) (x : Fin 64) : List (Nat × Word) :=
  let stash := (List.range 7).map fun i => (stashOff x (4 * i), BitVec.ofNat 32 (s.stashWord x i))
  stash.append ((s.stepRecord x).zipIdx.map fun p => (0x80000 + 64 * x.val + 4 * p.2, BitVec.ofNat 32 p.1))

/-- The counters of a Tollhouse with TOLL_NORM_SQ in place. -/
def Toll.latched (k : Toll) : Regs := (k.wr 0xA0014 (fp32.encode (f32 (w48.decode k.normSq)))).regs

/-- The Tollhouse counters that restart at a step boundary (R318). -/
def tollRestarts : List Nat := [0xA0008, 0xA000C, 0xA0010, 0xA0014, 0xA0018, 0xA001C, 0xA002C]

/-- The Tollhouses that take their step shadow at a boundary of context `x`. -/
def State.tollsOf (s : State) (x : Fin 64) : List (Fin 4) :=
  allTolls.filter fun t => (s.ctxLayers x).any fun p => tollOf (leToll p.2) == t || s.servedBy (leToll p.2) == t

/-- Copies the counters of a context into their step shadows, restarts those that restart, and reports the step
record (R109, R214, R318, R385, R404). The counters of channels, ports and INNK_ENERGY_HOLD, which belong to no context,
are copied at every boundary (DEDUCED, assumption 35). -/
def State.latchStep (s : State) (x : Fin 64) : State :=
  let s1 : State := { s with
    stepSh := SMap.setAll noReg s.stepSh ((0x69108, SMap.get glbReset s.regs 0x69108) :: s.ctxWords x)
    chans := s.chans.map fun k => { k with stepSh := k.regs }
    ports := s.ports.map fun k => { k with stepSh := k.regs } }
  let s2 := s1.onCtxCores x fun k =>
    let k1 := { k with stepSh := k.regs }
    [0x20300, 0x20304, 0x20308, 0x2030C].foldl (fun k off => k.wr off 0) k1
  let s3 := (s.tollsOf x).foldl (fun s t => s.modToll t fun k =>
    let k1 := { k with stepSh := k.latched, normSq := 0 }
    tollRestarts.foldl (fun k off => k.wr off 0) k1) s2
  let s4 := ((s3.wr (stashOff x 0x10) 0).wrBits (stashOff x 0x14) 15 0 0).wrBits (stashOff x 0x18) 15 0 0
  s4.report (.stepRecord x.val (s.stepRecord x))

/-- Restarts the step record. -/
def Ctx.restartRecord (k : Ctx) : Ctx :=
  { k with
    accFwd := 0, accAgrad := 0, accWgrad := 0, accStarved := 0, accSkew := 0, accMbOk := 0, accMbFailed := 0, accPartial := 0
    accOvfBytes := 0, lastMbEnd := none, reduceEnd := none, snapUs := 0, profile := k.profileNow, profileNow := [] }

/- Tollhouse faults (R405). -/

/-- The substitute of a fenced Tollhouse: the other one of its die, else the lowest unfenced one of the other die. -/
def State.substitute (s : State) (t : Fin 4) : Option (Fin 4) :=
  let mate := tollOf (if t.val % 2 = 0 then t.val + 1 else t.val - 1)
  if !(s.toll mate).fenced then some mate
  else allTolls.find? fun q => !(s.toll q).fenced && q.val / 2 != t.val / 2

/-- GLB_TOLL_MAP from the fences. -/
def State.mapTolls (s : State) : State :=
  allTolls.foldl (fun s t =>
    let fenced := (s.toll t).fenced
    let server := if fenced then (s.substitute t).getD t else t
    s.wrBits 0x90050 (8 * t.val + 2) (8 * t.val) (server.val + b2n fenced * 4)) s

/-- Tollhouses that failed a self-check in this step become fenced. -/
def State.fenceTolls (s : State) : State :=
  let fence (k : Toll) : Toll := if k.failed then { k with failed := false, fenced := true } else k
  if allTolls.any fun t => (s.toll t).failed then ({ s with tolls := s.tolls.map fence }).mapTolls else s

/-- A layer of another context than `x` has its round of a step under way or behind it: its rule and addresses stay, and a
loaded table waits for a later boundary (R299, assumption 117). -/
def State.roundsElsewhere (s : State) (x : Fin 64) : Bool :=
  s.validLayers.any fun p => leCtx p.2 != x.val && ((s.layer p.1).st != .idle || (s.layer p.1).finished)

/-- The module-wide Tollhouse registers take effect, the gate turns to the next step's records, and the tables swap; a
table load returns the Tollhouses that have passed a sweep (R402). -/
def State.turnTolls (s : State) (x : Fin 64) : State :=
  let s1 : State := { s with tollRegs := s.regs.filter fun p => decide (0xA8000 ≤ p.1 ∧ p.1 ≤ 0xA8014) }
  let done (s : State) (p : Nat × List Byte) : State := s.modLayer p.1 fun l => { l with finished := false, late := false, wasTripped := false }
  let s2 := (s.ctxLayers x).foldl done s1
  let g := s2.lossGate
  let s3 : State := if s.ctxLayers x = [] then s2
    else
      let g1 : LossGate := { g with cur := g.next, next := {}, decided := false, tripped := false, waitExpired := false }
      State.tryGate { s2 with lossGate := g1 }
  let s4 := s3.fenceTolls
  if s4.nextTabs = none ∨ s4.roundsElsewhere x = true then s4
  else
    let back (k : Toll) : Toll := if k.passed then { k with passed := false, fenced := false } else k
    ({ s4 with tolls := s4.tolls.map back }).mapTolls.swapTables

/- Snapshots. -/

/-- Regions of a context whose contents a snapshot takes. -/
def State.snapRegions (s : State) (x : Fin 64) : List Region := s.regions.filter fun r => r.ctx == x.val && r.snapshot && decide (r.kind ≤ 4)

/-- Uncompressed bytes of the tile in a slot: what it takes in the near tier. -/
def State.dirtyBytesOf (s : State) (r : Region) : Nat :=
  ((s.dirtySlots r).map fun slot => (s.tileAt r slot).length).foldl (· + ·) 0

/-- Bytes of a core image (Table 15.3). -/
def coreImageBytes : Nat := 8663040

/-- Bytes that the stop copies to staging: near regions of kinds 0 and 1, and the core images. -/
def State.stagingNeed (s : State) (x : Fin 64) : Nat :=
  ((s.snapRegions x).filter fun r => decide (r.kind ≤ 1)).foldl (fun n r => n + r.bytes) 0 + (s.ctxCores x).length * coreImageBytes

/-- D of R408 as it stands: what a stop would write. -/
def State.snapBytes (s : State) (x : Fin 64) : Nat :=
  (((s.snapRegions x).filter fun r => r.kind == 2).map s.dirtyBytesOf).foldl (· + ·) 0 + s.stagingNeed x

/-- Duration of a stop of `d` bytes in µs: 40 ms + D ÷ 2.18 TB/s. -/
def stopUs (d : Nat) : Nat := 40000 + d / 2180000

/-- The interval T in seconds (R411). -/
def State.interval (s : State) (x : Fin 64) : Nat :=
  let m := s.rd (snapOff x 0x1C)
  let c := (s.ctx x).snap.lastStop.getD (stopUs (s.snapBytes x))
  if m = 0 then 14400 else clampNat 60 14400 (Nat.sqrt (2 * c * m / 1000000))

/-- Snapshots are taken: enabled, with a destination and a staging area in a writable cellar raw region (R407). -/
def State.snapArea (s : State) (x : Fin 64) : Option (Region × Nat × Nat) :=
  let a := s.rd (snapOff x 0x14) + bitsOf (s.rd (snapOff x 0x18)) 15 0 * 2 ^ 32
  let n := bitsOf (s.rd (snapOff x 0x18)) 31 16 * 2 ^ 30
  match s.regionAt a (max 1 n) with
  | some r => if r.ctx = x.val ∧ r.kind = 4 ∧ r.ro = false ∧ n ≠ 0 then some (r, a, n) else none
  | none => none

def State.snapEnabled (s : State) (x : Fin 64) : Bool := bitOf (s.rd (snapOff x 0)) 0 && (s.snapArea x).isSome

def Ctx.modSnap (k : Ctx) (f : Snap → Snap) : Ctx := { k with snap := f k.snap }

def Snap.gen (p : Snap) (g : Bool) : Gen := if g then p.gen1 else p.gen0

def Snap.setGen (p : Snap) (g : Bool) (v : Gen) : Snap := if g then { p with gen1 := v } else { p with gen0 := v }

/-- A snapshot or drain failed: RESULT, SNAP_DEFER.FAILED and fault-log kind 0x10. -/
def State.snapFailed (s : State) (x : Fin 64) (result : Nat) : State :=
  let s1 := (s.modCtx x fun k => k.modSnap fun p => { p with result := result }).bumpField (snapOff x 0x38) 31 16 1
  s1.logFault { kind := 0x10, ctx := some x }

/-- A generation taken at the boundary of the step before has its check (R393). -/
def Snap.checkNext (p : Snap) (step : Nat) (ok : Bool) : Snap :=
  let one (v : Gen) : Gen := if v.step + 1 = step ∧ ok = true then { v with nextOk := true, confirmed := v.confirmed || v.complete } else v
  { p with gen0 := one p.gen0, gen1 := one p.gen1 }

/-- Starts a snapshot that is due at this boundary (R408): behind a running drain it is deferred; too small a staging area
fails it. -/
def State.startStop (s : State) (x : Fin 64) : State :=
  let p := (s.ctx x).snap
  if p.phase = 2 then
    (s.modCtx x fun k => k.modSnap fun p => { p with now := true }).bumpField (snapOff x 0x38) 15 0 1
  else
    let s1 := s.modCtx x fun k => k.modSnap fun p => { p with now := false }
    match s1.snapArea x with
    | some (_, _, n) => if n < s1.stagingNeed x then s1.snapFailed x 7 else s1.modCtx x fun k => k.modSnap fun p => { p with phase := 1 }
    | none => s1.snapFailed x 7

/-- A snapshot falls due at this boundary (R408): by the interval, by NOW or a deferral, or under orphan policy 2. -/
def State.snapDue (s : State) (x : Fin 64) : Bool :=
  let k := s.ctx x
  s.snapEnabled x &&
    (k.snap.now || (k.orphaned && k.orphan == 2) || decide (s.interval x * 1000000 ≤ s.time - k.snap.lastEnd))

/- Orphans at a boundary (Table 13.4). -/

/-- Abandons what is outstanding and will not run: waiting steps, queued micro-batches and descriptors not yet started
complete with LEASE_EXPIRED (R361). -/
def State.abandon (s : State) (x : Fin 64) : State :=
  let k := s.ctx x
  let s1 := s.modCtx x fun k => { k with waitingSteps := [], mbs := k.mbs.filter fun r => r.done || r.admitted }
  let s2 := k.waitingSteps.foldl (fun s d => s.complete d stLease 0 0 (d.le 8 5)) s1
  let s3 := (k.mbs.filter fun r => !r.done && !r.admitted).foldl (fun s r => match r.desc with
    | some d => s.complete d stLease r.mb 0 r.step
    | none => s) s2
  let rings := (List.finRange 256).filter fun r => (s.sq r).ctx == some x
  rings.foldl (fun s r => ((s.sq r).out.filter fun o => !o.started).foldl (fun s o => s.complete o.ref stLease 0 0 0) s) s3

/-- Parks an orphaned context at the boundary. -/
def State.parkOrphan (s : State) (x : Fin 64) : State := (s.modCtx x fun k => { k with state := .parkedBoundary }).abandon x

/- The boundary. -/

/-- The boundary of the open step is reached (R14, R347). -/
def State.boundaryReached (s : State) (x : Fin 64) : Bool :=
  let k := s.ctx x
  k.inStep && (k.state == .opened || k.state == .orphaned) && k.mbsDone && (s.ctxLayers x).all fun p => (s.layer p.1).finished

/-- What follows the boundary: a taint parks the context (R392); an orphan parks, after a stop under policy 2; a snapshot
starts when it is due. -/
def State.afterBoundary (s : State) (x : Fin 64) (taint : Option (Nat × Byte)) : State :=
  let k := s.ctx x
  match taint with
  | some (cause, st) =>
    let s1 := (s.modCtx x fun k => { k with state := .parkedBoundary, tainted := true, taintCause := cause }).logFault
      { kind := 0x11, status := st, ctx := some x }
    if k.orphaned then s1.abandon x else s1
  | none =>
    let s1 := if s.snapDue x then s.startStop x else s
    if k.orphaned ∧ (s1.ctx x).snap.phase ≠ 1 then s1.parkOrphan x else s1

/-- STEP_BOUNDARY (R358): nothing while a multicast that the module awaits from another is open (R14, assumption 101). -/
def execStepBoundary (x : Fin 64) (awaited : Bool) (s : State) : Result :=
  if awaited || !s.boundaryReached x then .next s
  else
    let k := s.ctx x
    let step := k.step.getD 0
    let held := s.layersHeld x
    let aborted := bitsOf (s.rd (stashOff x 0x14)) 15 0
    let s1 := (s.latchStep x).modCtx x fun k =>
      let k1 := { k.restartRecord with inStep := false, stepDesc := none, fetchedMbs := [], rng := [], taint := none, ran := [] }
      let k2 := { k1 with mbs := k1.mbs.filter fun r => k.step != some r.step }
      k2.modSnap fun p => p.checkNext step (k.taint.isNone && held == 0)
    let st := match k.taint with
      | some (_, st) => st
      | none => stOk
    let s2 := match k.stepDesc with
      | some d => s1.complete d st aborted held step
      | none => s1
    let s3 := s2.onCtxCores x fun c => ({ c with fwdDone := [], groups := [] }).raiseEvent 9
    let s4 := (s3.turnTolls x).wr (snapOff x 0x2C) (s.interval x)
    .next (s4.afterBoundary x k.taint)

/-- The slot that a drain writes: not the one of the newest confirmed generation, or the older one (R409). -/
def Snap.drainSlot (p : Snap) : Bool :=
  if p.gen0.confirmed ∧ (p.gen1.confirmed = false ∨ p.gen1.step < p.gen0.step) then true
  else if p.gen1.confirmed then false
  else if !p.gen0.complete then false
  else if !p.gen1.complete then true
  else decide (p.gen1.step < p.gen0.step)

/-- The copies of the stop in staging: their layout is the module's, so the bytes are free (assumption 3). -/
def State.writeStaging (s : State) (x : Fin 64) : State :=
  match s.snapArea x with
  | none => s
  | some (_, a, _) =>
    let n := s.stagingNeed x
    let bs := (List.range n).map fun i => Config.freeByte (s.free * 2 ^ 48 + i)
    { s.putFull a bs with free := s.free + 1 }

/- The ledger (R410, Table 15.8). -/

/-- One entry of a ledger. -/
def ledgerEntry (slot region : Nat) (poisoned : Bool) (digest : Nat) : List Byte :=
  leBytes 4 slot ++ leBytes 4 (region % 4096 + 4096 * b2n poisoned) ++ leBytes 8 digest

/-- Bytes of a chunk of a raw region or of the state records. -/
def chunkBytes : Nat := 65536

/-- Entries of a snapshot region with index `i`: its tile slots, or its chunks. -/
def State.regionEntries (s : State) (i : Nat) (r : Region) : List (List Byte) :=
  if r.tiled then
    (List.range r.slots).map fun n =>
      let slot := r.base + n * r.slotBytes
      let bad := (s.dirAt slot).st == .poisoned
      ledgerEntry n i bad (if bad then 0 else tileDigest (s.tileAt r slot))
  else
    (List.range (ceilDiv r.bytes chunkBytes)).map fun n =>
      let at' := n * chunkBytes
      ledgerEntry n i false (crc64 (s.mem.readRun (r.base + at') (min chunkBytes (r.bytes - at')))).toNat

/-- The unsigned ledger of a stop of context `x` into slot `g`: header, region table, entry table and certificate chain. The
bytes of the state records beside the core images, their digests, the chain and the identity are not stated and are free. -/
def State.ledgerBody (s : State) (x : Fin 64) (g : Bool) : List Byte :=
  let k := s.ctx x
  let regions := s.regions.filter fun r => r.ctx == x.val && decide (r.kind ≤ 4)
  let word (i : Nat) : Nat := (Config.free32 (s.free + i)).toNat
  let bytes (i n : Nat) : List Byte := (List.range n).map fun j => Config.freeByte ((s.free + i) * 2 ^ 48 + j)
  let records := (s.ctxCores x).length * coreImageBytes + word 0
  let certs := 64 * (word 1 % 129)
  let taken := (regions.zipIdx.filter fun p => p.1.snapshot).flatMap fun p => s.regionEntries p.2 p.1
  let entries := taken ++ (List.range (ceilDiv records chunkBytes)).map fun n =>
    ledgerEntry n 0xFFF false (leNat ((List.range 8).map fun j => Config.freeByte ((s.free + 2) * 2 ^ 48 + 8 * n + j)))
  let header := leBytes 1 1 ++ leBytes 1 (b2n g) ++ leBytes 2 x.val ++ leBytes 4 (k.snap.seq + 1) ++ leBytes 8 (k.step.getD 0) ++
    leBytes 4 s.time ++ leBytes 4 s.sourceId ++ leBytes 4 regions.length ++ leBytes 4 entries.length ++ leBytes 8 records ++
    leBytes 8 certs ++ bytes 3 48 ++ List.replicate 160 0
  header ++ (regions.flatMap fun r => r.openBytes ++ leBytes 16 0) ++ entries.flatten ++ bytes 4 certs

/-- SNAPSHOT_STOP_END: the writes of the stop have finished after `us`; the drain begins. A slot under refetch is awaited
(R239). -/
def execSnapshotStopEnd (x : Fin 64) (us : Nat) (errs : List GranErr) (s : State) : Result := meetRow errs (fun s =>
  let k := s.ctx x
  if k.snap.phase ≠ 1 then .next s
  else
    let tiered := (s.snapRegions x).filter fun r => r.kind == 2
    let s1 := tiered.foldl (fun s r => s.flushRegion r) s
    if tiered.any fun r => !s1.flushed r then .next s1
    else
      let g := k.snap.drainSlot
      let body := s1.ledgerBody x g
      let s2 := ({ s1 with free := s1.free + 5 }.writeStaging x).modCtx x fun k =>
        let q := k.snap.setGen g { step := k.step.getD 0 }
        { k with
          snapUs := us
          snap := { q with
            phase := 2, slot := g, seq := q.seq + 1, lastEnd := s.time, lastStop := some us, staged := k.step, ledger := body
            taken := some (s1.saved x) } }
      .next (if k.orphaned then s2.parkOrphan x else s2)) s

/-- A drain through the host goes on only while its function's lease is active (R409). -/
def State.drainMay (s : State) (x : Fin 64) : Bool :=
  let cfg := s.rd (snapOff x 0)
  !bitOf cfg 1 || ((s.fn (fnOf (bitsOf cfg 6 2))).lease == .active && !(s.ctx x).orphaned)

/-- SNAPSHOT_DRAIN_COMPLETE: what the stop took and then the ledger are written and every write acknowledged, or the
destination failed. -/
def execSnapshotDrainComplete (x : Fin 64) (ok : Bool) (s : State) : Result :=
  let p := (s.ctx x).snap
  if p.phase ≠ 2 ∨ (ok = true ∧ s.drainMay x = false) then .next s
  else if ok then
    let signature : List Byte := (List.range 96).map fun j => Config.freeByte (s.free * 2 ^ 48 + j)
    let s1 : State := { s with free := s.free + 1, out := s.out ++
      ((p.taken.map fun v => Out.snapshot x.val p.slot v).toList ++ [.ledger x.val p.slot (p.ledger ++ signature)]) }
    .next (s1.modCtx x fun k => k.modSnap fun p =>
      let v := p.gen p.slot
      { p.setGen p.slot { v with complete := true, confirmed := v.nextOk } with phase := 0, newest := p.slot, result := 1 })
  else .next ((s.modCtx x fun k => k.modSnap fun p => { p with phase := 0 }).snapFailed x 6)

/- Commands of the snapshot block. -/

/-- A command that the context's state does not allow. -/
def State.snapRefused (s : State) (x : Fin 64) : State := s.modCtx x fun k => k.modSnap fun p => { p with result := 8 }

/-- SNAP_NOW: the next boundary takes a snapshot. -/
def execSnapNow (w : Who) (x : Fin 64) (s : State) : Result :=
  if !planeWrites w then .next s
  else
    let k := s.ctx x
    if (k.state = .opened ∨ k.state = .orphaned) ∧ k.decode = false ∧ s.snapEnabled x = true then
      .next (s.modCtx x fun k => k.modSnap fun p => { p with now := true })
    else .next (s.snapRefused x)

/-- ACCEPT: a context parked on a tainted step resumes, and the step stands (R392). -/
def execAccept (w : Who) (x : Fin 64) (s : State) : Result :=
  if !planeWrites w then .next s
  else
    let k := s.ctx x
    if k.state = .parkedBoundary ∧ k.tainted = true then
      .next (s.modCtx x fun k => { k with tainted := false, taintCause := 0, state := if k.orphaned then .parkedBoundary else .opened })
    else .next (s.snapRefused x)

/-- TAINT: the open step is tainted by cause 5, and the operator's suspicion is logged with kind 0x0B (Table 15.1; DEDUCED,
assumption 27). -/
def execTaint (w : Who) (x : Fin 64) (s : State) : Result :=
  if !planeWrites w then .next s
  else
    let k := s.ctx x
    if k.inStep ∧ k.decode = false ∧ (k.state = .opened ∨ k.state = .orphaned) then
      .next ((s.taintStep x 5 stOk).logFault { kind := 0x0B, ctx := some x })
    else .next (s.snapRefused x)

end Sys2Proof.Machine
end

