-- ==== Sys2Proof/Machine/Contexts.lean ====
section
/-! DEFINITION. Contexts (R341 to R344, R351, R352, R355, R363), the mailbox's requests (R337, R338), and the lease with the
orphan policies and function resets (R321, R359 to R362). -/

namespace Sys2Proof.Machine

/- Requests (R338). -/

/-- A field of a request body. -/
def bodyLE (b : List Byte) (off n : Nat) : Nat := leNat ((b.drop off).take n)

/-- The byte offset of the first reserved byte that is not zero, or of the first field out of range. -/
def bodyCheck (fields : List (Nat × Nat)) (ranges : List (Nat × Bool)) (b : List Byte) : Option Nat :=
  let named (i : Nat) : Nat := fields.foldl (fun m f => Nat.lor m (fieldMask f.1 f.2 i)) 0
  let bad := (List.range 120).filter fun i => Nat.land (bodyLE b i 1) (255 - named i) != 0
  leastOf (bad.append ((ranges.filter fun r => !r.2).map (·.1)))

/-- Takes the request of type `msg` at the head of a function's request ring, in ring order, and answers it; an answer
waits for room in the event ring. A request of another version or type is answered by any row that meets it. -/
def serveMsg (f : Fin 32) (msg : Nat) (go : List Byte → Nat → State → State) (s : State) : Result :=
  let k := s.fn f
  let head := k.box.readLE 0x08 2
  if head = k.box.readLE 0x04 2 ∨ k.lease = .expired ∨ k.evtFull = true ∨ s.innkPaused = true then .next s
  else
    let e := k.box.readRun (0x1000 + 128 * (head % 128)) 128
    let type := bodyLE e 1 1
    let seq := bodyLE e 2 2
    let len := bodyLE e 4 2
    let s1 := s.modFn f fun k => { k with box := k.box.writeLE 0x08 2 (head + 1) }
    if bodyLE e 0 1 ≠ 1 then .next (s1.answer f type seq stVersion [])
    else if type = 0 ∨ 6 < type then .next (s1.answer f type seq stReserved [])
    else if type ≠ msg then .next s
    else if 120 < len ∨ bodyLE e 6 2 ≠ 0 then .next (s1.answer f type seq stReserved [])
    else
      let body := (e.drop 8).take len
      .next (go (body ++ List.replicate (120 - len) 0) seq s1)

/-- The body of an answer that names a context alone. -/
def ctxBody (x : Nat) : List Byte := leBytes 1 x

/- CTX_OPEN (R342, R343). -/

def openFields (b : List Byte) : List (Nat × Nat) :=
  let fill := if bitOf (bodyLE b 3 1) 6 then [(0x38, 32)] else []
  [(0, 6), (1, 4), (2, 8), (3, 7), (4, 3), (8, 8), (9, 8), (0x0A, 8), (0x0B, 8), (0x0C, 12), (0x0E, 13), (0x10, 64), (0x18, 20),
    (0x1C, 26), (0x20, 192)].append fill

def openRanges (b : List Byte) : List (Nat × Bool) :=
  [(2, bodyLE b 2 1 != 0), (4, bitsOf (bodyLE b 4 1) 2 1 != 3), (9, decide (bodyLE b 8 1 + bodyLE b 9 1 ≤ 256)),
    (0x0B, decide (bodyLE b 0x0A 1 + bodyLE b 0x0B 1 ≤ 256)), (0x0E, decide (bodyLE b 0x0C 2 + bodyLE b 0x0E 2 ≤ 4096))]

/-- The cores that a CTX_OPEN names. -/
def openCores (b : List Byte) : List (Fin 192) := allCores.filter fun c => bitOf (bodyLE b (0x20 + c.val / 8) 1) (c.val % 8)

/-- Two index ranges share an index. -/
def meetRange (a n b m : Nat) : Bool := decide (a < b + m ∧ b < a + n)

/-- A core, ring or counter that the open names is held. -/
def State.openHeld (s : State) (b : List Byte) (cores : List (Fin 192)) : Bool :=
  let sq := (List.range (bodyLE b 9 1)).any fun i => (s.sq (ringOf (bodyLE b 8 1 + i))).ctx.isSome
  let cq := (List.range (bodyLE b 0x0B 1)).any fun i => (s.cq (ringOf (bodyLE b 0x0A 1 + i))).ctx.isSome
  let cc := allCtxs.any fun x =>
    (s.ctx x).state != .closed && meetRange (s.ctx x).ccFirst (s.ctx x).ccCount (bodyLE b 0x0C 2) (bodyLE b 0x0E 2)
  (cores.any fun c => (s.core c).ctx.isSome) || sq || cq || cc

/-- The filler that an open names is unusable. -/
def State.fillerBad (s : State) (fn x : Nat) (b : List Byte) : Bool :=
  let y := bitsOf (bodyLE b 3 1) 5 0
  bitOf (bodyLE b 3 1) 6 && (y == x || (match ctxOf? y with
    | some q => (s.ctx q).state != .opened || (s.ctx q).fn != fn || (s.ctx q).decode
    | none => true))

/-- The lowest place of a range in the open parts of a tier (the place is the module's choice, assumption 24). -/
def State.place (s : State) (near : Bool) (n : Nat) : Option Nat :=
  let starts := if near then [0, nearDie] else [cellarBase, cellarBase + 2 ^ 40]
  let ends := (s.regions.flatMap Region.ranges).map fun r => r.1 + r.2
  let ok := (starts.append ends).filter fun a => (if near then isNear a else isCellar a) && openRange a n && s.rangeFree a n
  leastOf ok

/-- Bytes of the stash pool and of the overflow stash that an open asks for. -/
def poolBytes (b : List Byte) : Nat := bodyLE b 0x18 4 * 2 ^ 20
def ovfBytes (b : List Byte) : Nat := bodyLE b 0x1C 4 * 65536

/-- Places of both stashes; a stash of size 0 takes none. Each is a region, of which the module holds at most 4,096 (R224). -/
def State.stashPlaces (s : State) (b : List Byte) : Nat ⊕ (Nat × Nat) :=
  let held := s.regions.length + b2n (poolBytes b != 0)
  let pool := if poolBytes b = 0 then some 0 else if 4096 < held then none else s.place true (poolBytes b)
  let ovf := if ovfBytes b = 0 then some 0 else if 4096 ≤ held then none else s.place false (ovfBytes b)
  match pool, ovf with
  | some p, some o => .inr (p, o)
  | none, _ => .inl 0x18
  | some _, none => .inl 0x1C

/-- A core cleared for a new context (R343). -/
def Core.opened (k : Core) (x : Fin 64) (fill : Option Nat) : Core :=
  let clear : Core :=
    { k with
      ctx := some x, slots := Vector.replicate 8 {}, sp := [], dmem := [], imem0 := [], imem1 := [], flipPending := false
      mask := Vector.replicate 16 (BitVec.allOnes 128), act := Vector.replicate 2 {}, live := .cleared, shadow := .cleared, liveOwner := none
      soft := 0, softFill := 0, arrayQ := [], shadowQ := [], porterQ := [], queueQ := [], ends := k.emptyEnds, car := {}
      admitQ := [], heldNotices := [], fwdDone := [], groups := [], draw := 0, refusedAt := none, guardPassed := false
      stw := { k.stw with g := Vector.replicate 32 0, fflags := 0, bank := false, state := .halted, stopReq := false } }
  let bq := (List.range 16).foldl (fun k e => k.wr (0x20640 + 4 * e) 0) clear
  match fill with
  | some v => bq.wr 0x20600 v
  | none => bq

/-- A stash region. -/
def stashRegion (x : Fin 64) (kind base bytes : Nat) : Region :=
  { base := base, size := bytes / 4096, ctx := x.val, kind := kind, slot := 0, home := 0, ro := false, snapshot := false,
    mirror := .none, closing := none }

/-- Opens a context with the parameters of a CTX_OPEN body (R343). -/
def State.openCtx (s : State) (fn : Nat) (x : Fin 64) (b : List Byte) (cores : List (Fin 192)) (p : Nat × Nat) : State :=
  let filler := bitOf (bodyLE b 3 1) 6
  let k : Ctx :=
    { closedCtx with
      state := .opened, fn := fn, decode := bitOf (bodyLE b 4 1) 0, orphan := bitsOf (bodyLE b 4 1) 2 1, part := bodyLE b 1 1
      weight := bodyLE b 2 1, filler := if filler then some (bitsOf (bodyLE b 3 1) 5 0) else none, sqFirst := bodyLE b 8 1
      sqCount := bodyLE b 9 1, cqFirst := bodyLE b 0x0A 1, cqCount := bodyLE b 0x0B 1, ccFirst := bodyLE b 0x0C 2
      ccCount := bodyLE b 0x0E 2, seed := bodyLE b 0x10 8, params := b, cores := cores.map (·.val), fill := bodyLE b 0x38 4
      poolMib := bodyLE b 0x18 4, freeMib := bodyLE b 0x18 4, ovfCap := bodyLE b 0x1C 4, poolRegion := p.1, ovfRegion := p.2
      snap := { lastEnd := s.time } }
  let sq (i : Nat) (r : SubRing) : SubRing := if bodyLE b 8 1 ≤ i ∧ i < bodyLE b 8 1 + bodyLE b 9 1 then { ctx := some x } else r
  let cq (i : Nat) (r : CompRing) : CompRing := if bodyLE b 0x0A 1 ≤ i ∧ i < bodyLE b 0x0A 1 + bodyLE b 0x0B 1 then { ctx := some x } else r
  let inCc (n : Nat) : Bool := decide (k.ccFirst ≤ n ∧ n < k.ccFirst + k.ccCount)
  let s1 : State := { s with
    ctxs := s.ctxs.set x k
    sqs := s.sqs.mapIdx sq
    cqs := s.cqs.mapIdx cq
    cc := s.cc.filter fun e => !inCc e.1
    streams := s.streams.filter fun e => e.1 / 64 != x.val }
  let s2 := if poolBytes b = 0 then s1
    else ({ s1 with regions := s1.regions ++ [stashRegion x 5 p.1 (poolBytes b)] }).zero p.1 (poolBytes b)
  let s3 : State := if ovfBytes b = 0 then s2 else { s2 with regions := s2.regions ++ [stashRegion x 6 p.2 (ovfBytes b)] }
  let s4 := cores.foldl (fun s c => s.modCore c fun k => k.opened x (if filler then some (bodyLE b 0x38 4) else none)) s3
  ((s4.wr (stashOff x 0x10) 0).wr (stashOff x 0x14) 0).wr (stashOff x 0x18) 0

/-- The resources that an open of context `x` asks for (checks 4 to 7 of R342): a status with an offset, or the places of
the stashes. -/
def State.openCheck (s : State) (fn x : Nat) (b : List Byte) (cores : List (Fin 192)) : Refuse ⊕ (Nat × Nat) :=
  if cores.any fun c => (s.core c).role != 0 then .inl (stFenced, 0)
  else if s.openHeld b cores then .inl (stBankActive, 0)
  else if s.fillerBad fn x b then .inl (stReserved, 3)
  else match s.stashPlaces b with
    | .inl off => .inl (stReserved, off)
    | .inr p => .inr p

/-- The answer to CTX_OPEN. -/
def openAnswer (x off : Nat) : List Byte := leBytes 1 x ++ (leBytes 1 0 ++ leBytes 2 off)

/-- CTX_OPEN. -/
def execCtxOpen (f : Fin 32) (s : State) : Result :=
  serveMsg f 1 (fun b seq s =>
    let n := bitsOf (bodyLE b 0 1) 5 0
    let no (st : Byte) (off : Nat) : State := s.answer f 1 seq st (openAnswer n off)
    match bodyCheck (openFields b) (openRanges b) b, ctxOf? n with
    | some off, _ => no stReserved off
    | none, none => no stReserved 0
    | none, some x =>
      if (s.ctx x).state ≠ .closed then no stBankActive 0
      else if (s.fn f).lease ≠ .active then no stLease 0
      else match s.openCheck f.val n b (openCores b) with
        | .inl (st, off) => no st off
        | .inr p => (s.openCtx f.val x b (openCores b) p).answer f 1 seq stOk (openAnswer n 0)) s

/- CTX_CLOSE (R344). -/

/-- Ends the instance of a slot at once: it is cancelled, and its commands and Porter requests are taken as ended. -/
def State.dropInst (s : State) (c : Fin 192) (i : Fin 8) : State :=
  let s1 := s.cancelOne c i stCancelled []
  let s2 := s1.modCore c fun k =>
    { k with
      arrayQ := k.arrayQ.filter fun j => j.slot != i
      shadowQ := k.shadowQ.filter fun j => j.slot != i
      queueQ := k.queueQ.filter fun j => j.slot != i
      porterQ := k.porterQ.filter fun j => j.slot != i }
  s2.endInst c i stCancelled

/-- A descriptor whose record already waits. -/
def State.recWaits (s : State) (d : DescRef) : Bool :=
  (s.cq (s.cqOf (ringOf d.ring))).waiting.any fun r => r.sq == d.ring && r.idx == some d.idx

/-- Completes every outstanding descriptor of a ring with a status. -/
def State.endRing (s : State) (r : Fin 256) (st : Byte) : State :=
  (s.sq r).out.foldl (fun s o => if s.recWaits o.ref then s else s.complete o.ref st 0 0 0) s

/-- The rings of a context. -/
def State.ctxSqs (s : State) (x : Fin 64) : List (Fin 256) := (List.finRange 256).filter fun r => (s.sq r).ctx == some x
def State.ctxCqs (s : State) (x : Fin 64) : List (Fin 256) := (List.finRange 256).filter fun r => (s.cq r).ctx == some x

/-- Reports every arm under way of a context's streams with a status. -/
def State.endStreams (s : State) (x : Fin 64) (st : Byte) : State :=
  (List.range 64).foldl (fun s i =>
    let t := s.stream x i
    match t.set with
    | none => s
    | some d =>
      let s1 := if t.st = .busy ∨ t.st = .latched then s.armRecord x i d t.run st else s
      let s2 := if t.st = .latched then s1.armRecord x i d t.latch st else s1
      if t.st = .busy ∨ t.st = .latched then s2.setStream x i { t with st := .idle } else s2) s

/-- Instances that a close cancels: of the context's frames, and every one on its cores. -/
def State.closeInsts (s : State) (x : Fin 64) : List (Fin 192 × Fin 8) :=
  let own := (s.ctxCores x).flatMap fun c => (allSlots.filter fun i => ((s.core c).slot i).inst.isSome).map fun i => (c, i)
  own.append ((s.ctxInsts x).filter fun p => !own.contains p)

/-- Releases a core; its caravan port is unbound and empty (R191). -/
def Core.released (k : Core) : Core :=
  { k.wr 0x20600 0 with ctx := none, aliasTo := none, car := {}, stw := { k.stw with state := .halted, stopReq := false } }

/-- Closes a context: the steps of R344 in order. -/
def State.closeCtx (s : State) (x : Fin 64) : State :=
  let cores := s.ctxCores x
  let s1 := (s.closeInsts x).foldl (fun s p => s.dropInst p.1 p.2) s
  let s2 := ((s1.ctxSqs x).foldl (fun s r => s.endRing r stCancelled) s1).endStreams x stCancelled
  let s3 := (s2.ctxCqs x).foldl (fun s q => s.writeRecs q) s2
  let s4 := (s3.windows.filter fun w => w.ctx == x.val).foldl (fun s w => s.dropWindow w) s3
  let s5 := (s4.regions.filter fun r => r.ctx == x.val).foldl (fun s r => s.dropRegion r) s4
  let s5b := s5.dropLayers x
  let unalias (k : Core) : Core := if (k.aliasTo.map cores.contains) = some true then { k with aliasTo := none } else k
  let s6 := cores.foldl (fun s c => s.modCore c Core.released) { s5b with cores := s5b.cores.map unalias }
  let s7 := (s6.ctxSqs x).foldl (fun s r => (s.wrBits (sqCfgOff r) 0 0 0).modSq r fun _ => {}) s6
  let s8 := (s7.ctxCqs x).foldl (fun s r => (s.wrBits (cqCfgOff r) 0 0 0).modCq r fun _ => {}) s7
  let s9 := (allCtxs.filter fun y => (s8.ctx y).filler == some x.val).foldl (fun s y =>
    (s.modCtx y fun k => { k with filler := none }).onCtxCores y fun k => k.wr 0x20600 0) s8
  let snap := (s.ctx x).snap
  { s9.setCtx x { closedCtx with snap := { snap with phase := 0, now := false } } with
    streams := s9.streams.filter fun e => e.1 / 64 != x.val }

/-- CTX_CLOSE: from the owner, and from the physical function for any context. -/
def execCtxClose (f : Fin 32) (errs : List GranErr) (s : State) : Result :=
  meetRow errs (serveMsg f 2 fun b seq s =>
    match bodyCheck [(0, 6)] [] b, ctxOf? (bodyLE b 0 1) with
    | none, some x =>
      if (s.ctx x).state = .closed ∨ ((s.ctx x).fn ≠ f.val ∧ f ≠ 0) then s.answer f 2 seq stReserved (ctxBody x.val)
      else (s.closeCtx x).answer f 2 seq stOk (ctxBody x.val)
    | _, _ => s.answer f 2 seq stReserved (ctxBody (bodyLE b 0 1))) s

/- Reclaim and resume (R363). -/

def CtxState.code : CtxState → Nat
  | .closed => 0 | .opened => 1 | .orphaned => 2 | .parkedBoundary => 3 | .parkedMid => 4

/-- The context named by the request waiting in a function's mailbox is still under its orphan policy. -/
def State.stillParking (s : State) (f : Fin 32) : Bool :=
  let box := (s.fn f).box
  match ctxOf? (bitsOf (box.readLE (0x1008 + 128 * (box.readLE 8 2 % 128)) 1) 5 0) with
  | some x => decide ((s.ctx x).state = CtxState.orphaned) && (decide ((s.ctx x).fn = f.val) || decide (f.val = 0))
  | none => false

/-- CTX_RECLAIM; a context still under its orphan policy is answered when it has parked, so the row waits. -/
def execCtxReclaim (f : Fin 32) (s : State) : Result :=
  if s.stillParking f = true then .next s
  else serveMsg f 3 (fun b seq s =>
    match bodyCheck [(0, 6)] [] b, ctxOf? (bodyLE b 0 1) with
    | none, some x =>
      let k := s.ctx x
      if k.fn ≠ f.val ∧ f ≠ 0 then s.answer f 3 seq stReserved (leBytes 24 k.state.code)
      else if k.state ≠ .parkedBoundary ∧ k.state ≠ .parkedMid then s.answer f 3 seq stBankActive (leBytes 24 k.state.code)
      else
        let body := leBytes 8 k.state.code ++ (leBytes 8 (k.step.getD 0) ++ leBytes 8 k.held.length)
        (s.modCtx x fun k => { k with reclaimed := true, fn := f.val }).answer f 3 seq stOk body
    | _, _ => s.answer f 3 seq stReserved []) s

/-- Resumes a reclaimed context parked at a boundary: its held records go to their completion rings, and fetching starts. -/
def State.resumeCtx (s : State) (x : Fin 64) : State :=
  let held := (s.ctx x).held
  let s1 := s.modCtx x fun k => { k with state := .opened, orphaned := false, reclaimed := false, anyStep := true, held := [] }
  held.foldl (fun s r => s.modCq (s.cqOf (ringOf r.sq)) fun q => { q with waiting := q.waiting ++ [r] }) s1

/-- CTX_RESUME. A tainted context stays parked until ACCEPT or RESTORE (R392). -/
def execCtxResume (f : Fin 32) (s : State) : Result :=
  serveMsg f 4 (fun b seq s =>
    match bodyCheck [(0, 6)] [] b, ctxOf? (bodyLE b 0 1) with
    | none, some x =>
      let k := s.ctx x
      if k.fn ≠ f.val ∨ k.reclaimed = false then s.answer f 4 seq stReserved (ctxBody x.val)
      else if k.state = .parkedMid then s.answer f 4 seq stLease (ctxBody x.val)
      else if k.tainted ∨ k.state ≠ .parkedBoundary then s.answer f 4 seq stBankActive (ctxBody x.val)
      else (s.resumeCtx x).answer f 4 seq stOk (ctxBody x.val)
    | _, _ => s.answer f 4 seq stReserved []) s

/- MB_CANCEL and DECODE_CFG (R351, R352). -/

/-- A queued micro-batch that is cancelled before admission. -/
def State.cancelQueued (s : State) (x : Fin 64) (r : Mb) : State :=
  let s1 := s.modCtx x fun k => k.updMb r fun q => { q with aborted := some stCancelled, done := true }
  let s2 := (s1.bumpField (stashOff x 0x14) 15 0 1).bumpField (stashOff x 0x14) 31 16 1
  let s3 := s2.onCtxCores x fun k => k.postNotice r.mb
  if r.batch then s3.endBatch x r.mb stCancelled
  else match r.desc with
    | some d => s3.complete d stCancelled r.mb 0 r.step
    | none => s3

def mbBody (x mb : Nat) : List Byte := leBytes 16 x ++ leBytes 2 mb

/-- MB_CANCEL. -/
def execMbCancel (f : Fin 32) (s : State) : Result :=
  serveMsg f 5 (fun b seq s =>
    let mb := bodyLE b 0x10 2
    let step := bodyLE b 8 5
    let no (x : Nat) (st : Byte) : State := s.answer f 5 seq st (mbBody x mb)
    match bodyCheck [(0, 6), (8, 40), (0x10, 16)] [] b, ctxOf? (bodyLE b 0 1) with
    | none, some x =>
      let k := s.ctx x
      if !s.ownsCtx f x then no x.val stReserved
      else match k.mbs.find? (fun r => r.mb == mb && r.step == step && !r.done) with
        | none => no x.val stReserved
        | some r =>
          if r.wg then no x.val stBankActive
          else
            let s1 := if r.admitted then s.abortMb x mb stCancelled else s.cancelQueued x r
            s1.answer f 5 seq stOk (mbBody x.val mb)
    | _, _ => no (bodyLE b 0 1) stReserved) s

/-- The configuration of a DECODE_CFG body. -/
def decCfgOf (b : List Byte) : DecCfg :=
  { buffers := bodyLE b 1 1, deadlineUs := bodyLE b 2 2, base := bodyLE b 8 6, inStride := bodyLE b 0x10 3,
    outStride := bodyLE b 0x14 3, stashMib := bodyLE b 0x18 3 }

def decRanges (b : List Byte) : List (Nat × Bool) :=
  let d := decCfgOf b
  [(1, decide (2 ≤ d.buffers ∧ d.buffers ≤ 8)), (2, d.deadlineUs != 0), (8, d.base % 4096 == 0), (0x10, d.inStride % 64 == 0),
    (0x14, d.outStride % 64 == 0)]

/-- DECODE_CFG. -/
def execDecodeCfg (f : Fin 32) (s : State) : Result :=
  serveMsg f 6 (fun b seq s =>
    let fields := [(0, 6), (1, 4), (2, 16), (8, 48), (0x10, 24), (0x14, 24), (0x18, 20)]
    let no (x : Nat) (st : Byte) : State := s.answer f 6 seq st (ctxBody x)
    match bodyCheck fields (decRanges b) b, ctxOf? (bodyLE b 0 1) with
    | none, some x =>
      let d := decCfgOf b
      let area := match s.regionAt d.base (d.buffers * d.bufBytes) with
        | some r => r.ctx == x.val && r.kind == 0 && r.closing.isNone
        | none => false
      if !s.ownsCtx f x || !(s.ctx x).decode then no x.val stReserved
      else if !(s.ctx x).batches.isEmpty then no x.val stBankActive
      else if !area then no x.val stReserved
      else (s.modCtx x fun k => { k with dec := some d }).answer f 6 seq stOk (ctxBody x.val)
    | _, _ => no (bodyLE b 0 1) stReserved) s

/- The lease (R359 to R362). -/

/-- LEASE_BEAT: a write whose value differs from the last one is a heartbeat; an expired lease discards it. -/
def execLeaseBeat (f : Fin 32) (value : Word) (s : State) : Result :=
  let k := s.fn f
  if k.lease = .expired ∨ k.lastBeat = some value then .next s
  else .next (s.modFn f fun k => { k with lease := .active, lastBeat := some value, beatAt := s.time, warned := false })

/-- PERIOD in ms. -/
def Fn.periodMs (k : Fn) : Nat := bitsOf (k.rd 0x69004) 9 0 * 100

/-- LEASE_WARNING: half of PERIOD has passed without a heartbeat. -/
def execLeaseWarning (f : Fin 32) (s : State) : Result :=
  let k := s.fn f
  if k.lease ≠ .active ∨ k.warned = true then .next s
  else
    let gone := max (k.periodMs / 2) ((s.time - k.beatAt) / 1000)
    .next ((s.modFn f fun k => { k with warned := true }).postEvent f 0x83 0 stOk true (leBytes 2 (k.periodMs - gone)))

/-- Transfers with the host, which the loss of the host abandons. -/
def hostTransfer (d : DescRef) : Bool := [0x03, 0x10, 0x11, 0x12, 0x28].contains d.type || (d.type == 0x20 && d.bits 8 1 6 5 != 0)

/-- Records that wait in a context's completion rings are held (R360, R361). -/
def State.holdRecs (s : State) (x : Fin 64) : State :=
  (s.ctxCqs x).foldl (fun s q =>
    let w := (s.cq q).waiting
    let s1 := s.modCq q fun k => { k with waiting := [] }
    let s2 := w.foldl (fun s r => match r.idx with
      | some i => s.modSq (ringOf r.sq) fun k => { k with out := k.out.filter fun o => o.ref.idx != i }
      | none => s) s1
    s2.modCtx x fun k => { k with held := k.held ++ w.map fun r => { r with idx := none, heldOver := true } }) s

/-- Abandons the interrupted host transfers of a context: descriptors that move data, and stream arms. -/
def State.dropTransfers (s : State) (x : Fin 64) : State :=
  let s1 := (s.ctxSqs x).foldl (fun s r =>
    ((s.sq r).out.filter fun o => hostTransfer o.ref && (!o.started || o.waits)).foldl (fun s o => s.complete o.ref stLease 0 0 0) s) s
  let cleared := (List.range 64).filterMap fun i => (s1.stream x i).clearing.map fun d => (i, d)
  let s2 := s1.endStreams x stLease
  cleared.foldl (fun s p => (s.setStream x p.1 {}).complete p.2 stOk 0 0 0) s2

/-- Micro-batches of the open step that have not been fetched are aborted and counted (Table 13.4). -/
def State.abortUnfetched (s : State) (x : Fin 64) : State :=
  let k := s.ctx x
  let queued := (s.ctxSqs x).flatMap fun r => ((s.sq r).out.filter fun o => o.ref.type == 2 && !o.started && some (o.ref.le 8 5) == k.step).map fun o =>
    o.ref.le 0x10 2
  let gone := (List.range k.mbCount).filter fun m => !k.fetchedMbs.contains m && !queued.contains m
  let s1 := s.modCtx x fun k => { k with fetchedMbs := k.fetchedMbs ++ gone }
  let s2 := (s1.bumpField (stashOff x 0x14) 15 0 gone.length).bumpField (stashOff x 0x14) 31 16 gone.length
  gone.foldl (fun s m => s.onCtxCores x fun c => c.postNotice m) s2

/-- Completes the open step's descriptors of a context that parks mid-step. -/
def State.abandonStep (s : State) (x : Fin 64) : State :=
  let k := s.ctx x
  let s1 := k.mbs.foldl (fun s r => match r.desc with
    | some d => if r.done then s else s.complete d stLease r.mb 0 r.step
    | none => s) s
  let s2 := match k.stepDesc with
    | some d => s1.complete d stLease 0 0 (k.step.getD 0)
    | none => s1
  (s2.modCtx x fun k => { k with stepDesc := none, mbs := k.mbs.map fun r => { r with desc := none } }).abandon x

/-- Queued batches and waiting requests of an orphaned decode context are abandoned. -/
def State.abandonDecode (s : State) (x : Fin 64) : State :=
  let k := s.ctx x
  let queued := (k.mbs.filter fun r => !r.done && !r.admitted).map (·.mb)
  let drop := k.batches.filter fun b => !b.closed || queued.contains b.mb
  let reqs := (drop.flatMap fun b => b.reqs).append k.decWaiting
  let s1 := s.modCtx x fun k =>
    { k with
      batches := k.batches.filter fun b => !(!b.closed || queued.contains b.mb)
      mbs := k.mbs.filter fun r => r.done || r.admitted
      decWaiting := [] }
  reqs.foldl (fun s q => s.complete q.desc stLease 0 (q.desc.le 8 4) 0) s1

/-- A context becomes orphaned and follows its policy (R360, Table 13.4). -/
def State.orphanCtx (s : State) (x : Fin 64) : State :=
  let k := s.ctx x
  let run := k.state = .opened ∨ k.state = .orphaned
  let s1 := s.modCtx x fun k => { k with orphaned := true, reclaimed := false, state := if k.state = .opened then .orphaned else k.state }
  let s2 := (s1.holdRecs x).dropTransfers x
  if !run then s2.abandon x
  else if k.decode then
    let s3 := s2.abandonDecode x
    let s4 := if k.orphan = 1 then
        ((s3.ctx x).mbs.filter fun r => !r.done).foldl (fun s r => s.abortMb x r.mb stCancelled) s3
      else s3
    s4.modCtx x Ctx.settleDecode
  else if k.orphan = 1 then (s2.parkMid x stCancelled).abandonStep x
  else if k.inStep then s2.abortUnfetched x
  else if k.snap.phase = 1 then s2
  else s2.parkOrphan x

/-- The consequences of the loss of a function's host (R360). -/
def State.loseHost (s : State) (f : Fin 32) : State :=
  let s1 := (s.modFn f fun k => { k with lease := .expired }).logFault { kind := 0x0E, status := stLease, detail0 := f.val }
  (allCtxs.filter fun x => (s.ctx x).state != .closed && (s.ctx x).fn == f.val && !(s.ctx x).orphaned).foldl (fun s x => s.orphanCtx x) s1

/-- LEASE_EXPIRY. -/
def execLeaseExpiry (f : Fin 32) (s : State) : Result :=
  if (s.fn f).lease = .active then .next (s.loseHost f) else .next s

/-- REARM: a write of 1 to INNK_LEASE_STATUS.REARM. -/
def State.rearm (s : State) (f : Fin 32) (v : Nat) : State :=
  if bitOf v 8 ∧ (s.fn f).lease = .expired then s.modFn f fun k => { k with lease := .active, beatAt := s.time, warned := false } else s

def execRearm (f : Fin 32) (value : Word) (s : State) : Result := .next (s.rearm f value.toNat)

/- Function resets (R321). -/

/-- Disables the rings of a context. -/
def State.stopRings (s : State) (x : Fin 64) : State :=
  let s1 := (s.ctxSqs x).foldl (fun s r => s.wrBits (sqCfgOff r) 0 0 0) s
  (s1.ctxCqs x).foldl (fun s r => s.wrBits (cqCfgOff r) 0 0 0) s1

/-- Select registers by offset. -/
def selectRegs : List Nat := [0x10100, 0x10104, 0x10108, 0x1010C, 0x10110]

/-- Resets one function: the lease is treated as expired and ends inactive. -/
def State.resetFn (s : State) (f : Fin 32) : State :=
  let s1 := s.loseHost f
  let s2 := (allCtxs.filter fun x => (s1.ctx x).state != .closed && (s1.ctx x).fn == f.val).foldl (fun s x => s.stopRings x) s1
  s2.modFn f fun k =>
    { (selectRegs.foldl (fun k off => k.wr off 0) k) with
      lease := .inactive, lastBeat := none, warned := false, latch := [], box := k.box.writeRun 0 (List.replicate 64 0), boxZero := true }

/-- NumVFs takes `n`: the virtual functions that were enabled and lie above it are disabled. -/
def State.setNumVfs (s : State) (n : Nat) : State :=
  let off := allFns.filter fun f => decide (n < f.val ∧ f.val ≤ s.numVfs)
  { off.foldl (fun s g => s.resetFn g) s with numVfs := n }

/-- FUNCTION_LEVEL_RESET: of the physical function, one on every function. A write of NumVFs disables functions in place of
one. -/
def execFunctionLevelReset (f : Fin 32) (numVfs : Option (Fin 32)) (s : State) : Result :=
  match numVfs with
  | some n => .next (s.setNumVfs n.val)
  | none => if f = 0 then .next (allFns.foldl (fun s g => s.resetFn g) s) else .next (s.resetFn f)

end Sys2Proof.Machine
end

