-- ==== Sys2Proof/Machine/Hearth.lean ====
section
/-! DEFINITION. Hearth (Chapter 14): the power plan (R357), the sequencer's voltages, power cap, BUDGET and HOT (R369 to
R371), the coolant loop (R372 to R375), the sideband inputs (R376 to R379), the hardwired emergencies (R380 to R383),
telemetry windows (R384) and the slow-core path (R403, R404). -/

namespace Sys2Proof.Machine

def State.modHearth (s : State) (f : Hearth → Hearth) : State := { s with hearth := f s.hearth }

def allIslands : List (Fin 24) := List.finRange 24

def State.island (s : State) (i : Fin 24) : Island := s.hearth.islands[i]

def State.modIsland (s : State) (i : Fin 24) (f : Island → Island) : State :=
  s.modHearth fun h => { h with islands := h.islands.set i (f (s.island i)) }

/-- The cores of an island (Table 0.3). -/
def islandCores (i : Fin 24) : List (Fin 192) := allCores.filter fun c => c.val / 8 == i.val

/- Conditions and what they hold (R380 to R382). -/

/-- Row `n` of Table 14.4 is in effect; over-current when any island holds it. -/
def Hearth.cond (h : Hearth) (n : Fin 9) : Bool :=
  if n = 6 then h.islands.any fun i => i.overAmps else h.conds[n]

/-- THROTTLE_N is asserted, or in chatter (R377). -/
def Hearth.throttled (h : Hearth) : Bool := h.thrLow || h.thrChatter

/-- LEAK_N is asserted, or in chatter. -/
def Hearth.leaking (h : Hearth) : Bool := h.leakLow || h.leakChatter

/-- The emergency gate is active on any array; compute power removal overrides it (R382). -/
def Hearth.gate (h : Hearth) : Bool := !h.removed && (h.cond 0 || h.cond 2 || h.cond 5 || h.cond 6)

/-- Every island is held at 0.60 V (R375, R378, Table 14.4). -/
def Hearth.holds (h : Hearth) : Bool := h.cond 0 || h.cond 2 || h.throttled || h.flowLost

/-- An emergency under R432. -/
def Hearth.emergency (h : Hearth) : Bool := ((List.finRange 9).any fun n => h.cond n) || h.removed || h.flowLost

/-- The present VCORE setting of an island in mV (Table 14.6); 0 while its rail is off. -/
def State.islandMv (s : State) (i : Fin 24) : Nat :=
  if !s.power.rails then 0 else if s.hearth.holds then 600 else (s.island i).want

/-- An island's arrays are gated. -/
def State.islandGated (s : State) (i : Fin 24) : Bool :=
  let h := s.hearth
  !h.removed && (h.cond 0 || h.cond 2 || h.cond 5 || (s.island i).overAmps)

/-- HRTH_STATUS (Table 14.5). -/
def State.hearthStatus (s : State) : Nat :=
  b2n s.hearth.gate + b2n s.hearth.throttled * 2 + b2n s.hearth.removed * 4 + b2n s.hot * 8

/-- Sets a bit of HRTH_EVENT; a change is reported (R420). -/
def State.hearthEvent (s : State) (bit : Nat) : State :=
  if bitOf (s.rd 0x70004) bit then s
  else
    let s1 := s.wrBits 0x70004 bit bit 1
    s1.report (.event (s1.rd 0x70004))

/-- Logs and reports a condition of Table 14.4, to the baseboard too when a receiver is set (R382, R388, R421). -/
def State.reportCond (s : State) (n : Nat) (island : Option Nat) : State :=
  let s1 := s.report (.emergency n)
  let s2 : State := match s1.gatehouse.receiver with
    | some r => { s1 with out := s1.out ++ [.platformEvent r n] }
    | none => s1
  let unit := match island with
    | some i => (6, i)
    | none => (0, 0)
  (s2.logFault { kind := 0x0D, unitType := unit.1, unit := unit.2, detail0 := s2.hearthStatus }).hearthEvent n

/-- Sets BUDGET and HOT as published. -/
def State.publishBudget (s : State) (watts : Nat) (hot : Bool) : State :=
  let s1 := (s.wrBits 0x69104 15 0 (min watts 0xFFFF)).wrBits 0x69104 31 31 (b2n hot)
  if hot then s1.modHearth fun h => { h with winHot := true } else s1

def State.forceHot (s : State) : State := s.publishBudget s.budgetW true

/-- The valve duty (HRTH_COOL.DUTY). -/
def State.duty (s : State) : Nat := bitsOf (s.rd 0x70020) 22 16
def State.setDuty (s : State) (d : Nat) : State := s.wrBits 0x70020 22 16 d

/- Loss of compute power (R13, R383). -/

/-- Registers of the management die: Gatehouse, bring-up, Hearth and the energy block's published values apart. -/
def mgmtOff (off : Nat) : Bool :=
  decide ((0x1000 ≤ off ∧ off < 0x1100) ∨ (0x10000 ≤ off ∧ off < 0x10010) ∨ (0x70000 ≤ off ∧ off < 0x70100))

/-- What is left when the rails fed by VMAIN go off: the management die. Cores come up again in their manufacturing
roles (Table 17.2). -/
def State.losePower (s : State) : State :=
  let roles : Vector Core 192 := Vector.ofFn fun c : Fin 192 => resetCore (s.mfg.role c.val)
  let dark (i : Island) : Island := { i with base := 0, want := 0, overAmps := false }
  { State.reset with
    time := s.time
    cores := roles
    regs := s.regs.filter fun e => mgmtOff e.1
    win := s.win.filter fun e => mgmtOff e.1
    hearth := { s.hearth with islands := s.hearth.islands.map dark, plan := [], capping := false }
    power := { s.power with rails := false, tested := false, link := false, ready := false }
    mfg := s.mfg, gatehouse := { s.gatehouse with ide := Vector.replicate 9 false }, free := s.free, out := s.out, pending := s.pending }

/-- Compute power removal: latched; a deferred Innkeeper activation is withdrawn (R432). -/
def State.removePower (s : State) : State :=
  let s1 := s.losePower
  let s2 := s1.modHearth fun h => { h with removed := true }
  let g := s2.gatehouse
  let s3 : State := if g.deferred = some 0 then ({ s2 with gatehouse := { g with deferred := none } }).wrBits 0x1004 2 0 2 else s2
  s3.wrBits 0x10000 2 0 3

/-- FAULT_N is driven low: compute power removal is latched (R380, R383, Table 19.2). -/
def State.faultLow (s : State) : Bool := s.hearth.removed

/-- A condition of Table 14.4 begins to hold. The hardwired logic acts from the moment the rails are on (R435). -/
def State.beginCond (s : State) (n : Fin 9) (act : State → State) : State :=
  if s.power.rails = false ∨ s.hearth.conds[n] = true then s
  else
    let s1 := s.modHearth fun h => { h with conds := h.conds.set n true }
    act (s1.reportCond n.val none)

/-- OVER_TEMPERATURE: the gate on every array and every island at 0.60 V. -/
def execOverTemperature (s : State) : Result := .next (s.beginCond 0 id)

/-- PERSISTENT_OVER_TEMPERATURE. -/
def execPersistentOverTemperature (s : State) : Result := .next (s.beginCond 1 State.removePower)

/-- VMAIN_LOW: the gate on every array and every island at 0.60 V. -/
def execVmainLow (s : State) : Result := .next (s.beginCond 2 id)

/-- VMAIN_COLLAPSE. -/
def execVmainCollapse (s : State) : Result := .next (s.beginCond 3 State.removePower)

/-- VMAIN_HIGH. -/
def execVmainHigh (s : State) : Result := .next (s.beginCond 4 State.removePower)

/-- INPUT_OVER_POWER: the gate on every array. -/
def execInputOverPower (s : State) : Result := .next (s.beginCond 5 id)

/-- ISLAND_OVER_CURRENT: the gate on that island's arrays. -/
def execIslandOverCurrent (i : Fin 24) (s : State) : Result :=
  if s.power.rails = false ∨ (s.island i).overAmps = true then .next s
  else .next ((s.modIsland i fun k => { k with overAmps := true }).reportCond 6 (some i.val))

/-- LEAK: LEAK_N asserted for 10 ms; the valve closes and compute power is removed (R379). -/
def execLeak (s : State) : Result :=
  if s.hearth.leaking then .next (s.beginCond 7 fun s => s.removePower.setDuty 0) else .next s

/-- SEQUENCER_SILENT: the valve opens, island voltages hold, BUDGET 0 and HOT. -/
def execSequencerSilent (s : State) : Result :=
  .next (s.beginCond 8 fun s => (s.setDuty 100).publishBudget 0 true)

/-- EMERGENCY_RELEASE: the release condition of a gate-type row holds. For a row that removes power it says that the cause
is gone, which the management clear waits for (R383); a leak's cause goes by time. -/
def execEmergencyRelease (n : Fin 9) (i : Fin 24) (s : State) : Result :=
  if n = 6 then .next (s.modIsland i fun k => { k with overAmps := false })
  else if n = 7 then .next s
  else .next (s.modHearth fun h => { h with conds := h.conds.set n false })

/- Sideband inputs (R376 to R379). -/

/-- Voltage control resumes from the present voltages (R378). -/
def State.resumeVolts (s : State) : State :=
  let up (k : Island) : Island := { k with want := 600, base := 600 - k.offset }
  if s.hearth.throttled then s else s.modHearth fun h => { h with islands := h.islands.map up }

/-- THROTTLE_ASSERT. -/
def execThrottleAssert (s : State) : Result := .next (s.modHearth fun h => { h with thrLow := true })

/-- THROTTLE_DEASSERT. -/
def execThrottleDeassert (s : State) : Result :=
  if s.hearth.thrLow = false then .next s else .next (s.modHearth fun h => { h with thrLow := false }).resumeVolts

/-- THR_STUCK. -/
def execThrStuck (s : State) : Result := if s.hearth.throttled then .next (s.hearthEvent 11) else .next s

/-- PIN_GLITCH. -/
def execPinGlitch (leak : Bool) (s : State) : Result :=
  let lo := if leak then 16 else 0
  .next (s.wrBits 0x70028 (lo + 15) lo (bitsOf (s.rd 0x70028) (lo + 15) lo + 1))

/-- The quiet of LEAK_N begins or ends with its assertion (R383). -/
def State.leakQuiets (s : State) : State :=
  s.modHearth fun h =>
    if h.leaking then { h with leakQuiet := none } else { h with leakQuiet := some (h.leakQuiet.getD s.time) }

/-- CHATTER_EVAL: glitches of each input within the last 1 s. -/
def execChatterEval (thr leak : Nat) (s : State) : Result :=
  let h := s.hearth
  let thrIn := decide (1000 < thr)
  let leakIn := decide (1000 < leak)
  let s1 := s.modHearth fun h => { h with thrChatter := thrIn || (h.thrChatter && h.thrLow), leakChatter := leakIn || (h.leakChatter && h.leakLow) }
  let s2 := if thrIn then s1.hearthEvent 9 else s1
  let s3 := if leakIn then s2.hearthEvent 10 else s2
  let s4 := if h.throttled then s3.resumeVolts else s3
  .next s4.leakQuiets

/-- LEAK_ASSERT. -/
def execLeakAssert (s : State) : Result := .next (s.modHearth fun h => { h with leakLow := true }).leakQuiets

/-- LEAK_DEASSERT. -/
def execLeakDeassert (s : State) : Result := .next (s.modHearth fun h => { h with leakLow := false }).leakQuiets

/- The plan (R357). -/

/-- COMMITTED of a context's cores, in µW. -/
def State.ctxCommitted (s : State) (x : Fin 64) : Nat := (s.ctxCores x).foldl (fun n c => n + (s.core c).draw) 0

/-- What a context adds to the entry `k` ms ahead. -/
def State.planOf (s : State) (x : Fin 64) (k : Nat) : Nat :=
  let q := s.ctx x
  let now := s.ctxCommitted x
  if q.decode || !q.inStep then now else max now (q.profile.getD ((s.time - q.stepOpenAt) / 1000 + k) 0)

/-- PLAN_PUBLISH. The COMMITTED of each context in a step joins its profile. -/
def execPlanPublish (s : State) : Result :=
  if s.innkPaused then .next s
  else
    let open_ := allCtxs.filter fun x => (s.ctx x).state != .closed
    let entry (k : Nat) : Nat := open_.foldl (fun n x => n + s.planOf x (k + 1)) 0
    let s1 := s.modHearth fun h => { h with plan := (List.range 50).map entry }
    let note (s : State) (x : Fin 64) : State :=
      if (s.ctx x).inStep ∧ (s.ctx x).decode = false then
        s.modCtx x fun q => { q with profileNow := q.profileNow ++ [s.ctxCommitted x] }
      else s
    .next (open_.foldl note s1)

/-- The largest entry of the plan, in W, rounded up. -/
def State.planMaxW (s : State) : Nat := ceilDiv (s.hearth.plan.foldl max 0) 1000000

/- Island voltage and pace (R25, R27, R28, R369). -/

/-- Rows of Table 2.2: VCORE in mV, P70 in Mbeat/s and c in units of 0.0001 per °C. -/
def paceTable : List (Nat × Nat × Nat) :=
  [(600, 850, 20), (660, 1020, 17), (720, 1200, 15), (780, 1380, 13), (850, 1550, 12)]

/-- The two rows of a rising table between which a voltage lies; the last two above the last row. -/
def paceRows (mv : Nat) : List (Nat × Nat × Nat) → (Nat × Nat × Nat) × (Nat × Nat × Nat)
  | a :: b :: c :: l => if mv ≤ b.1 then (a, b) else paceRows mv (b :: c :: l)
  | [a, b] => (a, b)
  | _ => ((0, 0, 0), (1, 0, 0))

/-- The typical pace at a voltage and junction temperature in Mbeat/s, as a numerator and a denominator (R25). -/
def typicalPace (mv tj : Nat) : Int × Int :=
  let r := paceRows mv paceTable
  let d : Int := (r.2.1 : Int) - r.1.1
  let at' (lo hi : Nat) : Int := (lo : Int) * d + ((hi : Int) - lo) * ((mv : Int) - r.1.1)
  (at' r.1.2.1 r.2.2.1 * (10000 * d - at' r.1.2.2 r.2.2.2 * ((tj : Int) - 70)), 10000 * d * d)

/-- A pace lies more than 4 % below the typical one. -/
def belowBand (mv tj pace : Nat) : Bool :=
  let p := typicalPace mv tj
  decide ((pace : Int) * 100 * p.2 < 96 * p.1)

/-- A pace lies more than 4 % above the typical one. -/
def aboveBand (mv tj pace : Nat) : Bool :=
  let p := typicalPace mv tj
  decide (104 * p.1 < (pace : Int) * 100 * p.2)

/-- The voltages at which a core of an island may run at a pace within the band of R25, at the island's temperature. -/
def paceVolts (tj pace : Nat) : List Nat :=
  ((List.range 251).map fun n => 600 + n).filter fun mv => !belowBand mv tj pace && !aboveBand mv tj pace

/-- The voltage at which an island runs at a pace: free within what the band of R25 allows (assumption 5). -/
def State.voltsFor (s : State) (n : Nat) (i : Fin 24) (pace : Nat) : Nat :=
  let v := Config.paceVoltage n i.val pace
  match paceVolts (s.island i).tj pace with
  | [] => if belowBand 600 (s.island i).tj pace then 600 else 850
  | lo :: l => clampNat lo (l.getLastD lo) v

/-- The enabled, unfenced cores of an island. -/
def State.paced (s : State) (i : Fin 24) : List (Fin 192) := (islandCores i).filter fun c => (s.core c).role == 0

/-- Insertion of a number into a rising list. -/
def insertNat (n : Nat) : List Nat → List Nat
  | [] => [n]
  | m :: ms => if n ≤ m then n :: m :: ms else m :: insertNat n ms

def sortNats : List Nat → List Nat
  | [] => []
  | n :: ns => insertNat n (sortNats ns)

/-- The median; of an even number the mean of the middle two. -/
def median (l : List Nat) : Nat :=
  let m := sortNats l
  let n := m.length
  if n % 2 = 1 then m.getD (n / 2) 0 else (m.getD (n / 2 - 1) 0 + m.getD (n / 2) 0) / 2

/-- HRTH_ISLAND_PACE (Table 2.3). Of cores that are equally slow SLOWEST names the one at the lowest position, and
SLOWEST_DEFICIT is rounded down to its unit of 0.1 %: the spec gives neither (assumption 74). -/
def State.paceWord (s : State) (i : Fin 24) : Nat :=
  let cs := s.paced i
  let ps := cs.map fun c => (s.core c).paceM
  let med := median ps
  match cs.find? fun c => ps.all fun p => decide ((s.core c).paceM ≤ p) with
  | none => 0
  | some c =>
    let lag := if med = 0 then 0 else (med - (s.core c).paceM) * 1000 / med
    med % 65536 + c.val % 8 * 2 ^ 16 + min lag 255 * 2 ^ 24

/-- A sensor's reading with its correction applied (R443). -/
def Core.corrected (k : Core) (raw : Nat) : Nat := ((raw : Int) * (1000 + k.correction) / 1000).toNat

/-- Takes the readings of an island. -/
def State.readIsland (s : State) (i : Fin 24) (r : IslandReading) : State :=
  let s1 := (islandCores i).foldl (fun s c => s.modCore c fun k => { k with paceM := k.corrected (r.paces.getD (c.val % 8) 0) }) s
  s1.modIsland i fun k => { k with tj := r.tjC, amps := r.currentA, pace := BitVec.ofNat 32 (s1.paceWord i) }

def Island.median (k : Island) : Nat := k.pace.toNat % 65536

/-- TARGET_MBEAT. -/
def State.targetM (s : State) : Nat := bitsOf (s.rd 0x70010) 10 0

/-- A move of at most 5 mV towards a voltage. -/
def toward (v goal : Nat) : Nat := if v < goal then min goal (v + 5) else max goal (v - 5)

/-- The islands that hold cores of each bound caravan. -/
def State.caravanIslands (s : State) : List (List (Fin 24)) :=
  let bound := allCores.filter fun c => (s.core c).car.state != .unbound && (s.core c).ctx.isSome
  let key (c : Fin 192) : Option (Fin 64) × Nat := ((s.core c).ctx, (s.core c).car.id)
  ((bound.map key).dedup).map fun q => allIslands.filter fun i => bound.any fun c => key c == q && c.val / 8 == i.val

/-- The highest pace that R27 allows an island that shares a caravan with another: 1.05 times that of the slowest core of the
caravan's islands. -/
def State.paceBound (s : State) (i : Fin 24) : Option Nat :=
  leastOf (s.caravanIslands.filterMap fun g =>
    if g.contains i ∧ 2 ≤ g.length then
      (leastOf ((g.flatMap s.paced).map fun c => (s.core c).paceM)).map fun low => low * 105 / 100
    else none)

/-- The five steps of R369 for one island; `n` numbers the draws of this update. While capping, the base voltage falls by
5 mV in place of step 1 (R370). -/
def State.setIsland (s : State) (n : Nat) (i : Fin 24) : State :=
  let k := s.island i
  let base := if s.hearth.capping then k.base - 5
    else if k.median = 0 then k.base else toward k.base (s.voltsFor n i s.targetM)
  let v2 := base + k.offset
  let v3 := if 95 < k.tj then v2 - 10 * (k.tj - 95) else v2
  let v4 := match (if s.hearth.gate then none else s.paceBound i) with
    | some p => min v3 (s.voltsFor n i p)
    | none => v3
  s.modIsland i fun k => { k with base := base, want := clampNat 600 850 v4 }

/-- CAP_W and MARGIN_W. -/
def State.capW (s : State) : Nat := bitsOf (s.rd 0x70008) 11 0
def State.marginW (s : State) : Nat := bitsOf (s.rd 0x70008) 23 16

/-- The power cap (R370). -/
def State.capPower (s : State) (mean : Nat) : State :=
  let on := decide (s.capW < mean) || (s.hearth.capping && !decide (mean * 100 < s.capW * 98))
  let s1 := s.modHearth fun h => { h with capping := on }
  if s.capW < mean then (s1.hearthEvent 16).modHearth fun h => { h with winCap := true } else s1

/-- BUDGET and HOT (R371). -/
def State.publish (s : State) (n pIn : Nat) : State :=
  let base : Int := (pIn : Int) * 1000000 - s.committed
  let budget : Int := (s.capW : Int) * 1000000 - base - (s.marginW : Int) * 1000000
  let power := ceilDiv (base + (s.hearth.plan.foldl max 0 : Nat)).toNat 1000000
  let tj50 := (allIslands.map fun i => Config.thermalModel n i.val power).foldl max 0
  let hot := decide (bitsOf (s.rd 0x70014) 6 0 ≤ tj50) || s.hearth.flowLow || s.hearth.flowLost
  if s.hearth.gate then s.publishBudget 0 true else s.publishBudget (budget / 1000000).toNat hot

/-- Hearth's sequencer runs: it has an image and no hand-off holds it (R428, R431). -/
def State.hearthRuns (s : State) : Bool :=
  s.power.vaux && s.gatehouse.images[1].running.isSome && s.gatehouse.pausing != some 1

/-- HEARTH_TICK. An update ends the silence of Table 14.4. -/
def execHearthTick (r : HearthReading) (s : State) : Result :=
  if s.hearthRuns = false ∨ s.power.rails = false then .next s
  else
    let n := s.free
    let s0 := ({ s with free := s.free + 1 }).modHearth fun h => { h with conds := h.conds.set 8 false }
    let s1 := (allIslands.zip r.islands).foldl (fun s p => s.readIsland p.1 p.2) s0
    let hottest := (r.islands.map (·.tjC)).foldl max 0
    let s2 := (s1.wr 0x7000C (min r.pIn1ms 4095 + min r.pIn1s 4095 * 2 ^ 16)).wrBits 0x70020 31 24 hottest
    let s3 := s2.capPower r.pIn1s
    let s4 := if s3.hearth.throttled || s3.hearth.flowLost then s3 else allIslands.foldl (fun s i => s.setIsland n i) s3
    .next (s4.publish n r.pIn1ms)

/- The coolant loop (R372, R374, R375). -/

/-- A coolant sensor reads within −10 °C to 120 °C. -/
def sensorOk (t : Int) : Bool := decide (-10 ≤ t ∧ t ≤ 120)

/-- The flow that the feed-forward term asks for, in 0.01 L/min; none where the outlet target does not lie above the
inlet. -/
def State.feedFlow (s : State) (inlet : Int) : Option Nat :=
  let rise := (bitsOf (s.rd 0x70018) 6 0 : Int) - inlet
  let cap := bitsOf (s.rd 0x70018) 23 8
  let base : Int := (bitsOf (s.rd 0x7000C) 11 0 : Int) - (s.committed / 1000000 : Nat)
  let p := (base + s.planMaxW).toNat
  if rise ≤ 0 ∨ cap = 0 then none else some (p * 6000 / (cap * rise.toNat))

/-- VALVE_TICK: `flow` in 0.01 L/min from the tachometer; when pulses return, voltage control resumes (R375). A closed valve of the leak response and an open one of the
silence response stay. -/
def execValveTick (inlet outlet : Int) (flow : Nat) (s : State) : Result :=
  if s.hearthRuns = false then .next s
  else
    let n := s.free
    let s0 : State := { s with free := s.free + 1 }
    let s1 := (s0.wrBits 0x70020 7 0 (BitVec.ofInt 8 inlet).toNat).wrBits 0x70020 15 8 (BitVec.ofInt 8 outlet).toNat
    let low := s.hearth.flowLow && decide (flow < 200)
    let lost := s.hearth.flowLost && decide (flow = 0)
    let sf := (s1.wr 0x70024 (min flow 65535)).modHearth fun h => { h with flowLow := low, flowLost := lost }
    let s2 := if s.hearth.flowLost && !lost then sf.resumeVolts else sf
    let ok := sensorOk inlet && sensorOk outlet
    let s3 := if ok then s2 else s2.hearthEvent 15
    let minDuty := min 100 (bitsOf (s.rd 0x70018) 30 24)
    let goal : Int := bitsOf (s.rd 0x70018) 6 0
    let want : Int := (match s.feedFlow inlet with
      | some q => (Config.dutyForFlow n (max q 200) : Int)
      | none => (Config.free32 n).toNat) + Config.valvePi n (outlet - goal)
    let duty := if ok then clampNat minDuty 100 want.toNat else 100
    if s.hearth.cond 7 then .next (s3.setDuty 0)
    else if s.hearth.cond 8 then .next (s3.setDuty 100)
    else .next (s3.setDuty duty)

/-- FLOW_LOW: flow below 2.0 L/min for 2 s with the duty at 100 %. -/
def execFlowLow (s : State) : Result :=
  if s.duty = 100 ∧ bitsOf (s.rd 0x70024) 15 0 < 200 then
    .next ((s.modHearth fun h => { h with flowLow := true }).hearthEvent 12).forceHot
  else .next s

/-- FLOW_LOST: no tachometer pulse for 1 s with the duty above MIN_DUTY. -/
def execFlowLost (s : State) : Result :=
  if bitsOf (s.rd 0x70018) 30 24 < s.duty ∧ bitsOf (s.rd 0x70024) 15 0 = 0 then
    .next ((s.modHearth fun h => { h with flowLost := true }).hearthEvent 13).forceHot
  else .next s

/-- INLET_HIGH: an inlet above 40 °C for 10 s. -/
def execInletHigh (s : State) : Result :=
  if 40 < signedOf 8 (bitsOf (s.rd 0x70020) 7 0) then .next (s.hearthEvent 14) else .next s

/- The slow-core path (R403, R404). -/

/-- Raises of OFFSET_MV are withheld in this window. -/
def Hearth.withholds (h : Hearth) : Bool := h.winHot || h.winCap

/-- The slowest core of an island as HRTH_ISLAND_PACE names it. -/
def slowestOf (i : Fin 24) (k : Island) : Nat := 8 * i.val + bitsOf k.pace.toNat 18 16

def State.slowLog (s : State) (i : Fin 24) : State :=
  s.logFault { kind := 0x08, unitType := 1, unit := slowestOf i (s.island i), detail0 := (s.island i).pace.toNat }

/-- One window of the path of an island: the deficit, the raise, the remap and the fall. -/
def Island.window (k : Island) (hold : Bool) (target pace core : Nat) : Island :=
  let deficits := if 30 ≤ bitsOf k.pace.toNat 31 24 then k.deficits + 1 else 0
  let slow := k.slow || decide (3 ≤ deficits)
  if k.falling then
    let off := k.offset - 10
    { k with offset := off, deficits := deficits, slow := off != 0, falling := off != 0, belows := 0, withheld := 0, aboves := 0 }
  else if slow then
    let due := decide (pace < target ∧ k.offset < 60)
    let off := if due && !hold then min 60 (k.offset + 10) else k.offset
    let withheld := if due && hold then k.withheld + 1 else 0
    let belows := if k.offset = 60 ∧ pace * 100 < target * 99 then k.belows + 1 else 0
    let aboves := if target * 102 ≤ pace * 100 then k.aboves + 1 else 0
    let remap := decide (3 ≤ belows ∨ 6 ≤ withheld)
    { k with
      offset := off, deficits := deficits, slow := true, withheld := withheld, belows := belows, aboves := aboves
      falling := decide (100 ≤ aboves), remap := if remap then some core else k.remap }
  else { k with deficits := deficits }

/-- The window end of an island; the path logs when it begins. R404 reports a slow module. -/
def State.slowWindow (s : State) (i : Fin 24) : State :=
  let k := s.island i
  let core := slowestOf i k
  let pace := match coreOf? core with
    | some c => (s.core c).paceM
    | none => 0
  let hold := s.hearth.withholds
  let k1 := if k.median = 0 then k else k.window hold s.targetM pace core
  let training := (islandCores i).any fun c => match (s.core c).ctx with
    | some x => !(s.ctx x).decode
    | none => false
  let lag : Bool := training && decide (k.median * 100 < s.targetM * 97) && (decide (k.offset = 60) || hold)
  let slows := if lag then k.slows + 1 else 0
  let s1 := s.modIsland i fun _ => { k1 with slows := slows }
  let s2 := if k1.slow && !k.slow then s1.slowLog i else s1
  if slows = 3 then
    (s2.logFault { kind := 0x09, unitType := 6, unit := i.val, detail0 := k.pace.toNat }).report (.slowModule i.val)
  else s2

/- Telemetry windows (R384). -/

/-- The window end of a port: its lane counts start again (R290). -/
def Port.window (k : Port) : Port := { k with win := k.regs, last01 := k.fec01, last23 := k.fec23, fec01 := 0, fec23 := 0 }

/-- TELEMETRY_WINDOW. -/
def execTelemetryWindow (s : State) : Result :=
  if s.power.vaux = false then .next s
  else
    let words := allCtxs.flatMap fun x => s.ctxWords x
    let s1 : State := { s with
      cores := s.cores.map fun k => { k with win := k.regs }
      chans := s.chans.map fun k => { k with win := k.regs, dieCorr := [] }
      ports := s.ports.map Port.window
      tolls := s.tolls.map fun k => { k with win := k.latched }
      win := SMap.setAll noReg s.regs words }
    let s2 := allIslands.foldl (fun s i => s.slowWindow i) s1
    let s3 := s2.modHearth fun h => { h with winHot := s2.hot, winCap := false }
    .next ((s3.bump 0x70038 1).report (.window (s3.rd 0x70038)))

end Sys2Proof.Machine
end

