-- ==== Sys2Proof/Machine/Operands.lean ====
section
/-! DEFINITION. The Steward's operands and its common cycle: registers and FP64 pairs (R113), fetch and
decode (R114, R115), faults (R120), data-memory and scratchpad accesses (R114, R119), the next program
counter. -/

namespace Sys2Proof.Machine

/-- Register r; g0 reads as zero (R113). -/
def Core.g (k : Core) (r : BitVec 5) : Word := if r = 0 then 0 else k.stw.g[r.toNat]'r.isLt

/-- Writes register r; g0 discards writes (R113). -/
def Core.setG (k : Core) (r : BitVec 5) (v : Word) : Core :=
  if r = 0 then k else { k with stw := { k.stw with g := k.stw.g.set r.toNat v r.isLt } }

/-- An FP64 value in the pair r, r + 1, bits [31:0] in the even register (R113). -/
def Core.gPair (k : Core) (r : BitVec 5) : Nat := (k.g r).toNat + (k.g (r + 1)).toNat * 2 ^ 32

def Core.setPair (k : Core) (r : BitVec 5) (v : Nat) : Core :=
  (k.setG r (BitVec.ofNat 32 v)).setG (r + 1) (BitVec.ofNat 32 (v / 2 ^ 32))

/-- IMM16 sign-extended. -/
def simmOf (i : SInstr) : Word := (BitVec.ofNat 16 i.imm.toNat).signExtend 32

/-- IMM16 zero-extended. -/
def uimmOf (i : SInstr) : Word := BitVec.ofNat 32 (i.imm.toNat % 2 ^ 16)

/-- The word at index `n` of the active bank (R114). -/
def Core.fetch (k : Core) (n : Nat) : Word :=
  SMap.get (fun _ => 0) (if k.stw.bank then k.imem1 else k.imem0) n

/-- CORE_STW_STATUS (Table 5.10). -/
def StwState.code : StwState → Nat
  | .halted => 0 | .running => 1 | .waiting => 2 | .faulted => 3

def Core.stwStatus (k : Core) : Nat :=
  k.stw.state.code + k.stw.cause * 4 + k.stw.pc.toNat * 2 ^ 8 + b2n k.stw.bank * 2 ^ 22

/-- A Steward fault (R120): the Steward stops with its cause recorded and its program counter kept, a
fault-log entry of kind 0x06 is written (R388), and the Innkeeper receives the event (R364, R398). -/
def State.stwFault (s : State) (c : Fin 192) (cause : Nat) : State :=
  let s1 := s.modCore c fun k =>
    { k with stw := { k.stw with state := .faulted, cause := cause, stopReq := false } }
  let k := s1.core c
  let s2 := s1.logFault { kind := 0x06, ctx := k.ctx, unitType := 1, unit := c.val, detail0 := k.stwStatus }
  s2.stwFaulted c

/-- Causes of Table 5.10. -/
def causeIllegal : Nat := 1
def causeRange : Nat := 2
def causeAlign : Nat := 3
def causeMemory : Nat := 4

/-- Moves the Steward to word `n`. An index outside 0 to 16,383 cannot be fetched (R114): the Steward
faults with CAUSE 2 and keeps its program counter (DEDUCED, assumption 11). -/
def State.stwGoto (s : State) (c : Fin 192) (n : Int) : State :=
  if 0 ≤ n ∧ n < 16384 then
    s.modCore c fun k => { k with stw := { k.stw with pc := BitVec.ofNat 14 n.toNat } }
  else s.stwFault c causeRange

/-- Goes on to the next word. -/
def State.stwNext (s : State) (c : Fin 192) : State := s.stwGoto c ((s.core c).stw.pc.toNat + 1)

/-- Applies a core update and goes on to the next word. -/
def State.stwDone (s : State) (c : Fin 192) (f : Core → Core) : State := (s.modCore c f).stwNext c

/-- Writes gd and goes on to the next word. -/
def State.stwWrite (s : State) (c : Fin 192) (d : BitVec 5) (v : Word) : State :=
  s.stwDone c fun k => k.setG d v

/-- A snapshot stop of the core's context holds its Steward (R408). -/
def State.stwHeld (s : State) (c : Fin 192) : Bool :=
  match (s.core c).ctx with
  | some x => (s.ctx x).snap.phase == 1
  | none => false

/-- One Steward instruction of operation `op` on core `c` (R114, R115, R120), taken while the Steward is in a
state that `may` names. The word at the program counter is fetched from the active bank. An uncorrectable
error of the memories the instruction uses is a Steward fault; a corrected one is counted (GLB_RAS_STW). An
illegal word is a Steward fault whatever row names it. A word of another operation, or a Steward in another
state, is not this event. -/
def stewardIn (may : StwState → Bool) (op : SOp) (c : Fin 192) (e : Ecc) (act : SInstr → State → State)
    (s : State) : Result :=
  let k := s.core c
  if !may k.stw.state || s.stwHeld c then .next s
  else
    match e with
    | .uncorrectable => .next ((s.bumpField 0x90030 31 16 1).stwFault c causeMemory)
    | _ =>
      let s1 := if e = .corrected then s.bumpField 0x90030 15 0 1 else s
      match decodeSteward (k.fetch k.stw.pc.toNat).toNat with
      | none => .next (s1.stwFault c causeIllegal)
      | some i => if i.op = op then .next (act i s1) else .next s

/-- An instruction of a running Steward. -/
def stewardStep (op : SOp) (c : Fin 192) (e : Ecc) (act : SInstr → State → State) (s : State) : Result :=
  stewardIn (fun st => st == .running) op c e act s

/-- The address checks of a data access of `n` bytes in a memory of `size` bytes: out of range first, then
misaligned (R120). -/
def accessFault (a n size : Nat) : Option Nat :=
  if size < a + n then some causeRange else if a % n ≠ 0 then some causeAlign else none

/-- The effective address ga + IMM16, modulo 2³². -/
def effAddr (k : Core) (i : SInstr) : Nat := (k.g i.a + simmOf i).toNat

/-- A load from data memory (R114). `f` extends the `n` bytes read. -/
def stwLoad (c : Fin 192) (n : Nat) (f : Nat → Word) (i : SInstr) (s : State) : State :=
  let k := s.core c
  let a := effAddr k i
  match accessFault a n 0x20000 with
  | some q => s.stwFault c q
  | none => s.stwWrite c i.d (f (k.dmem.readLE a n))

/-- A store to data memory writes and, when it reaches word 0 of a billet entry, clears that entry's POISON
(R182). -/
def Core.storeData (k : Core) (a n v : Nat) : Core :=
  let k1 := { k with dmem := k.dmem.writeLE a n v }
  if 0x1F000 ≤ a ∧ a % 16 < 4 then k1.setPoison ((a - 0x1F000) / 16) 0 else k1

/-- A store of the low `n` bytes of gd to data memory (R114). -/
def stwStore (c : Fin 192) (n : Nat) (i : SInstr) (s : State) : State :=
  let k := s.core c
  let a := effAddr k i
  match accessFault a n 0x20000 with
  | some q => s.stwFault c q
  | none => s.stwDone c fun k => k.storeData a n (k.g i.d).toNat

/-- Scratchpad bytes (R172). -/
def spBytes : Nat := 0x800000

end Sys2Proof.Machine
end

