-- ==== Sys2Proof/Machine/StewardSys.lean ====
section
/-! DEFINITION. The Steward's frame, predicate, mask, event and CSR instructions (R66, R115, R117, R118,
R125, R126, R133), its instruction banks and its control (R122, R123, R140). -/

namespace Sys2Proof.Machine

/- Frames. -/

/-- Discards the resident tile of slot `i`, live or parked (R125). -/
def Core.dropTile (k : Core) (i : Fin 8) : Core :=
  let k1 := if k.liveOwner = some i then { k with live := .cleared, liveOwner := none } else k
  k1.modSlot i fun v => { v with resident := false, parked := none }

/-- Core `n` is fused off (R2). -/
def State.fused (s : State) (n : Nat) : Bool :=
  match coreOf? n with
  | some c => (s.core c).role == 2
  | none => false

/-- The filler context that the owner of a core names. -/
def State.fillerOf (s : State) (c : Fin 192) : Option Nat :=
  match (s.core c).ctx with
  | some x => (s.ctx x).filler
  | none => none

/-- The status of an FLD of `img` into slot `i` (Table 5.7). -/
def State.loadStatus (s : State) (c : Fin 192) (i : Fin 8) (img : List Byte) : Byte :=
  let k := s.core c
  let st := frameCheck img (k.ctx.map (·.val)) (s.fillerOf c) s.fused
  if st ≠ stOk then st else if (k.slot i).inst.isSome then stBankActive else stOk

/-- FLD of an image into slot `i` (R125). A failed FLD leaves the slot empty, unless it holds an instance, whose
frame it keeps (DEDUCED, assumption 15). Reloading the frame of a port in hold flushes the port (R394). -/
def Core.loadFrame (k : Core) (i : Fin 8) (img : List Byte) (st : Byte) : Core :=
  if (k.slot i).inst.isSome then k.modSlot i fun v => { v with lastStatus := st }
  else
    let bound : Bool := match k.frame i with
      | some f => f.bCaravan && k.car.state == .hold
      | none => false
    let k1 := k.dropTile i
    let k2 := if bound then k1.carFlush else k1
    let k3 :=
      if st = stOk then k2.modSlot i fun v => { v with image := some img }
      else k2.modSlot i fun v => { v with image := none, lastStatus := st }
    k3.freePlaces

/-- FLD. -/
def execFld (c : Fin 192) (e : Ecc) (s : State) : Result :=
  stewardStep .fld c e (fun i s =>
    let k := s.core c
    let a := (k.g i.a).toNat
    if 0x20000 < a + 1024 then s.stwFault c causeRange
    else if a % 64 ≠ 0 then s.stwFault c causeAlign
    else
      let n := slotOf i.imm.toNat
      let img := k.dmem.readRun a 1024
      let st := s.loadStatus c n img
      s.stwDone c fun k => (k.loadFrame n img st).setG i.d (st.setWidth 32)) s

/-- A new armed instance (R126, Table 5.8). -/
def newInst (mb : BitVec 16) (start len : Nat) : Inst :=
  { mb := mb, start := start, len := len, running := false, next := 0, held := none, maskEmpty := false,
    nonfinite := false, poisoned := false, cancel := none, failed := none, fencedSeen := false, startedAt := 0,
    taken := [] }

/-- The status of a FARM (R126); ga[15:3] non-zero is a reserved value (DEDUCED, assumption 16). -/
def Core.armStatus (k : Core) (a b : Nat) : Byte :=
  let i := slotOf a
  let start := bitsOf b 15 0
  let len := bitsOf b 31 16
  match k.frame i, (k.slot i).inst with
  | some f, none =>
    if bitsOf a 15 3 ≠ 0 ∨ len = 0 ∨ 7936 < start + len then stReserved
    else if f.cls = 0 ∧ k.fwdDone.contains (BitVec.ofNat 16 (a / 2 ^ 16)) = true then stReserved
    else stOk
  | _, _ => if bitsOf a 15 3 ≠ 0 then stReserved else stBankActive

/-- Arms an instance; one of an aborted micro-batch ends at once (R212). -/
def State.arm (s : State) (c : Fin 192) (a b : Nat) : State :=
  let i := slotOf a
  let m := BitVec.ofNat 16 (a / 2 ^ 16)
  match (s.core c).frame i with
  | none => s
  | some f =>
    let n := newInst m (bitsOf b 15 0) (bitsOf b 31 16)
    let s1 := s.modCore c fun k => k.modSlot i fun v => { v with inst := some n, gen := v.gen + 1 }
    match s1.armBlocked f.context m with
    | some st => s1.cancelInst c i st []
    | none => s1

/-- FARM. -/
def execFarm (c : Fin 192) (e : Ecc) (s : State) : Result :=
  stewardStep .farm c e (fun i s =>
    let k := s.core c
    let a := (k.g i.a).toNat
    let b := (k.g i.b).toNat
    let st := k.armStatus a b
    let s1 :=
      if st = stOk then (s.arm c a b).markLate c
      else s.modCore c fun k => k.modSlot (slotOf a) fun v => { v with lastStatus := st }
    s1.stwWrite c i.d (st.setWidth 32)) s

/-- FSTAT. -/
def execFstat (c : Fin 192) (e : Ecc) (s : State) : Result :=
  stewardStep .fstat c e (fun i s =>
    let k := s.core c
    s.stwWrite c i.d (BitVec.ofNat 32 (k.frameStatus (slotOf (k.g i.a).toNat)))) s

/-- FRD: a word of the frame; an empty slot reads 0, and an offset outside the frame or not a multiple of 4 is
an address fault (DEDUCED, assumption 17). -/
def execFrd (c : Fin 192) (e : Ecc) (s : State) : Result :=
  stewardStep .frd c e (fun i s =>
    let k := s.core c
    match accessFault (simmOf i).toNat 4 1024 with
    | some q => s.stwFault c q
    | none =>
      let img := ((k.slot (slotOf (k.g i.a).toNat)).image).getD []
      s.stwWrite c i.d (BitVec.ofNat 32 (imgLE img (simmOf i).toNat 4))) s

/- Predicates and masks. -/

/-- PWR: the software bits [11:1] of the owning context (R133). -/
def execPwr (c : Fin 192) (e : Ecc) (s : State) : Result :=
  stewardStep .pwr c e (fun i s =>
    s.stwDone c fun k => k.writeSoft false ((k.g i.b).setWidth 16) ((k.g i.a).setWidth 16)) s

/-- PRD. -/
def execPrd (c : Fin 192) (e : Ecc) (s : State) : Result :=
  stewardStep .prd c e (fun i s =>
    let k := s.core c
    s.stwWrite c i.d (BitVec.ofNat 32 (k.predBits (slotOf (k.g i.a).toNat)))) s

/-- Writes mask entry `n`; entry 0 is all ones and takes no write (R66). -/
def Core.setMask (k : Core) (n : BitVec 4) (v : BitVec 128) : Core :=
  if n = 0 then k else { k with mask := k.mask.set n.toNat v n.isLt }

/-- MSKW: the entry that gb[3:0] numbers takes ga, ga + 1, ga + 2 and ga + 3, low word first. -/
def execMskw (c : Fin 192) (e : Ecc) (s : State) : Result :=
  stewardStep .mskw c e (fun i s =>
    s.stwDone c fun k =>
      let w (d : BitVec 5) : Nat := (k.g (i.a + d)).toNat
      let v := w 0 + w 1 * 2 ^ 32 + w 2 * 2 ^ 64 + w 3 * 2 ^ 96
      k.setMask ((k.g i.b).setWidth 4) (BitVec.ofNat 128 v)) s

/- Events and CSRs. -/

/-- A pending flip is taken (R123): the other bank becomes active, the Steward resumes at its word 0, event 11 is pending. A
STOP that a waiting Steward has been given acts at this instruction boundary. -/
def Core.takeFlip (k : Core) : Core :=
  ({ k with
    flipPending := false
    stw := { k.stw with
      bank := !k.stw.bank, pc := 0, state := if k.stw.stopReq then .halted else .running, stopReq := false } }).raiseEvent 11

/-- WAIT: with an event of the mask pending, gd takes the pending events of the mask, which are cleared; with
none the Steward waits in it, and this row is taken again once one is pending. A STOP taken while waiting
acts at the end of the WAIT. A WAIT is a Steward boundary: with a flip pending the flip is taken in place of the WAIT, which
changes nothing itself (R123; assumption 97). -/
def execWait (c : Fin 192) (e : Ecc) (s : State) : Result :=
  stewardIn (fun st => st == .running || st == .waiting) .wait c e (fun i s =>
    let k := s.core c
    let m := (uimmOf i).setWidth 16 &&& k.stw.events
    if k.flipPending then s.modCore c Core.takeFlip
    else if m = 0 then s.modCore c fun k => { k with stw := { k.stw with state := .waiting } }
    else
      let stop := k.stw.stopReq
      let s1 := s.stwDone c fun k =>
        ({ k with stw := { k.stw with events := k.stw.events &&& ~~~m, state := .running, stopReq := false } }).setG i.d
          (m.setWidth 32)
      if stop ∧ (s1.core c).stw.state = .running then
        s1.modCore c fun k => { k with stw := { k.stw with state := .halted } }
      else s1) s

/-- The value that a CSR reads (Table 5.4); none for a number not listed. ADMIT is read apart. -/
def State.csr (s : State) (c : Fin 192) (n : Nat) : Option Word :=
  let k := s.core c
  match n with
  | 0 => some (BitVec.ofNat 32 c.val)
  | 1 => some (match k.ctx with
      | some x => BitVec.ofNat 32 x.val
      | none => 0xFFFFFFFF)
  | 2 => some (BitVec.ofNat 32 (s.stepOf k.ctx))
  | 3 => some k.admitRead.1
  | 4 => some (k.stw.fflags.setWidth 32)
  | 5 => some (BitVec.ofNat 32 (k.rd 0x20100))
  | 6 => some (BitVec.ofNat 32 s.time)
  | 7 => some 0
  | _ => none

/-- CSRR; a read of ADMIT takes the oldest entry of the queue (R117, R349). -/
def execCsrr (c : Fin 192) (e : Ecc) (s : State) : Result :=
  stewardStep .csrr c e (fun i s =>
    match s.csr c i.imm.toNat with
    | none => s.stwFault c causeIllegal
    | some v =>
      let s1 := if i.imm.toNat = 3 then s.modCore c fun k => k.admitRead.2 else s
      s1.stwWrite c i.d v) s

/-- CSRW; a write to a read-only or unlisted CSR is illegal. The zero bits of FFLAGS and FWD_DONE discard what
is written to them (R9). -/
def execCsrw (c : Fin 192) (e : Ecc) (s : State) : Result :=
  stewardStep .csrw c e (fun i s =>
    let v := (s.core c).g i.a
    if i.imm.toNat = 4 then
      s.stwDone c fun k => { k with stw := { k.stw with fflags := v.setWidth 5 } }
    else if i.imm.toNat = 7 then (s.stwNext c).fwdDeclared c (v.setWidth 16)
    else s.stwFault c causeIllegal) s

/-- HALT: the Steward stops, with the program counter at the HALT (Table 5.10). -/
def execHalt (c : Fin 192) (e : Ecc) (s : State) : Result :=
  stewardStep .halt c e (fun _ s =>
    s.modCore c fun k => { k with stw := { k.stw with state := .halted } }) s

/- Instruction banks and control. -/

/-- A write of 1 to CORE_IMEM_CTL.FLIP (R122). -/
def Core.requestFlip (k : Core) : Core := { k with flipPending := true }

/-- IMEM_FLIP_REQUEST. -/
def execImemFlipRequest (w : Who) (c : Fin 192) (s : State) : Result := s.coreWrite w c Core.requestFlip

/-- The Steward stands at a Steward boundary: halted, in a WAIT, or about to execute one (R123). -/
def Core.atBoundary (k : Core) : Bool :=
  match k.stw.state with
  | .halted => true
  | .waiting => true
  | .running => match decodeSteward (k.fetch k.stw.pc.toNat).toNat with
    | some i => i.op == .wait
    | none => false
  | .faulted => false

/-- IMEM_FLIP_TAKEN. -/
def execImemFlipTaken (c : Fin 192) (s : State) : Result :=
  let k := s.core c
  if k.flipPending && k.atBoundary then .next (s.modCore c Core.takeFlip) else .next s

/-- START: a halted or faulted Steward starts at word 0 of the active bank, with CAUSE cleared (Table 5.11). A flip that is
pending while the Steward stands halted is taken first (R123). -/
def Core.stewardStart (k : Core) : Core :=
  let start (k : Core) : Core := { k with stw := { k.stw with state := .running, pc := 0, cause := 0, stopReq := false } }
  if k.stw.state = .halted then start (if k.flipPending then k.takeFlip else k)
  else if k.stw.state = .faulted then start k
  else k

/-- STOP: a running Steward halts at its instruction boundary, which is where it stands between rows; one in a
WAIT halts when the WAIT ends. -/
def Core.stewardStop (k : Core) : Core :=
  match k.stw.state with
  | .running => { k with stw := { k.stw with state := .halted } }
  | .waiting => { k with stw := { k.stw with stopReq := true } }
  | _ => k

/-- STEWARD_START. -/
def execStewardStart (w : Who) (c : Fin 192) (s : State) : Result := s.coreWrite w c Core.stewardStart

/-- STEWARD_STOP. -/
def execStewardStop (w : Who) (c : Fin 192) (s : State) : Result := s.coreWrite w c Core.stewardStop

end Sys2Proof.Machine
end

