-- ==== Sys2Proof/Machine/Sweep.lean ====
section
/-! DEFINITION. The product sweeps of Lantern (R400, R401): operand codes, signatures, the cells that fail, and the outcome of a
sweep (R402). -/

namespace Sys2Proof.Machine

/-- Formats that a group sweeps, in the order of Table 15.4. -/
def sweepFormats (group : Nat) : List Nat :=
  match group with
  | 1 => [4, 5, 6, 7, 8, 9, 10, 13]
  | 2 => [2]
  | 3 => [3]
  | _ => []

/-- Codes of a format. -/
def sweepCodes (fmt : Nat) : Nat := 2 ^ fmtBits fmt

/-- Beats of a format's sweep: its pairs of codes, repeated until 65,536 beats are filled. -/
def sweepLength (fmt : Nat) : Nat := max 65536 (sweepCodes fmt ^ 2)

/-- The code that lane `l` of row `i` receives in beat `n`. -/
def sweepRowCode (fmt n i l : Nat) : Nat := (n % sweepCodes fmt ^ 2 / sweepCodes fmt + i % 64 + l) % sweepCodes fmt

/-- The code that a lane of column `j` receives in beat `n`. -/
def sweepColCode (fmt n j : Nat) : Nat := (n % sweepCodes fmt ^ 2 + j % 64) % sweepCodes fmt

/-- The W48 encoding of a product of two codes, formed exactly: block scales are 1 and integers unscaled. -/
def sweepProduct (fmt a b : Nat) : BitVec 48 := BitVec.ofNat 48 (w48.encode ((elemVal fmt 0 a).mul (elemVal fmt 0 b)))

/-- The same as lane `l` of a cell forms it, with the faults of the array. -/
def formedProduct (faults : List CellFault) (fmt i j l a b : Nat) : BitVec 48 :=
  match faults.find? fun f => f.fmt == fmt && f.row == i && f.col == j && f.lane == l && f.a == a && f.b == b with
  | some f => f.product
  | none => sweepProduct fmt a b

/-- Shifts a signature by 1 with bit 47 fed back through x⁴⁸ + x⁴⁷ + x²¹ + x²⁰ + 1. -/
def shiftSignature (s : BitVec 48) : BitVec 48 := (s <<< 1) ^^^ (if s.getLsbD 47 then 0x800000300001#48 else 0#48)

def foldProduct (s e : BitVec 48) : BitVec 48 := shiftSignature s ^^^ e

/-- One beat of a cell: its lanes in order (assumption 118). -/
def sweepBeat (faults : List CellFault) (fmt lanes i j n : Nat) (s : BitVec 48) : BitVec 48 :=
  (List.range lanes).foldl (fun s l => foldProduct s (formedProduct faults fmt i j l (sweepRowCode fmt n i l) (sweepColCode fmt n j))) s

/-- `k` beats from beat `n` on. -/
def sweepBeats (faults : List CellFault) (fmt lanes i j : Nat) : Nat → Nat → BitVec 48 → BitVec 48
  | _, 0, s => s
  | n, k + 1, s => sweepBeats faults fmt lanes i j (n + 1) k (sweepBeat faults fmt lanes i j n s)

/-- A cell's signature at the end of a format; it starts at 0 (assumption 118). -/
def signature (faults : List CellFault) (fmt lanes i j : Nat) : BitVec 48 :=
  sweepBeats faults fmt lanes i j 0 (sweepLength fmt) 0#48

/-- The value that the Gatehouse tables hold for a cell and format. -/
def expectedSignature (fmt lanes i j : Nat) : BitVec 48 := signature [] fmt lanes i j

/-- A cell fails: it differs from its expected value. Twins receive the same sequence and expect the same, so of two twins that
differ at least one fails so. -/
def cellFails (faults : List CellFault) (fmt lanes i j : Nat) : Bool :=
  signature faults fmt lanes i j != expectedSignature fmt lanes i j

/-- The failures of the product groups of a sweep in the order in which they are found: group, format, row and column. A
Tollhouse runs group 2 alone, with one lane (R400). -/
def productFailures (toll : Bool) (groups : Nat) (faults : List CellFault) : List (Nat × Nat × Nat × Nat) :=
  let mine := if toll then [2] else [1, 2, 3]
  (mine.filter fun g => bitOf groups g).flatMap fun g => (sweepFormats g).flatMap fun fmt =>
    (faults.filter fun f => f.fmt == fmt && cellFails faults fmt (if toll then 1 else fmtP fmt) f.row f.col).map fun f =>
      (g, fmt, f.row.val, f.col.val)

/-- The quadrant of a cell. -/
def cellQuad (row col : Nat) : Nat := 2 * (row / 64 % 2) + col / 64 % 2

/-- The first failing cell of a list of one format: the lowest row, then column. -/
def firstCell : List (Nat × Nat × Nat × Nat) → Option SweepDetail
  | [] => none
  | (g, fmt, r, c) :: rest =>
    let best := rest.foldl (fun (p : Nat × Nat) q =>
      if q.1 = g ∧ q.2.1 = fmt ∧ 128 * q.2.2.1 + q.2.2.2 < 128 * p.1 + p.2 then (q.2.2.1, q.2.2.2) else p) (r, c)
    some { group := g, format := fmt, row := best.1, col := best.2, quad := cellQuad best.1 best.2 }

/-- The outcome class of failures in quadrants `qs` beside what the other groups found (R402). -/
def joinOutcome (qs : List Nat) (o : SweepOutcome) : SweepOutcome :=
  match qs, o with
  | [], o => o
  | q :: rest, .pass => if rest.all (· == q) then .degradedQuad ⟨q % 4, Nat.mod_lt _ (by decide)⟩ else .failed
  | qs, .degradedQuad q => if qs.all (· == q.val) then .degradedQuad q else .failed
  | _, _ => .failed

/-- The outcome and the first failure of a sweep: its product groups judged by their signatures, and `o` with `d` what its
directed and random groups found. -/
def sweepVerdict (toll : Bool) (groups : Nat) (faults : List CellFault) (o : SweepOutcome) (d : SweepDetail) : SweepOutcome × SweepDetail :=
  let fs := productFailures toll groups faults
  let o1 := joinOutcome (fs.map fun f => cellQuad f.2.2.1 f.2.2.2) o
  match firstCell fs with
  | none => (o1, d)
  | some p => (o1, if o != .pass && decide (d.group < p.group) then d else p)

/-- Array beats of the groups of a sweep: 1 to 5 of Table 15.4, of which a Tollhouse runs 2, 4 and 5 (assumption 118). -/
def groupBeats (toll : Bool) (groups : Nat) : Nat :=
  let one (g n : Nat) : Nat := if bitOf groups g then n else 0
  one 2 4294967296 + one 4 16777216 + one 5 4194304 + (if toll then 0 else one 1 524288 + one 3 4294967296)

end Sys2Proof.Machine
end

