-- ==== Sys2Proof/Machine/Ras.lean ====
section
/-! DEFINITION. The remap of a core to a spare (R196, R395 to R398), Lantern and pace calibration (R399 to R402, R443,
R444), and restore (R106, R412). -/

namespace Sys2Proof.Machine

/- Remap. -/

/-- Column and row of a core in the mesh of its die (R190). -/
def meshCol (c : Fin 192) : Nat := c.val % 96 % 12
def meshRow (c : Fin 192) : Nat := c.val % 96 / 12

def natDist (a b : Nat) : Nat := (a - b) + (b - a)

/-- Mesh hops between two cores: along the row, then along the column; to the other die by the bridge entry of the row
(R190). -/
def meshHops (a b : Fin 192) : Nat :=
  let rows := natDist (meshRow a) (meshRow b)
  if a.val / 96 = b.val / 96 then natDist (meshCol a) (meshCol b) + rows
  else if a.val < 96 then (11 - meshCol a) + 1 + meshCol b + rows
  else meshCol a + 1 + (11 - meshCol b) + rows

/-- An item of Lantern's runs on a core. -/
def State.sweeping (s : State) (c : Fin 192) : Bool := s.lanternRun.any fun w => !w.toll && w.unit == c.val

/-- A free spare: ROLE 1, without a context and not being swept. -/
def State.freeSpare (s : State) (c : Fin 192) : Bool := (s.core c).role == 1 && (s.core c).ctx.isNone && !s.sweeping c

/-- The spare with the fewest hops, the lowest index on a tie. -/
def nearest (f : Fin 192) : List (Fin 192) → Option (Fin 192)
  | [] => none
  | c :: cs => match nearest f cs with
    | none => some c
    | some d => if meshHops f c ≤ meshHops f d then some c else some d

/-- The spare that takes the stage of F (R396): on F's die, else on the other. -/
def State.spareFor (s : State) (f : Fin 192) : Option (Fin 192) :=
  let free := allCores.filter fun c => s.freeSpare c
  match nearest f (free.filter fun c => c.val / 96 == f.val / 96) with
  | some c => some c
  | none => nearest f free

/-- Tiles that a started caravan OPX of a slot has not consumed. -/
def Core.opxOwed (k : Core) (i : Fin 8) : Nat :=
  match k.arrayQ, k.frame i with
  | j :: _, some f => match j.cmd.args with
    | .opx _ _ kk .. => if j.slot = i ∧ j.started = true ∧ f.bCaravan = true then caravanTiles kk.toNat - j.tile else 0
    | _ => 0
  | _, _ => 0

/-- A running instance of a core that is being fenced ends with CORE_FENCED: its commands end, its Porter requests go
stale (R189, R395). -/
def State.fenceInst (s : State) (c : Fin 192) (i : Fin 8) : State :=
  let s1 := s.modCore c fun k =>
    let k1 := k.carHold (k.opxOwed i)
    let k2 : Core := { k1 with
      arrayQ := k.arrayQ.filter fun j => j.slot != i
      shadowQ := k.shadowQ.filter fun j => j.slot != i
      queueQ := k.queueQ.filter fun j => j.slot != i
      porterQ := k.porterQ.map fun j => if j.slot = i then { j with stale := true } else j }
    k2.modSlot i fun v => { v with gen := v.gen + 1 }
  s1.endInst c i stFenced

/-- Ends every running instance of a core. -/
def State.fenceRunning (s : State) (c : Fin 192) : State :=
  allSlots.foldl (fun s i => match ((s.core c).slot i).inst with
    | some n => if n.running then s.fenceInst c i else s
    | none => s) s

/-- In a frame's caravan block, a neighbour that was `f` becomes `sp` (R196). -/
def relinkImage (f sp : Nat) (img : List Byte) : List Byte :=
  let p := if (imgLE img 0x103 1) = f then setField img 0x103 1 sp else img
  if (imgLE img 0x104 1) = f then setField p 0x104 1 sp else p

/-- The neighbours of a re-spliced port name the spare, in their bindings, their loaded frames and their tiles in
flight. -/
def Core.relink (k : Core) (f sp : Nat) : Core :=
  let slot (v : Slot) : Slot := { v with image := v.image.map (relinkImage f sp) }
  { k with
    slots := k.slots.map slot
    car := { k.car with
      prev := if k.car.prev = f then sp else k.car.prev
      next := if k.car.next = f then sp else k.car.next
      inbound := k.car.inbound.map fun p => if p.1 = f then (sp, p.2) else p } }

/-- A caravan insertion among the Porter's requests (R194). -/
def PJob.inserts (j : PJob) : Bool := j.ent.layout == 4 && j.cmd.args.opcode == 0x10

/-- The core image of F on its spare (step 4 of R395). F's stale insertions follow the port, into which their CANCELLED
tokens go in their turn (R189, R194). The port moves with its tiles and OWED, into hold when OWED is not 0,
and the Innkeeper's RESUME goes to it (R196, R394). -/
def Core.takeImage (sp f : Core) : Core :=
  let st := if f.stw.state = .faulted then StwState.halted else f.stw.state
  let k : Core := { sp with
    sp := f.sp, dmem := f.dmem, imem0 := f.imem0, imem1 := f.imem1, flipPending := f.flipPending, slots := f.slots
    mask := f.mask, soft := f.soft, softFill := f.softFill, porterQ := sp.porterQ ++ f.porterQ.filter PJob.inserts
    ends := f.ends.zipWith (fun a b => { a with grants := b.grants }) sp.ends, admitQ := f.admitQ, heldNotices := f.heldNotices
    fwdDone := f.fwdDone, groups := f.groups, car := f.car, ctx := f.ctx, role := 0
    stw := { f.stw with state := st, cause := 0, stopReq := false } }
  let k1 := (List.range 16).foldl (fun k e => k.wr (0x20640 + 4 * e) (f.rd (0x20640 + 4 * e))) k
  (k1.wr 0x20600 (f.rd 0x20600)).carResume

/-- What is left on F: nothing but its stale Porter requests and its alias. -/
def Core.vacated (k : Core) (sp : Fin 192) : Core :=
  { k with
    slots := Vector.replicate 8 {}, arrayQ := [], shadowQ := [], queueQ := [], admitQ := [], heldNotices := [], fwdDone := []
    porterQ := k.porterQ.filter fun j => !j.inserts, groups := [], ends := k.emptyEnds, car := { state := .fenced }, live := .cleared, shadow := .cleared
    liveOwner := none, ctx := none, role := 3, draw := 0, refusedAt := none, guardPassed := false, aliasTo := some sp
    stw := { k.stw with state := if k.stw.state = .faulted then .faulted else .halted, stopReq := false } }

/-- Steps 1 to 6 of R395. -/
def State.remapTo (s : State) (f sp : Fin 192) (x : Fin 64) : State :=
  let s1 := (s.modCore f fun k => { k with role := 3 }).fenceRunning f
  let s2 := s1.modCore f fun k => match k.liveOwner with
    | some j => k.park j
    | none => k
  let fk := s2.core f
  let s3 := s2.setCore sp ((s2.core sp).takeImage fk)
  let follow (k : Core) : Core := if k.aliasTo = some f then { k with aliasTo := some sp } else k
  let s4 : State := { s3 with cores := s3.cores.map follow }
  let s5 := (s4.modCore f fun k => k.vacated sp).onCtxCores x fun k => k.relink f.val sp.val
  let s6 := s5.tellOwner x 0x82 (leBytes 1 x.val ++ (leBytes 1 f.val ++ leBytes 1 sp.val))
  s6.logFault { kind := 0x07, status := stFenced, ctx := some x, unitType := 1, unit := f.val, detail0 := (s6.core sp).stwStatus }

/-- A core is condemned and no spare is free: its context parks mid-step and reports CORE_FENCED (R396). -/
def State.fenceCore (s : State) (f : Fin 192) (x : Fin 64) : State :=
  let s1 := ((s.modCore f fun k => { k with role := 3 }).fenceRunning f).parkMid x stFenced
  s1.logFault { kind := 0x07, status := stFenced, ctx := some x, unitType := 1, unit := f.val, detail0 := (s1.core f).stwStatus }

/-- The island of a core. -/
def islandOf (c : Fin 192) : Fin 24 := ⟨c.val / 8, by omega⟩

/-- A remap by the slow-core path (R403): OFFSET_MV falls, and the core stays fenced until its recalibration. -/
def State.slowRemapped (s : State) (c : Fin 192) : State :=
  let s1 := (s.slowLog (islandOf c)).modIsland (islandOf c) fun k => { k with remap := none, falling := true, belows := 0, withheld := 0 }
  s1.modCore c fun k => { k with slowFenced := true }

/-- A parity check has condemned a part: its fence bit is the module's (R78). -/
def Core.condemn (k : Core) (cause : RemapCause) : Core :=
  match cause with
  | .condemned (some q) =>
    { k.wr 0x20200 (Nat.lor (k.rd 0x20200) (2 ^ q.val)) with modFence := k.modFence ||| (1#5 <<< q.val) }
  | _ => k

/-- What calls for a remap holds: a sweep after an ABFT mismatch waits, or the slow-core path has named the core. -/
def State.remapDue (s : State) (c : Fin 192) : RemapCause → Bool
  | .abft => s.lanternQ.any fun w => !w.toll && !w.cal && w.unit == c.val
  | .slow => (s.island (islandOf c)).remap == some c.val
  | .condemned _ => true
  | .fence => true

/-- CORE_REMAP. A core without a context that a parity check condemns is only fenced. -/
def execCoreRemap (c : Fin 192) (cause : RemapCause) (s : State) : Result :=
  let s0 := s.modCore c fun k => k.condemn cause
  match (s.core c).ctx with
  | none =>
    match cause with
    | .condemned _ => .next (if (s.core c).role < 2 then s0.modCore c fun k => { k with role := 3 } else s0)
    | _ => .next s
  | some x =>
    if s.remapDue c cause = false ∨ (s.core c).role ≠ 0 then .next s
    else match s0.spareFor c, cause with
      | some sp, .slow => .next ((s0.remapTo c sp x).slowRemapped c)
      | some sp, _ => .next (s0.remapTo c sp x)
      | none, .abft => .next s
      | none, .slow => .next s
      | none, _ => .next (s0.fenceCore c x)

/- Lantern (R399 to R402). -/

def State.lanternFull (s : State) : Bool := decide (16 ≤ s.lanternQ.length)

def State.lanternRefused (s : State) : State := s.wrBits 0x90044 8 8 1

/-- Frees an owned core for Lantern by a remap; none when no spare is free. A core in service without a context is neither
fenced nor spare. -/
def State.freeForLantern (s : State) (c : Fin 192) : Option State :=
  match (s.core c).ctx with
  | some x => (s.spareFor c).map fun sp => s.remapTo c sp x
  | none => if (s.core c).role = 1 ∨ (s.core c).role = 3 then some s else none

/-- LANTERN_CMD: a write of GLB_LANTERN_CMD by the physical function or the Gatehouse. -/
def execLanternCmd (w : Who) (value : Word) (s : State) : Result :=
  let v := value.toNat
  let unit := bitsOf v 7 0
  let groups := bitsOf v 22 16
  if !planeWrites w then .next s
  else if groups = 0 ∨ s.lanternFull = true then .next s.lanternRefused
  else if bitOf v 8 then
    if unit < 4 ∧ (s.toll (tollOf unit)).fenced = true then .next (s.queueSweep { toll := true, unit := unit, groups := groups })
    else .next s.lanternRefused
  else match coreOf? unit with
    | none => .next s.lanternRefused
    | some c => match s.freeForLantern c with
      | some t => .next (t.queueSweep { toll := false, unit := unit, groups := groups })
      | none => .next s.lanternRefused

/-- A queued item may start: its unit is fenced or spare, nothing runs on its unit or island. -/
def State.mayRun (s : State) (w : Sweep) : Bool :=
  if w.toll then decide (w.unit < 4) && (s.toll (tollOf w.unit)).fenced && !s.lanternRun.any fun r => r.toll && r.unit == w.unit
  else match coreOf? w.unit with
    | some c => (s.core c).ctx.isNone && ((s.core c).role == 1 || (s.core c).role == 3) &&
        !s.lanternRun.any fun r => !r.toll && r.unit / 8 == w.unit / 8
    | none => false

/-- The first item that may start and has no earlier item of its unit before it. -/
def State.pickSweep (s : State) : List Sweep → List Sweep → Option Sweep
  | _, [] => none
  | seen, w :: ws =>
    if (s.mayRun w && !seen.any fun r => r.toll == w.toll && r.unit == w.unit) = true then some w else s.pickSweep (w :: seen) ws

/-- LANTERN_SWEEP_START: at most four items run. -/
def execLanternSweepStart (s : State) : Result :=
  match s.pickSweep [] s.lanternQ with
  | none => .next s
  | some w =>
    if 4 ≤ s.lanternRun.length then .next s
    else .next { s with lanternQ := s.lanternQ.erase w, lanternRun := s.lanternRun ++ [w] }

def unitIsToll : LUnit → Bool
  | .core _ => false
  | .toll _ => true

def unitNum : LUnit → Nat
  | .core c => c.val
  | .toll t => t.val

/-- The running item of a unit. -/
def State.running (s : State) (u : LUnit) (cal : Bool) : Option Sweep :=
  s.lanternRun.find? fun w => w.toll == (unitIsToll u) && w.unit == (unitNum u) && w.cal == cal

/-- Sets fence bits of CORE_ARRAY_CFG as the module's (R78). -/
def Core.moduleFence (k : Core) (bit : Nat) : Core :=
  { k.wr 0x20200 (Nat.lor (k.rd 0x20200) (2 ^ bit)) with modFence := k.modFence ||| (1#5 <<< bit), degraded := true, role := 0 }

/-- Clears the fence bits that the module had set (R402). -/
def Core.clearFence (k : Core) : Core :=
  let cfg := k.rd 0x20200
  { k.wr 0x20200 (cfg - Nat.land cfg k.modFence.toNat) with modFence := 0, degraded := false, role := 1, slowFenced := false }

/-- The roles that an outcome gives a core (R402). -/
def Core.swept (k : Core) : SweepOutcome → Core
  | .pass => k.clearFence
  | .degradedQuad q => k.moduleFence q.val
  | .degradedShadow => k.moduleFence 4
  | .failed => { k with role := 3 }

/-- A failure in group 0, 5 or 6 taints the open step of every training context that ran work on the core (R392). -/
def State.taintRan (s : State) (c : Fin 192) (group : Nat) : State :=
  if group = 0 ∨ group = 5 ∨ group = 6 then
    allCtxs.foldl (fun s x =>
      if (s.ctx x).inStep ∧ (s.ctx x).decode = false ∧ (s.ctx x).ran.contains c.val = true then s.taintStep x 4 stFenced else s) s
  else s

def outcomeCode : SweepOutcome → Nat
  | .pass => 0 | .degradedQuad _ => 1 | .degradedShadow => 1 | .failed => 2

/-- GLB_LANTERN_RESULT, GLB_LANTERN_CELL and the log entry of a sweep. -/
def State.sweepResult (s : State) (u : LUnit) (o : SweepOutcome) (d : SweepDetail) : State :=
  let bad := o != .pass
  let word := 1 + b2n (unitIsToll u) * 2 + (unitNum u) * 4 + (outcomeCode o) * 2 ^ 10 + (if bad then d.group % 8 * 2 ^ 12 + d.format % 32 * 2 ^ 16 else 0)
  let cell := if bad then d.row % 128 + d.col % 128 * 2 ^ 8 + d.quad % 4 * 2 ^ 16 else 0
  ((s.wr 0x90048 word).wr 0x9004C cell).logFault
    { kind := 0x0C, unitType := if (unitIsToll u) then 5 else 1, unit := (unitNum u), detail0 := word, detail1 := cell }

/-- The end of a sweep with outcome `o` and first failure `d`. -/
def State.endSweep (s : State) (u : LUnit) (beats : Nat) (o : SweepOutcome) (d : SweepDetail) : State :=
  let s1 := s.sweepResult u o d
  match u with
  | .toll t =>
    let s2 := s1.modToll t fun k => k.bump64 0xA0020 beats
    if o = .pass then s2.modToll t fun k => { k with passed := true } else s2
  | .core c =>
    let s2 := s1.modCore c fun k => (k.beats beats).swept o
    let s3 := if o = .pass then s2 else s2.taintRan c d.group
    if o = .failed then s3.logFault { kind := 0x07, status := stFenced, unitType := 1, unit := c.val, detail0 := s3.rd 0x90048 } else s3

/-- LANTERN_SWEEP_END: `faults` are the lanes of the unit's array that form wrong products, which the sweep's product groups meet;
`o` and `d` are what its other groups found, whose patterns the spec does not give. -/
def execLanternSweepEnd (u : LUnit) (faults : List CellFault) (o : SweepOutcome) (d : SweepDetail) (s : State) : Result :=
  match s.running u false with
  | none => .next s
  | some w =>
    let (o1, d1) := sweepVerdict (unitIsToll u) w.groups faults o d
    .next ({ s with lanternRun := s.lanternRun.erase w }.endSweep u (groupBeats (unitIsToll u) w.groups) o1 d1)

/- Pace calibration (R443, R444). -/

/-- GLB_PACE_CAL_STATUS after a calibration or a refusal. -/
def State.calStatus (s : State) (c result : Nat) (corr : Int) : State :=
  s.wr 0x1000C (1 + c % 256 * 2 + result * 2 ^ 9 + (BitVec.ofInt 8 corr).toNat * 2 ^ 12)

/-- PACE_CAL: a write of GLB_PACE_CAL. -/
def execPaceCal (w : Who) (value : Word) (s : State) : Result :=
  let n := bitsOf value.toNat 7 0
  if !planeWrites w ∨ bitOf value.toNat 8 = false then .next s
  else if s.lanternFull then .next (s.calStatus n 2 0)
  else match coreOf? n with
    | none => .next (s.calStatus n 2 0)
    | some c => match s.freeForLantern c with
      | some t => .next (t.queueSweep { toll := false, unit := n, groups := 0, cal := true })
      | none => .next (s.calStatus n 2 0)

/-- The correction that makes a sensor reading `raw` read `pace`, in tenths of a percent, to the nearest (assumption 102). -/
def calTenths (raw pace : Nat) : Int := (((pace : Int) - raw) * 2000 + raw) / (2 * raw)

/-- A calibration fails (R444): the correction exceeds ±8.0 %, or the corrected pace lies more than 4 % below the typical pace
of the core's voltage and junction temperature. -/
def State.calFails (s : State) (c : Fin 192) (raw pace : Nat) : Bool :=
  let i := islandOf c
  decide (raw = 0 ∨ 8 * raw < 100 * (pace - raw) ∨ 8 * raw < 100 * (raw - pace)) ||
    belowBand (s.islandMv i) (s.island i).tj pace

/-- PACE_CAL_END. The calibration has run 1,048,576 beats of the array (R443). -/
def execPaceCalEnd (c : Fin 192) (raw pace : Nat) (s : State) : Result :=
  match s.running (.core c) true with
  | none => .next s
  | some w =>
    let s1 := ({ s with lanternRun := s.lanternRun.erase w }).modCore c fun k => k.beats 1048576
    if s.calFails c raw pace then
      let s2 := (s1.modCore c fun k => { k with role := 3 }).calStatus c.val 1 0
      .next (s2.logFault { kind := 0x07, status := stFenced, unitType := 1, unit := c.val, detail0 := s2.rd 0x1000C })
    else
      let tenths := calTenths raw pace
      let s2 := s1.modCore c fun k =>
        { k with correction := tenths, role := if k.slowFenced then 1 else k.role, slowFenced := false }
      .next (s2.calStatus c.val 0 tenths)

/- Restore (R412). -/

/-- RESTORE: for a parked or closed context without another snapshot operation. A parked context is closed first, and
nothing is written to the host. -/
def execRestore (w : Who) (x : Fin 64) (value : Word) (s : State) : Result :=
  if !planeWrites w then .next s
  else
    let k := s.ctx x
    let v := value.toNat
    let parked := k.state = .parkedBoundary ∨ k.state = .parkedMid
    if (k.state ≠ .closed ∧ ¬ parked) ∨ k.snap.phase ≠ 0 then .next (s.snapRefused x)
    else if bitOf v 9 ∧ k.snap.staged ≠ some (k.snap.gen (bitOf v 3)).step then
      .next (s.modCtx x fun k => k.modSnap fun p => { p with result := 7 })
    else
      let s1 := if parked then (s.modCtx x fun k => { k with orphaned := true }).closeCtx x else s
      .next (s1.modCtx x fun k => k.modSnap fun p => { p with phase := 3, restoreFunc := bitsOf v 8 4 })

/-- The core that carries a saved core: itself, or a free spare (R396) not yet taken. -/
def State.placeCores (s : State) : List Nat → List (Fin 192) → Option (List (Nat × Fin 192))
  | [], _ => some []
  | n :: ns, taken =>
    match coreOf? n with
    | none => none
    | some c =>
      let free := allCores.filter fun d => s.freeSpare d && !taken.contains d
      let own := (s.core c).role = 0 ∧ (s.core c).ctx = none
      let spare := match nearest c (free.filter fun d => d.val / 96 == c.val / 96) with
        | some d => some d
        | none => nearest c free
      match (if own then some c else spare) with
      | none => none
      | some d => (s.placeCores ns (d :: taken)).map fun l => (n, d) :: l

/-- A memory or register map from its saved entries. -/
def asMemory (l : List (Nat × Byte)) : Memory := SMap.setAll memDefault [] l
def asWords (l : List (Nat × Word)) : SMap Word := SMap.setAll (fun _ => 0) [] l

/-- A core image read back. -/
def Core.loadImage (k : Core) (v : SavedCore) : Core :=
  let slot (i : Nat) : Slot :=
    let img := (v.frames.find? fun p => p.1 == i).map (·.2)
    let mb := (v.armed.find? fun p => p.1 == i).map (·.2)
    { image := img, gen := v.gens.getD i 0, resident := v.resident.contains i
      parked := (v.parked.find? fun p => p.1 == i).map fun p => AccSet.ofNumbers p.2
      inst := match img, mb with
        | some _, some m => some (newInst m.1 m.2.1 m.2.2)
        | _, _ => none }
  let end_ (e : Fin 16) : Endpoint :=
    let q := ((v.queues.find? fun p => p.1 == e.val).map (·.2)).getD []
    { k.end_ e with
      queue := q.map fun h => if 16 ≤ h.2.2 then .token (h.1.setWidth 8) else .handle h.1 h.2.1 h.2.2
      busy := q.foldl (fun b h => b ||| (1#16 <<< h.2.2)) 0 }
  let k1 : Core := { k with
    sp := asMemory v.sp, dmem := asMemory v.dmem, imem0 := asWords v.imem0, imem1 := asWords v.imem1
    slots := Vector.ofFn fun i : Fin 8 => slot i.val
    mask := Vector.ofFn fun i : Fin 16 => if i = 0 then BitVec.allOnes 128 else v.masks.getD i.val (BitVec.allOnes 128)
    soft := v.soft, softFill := v.softFill, flipPending := v.flip, admitQ := v.admitted, fwdDone := v.declared, ends := Vector.ofFn end_
    stw := { k.stw with
      g := Vector.ofFn fun i : Fin 32 => if i = 0 then 0 else v.g.getD i.val 0
      pc := v.pc, fflags := v.fflags, events := v.events, bank := v.bank } }
  let k2 := (v.bqCfg.zipIdx.take 16).foldl (fun k p => k.wr (0x20640 + 4 * p.2) p.1.toNat) k1
  k2.wr 0x20600 v.fill.toNat

/-- A descriptor read back. -/
def savedDesc (p : Nat × Nat × List Byte) : DescRef := { ring := p.1, idx := p.2.1, bytes := p.2.2 }

/-- A region opened with its saved attributes and contents: a tile slot is CLEAN, since near copy and home are both written,
or POISONED as entered. A cellar region's contents are in the stored form. -/
def State.loadRegion (s : State) (x : Fin 64) (v : SavedRegion) : Option State :=
  let g := regionOf x { ring := 0, idx := 0, bytes := v.attrs }
  if (s.regionRefusal g).isSome then none
  else
    let s1 := ({ s with regions := s.regions ++ [g] }).zero g.base g.bytes
    let s2 : State := { s1 with mem := SMap.setAll memDefault s1.mem (v.data.map fun p => (g.base + p.1, p.2)) }
    if !g.tiled then some s2
    else
      let one (s : State) (n : Nat) : State :=
        let slot := g.base + n * g.slotBytes
        let coded := if g.kind = 2 then g.home + n * g.slotBytes else slot
        let t := s.mem.readRun slot g.slotBytes
        let s1 := if g.kind = 2 then s.prepaid fun s => s.storeTile coded t else s
        let h := s1.mem.readRun coded 64
        let code := if g.kind = 1 then (0, 0) else (tileComp h, tileStoredBytes h)
        let st : SlotSt := if v.poisoned.contains n then .poisoned else .clean
        s1.setDir slot { st := st, gen := tileGen t, comp := code.1, stored := code.2 }
      some ((List.range g.slots).foldl one s2)

def State.loadRegions (s : State) (x : Fin 64) : List SavedRegion → Option State
  | [] => some s
  | v :: vs => match s.loadRegion x v with
    | some t => t.loadRegions x vs
    | none => none

/-- The position records of a restored context (R106): one that differs from the derived position is logged and counted,
and the derived position is used. DETAIL0 is GLB_RNG_LAST, and DETAIL1 holds the stored step in bits [39:0] and bits [31:16]
of the stored count in bits [55:40], a layout that the spec does not give (assumption 107). -/
def State.checkRng (s : State) (x : Fin 64) (step : Nat) (r : Nat × Nat × Nat) : State :=
  if r.2.1 = step ∧ r.2.2 = 0 then s
  else
    let s1 := s.bumpField 0x90300 15 0 1
    let s2 := s1.wr 0x90304 (r.1 % 256 + x.val * 2 ^ 8 + r.2.2 % 65536 * 2 ^ 16)
    s2.logFault { kind := 0x0F, ctx := some x, detail0 := s2.rd 0x90304, detail1 := r.2.1 % 2 ^ 40 + r.2.2 / 65536 % 65536 * 2 ^ 40 }

/-- The state records of a restored context beside its cores and regions: counters, windows with their generations, streams,
micro-batches of the next step, Tollhouse rule state. -/
def State.loadRecords (s : State) (x : Fin 64) (v : Saved) : State :=
  let win (b : List Byte) : Window :=
    let d : DescRef := { ring := 0, idx := 0, bytes := b }
    { id := d.bits 8 2 11 0, gen := d.bits 0x0C 4 19 0, ctx := x.val, base := d.le 0x10 6, size := d.le 0x18 3 * 4096,
      target := d.bits 0x0A 1 2 0, op := d.bits 0x0A 1 4 3, fmt := d.le 0x0B 1, read := bitOf (d.le 0x0A 1) 5 }
  let set {α : Type} [DecidableEq α] (m : SMap (List α)) (l : List (Nat × List α)) : SMap (List α) := SMap.setAll (fun _ => []) m l
  let s1 : State := { s with
    cc := SMap.setAll (fun _ => 0) s.cc v.counters
    windows := s.windows ++ v.windows.map win
    layerTab := set s.layerTab v.layers
    ruleTab := set s.ruleTab v.rules
    lossGate := {
      valid := v.emaValid, warm := v.warm, decided := v.gate.1, tripped := v.gate.2.1, waitExpired := v.gate.2.2
      cur := LossSum.restored v.curLoss, next := LossSum.restored v.nextLoss }
    stepSh := SMap.setAll noReg s.stepSh (v.record.zipIdx.map fun p => (0x80000 + 64 * x.val + 4 * p.2, p.1)) }
  let s2 := s1.wr 0xA800C v.ema.toNat
  let s3 := v.layerState.foldl (fun s p => s.modLayer p.1 fun l => { l with t := p.2.1, rms := p.2.2 }) s2
  let s4 := v.streams.foldl (fun s p =>
    let d := savedDesc p
    s.setStream x (d.bits 8 1 5 0) { st := .idle, set := some d }) s3
  let mbs := v.microbatches.map fun p =>
    let d := savedDesc p
    newMb (d.le 0x10 2) (d.le 8 5) (d.le 0x18 6) (some d) false
  s4.modCtx x fun k => { k with mbs := mbs }

/-- The end of a restore that failed: RESULT, and the context is closed. -/
def State.restoreFailed (s : State) (x : Fin 64) (result : Nat) : State :=
  (s.modCtx x fun k => k.modSnap fun p => { p with phase := 0 }).snapFailed x result

/-- Steps 3 to 7 of R412: the context parks at the boundary of the ledger's step, reclaimed by the named function. -/
def State.restoreInto (s : State) (x : Fin 64) (v : Saved) : Option State :=
  let fn := (s.ctx x).snap.restoreFunc
  let snap := (s.ctx x).snap
  let own := (openCores v.params).filter fun c => decide ((s.core c).role = 0 ∧ (s.core c).ctx = none)
  match s.placeCores ((openCores v.params).map (·.val)) [], s.openCheck fn x.val v.params own with
  | some places, .inr p =>
    let s1 := s.openCtx fn x v.params (places.map (·.2)) p
    let alias_ (s : State) (q : Nat × Fin 192) : State :=
      if q.1 = q.2.val then s
      else match coreOf? q.1 with
        | some c => (s.modCore c fun k => { k with aliasTo := some q.2 }).modCore q.2 fun k => { k with role := 0 }
        | none => s
    let load (s : State) (q : Nat × Fin 192) : State :=
      match v.cores.find? fun k => k.core == q.1 with
      | some img => s.modCore q.2 fun k => k.loadImage img
      | none => s
    let s2 := places.foldl load (places.foldl alias_ s1)
    match s2.loadRegions x v.regions with
    | none => none
    | some s3 =>
      let s4 := v.rng.foldl (fun s r => s.checkRng x v.step r) (s3.loadRecords x v)
      let s5 := s4.modFn (fnOf fn) fun k => k.wr 0x69004 v.leaseMs
      some (s5.modCtx x fun k =>
        { k with
          state := .parkedBoundary, step := some v.step, anyStep := true, inStep := false, reclaimed := true, orphaned := true
          snap := { snap with phase := 0, result := 1, lastEnd := s.time, now := false } })
  | _, _ => none

def restoreCode : RestoreEnd → Nat
  | .ok => 1 | .version => 2 | .signature => 3 | .digest => 4 | .source => 6

/-- RESTORE_COMPLETE; `v` is what the source delivered. -/
def execRestoreComplete (x : Fin 64) (r : RestoreEnd) (v : Saved) (s : State) : Result :=
  if (s.ctx x).snap.phase ≠ 3 then .next s
  else if r ≠ .ok then .next (s.restoreFailed x (restoreCode r))
  else match s.restoreInto x v with
    | some t => .next t
    | none => .next (s.restoreFailed x 5)

end Sys2Proof.Machine
end

