-- ==== Sys2Proof/Machine/Registers.lean ====
section
/-! DEFINITION. The BAR0 registers: who reaches which block, what each register reads, what a write does (Chapter 18 and the
register tables of the other chapters). -/

namespace Sys2Proof.Machine

/- Readers and units. -/

/-- The view of a reader: the live value, the window shadow or the step shadow (R386). The Gatehouse reads live. -/
def State.viewOf (s : State) : Who → Nat
  | .fn f => bitsOf ((s.fn f).rd 0x70034) 1 0
  | .gate => 0

/-- The unit selection of a function (R324). -/
def Fn.selects (k : Fn) : Selects :=
  { core := k.rd 0x10100, chan := k.rd 0x10104, port := k.rd 0x10108, toll := k.rd 0x1010C, island := k.rd 0x10110 }

def chanOf? (n : Nat) : Option (Fin 208) := if h : n < 208 then some ⟨n, h⟩ else none
def tollOf? (n : Nat) : Option (Fin 4) := if h : n < 4 then some ⟨n, h⟩ else none
def islandOf? (n : Nat) : Option (Fin 24) := if h : n < 24 then some ⟨n, h⟩ else none

/-- Offset `off` lies from `lo` up to and not including `hi`. -/
def within (lo hi off : Nat) : Bool := decide (lo ≤ off) && decide (off < hi)

/-- A value read under a view: 3 reads as zero (Table 14.5). -/
def viewed (view : Nat) (live win step : Nat) : Nat :=
  match view with
  | 0 => live
  | 1 => win
  | 2 => step
  | _ => 0

/-- A counter of a unit under a view. -/
def viewedReg (view : Nat) (live win step : Regs) (off : Nat) : Nat :=
  viewed view (Regs.rd noReg live off) (Regs.rd noReg win off) (Regs.rd noReg step off)

/-- The context that holds completion counter `n` (R295). -/
def State.counterOwner (s : State) (n : Nat) : Option (Fin 64) :=
  allCtxs.find? fun x =>
    let k := s.ctx x
    k.state != .closed && decide (k.ccFirst ≤ n) && decide (n < k.ccFirst + k.ccCount)

/-- Context x's registers are seen by their owner and the Gatehouse, and, with `pf`, by the physical function (R214, R340,
R365, R413). -/
def State.seesCtx (s : State) (w : Who) (pf : Bool) (x : Option (Fin 64)) : Bool :=
  match w with
  | .gate => true
  | .fn f => (pf && f == 0) || (match x with
    | some x => s.ownsCtx f x
    | none => false)

/-- A per-function register is read by a function (Table 18.2). -/
def isFn : Who → Bool
  | .fn _ => true
  | .gate => false

/-- The ring of a ring-register offset: its context. -/
def State.ringCtx (s : State) (off : Nat) : Option (Fin 64) :=
  let r := ringOf (off % 0x1000 / 16)
  if off < 0x61000 then (s.sq r).ctx else (s.cq r).ctx

/-- Whether a reader reads the register at an offset, and not zero (R4, R324, R453; Table 18.2). -/
def State.mayRead (s : State) (w : Who) (sel : Selects) (off : Nat) : Bool :=
  if off < 0x100 then true
  else if within 0x1000 0x1100 off || within 0x10000 0x10010 off then planeWrites w
  else if within 0x10100 0x10210 off || within 0x18000 0x1C040 off || within 0x69000 0x69010 off then isFn w
  else if within 0x14000 0x18000 off then s.seesCtx w false (s.counterOwner ((off - 0x14000) / 4))
  else if within 0x20000 0x30000 off then
    match coreOf? sel.core with
    | some c => (s.core c).role != 2 && s.owns w (s.core c).ctx
    | none => false
  else if within 0x30000 0x40000 off then planeWrites w && (chanOf? sel.chan).isSome
  else if within 0x40000 0x50000 off then planeWrites w && (portOf? sel.port).isSome
  else if within 0x50000 0x60000 off then planeWrites w
  else if within 0x60000 0x62000 off then s.seesCtx w false (s.ringCtx off)
  else if within 0x62000 0x62400 off then s.seesCtx w false (ctxOf? ((off - 0x62000) / 16))
  else if within 0x68000 0x68800 off then s.seesCtx w false (ctxOf? ((off - 0x68000) / 32))
  else if within 0x69100 0x6910C off then true
  else if within 0x69200 0x69300 off then s.seesCtx w true (ctxOf? ((off - 0x69200) / 4))
  else if within 0x70000 0x7003C off then true
  else if within 0x70100 0x7010C off then (islandOf? sel.island).isSome
  else if within 0x80000 0x81000 off then s.seesCtx w true (ctxOf? ((off - 0x80000) / 64))
  else if within 0x90000 0x90C00 off then planeWrites w
  else if within 0x91000 0x92000 off then s.seesCtx w true (ctxOf? ((off - 0x91000) / 64))
  else if within 0xA0000 0xA0030 off then planeWrites w && (tollOf? sel.toll).isSome
  else within 0xA8000 0xA801C off && planeWrites w

/- What each register reads. -/

/-- Bitmap word `i` of a list of cores. -/
def coreBitmap (l : List Nat) (i : Nat) : Nat := (List.range 32).foldl (fun n b => n + b2n (l.contains (32 * i + b)) * 2 ^ b) 0

/-- The identity and capability block (Table 18.3). -/
def Mfg.word (m : Mfg) (off : Nat) : Nat :=
  if off = 0 then 0x40 + m.variant % 16 * 2 ^ 16 + m.stepping % 256 * 2 ^ 24
  else if off = 4 then 1
  else if off = 8 ∨ off = 0xC then 0x01010101
  else if off = 0x10 then m.serial % 2 ^ 32
  else if off = 0x14 then m.serial / 2 ^ 32 % 2 ^ 32
  else if off = 0x18 then 0xC0 + (192 - m.fused.length - m.spares.length) % 256 * 2 ^ 8 + 0x0C * 2 ^ 16
  else if off = 0x1C then 0x08000300
  else if off = 0x20 then 0x04242040
  else if within 0x40 0x58 off then coreBitmap m.fused ((off - 0x40) / 4)
  else if within 0x60 0x78 off then coreBitmap m.spares ((off - 0x60) / 4)
  else 0

/-- IMAGE_VERSION of an image (R427). -/
def ImageSlot.version (i : ImageSlot) : Nat := i.bytes.readLE 4 4

def ImageType.slot (t : ImageType) (b : Bool) : ImageSlot := if b then t.b else t.a

/-- The Gatehouse's registers (Table 16.6). -/
def State.gateWord (s : State) (off : Nat) : Nat :=
  let g := s.gatehouse
  let tcp := (g.sessions.filter fun q => q.transport == .tcp).length
  if off = 0x1000 then bitsOf (s.rd 0x1000) 0 0 + tcp % 8 * 2 + g.anchors.length % 8 * 16 + b2n g.collector.isSome * 128 + g.i3c.toNat * 256
  else if off = 0x1008 then g.nextReport
  else if off = 0x100C then g.acked
  else if within 0x1020 0x1038 off then
    let t := g.images.getD ((off - 0x1020) / 8) (shippedType 0)
    if off % 8 = 0 then
      b2n (t.running == some true) + b2n t.committed * 2 + b2n t.trial * 4 + b2n t.a.valid * 8 + b2n t.b.valid * 16 + t.fused % 128 * 256
    else match t.running with
      | some b => (t.slot b).version
      | none => 0
  else s.rd off

/-- STATE of CORE_CARAVAN_STATUS. -/
def CarState.code : CarState → Nat
  | .unbound => 0
  | .bound => 1
  | .hold => 2
  | .fenced => 3

/-- CORE_CARAVAN_STATUS (Table 7.7); an unbound port reads its reset value. -/
def Core.carStatus (k : Core) : Nat :=
  let head := match k.car.tiles with
    | t :: _ => t.tag.toNat
    | [] => if k.car.state = .unbound then 0 else 0xFFFF
  k.car.state.code + k.car.tiles.length % 8 * 4 + k.car.owed % 256 * 2 ^ 8 + head * 2 ^ 16

/-- CORE_PORTER_STATUS (Table 7.7). -/
def Core.porterStatus (k : Core) : Nat :=
  k.porterQ.length % 32 + (k.porterQ.filter fun j => j.urgent).length % 32 * 2 ^ 8

/-- CORE_BQ_STATUS of endpoint `e` (Table 7.10); an endpoint that does not receive has no free slot. -/
def Core.bqStatus (k : Core) (e : Nat) : Nat :=
  let q := k.ends.getD e {}
  let cfg := k.rd (0x20640 + 4 * e)
  let receives := bitOf cfg 28 && bitsOf cfg 27 17 != 0
  let used := ((List.range 16).filter fun i => q.busy.getLsbD i).length
  let token : Bool := match q.queue with
    | .token _ :: _ => true
    | _ => false
  q.queue.length % 32 + (if receives then (16 - used) * 2 ^ 8 else 0) + b2n token * 2 ^ 16

/-- Counters of the core window (Tables 2.7, 3.8, 3.9, 4.7, 5.14, 6.16 and 7.8). -/
def coreCounter (off : Nat) : Bool :=
  within 0x20100 0x20108 off || off == 0x20210 || within 0x20218 0x20230 off || within 0x20300 0x20310 off ||
    within 0x20434 0x20448 off || off == 0x20508 || within 0x20610 0x20634 off

/-- SHAPES of CORE_ARRAY_CFG (Table 3.4). -/
def shapesOf (cfg : Nat) : Nat :=
  match ((List.range 4).filter fun q => bitOf cfg q).length with
  | 0 => 0
  | 1 => 1
  | _ => 2

/-- A register of the core window. -/
def State.coreWord (s : State) (view : Nat) (c : Fin 192) (off : Nat) : Nat :=
  let k := s.core c
  if coreCounter off then viewedReg view k.regs k.win k.stepSh off
  else if off = 0x20200 then bitsOf (k.rd off) 4 0 + shapesOf (k.rd off) * 2 ^ 8
  else if off = 0x20400 then b2n k.stw.bank + b2n k.flipPending * 4
  else if off = 0x20404 then k.stwStatus
  else if within 0x20410 0x20430 off then k.frameStatus ⟨(off - 0x20410) / 4 % 8, Nat.mod_lt _ (by decide)⟩
  else if off = 0x20430 then 1 + bitsOf k.soft.toNat 11 1 * 2
  else if off = 0x20604 then k.carStatus
  else if off = 0x2060C then k.porterStatus
  else if within 0x20680 0x206C0 off then k.bqStatus ((off - 0x20680) / 4)
  else k.rd off

/-- A register of the channel window (Tables 9.10 to 9.12). -/
def State.chanWord (s : State) (view : Nat) (c : Fin 208) (off : Nat) : Nat :=
  let k := s.chan c
  if off = 0x30000 then s.chanInfo c
  else if off = 0x30008 then k.svc + k.rd off
  else if within 0x30010 0x3002C off || within 0x30140 0x30180 off then viewedReg view k.regs k.win k.stepSh off
  else k.rd off

/-- A register of the port window (Tables 10.9 and 10.10). -/
def State.portWord (s : State) (view : Nat) (p : Fin 36) (off : Nat) : Nat :=
  let k := s.port p
  if off = 0x40000 then k.status else if off = 0x40008 then k.link
  else if within 0x40010 0x40038 off then viewedReg view k.regs k.win k.stepSh off
  else 0

/-- A register of the routing block (Tables 10.11 and 10.12). -/
def State.fabricWord (s : State) (off : Nat) : Nat :=
  if off = 0x50004 then s.rtblEpoch else if off = 0x5000C then s.drainCount % 2 ^ 24
  else if off = 0x50018 then s.checksum else s.rd off

/-- A ring register (Table 12.10). -/
def State.ringWord (s : State) (off : Nat) : Nat :=
  let r := ringOf (off % 0x1000 / 16)
  if off % 16 ≠ 12 then s.rd off
  else if off < 0x61000 then
    let k := s.sq r
    let owner := match k.ctx with
      | some x => x.val * 2 ^ 18 + 2 ^ 24
      | none => 0
    k.head % 2 ^ 16 + b2n k.out.isEmpty * 2 ^ 16 + b2n k.badDb * 2 ^ 17 + owner
  else (s.cq r).tail % 2 ^ 16 + (s.cq r).head % 2 ^ 16 * 2 ^ 16

/-- STATE of a stream (Table 12.11). -/
def StreamSt.code : StreamSt → Nat
  | .undefined => 0
  | .idle => 1
  | .busy => 2
  | .latched => 3

/-- INNK_STREAM_STATEi of a context. -/
def State.streamWord (s : State) (x : Fin 64) (i : Nat) : Nat :=
  (List.range 16).foldl (fun n j => n + (s.stream x (16 * i + j)).st.code * 2 ^ (2 * j)) 0

/-- STATE of a lease. -/
def Lease.code : Lease → Nat
  | .inactive => 0
  | .active => 1
  | .expired => 2

/-- A register that each function has for itself (Tables 12.8, 12.9, 13.5, R339). -/
def State.fnWord (s : State) (f : Fin 32) (off : Nat) : Nat :=
  let k := s.fn f
  if off = 0x10200 then
    let secure := (List.finRange 9).any fun i => s.gatehouse.ide[i]
    (if s.power.link then s.power.width % 32 + s.power.rate % 8 * 2 ^ 5 else 0) + b2n secure * 2 ^ 8
  else if off = 0x69000 then 0
  else if off = 0x69008 then k.lease.code
  else if off = 0x6900C then min 0xFFFF (if k.lease = .inactive then 0 else (s.time - k.beatAt) / 1000)
  else k.rd off

/-- INNK_CTX_STATE (Table 13.7). -/
def State.ctxStateWord (s : State) (x : Fin 64) : Nat :=
  let k := s.ctx x
  k.state.code + (if k.state = .closed then 0 else k.fn % 32 * 2 ^ 8 + b2n k.decode * 2 ^ 13 + k.orphan % 4 * 2 ^ 14 + b2n k.inStep * 2 ^ 16)

/-- An energy register (Table 13.6). -/
def State.energyWord (s : State) (view off : Nat) : Nat :=
  if off = 0x69104 then
    let v := s.rd off
    bitsOf v 15 0 + s.committed / 1000000 % 2 ^ 15 * 2 ^ 16 + bitsOf v 31 31 * 2 ^ 31
  else if off = 0x69108 then viewedReg view s.regs s.win s.stepSh off
  else s.rd off

/-- A register of the island window (Tables 2.3 and 14.6). -/
def State.islandWord (s : State) (i : Fin 24) (off : Nat) : Nat :=
  let k := s.island i
  if off = 0x70100 then k.pace.toNat
  else if off = 0x70104 then s.islandMv i % 2 ^ 10 + k.offset % 64 * 2 ^ 16
  else k.tj % 256 + k.amps % 256 * 2 ^ 8 + b2n (s.islandGated i) * 2 ^ 16

/-- GLB_CORE_MAP of a core (Table 15.6). -/
def State.coreMap (s : State) (c : Fin 192) : Nat :=
  let k := s.core c
  let mine (w : Sweep) : Bool := !w.toll && w.unit == c.val
  let dest := match k.aliasTo with
    | some d => d.val
    | none => 0xFF
  let owner := match k.ctx with
    | some x => x.val * 2 ^ 16 + 2 ^ 22
    | none => 0
  k.role % 4 + b2n k.degraded * 4 + b2n (s.lanternQ.any mine) * 8 + b2n (s.lanternRun.any mine) * 16 + dest * 2 ^ 8 + owner

/-- Dirty bytes of the module (R239). -/
def State.dirtyBytes (s : State) : Nat := ((s.regions.filter fun r => r.kind == 2).map s.dirtyBytesOf).foldl (· + ·) 0

/-- A register of the RAS block (Tables 4.4, 4.5, 9.13 and 15.6). -/
def State.rasWord (s : State) (off : Nat) : Nat :=
  if within 0x90010 0x90030 off then
    let e := SMap.get (fun _ => []) s.faultLog (bitsOf (s.rd 0x90008) 15 0 % 1024)
    leNat ((e.drop (off - 0x90010)).take 4)
  else if off = 0x90044 then s.lanternQ.length % 32 + s.lanternRun.length % 8 * 2 ^ 5 + bitsOf (s.rd off) 8 8 * 2 ^ 8
  else if off = 0x90400 then s.dirSlots % 2 ^ 28
  else if off = 0x90404 then ceilDiv s.dirtyBytes (2 ^ 20) % 2 ^ 20
  else if off = 0x90408 then (s.dir.filter fun e => e.2.st == .poisoned).length % 2 ^ 32
  else if within 0x90800 0x90B00 off then
    match coreOf? ((off - 0x90800) / 4) with
    | some c => s.coreMap c
    | none => 0
  else s.rd off

/-- SNAP_STATUS (Table 15.7). -/
def Ctx.snapStatus (k : Ctx) : Nat :=
  let p := k.snap
  p.phase % 4 + b2n k.tainted * 4 + k.taintCause % 8 * 8 + b2n p.gen0.complete * 2 ^ 6 + b2n p.gen1.complete * 2 ^ 7 +
    b2n p.gen0.confirmed * 2 ^ 8 + b2n p.gen1.confirmed * 2 ^ 9 + b2n p.newest * 2 ^ 10 + p.result % 16 * 2 ^ 11

/-- A register of a context's snapshot block. -/
def State.snapWord (s : State) (x : Fin 64) (r : Nat) : Nat :=
  let p := (s.ctx x).snap
  match r with
  | 0x24 => (s.ctx x).snapStatus
  | 0x28 => p.lastStop.getD 0 % 2 ^ 32
  | 0x30 => p.gen0.step % 2 ^ 32
  | 0x34 => p.gen1.step % 2 ^ 32
  | 0x3C => s.snapBytes x / 2 ^ 20 % 2 ^ 20
  | _ => s.rd (snapOff x r)

/-- Counters of the Tollhouse window (Table 11.7). -/
def tollCounter (off : Nat) : Bool := within 0xA0008 0xA0028 off || off == 0xA002C

/-- TOLL_STATUS (Table 11.7). -/
def State.tollStatus (s : State) (t : Fin 4) : Nat :=
  let k := s.toll t
  let mine := s.validLayers.filter fun p => s.servedBy (leToll p.2) == t
  let arriving := (mine.filter fun p => (s.layer p.1).st == .arriving).length
  let st := if k.fenced then 3 else match k.current with
    | some _ => 2
    | none => if arriving = 0 then 0 else 1
  let gateWait := !k.queue.isEmpty && bitOf (Regs.rd glbReset s.tollRegs 0xA8000) 1 && !s.lossGate.decided
  st + b2n gateWait * 4 + min arriving 255 * 2 ^ 8 + k.current.getD 0 % 4096 * 2 ^ 16

/-- A register of the Tollhouse window. -/
def State.tollWord (s : State) (view : Nat) (t : Fin 4) (off : Nat) : Nat :=
  let k := s.toll t
  if tollCounter off then viewedReg view k.latched k.win k.stepSh off
  else if off = 0xA0000 then s.tollStatus t
  else k.rd off

/-- A module-wide Tollhouse register (Table 11.8). -/
def State.lossWord (s : State) (off : Nat) : Nat :=
  if off = 0xA8018 then
    let g := s.lossGate
    min g.cur.records 0xFFFF + b2n g.decided * 2 ^ 16 + b2n g.tripped * 2 ^ 17 + b2n g.waitExpired * 2 ^ 18 + b2n g.valid * 2 ^ 19 + g.warm % 256 * 2 ^ 20
  else s.rd off

/-- Reads with the unit that a select names, zero without one. -/
def atUnit {α : Type} (u : Option α) (f : α → Nat) : Nat :=
  match u with
  | some a => f a
  | none => 0

/-- What a register reads to a reader that may read it; a HI register's latch is not looked at. -/
def State.rawRead (s : State) (w : Who) (sel : Selects) (off : Nat) : Nat :=
  let view := s.viewOf w
  if off < 0x100 then s.mfg.word off
  else if within 0x1000 0x1100 off then s.gateWord off
  else if within 0x14000 0x18000 off then (SMap.get noReg s.cc ((off - 0x14000) / 4)).toNat
  else if within 0x10100 0x1C040 off || within 0x69000 0x69010 off then
    match w with
    | .fn f => s.fnWord f off
    | .gate => 0
  else if within 0x20000 0x30000 off then atUnit (coreOf? sel.core) fun c => s.coreWord view c off
  else if within 0x30000 0x40000 off then atUnit (chanOf? sel.chan) fun c => s.chanWord view c off
  else if within 0x40000 0x50000 off then atUnit (portOf? sel.port) fun p => s.portWord view p off
  else if within 0x50000 0x60000 off then s.fabricWord off
  else if within 0x60000 0x62000 off then s.ringWord off
  else if within 0x62000 0x62400 off then atUnit (ctxOf? ((off - 0x62000) / 16)) fun x => s.streamWord x (off % 16 / 4)
  else if within 0x68000 0x68800 off then
    atUnit (ctxOf? ((off - 0x68000) / 32)) fun x =>
      viewed view (s.stashWord x (off % 32 / 4)) (Regs.rd noReg s.win off) (Regs.rd noReg s.stepSh off)
  else if within 0x69100 0x6910C off then s.energyWord view off
  else if within 0x69200 0x69300 off then atUnit (ctxOf? ((off - 0x69200) / 4)) s.ctxStateWord
  else if off = 0x70000 then s.hearthStatus
  else if off = 0x70034 then view
  else if within 0x70100 0x7010C off then atUnit (islandOf? sel.island) fun i => s.islandWord i off
  else if within 0x80000 0x81000 off then
    atUnit (ctxOf? ((off - 0x80000) / 64)) fun x =>
      viewed view ((s.stepRecord x).getD (off % 64 / 4) 0) (Regs.rd noReg s.win off) (Regs.rd noReg s.stepSh off)
  else if within 0x90000 0x90C00 off then s.rasWord off
  else if within 0x91000 0x92000 off then atUnit (ctxOf? ((off - 0x91000) / 64)) fun x => s.snapWord x (off % 64)
  else if within 0xA0000 0xA0030 off then atUnit (tollOf? sel.toll) fun t => s.tollWord view t off
  else if within 0xA8000 0xA801C off then s.lossWord off
  else s.rd off

/-- LO registers, each with its HI register 4 bytes on (R42, R77, R198, R293, Table 11.7). -/
def loRegs : List Nat := [0x20100, 0x20218, 0x20220, 0x20610, 0x2061C, 0x40024, 0x4002C, 0xA0020]

/-- The HI latches of a reader. -/
def State.latches (s : State) : Who → Regs
  | .fn f => (s.fn f).latch
  | .gate => s.gatehouse.latch

def State.setLatch (s : State) (w : Who) (off v : Nat) : State :=
  match w with
  | .fn f => s.modFn f fun k => { k with latch := Regs.wr noReg k.latch off v }
  | .gate => { s with gatehouse := { s.gatehouse with latch := Regs.wr noReg s.gatehouse.latch off v } }

/-- A read of one dword: its value, with the latch that a read of a LO register takes (R452). -/
def State.readReg (s : State) (w : Who) (sel : Selects) (off : Nat) : Nat × State :=
  if !s.mayRead w sel off then (0, if loRegs.contains off then s.setLatch w (off + 4) 0 else s)
  else if loRegs.contains off then (s.rawRead w sel off, s.setLatch w (off + 4) (s.rawRead w sel (off + 4)))
  else if loRegs.contains (off - 4) then (Regs.rd noReg (s.latches w) off, s)
  else (s.rawRead w sel off, s)

/- Writes. -/

/-- Clears bit `b` of `v` where the written value has it set. -/
def clearBit (v w b : Nat) : Nat := if bitOf w b ∧ bitOf v b then v - 2 ^ b else v

/-- Clears a record's VALID in bit 0 with its OVERFLOW field. -/
def clearRecord (v w hi lo : Nat) : Nat := if bitOf w 0 then clearBit v w 0 - bitsOf v hi lo * 2 ^ lo else v

/-- A write to a core register that is stored or clears bits, by a writer that it takes. `plane` says that the writer is the
physical function or the Gatehouse, `phys` the physical function. -/
def Core.store (k : Core) (plane phys : Bool) (off v : Nat) : Core :=
  let old := k.rd off
  if off = 0x20108 then (if plane then k.wr off (max 1 (v % 2 ^ 24)) else k)
  else if off = 0x2010C then (if plane then k.wr off (clearRecord old v 7 4) else k)
  else if off = 0x20200 then (if plane then k.wr off (Nat.lor (v % 32) k.modFence.toNat) else k)
  else if off = 0x20204 then k.wr off (max 1 (v % 256) + bitsOf v 12 8 * 2 ^ 8)
  else if off = 0x20208 then k.wr off (clearRecord old v 11 8)
  else if off = 0x20500 then (if plane then k.wr off (clearRecord old v 7 4) else k)
  else if off = 0x20600 then (if phys then k.wr off v else k)
  else if off = 0x20608 then k.carCtl v
  else if within 0x20640 0x20680 off then
    let q := k.ends.getD ((off - 0x20640) / 4) {}
    let handles := q.queue.any fun i => match i with
      | .handle _ _ _ => true
      | .token _ => false
    if handles || q.busy != 0 then k else k.wr off (v % 2 ^ 30)
  else if off = 0x20720 then
    if plane && bitOf v 0 then (List.range 8).foldl (fun k i => k.wr (0x20700 + 4 * i) 0) (k.wr off (clearRecord old v 7 4)) else k
  else k

/-- A write to the core window (R4, R78, R124, R198). -/
def State.writeCoreReg (s : State) (w : Who) (c : Fin 192) (off v : Nat) : Result :=
  if off = 0x20400 then (if bitOf v 1 then s.coreWrite w c Core.requestFlip else .next s)
  else if off = 0x20408 then
    s.coreWrite w c fun k =>
      let k1 := if bitOf v 0 then k.stewardStart else k
      if bitOf v 1 then k1.stewardStop else k1
  else s.coreWrite w c fun k => k.store (planeWrites w) (w == .fn 0) off v

/-- A write to the channel window. -/
def State.writeChanReg (s : State) (w : Who) (c : Fin 208) (off v : Nat) : Result :=
  if off = 0x30004 then
    (match v % 8 with
      | 1 => .next (s.requestService w c 1)
      | 2 => .next (s.requestService w c 2)
      | _ => .next s)
  else if within 0x30100 0x30140 off then .next (if planeWrites w then s.modChan c fun k => k.wr off (v % 2 ^ 25) else s)
  else .next s

/-- A write to the port window. -/
def State.writePortReg (s : State) (w : Who) (p : Fin 36) (off v : Nat) : Result :=
  if off ≠ 0x40004 then .next s
  else match v % 4 with
    | 1 => execPortRetrain w p s
    | 2 => execPortOutOfService w p s
    | 3 => execPortReturnToService w p s
    | _ => .next s

/-- A write to RTBL_CMD. -/
def State.writeTableCmd (s : State) (w : Who) (v : Nat) : Result :=
  match v % 8 with
  | 1 => execBeginLoad w (BitVec.ofNat 8 (bitsOf v 15 8)) s
  | 2 => execLoadDone w s
  | 3 => execFlip w s
  | 4 => execRetire w s
  | 5 => execForceRetire w s
  | 6 => execAbandonLoad w s
  | _ => .next s

/-- The value that a write leaves in a module register that is only stored or cleared; none where the register takes no
write. -/
def glbStored (old off v : Nat) : Option Nat :=
  if off = 0x1000C ∨ off = 0x90048 then some (clearBit old v 0)
  else if off = 0x5001C then some (v % 2 ^ 16 + bitsOf (clearBit old v 16) 16 16 * 2 ^ 16)
  else if off = 0x50020 ∨ off = 0x50028 ∨ off = 0x90008 then some (v % 2 ^ 16)
  else if off = 0x5002C then some (clampNat 1 10000 (v % 2 ^ 14))
  else if off = 0x69100 then some (v % 2 ^ 16 + max 1 (bitsOf v 31 16) * 2 ^ 16)
  else if off = 0x70008 then some (clampNat 500 2800 (v % 2 ^ 12) + bitsOf v 23 16 * 2 ^ 16)
  else if off = 0x70010 then some (clampNat 850 1550 (v % 2 ^ 11))
  else if off = 0x70014 then some (clampNat 60 94 (v % 2 ^ 7) + 0x5F00)
  else if off = 0x70018 then some (v % 2 ^ 7 + bitsOf v 30 8 * 2 ^ 8)
  else if off = 0x7001C then some (max 1 (v % 2 ^ 16))
  else if off = 0x70030 then some (clampNat 10 1000 (v % 2 ^ 10))
  else if off = 0x90044 then some (clearBit old v 8)
  else if off = 0x90054 then some (v % 2 ^ 17)
  else if off = 0x90058 then some (clampNat 1 3600 (v % 2 ^ 12))
  else if within 0x90600 0x90690 off then some (v % 2 ^ 7)
  else none

/-- A write to a stored register of the module by the physical function or the Gatehouse. -/
def State.storeGlb (s : State) (off v : Nat) : State :=
  if off = 0x90000 then
    let head := bitsOf (s.rd off) 15 0
    let n (a : Nat) : Nat := (a + 2 ^ 16 - head) % 2 ^ 16
    if n (v % 2 ^ 16) ≤ n (bitsOf (s.rd 0x90004) 15 0) then s.wr off (v % 2 ^ 16) else s
  else if off = 0x70004 then
    let old := s.rd off
    let new := old - Nat.land old (v % 2 ^ 17)
    if new = old then s else (s.wr off new).report (.event new)
  else match glbStored (s.rd off) off v with
    | some n => s.wr off n
    | none => s

/-- A write to the routing block (R294). -/
def State.writeFabricReg (s : State) (w : Who) (off : Nat) (v : Word) : Result :=
  let n := v.toNat
  if off = 0x50000 then execSelfIdWrite w v s
  else if off = 0x50004 then .next (if planeWrites w && bitOf n 30 then s.wrBits off 30 30 0 else s)
  else if off = 0x50008 then s.writeTableCmd w n
  else if off = 0x50014 then .next (if planeWrites w then s.selectEntry n else s)
  else if off = 0x50024 then execFenceUpdate w v s
  else if within 0x50100 0x50180 off then execTableEntryStore w ⟨(off - 0x50100) / 4 % 32, Nat.mod_lt _ (by decide)⟩ v s
  else .next (if planeWrites w then s.storeGlb off n else s)

/-- A write to a ring register by a function (R340). -/
def State.writeRingReg (s : State) (f : Fin 32) (off : Nat) (v : Word) : Result :=
  let r := ringOf (off % 0x1000 / 16)
  let cq := decide (0x61000 ≤ off)
  let cfg := off / 16 * 16 + 8
  if off % 16 = 8 then execRingEnable f cq r v s
  else if !s.ownsRing f (s.ringCtx off) then .next s
  else if off % 16 = 12 then
    .next (if !cq && bitOf v.toNat 17 then s.modSq r fun k => { k with badDb := false } else s)
  else if bitOf (s.rd cfg) 0 then .next s
  else .next (s.wr off (if off % 16 = 0 then v.toNat / 2 ^ 12 * 2 ^ 12 else v.toNat))

/-- A write to the MSI-X table (R339; PRESUMED, assumption 33, the PCI Express base specification: unmasking a vector sends its pending
message). -/
def State.writeMsix (s : State) (f : Fin 32) (off v : Nat) : State :=
  let n := (off - 0x18000) / 16
  if vectorsOf f ≤ n then s
  else
    let s1 := s.modFn f fun k => k.wr off (if off % 16 = 12 then v % 2 else v)
    let pba := 0x1C000 + n / 32 * 4
    let was := (s.fn f).rd pba
    if off % 16 = 12 ∧ v % 2 = 0 ∧ bitOf was (n % 32) then (s1.modFn f fun k => k.wr pba (was - 2 ^ (n % 32))).msix f n else s1

/-- A write to a function's own registers (R340, R365). -/
def State.writeFnReg (s : State) (f : Fin 32) (off : Nat) (v : Word) : Result :=
  let n := v.toNat
  let put (m : Nat) : Result := .next (s.modFn f fun k => k.wr off m)
  if off = 0x10100 ∨ off = 0x10104 then put (n % 2 ^ 8)
  else if off = 0x10108 then put (n % 2 ^ 6)
  else if off = 0x1010C then put (n % 2 ^ 2)
  else if off = 0x10110 then put (n % 2 ^ 5)
  else if off = 0x10204 then put (n / 2 ^ 12 * 2 ^ 12)
  else if off = 0x10208 then put (n % 2 ^ 16)
  else if off = 0x69000 then execLeaseBeat f v s
  else if off = 0x69004 then put (clampNat 1 600 (n % 2 ^ 10))
  else if off = 0x69008 then execRearm f v s
  else if within 0x18000 0x1A000 off then .next (s.writeMsix f off n)
  else .next s

/-- Bits that the registers of a snapshot block store. -/
def snapMask (r v : Nat) : Nat :=
  match r with
  | 0x00 => v % 2 ^ 7 + bitsOf v 31 16 * 2 ^ 16
  | 0x08 => v / 2 ^ 12 * 2 ^ 12
  | 0x10 => v % 2 ^ 13
  | 0x14 => v / 2 ^ 12 * 2 ^ 12
  | _ => v

/-- A write to a context's snapshot block (R413). -/
def State.writeSnapReg (s : State) (w : Who) (x : Fin 64) (r : Nat) (v : Word) : Result :=
  if !planeWrites w then .next s
  else if r = 0x20 then
    (match v.toNat % 8 with
      | 1 => execSnapNow w x s
      | 2 => execRestore w x v s
      | 3 => execAccept w x s
      | 4 => execTaint w x s
      | _ => .next s)
  else if r = 0x1C then .next (s.wr (snapOff x r) v.toNat)
  else if r ≤ 0x18 ∧ (s.ctx x).snap.phase = 0 then .next (s.wr (snapOff x r) (snapMask r v.toNat))
  else .next s

/-- A write to the island window: OFFSET_MV. -/
def State.writeIsland (s : State) (i : Fin 24) (off v : Nat) : State :=
  if off = 0x70104 then s.modIsland i fun k => { k with offset := min 60 (bitsOf v 21 16) } else s

/-- A write to a Tollhouse register by the physical function, which alone writes them (R318). -/
def State.writeTollReg (s : State) (sel : Selects) (off v : Nat) : State :=
  if off = 0xA0028 then
    match tollOf? sel.toll with
    | some t => s.modToll t fun k => k.wr off (max 1 (v % 256) + bitsOf v 12 8 * 2 ^ 8)
    | none => s
  else if off = 0xA8000 then s.wr off (v % 4 + bitsOf v 31 8 * 2 ^ 8)
  else if off = 0xA8004 ∨ off = 0xA8008 then s.wr off v
  else if off = 0xA8014 then s.wr off (max 1 (v % 2 ^ 16) + max 1 (bitsOf v 31 16) * 2 ^ 16)
  else s

/-- Gives the function of a writer; the Gatehouse acts as the physical function on the telemetry view alone (R417). -/
def viewOwner : Who → Fin 32
  | .fn f => f
  | .gate => 0

/-- A write with the unit that a select names, discarded without one. -/
def State.onUnit {α : Type} (s : State) (u : Option α) (f : α → Result) : Result :=
  match u with
  | some a => f a
  | none => .next s

/-- A write of one dword (R451). -/
def State.writeReg (s : State) (w : Who) (sel : Selects) (off : Nat) (v : Word) : Result :=
  let n := v.toNat
  let plane := planeWrites w
  if within 0x10100 0x1C040 off || within 0x69000 0x69010 off then
    (match w with
      | .fn f => s.writeFnReg f off v
      | .gate => .next s)
  else if off = 0x10008 then execPaceCal w v s
  else if within 0x20000 0x30000 off then s.onUnit (coreOf? sel.core) fun c => s.writeCoreReg w c off n
  else if within 0x30000 0x40000 off then s.onUnit (chanOf? sel.chan) fun c => s.writeChanReg w c off n
  else if within 0x40000 0x50000 off then s.onUnit (portOf? sel.port) fun p => s.writePortReg w p off n
  else if within 0x50000 0x60000 off then s.writeFabricReg w off v
  else if within 0x60000 0x62000 off then
    (match w with
      | .fn f => s.writeRingReg f off v
      | .gate => .next s)
  else if off = 0x70034 then .next (s.modFn (viewOwner w) fun k => k.wr off (n % 4))
  else if within 0x70100 0x7010C off then s.onUnit (islandOf? sel.island) fun i => .next (if plane then s.writeIsland i off n else s)
  else if off = 0x90040 then execLanternCmd w v s
  else if within 0x91000 0x92000 off then s.onUnit (ctxOf? ((off - 0x91000) / 64)) fun x => s.writeSnapReg w x (off % 64) v
  else if within 0xA0000 0xA801C off then .next (if w == .fn 0 then s.writeTollReg sel off n else s)
  else .next (if plane then s.storeGlb off n else s)

/- The rows. -/

/-- REGISTER_WRITE: a dword whose byte enables are not all set is discarded (R450). -/
def execRegisterWrite (f : Fin 32) (off : Nat) (be : BitVec 4) (value : Word) (s : State) : Result :=
  if be = 0xF then s.writeReg (.fn f) (s.fn f).selects (off / 4 * 4) value else .next s

/-- REGISTER_READ_LO_LATCH: a read of a register; one of a LO register latches its HI register for this function (R452). -/
def execRegisterReadLoLatch (f : Fin 32) (off : Nat) (s : State) : Result :=
  let r := s.readReg (.fn f) (s.fn f).selects (off / 4 * 4)
  .next { r.2 with out := r.2.out ++ [.regRead (some f.val) off r.1] }

end Sys2Proof.Machine
end

