-- ==== Sys2Proof/Machine/Gatehouse.lean ====
section
/-! DEFINITION. The Gatehouse: sessions and management requests, resident images and live update, reports, attestation and
the baseboard port (Chapter 16, R320). -/

namespace Sys2Proof.Machine

def State.modGate (s : State) (f : Gate → Gate) : State := { s with gatehouse := f s.gatehouse }

/-- The Gatehouse takes messages: VAUX is up and it is not paused for a hand-off of its own tables (R419, R431). -/
def State.gateServes (s : State) : Bool := s.power.vaux && s.gatehouse.pausing != some 2

/-- A message that comes while the Gatehouse is paused waits in its buffers (R431); without VAUX nothing takes it. -/
def State.gateHold (s : State) (i : Held) : State :=
  if s.power.vaux then s.modGate fun g => { g with held := g.held ++ [i] } else s

/- Management results (Table 16.2). -/

def mgOk : Nat := 0x00
def mgVersion : Nat := 0x01
def mgMalformed : Nat := 0x02
def mgDenied : Nat := 0x03
def mgBusy : Nat := 0x04
def mgSignature : Nat := 0x05
def mgRollback : Nat := 0x06
def mgIncompatible : Nat := 0x07
def mgDeferred : Nat := 0x08
def mgHandoffFailed : Nat := 0x09
def mgUnavailable : Nat := 0x0A
def mgCausePersists : Nat := 0x0B

/-- The session that a request came in. -/
def Gate.session (g : Gate) (id : Nat) : Option Session := g.sessions.find? fun q => q.id == id

/-- A management answer: the 16 B header of R415, then the body. -/
def mgmtAnswer (type : Nat) (seq : Word) (result : Nat) (body : List Byte) : List Byte :=
  let head := leBytes 1 1 ++ (leBytes 1 type ++ (leBytes 2 0 ++ leBytes 4 seq.toNat))
  head ++ (leBytes 2 body.length ++ (leBytes 1 result ++ (leBytes 5 0 ++ body)))

/-- Answers a request in its session. -/
def State.replyMgmt (s : State) (m : Mgmt) (type result : Nat) (body : List Byte) : State :=
  { s with out := s.out ++ [.answer m.session (mgmtAnswer type m.seq result body)] }

/-- A request that the operator anchors do not cover is denied; with an empty list only an ANCHOR_ADD of the requester's own
root, from a mutually authenticated requester, is carried out (R416). -/
def Gate.denies (g : Gate) (q : Session) (adding : Option (List Byte)) : Bool :=
  if g.anchors.isEmpty then !(q.mutAuth && adding == some q.root) else !q.anchored

/-- What a request comes to: its RESULT, its body and the state. -/
abbrev Reply := Nat × List Byte × State

/-- The envelope of a management request (R414 to R416): it comes in a TCP session; VERSION, reserved bytes and the anchors are
checked, and `go` carries it out; the request `i` waits during a pause. Without Gatehouse tables only image requests are served (R428). -/
def serveMgmt (i : Held) (m : Mgmt) (type : Nat) (adding : Option (List Byte)) (go : State → Reply) (s : State) : Result :=
  if !s.gateServes then .next (s.gateHold i)
  else match s.gatehouse.session m.session with
    | none => .next s
    | some q =>
      if q.transport ≠ .tcp then .next s
      else if s.gatehouse.images[2].running = none ∧ ¬ (0x10 ≤ type ∧ type ≤ 0x15) then .next s
      else if m.version ≠ 1 then .next (s.replyMgmt m type mgVersion [])
      else if m.reservedNonzero then .next (s.replyMgmt m type mgMalformed [])
      else if s.gatehouse.denies q adding then .next (s.replyMgmt m type mgDenied [])
      else
        let r := go s
        .next (r.2.2.replyMgmt m type r.1 r.2.1)

/-- A RESULT with nothing done. -/
def refuseMgmt (s : State) (result : Nat) : Reply := (result, [], s)

/- Register access (R417). -/

/-- A register outside the management die: unpowered while the VMAIN rails are off (R13). -/
def onComputeDie (off : Nat) : Bool :=
  !(decide (off < 0x1100) || within 0x10000 0x10010 off || within 0x70000 0x70110 off)

/-- Fields of a register request out of range: an offset beyond BAR0, or a select value that its field cannot hold. -/
def badAccess (off : Nat) (sel : Selects) : Bool :=
  decide (2 ^ 26 ≤ off) || decide (256 ≤ sel.core) || decide (256 ≤ sel.chan) || decide (64 ≤ sel.port) || decide (4 ≤ sel.toll) ||
    decide (32 ≤ sel.island)

/-- REG_READ. -/
def execRegRead (m : Mgmt) (off : Nat) (sel : Selects) (s : State) : Result :=
  serveMgmt (.regRead m off sel) m 0x01 none (fun s =>
    if badAccess off sel then refuseMgmt s mgMalformed
    else if onComputeDie off && !s.power.rails then refuseMgmt s mgUnavailable
    else
      let r := s.readReg .gate sel (off / 4 * 4)
      (mgOk, leBytes 4 r.1, { r.2 with out := r.2.out ++ [.regRead none off r.1] })) s

/-- Registers that only the physical function writes (Table 18.2). -/
def physOnly (off : Nat) : Bool := off == 0x20600 || within 0xA0000 0xA801C off

/-- REG_WRITE. -/
def execRegWrite (m : Mgmt) (off : Nat) (sel : Selects) (value : Word) (s : State) : Result :=
  serveMgmt (.regWrite m off sel value) m 0x02 none (fun s =>
    if badAccess off sel || physOnly (off / 4 * 4) then refuseMgmt s mgMalformed
    else if onComputeDie off && !s.power.rails then refuseMgmt s mgUnavailable
    else match s.writeReg .gate sel (off / 4 * 4) value with
      | .next t => (mgOk, [], t)
      | _ => refuseMgmt s mgMalformed) s

/- Resident images (R427 to R432). -/

/-- An image type by number. -/
def imageOf? (n : Nat) : Option (Fin 3) := if h : n < 3 then some ⟨n, h⟩ else none

def State.image (s : State) (t : Fin 3) : ImageType := s.gatehouse.images[t]

def State.modImage (s : State) (t : Fin 3) (f : ImageType → ImageType) : State :=
  s.modGate fun g => { g with images := g.images.set t (f g.images[t]) }

/-- The slot that is not running; without a running image the one that is not committed. -/
def ImageType.inactive (t : ImageType) : Bool := !(t.running.getD t.committed)

def ImageType.setSlot (t : ImageType) (b : Bool) (i : ImageSlot) : ImageType := if b then { t with b := i } else { t with a := i }

/-- GATE_UPDATE: STATE, TYPE and RESULT (Table 16.6). -/
def State.noteUpdate (s : State) (st t result : Nat) : State := ((s.wrBits 0x1004 2 0 st).wrBits 0x1004 4 3 t).wrBits 0x1004 15 8 result

/-- STATE of GATE_UPDATE. -/
def State.updateState (s : State) : Nat := bitsOf (s.rd 0x1004) 2 0

/-- An image operation's answer, recorded in GATE_UPDATE. -/
def imageReply (s : State) (st : Nat) (t : Fin 3) (result : Nat) : Reply := (result, [], s.noteUpdate st t.val result)

/-- An image operation that its type or the module's state turns away. -/
def imageRefuse (s : State) (t : Fin 3) (result : Nat) : Reply := imageReply s s.updateState t result

/-- Runs an image request on its type. -/
def onImage (s : State) (type : Nat) (go : Fin 3 → Reply) : Reply :=
  match imageOf? type with
  | some t => go t
  | none => refuseMgmt s mgMalformed

/-- Largest body of an image type. -/
def bodyMax (t : Fin 3) : Nat := if t = 0 then 4 * 2 ^ 20 else 2 ^ 20

/-- An activation of the type is pending or under way. -/
def State.pendingImage (s : State) (t : Fin 3) : Bool :=
  (s.image t).next.isSome || s.gatehouse.deferred == some t || s.gatehouse.pausing == some t

/-- IMAGE_BEGIN: opens the slot that is not running; one slot is open at a time. -/
def execImageBegin (m : Mgmt) (type total : Nat) (s : State) : Result :=
  serveMgmt (.imageBegin m type total) m 0x10 none (fun s => onImage s type fun t =>
    let elsewhere := (List.finRange 3).any fun q => q != t && (s.image q).opened
    if 256 + bodyMax t + 8192 + 96 < total then imageRefuse s t mgMalformed
    else if s.pendingImage t || elsewhere then imageRefuse s t mgBusy
    else
      let s1 := s.modImage t fun k => { k.setSlot k.inactive { bytes := [], total := total, valid := false } with opened := true }
      imageReply s1 1 t mgOk) s

/-- IMAGE_DATA: at most 4,096 B within the announced size, into the open slot. -/
def execImageData (m : Mgmt) (off : Nat) (data : List Byte) (s : State) : Result :=
  serveMgmt (.imageData m off data) m 0x11 none (fun s =>
    match (List.finRange 3).find? fun t => (s.image t).opened with
    | none => refuseMgmt s mgMalformed
    | some t =>
      let k := s.image t
      let i := k.slot k.inactive
      if 4096 < data.length ∨ i.total < off + data.length then imageRefuse s t mgMalformed
      else imageReply (s.modImage t fun k => k.setSlot k.inactive { i with bytes := i.bytes.writeRun off data }) 1 t mgOk) s

/-- Unnamed bytes of an image header are zero. -/
def ImageSlot.reservedZero (i : ImageSlot) : Bool :=
  let zero (a n : Nat) : Bool := (i.bytes.readRun a n).all fun b => b == 0
  zero 3 1 && zero 9 1 && zero 0xE 2 && zero 0x16 10 && zero 0x50 176 && !bitOf (i.bytes.readLE 8 1) 7

def ImageSlot.rollback (i : ImageSlot) : Nat := i.bytes.readLE 8 1 % 128
def ImageSlot.handoffFmt (i : ImageSlot) : Nat := i.bytes.readLE 0xA 2
def ImageSlot.handoffMin (i : ImageSlot) : Nat := i.bytes.readLE 0xC 2

/-- The header of an image is well formed for its type, and the announced bytes are its header, body, padded chain and signature
(R427). -/
def ImageSlot.wellFormed (i : ImageSlot) (t : Fin 3) : Bool :=
  let body := i.bytes.readLE 0x10 4
  let cert := i.bytes.readLE 0x14 2
  i.bytes.readLE 0 1 == 1 && i.bytes.readLE 1 1 == t.val && decide (i.rollback ≤ 64) && i.reservedZero && decide (body ≤ bodyMax t) &&
    decide (cert ≤ 8192) && i.total == 256 + body + ceilDiv cert 64 * 64 + 96

/-- The RESULT of IMAGE_VERIFY. -/
def ImageSlot.verify (i : ImageSlot) (t : Fin 3) (fused : Nat) (k : ImageCheck) : Nat :=
  if !i.wellFormed t then mgMalformed
  else if !(k.bodyDigest && k.chain && k.signature) then mgSignature
  else if 1 < i.bytes.readLE 2 1 then mgIncompatible
  else if i.rollback < fused then mgRollback
  else mgOk

/-- IMAGE_VERIFY. -/
def execImageVerify (m : Mgmt) (type : Nat) (c : ImageCheck) (s : State) : Result :=
  serveMgmt (.imageVerify m type c) m 0x12 none (fun s => onImage s type fun t =>
    let k := s.image t
    let i := k.slot k.inactive
    let r := i.verify t k.fused c
    if s.pendingImage t then imageRefuse s t mgBusy
    else if r = mgOk then
      imageReply (s.modImage t fun k => { k.setSlot k.inactive { i with valid := true } with opened := false }) 2 t r
    else imageReply (s.modImage t fun k => k.setSlot k.inactive { i with valid := false }) (if k.opened then 1 else 0) t r) s

/-- The pause of a hand-off begins (Table 16.5, step 2). -/
def State.startPause (s : State) (t : Fin 3) : State := s.modGate fun g => { g with pausing := some t, deferred := none }

/-- Another update of any type is pending or under way. -/
def State.updating (s : State) : Bool :=
  s.gatehouse.deferred.isSome || s.gatehouse.pausing.isSome || (List.finRange 3).any fun t => (s.image t).next.isSome

/-- Hand-off formats do not fit (R430). -/
def ImageType.misfit (k : ImageType) : Bool :=
  match k.running with
  | none => false
  | some b =>
    let new := k.slot k.inactive
    let old := k.slot b
    decide (old.handoffFmt < new.handoffMin) || decide (new.handoffFmt < old.handoffFmt)

/-- IMAGE_ACTIVATE. -/
def execImageActivate (m : Mgmt) (type mode : Nat) (s : State) : Result :=
  serveMgmt (.imageActivate m type mode) m 0x13 none (fun s => onImage s type fun t =>
    let k := s.image t
    if 1 < mode ∨ (k.slot k.inactive).valid = false then imageRefuse s t mgMalformed
    else if mode = 1 then
      if s.pendingImage t then imageRefuse s t mgBusy
      else imageReply (s.modImage t fun k => { k with next := some k.inactive }) s.updateState t mgOk
    else if s.updating || (k.trial && !k.abandoned) then imageRefuse s t mgBusy
    else if k.misfit then imageRefuse s t mgIncompatible
    else if s.hearth.emergency then imageReply (s.modGate fun g => { g with deferred := some t }) 3 t mgDeferred
    else imageReply (s.startPause t) 4 t mgOk) s

/-- DEFERRED_ACTIVATION_START: 1 s has passed with no emergency (R432). -/
def execDeferredActivationStart (s : State) : Result :=
  match s.gatehouse.deferred with
  | some t => if s.hearth.emergency then .next s else .next ((s.startPause t).wrBits 0x1004 2 0 4)
  | none => .next s

/-- Ends the pause with a result and its duration. -/
def State.endPause (s : State) (st result us : Nat) : State :=
  ((((s.modGate fun g => { g with pausing := none }).wrBits 0x1004 2 0 st).wrBits 0x1004 15 8 result)).wrBits 0x1004 27 16 (min us 4095)

/-- IMAGE_COMMIT: marks the running trial committed and raises the fused count. -/
def execImageCommit (m : Mgmt) (type : Nat) (s : State) : Result :=
  serveMgmt (.imageCommit m type) m 0x14 none (fun s => onImage s type fun t =>
    let k := s.image t
    match k.running with
    | some b =>
      if k.trial then
        imageReply (s.modImage t fun k => { k with committed := b, trial := false, abandoned := false, fused := max k.fused (k.slot b).rollback }) 0 t mgOk
      else imageRefuse s t mgMalformed
    | none => imageRefuse s t mgMalformed) s

/-- IMAGE_ABANDON: withdraws a pending activation, whose slot stays verified, or else invalidates the slot that is not
running; a trial of the type is then abandoned (R430). -/
def execImageAbandon (m : Mgmt) (type : Nat) (s : State) : Result :=
  serveMgmt (.imageAbandon m type) m 0x15 none (fun s => onImage s type fun t =>
    let k := s.image t
    if s.gatehouse.pausing = some t then imageRefuse s t mgBusy
    else if s.gatehouse.deferred = some t then imageReply (s.modGate fun g => { g with deferred := none }) 2 t mgOk
    else if k.next.isSome then imageReply (s.modImage t fun k => { k with next := none }) 2 t mgOk
    else
      let drop (k : ImageType) : ImageType :=
        { k.setSlot k.inactive { k.slot k.inactive with valid := false } with opened := false, abandoned := k.trial }
      imageReply (s.modImage t drop) 0 t mgOk) s

/- Other requests. -/

/-- COLLECTOR_SET: reports go to the new collector from now on, the unacknowledged ones with them. -/
def execCollectorSet (m : Mgmt) (addr : List Byte) (s : State) : Result :=
  serveMgmt (.collectorSet m addr) m 0x20 none (fun s =>
    if addr.length ≠ 16 then refuseMgmt s mgMalformed
    else
      let s1 := s.modGate fun g => { g with collector := some addr }
      let sent := s1.gatehouse.reports.map fun p => Out.report p.1 p.2
      (mgOk, [], { s1 with out := s1.out ++ sent })) s

/-- The cause of a latched removal persists; a leak's until LEAK_N has been deasserted without chatter for 60 s (R383). -/
def State.causePersists (s : State) : Bool :=
  let h := s.hearth
  let quiet := match h.leakQuiet with
    | some t => decide (60000000 ≤ s.time - t)
    | none => false
  h.cond 1 || h.cond 3 || h.cond 4 || (h.cond 7 && !quiet)

/-- EMERGENCY_CLEAR. -/
def execEmergencyClear (m : Mgmt) (s : State) : Result :=
  serveMgmt (.emergencyClear m) m 0x30 none (fun s =>
    if !s.hearth.removed then (mgOk, [], s)
    else if s.causePersists then refuseMgmt s mgCausePersists
    else (mgOk, [], s.modHearth fun h => { h with removed := false, conds := h.conds.set 7 false })) s

/-- ANCHOR_ADD: at most 4 anchors. -/
def execAnchorAdd (m : Mgmt) (hash : List Byte) (s : State) : Result :=
  serveMgmt (.anchorAdd m hash) m 0x40 (some hash) (fun s =>
    if hash.length ≠ 48 then refuseMgmt s mgMalformed
    else if s.gatehouse.anchors.contains hash then (mgOk, [], s)
    else if 4 ≤ s.gatehouse.anchors.length then refuseMgmt s mgMalformed
    else (mgOk, [], s.modGate fun g => { g with anchors := g.anchors ++ [hash] })) s

/-- ANCHOR_REMOVE: ends the sessions that the anchor covered. -/
def execAnchorRemove (m : Mgmt) (hash : List Byte) (s : State) : Result :=
  serveMgmt (.anchorRemove m hash) m 0x41 none (fun s =>
    if hash.length ≠ 48 then refuseMgmt s mgMalformed
    else
      let stays (q : Session) : Bool := !(q.anchored && q.root == hash)
      (mgOk, [], s.modGate fun g => { g with anchors := g.anchors.erase hash, sessions := g.sessions.filter stays })) s

/-- OWNERSHIP_CLEAR. -/
def execOwnershipClear (m : Mgmt) (s : State) : Result :=
  serveMgmt (.ownershipClear m) m 0x42 none (fun s => (mgOk, [], s.modGate fun g => { g with anchors := [], sessions := [] })) s

/- Reports (R420). -/

/-- `a` is `b` or an earlier sequence number, modulo 2³². -/
def seqUpTo (a b : Nat) : Bool := decide ((b + 2 ^ 32 - a) % 2 ^ 32 < 2 ^ 31)

/-- REPORT_ACK: cumulative; one whose tag fails, or with no report key in force, is discarded. -/
def execReportAck (tagOk : Bool) (seq : Word) (s : State) : Result :=
  if !s.gateServes then .next (s.gateHold (.reportAck tagOk seq))
  else if !tagOk || s.gatehouse.collector.isNone then .next s
  else
    let n := seq.toNat
    let ack (g : Gate) : Gate :=
      { g with reports := g.reports.filter fun p => !seqUpTo p.1 n, acked := if seqUpTo g.acked n then n else g.acked }
    .next (s.modGate ack)

/-- REPORT_RESEND: the oldest unacknowledged report is sent again. -/
def execReportResend (s : State) : Result :=
  if !s.gateServes || s.gatehouse.collector.isNone then .next s
  else match s.gatehouse.reports with
    | p :: _ => .next { s with out := s.out ++ [.report p.1 p.2] }
    | [] => .next s

/- Sessions and attestation (R414, R416, R418, R425, R426). -/

/-- Sessions that a transport carries at most. -/
def sessionLimit : Transport → Nat
  | .tcp => 4
  | .mctp => 1
  | .doe => 2

/-- KEY_EXCHANGE: opens a session while its transport has a place; the anchor check is made here. A session on TCP came over
the SGMII link. -/
def execKeyExchange (t : Transport) (mutAuth : Bool) (root : List Byte) (s : State) : Result :=
  let g := s.gatehouse
  if !s.gateServes then .next (if t = .mctp then s else s.gateHold (.keyExchange t mutAuth root))
  else if decide (sessionLimit t ≤ (g.sessions.filter fun q => q.transport == t).length) then .next s
  else
    let q : Session := { id := g.nextSession, transport := t, mutAuth := mutAuth, root := root, anchored := mutAuth && g.anchors.contains root }
    let s1 := s.modGate fun g => { g with sessions := g.sessions ++ [q], nextSession := g.nextSession + 1 }
    .next (if t = .tcp then s1.wrBits 0x1000 0 0 1 else s1)

/-- END_SESSION, or the loss of the session's connection. -/
def execEndSession (session : Nat) (s : State) : Result :=
  if !s.gateServes then .next (s.gateHold (.endSession session))
  else .next (s.modGate fun g => { g with sessions := g.sessions.filter fun q => q.id != session })

/-- The measurement blocks of Table 16.4. -/
def State.measurements (s : State) : List (Nat × List Byte) :=
  let digest (t : Fin 3) : List Byte := match (s.image t).running with
    | some b => ((s.image t).slot b).bytes.readRun 0x20 48
    | none => []
  let fused := (List.finRange 3).flatMap fun t => leBytes 1 (s.image t).fused
  let roles := s.mfg.variant :: ((List.range 192).map s.mfg.role)
  let trials := (List.finRange 3).map fun t => b2n (s.image t).trial
  let anchors := s.gatehouse.anchors.map leNat
  [(1, Config.measure 1 []), (2, digest 2), (3, digest 1), (4, digest 0), (5, fused), (6, Config.measure 6 roles),
    (7, Config.measure 7 (trials.append anchors))]

/-- GET_MEASUREMENTS. -/
def execGetMeasurements (s : State) : Result :=
  if !s.gateServes then .next (s.gateHold .getMeasurements) else .next { s with out := s.out ++ [.measurements s.measurements] }

/-- IDE_KM: in a secured session over the DOE mailbox it moves a stream to the secure state. -/
def execIdeKm (inSession : Bool) (stream : Fin 9) (s : State) : Result :=
  if !s.gateServes then .next (s.gateHold (.ideKm inSession stream))
  else if inSession && s.gatehouse.sessions.any fun q => q.transport == .doe then
    .next (s.modGate fun g => { g with ide := g.ide.set stream true })
  else .next s

/-- IDE_INTEGRITY_FAILURE: the TLP is discarded, the stream is insecure, and the Gatehouse reports it. -/
def execIdeIntegrityFailure (stream : Fin 9) (s : State) : Result :=
  if s.gatehouse.ide[stream] then
    .next ((s.modGate fun g => { g with ide := g.ide.set stream false }).report (.ideFailure stream.val))
  else .next s

/- Messages held in a pause (R431). -/

/-- Serves a message that waited. -/
def serveHeld (i : Held) (s : State) : Result :=
  match i with
  | .regRead m off sel => execRegRead m off sel s
  | .regWrite m off sel value => execRegWrite m off sel value s
  | .imageBegin m type total => execImageBegin m type total s
  | .imageData m off data => execImageData m off data s
  | .imageVerify m type c => execImageVerify m type c s
  | .imageActivate m type mode => execImageActivate m type mode s
  | .imageCommit m type => execImageCommit m type s
  | .imageAbandon m type => execImageAbandon m type s
  | .collectorSet m addr => execCollectorSet m addr s
  | .emergencyClear m => execEmergencyClear m s
  | .anchorAdd m hash => execAnchorAdd m hash s
  | .anchorRemove m hash => execAnchorRemove m hash s
  | .ownershipClear m => execOwnershipClear m s
  | .reportAck tagOk seq => execReportAck tagOk seq s
  | .keyExchange t mutAuth root => execKeyExchange t mutAuth root s
  | .endSession session => execEndSession session s
  | .getMeasurements => execGetMeasurements s
  | .ideKm inSession stream => execIdeKm inSession stream s

/-- The messages that waited are served in the order in which they came. -/
def State.resumeGate (s : State) : State :=
  let one (s : State) (i : Held) : State := match serveHeld i s with
    | .next t => t
    | _ => s
  s.gatehouse.held.foldl one (s.modGate fun g => { g with held := [] })

/-- HANDOFF_READY: the new image runs as a trial after `us` µs. -/
def execHandoffReady (us : Nat) (s : State) : Result :=
  match s.gatehouse.pausing with
  | some t =>
    let s1 := s.modImage t fun k => { k with running := some k.inactive, trial := true, abandoned := false }
    .next (s1.endPause 0 mgOk us).resumeGate
  | none => .next s

/-- HANDOFF_TIMEOUT: the old image resumes; the pause took from 1.8 ms to 2.0 ms, which is all that Table 16.5 says. -/
def execHandoffTimeout (s : State) : Result :=
  match s.gatehouse.pausing with
  | some _ =>
    let r := s.drawFree
    .next (r.2.endPause 2 mgHandoffFailed (1800 + r.1.toNat % 201)).resumeGate
  | none => .next s

/- The baseboard port (R418, R419; Table 16.3). Command codes are DMTF's (PRESUMED, assumption 25). -/

/-- The Gatehouse serves the baseboard's messages: without its tables it serves SPDM and image requests only (R428). -/
def State.portServes (s : State) : Bool := s.gateServes && (s.image 2).running.isSome

/-- Answers a PLDM command: completion code and data. -/
def State.pldm (s : State) (type cmd code : Nat) (data : List Nat) : Result :=
  if s.portServes then .next { s with out := s.out ++ [.pldm type cmd code data] } else .next s

/-- Answers with fields that the spec leaves to DMTF's documents and does not state: free values. -/
def State.pldmFree (s : State) (type cmd n : Nat) : Result :=
  if s.portServes then
    let data := (List.range n).map fun i => (Config.free32 (s.free + i)).toNat
    ({ s with free := s.free + n }).pldm type cmd 0 data
  else .next s

/-- GetTID. -/
def execGettid (s : State) : Result := s.pldmFree 0 0x02 1

/-- GetPLDMVersion. -/
def execGetpldmversion (s : State) : Result := s.pldmFree 0 0x03 1

/-- GetPLDMTypes. -/
def execGetpldmtypes (s : State) : Result := s.pldm 0 0x04 0 [0, 2, 4]

/-- GetPLDMCommands: type × 256 + command for the rows of Table 16.3. -/
def execGetpldmcommands (s : State) : Result :=
  s.pldm 0 0x05 0 [0x002, 0x003, 0x004, 0x005, 0x204, 0x211, 0x221, 0x250, 0x251, 0x401, 0x402]

/-- GetPDRRepositoryInfo. -/
def execGetpdrrepositoryinfo (s : State) : Result := s.pldmFree 2 0x50 1

/-- GetPDR. -/
def execGetpdr (_record : Nat) (s : State) : Result := s.pldmFree 2 0x51 1

/-- Numeric sensors in the order of R418, from 1; VMAIN has no register. -/
def State.numericSensor (s : State) (n : Nat) : Option Nat :=
  let cool := s.rd 0x70020
  match n with
  | 1 => some (bitsOf cool 7 0)
  | 2 => some (bitsOf cool 15 8)
  | 3 => some (bitsOf cool 31 24)
  | 4 => some (bitsOf (s.rd 0x7000C) 11 0)
  | 6 => some (bitsOf (s.rd 0x70024) 15 0)
  | 7 => some (bitsOf cool 22 16)
  | _ => none

/-- GetSensorReading. -/
def execGetsensorreading (sensor : Nat) (s : State) : Result :=
  if sensor = 5 then s.pldmFree 2 0x11 1
  else match s.numericSensor sensor with
    | some v => s.pldm 2 0x11 0 [v]
    | none => s.pldm 2 0x11 0x80 []

/-- State sensors in the order of R418, from 1: emergency gate, compute power removal, leak, THROTTLE_N. -/
def State.stateSensor (s : State) (n : Nat) : Option Bool :=
  match n with
  | 1 => some s.hearth.gate
  | 2 => some s.hearth.removed
  | 3 => some s.hearth.leaking
  | 4 => some s.hearth.throttled
  | _ => none

/-- GetStateSensorReadings. -/
def execGetstatesensorreadings (sensor : Nat) (s : State) : Result :=
  match s.stateSensor sensor with
  | some b => s.pldm 2 0x21 0 [b2n b]
  | none => s.pldm 2 0x21 0x80 []

/-- SetEventReceiver. -/
def execSeteventreceiver (addr : Byte) (s : State) : Result :=
  if s.portServes then (s.modGate fun g => { g with receiver := some addr }).pldm 2 0x04 0 [] else .next s

/-- GetFRURecordTableMetadata. -/
def execGetfrurecordtablemetadata (s : State) : Result := s.pldmFree 4 0x01 1

/-- GetFRURecordTable: ordering code, serial number, manufacturing date. -/
def execGetfrurecordtable (s : State) : Result := s.pldm 4 0x02 0 [s.mfg.variant, s.mfg.serial, s.mfg.date]

/-- UNSUPPORTED_PLDM_CMD. -/
def execUnsupportedPldmCmd (type cmd : Byte) (s : State) : Result := s.pldm type.toNat cmd.toNat 0x05 []

/-- I3C_DYNAMIC_ADDRESS. -/
def execI3cDynamicAddress (addr : BitVec 7) (s : State) : Result :=
  if s.gateServes then .next (s.modGate fun g => { g with i3c := addr }) else .next s

/-- MCTP_CONTROL. -/
def execMctpControl (cmd : Byte) (s : State) : Result :=
  if s.portServes then .next { s with out := s.out ++ [.mctpAnswer cmd] } else .next s

end Sys2Proof.Machine
end

