-- ==== Sys2Proof/Machine/BringUp.lean ====
section
/-! DEFINITION. Power-up, readiness, resets of the module and the passing of time (Chapter 17; R33, R461). -/

namespace Sys2Proof.Machine

/-- STAGE of GLB_BOOT_STATUS (Table 17.5). -/
def State.setStage (s : State) (n : Nat) : State := s.wrBits 0x10000 2 0 n

/-- A slot passes the checks of VAUX power-up: R427, the cryptographic part of which `ok` reports, and R429. -/
def ImageSlot.loads (i : ImageSlot) (t : Fin 3) (fused : Nat) (ok : Bool) : Bool :=
  i.verify t fused { bodyDigest := ok, chain := ok, signature := ok } == mgOk

/-- Loads an image type: the slot that a MODE 1 activation named or the committed one, and when that fails the other (R428). -/
def ImageType.load (k : ImageType) (t : Fin 3) (okA okB : Bool) : ImageType :=
  let a := k.a.loads t k.fused okA
  let b := k.b.loads t k.fused okB
  let pass (q : Bool) : Bool := if q then b else a
  let first := k.next.getD k.committed
  let running := if pass first then some first else if pass (!first) then some (!first) else none
  { k with
    a := { k.a with valid := a }, b := { k.b with valid := b }, running := running
    trial := (match running with
      | some q => q != k.committed
      | none => false), next := none, opened := false, abandoned := false }

/-- VAUX_UP: `imageOk` says of slot A and slot B of types 0 to 2 in turn whether digest, chain and signature hold. -/
def execVauxUp (imageOk : List Bool) (s : State) : Result :=
  if s.power.vaux then .next s
  else
    let ok (n : Nat) : Bool := imageOk.getD n false
    let load (k : ImageType) (t : Fin 3) : ImageType := k.load t (ok (2 * t.val)) (ok (2 * t.val + 1))
    let s1 : State := { s with power := { s.power with vaux := true } }
    .next ((s1.modGate fun g => { g with images := Vector.ofFn fun t => load g.images[t] t }).setStage 3)

/-- VAUX_LOSS: ends everything but what the non-volatile store and the fuses hold (R416, R428, R429, R442). -/
def execVauxLoss (s : State) : Result :=
  let off (k : ImageType) : ImageType := { k with running := none, trial := false, opened := false, abandoned := false }
  .next { State.reset with
    cores := Vector.ofFn fun c : Fin 192 => resetCore (s.mfg.role c.val)
    mfg := s.mfg
    gatehouse := { State.reset.gatehouse with images := s.gatehouse.images.map off, anchors := s.gatehouse.anchors }
    free := s.free, out := s.out, pending := s.pending }

/-- WAIT_CAUSE: why step 3 does not begin (R435); 0 when it may. -/
def State.waitCause (s : State) (mv : Nat) : Nat :=
  if mv < 40000 ∨ 60000 < mv then 1 else if s.hearth.removed then 2
  else if (s.image 1).running = none then 3 else if (s.image 0).running = none then 4 else 0

/-- The role of a core after its self-test: outcome class and calibration (Table 17.2, R438). -/
def Core.tested (k : Core) (o : SweepOutcome) (calOk : Bool) : Core :=
  match o with
  | .pass => if calOk then k else { k with role := 3 }
  | .failed => { k with role := 3 }
  | .degradedQuad q => if k.role = 0 then k.moduleFence q.val else { k with role := 3 }
  | .degradedShadow => if k.role = 0 then k.moduleFence 4 else { k with role := 3 }

/-- Steps 4 and 5: self-test and memory training, with each failed part in the fault log; a passing core gets its pace-sensor
correction (R436 to R439). -/
def State.selfTest (s : State) (b : BringUp) : State :=
  let outcome (c : Fin 192) : SweepOutcome := ((b.coreFail.find? fun p => p.1 == c).map Prod.snd).getD .pass
  let one (s : State) (c : Fin 192) : State :=
    let k := s.core c
    let calOk := !b.calFail.contains c
    let found := ((b.cal.find? fun p => p.1 == c).map Prod.snd).getD 0
    if k.role = 2 then s
    else if outcome c = .pass ∧ calOk = true then s.setCore c { k with correction := max (-80) (min 80 found) }
    else
      let s1 := s.setCore c (k.tested (outcome c) calOk)
      s1.logFault { kind := 0x07, status := stFenced, unitType := 1, unit := c.val, detail0 := (s1.core c).stwStatus }
  let s1 := allCores.foldl one s
  let toll (s : State) (t : Fin 4) : State :=
    if b.tollFail.contains t then
      (s.modToll t fun k => { k with fenced := true }).logFault { kind := 0x0A, status := stAbft, unitType := 5, unit := t.val }
    else s
  let s2 := (allTolls.foldl toll s1).mapTolls
  let chan (s : State) (c : Fin 208) : State :=
    if b.chanFail.contains c then (s.modChan c fun k => { k with st := 2 }).logChan c 0x03 stWeightPoison none else s
  (List.finRange 208).foldl chan s2

/-- Cores fenced. -/
def State.fencedCores (s : State) : Nat := (allCores.filter fun c => (s.core c).role == 3).length

/-- RAILS_ENABLE: steps 3 to 6, or the cause that holds step 3, which is reported. -/
def execRailsEnable (mv : Nat) (b : BringUp) (s : State) : Result :=
  let cause := s.waitCause mv
  if !s.power.vaux || s.power.rails then .next s
  else if cause ≠ 0 then .next (((s.wrBits 0x10000 6 4 cause).setStage 3).report (.bootWait cause))
  else
    let up (k : Island) : Island := { k with base := 720, want := 720 }
    let s1 : State := { s with power := { s.power with rails := true, tested := true, link := s.power.perst && s.power.width != 0 } }
    let s2 := (s1.modHearth fun h => { h with islands := h.islands.map up }).setDuty 100
    let s3 := s2.selfTest b
    let failed := (List.finRange 208).filter fun c => (s3.chan c).st == 2
    let bad := !b.coreFail.isEmpty || !b.calFail.isEmpty || !b.tollFail.isEmpty || !b.chanFail.isEmpty
    .next (s3.wr 0x10000 (7 + b2n bad * 8 + s3.fencedCores % 256 * 2 ^ 8 + failed.length % 256 * 2 ^ 16))

/-- The widest link that the straps allow (R461). -/
def strapWidth (strap : BitVec 2) : Nat := if strap = 3 then 16 else if strap = 2 then 8 else 4

/-- A width within the straps and a rate code of Table 12.1. -/
def linkOption (strap : BitVec 2) (width rate : Nat) : Bool :=
  decide ((width = 4 ∨ width = 8 ∨ width = 16) ∧ width ≤ strapWidth strap ∧ 5 ≤ rate ∧ rate ≤ 7)

/-- PERST_RELEASE: the straps are sampled; the link trains to `width` lanes at rate code `rate`, an option of Table 12.1 within
the straps, once the rails are on. With any other outcome it is not up. -/
def execPerstRelease (strap : BitVec 2) (width rate : Nat) (s : State) : Result :=
  if s.power.perst then .next s
  else if linkOption strap width rate then
    .next { s with power := { s.power with perst := true, width := width, rate := rate, link := s.power.rails } }
  else .next { s with power := { s.power with perst := true, width := 0, rate := 0, link := false } }

/-- MODULE_READY: steps 4 to 6 have ended and the link is up. `ms3` and `msP` are the times from step 3 and from the release of
PERST_N. -/
def execModuleReady (ms3 msP : Nat) (s : State) : Result :=
  let p := s.power
  if p.tested && p.perst && p.link && !p.ready then
    let down := (List.finRange 36).filter fun q => (s.port q).st != .up && (s.port q).st != .outOfService
    let s1 := (s.setStage 0).wrBits 0x10000 29 24 down.length
    let s2 := s1.wr 0x10004 (min ms3 0xFFFF + min msP 0xFFFF * 2 ^ 16)
    .next { s2 with power := { p with ready := true }, out := s2.out ++ [.deviceReady] }
  else .next s

/-- PERST_ASSERT: resets the PCIe controller; after the module is ready it acts as a reset of every function (R442). -/
def execPerstAssert (s : State) : Result :=
  let s1 := if s.power.ready then allFns.foldl (fun s f => s.resetFn f) s else s
  let s2 := s1.modGate fun g => { g with ide := Vector.replicate 9 false }
  let s3 := if s.power.ready then s2.setStage 7 else s2
  .next { s3 with power := { s3.power with perst := false, link := false, ready := false } }

/- Time (R33). -/

/-- A filler instance runs in a place of a core. -/
def Core.fillerRuns (k : Core) (array : Bool) : Bool :=
  allSlots.any fun i => match (k.slot i).inst, k.frame i with
    | some n, some f => n.running && (f.accUse != 0) == array && !k.owned f
    | _, _ => false

/-- A core is starved: no array instance runs and an armed array instance of the owning context is not ready or not permitted
(R139); while the Innkeeper is paused every request waits (R431). Gate waits do not count (R380). -/
def State.starved (s : State) (c : Fin 192) : Bool :=
  let k := s.core c
  let held (d : Cand) : Bool :=
    k.owned d.frame && (s.innkPaused || !s.isReady c d.frame d.inst.mb || !s.wgradPermits d || !s.energyPermits c d.frame)
  k.placeFree true && !s.hearth.gate && (k.armedFor true).any held

/-- An owning instance that is ready waits behind a filler instance (R197). -/
def State.fillerHolds (s : State) (c : Fin 192) (array : Bool) : Bool :=
  (s.core c).fillerRuns array && (s.candidates c array).any fun d => (s.core c).owned d.frame

/-- One µs of a core: its beat-equivalents are its pace in Mbeat/s. -/
def State.tickCore (s : State) (c : Fin 192) : State :=
  let k := s.core c
  let s1 := if s.fillerHolds c true || s.fillerHolds c false then s.modCore c fun k => k.bump 0x20630 k.paceM else s
  if s.starved c then
    let s2 := s1.modCore c fun k => k.bump 0x20434 k.paceM
    match k.ctx with
    | some x => s2.modCtx x fun q => { q with accStarved := q.accStarved + 1000 }
    | none => s2
  else s1

/-- What a µs in which no command comes does: the time reference counts, and with it the counters that run on their own
(assumption 26). Before VAUX there is no time reference. -/
def State.tick (s : State) : State :=
  if !s.power.vaux then s
  else
    let s1 : State := { s with time := s.time + 1 }
    let s2 := if s1.hearth.gate then s1.bump 0x7002C 1 else s1
    (allCores.filter fun c => (s.core c).ctx.isSome).foldl State.tickCore s2

end Sys2Proof.Machine
end

