-- ==== Sys2Proof/Machine/Steward.lean ====
section
/-! DEFINITION. The Steward's integer, memory, branch and jump instructions (R115, R119). -/

namespace Sys2Proof.Machine

/-- Bits [63:32] of the signed product (Table 5.3). -/
def mulHigh (x y : Word) : Word := BitVec.ofInt 32 (x.toInt * y.toInt / 2 ^ 32)

/-- Signed division (Table 5.3): by zero 0xFFFF_FFFF; −2³¹ ÷ −1 gives −2³¹. -/
def divSigned (x y : Word) : Word := if y = 0 then 0xFFFFFFFF else BitVec.ofInt 32 (x.toInt.tdiv y.toInt)

/-- Unsigned division; by zero 0xFFFF_FFFF. -/
def divUnsigned (x y : Word) : Word := if y = 0 then 0xFFFFFFFF else BitVec.ofNat 32 (x.toNat / y.toNat)

/-- Signed remainder; by zero the dividend. -/
def remSigned (x y : Word) : Word := if y = 0 then x else BitVec.ofInt 32 (x.toInt.tmod y.toInt)

/-- Unsigned remainder; by zero the dividend. -/
def remUnsigned (x y : Word) : Word := if y = 0 then x else BitVec.ofNat 32 (x.toNat % y.toNat)

/-- gd = f(ga, gb). -/
def aluReg (c : Fin 192) (f : Word → Word → Word) (i : SInstr) (s : State) : State :=
  s.stwWrite c i.d (f ((s.core c).g i.a) ((s.core c).g i.b))

/-- gd = f(ga, imm). -/
def aluImm (c : Fin 192) (f : Word → Word → Word) (imm : SInstr → Word) (i : SInstr) (s : State) : State :=
  s.stwWrite c i.d (f ((s.core c).g i.a) (imm i))

/-- A conditional branch: OFFSET words from the branch (Table 5.2). -/
def branch (c : Fin 192) (p : Word → Word → Bool) (i : SInstr) (s : State) : State :=
  if p ((s.core c).g i.a) ((s.core c).g i.b) then
    s.stwGoto c ((s.core c).stw.pc.toNat + (simmOf i).toInt)
  else s.stwNext c

/-- ADD. -/
def execAdd (c : Fin 192) (e : Ecc) (s : State) : Result :=
  stewardStep .add c e (aluReg c fun x y => x + y) s

/-- SUB. -/
def execSub (c : Fin 192) (e : Ecc) (s : State) : Result :=
  stewardStep .sub c e (aluReg c fun x y => x - y) s

/-- AND. -/
def execAnd (c : Fin 192) (e : Ecc) (s : State) : Result :=
  stewardStep .and c e (aluReg c fun x y => x &&& y) s

/-- OR. -/
def execOr (c : Fin 192) (e : Ecc) (s : State) : Result :=
  stewardStep .or c e (aluReg c fun x y => x ||| y) s

/-- XOR. -/
def execXor (c : Fin 192) (e : Ecc) (s : State) : Result :=
  stewardStep .xor c e (aluReg c fun x y => x ^^^ y) s

/-- SHL. -/
def execShl (c : Fin 192) (e : Ecc) (s : State) : Result :=
  stewardStep .shl c e (aluReg c fun x y => x <<< (y.toNat % 32)) s

/-- SHR. -/
def execShr (c : Fin 192) (e : Ecc) (s : State) : Result :=
  stewardStep .shr c e (aluReg c fun x y => x >>> (y.toNat % 32)) s

/-- SRA. -/
def execSra (c : Fin 192) (e : Ecc) (s : State) : Result :=
  stewardStep .sra c e (aluReg c fun x y => x.sshiftRight (y.toNat % 32)) s

/-- SLT. -/
def execSlt (c : Fin 192) (e : Ecc) (s : State) : Result :=
  stewardStep .slt c e (aluReg c fun x y => BitVec.ofNat 32 (b2n (x.slt y))) s

/-- SLTU. -/
def execSltu (c : Fin 192) (e : Ecc) (s : State) : Result :=
  stewardStep .sltu c e (aluReg c fun x y => BitVec.ofNat 32 (b2n (x.ult y))) s

/-- MUL. -/
def execMul (c : Fin 192) (e : Ecc) (s : State) : Result :=
  stewardStep .mul c e (aluReg c fun x y => x * y) s

/-- MULH. -/
def execMulh (c : Fin 192) (e : Ecc) (s : State) : Result :=
  stewardStep .mulh c e (aluReg c fun x y => mulHigh x y) s

/-- DIV. -/
def execDiv (c : Fin 192) (e : Ecc) (s : State) : Result :=
  stewardStep .div c e (aluReg c fun x y => divSigned x y) s

/-- DIVU. -/
def execDivu (c : Fin 192) (e : Ecc) (s : State) : Result :=
  stewardStep .divu c e (aluReg c fun x y => divUnsigned x y) s

/-- REM. -/
def execRem (c : Fin 192) (e : Ecc) (s : State) : Result :=
  stewardStep .rem c e (aluReg c fun x y => remSigned x y) s

/-- REMU. -/
def execRemu (c : Fin 192) (e : Ecc) (s : State) : Result :=
  stewardStep .remu c e (aluReg c fun x y => remUnsigned x y) s

/-- ADDI. -/
def execAddi (c : Fin 192) (e : Ecc) (s : State) : Result :=
  stewardStep .addi c e (aluImm c (fun x y => x + y) simmOf) s

/-- ANDI. -/
def execAndi (c : Fin 192) (e : Ecc) (s : State) : Result :=
  stewardStep .andi c e (aluImm c (fun x y => x &&& y) uimmOf) s

/-- ORI. -/
def execOri (c : Fin 192) (e : Ecc) (s : State) : Result :=
  stewardStep .ori c e (aluImm c (fun x y => x ||| y) uimmOf) s

/-- XORI. -/
def execXori (c : Fin 192) (e : Ecc) (s : State) : Result :=
  stewardStep .xori c e (aluImm c (fun x y => x ^^^ y) uimmOf) s

/-- SHLI. -/
def execShli (c : Fin 192) (e : Ecc) (s : State) : Result :=
  stewardStep .shli c e (aluImm c (fun x y => x <<< (y.toNat % 32)) uimmOf) s

/-- SHRI. -/
def execShri (c : Fin 192) (e : Ecc) (s : State) : Result :=
  stewardStep .shri c e (aluImm c (fun x y => x >>> (y.toNat % 32)) uimmOf) s

/-- SRAI. -/
def execSrai (c : Fin 192) (e : Ecc) (s : State) : Result :=
  stewardStep .srai c e (aluImm c (fun x y => x.sshiftRight (y.toNat % 32)) uimmOf) s

/-- LUI: gd = IMM16 × 2¹⁶. -/
def execLui (c : Fin 192) (e : Ecc) (s : State) : Result :=
  stewardStep .lui c e (aluImm c (fun _ y => y <<< 16) uimmOf) s

/-- LW. -/
def execLw (c : Fin 192) (e : Ecc) (s : State) : Result := stewardStep .lw c e (stwLoad c 4 (BitVec.ofNat 32)) s

/-- LH. -/
def execLh (c : Fin 192) (e : Ecc) (s : State) : Result := stewardStep .lh c e (stwLoad c 2 (fun v => (BitVec.ofNat 16 v).signExtend 32)) s

/-- LHU. -/
def execLhu (c : Fin 192) (e : Ecc) (s : State) : Result := stewardStep .lhu c e (stwLoad c 2 (BitVec.ofNat 32)) s

/-- LB. -/
def execLb (c : Fin 192) (e : Ecc) (s : State) : Result := stewardStep .lb c e (stwLoad c 1 (fun v => (BitVec.ofNat 8 v).signExtend 32)) s

/-- LBU. -/
def execLbu (c : Fin 192) (e : Ecc) (s : State) : Result := stewardStep .lbu c e (stwLoad c 1 (BitVec.ofNat 32)) s

/-- SW. -/
def execSw (c : Fin 192) (e : Ecc) (s : State) : Result := stewardStep .sw c e (stwStore c 4) s

/-- SH. -/
def execSh (c : Fin 192) (e : Ecc) (s : State) : Result := stewardStep .sh c e (stwStore c 2) s

/-- SB. -/
def execSb (c : Fin 192) (e : Ecc) (s : State) : Result := stewardStep .sb c e (stwStore c 1) s

/-- LWS: a 32-bit scratchpad word (R119); one bank access. -/
def execLws (c : Fin 192) (e : Ecc) (s : State) : Result :=
  stewardStep .lws c e (fun i s =>
    let k := s.core c
    let a := effAddr k i
    match accessFault a 4 spBytes with
    | some q => s.stwFault c q
    | none => (s.modCore c fun k => k.bump64 0x20610 1).stwWrite c i.d (BitVec.ofNat 32 (k.sp.readLE a 4))) s

/-- SWS: stores gd to a scratchpad word (R119); one bank access. -/
def execSws (c : Fin 192) (e : Ecc) (s : State) : Result :=
  stewardStep .sws c e (fun i s =>
    let k := s.core c
    let a := effAddr k i
    match accessFault a 4 spBytes with
    | some q => s.stwFault c q
    | none => s.stwDone c fun k =>
        { (k.bump64 0x20610 1) with sp := k.sp.writeLE a 4 (k.g i.d).toNat }) s

/-- BEQ. -/
def execBeq (c : Fin 192) (e : Ecc) (s : State) : Result := stewardStep .beq c e (branch c fun x y => x == y) s

/-- BNE. -/
def execBne (c : Fin 192) (e : Ecc) (s : State) : Result := stewardStep .bne c e (branch c fun x y => x != y) s

/-- BLT. -/
def execBlt (c : Fin 192) (e : Ecc) (s : State) : Result := stewardStep .blt c e (branch c fun x y => x.slt y) s

/-- BGE. -/
def execBge (c : Fin 192) (e : Ecc) (s : State) : Result := stewardStep .bge c e (branch c fun x y => !x.slt y) s

/-- BLTU. -/
def execBltu (c : Fin 192) (e : Ecc) (s : State) : Result := stewardStep .bltu c e (branch c fun x y => x.ult y) s

/-- BGEU. -/
def execBgeu (c : Fin 192) (e : Ecc) (s : State) : Result := stewardStep .bgeu c e (branch c fun x y => !x.ult y) s

/-- The target is a word index (R114); otherwise the jump faults with no other effect (assumption 11). -/
def jumpTo (c : Fin 192) (d : BitVec 5) (t : Int) (s : State) : State :=
  if 0 ≤ t ∧ t < 16384 then
    let link := BitVec.ofNat 32 ((s.core c).stw.pc.toNat + 1)
    (s.modCore c fun k => k.setG d link).stwGoto c t
  else s.stwFault c causeRange

/-- JAL: gd = index of the next word; OFFSET words from the jump. -/
def execJal (c : Fin 192) (e : Ecc) (s : State) : Result :=
  stewardStep .jal c e (fun i s => jumpTo c i.d ((s.core c).stw.pc.toNat + i.imm.toInt) s) s

/-- JALR: gd = index of the next word; jump to word ga + IMM16. -/
def execJalr (c : Fin 192) (e : Ecc) (s : State) : Result :=
  stewardStep .jalr c e (fun i s => jumpTo c i.d (effAddr (s.core c) i : Nat) s) s

end Sys2Proof.Machine
end

