-- ==== Sys2Proof/Machine/StewardFp.lean ====
section
/-! DEFINITION. The Steward's binary32 and binary64 instructions (R116): each result and its sticky
flags in CSR FFLAGS. -/

namespace Sys2Proof.Machine

/-- Sets sticky flags. -/
def Core.raise (k : Core) (f : FFlags) : Core := { k with stw := { k.stw with fflags := k.stw.fflags ||| f.bits } }

/-- Writes a single-register result with its flags. -/
def fpDone (c : Fin 192) (i : SInstr) (r : Nat × FFlags) (s : State) : State :=
  s.stwDone c fun k => (k.setG i.d (BitVec.ofNat 32 r.1)).raise r.2

/-- Writes a pair result with its flags. -/
def fpDonePair (c : Fin 192) (i : SInstr) (r : Nat × FFlags) (s : State) : State :=
  s.stwDone c fun k => (k.setPair i.d r.1).raise r.2

/-- binary32, gd = f(ga, gb). -/
def fpS2 (c : Fin 192) (f : Nat → Nat → Nat × FFlags) (i : SInstr) (s : State) : State :=
  fpDone c i (f ((s.core c).g i.a).toNat ((s.core c).g i.b).toNat) s

/-- binary32, gd = f(ga). -/
def fpS1 (c : Fin 192) (f : Nat → Nat × FFlags) (i : SInstr) (s : State) : State :=
  fpDone c i (f ((s.core c).g i.a).toNat) s

/-- binary64 pairs. -/
def fpD2 (c : Fin 192) (f : Nat → Nat → Nat × FFlags) (i : SInstr) (s : State) : State :=
  fpDonePair c i (f ((s.core c).gPair i.a) ((s.core c).gPair i.b)) s

/-- A comparison of pairs into a single register. -/
def fpDCmp (c : Fin 192) (f : Nat → Nat → Nat × FFlags) (i : SInstr) (s : State) : State :=
  fpDone c i (f ((s.core c).gPair i.a) ((s.core c).gPair i.b)) s

/-- Less than or equal, as numbers. -/
def Val.le (x y : Val) : Bool := x.lt y || x.eqv y

/-- FADD.S. -/
def execFaddS (c : Fin 192) (e : Ecc) (s : State) : Result := stewardStep .faddS c e (fpS2 c (fpAdd fp32)) s

/-- FSUB.S. -/
def execFsubS (c : Fin 192) (e : Ecc) (s : State) : Result := stewardStep .fsubS c e (fpS2 c (fpSub fp32)) s

/-- FMUL.S. -/
def execFmulS (c : Fin 192) (e : Ecc) (s : State) : Result := stewardStep .fmulS c e (fpS2 c (fpMul fp32)) s

/-- FDIV.S. -/
def execFdivS (c : Fin 192) (e : Ecc) (s : State) : Result := stewardStep .fdivS c e (fpS2 c (fpDiv fp32)) s

/-- FMIN.S. -/
def execFminS (c : Fin 192) (e : Ecc) (s : State) : Result := stewardStep .fminS c e (fpS2 c (fpMinMax fp32 false)) s

/-- FMAX.S. -/
def execFmaxS (c : Fin 192) (e : Ecc) (s : State) : Result := stewardStep .fmaxS c e (fpS2 c (fpMinMax fp32 true)) s

/-- FEQ.S. -/
def execFeqS (c : Fin 192) (e : Ecc) (s : State) : Result := stewardStep .feqS c e (fpS2 c (fpCmp fp32 true Val.eqv)) s

/-- FLT.S. -/
def execFltS (c : Fin 192) (e : Ecc) (s : State) : Result := stewardStep .fltS c e (fpS2 c (fpCmp fp32 false Val.lt)) s

/-- FLE.S. -/
def execFleS (c : Fin 192) (e : Ecc) (s : State) : Result := stewardStep .fleS c e (fpS2 c (fpCmp fp32 false Val.le)) s

/-- FADD.D. -/
def execFaddD (c : Fin 192) (e : Ecc) (s : State) : Result := stewardStep .faddD c e (fpD2 c (fpAdd fp64)) s

/-- FSUB.D. -/
def execFsubD (c : Fin 192) (e : Ecc) (s : State) : Result := stewardStep .fsubD c e (fpD2 c (fpSub fp64)) s

/-- FMUL.D. -/
def execFmulD (c : Fin 192) (e : Ecc) (s : State) : Result := stewardStep .fmulD c e (fpD2 c (fpMul fp64)) s

/-- FDIV.D. -/
def execFdivD (c : Fin 192) (e : Ecc) (s : State) : Result := stewardStep .fdivD c e (fpD2 c (fpDiv fp64)) s

/-- FMIN.D. -/
def execFminD (c : Fin 192) (e : Ecc) (s : State) : Result := stewardStep .fminD c e (fpD2 c (fpMinMax fp64 false)) s

/-- FMAX.D. -/
def execFmaxD (c : Fin 192) (e : Ecc) (s : State) : Result := stewardStep .fmaxD c e (fpD2 c (fpMinMax fp64 true)) s

/-- FEQ.D. -/
def execFeqD (c : Fin 192) (e : Ecc) (s : State) : Result := stewardStep .feqD c e (fpDCmp c (fpCmp fp64 true Val.eqv)) s

/-- FLT.D. -/
def execFltD (c : Fin 192) (e : Ecc) (s : State) : Result := stewardStep .fltD c e (fpDCmp c (fpCmp fp64 false Val.lt)) s

/-- FLE.D. -/
def execFleD (c : Fin 192) (e : Ecc) (s : State) : Result := stewardStep .fleD c e (fpDCmp c (fpCmp fp64 false Val.le)) s

/-- FSQRT.S. -/
def execFsqrtS (c : Fin 192) (e : Ecc) (s : State) : Result := stewardStep .fsqrtS c e (fpS1 c (fpSqrt fp32)) s

/-- FSQRT.D. -/
def execFsqrtD (c : Fin 192) (e : Ecc) (s : State) : Result :=
  stewardStep .fsqrtD c e (fun i s => fpDonePair c i (fpSqrt fp64 ((s.core c).gPair i.a)) s) s

/-- FCVT.S.W: a signed integer to binary32. -/
def execFcvtSW (c : Fin 192) (e : Ecc) (s : State) : Result := stewardStep .fcvtSW c e (fpS1 c (fpFromInt fp32)) s

/-- FCVT.W.S: binary32 to a signed integer. -/
def execFcvtWS (c : Fin 192) (e : Ecc) (s : State) : Result := stewardStep .fcvtWS c e (fpS1 c (fpToInt fp32)) s

/-- FCVT.D.W: a signed integer to binary64. -/
def execFcvtDW (c : Fin 192) (e : Ecc) (s : State) : Result :=
  stewardStep .fcvtDW c e (fun i s => fpDonePair c i (fpFromInt fp64 ((s.core c).g i.a).toNat) s) s

/-- FCVT.W.D: binary64 to a signed integer. -/
def execFcvtWD (c : Fin 192) (e : Ecc) (s : State) : Result :=
  stewardStep .fcvtWD c e (fun i s => fpDone c i (fpToInt fp64 ((s.core c).gPair i.a)) s) s

/-- FMA.S: gd = gd + ga × gb, one rounding. -/
def execFmaS (c : Fin 192) (e : Ecc) (s : State) : Result :=
  stewardStep .fmaS c e (fun i s =>
    let k := s.core c
    fpDone c i (fpFma fp32 (k.g i.a).toNat (k.g i.b).toNat (k.g i.d).toNat) s) s

/-- FMA.D: gd = gd + ga × gb, one rounding. -/
def execFmaD (c : Fin 192) (e : Ecc) (s : State) : Result :=
  stewardStep .fmaD c e (fun i s =>
    let k := s.core c
    fpDonePair c i (fpFma fp64 (k.gPair i.a) (k.gPair i.b) (k.gPair i.d)) s) s

/-- FCVT.D.S reads a single ga. -/
def execFcvtDS (c : Fin 192) (e : Ecc) (s : State) : Result :=
  stewardStep .fcvtDS c e (fun i s => fpDonePair c i (fpConvert fp32 fp64 ((s.core c).g i.a).toNat) s) s

/-- FCVT.S.D writes a single gd. -/
def execFcvtSD (c : Fin 192) (e : Ecc) (s : State) : Result :=
  stewardStep .fcvtSD c e (fun i s => fpDone c i (fpConvert fp64 fp32 ((s.core c).gPair i.a)) s) s

end Sys2Proof.Machine
end

