-- ==== Sys2Proof/Machine/Dispatch.lean ====
section
/-! DEFINITION. What each command does: one arm per row of spec/opcode_table.json, each one call of its meaning. -/

namespace Sys2Proof.Machine

def exec (i : Instr) (s : State) : Host.Outcome State Fault Refusal :=
  match i with
  | .add c e => Sys2Proof.Machine.execAdd c e s
  | .sub c e => Sys2Proof.Machine.execSub c e s
  | .and c e => Sys2Proof.Machine.execAnd c e s
  | .or c e => Sys2Proof.Machine.execOr c e s
  | .xor c e => Sys2Proof.Machine.execXor c e s
  | .shl c e => Sys2Proof.Machine.execShl c e s
  | .shr c e => Sys2Proof.Machine.execShr c e s
  | .sra c e => Sys2Proof.Machine.execSra c e s
  | .slt c e => Sys2Proof.Machine.execSlt c e s
  | .sltu c e => Sys2Proof.Machine.execSltu c e s
  | .mul c e => Sys2Proof.Machine.execMul c e s
  | .mulh c e => Sys2Proof.Machine.execMulh c e s
  | .div c e => Sys2Proof.Machine.execDiv c e s
  | .divu c e => Sys2Proof.Machine.execDivu c e s
  | .rem c e => Sys2Proof.Machine.execRem c e s
  | .remu c e => Sys2Proof.Machine.execRemu c e s
  | .addi c e => Sys2Proof.Machine.execAddi c e s
  | .andi c e => Sys2Proof.Machine.execAndi c e s
  | .ori c e => Sys2Proof.Machine.execOri c e s
  | .xori c e => Sys2Proof.Machine.execXori c e s
  | .shli c e => Sys2Proof.Machine.execShli c e s
  | .shri c e => Sys2Proof.Machine.execShri c e s
  | .srai c e => Sys2Proof.Machine.execSrai c e s
  | .lui c e => Sys2Proof.Machine.execLui c e s
  | .lw c e => Sys2Proof.Machine.execLw c e s
  | .lh c e => Sys2Proof.Machine.execLh c e s
  | .lhu c e => Sys2Proof.Machine.execLhu c e s
  | .lb c e => Sys2Proof.Machine.execLb c e s
  | .lbu c e => Sys2Proof.Machine.execLbu c e s
  | .sw c e => Sys2Proof.Machine.execSw c e s
  | .sh c e => Sys2Proof.Machine.execSh c e s
  | .sb c e => Sys2Proof.Machine.execSb c e s
  | .lws c e => Sys2Proof.Machine.execLws c e s
  | .sws c e => Sys2Proof.Machine.execSws c e s
  | .beq c e => Sys2Proof.Machine.execBeq c e s
  | .bne c e => Sys2Proof.Machine.execBne c e s
  | .blt c e => Sys2Proof.Machine.execBlt c e s
  | .bge c e => Sys2Proof.Machine.execBge c e s
  | .bltu c e => Sys2Proof.Machine.execBltu c e s
  | .bgeu c e => Sys2Proof.Machine.execBgeu c e s
  | .jal c e => Sys2Proof.Machine.execJal c e s
  | .jalr c e => Sys2Proof.Machine.execJalr c e s
  | .faddS c e => Sys2Proof.Machine.execFaddS c e s
  | .fsubS c e => Sys2Proof.Machine.execFsubS c e s
  | .fmulS c e => Sys2Proof.Machine.execFmulS c e s
  | .fdivS c e => Sys2Proof.Machine.execFdivS c e s
  | .fsqrtS c e => Sys2Proof.Machine.execFsqrtS c e s
  | .fminS c e => Sys2Proof.Machine.execFminS c e s
  | .fmaxS c e => Sys2Proof.Machine.execFmaxS c e s
  | .feqS c e => Sys2Proof.Machine.execFeqS c e s
  | .fltS c e => Sys2Proof.Machine.execFltS c e s
  | .fleS c e => Sys2Proof.Machine.execFleS c e s
  | .fcvtSW c e => Sys2Proof.Machine.execFcvtSW c e s
  | .fcvtWS c e => Sys2Proof.Machine.execFcvtWS c e s
  | .fmaS c e => Sys2Proof.Machine.execFmaS c e s
  | .faddD c e => Sys2Proof.Machine.execFaddD c e s
  | .fsubD c e => Sys2Proof.Machine.execFsubD c e s
  | .fmulD c e => Sys2Proof.Machine.execFmulD c e s
  | .fdivD c e => Sys2Proof.Machine.execFdivD c e s
  | .fsqrtD c e => Sys2Proof.Machine.execFsqrtD c e s
  | .fminD c e => Sys2Proof.Machine.execFminD c e s
  | .fmaxD c e => Sys2Proof.Machine.execFmaxD c e s
  | .feqD c e => Sys2Proof.Machine.execFeqD c e s
  | .fltD c e => Sys2Proof.Machine.execFltD c e s
  | .fleD c e => Sys2Proof.Machine.execFleD c e s
  | .fcvtDW c e => Sys2Proof.Machine.execFcvtDW c e s
  | .fcvtWD c e => Sys2Proof.Machine.execFcvtWD c e s
  | .fmaD c e => Sys2Proof.Machine.execFmaD c e s
  | .fcvtDS c e => Sys2Proof.Machine.execFcvtDS c e s
  | .fcvtSD c e => Sys2Proof.Machine.execFcvtSD c e s
  | .fld c e => Sys2Proof.Machine.execFld c e s
  | .farm c e => Sys2Proof.Machine.execFarm c e s
  | .fstat c e => Sys2Proof.Machine.execFstat c e s
  | .frd c e => Sys2Proof.Machine.execFrd c e s
  | .pwr c e => Sys2Proof.Machine.execPwr c e s
  | .prd c e => Sys2Proof.Machine.execPrd c e s
  | .mskw c e => Sys2Proof.Machine.execMskw c e s
  | .wait c e => Sys2Proof.Machine.execWait c e s
  | .csrr c e => Sys2Proof.Machine.execCsrr c e s
  | .csrw c e => Sys2Proof.Machine.execCsrw c e s
  | .halt c e => Sys2Proof.Machine.execHalt c e s
  | .imemFlipRequest w c => Sys2Proof.Machine.execImemFlipRequest w c s
  | .imemFlipTaken c => Sys2Proof.Machine.execImemFlipTaken c s
  | .stewardStart w c => Sys2Proof.Machine.execStewardStart w c s
  | .stewardStop w c => Sys2Proof.Machine.execStewardStop w c s
  | .pick c array => Sys2Proof.Machine.execPick c array s
  | .instanceEnd c k w => Sys2Proof.Machine.execInstanceEnd c k w s
  | .instanceCancel c k status unstarted => Sys2Proof.Machine.execInstanceCancel c k status unstarted s
  | .nop c k stallBE => Sys2Proof.Machine.execNop c k stallBE s
  | .opx c k stallBE => Sys2Proof.Machine.execOpx c k stallBE s
  | .opxComplete c w => Sys2Proof.Machine.execOpxComplete c w s
  | .caravanSlotCheck c w => Sys2Proof.Machine.execCaravanSlotCheck c w s
  | .skewLimitExpiry c => Sys2Proof.Machine.execSkewLimitExpiry c s
  | .red c k stallBE => Sys2Proof.Machine.execRed c k stallBE s
  | .redComplete c w => Sys2Proof.Machine.execRedComplete c w s
  | .ewl c k stallBE => Sys2Proof.Machine.execEwl c k stallBE s
  | .ewlComplete c w => Sys2Proof.Machine.execEwlComplete c w s
  | .tload c k stallBE => Sys2Proof.Machine.execTload c k stallBE s
  | .swp c k stallBE => Sys2Proof.Machine.execSwp c k stallBE s
  | .accld c k stallBE => Sys2Proof.Machine.execAccld c k stallBE s
  | .accldComplete c shadow w => Sys2Proof.Machine.execAccldComplete c shadow w s
  | .drn c k stallBE => Sys2Proof.Machine.execDrn c k stallBE s
  | .drnComplete c shadow w => Sys2Proof.Machine.execDrnComplete c shadow w s
  | .ldt c k stallBE errs => Sys2Proof.Machine.execLdt c k stallBE errs s
  | .ldtComplete c pos w => Sys2Proof.Machine.execLdtComplete c pos w s
  | .stt c k stallBE => Sys2Proof.Machine.execStt c k stallBE s
  | .sttComplete c pos w => Sys2Proof.Machine.execSttComplete c pos w s
  | .acw c k stallBE => Sys2Proof.Machine.execAcw c k stallBE s
  | .acwComplete c pos w errs => Sys2Proof.Machine.execAcwComplete c pos w errs s
  | .xmt c k stallBE => Sys2Proof.Machine.execXmt c k stallBE s
  | .xmtComplete c pos w => Sys2Proof.Machine.execXmtComplete c pos w s
  | .bqp c k stallBE tie => Sys2Proof.Machine.execBqp c k stallBE tie s
  | .bqpAccept c k w => Sys2Proof.Machine.execBqpAccept c k w s
  | .bqt c k stallBE => Sys2Proof.Machine.execBqt c k stallBE s
  | .bqtTake c k w => Sys2Proof.Machine.execBqtTake c k w s
  | .wct c k stallBE => Sys2Proof.Machine.execWct c k stallBE s
  | .wctCountMet c k waitBE => Sys2Proof.Machine.execWctCountMet c k waitBE s
  | .wctTimeout c k waitBE => Sys2Proof.Machine.execWctTimeout c k waitBE s
  | .pset c k stallBE => Sys2Proof.Machine.execPset c k stallBE s
  | .psetCounter c k stallBE => Sys2Proof.Machine.execPsetCounter c k stallBE s
  | .fence c k stallBE => Sys2Proof.Machine.execFence c k stallBE s
  | .fenceRelease c k waitBE => Sys2Proof.Machine.execFenceRelease c k waitBE s
  | .caravanTileArrive c w => Sys2Proof.Machine.execCaravanTileArrive c w s
  | .caravanForward c w => Sys2Proof.Machine.execCaravanForward c w s
  | .resume w c => Sys2Proof.Machine.execResume w c s
  | .flush w c => Sys2Proof.Machine.execFlush w c s
  | .unbind w c => Sys2Proof.Machine.execUnbind w c s
  | .mbAbort x mb status => Sys2Proof.Machine.execMbAbort x mb status s
  | .stashRelease x mb => Sys2Proof.Machine.execStashRelease x mb s
  | .admitMb x => Sys2Proof.Machine.execAdmitMb x s
  | .stepOpen x => Sys2Proof.Machine.execStepOpen x s
  | .stepBoundary x awaited => Sys2Proof.Machine.execStepBoundary x awaited s
  | .snapshotStopEnd x us errs => Sys2Proof.Machine.execSnapshotStopEnd x us errs s
  | .snapshotDrainComplete x ok => Sys2Proof.Machine.execSnapshotDrainComplete x ok s
  | .refetchComplete slot arrived errs => Sys2Proof.Machine.execRefetchComplete slot arrived errs s
  | .wcEntryTimeout ch granule errs => Sys2Proof.Machine.execWcEntryTimeout ch granule errs s
  | .channelPick ch ns own => Sys2Proof.Machine.execChannelPick ch ns own s
  | .regionCloseEffect base errs => Sys2Proof.Machine.execRegionCloseEffect base errs s
  | .marginScan w ch => Sys2Proof.Machine.execMarginScan w ch s
  | .retrain w ch errs => Sys2Proof.Machine.execRetrain w ch errs s
  | .channelServiceComplete ch tMin vMin lane us errs => Sys2Proof.Machine.execChannelServiceComplete ch tMin vMin lane us errs s
  | .bar4Read f off len errs => Sys2Proof.Machine.execBar4Read f off len errs s
  | .bar4Write f off data errs => Sys2Proof.Machine.execBar4Write f off data errs s
  | .portTrain p => Sys2Proof.Machine.execPortTrain p s
  | .portTrainDone p r ms => Sys2Proof.Machine.execPortTrainDone p r ms s
  | .neighborIdAnnounce p id => Sys2Proof.Machine.execNeighborIdAnnounce p id s
  | .selfIdWrite w value => Sys2Proof.Machine.execSelfIdWrite w value s
  | .flitReceive p data ctl crc corr01 corr23 uncorr stall => Sys2Proof.Machine.execFlitReceive p data ctl crc corr01 corr23 uncorr stall s
  | .flitAckTimer p => Sys2Proof.Machine.execFlitAckTimer p s
  | .neighborSilent p => Sys2Proof.Machine.execNeighborSilent p s
  | .portRetrain w p => Sys2Proof.Machine.execPortRetrain w p s
  | .portOutOfService w p => Sys2Proof.Machine.execPortOutOfService w p s
  | .portReturnToService w p => Sys2Proof.Machine.execPortReturnToService w p s
  | .packetRoute head => Sys2Proof.Machine.execPacketRoute head s
  | .write pkt errs => Sys2Proof.Machine.execWrite pkt errs s
  | .readReq pkt errs => Sys2Proof.Machine.execReadReq pkt errs s
  | .readResp pkt => Sys2Proof.Machine.execReadResp pkt s
  | .completion pkt => Sys2Proof.Machine.execCompletion pkt s
  | .packetTimeout stream seq => Sys2Proof.Machine.execPacketTimeout stream seq s
  | .vcStallEvent p vc => Sys2Proof.Machine.execVcStallEvent p vc s
  | .beginLoad w epoch => Sys2Proof.Machine.execBeginLoad w epoch s
  | .loadDone w => Sys2Proof.Machine.execLoadDone w s
  | .flip w => Sys2Proof.Machine.execFlip w s
  | .retire w => Sys2Proof.Machine.execRetire w s
  | .forceRetire w => Sys2Proof.Machine.execForceRetire w s
  | .abandonLoad w => Sys2Proof.Machine.execAbandonLoad w s
  | .tableEntryStore w n value => Sys2Proof.Machine.execTableEntryStore w n value s
  | .fenceUpdate w value => Sys2Proof.Machine.execFenceUpdate w value s
  | .tollTileComplete t layer tile errs => Sys2Proof.Machine.execTollTileComplete t layer tile errs s
  | .lossWaitExpiry => Sys2Proof.Machine.execLossWaitExpiry s
  | .arriveLimitExpiry layer => Sys2Proof.Machine.execArriveLimitExpiry layer s
  | .tollApplyStart t bad errs => Sys2Proof.Machine.execTollApplyStart t bad errs s
  | .tollApplyEnd t => Sys2Proof.Machine.execTollApplyEnd t s
  | .doorbell f x r value => Sys2Proof.Machine.execDoorbell f x r value s
  | .descriptorFetch r bytes => Sys2Proof.Machine.execDescriptorFetch r bytes s
  | .descNop r n => Sys2Proof.Machine.execDescNop r n s
  | .step r n => Sys2Proof.Machine.execStep r n s
  | .microbatch r n => Sys2Proof.Machine.execMicrobatch r n s
  | .decode r n data => Sys2Proof.Machine.execDecode r n data s
  | .decodeDeadline x => Sys2Proof.Machine.execDecodeDeadline x s
  | .copy r n data errs => Sys2Proof.Machine.execCopy r n data errs s
  | .imemLoad r n data => Sys2Proof.Machine.execImemLoad r n data s
  | .dmemLoad r n data => Sys2Proof.Machine.execDmemLoad r n data s
  | .regionOpen r n data => Sys2Proof.Machine.execRegionOpen r n data s
  | .regionClose r n => Sys2Proof.Machine.execRegionClose r n s
  | .regionFlush r n errs => Sys2Proof.Machine.execRegionFlush r n errs s
  | .windowOpen r n => Sys2Proof.Machine.execWindowOpen r n s
  | .windowClose r n => Sys2Proof.Machine.execWindowClose r n s
  | .tableLoad r n data => Sys2Proof.Machine.execTableLoad r n data s
  | .streamSet r n => Sys2Proof.Machine.execStreamSet r n s
  | .streamClear r n => Sys2Proof.Machine.execStreamClear r n s
  | .streamArm f x st value => Sys2Proof.Machine.execStreamArm f x st value s
  | .streamTransferComplete x st data errs => Sys2Proof.Machine.execStreamTransferComplete x st data errs s
  | .completionRecordWrite cq => Sys2Proof.Machine.execCompletionRecordWrite cq s
  | .cqHeadRelease f x cq value => Sys2Proof.Machine.execCqHeadRelease f x cq value s
  | .interruptCoalTimer cq => Sys2Proof.Machine.execInterruptCoalTimer cq s
  | .ringEnable f isCq r value => Sys2Proof.Machine.execRingEnable f isCq r value s
  | .hostPieceServe waiting => Sys2Proof.Machine.execHostPieceServe waiting s
  | .mailboxDoorbell f value => Sys2Proof.Machine.execMailboxDoorbell f value s
  | .evtHeadWrite f value => Sys2Proof.Machine.execEvtHeadWrite f value s
  | .ctxOpen f => Sys2Proof.Machine.execCtxOpen f s
  | .ctxClose f errs => Sys2Proof.Machine.execCtxClose f errs s
  | .ctxReclaim f => Sys2Proof.Machine.execCtxReclaim f s
  | .ctxResume f => Sys2Proof.Machine.execCtxResume f s
  | .mbCancel f => Sys2Proof.Machine.execMbCancel f s
  | .decodeCfg f => Sys2Proof.Machine.execDecodeCfg f s
  | .leaseBeat f value => Sys2Proof.Machine.execLeaseBeat f value s
  | .leaseWarning f => Sys2Proof.Machine.execLeaseWarning f s
  | .leaseExpiry f => Sys2Proof.Machine.execLeaseExpiry f s
  | .rearm f value => Sys2Proof.Machine.execRearm f value s
  | .functionLevelReset f numVfs => Sys2Proof.Machine.execFunctionLevelReset f numVfs s
  | .planPublish => Sys2Proof.Machine.execPlanPublish s
  | .hearthTick h => Sys2Proof.Machine.execHearthTick h s
  | .valveTick inlet outlet flow => Sys2Proof.Machine.execValveTick inlet outlet flow s
  | .flowLow => Sys2Proof.Machine.execFlowLow s
  | .flowLost => Sys2Proof.Machine.execFlowLost s
  | .inletHigh => Sys2Proof.Machine.execInletHigh s
  | .throttleAssert => Sys2Proof.Machine.execThrottleAssert s
  | .throttleDeassert => Sys2Proof.Machine.execThrottleDeassert s
  | .thrStuck => Sys2Proof.Machine.execThrStuck s
  | .pinGlitch leak => Sys2Proof.Machine.execPinGlitch leak s
  | .chatterEval thr leak => Sys2Proof.Machine.execChatterEval thr leak s
  | .leakAssert => Sys2Proof.Machine.execLeakAssert s
  | .leak => Sys2Proof.Machine.execLeak s
  | .overTemperature => Sys2Proof.Machine.execOverTemperature s
  | .persistentOverTemperature => Sys2Proof.Machine.execPersistentOverTemperature s
  | .vmainLow => Sys2Proof.Machine.execVmainLow s
  | .vmainCollapse => Sys2Proof.Machine.execVmainCollapse s
  | .vmainHigh => Sys2Proof.Machine.execVmainHigh s
  | .inputOverPower => Sys2Proof.Machine.execInputOverPower s
  | .islandOverCurrent n => Sys2Proof.Machine.execIslandOverCurrent n s
  | .sequencerSilent => Sys2Proof.Machine.execSequencerSilent s
  | .emergencyRelease cond n => Sys2Proof.Machine.execEmergencyRelease cond n s
  | .telemetryWindow => Sys2Proof.Machine.execTelemetryWindow s
  | .coreRemap c cause => Sys2Proof.Machine.execCoreRemap c cause s
  | .lanternCmd w value => Sys2Proof.Machine.execLanternCmd w value s
  | .lanternSweepStart => Sys2Proof.Machine.execLanternSweepStart s
  | .lanternSweepEnd u faults o d => Sys2Proof.Machine.execLanternSweepEnd u faults o d s
  | .paceCal w value => Sys2Proof.Machine.execPaceCal w value s
  | .paceCalEnd c raw pace => Sys2Proof.Machine.execPaceCalEnd c raw pace s
  | .snapNow w x => Sys2Proof.Machine.execSnapNow w x s
  | .restore w x value => Sys2Proof.Machine.execRestore w x value s
  | .restoreComplete x r saved => Sys2Proof.Machine.execRestoreComplete x r saved s
  | .accept w x => Sys2Proof.Machine.execAccept w x s
  | .taint w x => Sys2Proof.Machine.execTaint w x s
  | .regRead m off sel => Sys2Proof.Machine.execRegRead m off sel s
  | .regWrite m off sel value => Sys2Proof.Machine.execRegWrite m off sel value s
  | .imageBegin m type total => Sys2Proof.Machine.execImageBegin m type total s
  | .imageData m off data => Sys2Proof.Machine.execImageData m off data s
  | .imageVerify m type k => Sys2Proof.Machine.execImageVerify m type k s
  | .imageActivate m type mode => Sys2Proof.Machine.execImageActivate m type mode s
  | .deferredActivationStart => Sys2Proof.Machine.execDeferredActivationStart s
  | .handoffReady us => Sys2Proof.Machine.execHandoffReady us s
  | .handoffTimeout => Sys2Proof.Machine.execHandoffTimeout s
  | .imageCommit m type => Sys2Proof.Machine.execImageCommit m type s
  | .imageAbandon m type => Sys2Proof.Machine.execImageAbandon m type s
  | .collectorSet m addr => Sys2Proof.Machine.execCollectorSet m addr s
  | .emergencyClear m => Sys2Proof.Machine.execEmergencyClear m s
  | .anchorAdd m hash => Sys2Proof.Machine.execAnchorAdd m hash s
  | .anchorRemove m hash => Sys2Proof.Machine.execAnchorRemove m hash s
  | .ownershipClear m => Sys2Proof.Machine.execOwnershipClear m s
  | .reportAck tagOk seq => Sys2Proof.Machine.execReportAck tagOk seq s
  | .reportResend => Sys2Proof.Machine.execReportResend s
  | .getMeasurements => Sys2Proof.Machine.execGetMeasurements s
  | .gettid => Sys2Proof.Machine.execGettid s
  | .getpldmversion => Sys2Proof.Machine.execGetpldmversion s
  | .getpldmtypes => Sys2Proof.Machine.execGetpldmtypes s
  | .getpldmcommands => Sys2Proof.Machine.execGetpldmcommands s
  | .getpdrrepositoryinfo => Sys2Proof.Machine.execGetpdrrepositoryinfo s
  | .getpdr record => Sys2Proof.Machine.execGetpdr record s
  | .getsensorreading sensor => Sys2Proof.Machine.execGetsensorreading sensor s
  | .getstatesensorreadings sensor => Sys2Proof.Machine.execGetstatesensorreadings sensor s
  | .seteventreceiver addr => Sys2Proof.Machine.execSeteventreceiver addr s
  | .getfrurecordtablemetadata => Sys2Proof.Machine.execGetfrurecordtablemetadata s
  | .getfrurecordtable => Sys2Proof.Machine.execGetfrurecordtable s
  | .unsupportedPldmCmd type cmd => Sys2Proof.Machine.execUnsupportedPldmCmd type cmd s
  | .i3cDynamicAddress addr => Sys2Proof.Machine.execI3cDynamicAddress addr s
  | .vauxUp imageOk => Sys2Proof.Machine.execVauxUp imageOk s
  | .vauxLoss => Sys2Proof.Machine.execVauxLoss s
  | .railsEnable mv b => Sys2Proof.Machine.execRailsEnable mv b s
  | .perstRelease strap width rate => Sys2Proof.Machine.execPerstRelease strap width rate s
  | .moduleReady ms3 msP => Sys2Proof.Machine.execModuleReady ms3 msP s
  | .perstAssert => Sys2Proof.Machine.execPerstAssert s
  | .registerWrite f off be value => Sys2Proof.Machine.execRegisterWrite f off be value s
  | .registerReadLoLatch f off => Sys2Proof.Machine.execRegisterReadLoLatch f off s
  | .leakDeassert => Sys2Proof.Machine.execLeakDeassert s
  | .guardUsExpiry c => Sys2Proof.Machine.execGuardUsExpiry c s
  | .keyExchange t mutAuth root => Sys2Proof.Machine.execKeyExchange t mutAuth root s
  | .endSession session => Sys2Proof.Machine.execEndSession session s
  | .ideKm inSession stream => Sys2Proof.Machine.execIdeKm inSession stream s
  | .ideIntegrityFailure stream => Sys2Proof.Machine.execIdeIntegrityFailure stream s
  | .mctpControl cmd => Sys2Proof.Machine.execMctpControl cmd s

end Sys2Proof.Machine
end

