-- ==== Sys2Proof/Safety.lean ====
section
/-! DEFINITION. What counts as a safe state and a safe step, in the terms the statements use. -/

namespace Sys2Proof.Safety

open Sys2Proof.Machine

/-- A core's memories and registers are in their canonical form. -/
def CoreCanonical (k : Core) : Prop :=
  k.sp.wf = true ∧ k.dmem.wf = true ∧ SMap.wf coreReset k.regs = true ∧ SMap.wf (fun _ => (0 : Word)) k.imem0 = true ∧
    SMap.wf (fun _ => (0 : Word)) k.imem1 = true

/-- Every memory, register block and table is in its canonical form: both tiers, the module's registers, counters, layers, streams
and fences, and what each core, channel, function, Tollhouse, routing bank and image slot holds. -/
def Canonical (s : State) : Prop :=
  (s.mem.wf = true ∧ SMap.wf glbReset s.regs = true ∧ SMap.wf (fun _ => (0 : Word)) s.cc = true ∧ SMap.wf dirDefault s.dir = true ∧
    SMap.wf layerDefault s.layers = true ∧ SMap.wf streamDefault s.streams = true ∧ SMap.wf noWord s.fence = true) ∧
  (∀ c : Fin 192, CoreCanonical (s.core c)) ∧
  (∀ c : Fin 208, SMap.wf chanReset (s.chan c).regs = true ∧ SMap.wf zeroTokens (s.chan c).tokens = true) ∧
  (∀ f : Fin 32, (s.fn f).box.wf = true ∧ SMap.wf fnReset (s.fn f).regs = true ∧ SMap.wf noReg (s.fn f).latch = true) ∧
  (∀ t : Fin 4, SMap.wf tollReset (s.toll t).regs = true) ∧
  (∀ b : Fin 2, SMap.wf noWord (s.bank b).route = true ∧ SMap.wf noWord (s.bank b).group = true) ∧
  ∀ i : Fin 3, (s.image i).a.bytes.wf = true ∧ (s.image i).b.bytes.wf = true

/- The Steward. -/

/-- Core `c`'s Steward runs, no snapshot stop holds it, the coded memories report no uncorrectable error, and the word at
its program counter in the active bank spells `i` (R114, R115). -/
def Fetches (c : Fin 192) (e : Ecc) (i : SInstr) (s : State) : Prop :=
  (s.core c).stw.state = .running ∧ s.stwHeld c = false ∧ e ≠ .uncorrectable ∧
    decodeSteward ((s.core c).fetch (s.core c).stw.pc.toNat).toNat = some i

/-- As `Fetches`, at a word that another follows. -/
def FetchesOn (c : Fin 192) (e : Ecc) (i : SInstr) (s : State) : Prop :=
  Fetches c e i s ∧ (s.core c).stw.pc.toNat < 16383

/-- The state once a corrected error is counted in the RAS counters (R114). -/
def counted (e : Ecc) (s : State) : State := if e = .corrected then s.bumpField 0x90030 15 0 1 else s

/-- The core with its Steward at word `n`. -/
def atWord (k : Core) (n : Nat) : Core := { k with stw := { k.stw with pc := BitVec.ofNat 14 n } }

/-- The core with its Steward at the next word. -/
def goesOn (k : Core) : Core := atWord k (k.stw.pc.toNat + 1)

/-- The instruction that core `c`'s Steward has executed changed that core only, as `f` says, and went on to the next word. -/
def ran (c : Fin 192) (e : Ecc) (s : State) (f : Core → Core) : Result :=
  .next ((counted e s).setCore c (goesOn (f (s.core c))))

/-- Every row of a Steward instruction. -/
def stewardCmds : List (Fin 192 → Ecc → Instr) :=
  [.add, .sub, .and, .or, .xor, .shl, .shr, .sra, .slt, .sltu, .mul, .mulh, .div, .divu, .rem, .remu, .addi, .andi,
   .ori, .xori, .shli, .shri, .srai, .lui, .lw, .lh, .lhu, .lb, .lbu, .sw, .sh, .sb, .lws, .sws, .beq, .bne, .blt,
   .bge, .bltu, .bgeu, .jal, .jalr, .faddS, .fsubS, .fmulS, .fdivS, .fsqrtS, .fminS, .fmaxS, .feqS, .fltS, .fleS,
   .fcvtSW, .fcvtWS, .fmaS, .faddD, .fsubD, .fmulD, .fdivD, .fsqrtD, .fminD, .fmaxD, .feqD, .fltD, .fleD, .fcvtDW,
   .fcvtWD, .fmaD, .fcvtDS, .fcvtSD, .fld, .farm, .fstat, .frd, .pwr, .prd, .mskw, .wait, .csrr, .csrw, .halt]

/- Tile commands. -/

/-- Instance `n` of frame `f`, in slot `i` of core `c`, runs and its next command is `cmd` (R126 to R128). -/
def NextIs (c : Fin 192) (i : Fin 8) (n : Inst) (f : Frame) (cmd : TileCmd) (s : State) : Prop :=
  ((s.core c).slot i).inst = some n ∧ (s.core c).frame i = some f ∧ n.running = true ∧ n.held = none ∧ n.failed = none ∧
    n.next < n.len ∧
    decodeTile ((s.core c).cmdWords n n.next).1 ((s.core c).cmdWords n n.next).2.1 ((s.core c).cmdWords n n.next).2.2.1
      ((s.core c).cmdWords n n.next).2.2.2 = some cmd

/-- As `NextIs`, with the command's predicate true (R134). -/
def Issues (c : Fin 192) (i : Fin 8) (n : Inst) (f : Frame) (cmd : TileCmd) (s : State) : Prop :=
  NextIs c i n f cmd s ∧ (s.core c).predTrue i cmd = true

/-- Checks 4 and 5 of a command's billets pass and its ranges are clear (R129, R145). -/
def BilletsReady (c : Fin 192) (f : Frame) (a : TileArgs) (us : List BUse) (s : State) : Prop :=
  s.usesOk c f us = true ∧ (s.core c).readPoison us = none ∧
    (s.core c).scoreboardClear (cmdRanges f a (us.map fun u => (s.core c).entry u.num)) = true

/-- The core with the scoreboard stall counted and slot `i`'s instance past its command. -/
def issued (i : Fin 8) (stall : Nat) (k : Core) : Core := (k.bump 0x20444 stall).advance i

/-- A command of the head of an engine's queue runs. -/
def busy : List Job → Bool
  | j :: _ => j.started
  | [] => false

/- Descriptors. -/

/-- Descriptor `d`, of type `type` and at place `n` of ring `r`'s outstanding ones, starts and passes its checks, or has begun and goes
on; its context `x` is served (R329, R331, R360). -/
def Starts (r : Fin 256) (n type : Nat) (x : Fin 64) (d : DescRef) (s : State) : Prop :=
  (∃ o, s.mayStart r n type = some (x, o) ∧ o.ref = d ∧ (o.waits = true ∨ s.check3 x d = none)) ∧ d.ring = r.val ∧ s.fetches x = true

/-- From `s` to `t` one record joined those that wait in ring `r`'s completion ring: `d`'s, with this status and details (R333). -/
def Completed (r : Fin 256) (d : DescRef) (st : Byte) (d16 d32 d64 : Nat) (s t : State) : Prop :=
  ∃ q, (t.cq (s.cqOf r)).waiting = (s.cq (s.cqOf r)).waiting ++ [q] ∧ q.sq = r.val ∧ q.idx = some d.idx ∧ q.tag = d.le 4 4 ∧
    q.type = d.type ∧ q.status = st ∧ q.d16 = d16 ∧ q.d32 = d32 ∧ q.d64 = d64

/-- Memory outside a run of bytes is as before. -/
def MemOutside (a n : Nat) (s t : State) : Prop := ∀ b, (b < a ∨ a + n ≤ b) → t.mem.read b = s.mem.read b

/- Mailbox requests. -/

/-- The request at the head of function `f`'s ring is of version 1 and of type `msg`, with this sequence number and with this body,
padded with zeros, and its answer finds room (R337, R338). -/
def Asks (f : Fin 32) (msg seq : Nat) (body : List Byte) (s : State) : Prop :=
  let k := s.fn f
  let head := k.box.readLE 8 2
  let e := k.box.readRun (0x1000 + 128 * (head % 128)) 128
  head ≠ k.box.readLE 4 2 ∧ k.lease ≠ .expired ∧ k.evtFull = false ∧ s.innkPaused = false ∧ k.box.wf = true ∧ bodyLE e 0 1 = 1 ∧
    bodyLE e 1 1 = msg ∧ bodyLE e 2 2 = seq ∧ bodyLE e 4 2 ≤ 120 ∧ bodyLE e 6 2 = 0 ∧
    body = (e.drop 8).take (bodyLE e 4 2) ++ List.replicate (120 - bodyLE e 4 2) 0

/-- From `s` to `t` the request has left its ring, and its answer is the newest event (R338). -/
def Answered (f : Fin 32) (msg seq : Nat) (st : Byte) (body : List Byte) (s t : State) : Prop :=
  let a := (s.fn f).box
  let b := (t.fn f).box
  b.readLE 8 2 = (a.readLE 8 2 + 1) % 2 ^ 16 ∧ b.readLE 0x0C 2 = (a.readLE 0x0C 2 + 1) % 2 ^ 16 ∧
    b.readRun (0x5000 + 64 * (a.readLE 0x0C 2 % 256)) 64 = eventBytes msg seq st false body

/- Management requests. -/

/-- A management request of type `type` passes its envelope: the Gatehouse serves it, in a TCP session whose requester the operator
anchors cover (R414 to R416, R428). -/
def Manages (m : Mgmt) (type : Nat) (adding : Option (List Byte)) (s : State) : Prop :=
  s.gateServes = true ∧ (∃ q, s.gatehouse.session m.session = some q ∧ q.transport = .tcp ∧ s.gatehouse.denies q adding = false) ∧
    (s.gatehouse.images[2].running ≠ none ∨ 0x10 ≤ type ∧ type ≤ 0x15) ∧ m.version = 1 ∧ m.reservedNonzero = false

/-- The last thing handed out is the answer to the request. -/
def Replied (m : Mgmt) (type result : Nat) (body : List Byte) (t : State) : Prop :=
  ∃ o, t.out = o ++ [Out.answer m.session (mgmtAnswer type m.seq result body)]

/-- STATE, TYPE and RESULT of GATE_UPDATE (Table 16.6). -/
def Updated (st : Nat) (type : Fin 3) (result : Nat) (t : State) : Prop :=
  bitsOf (t.rd 0x1004) 2 0 = st ∧ bitsOf (t.rd 0x1004) 4 3 = type.val ∧ bitsOf (t.rd 0x1004) 15 8 = result

/-- `i` is a management request of envelope `m`, of this TYPE; `adding` is the hash that an ANCHOR_ADD adds. -/
def IsRequest (m : Mgmt) (i : Instr) (type : Nat) (adding : Option (List Byte)) : Prop :=
  (∃ off sel, i = .regRead m off sel ∧ type = 0x01 ∧ adding = none) ∨ (∃ off sel v, i = .regWrite m off sel v ∧ type = 0x02 ∧ adding = none) ∨
  (∃ n total, i = .imageBegin m n total ∧ type = 0x10 ∧ adding = none) ∨ (∃ off bs, i = .imageData m off bs ∧ type = 0x11 ∧ adding = none) ∨
  (∃ n c, i = .imageVerify m n c ∧ type = 0x12 ∧ adding = none) ∨ (∃ n mode, i = .imageActivate m n mode ∧ type = 0x13 ∧ adding = none) ∨
  (∃ n, i = .imageCommit m n ∧ type = 0x14 ∧ adding = none) ∨ (∃ n, i = .imageAbandon m n ∧ type = 0x15 ∧ adding = none) ∨
  (∃ bs, i = .collectorSet m bs ∧ type = 0x20 ∧ adding = none) ∨ (i = .emergencyClear m ∧ type = 0x30 ∧ adding = none) ∨
  (∃ bs, i = .anchorAdd m bs ∧ type = 0x40 ∧ adding = some bs) ∨ (∃ bs, i = .anchorRemove m bs ∧ type = 0x41 ∧ adding = none) ∨
  (i = .ownershipClear m ∧ type = 0x42 ∧ adding = none)

end Sys2Proof.Safety
end

