-- ==== Sys2Proof/Certificates/Slice0/Obligations.lean ====
section
/-! DEFINITION. The statements for the provers. Each docstring names the rules it follows. -/

open Sys2Proof Sys2Proof.Machine Sys2Proof.Safety


/-- R113, Table 5.2: the Steward's registers. g0 reads as zero and discards writes; any other register reads what was written last, and a
write changes no other register and nothing else of the core. An FP64 pair holds bits [31:0] in the even register; an instruction that
names g0 or an odd register as a pair is illegal. -/
def Obligations.StewardRegisters : Prop :=
  (∀ (k : Core) (r q : BitVec 5) (v : Word),
     k.g 0 = 0 ∧ k.setG 0 v = k ∧ (r ≠ 0 → (k.setG r v).g r = v) ∧ (q ≠ r → (k.setG r v).g q = k.g q) ∧
     { k.setG r v with stw := k.stw } = k ∧ { (k.setG r v).stw with g := k.stw.g } = k.stw) ∧
  ((∀ (k : Core) (r : BitVec 5) (v : Nat), pairOk r = true → v < 2 ^ 64 →
     (k.setPair r v).g r = BitVec.ofNat 32 v ∧ (k.setPair r v).g (r + 1) = BitVec.ofNat 32 (v / 2 ^ 32) ∧
     (k.setPair r v).gPair r = v) ∧
   (∀ (w : Nat) (i : SInstr), decodeSteward w = some i →
     (i.op.fpRoles.1 = true → i.d.toNat % 2 = 0 ∧ 2 ≤ i.d.toNat) ∧
     (i.op.fpRoles.2.1 = true → i.a.toNat % 2 = 0 ∧ 2 ≤ i.a.toNat) ∧
     (i.op.fpRoles.2.2.1 = true → i.b.toNat % 2 = 0 ∧ 2 ≤ i.b.toNat)))

/-- R115, Table 5.3, OP 0x00 to 0x0F: gd takes the operation on ga and gb, the program counter goes on, and nothing else changes. Division
by zero gives 0xFFFF_FFFF and the dividend; −2³¹ ÷ −1 gives −2³¹, remainder 0, as `sdiv` and `srem` on bit vectors give. R115, Table 5.3,
OP 0x10 to 0x17: ADDI sign-extends IMM16; ANDI, ORI and XORI zero-extend it; a shift's IMM16 [15:5] is zero in every word that decodes;
LUI gives IMM16 × 2¹⁶. -/
def Obligations.StewardArithmetic : Prop :=
  (∀ (c : Fin 192) (e : Ecc) (i : SInstr) (s : State), FetchesOn c e i s →
     let x := (s.core c).g i.a
     let y := (s.core c).g i.b
     let gives (v : Word) : Result := ran c e s fun k => k.setG i.d v
     (i.op = .add → exec (.add c e) s = gives (x + y)) ∧
     (i.op = .sub → exec (.sub c e) s = gives (x - y)) ∧
     (i.op = .and → exec (.and c e) s = gives (x &&& y)) ∧
     (i.op = .or → exec (.or c e) s = gives (x ||| y)) ∧
     (i.op = .xor → exec (.xor c e) s = gives (x ^^^ y)) ∧
     (i.op = .shl → exec (.shl c e) s = gives (x <<< (y &&& 31))) ∧
     (i.op = .shr → exec (.shr c e) s = gives (x >>> (y &&& 31))) ∧
     (i.op = .sra → exec (.sra c e) s = gives (x.sshiftRight' (y &&& 31))) ∧
     (i.op = .slt → exec (.slt c e) s = gives (if x.toInt < y.toInt then 1 else 0)) ∧
     (i.op = .sltu → exec (.sltu c e) s = gives (if x.toNat < y.toNat then 1 else 0)) ∧
     (i.op = .mul → exec (.mul c e) s = gives (x * y)) ∧
     (i.op = .mulh → exec (.mulh c e) s = gives ((x.signExtend 64 * y.signExtend 64).extractLsb' 32 32)) ∧
     (i.op = .div → exec (.div c e) s = gives (if y = 0 then 0xFFFFFFFF else x.sdiv y)) ∧
     (i.op = .divu → exec (.divu c e) s = gives (if y = 0 then 0xFFFFFFFF else x / y)) ∧
     (i.op = .rem → exec (.rem c e) s = gives (if y = 0 then x else x.srem y)) ∧
     (i.op = .remu → exec (.remu c e) s = gives (if y = 0 then x else x % y))) ∧
  (∀ (c : Fin 192) (e : Ecc) (i : SInstr) (s : State), FetchesOn c e i s →
     let x := (s.core c).g i.a
     let imm16 := i.imm.setWidth 16
     let z := imm16.setWidth 32
     let gives (v : Word) : Result := ran c e s fun k => k.setG i.d v
     (i.op = .addi → exec (.addi c e) s = gives (x + imm16.signExtend 32)) ∧
     (i.op = .andi → exec (.andi c e) s = gives (x &&& z)) ∧
     (i.op = .ori → exec (.ori c e) s = gives (x ||| z)) ∧
     (i.op = .xori → exec (.xori c e) s = gives (x ^^^ z)) ∧
     (i.op = .shli → z.toNat < 32 ∧ exec (.shli c e) s = gives (x <<< z)) ∧
     (i.op = .shri → z.toNat < 32 ∧ exec (.shri c e) s = gives (x >>> z)) ∧
     (i.op = .srai → z.toNat < 32 ∧ exec (.srai c e) s = gives (x.sshiftRight' z)) ∧
     (i.op = .lui → i.a = 0 ∧ exec (.lui c e) s = gives (imm16 ++ 0#16)))

/-- R114 and R115, OP 0x18 to 0x1C and 0x20, and R119: a load at ga + IMM16 (modulo 2³²) that is in range and aligned writes the bytes
read, sign- or zero-extended, into gd and changes nothing else; LWS reads the scratchpad and counts one bank access. -/
def Obligations.StewardLoads : Prop :=
  ∀ (c : Fin 192) (e : Ecc) (i : SInstr) (s : State), FetchesOn c e i s →
    let k := s.core c
    let a := (k.g i.a + (i.imm.setWidth 16).signExtend 32).toNat
    let gives (v : Word) : Result := ran c e s fun k => k.setG i.d v
    (i.op = .lw → a % 4 = 0 → a + 4 ≤ 0x20000 → exec (.lw c e) s = gives (BitVec.ofNat 32 (k.dmem.readLE a 4))) ∧
    (i.op = .lh → a % 2 = 0 → a + 2 ≤ 0x20000 →
      exec (.lh c e) s = gives ((BitVec.ofNat 16 (k.dmem.readLE a 2)).signExtend 32)) ∧
    (i.op = .lhu → a % 2 = 0 → a + 2 ≤ 0x20000 → exec (.lhu c e) s = gives (BitVec.ofNat 32 (k.dmem.readLE a 2))) ∧
    (i.op = .lb → a + 1 ≤ 0x20000 → exec (.lb c e) s = gives ((BitVec.ofNat 8 (k.dmem.readLE a 1)).signExtend 32)) ∧
    (i.op = .lbu → a + 1 ≤ 0x20000 → exec (.lbu c e) s = gives (BitVec.ofNat 32 (k.dmem.readLE a 1))) ∧
    (i.op = .lws → a % 4 = 0 → a + 4 ≤ 0x800000 → exec (.lws c e) s =
      ran c e s fun k => (k.bump64 0x20610 1).setG i.d (BitVec.ofNat 32 (k.sp.readLE a 4)))

/-- R114 and R115, OP 0x1D to 0x1F and 0x21, and R119: a store at ga + IMM16 that is in range and aligned changes the bytes from that
address, low byte first, to those of gd, and no other byte, register or flag. A store that reaches word 0 of a billet entry also clears
that entry's POISON, the byte at its offset 9 (R182). -/
def Obligations.StewardStores : Prop :=
  ∀ (c : Fin 192) (e : Ecc) (i : SInstr) (s : State), FetchesOn c e i s →
    let k := s.core c
    let a := (k.g i.a + (i.imm.setWidth 16).signExtend 32).toNat
    let stores (n : Nat) (r : Result) : Prop := ∃ m : Memory, r = (ran c e s fun k => { k with dmem := m }) ∧
      (∀ j < n, m.read (a + j) = BitVec.ofNat 8 ((k.g i.d).toNat / 2 ^ (8 * j))) ∧
      (0x1F000 ≤ a → a % 16 < 4 → m.read (a / 16 * 16 + 9) = 0) ∧
      ∀ b, (b < a ∨ a + n ≤ b) → ¬ (0x1F000 ≤ a ∧ a % 16 < 4 ∧ b = a / 16 * 16 + 9) → m.read b = k.dmem.read b
    k.dmem.wf = true → k.sp.wf = true →
    (i.op = .sw → a % 4 = 0 → a + 4 ≤ 0x20000 → stores 4 (exec (.sw c e) s)) ∧
    (i.op = .sh → a % 2 = 0 → a + 2 ≤ 0x20000 → stores 2 (exec (.sh c e) s)) ∧
    (i.op = .sb → a + 1 ≤ 0x20000 → stores 1 (exec (.sb c e) s)) ∧
    (i.op = .sws → a % 4 = 0 → a + 4 ≤ 0x800000 →
      ∃ m : Memory, exec (.sws c e) s = (ran c e s fun k => { k.bump64 0x20610 1 with sp := m }) ∧
        (∀ j < 4, m.read (a + j) = BitVec.ofNat 8 ((k.g i.d).toNat / 2 ^ (8 * j))) ∧
        ∀ b, (b < a ∨ a + 4 ≤ b) → m.read b = k.sp.read b)

/-- R115, OP 0x22 to 0x29: a branch goes OFFSET words from itself when its comparison of ga with gb holds and to the next word otherwise;
JAL and JALR write the index of the next word and jump. Targets are the words of a bank (R114). Nothing else changes. -/
def Obligations.StewardBranchesAndJumps : Prop :=
  ∀ (c : Fin 192) (e : Ecc) (i : SInstr) (s : State), FetchesOn c e i s →
    let k := s.core c
    let x := k.g i.a
    let y := k.g i.b
    let pc : Int := k.stw.pc.toNat
    let t := pc + (i.imm.setWidth 16).toInt
    let goes (n : Int) : Result := .next ((counted e s).setCore c (atWord k n.toNat))
    let jumps (n : Int) : Result :=
      .next ((counted e s).setCore c (atWord (k.setG i.d (BitVec.ofNat 32 (k.stw.pc.toNat + 1))) n.toNat))
    let branches (p : Prop) [Decidable p] (r : Result) : Prop := (p → 0 ≤ t → t < 16384 → r = goes t) ∧ (¬ p → r = goes (pc + 1))
    (i.op = .beq → branches (x = y) (exec (.beq c e) s)) ∧
    (i.op = .bne → branches (x ≠ y) (exec (.bne c e) s)) ∧
    (i.op = .blt → branches (x.toInt < y.toInt) (exec (.blt c e) s)) ∧
    (i.op = .bge → branches (y.toInt ≤ x.toInt) (exec (.bge c e) s)) ∧
    (i.op = .bltu → branches (x.toNat < y.toNat) (exec (.bltu c e) s)) ∧
    (i.op = .bgeu → branches (y.toNat ≤ x.toNat) (exec (.bgeu c e) s)) ∧
    (i.op = .jal → 0 ≤ pc + i.imm.toInt → pc + i.imm.toInt < 16384 → exec (.jal c e) s = jumps (pc + i.imm.toInt)) ∧
    (i.op = .jalr → (x + (i.imm.setWidth 16).signExtend 32).toNat < 16384 →
      exec (.jalr c e) s = jumps (x + (i.imm.setWidth 16).signExtend 32).toNat)

/-- R116: an FP32 instruction writes its result into gd, sets its exceptions in the sticky FFLAGS, goes on to the next word and changes
nothing else. The results are those of the IEEE 754-2019 operations of Flags.lean. R116 for FP64: results in the pair of gd, or in gd
alone for comparisons, FCVT.W.D and FCVT.S.D. Where the spec leaves the form open the clauses follow log entry 9 (the model's choices). -/
def Obligations.StewardFloatingPoint : Prop :=
  (∀ (c : Fin 192) (e : Ecc) (i : SInstr) (s : State), FetchesOn c e i s →
     let k := s.core c
     let x := (k.g i.a).toNat
     let y := (k.g i.b).toNat
     let gives (r : Nat × FFlags) : Result := ran c e s fun k => (k.setG i.d (BitVec.ofNat 32 r.1)).raise r.2
     (i.op = .faddS → exec (.faddS c e) s = gives (fpAdd fp32 x y)) ∧
     (i.op = .fsubS → exec (.fsubS c e) s = gives (fpSub fp32 x y)) ∧
     (i.op = .fmulS → exec (.fmulS c e) s = gives (fpMul fp32 x y)) ∧
     (i.op = .fdivS → exec (.fdivS c e) s = gives (fpDiv fp32 x y)) ∧
     (i.op = .fsqrtS → exec (.fsqrtS c e) s = gives (fpSqrt fp32 x)) ∧
     (i.op = .fminS → exec (.fminS c e) s = gives (fpMinMax fp32 false x y)) ∧
     (i.op = .fmaxS → exec (.fmaxS c e) s = gives (fpMinMax fp32 true x y)) ∧
     (i.op = .feqS → exec (.feqS c e) s = gives (fpCmp fp32 true Val.eqv x y)) ∧
     (i.op = .fltS → exec (.fltS c e) s = gives (fpCmp fp32 false Val.lt x y)) ∧
     (i.op = .fleS → exec (.fleS c e) s = gives (fpCmp fp32 false Val.le x y)) ∧
     (i.op = .fcvtSW → exec (.fcvtSW c e) s = gives (fpFromInt fp32 x)) ∧
     (i.op = .fcvtWS → exec (.fcvtWS c e) s = gives (fpToInt fp32 x)) ∧
     (i.op = .fmaS → exec (.fmaS c e) s = gives (fpFma fp32 x y (k.g i.d).toNat))) ∧
  (∀ (c : Fin 192) (e : Ecc) (i : SInstr) (s : State), FetchesOn c e i s →
     let k := s.core c
     let x := k.gPair i.a
     let y := k.gPair i.b
     let one (r : Nat × FFlags) : Result := ran c e s fun k => (k.setG i.d (BitVec.ofNat 32 r.1)).raise r.2
     let two (r : Nat × FFlags) : Result := ran c e s fun k => (k.setPair i.d r.1).raise r.2
     (i.op = .faddD → exec (.faddD c e) s = two (fpAdd fp64 x y)) ∧
     (i.op = .fsubD → exec (.fsubD c e) s = two (fpSub fp64 x y)) ∧
     (i.op = .fmulD → exec (.fmulD c e) s = two (fpMul fp64 x y)) ∧
     (i.op = .fdivD → exec (.fdivD c e) s = two (fpDiv fp64 x y)) ∧
     (i.op = .fsqrtD → exec (.fsqrtD c e) s = two (fpSqrt fp64 x)) ∧
     (i.op = .fminD → exec (.fminD c e) s = two (fpMinMax fp64 false x y)) ∧
     (i.op = .fmaxD → exec (.fmaxD c e) s = two (fpMinMax fp64 true x y)) ∧
     (i.op = .feqD → exec (.feqD c e) s = one (fpCmp fp64 true Val.eqv x y)) ∧
     (i.op = .fltD → exec (.fltD c e) s = one (fpCmp fp64 false Val.lt x y)) ∧
     (i.op = .fleD → exec (.fleD c e) s = one (fpCmp fp64 false Val.le x y)) ∧
     (i.op = .fcvtDW → exec (.fcvtDW c e) s = two (fpFromInt fp64 (k.g i.a).toNat)) ∧
     (i.op = .fcvtWD → exec (.fcvtWD c e) s = one (fpToInt fp64 x)) ∧
     (i.op = .fmaD → exec (.fmaD c e) s = two (fpFma fp64 x y (k.gPair i.d))) ∧
     (i.op = .fcvtDS → exec (.fcvtDS c e) s = two (fpConvert fp32 fp64 (k.g i.a).toNat)) ∧
     (i.op = .fcvtSD → exec (.fcvtSD c e) s = one (fpConvert fp64 fp32 x)))

/-- R116: the default exception results. A NaN operand, ∞ − ∞, 0 × ∞, 0 ÷ 0, ∞ ÷ ∞ and the root of a negative number give the default
quiet NaN, 0x7FC0_0000 or 0x7FF8_0000_0000_0000, whatever payload came in; the last four and ∞ − ∞ raise invalid; a finite number by zero
gives an infinity and raises divide by zero alone; FCVT to an integer turns NaN into 0 and saturates to the signed range. -/
def Obligations.FpDefaultResults : Prop :=
  ∀ (f : FFmt) (n : Nat), (f = fp32 ∧ n = 0x7FC00000) ∨ (f = fp64 ∧ n = 0x7FF8000000000000) →
    (∀ a b, (f.decode a).isNan = true ∨ (f.decode b).isNan = true →
      (fpAdd f a b).1 = n ∧ (fpSub f a b).1 = n ∧ (fpMul f a b).1 = n ∧ (fpDiv f a b).1 = n) ∧
    (∀ a b c, (f.decode a).isNan = true ∨ (f.decode b).isNan = true ∨ (f.decode c).isNan = true → (fpFma f a b c).1 = n) ∧
    (∀ a, (f.decode a).isNan = true → (fpSqrt f a).1 = n ∧ (fpToInt f a).1 = 0 ∧ (fpToInt f a).2.invalid = true) ∧
    (∀ a b p q, f.decode a = .inf p → f.decode b = .inf q →
      (p ≠ q → (fpAdd f a b).1 = n ∧ (fpAdd f a b).2.invalid = true) ∧
      (fpDiv f a b).1 = n ∧ (fpDiv f a b).2.invalid = true) ∧
    (∀ a b p q x, f.decode a = .inf p → f.decode b = .fin q 0 x → (fpMul f a b).1 = n ∧ (fpMul f a b).2.invalid = true) ∧
    (∀ a b p q x y, f.decode a = .fin p 0 x → f.decode b = .fin q 0 y →
      (fpDiv f a b).1 = n ∧ (fpDiv f a b).2.invalid = true ∧ (fpDiv f a b).2.divZero = false) ∧
    (∀ a b m p q x y, f.decode a = .fin p (m + 1) x → f.decode b = .fin q 0 y →
      f.decode (fpDiv f a b).1 = .inf (p != q) ∧ (fpDiv f a b).2 = { divZero := true }) ∧
    (∀ a m x, f.decode a = .fin true (m + 1) x → (fpSqrt f a).1 = n ∧ (fpSqrt f a).2.invalid = true) ∧
    (∀ a p, f.decode a = .inf p → (fpToInt f a).1 = if p then 2 ^ 31 else 2 ^ 31 - 1) ∧
    (∀ a, (fpToInt f a).1 < 2 ^ 32)

/-- R120: a running Steward faults on an uncorrectable memory error (CAUSE 4), on a word that spells no instruction (CAUSE 1), on an
access out of range (CAUSE 2) and on a misaligned one (CAUSE 3), whichever row names the instruction: it stops with the cause recorded,
its program counter, bank and registers kept, and data memory and the other cores' Stewards untouched. -/
def Obligations.StewardFaults : Prop :=
  ∀ (c : Fin 192) (e : Ecc) (s : State), (s.core c).stw.state = .running → s.stwHeld c = false →
    let k := s.core c
    let faults (q : Nat) (r : Result) : Prop := ∃ t, r = .next t ∧ (t.core c).stw.state = .faulted ∧ (t.core c).stw.cause = q ∧
      (t.core c).stw.pc = k.stw.pc ∧ (t.core c).stw.bank = k.stw.bank ∧ (t.core c).stw.g = k.stw.g ∧ (t.core c).dmem = k.dmem ∧
      ∀ d, d ≠ c → (t.core d).stw.state = (s.core d).stw.state ∧ (t.core d).stw.g = (s.core d).stw.g
    (e = .uncorrectable → ∀ r ∈ stewardCmds, faults 4 (exec (r c e) s)) ∧
    (e ≠ .uncorrectable → decodeSteward (k.fetch k.stw.pc.toNat).toNat = none → ∀ r ∈ stewardCmds, faults 1 (exec (r c e) s)) ∧
    ∀ i, Fetches c e i s →
      let a := (k.g i.a + (i.imm.setWidth 16).signExtend 32).toNat
      let access (o : SOp) (n size : Nat) (r : Result) : Prop := i.op = o →
        (size < a + n → faults 2 r) ∧ (a + n ≤ size → a % n ≠ 0 → faults 3 r)
      access .lw 4 0x20000 (exec (.lw c e) s) ∧ access .lh 2 0x20000 (exec (.lh c e) s) ∧
      access .lhu 2 0x20000 (exec (.lhu c e) s) ∧ access .lb 1 0x20000 (exec (.lb c e) s) ∧
      access .lbu 1 0x20000 (exec (.lbu c e) s) ∧ access .sw 4 0x20000 (exec (.sw c e) s) ∧
      access .sh 2 0x20000 (exec (.sh c e) s) ∧ access .sb 1 0x20000 (exec (.sb c e) s) ∧
      access .lws 4 0x800000 (exec (.lws c e) s) ∧ access .sws 4 0x800000 (exec (.sws c e) s)

/-- R125, R126, Table 5.12: FLD loads the image at ga into slot IMM16 [2:0] only when every check of Table 5.7 passes, and a failed FLD
leaves a slot without an instance empty, its status in gd and LAST_STATUS; FARM arms an instance of slot ga [2:0] exactly under R126's
conditions, and its status goes into gd; FSTAT and FRD read the slot's status and frame. Where the spec leaves the form open the clauses
follow log entries 15, 16 and 17 (the model's choices). -/
def Obligations.StewardFrames : Prop :=
  ∀ (c : Fin 192) (e : Ecc) (i : SInstr) (s : State), FetchesOn c e i s →
    let k := s.core c
    let a := (k.g i.a).toNat
    let b := (k.g i.b).toNat
    let n := slotOf i.imm.toNat
    let m := slotOf a
    let img := k.dmem.readRun a 1024
    let st := s.loadStatus c n img
    (i.op = .fld → a % 64 = 0 → a + 1024 ≤ 0x20000 →
      (exec (.fld c e) s = ran c e s fun k => (k.loadFrame n img st).setG i.d (st.setWidth 32)) ∧
      ((k.slot n).inst = none → st = 0 → ((k.loadFrame n img st).slot n).image = some img) ∧
      ((k.slot n).inst = none → st ≠ 0 → ((k.loadFrame n img st).slot n).image = none ∧
        ((k.loadFrame n img st).slot n).lastStatus = st) ∧
      ((img.getD 0 0) ≠ 1 → st = 0x0A) ∧ (st = 0 → (k.slot n).inst = none) ∧
      (st = 0 → k.ctx.map (·.val) = some (frameOf img).context ∨ s.fillerOf c = some (frameOf img).context)) ∧
    (i.op = .farm →
      (k.armStatus a b = 0 ↔ ∃ f, k.frame m = some f ∧ (k.slot m).inst = none ∧ bitsOf a 15 3 = 0 ∧ bitsOf b 31 16 ≠ 0 ∧
        bitsOf b 15 0 + bitsOf b 31 16 ≤ 7936 ∧ ¬ (f.cls = 0 ∧ k.fwdDone.contains (BitVec.ofNat 16 (a / 2 ^ 16)) = true)) ∧
      (k.armStatus a b ≠ 0 → k.armStatus a b = 0x0B ∨ k.armStatus a b = 0x0C) ∧
      (k.armStatus a b ≠ 0 → exec (.farm c e) s = ran c e s fun k =>
        (k.modSlot m fun v => { v with lastStatus := k.armStatus a b }).setG i.d ((k.armStatus a b).setWidth 32)) ∧
      ∀ f, k.frame m = some f → s.armBlocked f.context (BitVec.ofNat 16 (a / 2 ^ 16)) = none → k.armStatus a b = 0 →
        ∃ q, exec (.farm c e) s = (ran c e s fun _ => q) ∧ q = { (k.modSlot m fun v =>
          { v with inst := some (newInst (BitVec.ofNat 16 (a / 2 ^ 16)) (bitsOf b 15 0) (bitsOf b 31 16)), gen := v.gen + 1 }).setG i.d 0 with
            porterQ := q.porterQ, regs := q.regs } ∧
          q.porterQ.map (fun j => { j with urgent := false }) = k.porterQ.map fun j => { j with urgent := false }) ∧
    (i.op = .fstat → exec (.fstat c e) s = ran c e s fun k => k.setG i.d (BitVec.ofNat 32 (k.frameStatus m))) ∧
    (i.op = .frd → ∀ image, (k.slot m).image = some image → i.imm.toNat % 4 = 0 → i.imm.toNat + 4 ≤ 1024 →
      exec (.frd c e) s = ran c e s fun k => k.setG i.d (BitVec.ofNat 32 (leNat ((image.drop i.imm.toNat).take 4))))

/-- R133 and R66 with Table 5.3: PWR gives the software bits [11:1] of gb the values of ga; PRD reads a slot's predicate bits, of which
bit 0 is 1; MSKW writes a mask entry from four registers, and entry 0 stays all ones. R117, R118, Tables 5.3, 5.4 and 5.10: WAIT takes the
pending events of its mask into gd and clears them, and waits while none is pending; CSRR reads the CSRs of Table 5.4, and a read of ADMIT
takes the oldest entry; CSRW writes FFLAGS [4:0] and declares FWD_DONE; a CSR not listed and a write to a read-only one are illegal; HALT
stops the Steward. Where the spec leaves the form open the clauses follow log entries 36 and 37 (the model's choices). -/
def Obligations.StewardPredicatesAndCsrs : Prop :=
  (∀ (c : Fin 192) (e : Ecc) (i : SInstr) (s : State), FetchesOn c e i s →
     let k := s.core c
     let n := (k.g i.b).setWidth 4
     (i.op = .pwr → ∃ w : BitVec 16, (exec (.pwr c e) s = ran c e s fun k => { k with soft := w }) ∧
       ∀ j, w.getLsbD j = if 1 ≤ j ∧ j ≤ 11 ∧ (k.g i.b).getLsbD j = true then (k.g i.a).getLsbD j else k.soft.getLsbD j) ∧
     (i.op = .prd → (exec (.prd c e) s = ran c e s fun k => k.setG i.d (BitVec.ofNat 32 (k.predBits (slotOf (k.g i.a).toNat)))) ∧
       ∀ j, k.predBits j % 2 = 1 ∧ k.predBits j < 2 ^ 16) ∧
     (i.op = .mskw → n ≠ 0 → exec (.mskw c e) s = ran c e s fun k =>
       { k with mask := k.mask.set n.toNat (k.g (i.a + 3) ++ k.g (i.a + 2) ++ k.g (i.a + 1) ++ k.g i.a) n.isLt }) ∧
     (i.op = .mskw → n = 0 → exec (.mskw c e) s = ran c e s id)) ∧
  (∀ (c : Fin 192) (e : Ecc) (i : SInstr) (s : State), FetchesOn c e i s →
     let k := s.core c
     let n := i.imm.toNat
     let m := k.stw.events &&& i.imm.setWidth 16
     let reads (v : Word) : Prop := exec (.csrr c e) s = ran c e s fun k => k.setG i.d v
     (i.op = .wait → m = 0 →
       exec (.wait c e) s = .next ((counted e s).setCore c { k with stw := { k.stw with state := .waiting } })) ∧
     (i.op = .wait → m ≠ 0 → k.stw.stopReq = false → exec (.wait c e) s = ran c e s fun k =>
       ({ k with stw := { k.stw with events := k.stw.events &&& ~~~m } }).setG i.d (m.setWidth 32)) ∧
     (i.op = .csrr →
       (n = 0 → reads (BitVec.ofNat 32 c.val)) ∧
       (n = 1 → reads (match k.ctx with
         | some x => BitVec.ofNat 32 x.val
         | none => 0xFFFFFFFF)) ∧
       (n = 2 → reads (BitVec.ofNat 32 (s.stepOf k.ctx))) ∧
       (n = 3 → k.admitQ = [] → reads 0) ∧
       (n = 3 → k.heldNotices = [] → ∀ w q, k.admitQ = w :: q →
         exec (.csrr c e) s = ran c e s fun k => { k with admitQ := q }.setG i.d w) ∧
       (n = 4 → reads (k.stw.fflags.setWidth 32)) ∧ (n = 5 → reads (BitVec.ofNat 32 (k.rd 0x20100))) ∧
       (n = 6 → reads (BitVec.ofNat 32 s.time)) ∧ (n = 7 → reads 0) ∧
       (7 < n → ∃ t, exec (.csrr c e) s = .next t ∧ (t.core c).stw.state = .faulted ∧ (t.core c).stw.cause = 1)) ∧
     (i.op = .csrw →
       (n = 4 → exec (.csrw c e) s = ran c e s fun k => { k with stw := { k.stw with fflags := (k.g i.a).setWidth 5 } }) ∧
       (n = 7 → k.ctx = none → exec (.csrw c e) s = ran c e s fun k =>
         if k.fwdDone.contains ((k.g i.a).setWidth 16) then k else { k with fwdDone := k.fwdDone ++ [(k.g i.a).setWidth 16] }) ∧
       (n ≠ 4 → n ≠ 7 → ∃ t, exec (.csrw c e) s = .next t ∧ (t.core c).stw.state = .faulted ∧ (t.core c).stw.cause = 1)) ∧
     (i.op = .halt → exec (.halt c e) s = .next ((counted e s).setCore c { k with stw := { k.stw with state := .halted } })))

/-- R122 to R124, Table 5.11: a flip request of a writer that reaches the core sets FLIP_PENDING; at a Steward boundary (halted, in a
WAIT, or about to execute one) the pending flip makes the other bank active, resumes the Steward at its word 0 and raises event 11, and
keeps everything else; START starts a halted or faulted Steward at word 0 with CAUSE cleared; STOP halts a running one, or one in a WAIT
at its end. A write of any other function is discarded. Where the spec leaves the form open the clauses follow log entries 36 and 37 (the
model's choices). -/
def Obligations.BankAndStewardControl : Prop :=
  ∀ (w : Who) (c : Fin 192) (s : State),
    let k := s.core c
    let puts (k : Core) : Result := .next (s.setCore c k)
    (k.flipPending = true →
      (k.stw.state = .halted ∨ k.stw.state = .waiting ∨ (k.stw.state = .running ∧
        ∃ i, decodeSteward (k.fetch k.stw.pc.toNat).toNat = some i ∧ i.op = .wait)) →
      exec (.imemFlipTaken c) s = puts { k with
        flipPending := false
        stw := { k.stw with bank := !k.stw.bank, pc := 0, state := .running, events := k.stw.events ||| 0x0800#16 } }) ∧
    (k.flipPending = false → exec (.imemFlipTaken c) s = .next s) ∧
    (s.owns w k.ctx = true → k.role ≠ 2 →
      exec (.imemFlipRequest w c) s = puts { k with flipPending := true } ∧
      (k.stw.state = .halted ∨ k.stw.state = .faulted → exec (.stewardStart w c) s =
        puts { k with stw := { k.stw with state := .running, pc := 0, cause := 0, stopReq := false } }) ∧
      (k.stw.state = .running → exec (.stewardStop w c) s = puts { k with stw := { k.stw with state := .halted } }) ∧
      (k.stw.state = .waiting → exec (.stewardStop w c) s = puts { k with stw := { k.stw with stopReq := true } })) ∧
    (s.owns w k.ctx = false → exec (.imemFlipRequest w c) s = .next s ∧ exec (.stewardStart w c) s = .next s ∧
      exec (.stewardStop w c) s = .next s) ∧
    (∀ f, s.owns (.fn f) k.ctx = true ↔ f = 0 ∨ ∃ x, k.ctx = some x ∧ (s.ctx x).fn = f.val ∧ (s.ctx x).state ≠ .closed)

/-- R137: of the ready instances of a place the picker takes the highest PRIORITY, then the lowest micro-batch, then the frame whose
resident tile is live, then the lowest slot. R131, R137, R138, R356: a pick that finds its place free, no poison token at a queue that an
armed instance names, and the park billet's lines clear, starts the instance that the picker's order names when its start checks pass:
that instance runs from now, and no other core changes. INSTANCE_CANCEL with a failing status sets CANCEL of a running instance and
advances the slot's generation; an armed one ends at once with the status, and its event rises. GUARD_US_EXPIRY of a core that nothing
refused is no event; of one refused it takes the pick with the guard passed. Where the spec leaves the form open the clauses follow log
entries 28 and 40 (the model's choices). -/
def Obligations.InstancesPicked : Prop :=
  (∀ (k : Core) (l : List Cand) (d : Cand), (∀ e ∈ l, e.frame.priority ≤ 3) → k.best l = some d →
     d ∈ l ∧ ∀ e ∈ l, e.frame.priority < d.frame.priority ∨ (e.frame.priority = d.frame.priority ∧
       (d.inst.mb < e.inst.mb ∨ (d.inst.mb = e.inst.mb ∧
         ((k.liveOwner = some d.slot ∧ k.liveOwner ≠ some e.slot) ∨
           ((k.liveOwner = some d.slot ↔ k.liveOwner = some e.slot) ∧ d.slot ≤ e.slot)))))) ∧
  (∀ (c : Fin 192) (s : State), s.innkPaused = false →
     (∀ (array : Bool) (d : Cand), let s1 := s.markLate c
       let k := s1.core c
       let ok := (s1.candidates c array).filter fun d => !array || s1.energyPermits c d.frame
       s.endPoisoned c array = none → k.placeFree array = true → k.role = 0 → k.best (k.preferOwner array ok) = some d →
       k.parkClear d.slot d.frame = true → s1.startStatus c d.slot d.frame = stOk →
       ∃ t, exec (.pick c array) s = .next t ∧
         ((t.core c).slot d.slot).inst = some { d.inst with running := true, startedAt := s.time } ∧
         ((t.core c).slot d.slot).image = ((s.core c).slot d.slot).image ∧ ∀ q, q ≠ c → t.core q = s.core q) ∧
     (∀ (i : Fin 8) (st : Byte) (un : List Nat), failingStatus st = false → exec (.instanceCancel c i st un) s = .next s) ∧
     (∀ (i : Fin 8) (st : Byte) (un : List Nat) (n : Inst), failingStatus st = true → ((s.core c).slot i).inst = some n → n.running = true →
       ∃ t, exec (.instanceCancel c i st un) s = .next t ∧
         (t.core c).slot i = { (s.core c).slot i with
           gen := ((s.core c).slot i).gen + 1, inst := some { n with cancel := some (n.cancel.getD st) } } ∧
         (∀ j, j ≠ i → (t.core c).slot j = (s.core c).slot j) ∧ (t.core c).arrayQ = (s.core c).arrayQ ∧
         (t.core c).live = (s.core c).live ∧ ∀ q, q ≠ c → t.core q = { s.core q with porterQ := (t.core q).porterQ, regs := (t.core q).regs }) ∧
     (∀ (i : Fin 8) (st : Byte) (un : List Nat) (n : Inst) (f : Frame), failingStatus st = true → ((s.core c).slot i).inst = some n → (s.core c).frame i = some f →
       n.running = false → n.taken = [] → (s.core c).stw.state ≠ .faulted →
       ∃ t, exec (.instanceCancel c i st un) s = .next t ∧ ((t.core c).slot i).inst = none ∧
         ((t.core c).slot i).lastStatus = n.cancel.getD st ∧ ((t.core c).slot i).lastMb = n.mb ∧
         (t.core c).stw.events.getLsbD i.val = true ∧ (t.core c).live = (s.core c).live) ∧
     ((s.core c).refusedAt = none → exec (.guardUsExpiry c) s = .next s) ∧
     ((s.core c).refusedAt ≠ none →
       exec (.guardUsExpiry c) s = exec (.pick c true) (s.setCore c { s.core c with guardPassed := true })))

/-- R127, R128, R134, R141, R145, whatever row names it: a command of a reserved opcode, whose words spell no command, or which fails
check 1 or 2 ends with RESERVED_NONZERO and ends its instance; one whose checks 1 to 3 pass and whose predicate is false is skipped whole:
it counts in CORE_SKIPPED and the instance goes on; a row whose opcode the next command does not have is no event. Where the spec leaves
the form open the clauses follow log entries 28 and 39 (the model's choices). -/
def Obligations.CommandsComeToIssue : Prop :=
  ∀ (c : Fin 192) (i : Fin 8) (stall : Nat) (tie : Bool) (errs : List GranErr) (s : State) (n : Inst) (f : Frame),
    let k := s.core c
    let w := k.cmdWords n n.next
    let code (o : Nat) : Frame → TileArgs → Bool := fun _ a => a.opcode == o
    let rows : List (Instr × Nat × (Core → Bool) × (Frame → TileArgs → Bool) × (Frame → TileCmd → Core → Bool)) :=
      [(.nop c i stall, 0x00, always, code 0, anyFrame), (.opx c i stall, 0x01, always, opxOk1, opxOk2),
       (.red c i stall, 0x02, always, redOk1, redOk2), (.ewl c i stall, 0x03, always, ewlOk1, arrayOk2),
       (.tload c i stall, 0x103, always, tloadOk1, arrayOk2), (.swp c i stall, 0x04, always, swpOk1, arrayOk2),
       (.accld c i stall, 0x05, always, accldOk1, arrayOk2), (.drn c i stall, 0x06, always, drnOk1, arrayOk2),
       (.ldt c i stall errs, 0x10, porterAccepts, ldtOk1, ldtOk2), (.stt c i stall, 0x11, porterAccepts, sttOk1, sttOk2),
       (.acw c i stall, 0x12, porterAccepts, acwOk1, acwOk2), (.xmt c i stall, 0x13, porterAccepts, xmtOk1, anyFrame),
       (.bqp c i stall tie, 0x18, always, endpointInRange, anyFrame), (.bqt c i stall, 0x19, always, endpointInRange, anyFrame),
       (.wct c i stall, 0x20, always, code 0x20, anyFrame), (.pset c i stall, 0x21, always, code 0x21, anyFrame),
       (.psetCounter c i stall, 0x121, always, psetOk1, anyFrame), (.fence c i stall, 0x22, always, code 0x22, anyFrame)]
    let fails (r : Instr) : Prop := ∃ t, exec r s = .next t ∧ ((t.core c).slot i).inst = some { n with failed := some 0x0B } ∧
      (t.core c).arrayQ = k.arrayQ ∧ (t.core c).sp = k.sp
    (k.slot i).inst = some n → k.frame i = some f → n.running = true → n.held = none → n.failed = none → n.next < n.len →
    (opcodeDefined w.1 = false → ∀ r ∈ rows, fails r.1) ∧
    (opcodeDefined w.1 = true → ∀ r ∈ rows, rowCode w.1 w.2.1 ≠ r.2.1 → exec r.1 s = .next s) ∧
    (opcodeDefined w.1 = true → ∀ r ∈ rows, rowCode w.1 w.2.1 = r.2.1 → r.2.2.1 k = true →
      (decodeTile w.1 w.2.1 w.2.2.1 w.2.2.2 = none → fails r.1) ∧
      ∀ cmd, decodeTile w.1 w.2.1 w.2.2.1 w.2.2.2 = some cmd →
        (r.2.2.2.1 f cmd.args = false ∨ r.2.2.2.2 f cmd k = false → fails r.1) ∧
        (r.2.2.2.1 f cmd.args = true → r.2.2.2.2 f cmd k = true → k.predTrue i cmd = false →
          exec r.1 s = .next (s.setCore c ((k.advance i).bump 0x2043C 1))))

/-- R128, R129, R143, Table 6.4: a command of the array engine or of the shadow path whose checks pass and whose ranges are clear joins
its engine's queue with the entries read for its billets, what can start starts, and the instance goes on; behind engines at work it
waits, and nothing else changes. -/
def Obligations.ArrayCommandsQueue : Prop :=
  ∀ (c : Fin 192) (i : Fin 8) (stall : Nat) (s : State) (n : Inst) (f : Frame) (cmd : TileCmd), Issues c i n f cmd s →
    let k := s.core c
    let joins (live : Bool) (us : List BUse) (r : Instr) : Prop :=
      let j := newJob i n cmd (us.map fun u => k.entry u.num)
      let q := k.bump 0x20444 stall
      let q := if live then { q with arrayQ := k.arrayQ ++ [j] } else { q with shadowQ := k.shadowQ ++ [j] }
      exec r s = .next (((s.setCore c q).startEngines c).modCore c fun k => k.advance i) ∧
        (busy k.arrayQ = true → busy k.shadowQ = true → exec r s = .next (s.setCore c (q.advance i)))
    let ready (us : List BUse) : Prop := BilletsReady c f cmd.args us s
    match cmd.args with
    | .opx a b kk .. => opxOk1 f cmd.args = true → opxOk2 f cmd k = true → ready (opxUses f a b kk) →
      joins true (opxUses f a b kk) (.opx c i stall)
    | .red a b nn _ bs .. => redOk1 f cmd.args = true → redOk2 f cmd k = true → ready (redUses f a b nn bs) →
      joins true (redUses f a b nn bs) (.red c i stall)
    | .ewl a b nn op _ d _ =>
      (op ≠ 63 → ewlOk1 f cmd.args = true → usesArray f = true → vectorsOk f 128 128 = true → ready (ewlUses f a b d nn op) →
        joins true (ewlUses f a b d nn op) (.ewl c i stall)) ∧
      (op = 63 → tloadOk1 f cmd.args = true → usesArray f = true → ready (tloadUses f a) → joins true (tloadUses f a) (.tload c i stall))
    | .swp _ => usesArray f = true → joins true [] (.swp c i stall)
    | .accld sr live z fm sc _ => accldOk1 f cmd.args = true → usesArray f = true → ready (accldUses f sr z fm sc) →
      joins (usesLive f live) (accldUses f sr z fm sc) (.accld c i stall)
    | .drn d0 d1 live _ lay .. =>
      let us := drnUses f d0 d1 lay (k.redAhead f live)
      drnOk1 f cmd.args = true → usesArray f = true → vectorsOk f (shapeRows f.shape) (shapeCols f.shape) = true → ready us →
      joins (usesLive f live) us (.drn c i stall)
    | _ => True

/-- R36, R50, R66, R77, R154 to R157: what starting does on engines that stand idle. An OPX latches its row mask and sets MASK_EMPTY; an
SWP whose tag is complete in the shadow set exchanges the sets in one beat, in a row-broadcast frame it only takes the beat; one whose set
is not finished waits in tolerant mode; one of a set with another tag fails with SKEW_LIMIT; an ACCLD gives its set the tag and takes away
the complete mark, a DRN only the mark, latching the tolerance. -/
def Obligations.ArrayCommandsStart : Prop :=
  ∀ (c : Fin 192) (i : Fin 8) (stall : Nat) (s : State) (n : Inst) (f : Frame) (cmd : TileCmd), Issues c i n f cmd s →
    let k := s.core c
    let gives (p : Core → Prop) (r : Instr) : Prop := ∃ t, exec r s = .next t ∧ t = s.setCore c (t.core c) ∧ p (t.core c)
    let job (us : List BUse) : Job := { newJob i n cmd (us.map fun u => k.entry u.num) with started := true }
    usesArray f = true → k.arrayQ = [] → k.shadowQ = [] →
    match cmd.args with
    | .opx a b kk m bl .. => opxOk1 f cmd.args = true → opxOk2 f cmd k = true → f.bCaravan = false → k.live.red = none →
      BilletsReady c f cmd.args (opxUses f a b kk) s →
      let bits := k.mask[m.toNat]'m.isLt
      gives (fun q => q.arrayQ = [{ job (opxUses f a b kk) with mask := bits }] ∧ q.live = k.live ∧ q.shadow = k.shadow ∧
        (q.slot i).inst = some { n with next := n.next + 1, maskEmpty := MaskSel.none ⟨bits, bl⟩ }) (.opx c i stall)
    | .swp tag =>
      (f.rowPath = false → k.shadow.tag = some tag → k.shadow.complete = true → gives (fun q => q.live = k.shadow ∧ q.shadow = k.live ∧
        q.arrayQ = [] ∧ (q.slot i).inst = some { n with next := n.next + 1 }) (.swp c i stall)) ∧
      (f.rowPath = true → gives (fun q => q.live = k.live ∧ q.shadow = k.shadow ∧ q.arrayQ = [] ∧
        (q.slot i).inst = some { n with next := n.next + 1 }) (.swp c i stall)) ∧
      (f.rowPath = false → k.shadow.tag = some tag → k.shadow.complete = false → f.tolerant = true →
        gives (fun q => q.live = k.live ∧ q.shadow = k.shadow ∧ q.arrayQ = [{ job [] with waiting := true }]) (.swp c i stall)) ∧
      (f.rowPath = false → k.shadow.tag ≠ some tag → ∃ t n', exec (.swp c i stall) s = .next t ∧
        ((t.core c).slot i).inst = some n' ∧ n'.failed = some 0x05 ∧ n'.poisoned = true ∧
        (t.core c).live.cells = k.live.cells ∧ (t.core c).shadow.cells = k.shadow.cells)
    | .accld sr live z fm sc tag => accldOk1 f cmd.args = true → BilletsReady c f cmd.args (accldUses f sr z fm sc) s →
      let l := usesLive f live
      gives (fun q => (if l then q.arrayQ else q.shadowQ) = [job (accldUses f sr z fm sc)] ∧ q.setOf (!l) = k.setOf (!l) ∧
        q.setOf l = { k.setOf l with tag := some tag, complete := false, red := none }) (.accld c i stall)
    | .drn d0 d1 live _ lay _ _ => drnOk1 f cmd.args = true → lay ≠ 0 → (k.setOf (usesLive f live)).red = none →
      vectorsOk f (shapeRows f.shape) (shapeCols f.shape) = true → BilletsReady c f cmd.args (drnUses f d0 d1 lay false) s →
      let l := usesLive f live
      gives (fun q => (if l then q.arrayQ else q.shadowQ) = [{ job (drnUses f d0 d1 lay false) with tol := k.rd 0x20204 }] ∧
        q.setOf (!l) = k.setOf (!l) ∧ q.setOf l = { k.setOf l with complete := false }) (.drn c i stall)
    | _ => True

/-- R23, R46 to R51, R65, R70 to R72, R153 to R160: the completion of the command at work on its engine, whatever waits behind it. An OPX
has accumulated its positions into the live set and counts the beats after its last slot check; a caravan one has accumulated at its slot
checks; a RED leaves the set's lists and its depth; an EWL writes its results; a TLOAD writes the table that it names, or fails with
RESERVED_NONZERO when bytes after the exponent are non-zero; an ACCLD of either path leaves its set loaded, tagged and complete; a DRN of
either path that finds no fault writes its copies, or the lists of a RED tile, and leaves the set tagged and complete, cleared when it
says so. Then what waits starts. Nothing but the core, and the stream's draw count, changes. Where the spec leaves the form open the
clauses follow log entries 43, 50 and 93 (the model's choices). -/
def Obligations.ArrayCommandsComplete : Prop :=
  ∀ (c : Fin 192) (w : Waits) (s : State) (j : Job) (f : Frame),
    let k := s.core c
    let beats (k : Core) : Nat := k.rd 0x20100 + k.rd 0x20104 * 2 ^ 32
    let gives (i : Instr) (p : Core → Prop) : Prop := ∃ q, exec i s = .next ((s.setCore c q).startEngines c) ∧ p q
    let key (n : Nat) : DrawKey := s.drawKey f (keyMb (k.mbOf j.slot)) n
    let ended (q : Core) (st : Byte) : Prop :=
      ∀ n, (k.slot j.slot).inst = some n → ∃ n', (q.slot j.slot).inst = some n' ∧ n'.failed = some (n.failed.getD st)
    (k.arrayHead = some (j, f) →
      (∀ a b kk m bl t0 s0 s1 ea eb, j.cmd.args = .opx a b kk m bl t0 s0 s1 → f.bCaravan = false → j.ents = [ea, eb] →
        gives (.opxComplete c w) fun q => (SMap.wf coreReset k.regs = true → beats q = (beats k + opxLastBeats f kk.toNat) % 2 ^ 64) ∧
          q = { k with
            arrayQ := k.arrayQ.tail, regs := q.regs
            live := k.live.opx (k.shape f) ⟨j.mask, bl⟩ f.rows f.cols
              (beatsOf f.isFp32 f.p (opxPositions k f ea 0 kk.toNat fun n e => (k.stored eb).feedVal (!eb.orient) f.b.t n e)) }) ∧
      (∀ a b kk m bl t0 s0 s1, j.cmd.args = .opx a b kk m bl t0 s0 s1 → f.bCaravan = true → caravanTiles kk.toNat ≤ j.tile →
        gives (.opxComplete c w) fun q => (SMap.wf coreReset k.regs = true → beats q = (beats k + opxLastBeats f kk.toNat) % 2 ^ 64) ∧
          q = { k with arrayQ := k.arrayQ.tail, regs := q.regs }) ∧
      (∀ a b nn mn bs ct ib d ea rest, j.cmd.args = .red a b nn mn bs ct ib d → j.ents = ea :: rest →
        let row (i : Nat) : List (Val × BitVec 24) := if i < f.rows then (redStream k f ea (if bs then rest.head? else none) nn.toNat ib.toNat i).1 else []
        gives (.redComplete c w) fun q => q = { k with
          arrayQ := k.arrayQ.tail, regs := q.regs
          live := { (List.range (shapeRows f.shape)).foldl (fun a i => a.redRow (k.shape f) i (d.toNat + 1) mn ct (row i)) k.live with
            red := some (d.toNat + 1) } }) ∧
      (∀ a b nn op ky d tb ea rest ed, j.cmd.args = .ewl a b nn op ky d tb → op ≠ 63 → j.ents = ea :: rest → rest.getLast? = some ed →
        ∃ q, exec (.ewlComplete c w) s = .next (((s.setCore c q).countDraw f).startEngines c) ∧
          q = { k with
            arrayQ := k.arrayQ.tail, regs := q.regs, slots := q.slots, dmem := q.dmem
            sp := (k.writeSeq ed ((List.range nn.toNat).map
              (ewlElem k f (key ky.toNat) op.toNat ea (if ewlUnary op.toNat then none else rest.head?)))).1.sp }) ∧
      (∀ a b nn ky d tb ea, j.cmd.args = .ewl a b nn 63 ky d tb → j.ents = [ea] →
        let img := k.sp.readRun ea.addr 1040
        ((∀ x ∈ img.drop 0x401, x = 0) → gives (.ewlComplete c w) fun q => q = { k with arrayQ := k.arrayQ.tail, regs := q.regs, act := q.act } ∧
          (∀ n, n < 256 → SMap.get actDefault (if tb then q.act[1] else q.act[0]).seg n = BitVec.ofNat 32 (imgLE img (4 * n) 4)) ∧
          (if tb then q.act[1] else q.act[0]).e0 = img.getD 0x400 0 ∧ (if tb then q.act[0] = k.act[0] else q.act[1] = k.act[1])) ∧
        ((∃ x ∈ img.drop 0x401, x ≠ 0) → gives (.ewlComplete c w) fun q => q = { k with arrayQ := k.arrayQ.tail, regs := q.regs, slots := q.slots } ∧
          ended q stReserved))) ∧
    ∀ shadow : Bool, (if shadow then k.shadowHead else k.arrayHead) = some (j, f) →
      (shadow = true → ∀ h g, k.arrayHead = some (h, g) → h.waiting = true → w.skew < k.skewLimit) →
      let set := k.setOf (!shadow)
      let gives (s : State) (i : Instr) (p : Core → Prop) : Prop := ∃ q, exec i s = .next (((s.setCore c q).startEngines c).swpRetry c w.skew) ∧ p q ∧
        (if shadow then q.shadowQ = k.shadowQ.tail ∧ q.arrayQ = k.arrayQ else q.arrayQ = k.arrayQ.tail ∧ q.shadowQ = k.shadowQ) ∧ q.setOf shadow = k.setOf shadow
      (∀ sr live z fm sc tag es, j.cmd.args = .accld sr live z fm sc tag → j.ents = es → (z = false → es ≠ []) →
        let v (i n : Nat) : Val := match z, es with
          | false, e :: _ => accldVal k e i n
          | _, _ => .zero
        gives s (.accldComplete c shadow w) fun q => q.slots = k.slots ∧ q.sp = k.sp ∧ q.dmem = k.dmem ∧
          q.setOf (!shadow) = { loadSet (k.shape f) (if z then 0 else f.rows) f.cols v tag with complete := true, poison := set.poison }) ∧
      (∀ d0 d1 live cl lay tag ky, j.cmd.args = .drn d0 d1 live cl lay tag ky → set.poison = 0 →
        (set.red = none → (∀ q, ((set.checkQuad (bitsOf j.tol 7 0) (bitsOf j.tol 12 8) q).any) = false) →
          ∃ q, exec (.drnComplete c shadow w) s = .next ((((s.setCore c q).countDraw f).startEngines c).swpRetry c w.skew) ∧
            q.sp = (k.drainCopies f set (key ky.toNat) lay j.ents).1.sp ∧ q.setOf (!shadow) = set.drained cl tag ∧ q.setOf shadow = k.setOf shadow ∧
            (if shadow then q.shadowQ = k.shadowQ.tail ∧ q.arrayQ = k.arrayQ else q.arrayQ = k.arrayQ.tail ∧ q.shadowQ = k.shadowQ)) ∧
        ∀ depth e0 e1, set.red = some depth → j.ents = [e0, e1] →
          ∃ q, exec (.drnComplete c shadow w) s = .next ((((s.setCore c q).countDraw f).startEngines c).swpRetry c w.skew) ∧
            q.sp = (k.drainLists f set (key ky.toNat) depth e0 e1).1.sp ∧ q.setOf (!shadow) = set.drained cl tag ∧ q.setOf shadow = k.setOf shadow)

/-- R57 to R59, R147, R156: a DRN whose witness check marks a row, a column or a cross-check, or whose set is poisoned, still ends: its
instance fails with ABFT_MISMATCH or with the recorded status and takes POISONED; a mismatch queues the sweep of groups 0, 1, 4 and 5.
Where the spec leaves the form open the clauses follow log entries 43 and 95 (the model's choices). -/
def Obligations.DrainFindsFaults : Prop :=
  ∀ (c : Fin 192) (s : State) (j : Job) (f : Frame) (d0 d1 : BitVec 8) (live cl : Bool) (lay : BitVec 2) (tag : BitVec 8) (key : Word)
    (w : Waits) (n : Inst),
    let k := s.core c
    let bad := k.shadow.red = none ∧ ∃ q ∈ (k.shape f).quads, (k.shadow.checkQuad (bitsOf j.tol 7 0) (bitsOf j.tol 12 8) q).any = true
    k.shadowQ = [j] → k.arrayQ = [] → k.shadowHead = some (j, f) → j.cmd.args = .drn d0 d1 live cl lay tag key →
    (k.slot j.slot).inst = some n →
    (bad → s.lanternQ.length < 16 → ∃ t n', exec (.drnComplete c true w) s = .next t ∧ ((t.core c).slot j.slot).inst = some n' ∧
      n'.failed = some (n.failed.getD 0x06) ∧ n'.poisoned = true ∧ (t.core c).shadow.tag = some tag ∧
      t.lanternQ = s.lanternQ ++ [{ toll := false, unit := c.val, groups := 0x33 }]) ∧
    (¬ bad → k.shadow.poison ≠ 0 → k.shadow.poison ≠ 0x01 → ∃ t n', exec (.drnComplete c true w) s = .next t ∧
      ((t.core c).slot j.slot).inst = some n' ∧ n'.failed = some (n.failed.getD k.shadow.poison) ∧ n'.poisoned = true ∧
      t.lanternQ = s.lanternQ)

/-- R195, R198, Table 7.6: writes of CORE_CARAVAN_CTL by a writer that reaches the core. FLUSH empties a port in hold and binds it again;
RESUME starts to forward what a forwarding port in hold owes, and frees it at one that does not forward; UNBIND frees a bound, empty port;
none of them acts in another state. Where the spec leaves the form open the clauses follow log entries 28 and 46 (the model's choices). -/
def Obligations.CaravanControl : Prop :=
  ∀ (w : Who) (c : Fin 192) (s : State), s.owns w (s.core c).ctx = true → (s.core c).role ≠ 2 →
    let k := s.core c
    let puts (p : Caravan) : Result := .next (s.setCore c { k with car := p })
    (k.car.state = .hold →
      exec (.flush w c) s = puts { k.car with state := .bound, resuming := false, owed := 0, tiles := [] } ∧
      (k.car.forward = true → k.car.owed ≠ 0 → exec (.resume w c) s = puts { k.car with resuming := true }) ∧
      (k.car.forward = true → k.car.owed = 0 → (∀ t ∈ k.car.tiles, t.consumed = false) →
        exec (.resume w c) s = puts { k.car with state := .bound, resuming := false }) ∧
      (k.car.forward = false →
        let ts := k.car.tiles.filter fun t => !t.consumed
        exec (.resume w c) s = puts (if k.car.owed ≤ ts.length
          then { k.car with state := .bound, resuming := false, tiles := ts.drop k.car.owed, owed := 0 }
          else { k.car with resuming := true, tiles := [], owed := k.car.owed - ts.length }))) ∧
    (k.car.state = .bound → k.car.tiles = [] → exec (.unbind w c) s = puts { inbound := k.car.inbound }) ∧
    (k.car.state ≠ .hold → exec (.flush w c) s = .next s ∧ exec (.resume w c) s = .next s) ∧
    (k.car.state ≠ .bound ∨ k.car.tiles ≠ [] → exec (.unbind w c) s = .next s)

/-- R191, R193, R194: a tile that arrives from a core of the same context joins the buffer behind the others, and one for which an OPX
waits in tolerant mode is checked at once; a member that does not forward keeps only what it has still to consume, a relay that does not
forward nothing; a tile from a core that another context holds is discarded; a tile that the port may forward leaves for NEXT_CORE once a
place is free there, and its own place is freed. Where the spec leaves the form open the clauses follow log entry 46 (the model's
choices). R23, R37, R41, R151, R194, Table 2.6. At the slot check of tile n a head of the buffer that carries FIRST_TAG + n modulo 2¹⁶ is
consumed, whichever the mode, and the OPX accumulates it into the live set; a poison token fails the OPX with its status; a head of
another tag, or none after tile 0 in strict mode, fails it with SKEW_LIMIT, and none in tolerant mode makes it wait. SKEW_LIMIT_EXPIRY
ends the tolerant wait of an OPX or SWP with SKEW_LIMIT: the command leaves the array, its instance fails and takes POISONED, and the wait
counts. -/
def Obligations.CaravanTileFlow : Prop :=
  (∀ (c : Fin 192) (w : Waits) (s : State),
     let k := s.core c
     (∀ src t rest (p : Fin 192), k.car.inbound = (src, t) :: rest → k.car.state ≠ .fenced → k.car.resuming = false →
       coreOf? src = some p → (s.core p).ctx = k.ctx → k.ctx ≠ none →
       let come (q : Core) : Prop := q = { k with regs := q.regs, car := { k.car with inbound := rest, tiles := q.car.tiles } } ∧
         q.car.tiles = (if k.car.forward = true ∨ k.car.state ≠ .bound then k.car.tiles ++ [t]
           else if k.consumer = true then (k.car.tiles ++ [t]).filter fun t => !t.consumed else [])
       ((∀ h f, k.arrayHead = some (h, f) → h.waiting = false) →
         ∃ q, exec (.caravanTileArrive c w) s = .next ((s.setCore c q).markLate c) ∧ come q) ∧
       ∀ j f a b kk m bl first s0 s1, k.arrayHead = some (j, f) → j.waiting = true → j.cmd.args = .opx a b kk m bl first s0 s1 →
         w.skew < k.skewLimit → ∃ (u : State) (q : Core), exec (.caravanTileArrive c w) s =
           .next (u.slotCheck c { j with waiting := false } f kk.toNat first.toNat m bl) ∧ come q ∧
           u.core c = { q with skewStall := k.skewStall + w.skew } ∧ ∀ d, d ≠ c → u.core d = s.core d) ∧
     (∀ src t rest (p : Fin 192), k.car.inbound = (src, t) :: rest → k.car.state ≠ .fenced → coreOf? src = some p →
       (s.core p).ctx ≠ k.ctx → exec (.caravanTileArrive c w) s = .next (s.setCore c { k with car := { k.car with inbound := rest } })) ∧
     (∀ t (d : Fin 192), k.nextForward = some t → coreOf? k.car.next = some d → d ≠ c → (s.core d).car.state ≠ .fenced →
       (s.core d).car.tiles.length + (s.core d).car.inbound.length < 4 →
       ∃ u, exec (.caravanForward c w) s = .next u ∧ (u.core c).car.tiles = k.car.tiles.erase t ∧
         (u.core d).car.inbound = (s.core d).car.inbound ++ [(c.val, { t with consumed := false, forwarded := false })] ∧
         (u.core d).car.tiles = (s.core d).car.tiles ∧ (u.core c).sp = k.sp ∧ (u.core c).slots = k.slots ∧
         ∀ q, q ≠ c → q ≠ d → u.core q = s.core q)) ∧
  (∀ (c : Fin 192) (w : Waits) (s : State) (j : Job) (f : Frame), (s.core c).arrayHead = some (j, f) →
     let k := s.core c
     let fails (i : Instr) (st : Byte) (p : Core → Prop) : Prop := ∃ u : State, exec i s = .next (u.startEngines c) ∧ (u.core c).arrayQ = k.arrayQ.tail ∧
       (u.core c).sp = k.sp ∧ p (u.core c) ∧ ∀ n, (k.slot j.slot).inst = some n → ∃ n' : Inst, ((u.core c).slot j.slot).inst = some n' ∧
         n'.failed = some (n.failed.getD st) ∧ n'.poisoned = true
     let any : Core → Prop := fun _ => True
     (∀ (a b : BitVec 8) (kk : BitVec 24) (m : BitVec 4) (bl : Bool) (first s0 s1 : BitVec 16), j.cmd.args = .opx a b kk m bl first s0 s1 →
       f.bCaravan = true → j.waiting = false → j.tile < caravanTiles kk.toNat →
       let bits := if j.tile = 0 then k.mask[m.toNat]'m.isLt else j.mask
       let used (t : CTile) : CTile := { t with consumed := true }
       (∀ t ea rest, k.carHead = some t → t.tag.toNat = (first.toNat + j.tile) % 2 ^ 16 → t.poison = 0 → j.ents = ea :: rest →
         ∃ q, exec (.caravanSlotCheck c w) s = .next (s.setCore c q) ∧ q = { k with
           regs := q.regs, slots := q.slots, car := { k.car with tiles := q.car.tiles }
           arrayQ := { j with tile := j.tile + 1, waiting := false, mask := bits } :: k.arrayQ.tail
           live := k.live.opx (k.shape f) ⟨bits, bl⟩ f.rows f.cols (beatsOf f.isFp32 f.p (opxPositions k f ea (128 * j.tile)
             (min 128 (kk.toNat - 128 * j.tile)) fun n e => tileVal f t.bytes n e)) } ∧
           q.car.tiles = (let ts := modHead used k.car.tiles
             if k.car.forward = true ∨ k.car.state ≠ .bound then ts else ts.filter fun t => !t.consumed)) ∧
       (∀ t, k.carHead = some t → t.tag.toNat = (first.toNat + j.tile) % 2 ^ 16 → t.poison ≠ 0 → t.poison ≠ stPartial →
         fails (.caravanSlotCheck c w) t.poison any) ∧
       (∀ t, k.carHead = some t → t.tag.toNat ≠ (first.toNat + j.tile) % 2 ^ 16 → fails (.caravanSlotCheck c w) 0x05 any) ∧
       (k.carHead = none → j.tile ≠ 0 → f.tolerant = false → fails (.caravanSlotCheck c w) 0x05 any) ∧
       (k.carHead = none → j.tile ≠ 0 → f.tolerant = true → ∃ q, exec (.caravanSlotCheck c w) s = .next (s.setCore c q) ∧
         q = { k with regs := q.regs, arrayQ := { j with waiting := true } :: k.arrayQ.tail }) ∧
       (k.carHead = none → j.tile = 0 → exec (.caravanSlotCheck c w) s = .next s)) ∧
     (j.waiting = true → ∀ a b kk m bl first s0 s1, j.cmd.args = .opx a b kk m bl first s0 s1 →
       fails (.skewLimitExpiry c) 0x05 fun q => q.skewStall = k.skewStall + k.skewLimit) ∧
     (j.waiting = true → ∀ tag, j.cmd.args = .swp tag →
       fails (.skewLimitExpiry c) 0x05 fun q => q.skewStall = k.skewStall + k.skewLimit ∧ q.live.cells = k.live.cells ∧ q.shadow.cells = k.shadow.cells) ∧
     (j.waiting = false → exec (.skewLimitExpiry c) s = .next s))

/-- R133, R134, R167 to R170, R184, Table 6.13: the control commands. NOP completes at issue. WCT holds its instance's issue until its
counter v has (v − COUNT) mod 2³² < 2³¹, or fails with TIMEOUT at a non-zero LIMIT; FENCE holds it until the instance's commands have
completed; PSET writes the software bits of its instance's set, and the instance's own NONFINITE and POISONED, that MASK names, or one bit
from a counter. Where the spec leaves the form open the clauses follow log entry 28 (the model's choices). -/
def Obligations.ControlCommands : Prop :=
  ∀ (c : Fin 192) (i : Fin 8) (stall : Nat) (s : State) (n : Inst) (f : Frame),
    let k := s.core c
    let puts (k : Core) : Result := .next (s.setCore c k)
    let met (v count : Word) : Prop := (v - count).toNat < 2 ^ 31
    let old : BitVec 16 := if k.owned f then k.soft else k.softFill
    let soft (k : Core) (b : BitVec 16) : Core := if k.owned f then { k with soft := b } else { k with softFill := b }
    (∀ cmd, Issues c i n f cmd s →
      match cmd.args with
      | .nop => exec (.nop c i stall) s = puts (issued i stall k)
      | .wct ctr _ _ => s.counterOpen f ctr.toNat = true →
        exec (.wct c i stall) s = puts ((issued i stall k).modInst i fun m => { m with held := some cmd })
      | .fence => exec (.fence c i stall) s = puts ((issued i stall k).modInst i fun m => { m with held := some cmd })
      | .psetMask m v => ∃ b16 : BitVec 16, ∃ nf po : Bool,
        exec (.pset c i stall) s = puts (soft ((issued i stall k).modInst i fun q => { q with nonfinite := nf, poisoned := po }) b16) ∧
        (∀ b, b16.getLsbD b = if 1 ≤ b ∧ b ≤ 11 ∧ m.getLsbD b = true then v.getLsbD b else old.getLsbD b) ∧
        nf = (if m.getLsbD 13 then v.getLsbD 13 else n.nonfinite) ∧ po = (if m.getLsbD 14 then v.getLsbD 14 else n.poisoned)
      | .psetCounter d ctr count => 1 ≤ d.toNat → d.toNat ≤ 11 → s.counterOpen f ctr.toNat = true →
        ∃ b16 : BitVec 16, exec (.psetCounter c i stall) s = puts (soft (issued i stall k) b16) ∧
        (b16.getLsbD d.toNat = true ↔ met (s.counter ctr.toNat) count) ∧
        ∀ b, b ≠ d.toNat → b16.getLsbD b = old.getLsbD b
      | _ => True) ∧
    (∀ be p v ctr count limit, (k.slot i).inst = some n → n.held = some ⟨p, v, .wct ctr count limit⟩ →
      (met (s.counter ctr.toNat) count → exec (.wctCountMet c i be) s = puts (k.release i be)) ∧
      (¬ met (s.counter ctr.toNat) count → exec (.wctCountMet c i be) s = .next s) ∧
      (¬ met (s.counter ctr.toNat) count → limit ≠ 0 → ∃ q, exec (.wctTimeout c i be) s = puts q ∧
        (q.slot i).inst = some { n with held := none, failed := some (n.failed.getD 0x0F) })) ∧
    (∀ be p v, (k.slot i).inst = some n → n.held = some ⟨p, v, .fence⟩ →
      (k.outstanding i = false → exec (.fenceRelease c i be) s = puts (k.release i be)) ∧
      (k.outstanding i = true → exec (.fenceRelease c i be) s = .next s))

/-- R29, R30, R167, R184 to R186: BQP and BQT wait on the queue unit once their checks pass. A BQP that its arbiter grants is accepted
when its endpoint's queue holds fewer than 16 items and a slot is free: the billet's bytes are in the slot and its handle at the tail; of
a poisoned billet only a token. A BQT takes the head into its entry, a token as a billet with no extent poisoned by its status, with which
its instance fails. Where the spec leaves the form open the clauses follow log entries 7 and 41 (the model's choices). -/
def Obligations.QueueCommands : Prop :=
  ∀ (c : Fin 192) (i : Fin 8) (s : State) (f : Frame) (j : Job) (b : BitVec 8) (ep : BitVec 16),
    let k := s.core c
    let e := k.entry b.toNat
    (∀ stall n cmd, Issues c i n f cmd s → ep.toNat < 3072 → s.endpointStatus c (!k.owned f) ep.toNat = stOk →
      (cmd.args = .bqt b ep → (s.endpoint ep.toNat).map (·.1) = some c →
        exec (.bqt c i stall) s = .next (s.setCore c
          { issued i stall k with queueQ := k.queueQ ++ [{ newJob i n cmd [] with started := true }] })) ∧
      ∀ tie d q, cmd.args = .bqp b ep → s.usesOk c f (plainUses b) = true → s.endpoint ep.toNat = some (d, q) →
        e.size ≤ bitsOf ((s.core d).bqCfg q) 27 17 → k.scoreboardClear (cmdRanges f cmd.args [e]) = true →
        let m := if tie then s.moments else s.moments + 1
        exec (.bqp c i stall tie) s = .next (({ s with moments := m }).setCore c { issued i stall k with queueQ := k.queueQ ++
          [{ newJob i n cmd [e] with started := true, poison := BitVec.ofNat 8 e.poison, arrived := m }] })) ∧
    (∀ w e d q m, k.queueJob i true = some j → j.cmd.args = .bqp b ep → j.ents = [e] → s.endpoint ep.toNat = some (d, q) →
      ((s.core d).end_ q).queue.length < 16 → s.bqpWins d q c j.arrived = true → (j.poison = 0 → ((s.core d).end_ q).freeSlot = some m) →
      ∃ t, exec (.bqpAccept c i w) s = .next t ∧ (t.core c).queueQ = k.queueQ.erase j ∧ (c ≠ d → (t.core c).sp = k.sp) ∧
        (∀ r, r ≠ c → r ≠ d → t.core r = s.core r) ∧ ((t.core d).end_ q).grants = (((s.core d).end_ q).grant c).grants ∧
        (j.poison ≠ 0 → ((t.core d).end_ q).queue = ((s.core d).end_ q).queue ++ [.token j.poison] ∧ (t.core d).sp = (s.core d).sp) ∧
        (j.poison = 0 → let line := bitsOf ((s.core d).bqCfg q) 16 0 + 2 * m * bitsOf ((s.core d).bqCfg q) 27 17
          ((t.core d).end_ q).busy.getLsbD m = true ∧
          (t.core d).sp = (s.core d).sp.writeRun (line * 64) (k.sp.readRun e.addr e.extent) ∧
          ((t.core d).end_ q).queue = ((s.core d).end_ q).queue ++
            [.handle (BitVec.ofNat 32 (line % 2 ^ 17 + e.size * 2 ^ 17)) (BitVec.ofNat 32 e.w1) m])) ∧
    (∀ w d q, k.queueJob i true = some j → j.cmd.args = .bqp b ep → s.endpoint ep.toNat = some (d, q) →
      (16 ≤ ((s.core d).end_ q).queue.length ∨ s.bqpWins d q c j.arrived = false) → exec (.bqpAccept c i w) s = .next s) ∧
    (∀ w d q item rest n, k.queueJob i false = some j → k.frame i = some f → (k.slot i).inst = some n → j.cmd.args = .bqt b ep →
      s.endpoint ep.toNat = some (d, q) → (k.end_ q).queue = item :: rest → k.dmem.wf = true →
      ∃ t, exec (.bqtTake c i w) s = .next t ∧ t = s.setCore c (t.core c) ∧ ((t.core c).end_ q).queue = rest ∧
        (t.core c).queueQ = k.queueQ.erase j ∧ (t.core c).sp = k.sp ∧
        (∀ a, (a < entryAddr b.toNat ∨ entryAddr b.toNat + 16 ≤ a) → (t.core c).dmem.read a = k.dmem.read a) ∧
        match item with
        | .handle w0 w1 _ => (t.core c).dmem.readLE (entryAddr b.toNat) 4 = w0.toNat ∧
          (t.core c).dmem.readLE (entryAddr b.toNat + 4) 4 = w1.toNat
        | .token st => (t.core c).dmem.readLE (entryAddr b.toNat) 4 = 0 ∧
          (t.core c).dmem.readLE (entryAddr b.toNat + 8) 4 = f.context + st.toNat * 2 ^ 8 ∧
          (st ≠ stOk → st ≠ stPartial → j.slot = i → ∃ n', ((t.core c).slot i).inst = some n' ∧ n'.failed = some (n.failed.getD st) ∧ n'.poisoned = true))

/-- R131, R132, R183: an instance whose commands have all ended ends. Its slot holds none, keeps its frame, and tells the status and
micro-batch of the instance; the slot's event is raised; the sets are cleared after a transient instance, and only the shadow set after a
resident one. No byte of a scratchpad and no Steward register changes. -/
def Obligations.InstanceEnds : Prop :=
  ∀ (c : Fin 192) (i : Fin 8) (w : Waits) (s : State) (n : Inst) (f : Frame),
    let k := s.core c
    (k.slot i).inst = some n → k.frame i = some f → n.running = true → k.outstanding i = false →
    (n.failed ≠ none ∨ (n.held = none ∧ n.len ≤ n.next)) →
    ∃ t, exec (.instanceEnd c i w) s = .next t ∧
      let q := t.core c
      (q.slot i).inst = none ∧ (q.slot i).lastStatus = n.status ∧ (q.slot i).lastMb = n.mb ∧ (q.slot i).image = (k.slot i).image ∧
      q.stw.events.getLsbD i.val = true ∧ (∀ d, (t.core d).sp = (s.core d).sp ∧ (t.core d).stw.g = (s.core d).stw.g) ∧
      (f.accUse = 0 → q.live = k.live ∧ q.shadow = k.shadow) ∧ (f.accUse = 1 → q.live = .cleared ∧ q.shadow = .cleared) ∧
      (f.accUse = 2 → q.live = k.live ∧ q.shadow = .cleared ∧ q.liveOwner = some i)

/-- R161, R163, R165, R209, R225, R226: a Porter command whose checks pass is accepted when fewer than 16 requests are outstanding: it
joins them at the end, the instance goes on, and no byte of a scratchpad changes. An LDT takes what it reads, a raw one of readable
granules the bytes of the region, and advances TAG of an insertion; STT and ACW change no memory yet; an XMT puts packets out for
injection and awaits an answer for each. Where the spec leaves the form open the clauses follow log entry 42 (the model's choices). -/
def Obligations.PorterAccepts : Prop :=
  ∀ (c : Fin 192) (i : Fin 8) (stall : Nat) (s : State) (n : Inst) (f : Frame) (cmd : TileCmd), Issues c i n f cmd s →
    let k := s.core c
    let ent (b : BitVec 8) : BEntry := k.entry b.toNat
    let plain (j : PJob) : PJob := { j with urgent := false }
    -- the requests are as they were, with `j` at the end; a load may have become urgent
    let joined (j : PJob) (t : State) : Prop := (t.core c).porterQ.map plain = (k.porterQ ++ [j]).map plain ∧
      ((t.core c).slot i).inst = some { n with next := n.next + 1 } ∧ (t.core c).arrayQ = k.arrayQ ∧ (t.core c).live = k.live ∧
      ∀ d, (t.core d).sp = (s.core d).sp
    let puts (u : State) (j : PJob) : Result := .next (u.setCore c { issued i stall k with porterQ := k.porterQ ++ [j] })
    k.porterQ.length < 16 →
    match cmd.args with
    | .ldt b m _ addr _ => ldtOk1 f cmd.args = true → ldtOk2 f cmd k = true → BilletsReady c f cmd.args (ldtUses b (m == 0)) s →
      ∀ t errs, s.reach true f.context n.mb addr.toNat ((ent b).moved (m == 0)) (m == 0) (ldtKinds (m == 0)) = some t →
        let r := ((s.meeting errs).setCore c (k.bump 0x20444 stall)).readReach t addr.toNat ((ent b).moved (m == 0)) (m == 0)
        (∃ u, exec (.ldt c i stall errs) s = .next u ∧ joined (newPJob k i n cmd (ent b) r.1) u ∧
          ((ent b).layout ≠ 4 → (u.core c).dmem = k.dmem) ∧ ((ent b).layout = 4 → (u.core c).dmem = (k.advanceTag (ent b)).dmem)) ∧
        ∀ g, m = 1 → t = .region g → errs = [] → g.tiled = false → s.heldAt addr.toNat (ent b).extent = false →
          (∀ q ∈ granules addr.toNat (ent b).extent, SMap.get (fun _ => false) s.marked q = false ∧ (s.chan (chanOf (64 * q))).st ≠ 2) →
          r.1 = .bytes (s.mem.readRun addr.toNat (ent b).extent) ∧ r.2.mem = s.mem
    | .stt b m addr _ => sttOk1 f cmd.args = true → sttOk2 f cmd k = true → BilletsReady c f cmd.args (sttUses b (m == 0)) s →
      ∀ t, s.reach true f.context n.mb addr.toNat ((ent b).moved (m == 0)) (m == 0) (sttKinds (m == 0)) = some t →
        t.writable ((ent b).moved (m == 0)) false = true →
        let j := newPJob k i n cmd (ent b) (.bytes [])
        match t with
        | .region _ => exec (.stt c i stall) s = puts s j
        | .stash x q off => ∀ u, s.allocExtents x q.mb (q.newExtents off ((ent b).moved (m == 0))) = some u → exec (.stt c i stall) s = puts u j
    | .acw b _ addr _ => acwOk1 f cmd.args = true → acwOk2 f cmd k = true → BilletsReady c f cmd.args (plainUses b) s →
      ∀ t, s.reach true f.context n.mb addr.toNat (ent b).extent false [0, 1, 2] = some t → t.writable (ent b).extent true = true →
        (if inStash addr.toNat then addr.toNat - stashBase else addr.toNat) % acwUnit (ent b).fmt = 0 → (ent b).extent % acwUnit (ent b).fmt = 0 →
        exec (.acw c i stall) s = puts s (newPJob k i n cmd (ent b) (.bytes []))
    | .xmt b mc dest _ _ _ off lcount => xmtOk1 f cmd.args = true → BilletsReady c f cmd.args (plainUses b) s →
      s.counterOpen f lcount.toNat = true → ((ent b).fmt = 14 → (ent b).extent % 192 = 0) →
      ∀ m, (if mc then s.groupMembers dest.toNat else some 1) = some m →
        let w48 := (ent b).fmt == 14
        let parts := xmtParts w48 (k.sp.readRun (ent b).addr (ent b).extent)
        let lost := beyondWindows (off.toNat * (if w48 then 12288 else 4096)) parts * m
        ∃ u, exec (.xmt c i stall) s = .next u ∧ u.mem = s.mem ∧
          joined { newPJob k i n cmd (ent b) (.bytes []) with expected := parts.length * m, returned := lost, negative := lost != 0 } u
    | _ => True

/-- R162, R189, R194, R231: an LDT that completes places its bytes in its billet, from the entry's base on, makes the billet ready and
advances its group's count; bytes that a tile or its digest does not bear out, and those of a bad granule, poison the billet with
WEIGHT_POISON and fail the instance, as a stale request poisons it with CANCELLED; an insertion puts its tile, or a poison token of that
status, into the caravan. Nothing but the core and the channels' queues changes by a load into a billet. Where the spec leaves the form
open the clauses follow log entry 42 (the model's choices). R163, R165, R210, R244 to R246: an STT that completes has written its bytes in
the region or the stash that it reaches, a raw one in a raw region those from its address on and no other; an ACW has applied its updates
to the granules that can be read, one of FP32, BF16, FP16 or W48 data in a raw region the update of R245 to each element; an XMT whose
completions have all returned ends with their joint status. The scratchpads are as before, and the request is gone. Where the spec leaves
the form open the clauses follow log entries 42 and 109 (the model's choices). -/
def Obligations.PorterWork : Prop :=
  (∀ (c : Fin 192) (pos : Nat) (w : Waits) (s : State) (j : PJob) (d : BitVec 8) (m ti : BitVec 2) (addr : BitVec 48) (g : BitVec 16),
     let k := s.core c
     let gives (p : Core → Prop) : Prop := ∃ t, exec (.ldtComplete c pos w) s = .next t ∧ t = { s.setCore c (t.core c) with chans := t.chans } ∧
       (t.core c).porterQ = k.porterQ.eraseIdx pos ∧ (t.core c).live = k.live ∧ p (t.core c)
     k.porterQ[pos]? = some j → j.cmd.args = .ldt d m ti addr g →
     (j.ent.layout ≠ 4 → k.dmem.wf = true → k.sp.wf = true →
       (∀ bs, j.stale = false → j.data = .bytes bs → (m = 0 → tileAccepted j.ent bs = true) → gives fun q =>
         q.sp = (if m = 0 then (k.placeTile j.ent bs).sp else k.sp.writeRun j.ent.addr bs) ∧ q.slots = k.slots ∧
         q.dmem.read (entryAddr j.ent.num + 9) = 0 ∧ (∀ a, a ≠ entryAddr j.ent.num + 9 → q.dmem.read a = k.dmem.read a) ∧
         q.groups = (k.bumpGroup g j.mb).groups) ∧
       (k.entry j.ent.num = j.ent → j.ent.size ≠ 0 → j.ent.num < 256 →
         (j.stale = false → (j.data = .bad ∨ ∃ bs, m = 0 ∧ j.data = .bytes bs ∧ tileAccepted j.ent bs = false) →
           gives fun q => q.sp = k.sp ∧ q.dmem.read (entryAddr j.ent.num + 9) = 0x04 ∧
             ∀ n, (k.slot j.slot).inst = some n → ∃ n', (q.slot j.slot).inst = some n' ∧ n'.failed = some (n.failed.getD 0x04)) ∧
         (j.stale = true → gives fun q => q.sp = k.sp ∧ q.dmem.read (entryAddr j.ent.num + 9) = 0x07 ∧ q.groups = k.groups))) ∧
     (j.ent.layout = 4 → (j.refetching = false ∨ j.stale = true) →
       (k.mayInsert pos = false → exec (.ldtComplete c pos w) s = .next s) ∧
       (k.mayInsert pos = true → ∃ (u : State) (t : CTile), exec (.ldtComplete c pos w) s = .next (u.tilePresent c t w.skew) ∧
         (u.core c).porterQ = k.porterQ.eraseIdx pos ∧ (u.core c).car = k.car ∧ (u.core c).sp = k.sp ∧ t.tag = j.tag ∧ t.consumed = false ∧
         (j.stale = true → t.poison = 0x07) ∧ (∀ bs, j.stale = false → j.good true = some bs → t.poison = 0 ∧ t.bytes = bs) ∧
         (j.stale = false → j.good true = none → t.poison = 0x04)))) ∧
  (∀ (c : Fin 192) (pos : Nat) (w : Waits) (s : State) (j : PJob),
     let k := s.core c
     let bs := k.sp.readRun j.ent.addr j.ent.extent
     let gives (i : Instr) (p : State → Prop) : Prop := ∃ t, exec i s = .next t ∧ (t.core c).porterQ = k.porterQ.eraseIdx pos ∧
       (∀ d, (t.core d).sp = (s.core d).sp ∧ (t.core d).dmem = (s.core d).dmem) ∧ p t
     let writes (a n : Nat) (bs : List Byte) (t : State) : Prop :=
       (∀ i < n, t.mem.read (a + i) = bs.getD i 0) ∧ ∀ x, (x < a ∨ a + n ≤ x) → t.mem.read x = s.mem.read x
     k.porterQ[pos]? = some j →
     (∀ b m a g t, j.cmd.args = .stt b m a g →
       let xs := k.sttBytes j.rows j.cols j.ent (m == 0) g.toNat
       s.reach false j.ctx j.mb a.toNat xs.length false [0, 1, 2, 3, 4] = some t → s.reachHeld t a.toNat xs.length = false →
       match t with
       | .region r => (s.writeWaits r a.toNat xs = true → exec (.sttComplete c pos w) s = .next s) ∧
         (s.writeWaits r a.toNat xs = false → gives (.sttComplete c pos w) fun t => t.mem = (s.writeIn r a.toNat xs).mem ∧ t.dir = (s.writeIn r a.toNat xs).dir ∧
           (r.tiled = false → s.mem.wf = true → writes a.toNat xs.length xs t))
       | .stash _ q off => let form := q.stashForm off (m == 0) xs
         gives (.sttComplete c pos w) fun t => t.mem = (s.writeStash (q.stashGrans off form.length) form).mem) ∧
     (∀ b op a sc r errs, j.cmd.args = .acw b op a sc → s.reach false j.ctx j.mb a.toNat j.ent.extent false [0, 1, 2] = some (.region r) →
       s.heldAt a.toNat j.ent.extent = false →
       let gs := (List.range (j.ent.extent / 64)).map fun n => a.toNat + 64 * n
       let unit := acwUnit j.ent.fmt
       (∀ bad u, (s.meeting errs).acwDecode (some r) gs = (some bad, u) → gives (.acwComplete c pos w errs) fun t =>
         t.mem = (u.applyUnits (some r) j.ent.fmt op.toNat (fp32Of sc.toNat) bad
           (((chunks (unit / 64) (gs.length / (unit / 64)) gs).zip (chunks unit (gs.length / (unit / 64)) bs)).map fun u => (u.1, 0, u.2))).mem) ∧
       (errs = [] → r.tiled = false → j.ent.extent % unit = 0 → a.toNat % 64 = 0 → s.mem.wf = true →
         (j.ent.fmt = 0 ∨ j.ent.fmt = 2 ∨ j.ent.fmt = 3 ∨ j.ent.fmt = 14) →
         (∀ g ∈ granules a.toNat j.ent.extent, SMap.get (fun _ => false) s.marked g = false ∧ (s.chan (chanOf (64 * g))).st ≠ 2) →
         let w' := fmtBits j.ent.fmt / 8
         gives (.acwComplete c pos w errs) fun t =>
           (∀ n < j.ent.extent / w', t.mem.readLE (a.toNat + w' * n) w' =
             (acwElem j.ent.fmt op.toNat (fp32Of sc.toNat) (s.mem.readLE (a.toNat + w' * n) w') (leNat ((bs.drop (w' * n)).take w'))).1 % 2 ^ (8 * w')) ∧
           ∀ x, (x < a.toNat ∨ a.toNat + j.ent.extent ≤ x) → t.mem.read x = s.mem.read x)) ∧
     (∀ b mc de wi ge rc off lc, j.cmd.args = .xmt b mc de wi ge rc off lc →
       (j.returned < j.expected → exec (.xmtComplete c pos w) s = .next s) ∧
       (j.expected ≤ j.returned → gives (.xmtComplete c pos w) fun t => t.mem = s.mem ∧
         ∀ n, j.stale = false → (k.slot j.slot).inst = some n → ∃ n', ((t.core c).slot j.slot).inst = some n' ∧
           n'.failed = (if j.negative then some (n.failed.getD 0x02) else if j.timedOut then some (n.failed.getD 0x0F) else n.failed) ∧
           n'.fencedSeen = (n.fencedSeen || (!j.negative && !j.timedOut && j.pruned != 0)))))

/-- R237, R240 to R242, Table 9.7: a running refetch whose source delivers a good tile of the slot's generation puts it into the slot,
which has again the state it had, and counts as recovered; a slot that a whole write has taken over keeps what it holds. A failed home
copy turns to the region's mirror; without a good copy the slot is POISONED, fault-log kind 0x03 is written and GLB_DIR_REFETCH counts it
lost. A channel held for service delays it. Where the spec leaves the form open the clauses follow log entry 53 (the model's choices). -/
def Obligations.RefetchEnds : Prop :=
  ∀ (slot : Nat) (arrived : List (List Byte)) (errs : List GranErr) (s : State) (r : Region) (f : Refetch),
    let d := s.dirAt slot
    let got := ((s.meeting errs).refetched r f arrived).1.bind (goodRefetch d.gen)
    let held := s.heldAt slot r.slotBytes || (f.home && s.heldAt (r.home + (slot - r.base)) r.slotBytes)
    let again : Prop := f.home = true ∧ s.hasMirror r = true ∧ f.overtaken = false
    let run : Result := exec (.refetchComplete slot arrived errs) s
    let count (u : State) (hi lo : Nat) : Prop := bitsOf (u.rd 0x9040C) hi lo = min 0xFFFF (bitsOf (s.rd 0x9040C) hi lo + 1)
    s.regionAt slot 1 = some r → (s.runningRefetches (dieOf slot)).find? (fun g => g.slot == slot) = some f →
    (∀ c, ∀ j ∈ (s.core c).porterQ, j.data ≠ .refetching slot) →
    s.mem.wf = true → SMap.wf glbReset s.regs = true → SMap.wf dirDefault s.dir = true → SMap.wf (fun _ => ([] : List Byte)) s.faultLog = true →
    (held = true → run = .next s) ∧
    (∀ t, held = false → got = some t → ∃ u : State, run = .next u ∧ (∀ g ∈ u.refetches, g.serial ≠ f.serial) ∧ count u 15 0 ∧
      (f.overtaken = true → f.writes = [] → u.mem = s.mem ∧ u.dir = s.dir) ∧
      (f.overtaken = false → f.writes = [] → (u.dirAt slot).st = f.prior ∧ (u.dirAt slot).gen = d.gen ∧
        u.mem = s.mem.writeRun slot (if r.kind = 3 then cellarEncode t else t))) ∧
    (held = false → got = none → again → ∃ u : State, run = .next u ∧ u.mem = s.mem ∧ u.dir = s.dir ∧
      ∃ g ∈ u.refetches, g.serial = f.serial ∧ g.home = false) ∧
    (held = false → got = none → ¬ again → ∃ u : State, run = .next u ∧ (∀ g ∈ u.refetches, g.serial ≠ f.serial) ∧ count u 31 16 ∧
      (f.overtaken = true → f.writes = [] → u.mem = s.mem ∧ u.dir = s.dir) ∧
      (f.overtaken = false → f.writes = [] → u.mem = s.mem ∧ (u.dirAt slot).st = .poisoned ∧
        ∃ n < 1024, (SMap.get (fun _ => []) u.faultLog n).getD 4 0 = 0x03))

/-- R222, R247: a write-combining entry left untouched for 2 µs is evicted as one read-modify-write, and CHAN_WC_EVICT counts it; one
whose read finds the granule uncorrectable leaves it marked so that every later read of it fails. Memory and the other entries are as
before. R248, R249: a channel's granule slot serves one of the accesses that wait there. A partition that may be served counts one granule
and pays the request's cost, the bucket never running below 0 or above its burst; with no such partition, or while the channel is held for
service, only the buckets fill. Traffic of no partition pays nothing. No other channel and no memory changes. Where the spec leaves the
form open the clauses follow log entries 28 and 54 (the model's choices). R227, R277: a region whose close is requested goes once nothing
reaches it: no region, directory slot or refetch of it is left, and no window over it; bytes of both tiers stay as they are. While
something reaches it, it stays. -/
def Obligations.ChannelEvents : Prop :=
  (∀ (g : Nat) (errs : List GranErr) (s : State) (e : WcEntry),
     let ch := chanOf (64 * g)
     (s.chan ch).wc.filter (fun e => e.gran == g) = [e] → SMap.wf chanReset (s.chan ch).regs = true → SMap.wf (fun _ => false) s.marked = true →
     ∃ t : State, exec (.wcEntryTimeout ch g errs) s = .next t ∧ (t.chan ch).wc = (s.chan ch).wc.filter (fun e => e.gran != g) ∧
       t.mem = s.mem ∧ (t.chan ch).rd 0x3001C = ((s.chan ch).rd 0x3001C + 1) % 2 ^ 32 ∧
       (((s.meeting errs).decodeGran g).1 = false → t.marked = s.marked) ∧
       (((s.meeting errs).decodeGran g).1 = true → SMap.get (fun _ => false) t.marked g = true)) ∧
  (∀ (ch : Fin 208) (ns : Nat) (own : Bool) (s : State),
     let k := s.chan ch
     let k1 := k.refill ns
     SMap.wf chanReset k.regs = true → SMap.wf zeroTokens k.tokens = true →
     (∀ p < 16, SMap.get zeroTokens k1.tokens p = min (k.burst p * 1024) (SMap.get zeroTokens k.tokens p + k.rate p * ns)) ∧
     ∃ t : State, exec (.channelPick ch ns own) s = .next t ∧ t = { s with chans := t.chans } ∧ (∀ d, d ≠ ch → t.chan d = s.chan d) ∧
       (k.st = 1 → t.chan ch = k1) ∧
       (k.st ≠ 1 → own = true → k.reqs.find? (fun q => q.part.isNone) = none → t.chan ch = k1) ∧
       (∀ q, k.st ≠ 1 → own = true → k.reqs.find? (fun q => q.part.isNone) = some q →
         t.chan ch = { k1 with reqs := serveOne q k.reqs }) ∧
       (k.st ≠ 1 → own = false → k1.eligible k.reqs = [] → t.chan ch = k1) ∧
       (k.st ≠ 1 → own = false → k1.eligible k.reqs ≠ [] → ∃ p, p ∈ k1.eligible k.reqs ∧ ∃ q, headRequest k.reqs p = some q ∧ q ∈ k.reqs ∧
         q.part.map (·.val) = some p ∧ (t.chan ch).lastPart = p ∧ (t.chan ch).reqs = serveOne q k.reqs ∧
         (t.chan ch).rd (0x30140 + 4 * p) = (k.rd (0x30140 + 4 * p) + 1) % 2 ^ 32 ∧
         SMap.get zeroTokens (t.chan ch).tokens p = SMap.get zeroTokens k1.tokens p - q.cost)) ∧
  (∀ (base : Nat) (errs : List GranErr) (s : State) (r : Region), s.regions.find? (fun q => q.base == base && q.closing.isSome) = some r →
     (s.regionBusy r = true → exec (.regionCloseEffect base errs) s = .next s) ∧
     (s.regionBusy r = false → ∃ t : State, exec (.regionCloseEffect base errs) s = .next t ∧ t.mem = s.mem ∧
       (∀ q ∈ t.regions, q.base ≠ base) ∧ (∀ q ∈ s.regions, q.base ≠ base → q ∈ t.regions) ∧
       (∀ e ∈ t.dir, r.holds e.1 1 = false) ∧ (∀ f ∈ t.refetches, r.holds f.slot 1 = false) ∧
       (∀ w ∈ t.windows, r.meets w.base w.size = false) ∧
       ∀ w ∈ s.windows, w.id ∉ ((s.windows.filter fun w => r.meets w.base w.size).map (·.id)) → w ∈ t.windows))

/-- R251, R252, Tables 9.9 and 9.10: the physical function or the Gatehouse queues a margin scan or a retrain, other functions do not. At
its end MARGIN and the result are read: failed below 8 or 15 steps, which leaves the channel in STATE 2; marginal below 16 or 30; else
pass, which returns a retrained channel to STATE 0 and, on a pass, takes its erasure back. Memory is as before. Where the spec leaves the
form open the clauses follow log entries 28 and 54 (the model's choices). -/
def Obligations.ChannelService : Prop :=
  ∀ (w : Who) (ch : Fin 208) (errs : List GranErr) (s : State),
    (planeWrites w = false → exec (.marginScan w ch) s = .next s ∧ exec (.retrain w ch errs) s = .next s) ∧
    (planeWrites w = true →
      (∃ t : State, exec (.marginScan w ch) s = .next t ∧ t.svcQ.length = s.svcQ.length + 1 ∧ t.mem = s.mem ∧
        ∃ o ∈ t.svcQ, o.chan = ch.val ∧ o.op = 1) ∧
      ∃ t : State, exec (.retrain w ch errs) s = .next t ∧ t.svcQ.length = s.svcQ.length + 1 ∧ t.mem = s.mem ∧
        ∃ o ∈ t.svcQ, o.chan = ch.val ∧ o.op = 2) ∧
    ∀ (tMin vMin lane us : Nat) (o : SvcOp), tMin < 128 → vMin < 256 → lane < 256 → s.svcQ = [o] → o.chan = ch.val → o.running = true →
      SMap.wf chanReset (s.chan ch).regs = true → (∀ c, ∀ j ∈ (s.core c).porterQ, j.data ≠ .held) →
      let t8 : Nat := if tMin < 8 ∨ vMin < 15 then 3 else if tMin < 16 ∨ vMin < 30 then 2 else 1
      ∃ t : State, exec (.channelServiceComplete ch tMin vMin lane us errs) s = .next t ∧ t.svcQ = [] ∧ t.mem = s.mem ∧ (t.chan ch).svc = 0 ∧
        (t.chan ch).rd 0x3000C = tMin + vMin * 2 ^ 8 + lane * 2 ^ 16 ∧
        (t.chan ch).rd 0x30008 = t8 * 4 + (if o.op = 2 then 16 else 0) + min us 0xFFFF * 2 ^ 16 ∧
        (t.chan ch).st = (if t8 = 3 then 2 else if o.op = 2 then 0 else (s.chan ch).st) ∧
        (t.chan ch).erased = if o.op = 2 ∧ t8 = 1 then none else (s.chan ch).erased

/-- R251, R322, R323, R337: BAR4 below 64 KiB is the function's mailbox, whose request ring takes what is written, the rest of the first
16 MiB reads as zero and takes no write; above that lies the window at PCIE_BAR4_BASE, which reaches the near regions of kinds 0 to 2 of
the function's contexts and waits for a channel held for service. Any other access is answered as an Unsupported Request and counted in
PCIE_BAR4_REJECT, and stores nothing; beyond the size of the BAR there is no access. Where the spec leaves the form open the clauses
follow log entries 63 and 111 (the model's choices). -/
def Obligations.Bar4Accesses : Prop :=
  ∀ (f : Fin 32) (off len : Nat) (data : List Byte) (errs : List GranErr) (s : State),
    let a := (s.fn f).bar4Base + (off - 0x1000000)
    let rejected (t : State) : Prop := (t.fn f).rd 0x1020C = ((s.fn f).rd 0x1020C + 1) % 2 ^ 32 ∧ t.mem = s.mem ∧ (t.fn f).box = (s.fn f).box
    let bad := ((s.meeting errs).decodeGrans (granules a len)).1
    let readIn := (s.fn f).inBar4 off len
    let writeIn := (s.fn f).inBar4 off data.length
    SMap.wf fnReset (s.fn f).regs = true →
    (readIn = false → exec (.bar4Read f off len errs) s = .next s) ∧ (writeIn = false → exec (.bar4Write f off data errs) s = .next s) ∧
    (readIn = true → off < 0x1000000 → exec (.bar4Read f off len errs) s =
      .next { s with out := s.out ++ [.barRead f.val 0 ((List.range len).map fun i => (s.fn f).boxByte (off + i))] }) ∧
    (writeIn = true → 0x10000 ≤ off → off < 0x1000000 → exec (.bar4Write f off data errs) s = .next s) ∧
    (writeIn = true → 0x1000 ≤ off → off + data.length ≤ 0x5000 → (s.fn f).box.wf = true →
      ∃ t : State, exec (.bar4Write f off data errs) s = .next t ∧ t.mem = s.mem ∧ ∀ n < data.length, (t.fn f).box.read (off + n) = data.getD n 0) ∧
    (readIn = true → 0x1000000 ≤ off → s.bar4Region f a len = none → ∃ t : State, exec (.bar4Read f off len errs) s = .next t ∧ rejected t ∧
      t.out = s.out ++ [.barRead f.val 2 []]) ∧
    (writeIn = true → 0x1000000 ≤ off → s.bar4Region f a (max 1 data.length) = none →
      ∃ t : State, exec (.bar4Write f off data errs) s = .next t ∧ rejected t) ∧
    (∀ r, readIn = true → 0x1000000 ≤ off → s.bar4Region f a len = some r → s.heldAt a len = true → exec (.bar4Read f off len errs) s = .next s) ∧
    (∀ r, readIn = true → 0x1000000 ≤ off → s.bar4Region f a len = some r → s.heldAt a len = false → r.kind = 0 →
      ∃ t : State, exec (.bar4Read f off len errs) s = .next t ∧ t.mem = s.mem ∧
        ∃ o, t.out = o ++ [.barRead f.val (if bad = [] then 0 else 1) (if bad = [] then s.mem.readRun a len else [])]) ∧
    (∀ r, writeIn = true → 0x1000000 ≤ off → s.bar4Region f a (max 1 data.length) = some r → s.heldAt a data.length = true →
      exec (.bar4Write f off data errs) s = .next s) ∧
    ∀ r, writeIn = true → 0x1000000 ≤ off → s.bar4Region f a (max 1 data.length) = some r → s.heldAt a data.length = false → r.kind = 0 →
      s.mem.wf = true → ∃ t : State, exec (.bar4Write f off data errs) s = .next t ∧
        t.mem = if r.ro then s.mem else s.mem.writeRun a data

/-- R256, R290 to R293: the life of a port. A port that is down trains and offers its neighbour its versions and its ID; trained by a
neighbour that shares version 1 it is up on its lanes with that neighbour, four unless it is degraded, sharing none it is held, and
without an answer, or after 100 ms, it is down. The plane takes a port to training, which gives a degraded one its lanes back, or out of
service, where it carries nothing, and back; a silent port goes down. An announced ID changes NEIGHBOR alone. Where the spec leaves the
form open the clauses follow log entries 28 and 57 (the model's choices). R256, R261, R265: RTBL_SELF_ID takes bits [15:0] that the plane
writes and is announced on every port that is up; a virtual channel that has stalled counts in RTBL_STALL_EVENT and is reported. -/
def Obligations.PortsAndFabricEvents : Prop :=
  (∀ (p : Fin 36) (w : Who) (ms nb v : Nat) (s : State),
     let k := s.port p
     let gives (i : Instr) (q : Port → Prop) : Prop := ∃ t : State, exec i s = .next t ∧ t.mem = s.mem ∧ q (t.port p)
     let rest (q : Port) : Prop := q.waiting = [] ∧ q.begun = [] ∧ q.replay = []
     let up (q : Port) : Prop := q.st = .up ∧ q.lanes = (if k.degraded then k.lanes else 15) ∧ q.version = 1 ∧ q.neighbor = nb % 65536 ∧
       q.rxSeq = 0
     (k.st = .down → exec (.portTrain p) s = .next { s.modPort p fun k => { k.cleared with st := .training } with
       out := s.out ++ [.trainOffer p.val 2 s.selfId] }) ∧
     (k.st = .training →
       gives (.portTrainDone p .noAnswer ms) (fun q => q.st = .down ∧ q.neighbor = 0xFFFF) ∧
       (100 < ms → gives (.portTrainDone p (.trained v nb) ms) fun q => q.st = .down) ∧
       (ms ≤ 100 → v.testBit 1 = false → gives (.portTrainDone p (.trained v nb) ms) fun q => q.st = .held ∧ q.neighbor = nb % 65536) ∧
       (ms ≤ 100 → v.testBit 1 = true → gives (.portTrainDone p (.trained v nb) ms) fun q => up q ∧ (k.waiting = [] → q.txSeq = 0 ∧ rest q))) ∧
     (k.st = .up →
       exec (.neighborIdAnnounce p nb) s = .next (s.modPort p fun k => { k with neighbor := nb % 65536 }) ∧
       gives (.neighborSilent p) fun q => q.st = .down ∧ q.neighbor = 0xFFFF ∧ rest q) ∧
     (planeWrites w = true → k.st ≠ .training →
       gives (.portRetrain w p) (fun q => q.st = .training ∧ q.degraded = false ∧ rest q) ∧
       (k.st ≠ .outOfService → gives (.portOutOfService w p) fun q => q.st = .outOfService ∧ q.before = k.st ∧ rest q) ∧
       (k.st = .outOfService → exec (.portReturnToService w p) s = .next (s.modPort p fun k => { k with st := k.before }))) ∧
     (planeWrites w = false → exec (.portRetrain w p) s = .next s ∧ exec (.portOutOfService w p) s = .next s ∧
       exec (.portReturnToService w p) s = .next s)) ∧
  (∀ (p : Fin 36) (vc : Fin 12) (w : Who) (v : Word) (s : State), SMap.wf glbReset s.regs = true →
     (planeWrites w = true → ∃ t, exec (.selfIdWrite w v) s = .next t ∧ t.selfId = v.toNat % 65536 ∧
       (∀ q, (s.port q).st = .up → Out.announce q.val (v.toNat % 65536) ∈ t.out) ∧ t.ports = s.ports ∧ t.mem = s.mem) ∧
     (planeWrites w = false → exec (.selfIdWrite w v) s = .next s) ∧
     ((s.port p).st = .up → ∃ t, exec (.vcStallEvent p vc) s = .next t ∧ t.rd 0x50218 = (s.rd 0x50218 + 1) % 2 ^ 32 ∧ t.ports = s.ports ∧
       ∃ n, (n, Report.portStall p.val vc.val) ∈ t.gatehouse.reports))

/-- R257, R264, R289: a flit whose CRC fails is not taken and asks the neighbour to replay from the expected number, and so does one of
another number or one that its channel's buffer has no place for; the expected flit is taken: its number and the count of unacknowledged
flits advance, the sixteenth is acknowledged, and a channel on which no packet is under way has a new one. An acknowledge also goes 1 µs
after a flit that none has covered. The layout of the control bytes is the model's choice (log entry 110). -/
def Obligations.FlitsReceived : Prop :=
  ∀ (p : Fin 36) (data : List Byte) (ctl crc : Word) (c1 c2 un stall : Nat) (s : State),
    let k := s.port p
    let gives (q : State → Prop) : Prop := ∃ t : State, exec (.flitReceive p data ctl crc c1 c2 un stall) s = .next t ∧ t.mem = s.mem ∧ q t
    let good : Prop := crc = flitCrc data ctl
    let room : Prop := k.buffered (ctlVc ctl) < 16
    k.st = .up →
    (¬ good → k.run < 15 → gives fun t => (t.port p).rxSeq = k.rxSeq ∧ (t.port p).unacked = k.unacked ∧ (t.port p).run = k.run + 1 ∧
      t.out = s.out ++ [.linkNak p.val k.rxSeq] ∧ ∀ q, q ≠ p → t.port q = s.port q) ∧
    (good → 12 ≤ ctlVc ctl → gives fun t => (t.port p).rxSeq = k.rxSeq ∧ (t.port p).run = k.run) ∧
    (good → ctlVc ctl < 12 → (ctlSeq ctl ≠ k.rxSeq ∨ ¬ room) → k.run < 15 → gives fun t => (t.port p).rxSeq = k.rxSeq ∧
      (t.port p).run = k.run + 1 ∧ .linkNak p.val k.rxSeq ∈ t.out) ∧
    (good → ctlVc ctl < 12 → ctlSeq ctl = k.rxSeq → room → gives fun t => (t.port p).rxSeq = (k.rxSeq + 1) % 1024 ∧
      (k.begun = [] → k.waiting = [] → k.replay = [] → (t.port p).unacked = (if 16 ≤ k.unacked + 1 then 0 else k.unacked + 1) ∧
        (16 ≤ k.unacked + 1 → Out.linkAck p.val (k.rxSeq % 1024) ∈ t.out)) ∧
      (k.rx.find? (fun f => f.vc == ctlVc ctl && decide (f.got < f.flits)) = none → ∃ f ∈ (t.port p).rx, f.rid = s.flowNo ∧
        f.vc = ctlVc ctl ∧ f.bytes = data ∧ f.got = 1 ∧ f.fate = .unrouted)) ∧
    (k.unacked ≠ 0 → exec (.flitAckTimer p) s = .next ({ s with out := s.out ++ [Out.linkAck p.val ((k.rxSeq + 1023) % 1024)] }.modPort p
      fun k => { k with unacked := 0 }))

/-- R268 to R270, Table 10.5: the commands of RTBL_CMD from the plane. Each moves a bank as its row of the table says when the bank's
state allows it, and is refused with CMD_REFUSED otherwise; no entry of a bank changes. Where the spec leaves the form open the clauses
follow log entry 56 (the model's choices). R284, R294: writes of RTBL_DATA and of the fence update. DATA0 stores a routing entry of a
LOADING bank, DATA31 a group entry; the entries of any other bank stay. A fence update under the next fence epoch sets that endpoint's bit
alone; any other sets RESYNC. Writes from another function than the plane's are discarded. -/
def Obligations.TableBanks : Prop :=
  (∀ (w : Who) (ep : Byte) (a b : Fin 2) (s : State), planeWrites w = true →
     let puts (i : Instr) (st : BankSt) : Prop := exec i s = .next (s.modBank b fun k => { k with st := st })
     (s.bankIn .active = some a → b ≠ a → (s.bank b).st ≠ .draining →
       exec (.beginLoad w ep) s = .next (s.modBank b fun k => { k with st := .loading, epoch := ep.toNat })) ∧
     (s.bankIn .active = some a → b ≠ a → (s.bank b).st = .draining → exec (.beginLoad w ep) s = .next s.refuseCmd) ∧
     (s.bankIn .loading = some b → puts (.loadDone w) .ready ∧ puts (.abandonLoad w) .empty) ∧
     (s.bankIn .loading = none → exec (.loadDone w) s = .next s.refuseCmd) ∧
     (s.bankIn .ready = some b → s.bankIn .active = some a → ∃ t, exec (.flip w) s = .next t ∧ (t.bank b) = { s.bank b with st := .active } ∧
       (t.bank a) = { s.bank a with st := .draining } ∧ t.injectEpoch = some (s.bank b).epoch ∧ t.ports = s.ports ∧ t.fence = s.fence) ∧
     (s.bankIn .ready = none → exec (.flip w) s = .next s.refuseCmd) ∧
     (s.bankIn .draining = some b → s.drainCount = 0 → puts (.retire w) .empty) ∧
     (s.bankIn .draining = some b → s.drainCount ≠ 0 → exec (.retire w) s = .next s.refuseCmd) ∧
     (s.bankIn .draining = some b → ∃ t : State, exec (.forceRetire w) s = .next t ∧ t.bank b = { s.bank b with st := .empty } ∧
       (∀ r ∈ t.inbox, pktEpoch r.bytes ≠ (s.bank b).epoch) ∧
       (∀ p, ∀ x ∈ (t.port p).begun ++ (t.port p).waiting, pktEpoch x.bytes ≠ (s.bank b).epoch) ∧
       ∀ r ∈ s.inbox, pktEpoch r.bytes ≠ (s.bank b).epoch → r ∈ t.inbox)) ∧
  (∀ (w : Who) (n : Fin 32) (v : Word) (s : State), SMap.wf glbReset s.regs = true → SMap.wf noWord s.fence = true →
     (∀ b, SMap.wf noWord (s.bank b).route = true ∧ SMap.wf noWord (s.bank b).group = true) →
     let idx := s.rd 0x50014
     let i := bitsOf idx 15 0
     let b := bankOf (bitsOf idx 16 16)
     let kind := bitsOf idx 18 17
     let ep := v.toNat % 65536
     (planeWrites w = false → exec (.tableEntryStore w n v) s = .next s ∧ exec (.fenceUpdate w v) s = .next s) ∧
     (planeWrites w = true → ∃ t, exec (.tableEntryStore w n v) s = .next t ∧ t.rd (0x50100 + 4 * n.val) = v.toNat ∧
       (∀ q, (t.bank q).st = (s.bank q).st) ∧
       ((s.bank b).st ≠ .loading → t.banks = s.banks) ∧
       ((s.bank b).st = .loading → kind = 0 → n.val = 0 → SMap.get noWord (t.bank b).route i = v ∧ (t.bank b).group = (s.bank b).group ∧
         ∀ j, j ≠ i → SMap.get noWord (t.bank b).route j = SMap.get noWord (s.bank b).route j) ∧
       ((s.bank b).st = .loading → kind = 1 → n.val = 31 → i < 4096 →
         (∀ j < 32, SMap.get noWord (t.bank b).group (32 * i + j) = BitVec.ofNat 32 (t.rd (0x50100 + 4 * j))) ∧
         ∀ j, (j < 32 * i ∨ 32 * i + 32 ≤ j) → SMap.get noWord (t.bank b).group j = SMap.get noWord (s.bank b).group j)) ∧
     (planeWrites w = true → bitsOf (s.rd 0x50020) 15 0 = (bitsOf (s.rd 0x5001C) 15 0 + 1) % 65536 → ∃ t, exec (.fenceUpdate w v) s = .next t ∧
       t.fenced ep = v.getLsbD 16 ∧ (∀ q, q ≠ ep → t.fenced q = s.fenced q) ∧ bitsOf (t.rd 0x5001C) 15 0 = bitsOf (s.rd 0x50020) 15 0) ∧
     (planeWrites w = true → bitsOf (s.rd 0x50020) 15 0 ≠ (bitsOf (s.rd 0x5001C) 15 0 + 1) % 65536 → ∃ t, exec (.fenceUpdate w v) s = .next t ∧
       t.fence = s.fence ∧ bitOf (t.rd 0x5001C) 16 = true))

/-- R258 to R262, R264, R267, R268, R285: the packet at the head of a virtual channel of a port, once its first flit has come. A unicast
packet for this module is delivered; one to a fenced endpoint is answered here when it is a request and dropped otherwise; any other
leaves by the port of its epoch's routing entry, its class rewritten and one hop more; without an epoch or a route, or with 63 hops, it is
discarded and counted. Of the packets that wait here the oldest that may go is injected under the ACTIVE bank's epoch, or discarded
without one. Where the spec leaves the form open the clauses follow log entries 55 and 110 (the model's choices). -/
def Obligations.PacketsAreRouted : Prop :=
  ∀ (q : Fin 36) (vc : Fin 12) (f : RxFlow) (s : State), SMap.wf glbReset s.regs = true →
    (∀ x, ∀ o ∈ (s.port x).begun ++ (s.port x).waiting, o.key < s.flowNo ∧ o.rid ≠ some f.rid) → (∀ r ∈ s.inbox, r.rid ≠ some f.rid) →
    let gives (i : Instr) (q : State → Prop) : Prop := ∃ t : State, exec i s = .next t ∧ t.mem = s.mem ∧ q t
    let still (t : State) (x : Fin 36) : Prop := (t.port x).begun = (s.port x).begun ∧ (t.port x).waiting = (s.port x).waiting
    let dropped (t : State) : Prop := t.rd 0x50200 = (s.rd 0x50200 + 1) % 2 ^ 32 ∧ t.inbox = s.inbox ∧ ∀ x, still t x
    let leaves (t : State) (p : List Byte) (r : Fin 36) (vcc : Nat) : Prop := t.inbox = s.inbox ∧ (∀ x, x ≠ r → still t x) ∧
      ∃ o ∈ (t.port r).begun ++ (t.port r).waiting, o.bytes = setField (setField p 3 1 vcc) 4 1 (pktHops p + 1) ∧ o.vc = vcOf o.bytes vcc
    let here (p : List Byte) : Prop := pktDest p = s.selfId ∨ s.aliasId = some (pktDest p)
    let p := f.bytes
    let run (t : State → Prop) : Prop := gives (.packetRoute (some (q, vc))) t
    ((s.port q).head vc.val = some f → f.fate = .unrouted →
      ((pktVersion p ≠ f.version ∨ pktIdsOk p = false ∨ 4 ≤ pktType p ∨ s.routingBank (pktEpoch p) = none) →
        run fun t => dropped t ∧ t.txQ = s.txQ) ∧
      ∀ b, pktVersion p = f.version → pktIdsOk p = true → pktType p < 4 → s.routingBank (pktEpoch p) = some b → pktMcast p = false →
        pktDest p ≠ 0xFFFF →
        (let whole : List Byte := if f.got = f.flits then p.take (64 + pktPayloadLen p) else p
         here p → run fun t => t.txQ = s.txQ ∧ (∀ x, still t x) ∧
           t.inbox = s.inbox ++ [{ port := some q.val, rid := some f.rid, left := f.flits - f.got, bytes := whole }]) ∧
        (¬ here p → s.fenced (pktDest p) = true → run fun t => t.inbox = s.inbox ∧ (∀ x, still t x) ∧
          if pktType p ≤ 1 then ∃ c, t.txQ = s.txQ ++ [⟨c, none⟩] ∧ pktType c = 3 ∧ pktCstatus c = 1 else t.txQ = s.txQ) ∧
        (¬ here p → s.fenced (pktDest p) = false → (s.routeOf b (pktDest p) = none ∨ 63 ≤ pktHops p) → run fun t => dropped t ∧ t.txQ = s.txQ) ∧
        ∀ r vcc, ¬ here p → s.fenced (pktDest p) = false → s.routeOf b (pktDest p) = some (r, vcc) → pktHops p < 63 →
          run fun t => t.txQ = s.txQ ∧ leaves t p r vcc) ∧
    (s.txQ.find? s.mayInject = none → exec (.packetRoute none) s = .next s) ∧
    ∀ w, s.txQ.find? s.mayInject = some w →
      (s.bankIn .active = none → gives (.packetRoute none) fun t => dropped t ∧ t.txQ = s.txQ.erase w ∧ t.awaiting = s.awaiting ++ w.wait.toList) ∧
      ∀ b r vcc, s.bankIn .active = some b →
        let p := s.injected (s.bank b).epoch w.bytes
        pktMcast p = false → pktDest p ≠ 0xFFFF → ¬ here p → s.fenced (pktDest p) = false → s.routeOf (s.bank b) (pktDest p) = some (r, vcc) →
          pktHops p < 63 → gives (.packetRoute none) fun t => t.txQ = s.txQ.erase w ∧ t.awaiting = s.awaiting ++ w.wait.toList ∧ leaves t p r vcc

/-- R272, R273, R278 to R281: a delivered WRITE that passes the checks of its window puts its payload at the window's base + OFFSET,
advances counter RCOUNT and is answered by a COMPLETION; READ_REQ is answered by one READ_RESP with the bytes there. Both wait, with their
window, for a channel held for service. A request that no window takes changes no byte of memory, counts in RTBL_WINDOW_REJECT and is
answered WINDOW_CLOSED, as is a read that meets an uncorrectable granule; one whose PCRC is wrong is dropped. Where the spec leaves the
form open the clauses follow log entries 55 and 58 (the model's choices). -/
def Obligations.RequestsAtWindows : Prop :=
  ∀ (p : List Byte) (errs : List GranErr) (s : State) (x : RxPkt), s.inbox.find? (fun r => r.bytes == p && r.left == 0) = some x →
    SMap.wf (fun _ => (0 : Word)) s.cc = true → SMap.wf glbReset s.regs = true → s.mem.wf = true →
    let kept (t : State) : Prop := ∀ c, t.core c = { s.core c with porterQ := (t.core c).porterQ, regs := (t.core c).regs }
    let gives (i : Instr) (q : State → Prop) : Prop := ∃ t : State, exec i s = .next t ∧ t.inbox.length + 1 = s.inbox.length ∧ kept t ∧ q t
    let waits (i : Instr) (w : Window) : Prop := ∃ t : State, exec i s = .next t ∧ t.mem = s.mem ∧ t.txQ = s.txQ ∧
      { x with passed := some w } ∈ t.inbox
    let write : Instr := .write p errs
    let read : Instr := .readReq p errs
    let bs := (pktPayload p).take (pktLength p)
    let answered (t : State) (type st : Nat) (body : List Byte) : Prop := ∃ c, t.txQ = s.txQ ++ [⟨c, none⟩] ∧ pktType c = type ∧ pktCstatus c = st ∧
      pktSeq c = pktSeq p ∧ pktPayload c = body
    let closed (type : Nat) (t : State) : Prop := t.mem = s.mem ∧ t.rd 0x50208 = (s.rd 0x50208 + 1) % 2 ^ 32 ∧ answered t type 2 []
    let dropped (t : State) : Prop := t.mem = s.mem ∧ t.txQ = s.txQ ∧ t.rd 0x50204 = (s.rd 0x50204 + 1) % 2 ^ 32
    (pktType p = 0 → pcrcOk p = false → gives write dropped) ∧ (pktType p = 1 → pcrcOk p = false → gives read dropped) ∧
    (pcrcOk p = true → s.fenced s.selfId = false →
      (s.passedWindow x = none → (pktType p = 0 → gives write (closed 3)) ∧ (pktType p = 1 → gives read (closed 2))) ∧
      ∀ v r, s.passedWindow x = some v → (r.kind = 0 ∨ r.kind = 4) →
        let a := v.base + pktOffset p
        let bad := (({ s with inbox := s.inbox.erase x, meet := { errs := errs } } : State).decodeGrans (granules a (pktLength p))).1
        (pktType p = 0 → v.target = 0 → v.op = 0 → s.regionAt a (max 1 bs.length) = some r → s.heldAt a bs.length = true → r.ro = false →
          waits write v) ∧
        (pktType p = 0 → v.target = 0 → v.op = 0 → s.regionAt a (max 1 bs.length) = some r → (s.heldAt a bs.length = false ∨ r.ro = true) →
          gives write fun t => t.mem = (if r.ro then s.mem else s.mem.writeRun a bs) ∧ answered t 3 0 [] ∧
            t.counter (pktRcount p) = s.counter (pktRcount p) + 1 ∧ ∀ n, n ≠ pktRcount p → t.counter n = s.counter n) ∧
        (pktType p = 1 → s.regionAt a (max 1 (pktLength p)) = some r → s.heldAt a (pktLength p) = true → waits read v) ∧
        (pktType p = 1 → s.regionAt a (max 1 (pktLength p)) = some r → s.heldAt a (pktLength p) = false → gives read fun t =>
          t.mem = s.mem ∧ t.cc = s.cc ∧ if bad = [] then answered t 2 0 (s.mem.readRun a (pktLength p)) else answered t 2 2 []))

/-- R273 to R275: a COMPLETION that matches a packet still awaited advances counter STREAM by the members it answers for, at most those
left, and by as much what its XMT has had returned; the packet is awaited while members are left. A READ_RESP gives its payload to its
refetch, and a timeout counts all that are left as returned. An answer that matches nothing is late, counts in RTBL_LATE and changes
nothing else. -/
def Obligations.AnswersAtTheirSource : Prop :=
  ∀ (p : List Byte) (s : State) (x : RxPkt) (y : Await), s.inbox.find? (fun r => r.bytes == p && r.left == 0) = some x → pcrcOk p = true →
    SMap.wf (fun _ => (0 : Word)) s.cc = true →
    let gives (i : Instr) (q : State → Prop) : Prop := ∃ t : State, exec i s = .next t ∧ t.mem = s.mem ∧ t.txQ = s.txQ ∧ q t
    let late (t : State) : Prop := t.awaiting = s.awaiting ∧ t.cc = s.cc ∧ t.cores = s.cores ∧ t.inbox.length + 1 = s.inbox.length ∧
      t.regs = (s.bump 0x50210 1).regs
    let hit := s.matching (pktStream p) (pktSeq p)
    (hit = none → (pktType p = 2 → gives (.readResp p) late) ∧ (pktType p = 3 → gives (.completion p) late)) ∧
    (∀ serial off, hit = some y → y.by_ = .refetch serial off → pktType p = 2 → gives (.readResp p) fun t =>
      t.awaiting = s.awaiting.erase y ∧ ∀ r ∈ s.refetches, r.serial = serial →
        (if pktCstatus p = 0 then { r with got := r.got ++ [(off, pktPayload p)] } else { r with failed := true }) ∈ t.refetches) ∧
    (∀ (c : Fin 192) slot gen seq, y.by_ = .xmt c.val slot gen seq →
      let returned (t : State) (n : Nat) : Prop := t.counter y.stream = s.counter y.stream + BitVec.ofNat 32 n ∧
        (∀ m, m ≠ y.stream → t.counter m = s.counter m) ∧
        (∀ d, t.core d = { s.core d with porterQ := (t.core d).porterQ, regs := (t.core d).regs }) ∧
        ∀ j ∈ (s.core c).porterQ, j.slot.val = slot → j.gen.toNat = gen → j.seq = seq →
          ∃ k ∈ (t.core c).porterQ, k.slot = j.slot ∧ k.gen = j.gen ∧ k.seq = j.seq ∧ k.returned = j.returned + n
      (hit = some y → pktType p = 3 → gives (.completion p) fun t => returned t (min y.left (pktCcount p)) ∧
        (pktCcount p < y.left → { y with left := y.left - pktCcount p } ∈ t.awaiting)) ∧
      (hit = some y → gives (.packetTimeout (pktStream p) (pktSeq p)) fun t => returned t y.left ∧ t.awaiting = s.awaiting.erase y))

/-- R303 to R306, R312, R313, R316, R317, Table 11.3. A tile whose last byte has come is checked: a bad one trips the layer with cause 4,
a non-finite element with cause 0, and both count in TOLL_NONFINITE; a staged tile is then written to the park image and leaves staging;
the last tile makes the layer QUEUED. LOSS_WAIT_MS running out trips the gate. ARRIVE_MS running out queues the layer with cause 6. A
layer taken is APPLYING and its Tollhouse's present one; a hold and a failed duplicate check of the first tile of an elementwise layer
write no memory, the latter with status ABFT. The apply or hold ends when no answer is awaited: outcome and cause stand in
TOLL_APPLY_LAST, the layer is counted as held or applied, the Tollhouse is free. Reads that meet a refetch wait. Where the spec leaves the
form open the clauses follow log entries 28, 59, 60 and 61 (the model's choices). -/
def Obligations.TollRounds : Prop :=
  ∀ (t : Fin 4) (n : Nat) (e : List Byte) (errs : List GranErr) (s : State), s.layerEntry n = some e → SMap.wf layerDefault s.layers = true →
    SMap.wf tollReset (s.toll t).regs = true →
    let l := s.layer n
    let d := s.servedBy (leToll e)
    (∀ tile, d = t → l.st = .arriving → (∀ q ∈ l.done, q.1 ≠ tile) → gradBytes e ≤ SMap.get (fun _ => 0) l.got tile →
      let slot := parkSlot e tile
      let size := gradBytes e
      s.heldAt slot size = false →
      let staged := (s.toll t).stagedTile n tile
      let reads := match staged with
        | some _ => TollRead.ready []
        | none => ((s.meeting errs).tollReads [(slot, size)]).1
      let bs := match staged with
        | some q => q.data.readRun 0 size
        | none => s.bytesAt slot size
      let nf : Nat := ((tileElems bs).filter (·.nonfinite)).length
      let run : Result := exec (.tollTileComplete t n tile errs) s
      (reads = .wait → ∃ u : State, run = .next u ∧ u.layers = s.layers ∧ u.mem = s.mem) ∧
      ∀ bad, reads = .ready bad → ∃ u : State, run = .next u ∧ (∃ q, (u.layer n).done = l.done ++ [(tile, tileDigest bs, q)]) ∧
        (u.layer n).st = (if l.done.length + 1 = leTiles e then .queued else .arriving) ∧
        (l.done.length + 1 = leTiles e → (u.toll t).queue = (s.toll t).queue ++ [n]) ∧ (u.toll t).stagedTile n tile = none ∧
        (¬ (bad = [] ∧ gradTileOk e bs = true) → (u.layer n).trip = some (l.trip.getD 4)) ∧
        (bad = [] → gradTileOk e bs = true → nf ≠ 0 → (u.layer n).trip = some (l.trip.getD 0)) ∧
        (u.toll t).rd 0xA000C = min ((s.toll t).rd 0xA000C + if bad = [] ∧ gradTileOk e bs = true then nf else 16384) (2 ^ 32 - 1) ∧
        (rrFamily (s.ruleOf e) ≠ 2 → (staged = none → u.mem = s.mem) ∧
          ∀ r, staged.isSome = true → s.regionAt slot size = some r → r.kind = 0 → r.ro = false → s.mem.wf = true → u.mem = s.mem.writeRun slot bs)) ∧
    (s.spikeEn = true → s.lossGate.decided = false → s.anyQueued = true → ∃ u : State, exec .lossWaitExpiry s = .next u ∧
      u.lossGate.decided = true ∧ u.lossGate.tripped = true ∧ u.lossGate.waitExpired = true ∧ u.layers = s.layers ∧ u.mem = s.mem) ∧
    (∀ x, ctxOf? (leCtx e) = some x → (l.st = .arriving ∨ l.st = .idle) → l.finished = false → (s.ctx x).inStep = true →
      (s.ctx x).mbsDone = true → ∃ u : State, exec (.arriveLimitExpiry n) s = .next u ∧ (u.layer n).st = .queued ∧ (u.layer n).trip = some 6 ∧
        (u.layer n).late = true ∧ (u.toll d).queue = (s.toll d).queue ++ [n] ∧ (∀ q, (u.toll d).stagedTile n q = none) ∧ u.mem = s.mem) ∧
    (∀ fail, s.tryGate.nextLayer t = some n →
      let g := (s.meeting errs).tryGate
      let r := s.ruleOf e
      let held := g.holdCause t n e
      let bank := (rootHeader (s.bytesAt (leX e) 64)).1
      let reads := (g.tollReads ((if held.isSome then [] else layerReads e r) ++ (List.range (leTiles e)).flatMap (tileReads e r bank held.isSome))).1
      let run : Result := exec (.tollApplyStart t fail errs) s
      (reads = .wait → ∃ u : State, run = .next u ∧ u.layers = s.layers ∧ (u.toll t).queue = (s.toll t).queue ∧ u.mem = s.mem) ∧
      ∀ bad, reads = .ready bad → ∃ u : State, run = .next u ∧ (u.toll t).current = some n ∧ (u.toll t).queue = (s.toll t).queue.erase n ∧
        (u.layer n).st = .applying ∧ (∀ c, held = some c → (u.layer n).status = stHold ∧ (u.layer n).cause = c ∧ (u.layer n).t = l.t ∧ u.mem = s.mem) ∧
        (held = none → (u.layer n).t = l.t + 1 ∨ (u.layer n).t = l.t ∧ (u.layer n).status = stAbft ∧ (u.toll t).failed = true) ∧
        (held = none → fail = some 0 → 0 < leTiles e → rrFamily r = 0 → (u.layer n).status = stAbft ∧ u.mem = s.mem)) ∧
    ((s.toll t).current = some n → (s.layerWaits n = true → exec (.tollApplyEnd t) s = .next s) ∧ (s.layerWaits n = false →
      let st : Byte := if l.status ≠ stOk then l.status else if l.negative = true then stWindowClosed else if l.timedOut = true then stTimeout
        else if l.pruned ≠ 0 then stPartial else stOk
      ∃ u : State, exec (.tollApplyEnd t) s = .next u ∧ (u.toll t).current = none ∧ (u.layer n).finished = true ∧ u.mem = s.mem ∧
        (u.toll t).rd 0xA0004 = n % 4096 + st.toNat * 2 ^ 16 + l.cause % 8 * 2 ^ 24 ∧
        (st = stHold → bitsOf ((u.toll t).rd 0xA0008) 31 16 = min 0xFFFF (bitsOf ((s.toll t).rd 0xA0008) 31 16 + 1)) ∧
        (st ≠ stHold → st ≠ stAbft → bitsOf ((u.toll t).rd 0xA0008) 15 0 = min 0xFFFF (bitsOf ((s.toll t).rd 0xA0008) 15 0 + 1))))

/-- R327: a doorbell of the function that owns the context. For an enabled ring of the context it becomes TAIL when its bits [31:16] are
zero, it lies at or beyond the old TAIL counted from HEAD modulo 65,536, and at most 2^SIZE_LOG2 beyond HEAD; otherwise BAD_DB is set and
TAIL stays. For a disabled ring or a ring of another context it is discarded. Nothing else changes. -/
def Obligations.Doorbells : Prop :=
  ∀ (f : Fin 32) (x : Fin 64) (r : Fin 256) (value : Word) (s : State),
    let v := value.toNat
    let k := s.sq r
    let run : Prop := s.ownsCtx f x = true ∧ k.ctx = some x ∧ s.sqEnabled r = true
    let ok : Prop := v < 0x10000 ∧ ringDist k.tail k.head ≤ ringDist v k.head ∧ ringDist v k.head ≤ s.sqSize r
    let put (k : SubRing) : Result := .next { s with sqs := s.sqs.set r k }
    (run → ok → exec (.doorbell f x r value) s = put { k with tail := v }) ∧
    (run → ¬ ok → exec (.doorbell f x r value) s = put { k with badDb := true }) ∧
    (¬ run → exec (.doorbell f x r value) s = .next s)

/-- R326, R333, R337, R340: releases and enables. A release of completion records lies between the last one and TAIL; REQ_TAIL follows the
rule of a doorbell and EVT_HEAD that of a release. Anything else is discarded. Setting ENABLE of a ring of a fitting size zeroes its
counters, and the other fields of an enabled ring keep their values. Only the function that owns the ring's context does so. Where the
spec leaves the form open the clauses follow log entry 20 (the model's choices). -/
def Obligations.RingsAreDriven : Prop :=
  ∀ (f : Fin 32) (x : Fin 64) (r : Fin 256) (value : Word) (s : State),
    let v := value.toNat
    let k := s.sq r
    let c := s.cq r
    let cqRun : Prop := s.ownsCtx f x = true ∧ c.ctx = some x ∧ s.cqEnabled r = true
    let cqOk : Prop := v < 0x10000 ∧ ringDist v c.head ≤ ringDist c.tail c.head
    (cqRun → cqOk → exec (.cqHeadRelease f x r value) s = .next { s with cqs := s.cqs.set r { c with head := v } }) ∧
    (¬ (cqRun ∧ cqOk) → exec (.cqHeadRelease f x r value) s = .next s) ∧
    (let box := (s.fn f).box
     let w := v % 0x10000
     let put (t : State) (off : Nat) : Prop := t.fns = s.fns.set f { s.fn f with box := (t.fn f).box, boxZero := false } ∧ (t.fn f).box.readLE off 2 = w ∧
       ∀ a, (a < off ∨ off + 2 ≤ a) → (t.fn f).box.read a = box.read a
     let req : Prop := ringDist (box.readLE 4 2) (box.readLE 8 2) ≤ ringDist w (box.readLE 8 2) ∧ ringDist w (box.readLE 8 2) ≤ 128
     let evt : Prop := ringDist w (box.readLE 0x10 2) ≤ ringDist (box.readLE 0x0C 2) (box.readLE 0x10 2)
     box.wf = true → (req → ∃ t, exec (.mailboxDoorbell f value) s = .next t ∧ put t 4) ∧ (¬ req → exec (.mailboxDoorbell f value) s = .next s) ∧
       (evt → ∃ t, exec (.evtHeadWrite f value) s = .next t ∧ put t 0x10) ∧ (¬ evt → exec (.evtHeadWrite f value) s = .next s)) ∧
    (SMap.wf glbReset s.regs = true →
     let sq := s.rd (sqCfgOff r)
     let cq := s.rd (cqCfgOff r)
     let fits : Prop := 6 ≤ bitsOf v 4 1 ∧ (s.cq (ringOf (bitsOf v 12 5))).ctx = k.ctx
     let gives (isCq : Bool) (q : State → Prop) : Prop := ∃ t, exec (.ringEnable f isCq r value) s = .next t ∧ t.mem = s.mem ∧ q t
     (s.ownsRing f k.ctx = false → exec (.ringEnable f false r value) s = .next s) ∧
     (s.ownsRing f c.ctx = false → exec (.ringEnable f true r value) s = .next s) ∧
     (s.ownsRing f k.ctx = true → bitOf sq 0 = true → gives false fun t => t.sqs = s.sqs ∧ t.rd (sqCfgOff r) = sq / 2 * 2 + v % 2) ∧
     (s.ownsRing f k.ctx = true → bitOf sq 0 = false → (fits → bitOf v 0 = true → gives false fun t => t.rd (sqCfgOff r) = v % 2 ^ 13 ∧
       t.sqs = s.sqs.set r { k with head := 0, tail := 0 }) ∧
       (¬ (fits ∧ bitOf v 0 = true) → gives false fun t => t.sqs = s.sqs ∧ t.rd (sqCfgOff r) = v % 2 ^ 13 / 2 * 2)) ∧
     (s.ownsRing f c.ctx = true → bitOf cq 0 = true → gives true fun t => t.cqs = s.cqs ∧ bitOf (t.rd (cqCfgOff r)) 0 = bitOf v 0) ∧
     (∀ y, c.ctx = some y → s.ownsCtx f y = true → bitOf cq 0 = false →
       (bitOf v 0 = true → 6 ≤ bitsOf v 4 1 → bitsOf v 13 5 < vectorsOf f → gives true fun t => bitOf (t.rd (cqCfgOff r)) 0 = true ∧
         t.cqs = s.cqs.set r { c with head := 0, tail := 0, unsig := 0 }) ∧
       (¬ (6 ≤ bitsOf v 4 1 ∧ bitsOf v 13 5 < vectorsOf f) → gives true fun t => t.cqs = s.cqs ∧ bitOf (t.rd (cqCfgOff r)) 0 = false)))

/-- R326, R328, R329, R331, R333, R339, R345. A fetch reads the next descriptor, at slot HEAD mod 2^SIZE_LOG2 of BASE, of an enabled ring
that holds fewer than 64; one that a check fails has no effect and its record carries the status, with the field's offset after
RESERVED_NONZERO. A NOP completes with OK. A record is one 32 B write into slot TAIL of its ring, its PHASE that of the pass, its
descriptor then complete; while the ring is full it waits. The interrupt follows IRQ, the count or the time. The host engine serves a
piece its context's deficit covers, and else visits the next context in index order after the one that began the last round. Where the
spec leaves the form open the clauses follow log entries 21, 28 and 64 (the model's choices). -/
def Obligations.DescriptorsAndRecords : Prop :=
  ∀ (r : Fin 256) (s : State),
    let k := s.sq r
    let done (t : State) (d : DescRef) (st : Byte) (d16 : Nat) : Prop := ∃ q, (t.cq (s.cqOf r)).waiting = (s.cq (s.cqOf r)).waiting ++ [q] ∧
      q.sq = r.val ∧ q.idx = some d.idx ∧ q.tag = d.le 4 4 ∧ q.type = d.type ∧ q.status = st ∧ q.d16 = d16
    (∀ x bytes, k.ctx = some x → s.sqEnabled r = true → k.head ≠ k.tail → k.out.length < 64 → s.fetches x = true → bytes.length = 64 →
      s.innkPaused = false →
      let d : DescRef := { ring := r.val, idx := k.nextIdx, bytes := bytes }
      ∃ t, exec (.descriptorFetch r bytes) s = .next t ∧ (t.sq r).head = (k.head + 1) % 0x10000 ∧ t.mem = s.mem ∧ t.cores = s.cores ∧
        t.out = s.out ++ [.hostRead (s.ctx x).fn (s.sqSlot r) 64] ∧ (t.sq r).out = k.out ++ [{ ref := d, started := (s.descRefusal x d).isSome }] ∧ (s.descRefusal x d = none → t.cqs = s.cqs) ∧
        ∀ st off, s.descRefusal x d = some (st, off) → done t d st (if st = stReserved then off else 0)) ∧
    (∀ bytes, (k.ctx = none ∨ s.sqEnabled r = false ∨ k.head = k.tail ∨ 64 ≤ k.out.length) → exec (.descriptorFetch r bytes) s = .next s) ∧
    (∀ n x o, s.mayStart r n 0 = some (x, o) → o.ref.ring = r.val → (s.ctx x).orphaned = false →
      ∃ t, exec (.descNop r n) s = .next t ∧ done t o.ref stOk 0 ∧ t.mem = s.mem ∧ t.regs = s.regs) ∧
    (let q := s.cq r
     let size := s.cqSize r
     (s.cqOpen r = false → exec (.completionRecordWrite r) s = .next s) ∧
     ∀ x w rest, q.ctx = some x → q.waiting = w :: rest → s.cqOpen r = true → s.innkPaused = false →
       let bs := w.bytes (s.sq (ringOf w.sq)).head q.tail size
       let due : Prop := w.irq = true ∨ s.coalCount r ≤ q.unsig + 1
       ∃ t more, exec (.completionRecordWrite r) s = .next t ∧ (t.cq r).waiting = rest ∧ (t.cq r).tail = (q.tail + 1) % 0x10000 ∧
         t.out = s.out ++ Out.hostWrite (s.ctx x).fn (s.ringBase (cqCfgOff r) + 32 * (q.tail % size)) bs :: more ∧ bs.length = 32 ∧
         bs.getD 31 0 = BitVec.ofNat 8 ((q.tail / size + 1) % 2) ∧ (due → (t.cq r).unsig = 0) ∧ (¬ due → (t.cq r).unsig = q.unsig + 1 ∧ more = []) ∧
         (∀ i, w.idx = some i → ∀ o ∈ (t.sq (ringOf w.sq)).out, o.ref.idx ≠ i) ∧ t.mem = s.mem) ∧
    (∀ x, (s.cq r).ctx = some x → s.coalUs r ≠ 0 → (s.cq r).unsig ≠ 0 → s.cqEnabled r = true →
      let f := fnOf (s.ctx x).fn
      let vec := bitsOf (s.rd (cqCfgOff r)) 13 5
      ∃ t, exec (.interruptCoalTimer r) s = .next t ∧ (t.cq r).unsig = 0 ∧ t.mem = s.mem ∧
        ((s.fn f).lease ≠ .expired → bitOf ((s.fn f).rd (0x18000 + 16 * vec + 12)) 0 = false → t.out = s.out ++ [Out.msix f.val vec])) ∧
    ∀ waiting : List (Fin 64 × Nat),
      (∀ x n, s.hostCur = some x.val → waiting.find? (fun w => w.1 == x) = some (x, n) → n ≤ (s.ctx x).deficit →
        exec (.hostPieceServe waiting) s = .next (s.setCtx x { s.ctx x with deficit := (s.ctx x).deficit - n })) ∧
      (s.hostCur = none → s.hostPrev < 64 → waiting ≠ [] → ∃ t y m, exec (.hostPieceServe waiting) s = .next t ∧ (y, m) ∈ waiting ∧
        t.hostCur = some y.val ∧ (t.ctx y).deficit = (s.ctx y).deficit + 4096 * (s.ctx y).weight - m ∧
        ∀ w ∈ waiting, roundDist s.hostPrev y.val ≤ roundDist s.hostPrev w.1.val)

/-- Table 12.4, R121, R218, R224, R226, R227, R237, R277, R279, R299, R301: what transfers, loads, regions, windows and tables do once
their descriptor starts and passes its checks. COPY moves LENGTH bytes to a range of an open region without slots, or writes those there
to the host unless one is uncorrectable, and waits for a channel held for service; IMEM_LOAD and DMEM_LOAD fill one core's bank or data
memory; REGION_OPEN opens the region, zeroed or filled; REGION_CLOSE asks for the close; REGION_FLUSH writes the dirty slots back, waiting
for a draining snapshot and for refetches; WINDOW_OPEN and WINDOW_CLOSE open and close, the latter once every packet that had passed is
answered; TABLE_LOAD fills the inactive copy when R301 finds nothing. Each then completes with its status. Where the spec leaves the form
open the clauses follow log entries 21, 22 and 65 (the model's choices). -/
def Obligations.LoadsRegionsAndWindows : Prop :=
  ∀ (r : Fin 256) (n : Nat) (x : Fin 64) (d : DescRef) (data : List Byte) (errs : List GranErr) (s : State), s.mem.wf = true →
    let gives (i : Instr) (st : Byte) (q : State → Prop) : Prop := ∃ t : State, exec i s = .next t ∧ Completed r d st 0 0 0 s t ∧ q t
    let waits (i : Instr) (q : State → Prop) : Prop := ∃ t : State, exec i s = .next t ∧ t.cqs = s.cqs ∧
      (∀ o ∈ (t.sq r).out, o.ref.idx = d.idx → o.waits = true) ∧ q t
    let begun : State := ((s.meeting errs).started d).setWaits d false
    let others (c : Fin 192) (t : State) : Prop := t.mem = s.mem ∧ ∀ k, k ≠ c → t.core k = s.core k
    (Starts r n 0x10 x d s →
      let a := d.le 0x18 6
      let len := d.le 0x20 4
      let bad := ((begun.chargeReads a len).decodeGrans (granules a len)).1
      (s.heldAt a len = true → waits (.copy r n data errs) fun t => t.mem = s.mem) ∧
      (∀ g, s.heldAt a len = false → d.bits 8 1 0 0 = 0 → s.copyRegion x a len true = some g → g.tiled = false → data.length = len →
        gives (.copy r n data errs) stOk fun t => t.mem = s.mem.writeRun a data ∧ ∃ o, t.out = s.out ++ Out.hostRead (s.ctx x).fn (d.le 0x10 8) len :: o) ∧
      ∀ g, s.heldAt a len = false → d.bits 8 1 0 0 = 1 → s.copyRegion x a len false = some g → g.tiled = false →
        (bad = [] → gives (.copy r n data errs) stOk fun t => t.mem = s.mem ∧
          ∃ o, t.out = o ++ [.hostWrite (s.ctx x).fn (d.le 0x10 8) (s.mem.readRun a len)]) ∧
        (bad ≠ [] → gives (.copy r n data errs) stWeightPoison fun t => t.mem = s.mem)) ∧
    (∀ c, Starts r n 0x11 x d s → coreOf? (d.le 8 1) = some c →
      let words := d.bits 0x0C 2 14 0
      let off := d.bits 0x0A 2 13 0
      let bank (k : Core) : SMap Word := if d.bits 9 1 0 0 = 0 then k.imem0 else k.imem1
      let word (k : Core) (i : Nat) : Word := SMap.get (fun _ => 0) (bank k) i
      data.length = 4 * words → SMap.wf (fun _ => (0 : Word)) (bank (s.core c)) = true →
      gives (.imemLoad r n data) stOk fun t => others c t ∧
        (∀ i < words, word (t.core c) (off + i) = BitVec.ofNat 32 (leNat ((data.drop (4 * i)).take 4))) ∧
        ∀ i, (i < off ∨ off + words ≤ i) → word (t.core c) i = word (s.core c) i) ∧
    (∀ c, Starts r n 0x12 x d s → coreOf? (d.le 8 1) = some c → (s.core c).dmem.wf = true → data.length = d.bits 0x18 4 17 0 →
      let off := d.bits 0x0C 4 16 0
      gives (.dmemLoad r n data) stOk fun t => others c t ∧ (∀ i < data.length, (t.core c).dmem.read (off + i) = data.getD i 0) ∧
        ∀ a, (a < off ∨ off + data.length ≤ a) → (t.core c).dmem.read a = (s.core c).dmem.read a) ∧
    (Starts r n 0x20 x d s →
      let g := regionOf x d
      gives (.regionOpen r n data) stOk fun t => t.regions = s.regions ++ [g] ∧
        (d.bits 8 1 6 5 = 0 ∨ g.kind ≠ 3 → MemOutside g.base g.bytes s t ∧
          ∀ i < g.bytes, t.mem.read (g.base + i) = if d.bits 8 1 6 5 = 0 then 0 else data.getD i 0)) ∧
    (Starts r n 0x21 x d s → ∃ t, exec (.regionClose r n) s = .next t ∧ t.mem = s.mem ∧ t.cqs = s.cqs ∧
      (∀ g ∈ s.regions, g.base = d.le 0x10 6 → g.ctx = x.val → { g with closing := some d } ∈ t.regions) ∧
      ∀ g ∈ s.regions, (g.base ≠ d.le 0x10 6 ∨ g.ctx ≠ x.val) → g ∈ t.regions) ∧
    (∀ g, Starts r n 0x22 x d s → s.namedRegion x (d.le 0x10 6) = some g →
      let after := begun.flushRegion g
      (s.drainHolds g = true → waits (.regionFlush r n errs) fun t => t.mem = s.mem ∧ t.dir = s.dir) ∧
      (s.drainHolds g = false → after.flushed g = true →
        gives (.regionFlush r n errs) stOk fun t => t.dirtySlots g = [] ∧ t.mem = after.mem) ∧
      (s.drainHolds g = false → after.flushed g = false → waits (.regionFlush r n errs) fun t => t.mem = after.mem)) ∧
    (Starts r n 0x24 x d s → gives (.windowOpen r n) stOk fun t => t.mem = s.mem ∧ ∃ w, t.windows = s.windows ++ [w] ∧ w.ctx = x.val ∧
      w.id = d.bits 8 2 11 0 ∧ w.gen = d.bits 0x0C 4 19 0 ∧ w.base = d.le 0x10 6 ∧ w.size = 4096 * d.le 0x18 3 ∧ w.target = d.bits 0x0A 1 2 0) ∧
    (∀ w, Starts r n 0x25 x d s → s.windows.filter (fun v => v.id == d.bits 8 2 11 0) = [w] → (∀ v ∈ s.windows, v.closing = none) →
      (s.windowBusy w = true → ∃ t : State, exec (.windowClose r n) s = .next t ∧ t.cqs = s.cqs ∧ t.mem = s.mem ∧
        { w with closing := some d } ∈ t.windows) ∧
      (s.windowBusy w = false → gives (.windowClose r n) stOk fun t => t.mem = s.mem ∧
        t.windows = s.windows.filter fun v => v.id != d.bits 8 2 11 0)) ∧
    (Starts r n 0x28 x d s →
      let layers := d.bits 0x18 2 12 0
      let entries := chunks 128 layers (data.take (128 * layers))
      let rules := chunks 64 (d.bits 0x1A 2 12 0) (data.drop (128 * layers))
      gives (.tableLoad r n data) (s.tableStatus entries rules) fun t => t.layerTab = s.layerTab ∧ t.ruleTab = s.ruleTab ∧ t.layers = s.layers ∧
        t.nextTabs = if s.tableStatus entries rules = stOk then some (asTable entries, asTable rules) else s.nextTabs)

/-- R335, R336, R346, R347, R353, Tables 12.4 and 12.7. STREAM_SET defines a stream; an arm starts its transfer, is latched behind one, or
is reported ARM_OVERRUN; the end of a transfer is reported, and starts the latched arm or leaves the stream idle. STREAM_CLEAR takes the
stream away at once or after the transfer, a latched arm reported CANCELLED. STEP joins those that wait, or is refused in a decode
context. MICROBATCH is queued for admission, or refused under R347. DECODE takes the next row of the open batch; the batch closes at its
deadline. Where the spec leaves the form open the clauses follow log entries 23, 28 and 66 (the model's choices). -/
def Obligations.StreamsStepsAndBatches : Prop :=
  ∀ (r : Fin 256) (n : Nat) (x : Fin 64) (s : State),
    let armed (i : Nat) (d : DescRef) (arm : Nat × Nat) (st : Byte) (t : State) : Prop :=
      ∃ q, (t.cq (s.cqOf (ringOf d.ring))).waiting = (s.cq (s.cqOf (ringOf d.ring))).waiting ++ [q] ∧
        q.idx = none ∧ q.type = 0x32 ∧ q.tag = d.le 4 4 ∧ q.status = st ∧ q.d16 = arm.1 ∧ q.d32 = arm.2 % 65536 + i * 65536
    (∀ d, Starts r n 0x30 x d s → ∃ t, exec (.streamSet r n) s = .next t ∧ Completed r d stOk 0 0 0 s t ∧ t.mem = s.mem ∧
      t.stream x (d.bits 8 1 5 0) = { st := .idle, set := some d }) ∧
    (∀ d, Starts r n 0x31 x d s → (s.stream x (d.bits 8 1 5 0)).clearing = none → SMap.wf streamDefault s.streams = true →
      let i := d.bits 8 1 5 0
      let k := s.stream x i
      let gives (q : State → Prop) : Prop := ∃ t, exec (.streamClear r n) s = .next t ∧ t.mem = s.mem ∧ q t
      ((k.st = .idle ∨ k.st = .undefined) → gives fun t => Completed r d stOk 0 0 0 s t ∧ t.stream x i = {}) ∧
      (k.st = .busy → gives fun t => t.cqs = s.cqs ∧ t.stream x i = { k with clearing := some d }) ∧
      ∀ q, k.st = .latched → k.set = some q → gives fun t => armed i q k.latch stCancelled t ∧ t.stream x i = { k with st := .busy, clearing := some d }) ∧
    (∀ (f : Fin 32) (i : Fin 64) (value : Word) d, (s.stream x i.val).set = some d → s.ownsCtx f x = true → value.toNat < 0x10000 →
      (s.ctx x).orphaned = false →
      let k := s.stream x i.val
      let arm := (value.toNat, k.k % d.le 0x0A 2)
      let gives (q : State → Prop) : Prop := ∃ t, exec (.streamArm f x i value) s = .next t ∧ t.mem = s.mem ∧ q t
      (k.st = .idle → gives fun t => t.cqs = s.cqs ∧ t.stream x i.val = { k with st := .busy, k := k.k + 1, run := arm }) ∧
      (k.st = .busy → gives fun t => t.cqs = s.cqs ∧ t.stream x i.val = { k with st := .latched, k := k.k + 1, latch := arm }) ∧
      (k.st = .latched → gives fun t => armed i.val d arm 0x08 t ∧ t.streams = s.streams)) ∧
    (∀ (i : Fin 64) data errs d g, (s.stream x i.val).set = some d → s.fetches x = true → s.mem.wf = true →
      SMap.wf streamDefault s.streams = true →
      let k := s.stream x i.val
      let a := streamLocal d k.run.2
      let len := d.le 0x0C 4
      let write := d.bits 9 1 0 0 == 0
      let bad := (((s.meeting errs).chargeReads a len).decodeGrans (granules a len)).1
      let run : Result := exec (.streamTransferComplete x i data errs) s
      (k.st = .busy ∨ k.st = .latched) → data.length = len → s.copyRegion x a len write = some g → g.tiled = false →
      (s.heldAt a len = true → run = .next s) ∧
      (s.heldAt a len = false → ∃ t : State, run = .next t ∧ t.mem = (if write then s.mem.writeRun a data else s.mem) ∧
        armed i.val d k.run (if write = true ∨ bad = [] then stOk else stWeightPoison) t ∧
        (k.st = .latched → t.stream x i.val = { k with st := .busy, run := k.latch }) ∧
        (k.st = .busy → k.clearing = none → t.stream x i.val = { k with st := .idle }))) ∧
    (∀ d, Starts r n 0x01 x d s → ((s.ctx x).decode = true → ∃ t, exec (.step r n) s = .next t ∧ Completed r d stReserved 0 0 (d.le 8 5) s t ∧ t.ctxs = s.ctxs) ∧
      ((s.ctx x).decode = false → ∃ t, exec (.step r n) s = .next t ∧ t.cqs = s.cqs ∧ t.mem = s.mem ∧
        t.ctx x = { s.ctx x with waitingSteps := (s.ctx x).waitingSteps ++ [d] })) ∧
    (∀ d, Starts r n 0x02 x d s →
      ((s.ctx x).mbRefused (d.le 8 5) (d.le 0x10 2) = true → ∃ t, exec (.microbatch r n) s = .next t ∧ t.ctxs = s.ctxs ∧
        Completed r d stReserved (d.le 0x10 2) 0 (d.le 8 5) s t) ∧
      ((s.ctx x).mbRefused (d.le 8 5) (d.le 0x10 2) = false → ∃ t m, exec (.microbatch r n) s = .next t ∧ t.cqs = s.cqs ∧
        (t.ctx x).mbs = (s.ctx x).mbs ++ [m] ∧ m.mb = d.le 0x10 2 ∧ m.step = d.le 8 5 ∧ m.est = d.le 0x18 6 ∧ m.admitted = false ∧ m.desc = some d)) ∧
    (∀ d data c b, Starts r n 0x03 x d s → (s.ctx x).dec = some c → (s.ctx x).batches.find? (fun b => !b.closed) = some b → b.reqs.length < 127 →
      d.le 0x20 4 ≤ c.inStride → data.length = d.le 0x20 4 → s.mem.wf = true →
      let a := c.bufBase b.buf + 64 + b.reqs.length * c.inStride
      ∃ t, exec (.decode r n data) s = .next t ∧ MemOutside a c.inStride s t ∧ (∀ i < c.inStride, t.mem.read (a + i) = data.getD i 0) ∧
        { b with reqs := b.reqs ++ [{ desc := d, data := data }] } ∈ (t.ctx x).batches) ∧
    ∀ c b, (s.ctx x).dec = some c → (s.ctx x).batches.find? (fun b => !b.closed) = some b → ∃ t, exec (.decodeDeadline x) s = .next t ∧
      { b with closed := true } ∈ (t.ctx x).batches ∧ ∃ m ∈ (t.ctx x).mbs, m.mb = b.mb ∧ m.batch = true ∧ m.admitted = false ∧ m.est = c.stashMib * 2 ^ 20

/-- R342 to R344, R351, R352, R361, R363: the mailbox's requests. Each takes the next request of its type and answers it once. An open
whose checks pass gives the context its cores, cleared, and its rings; one of an open context answers BANK_ACTIVE, one without an active
lease LEASE_EXPIRED, one whose resources fail their status. A close releases cores, rings, windows and regions. A reclaim hands a parked
context over; a resume starts one reclaimed at a boundary and delivers the records held. A queued micro-batch is cancelled with CANCELLED,
one whose weight gradients have begun is not. DECODE_CFG sets an area that lies in one raw near region while no batch exists. Where the
spec leaves the form open the clauses follow log entries 24, 66 and 69 (the model's choices). -/
def Obligations.ContextRequests : Prop :=
  ∀ (f : Fin 32) (seq : Nat) (b : List Byte) (x : Fin 64) (errs : List GranErr) (s : State), ctxOf? (bitsOf (bodyLE b 0 1) 5 0) = some x →
    let k := s.ctx x
    let gives (msg : Nat) (i : Instr) (st : Byte) (ans : List Byte) (q : State → Prop) : Prop :=
      ∃ t, exec i s = .next t ∧ Answered f msg seq st ans s t ∧ q t
    let same (t : State) : Prop := t.ctxs = s.ctxs ∧ t.cores = s.cores ∧ t.mem = s.mem ∧ t.sqs = s.sqs ∧ t.cqs = s.cqs
    (Asks f 1 seq b s → bodyCheck (openFields b) (openRanges b) b = none →
      (k.state ≠ .closed → gives 1 (.ctxOpen f) stBankActive (openAnswer x.val 0) same) ∧
      (k.state = .closed → (s.fn f).lease ≠ .active → gives 1 (.ctxOpen f) stLease (openAnswer x.val 0) same) ∧
      (k.state = .closed → (s.fn f).lease = .active →
        (∀ st off, s.openCheck f.val x.val b (openCores b) = .inl (st, off) → gives 1 (.ctxOpen f) st (openAnswer x.val off) same) ∧
        ∀ p, s.openCheck f.val x.val b (openCores b) = .inr p → gives 1 (.ctxOpen f) stOk (openAnswer x.val 0) fun t =>
          (t.ctx x).state = .opened ∧ (t.ctx x).fn = f.val ∧ (t.ctx x).weight = bodyLE b 2 1 ∧ (t.ctx x).step = none ∧ (t.ctx x).mbs = [] ∧
          (∀ c ∈ openCores b, (t.core c).ctx = some x ∧ (t.core c).sp = [] ∧ (t.core c).dmem = [] ∧ (t.core c).stw.state = .halted ∧
            (t.core c).stw.g = Vector.replicate 32 0) ∧ (∀ c, c ∉ openCores b → t.core c = s.core c) ∧
          ∀ r : Fin 256, t.sq r = if bodyLE b 8 1 ≤ r.val ∧ r.val < bodyLE b 8 1 + bodyLE b 9 1 then { ctx := some x } else s.sq r)) ∧
    (Asks f 2 seq b s → bodyCheck [(0, 6)] [] b = none →
      ((k.state = .closed ∨ k.fn ≠ f.val ∧ f ≠ 0) → gives 2 (.ctxClose f errs) stReserved (ctxBody x.val) same) ∧
      (k.state ≠ .closed → (k.fn = f.val ∨ f = 0) → gives 2 (.ctxClose f errs) stOk (ctxBody x.val) fun t => (t.ctx x).state = .closed ∧
        (∀ c, (t.core c).ctx ≠ some x) ∧ (∀ r, (t.sq r).ctx ≠ some x ∧ (t.cq r).ctx ≠ some x) ∧ (∀ w ∈ t.windows, w.ctx ≠ x.val) ∧
        (∀ g ∈ t.regions, g.ctx ≠ x.val) ∧ ∀ y, y ≠ x → (t.ctx y).state = (s.ctx y).state)) ∧
    (s.stillParking f = true → exec (.ctxReclaim f) s = .next s) ∧
    (Asks f 3 seq b s → bodyCheck [(0, 6)] [] b = none → s.stillParking f = false → (k.fn = f.val ∨ f = 0) →
      ((k.state = .parkedBoundary ∨ k.state = .parkedMid) →
        gives 3 (.ctxReclaim f) stOk (leBytes 8 k.state.code ++ (leBytes 8 (k.step.getD 0) ++ leBytes 8 k.held.length)) fun t =>
          t.ctx x = { k with reclaimed := true, fn := f.val } ∧ t.mem = s.mem) ∧
      (k.state ≠ .parkedBoundary → k.state ≠ .parkedMid → gives 3 (.ctxReclaim f) stBankActive (leBytes 24 k.state.code) same)) ∧
    (Asks f 4 seq b s → bodyCheck [(0, 6)] [] b = none →
      ((k.fn ≠ f.val ∨ k.reclaimed = false) → gives 4 (.ctxResume f) stReserved (ctxBody x.val) same) ∧
      (k.fn = f.val → k.reclaimed = true →
        (k.state = .parkedMid → gives 4 (.ctxResume f) stLease (ctxBody x.val) same) ∧
        (k.state = .parkedBoundary → k.tainted = true → gives 4 (.ctxResume f) stBankActive (ctxBody x.val) same) ∧
        (k.state = .parkedBoundary → k.tainted = false → gives 4 (.ctxResume f) stOk (ctxBody x.val) fun t => (t.ctx x).state = .opened ∧
          (t.ctx x).orphaned = false ∧ (t.ctx x).held = [] ∧ t.mem = s.mem ∧ ∀ q ∈ k.held, q ∈ (t.cq (s.cqOf (ringOf q.sq))).waiting))) ∧
    (∀ r d, Asks f 5 seq b s → bodyCheck [(0, 6), (8, 40), (0x10, 16)] [] b = none → s.ownsCtx f x = true →
      k.mbs.find? (fun r => r.mb == bodyLE b 0x10 2 && r.step == bodyLE b 8 5 && !r.done) = some r →
      (r.wg = true → gives 5 (.mbCancel f) stBankActive (mbBody x.val r.mb) same) ∧
      (r.wg = false → r.admitted = false → r.batch = false → r.desc = some d → (s.sq (ringOf d.ring)).ctx = some x → k.orphaned = false →
        gives 5 (.mbCancel f) stOk (mbBody x.val r.mb) fun t => { r with aborted := some stCancelled, done := true } ∈ (t.ctx x).mbs ∧
          t.mem = s.mem ∧ ∃ q ∈ (t.cq (s.cqOf (ringOf d.ring))).waiting, q.status = stCancelled ∧ q.d16 = r.mb ∧ q.d64 = r.step)) ∧
    (Asks f 6 seq b s → bodyCheck [(0, 6), (1, 4), (2, 16), (8, 48), (0x10, 24), (0x14, 24), (0x18, 20)] (decRanges b) b = none →
      s.ownsCtx f x = true → k.decode = true →
      let d := decCfgOf b
      (k.batches ≠ [] → gives 6 (.decodeCfg f) stBankActive (ctxBody x.val) same) ∧
      ∀ g, k.batches = [] → s.regionAt d.base (d.buffers * d.bufBytes) = some g → g.ctx = x.val → g.kind = 0 → g.closing = none →
        gives 6 (.decodeCfg f) stOk (ctxBody x.val) fun t => t.ctx x = { k with dec := some d } ∧ t.mem = s.mem)

/-- R205, R211, R212, R346, R348, R349, R358, R392, R393, R408 to R410. An abort cancels a micro-batch's instances and posts its notice to
every core of the context; STASH_RELEASE gives its stash back and completes it with the abort status. The one queued micro-batch is
admitted when its stash is free and no queue is full, and rejected with STASH_EXHAUSTED when the pool could never hold it. The next STEP
opens, another is refused. The boundary, once no multicast that the module awaits is open, completes STEP with the step's status,
micro-batches aborted and layers held, raises event 9 and clears the declarations; a tainted step parks the context. A stop leaves the
ledger whose header Table 15.8 gives and ends in a drain; the drain hands over what the stop took, completes its generation and writes the
signed ledger, or fails with RESULT 6. Where the spec leaves the form open the clauses follow log entries 28, 47, 66 and 68 (the model's
choices). -/
def Obligations.StepsAndSnapshots : Prop :=
  ∀ (x : Fin 64) (errs : List GranErr) (s : State), SMap.wf glbReset s.regs = true →
    let k := s.ctx x
    let cores := s.ctxCores x
    (∀ m st, failingStatus st = false → exec (.mbAbort x m st) s = .next s) ∧
    (∀ m st r, failingStatus st = true → k.mbFind m = some r → r.done = false → r.aborted = none → r.admitted = true → ∃ t, exec (.mbAbort x m st) s = .next t ∧
      (∀ q ∈ (t.ctx x).mbs, k.isMb m q = true → q.done = false → q.aborted = some st) ∧
      bitsOf (t.rd (stashOff x 0x14)) 15 0 = min 0xFFFF (bitsOf (s.rd (stashOff x 0x14)) 15 0 + 1) ∧
      (∀ c ∈ cores, noticeWord m ∈ (t.core c).admitQ ∨ noticeWord m ∈ (t.core c).heldNotices) ∧
      ∀ c i n, (c, i) ∈ s.mbInsts x m none → ((s.core c).slot i).inst = some n →
        (n.running = true → ∃ u, ((t.core c).slot i).inst = some u ∧ u.cancel = some (n.cancel.getD st)) ∧
        (n.running = false → ((t.core c).slot i).inst = none)) ∧
    (∀ m st r q d, k.mbFind m = some r → r.aborted = some st → r.done = false → (s.mbInsts x m none).isEmpty = true → s.porterHolds x m = false →
      r.batch = false → r.desc = some d → d.ring = q.val → (s.sq q).ctx = some x → k.orphaned = false →
      ∃ t, exec (.stashRelease x m) s = .next t ∧ Completed q d st m 0 r.step s t ∧ (t.ctx x).freeMib = k.freeMib + r.resv ∧
        ∀ v ∈ (t.ctx x).mbs, k.isMb m v = true → v.done = true) ∧
    (∀ r, k.mbs.filter (fun r => !r.done && !r.admitted) = [r] → s.innkPaused = false → (k.state = .opened ∨ k.state = .orphaned) →
      let need := ceilDiv r.est (2 ^ 20)
      (k.poolMib < need → r.batch = false → ∃ t, exec (.admitMb x) s = .next t ∧ { r with aborted := some stStash, done := true } ∈ (t.ctx x).mbs ∧
        (t.ctx x).freeMib = k.freeMib) ∧
      (need ≤ k.poolMib → k.freeMib < need → exec (.admitMb x) s = .next s) ∧
      (need ≤ k.poolMib → need ≤ k.freeMib → (k.decode = true ∨ k.inStep = true ∧ k.step = some r.step) →
        (∀ c ∈ cores, (s.core c).admitFull = false) → ∃ t, exec (.admitMb x) s = .next t ∧ (t.ctx x).freeMib = k.freeMib - need ∧
          (∃ v ∈ (t.ctx x).mbs, v.mb = r.mb ∧ v.step = r.step ∧ v.admitted = true ∧ v.resv = need) ∧
          ∀ c ∈ cores, (t.core c).admitQ = (s.core c).admitQ ++ [admitWord r.mb])) ∧
    (∀ q d rest, k.waitingSteps = d :: rest → d.ring = q.val → (s.sq q).ctx = some x → k.state = .opened → k.orphaned = false → k.inStep = false →
      k.snap.phase ≠ 1 → s.innkPaused = false →
      let fits : Prop := k.anyStep = true ∨ k.step = none ∨ ∃ n, k.step = some n ∧ d.le 8 5 = n + 1
      (fits → ∃ t, exec (.stepOpen x) s = .next t ∧ (t.ctx x).step = some (d.le 8 5) ∧ (t.ctx x).inStep = true ∧ (t.ctx x).mbCount = d.le 0x10 2 ∧
        (t.ctx x).waitingSteps = rest ∧ (t.ctx x).taint = none) ∧
      (¬ fits → ∃ t, exec (.stepOpen x) s = .next t ∧ Completed q d stReserved 0 0 (d.le 8 5) s t ∧ (t.ctx x).step = k.step ∧
        (t.ctx x).inStep = false ∧ (t.ctx x).waitingSteps = rest)) ∧
    (∀ awaited, (awaited = true ∨ s.boundaryReached x = false) → exec (.stepBoundary x awaited) s = .next s) ∧
    (∀ q d, s.boundaryReached x = true → k.stepDesc = some d → d.ring = q.val → (s.sq q).ctx = some x → k.orphaned = false →
      ∃ t, exec (.stepBoundary x false) s = .next t ∧ (t.ctx x).inStep = false ∧ t.mem = s.mem ∧
        Completed q d ((k.taint.map (·.2)).getD stOk) (bitsOf (s.rd (stashOff x 0x14)) 15 0) (s.layersHeld x) (k.step.getD 0) s t ∧
        (∀ c ∈ cores, (t.core c).fwdDone = [] ∧ (t.core c).stw.events.getLsbD 9 = true) ∧
        (k.taint = none → (t.ctx x).state = k.state) ∧ (k.taint ≠ none → (t.ctx x).state = .parkedBoundary ∧ (t.ctx x).tainted = true)) ∧
    (∀ us, k.snap.phase = 1 → (∀ g ∈ s.snapRegions x, g.kind ≠ 2) → s.mem.wf = true → ∃ t, exec (.snapshotStopEnd x us errs) s = .next t ∧
      (t.ctx x).snap.phase = 2 ∧ (t.ctx x).snap.slot = k.snap.drainSlot ∧ (t.ctx x).snap.seq = k.snap.seq + 1 ∧
      (let l := (t.ctx x).snap.ledger
       let at' (off n : Nat) : Nat := leNat ((l.drop off).take n)
       at' 0 1 = 1 ∧ at' 1 1 = b2n k.snap.drainSlot ∧ at' 2 1 = x.val ∧ at' 4 4 = (k.snap.seq + 1) % 2 ^ 32 ∧ at' 8 8 = k.step.getD 0 % 2 ^ 64 ∧
         at' 0x10 4 = s.time % 2 ^ 32 ∧ at' 0x18 4 = (s.regions.filter fun r => r.ctx == x.val && decide (r.kind ≤ 4)).length % 2 ^ 32) ∧
      (k.orphaned = true → (t.ctx x).state = .parkedBoundary) ∧ (∀ g a n, s.snapArea x = some (g, a, n) → MemOutside a (s.stagingNeed x) s t)) ∧
    (k.snap.phase = 2 → s.drainMay x = true → ∃ t, exec (.snapshotDrainComplete x true) s = .next t ∧ (t.ctx x).snap.phase = 0 ∧ t.mem = s.mem ∧
      ((t.ctx x).snap.gen k.snap.slot).complete = true ∧ (t.ctx x).snap.newest = k.snap.slot ∧ (t.ctx x).snap.result = 1 ∧
      ∃ signature : List Byte, signature.length = 96 ∧ t.out = s.out ++
        ((k.snap.taken.map fun v => Out.snapshot x.val k.snap.slot v).toList ++ [.ledger x.val k.snap.slot (k.snap.ledger ++ signature)])) ∧
    (k.snap.phase = 2 → ∃ t, exec (.snapshotDrainComplete x false) s = .next t ∧ (t.ctx x).snap.phase = 0 ∧ (t.ctx x).snap.result = 6 ∧ t.mem = s.mem ∧
      bitsOf (t.rd (snapOff x 0x38)) 31 16 = min 0xFFFF (bitsOf (s.rd (snapOff x 0x38)) 31 16 + 1))

/-- R321, R359, R360, R362, Table 13.5: a lease. A write of a new value is a heartbeat and makes the lease active; half of PERIOD without
one posts a warning. Expiry orphans every open context of the function, which no longer runs as open, and logs kind 0x0E; heartbeats are
then discarded until REARM. A function-level reset ends the lease inactive, orphans the function's contexts, disables their rings, and
clears the mailbox header and the selects; that of the physical function does so for every function, and a write of NumVFs for every
virtual function that it disables. Other functions keep their leases, other contexts their states. Where the spec leaves the form open the
clauses follow log entries 28, 70 and 71 (the model's choices). -/
def Obligations.LeaseLife : Prop :=
  ∀ (f : Fin 32) (value : Word) (s : State), SMap.wf glbReset s.regs = true →
    let k := s.fn f
    let put (k : Fn) : Result := .next { s with fns := s.fns.set f k }
    let orphaned (t : State) : Prop := (∀ x, (s.ctx x).state ≠ .closed → (s.ctx x).fn = f.val → (t.ctx x).orphaned = true ∧ (t.ctx x).state ≠ .opened) ∧
      (∀ x, (s.ctx x).fn ≠ f.val → (t.ctx x).state = (s.ctx x).state ∧ (t.ctx x).orphaned = (s.ctx x).orphaned) ∧
      ∀ g, g ≠ f → (t.fn g).lease = (s.fn g).lease
    ((k.lease = .expired ∨ k.lastBeat = some value) → exec (.leaseBeat f value) s = .next s) ∧
    (k.lease ≠ .expired → k.lastBeat ≠ some value →
      exec (.leaseBeat f value) s = put { k with lease := .active, lastBeat := some value, beatAt := s.time, warned := false }) ∧
    (k.lease = .active → k.warned = false → k.evtFull = false → k.box.wf = true →
      let tail := k.box.readLE 0x0C 2
      ∃ t left, exec (.leaseWarning f) s = .next t ∧ (t.fn f).warned = true ∧ (t.fn f).lease = .active ∧ left ≤ k.periodMs - k.periodMs / 2 ∧
        (t.fn f).box.readLE 0x0C 2 = (tail + 1) % 2 ^ 16 ∧
        (t.fn f).box.readRun (0x5000 + 64 * (tail % 256)) 64 = eventBytes 0x83 0 stOk true (leBytes 2 left)) ∧
    ((k.lease ≠ .active ∨ k.warned = true) → exec (.leaseWarning f) s = .next s) ∧
    (k.lease ≠ .active → exec (.leaseExpiry f) s = .next s) ∧
    (k.lease = .active → ∃ t, exec (.leaseExpiry f) s = .next t ∧ (t.fn f).lease = .expired ∧ ((∀ x, (s.ctx x).orphaned = false) → orphaned t) ∧
      (SMap.get (fun _ => []) t.faultLog (bitsOf (s.rd 0x90004) 15 0 % 1024)).getD 4 0 = 0x0E) ∧
    (bitOf value.toNat 8 = true → k.lease = .expired →
      exec (.rearm f value) s = put { k with lease := .active, beatAt := s.time, warned := false }) ∧
    ((bitOf value.toNat 8 = false ∨ k.lease ≠ .expired) → exec (.rearm f value) s = .next s) ∧
    (f ≠ 0 → k.box.wf = true → ∃ t, exec (.functionLevelReset f none) s = .next t ∧ (t.fn f).lease = .inactive ∧ (t.fn f).lastBeat = none ∧
      ((∀ x, (s.ctx x).orphaned = false) → orphaned t) ∧ (∀ a < 64, (t.fn f).boxByte a = 0) ∧ (∀ a, 64 ≤ a → (t.fn f).box.read a = k.box.read a) ∧
      (SMap.wf fnReset k.regs = true → ∀ off ∈ selectRegs, (t.fn f).rd off = 0) ∧
      ∀ r x, (s.sq r).ctx = some x → (s.ctx x).state ≠ .closed → (s.ctx x).fn = f.val → t.sqEnabled r = false) ∧
    (∃ t, exec (.functionLevelReset 0 none) s = .next t ∧ ∀ g, (t.fn g).lease = .inactive) ∧
    ∀ n : Fin 32, ∃ t, exec (.functionLevelReset 0 (some n)) s = .next t ∧ t.numVfs = n.val ∧
      ∀ g : Fin 32, (t.fn g).lease = if n.val < g.val ∧ g.val ≤ s.numVfs then .inactive else (s.fn g).lease

/-- R375 to R383, Tables 14.4 and 14.5, on a module whose rails are on: the hardwired conditions. Rows 0, 2 and 5 gate every array, rows 0
and 2 hold every island at 0.60 V too, over-current gates its island; each is logged with kind 0x0D. Rows 1, 3, 4 and a leak remove
compute power, a leak closing the valve; the silent sequencer opens it and publishes BUDGET 0 and HOT. Each sets its bit of HRTH_EVENT,
once. A release ends its condition. THROTTLE_N holds every island at 0.60 V until it and its chatter end; LEAK_N's quiet starts when it
ends; glitches count, and more than 1,000 in a second are chatter. Where the spec leaves the form open the clauses follow log entries 28,
74 and 75 (the model's choices). -/
def Obligations.HearthEmergencies : Prop :=
  ∀ (s : State), s.power.rails = true → SMap.wf glbReset s.regs = true →
    let h := s.hearth
    let event (t : State) (n : Nat) : Prop := bitOf (t.rd 0x70004) n = true
    let logged (t : State) : Prop := (SMap.get (fun _ => []) t.faultLog (bitsOf (s.rd 0x90004) 15 0 % 1024)).getD 4 0 = 0x0D
    let row (i : Instr) (n : Fin 9) (q : State → Prop) : Prop := (h.conds[n] = true → exec i s = .next s) ∧
      (h.conds[n] = false → ∃ t, exec i s = .next t ∧ t.hearth.conds[n] = true ∧ event t n.val ∧ q t)
    let gates (low : Bool) (t : State) : Prop := logged t ∧ t.mem = s.mem ∧ t.cores = s.cores ∧
      (h.removed = false → t.hearth.gate = true ∧ ∀ i, t.islandGated i = true) ∧ (low = true → ∀ i, t.islandMv i = 600)
    let removes (t : State) : Prop := t.hearth.removed = true ∧ t.faultLow = true ∧ t.power.rails = false ∧ t.power.ready = false ∧ t.mem = [] ∧ t.regions = [] ∧
      (∀ c : Fin 192, t.core c = resetCore (s.mfg.role c.val)) ∧ t.mfg = s.mfg ∧ t.gatehouse.images = s.gatehouse.images
    row .overTemperature 0 (gates true) ∧ row .vmainLow 2 (gates true) ∧ row .inputOverPower 5 (gates false) ∧
    row .persistentOverTemperature 1 removes ∧ row .vmainCollapse 3 removes ∧ row .vmainHigh 4 removes ∧
    (h.leaking = true → row .leak 7 fun t => removes t ∧ t.duty = 0) ∧ (h.leaking = false → exec .leak s = .next s) ∧
    row .sequencerSilent 8 (fun t => logged t ∧ t.duty = 100 ∧ t.budgetW = 0 ∧ t.hot = true ∧ t.hearth.islands = h.islands) ∧
    (∀ i, (s.island i).overAmps = true → exec (.islandOverCurrent i) s = .next s) ∧
    (∀ i, (s.island i).overAmps = false → ∃ t, exec (.islandOverCurrent i) s = .next t ∧ event t 6 ∧ logged t ∧ (t.island i).overAmps = true ∧
      (∀ j, j ≠ i → t.island j = s.island j) ∧ (h.removed = false → t.islandGated i = true) ∧ t.mem = s.mem) ∧
    (∀ (n : Fin 9) (i : Fin 24), (n = 7 → exec (.emergencyRelease n i) s = .next s) ∧
      (n = 6 → ∃ t, exec (.emergencyRelease n i) s = .next t ∧ (t.island i).overAmps = false ∧ ∀ j, j ≠ i → t.island j = s.island j) ∧
      (n ≠ 6 → n ≠ 7 → exec (.emergencyRelease n i) s = .next { s with hearth := { h with conds := h.conds.set n false } })) ∧
    (∃ t, exec .throttleAssert s = .next t ∧ t = { s with hearth := { h with thrLow := true } } ∧ ∀ i, t.islandMv i = 600) ∧
    (h.thrLow = false → exec .throttleDeassert s = .next s) ∧
    (h.thrLow = true → ∃ t, exec .throttleDeassert s = .next t ∧ t.hearth.thrLow = false ∧ t.regs = s.regs ∧
      (h.thrChatter = true → t.hearth.islands = h.islands) ∧
      (h.thrChatter = false → ∀ i, (t.island i).want = 600 ∧ (t.island i).base = 600 - (s.island i).offset)) ∧
    (∃ t, exec .leakAssert s = .next t ∧ t.hearth = { h with leakLow := true, leakQuiet := none }) ∧
    (∃ t, exec .leakDeassert s = .next t ∧
      t.hearth = { h with leakLow := false, leakQuiet := if h.leakChatter then none else some (h.leakQuiet.getD s.time) }) ∧
    (h.throttled = false → exec .thrStuck s = .next s) ∧ (h.throttled = true → ∃ t, exec .thrStuck s = .next t ∧ event t 11 ∧ t.hearth = h) ∧
    (∀ leak : Bool, let lo : Nat := if leak then 16 else 0
      ∃ t, exec (.pinGlitch leak) s = .next t ∧ bitsOf (t.rd 0x70028) (lo + 15) lo = (bitsOf (s.rd 0x70028) (lo + 15) lo + 1) % 2 ^ 16 ∧
        bitsOf (t.rd 0x70028) (31 - lo) (16 - lo) = bitsOf (s.rd 0x70028) (31 - lo) (16 - lo)) ∧
    ∀ thr leak, ∃ t, exec (.chatterEval thr leak) s = .next t ∧ (1000 < thr → t.hearth.thrChatter = true ∧ event t 9) ∧
      (1000 < leak → t.hearth.leakChatter = true ∧ event t 10 ∧ t.hearth.leakQuiet = none) ∧
      (thr ≤ 1000 → h.thrLow = false → t.hearth.thrChatter = false) ∧ (leak ≤ 1000 → h.leakLow = false → t.hearth.leakChatter = false)

/-- R357, R369 to R375, R384: Hearth's loops. A plan has 50 entries, each the sum over the open contexts. An update ends the sequencer's
silence, takes the readings, publishes BUDGET 0 and HOT while the gate is active, caps above CAP_W, and leaves every island between 0.60 V
and 0.85 V, or its setting alone while throttled or without flow. The valve's duty lies between MIN_DUTY and 100 %, is 100 % without a
good sensor or a sequencer and 0 in a leak. Low or lost flow and a hot inlet set their events, and flow also HOT. A telemetry window
copies the counters and advances its number. Where the spec leaves the form open the clauses follow log entries 5, 28, 73 and 74 (the
model's choices). -/
def Obligations.HearthLoops : Prop :=
  ∀ (s : State), SMap.wf glbReset s.regs = true →
    let h := s.hearth
    let event (t : State) (n : Nat) : Prop := bitOf (t.rd 0x70004) n = true
    let live := allCtxs.filter fun x => (s.ctx x).state != .closed
    (s.innkPaused = false → ∃ t, exec .planPublish s = .next t ∧ t.mem = s.mem ∧ t.cores = s.cores ∧ t.hearth.plan.length = 50 ∧
      (∀ k < 50, t.hearth.plan.getD k 0 = live.foldl (fun n x => n + s.planOf x (k + 1)) 0) ∧
      ∀ x ∈ live, (s.ctx x).inStep = true → (s.ctx x).decode = false → (t.ctx x).profileNow = (s.ctx x).profileNow ++ [s.ctxCommitted x]) ∧
    (∀ r, s.hearthRuns = false → exec (.hearthTick r) s = .next s) ∧
    (∀ r, s.hearthRuns = true → s.power.rails = true → ∃ t, exec (.hearthTick r) s = .next t ∧ t.mem = s.mem ∧ t.hearth.conds[8] = false ∧
      t.rd 0x7000C = min r.pIn1ms 4095 + min r.pIn1s 4095 * 2 ^ 16 ∧
      (∀ (i : Fin 24) q, r.islands[i.val]? = some q → (t.island i).tj = q.tjC ∧ (t.island i).amps = q.currentA) ∧
      ((h.throttled = true ∨ h.flowLost = true) → ∀ i, (t.island i).want = (s.island i).want) ∧
      (h.throttled = false → h.flowLost = false → ∀ i, 600 ≤ (t.island i).want ∧ (t.island i).want ≤ 850) ∧
      (s.capW < r.pIn1s → t.hearth.capping = true ∧ event t 16) ∧ (h.gate = true → t.budgetW = 0 ∧ t.hot = true)) ∧
    (∀ inlet outlet flow, s.hearthRuns = false → exec (.valveTick inlet outlet flow) s = .next s) ∧
    (∀ inlet outlet flow, s.hearthRuns = true → ∃ t, exec (.valveTick inlet outlet flow) s = .next t ∧ t.mem = s.mem ∧ t.cores = s.cores ∧
      t.rd 0x70024 = min flow 65535 ∧ (h.conds[7] = true → t.duty = 0) ∧ (h.conds[7] = false → h.conds[8] = true → t.duty = 100) ∧
      (h.conds[7] = false → h.conds[8] = false →
        (sensorOk inlet = true → sensorOk outlet = true → min 100 (bitsOf (s.rd 0x70018) 30 24) ≤ t.duty ∧ t.duty ≤ 100) ∧
        (¬ (sensorOk inlet = true ∧ sensorOk outlet = true) → t.duty = 100 ∧ event t 15))) ∧
    (s.duty = 100 → bitsOf (s.rd 0x70024) 15 0 < 200 → ∃ t, exec .flowLow s = .next t ∧ t.hearth.flowLow = true ∧ event t 12 ∧ t.hot = true) ∧
    (bitsOf (s.rd 0x70018) 30 24 < s.duty → bitsOf (s.rd 0x70024) 15 0 = 0 → ∃ t, exec .flowLost s = .next t ∧ t.hearth.flowLost = true ∧
      event t 13 ∧ t.hot = true ∧ (s.power.rails = true → ∀ i, t.islandMv i = 600)) ∧
    (signedOf 8 (bitsOf (s.rd 0x70020) 7 0) ≤ 40 → exec .inletHigh s = .next s) ∧
    (40 < signedOf 8 (bitsOf (s.rd 0x70020) 7 0) → ∃ t, exec .inletHigh s = .next t ∧ event t 14 ∧ t.hearth = h) ∧
    (s.power.vaux = true → ∃ t, exec .telemetryWindow s = .next t ∧ t.mem = s.mem ∧ t.rd 0x70038 = (s.rd 0x70038 + 1) % 2 ^ 32 ∧
      (∀ c, (t.core c).win = (s.core c).regs ∧ (t.core c).regs = (s.core c).regs) ∧ (∀ c, (t.chan c).win = (s.chan c).regs ∧ (t.chan c).dieCorr = []) ∧
      ∀ p, (t.port p).win = (s.port p).regs ∧ (t.port p).fec01 = 0 ∧ (t.port p).last01 = (s.port p).fec01)

/-- R78, R395, R396, R399, R401, R402, R443, R444, Table 15.6: a remap moves a core's memories, masks and Steward registers to the free
spare that R396 names; the core is left fenced, empty and an alias of it. Without a spare a condemned core's context parks mid-step, and a
remap that may wait does. Lantern queues sweeps and calibrations of fenced or spare units, at most 16, and starts the first that may run,
at most four at once; a refusal shows in its register. The outcome sets the core's role and fence bits, and the result register; a
calibration beyond ±8.0 % or below the band of the typical pace fences the core, any other is taken. A part that a parity check condemns
has its fence bit set. Where the spec leaves the form open the clauses follow log entries 28, 77 and 78 (the model's choices). -/
def Obligations.RemapAndLantern : Prop :=
  ∀ (c : Fin 192) (w : Who) (value : Word) (s : State), SMap.wf glbReset s.regs = true → SMap.wf coreReset (s.core c).regs = true →
    let k := s.core c
    let v := value.toNat
    let unit := bitsOf v 7 0
    let queued (i : Instr) (q : Sweep) : Prop := exec i s = .next { s with lanternQ := s.lanternQ ++ [q] }
    let refused (t : State) : Prop := bitOf (t.rd 0x90044) 8 = true ∧ t.lanternQ = s.lanternQ ∧ t.cores = s.cores
    let spare : Prop := k.ctx = none ∧ (k.role = 1 ∨ k.role = 3)
    let fenced (t : State) : Prop := (t.core c).ctx = none ∧ (t.core c).role = 3 ∧ (∀ i, ((t.core c).slot i).inst = none) ∧ (t.core c).car.state = .fenced
    (k.ctx = none → exec (.coreRemap c .abft) s = .next s ∧ exec (.coreRemap c .slow) s = .next s ∧ exec (.coreRemap c .fence) s = .next s) ∧
    (∀ part, k.ctx = none → ∃ t : State, exec (.coreRemap c (.condemned part)) s = .next t ∧ (t.core c).role = (if k.role < 2 then 3 else k.role) ∧
      (∀ e, e ≠ c → t.core e = s.core e) ∧ ∀ q, part = some q → bitOf ((t.core c).rd 0x20200) q.val = true ∧ (t.core c).modFence.getLsbD q.val = true) ∧
    (∀ x cause, k.ctx = some x → s.remapDue c cause = false → exec (.coreRemap c cause) s = .next s) ∧
    (∀ x cause sp, k.ctx = some x → s.remapDue c cause = true → k.role = 0 → s.spareFor c = some sp → ∃ t, exec (.coreRemap c cause) s = .next t ∧
      fenced t ∧ (t.core c).aliasTo = some sp ∧ (t.core sp).ctx = some x ∧ (t.core sp).role = 0 ∧
      ((∀ i n, (k.slot i).inst = some n → n.taken = []) → (t.core sp).dmem = k.dmem) ∧ (t.core sp).imem0 = k.imem0 ∧
      (t.core sp).imem1 = k.imem1 ∧ (t.core sp).mask = k.mask ∧ (t.core sp).stw.g = k.stw.g ∧ (t.core sp).stw.pc = k.stw.pc) ∧
    (∀ x, k.ctx = some x → k.role = 0 → s.spareFor c = none →
      exec (.coreRemap c .abft) s = .next s ∧ exec (.coreRemap c .slow) s = .next s ∧
      ∀ part, (s.ctx x).state = .opened → ∃ t, exec (.coreRemap c (.condemned part)) s = .next t ∧ (t.core c).role = 3 ∧ (t.ctx x).state = .parkedMid) ∧
    (planeWrites w = false → exec (.lanternCmd w value) s = .next s ∧ exec (.paceCal w value) s = .next s) ∧
    (planeWrites w = true →
      ((bitsOf v 22 16 = 0 ∨ s.lanternFull = true) → ∃ t, exec (.lanternCmd w value) s = .next t ∧ refused t) ∧
      (bitsOf v 22 16 ≠ 0 → s.lanternFull = false →
        (bitOf v 8 = true → unit < 4 → (s.toll (tollOf unit)).fenced = true →
          queued (.lanternCmd w value) { toll := true, unit := unit, groups := bitsOf v 22 16 }) ∧
        (bitOf v 8 = true → (4 ≤ unit ∨ (s.toll (tollOf unit)).fenced = false) → ∃ t, exec (.lanternCmd w value) s = .next t ∧ refused t) ∧
        (bitOf v 8 = false → unit = c.val → spare → queued (.lanternCmd w value) { toll := false, unit := unit, groups := bitsOf v 22 16 })) ∧
      (bitOf v 8 = true → s.lanternFull = false → unit = c.val → spare →
        queued (.paceCal w value) { toll := false, unit := unit, groups := 0, cal := true }) ∧
      (bitOf v 8 = true → s.lanternFull = true → ∃ t, exec (.paceCal w value) s = .next t ∧ t.rd 0x1000C = 1 + unit * 2 + 2 * 2 ^ 9 ∧
        t.lanternQ = s.lanternQ)) ∧
    (∀ q rest, s.lanternQ = q :: rest → s.mayRun q = true → s.lanternRun.length < 4 →
      exec .lanternSweepStart s = .next { s with lanternQ := rest, lanternRun := s.lanternRun ++ [q] }) ∧
    ((s.lanternQ = [] ∨ 4 ≤ s.lanternRun.length) → exec .lanternSweepStart s = .next s) ∧
    (∀ faults o d q, s.running (.core c) false = some q →
      let o1 := (sweepVerdict false q.groups faults o d).1
      let u := k.beats (groupBeats false q.groups)
      let fences (t : State) (bit : Nat) : Prop := (t.core c).role = 0 ∧ (t.core c).degraded = true ∧ bitOf ((t.core c).rd 0x20200) bit = true
      (faults = [] → o1 = o) ∧
      ∃ t : State, exec (.lanternSweepEnd (.core c) faults o d) s = .next t ∧ t.lanternRun = s.lanternRun.erase q ∧
        t.rd 0x90048 % 4096 = 1 + c.val * 4 + outcomeCode o1 * 2 ^ 10 ∧ (∀ e, e ≠ c → t.core e = s.core e) ∧ t.mem = s.mem ∧
        (o1 = .failed → t.core c = { u with role := 3 }) ∧
        (o1 = .pass → (t.core c).role = 1 ∧ (t.core c).modFence = 0 ∧ (t.core c).degraded = false ∧
          (t.core c).rd 0x20200 = k.rd 0x20200 - Nat.land (k.rd 0x20200) k.modFence.toNat) ∧
        (o1 = .degradedShadow → fences t 4) ∧ ∀ a : Fin 4, o1 = .degradedQuad a → fences t a.val) ∧
    (∀ (u : Fin 4) faults o d q, s.running (.toll u) false = some q → ∃ t : State, exec (.lanternSweepEnd (.toll u) faults o d) s = .next t ∧
      t.cores = s.cores ∧ t.lanternRun = s.lanternRun.erase q ∧ t.mem = s.mem ∧
      (t.toll u).passed = ((s.toll u).passed || (sweepVerdict true q.groups faults o d).1 == .pass)) ∧
    ∀ raw pace q, s.running (.core c) true = some q → ∃ t : State, exec (.paceCalEnd c raw pace) s = .next t ∧ t.lanternRun = s.lanternRun.erase q ∧
      (s.calFails c raw pace = false → (t.core c).correction = calTenths raw pace ∧ (t.core c).slowFenced = false ∧
        t.rd 0x1000C = 1 + c.val * 2 + (BitVec.ofInt 8 (calTenths raw pace)).toNat * 2 ^ 12) ∧
      ((s.calFails c raw pace = true ∨ 1080 * raw < 1000 * pace ∨ 1000 * pace < 920 * raw) → (t.core c).role = 3 ∧ t.rd 0x1000C = 1 + c.val * 2 + 2 ^ 9)

/-- R106, R392, R407, R411, R412: the snapshot commands, from the physical function or the Gatehouse alone. NOW asks for a snapshot of a
running training context; ACCEPT lets a tainted step stand and resumes its context; TAINT taints the open step by cause 5, an earlier
taint staying; RESTORE takes a closed context, or a parked one once closed, and one that another operation holds is refused with RESULT 8.
A restore that fails leaves RESULT; one that succeeds parks the context, reclaimed, at the boundary of the saved step. Where the spec
leaves the form open the clauses follow log entries 27 and 79 (the model's choices). -/
def Obligations.SnapshotCommands : Prop :=
  ∀ (w : Who) (x : Fin 64) (value : Word) (s : State),
    let k := s.ctx x
    let v := value.toNat
    let run : Prop := k.state = .opened ∨ k.state = .orphaned
    let snap (f : Snap) : Result := .next (s.setCtx x { k with snap := f })
    let refused : Result := snap { k.snap with result := 8 }
    (planeWrites w = false → exec (.snapNow w x) s = .next s ∧ exec (.accept w x) s = .next s ∧ exec (.taint w x) s = .next s ∧
      exec (.restore w x value) s = .next s) ∧
    (planeWrites w = true →
      (run → k.decode = false → s.snapEnabled x = true → exec (.snapNow w x) s = snap { k.snap with now := true }) ∧
      (¬ (run ∧ k.decode = false ∧ s.snapEnabled x = true) → exec (.snapNow w x) s = refused) ∧
      (k.state = .parkedBoundary → k.tainted = true → exec (.accept w x) s =
        .next (s.setCtx x { k with tainted := false, taintCause := 0, state := if k.orphaned then .parkedBoundary else .opened })) ∧
      (¬ (k.state = .parkedBoundary ∧ k.tainted = true) → exec (.accept w x) s = refused) ∧
      (run → k.decode = false → k.inStep = true → SMap.wf glbReset s.regs = true → ∃ t, exec (.taint w x) s = .next t ∧ t.mem = s.mem ∧
        t.ctx x = { k with taint := some (k.taint.getD (5, stOk)) } ∧
        (SMap.get (fun _ => []) t.faultLog (bitsOf (s.rd 0x90004) 15 0 % 1024)).getD 4 0 = 0x0B) ∧
      (¬ (run ∧ k.decode = false ∧ k.inStep = true) → exec (.taint w x) s = refused) ∧
      ((run ∨ k.snap.phase ≠ 0) → exec (.restore w x value) s = refused) ∧
      (k.state = .closed → k.snap.phase = 0 → bitOf v 9 = false →
        exec (.restore w x value) s = snap { k.snap with phase := 3, restoreFunc := bitsOf v 8 4 }) ∧
      ((k.state = .parkedBoundary ∨ k.state = .parkedMid) → k.snap.phase = 0 → bitOf v 9 = false → ∃ t, exec (.restore w x value) s = .next t ∧
        (t.ctx x).state = .closed ∧ (t.ctx x).snap.phase = 3 ∧ (∀ c, (t.core c).ctx ≠ some x) ∧ ∀ g ∈ t.regions, g.ctx ≠ x.val)) ∧
    ∀ (r : RestoreEnd) (d : Saved), (k.snap.phase ≠ 3 → exec (.restoreComplete x r d) s = .next s) ∧
      (k.snap.phase = 3 →
        (r ≠ .ok → ∃ t, exec (.restoreComplete x r d) s = .next t ∧ (t.ctx x).snap.phase = 0 ∧ (t.ctx x).snap.result = restoreCode r ∧ t.mem = s.mem ∧
          (t.ctx x).state = k.state) ∧
        (r = .ok → s.restoreInto x d = none → ∃ t, exec (.restoreComplete x r d) s = .next t ∧ (t.ctx x).snap.phase = 0 ∧ (t.ctx x).snap.result = 5) ∧
        (r = .ok → s.restoreInto x d ≠ none → ∃ t, exec (.restoreComplete x r d) s = .next t ∧ (t.ctx x).state = .parkedBoundary ∧
          (t.ctx x).step = some d.step ∧ (t.ctx x).reclaimed = true ∧ (t.ctx x).inStep = false ∧ (t.ctx x).snap.phase = 0 ∧ (t.ctx x).snap.result = 1))

/-- R427 to R432, Tables 16.5 and 16.6: a live update. BEGIN opens the slot that is not running, DATA writes into it, VERIFY makes it
valid when its header, digest, chain, signature and rollback level stand; ACTIVATE of a valid slot starts the pause, waits for an
emergency to end, or, under MODE 1, for the next power-up. The hand-off makes the new image the running trial, or its timeout leaves the
old one; COMMIT marks a trial committed and raises the fused count; ABANDON withdraws an activation, or invalidates the slot. GATE_UPDATE
and the answer carry the result; a request that does not fit the state of its type changes no image. Where the spec leaves the form open
the clauses follow log entry 81 (the model's choices). -/
def Obligations.LiveUpdate : Prop :=
  ∀ (m : Mgmt) (i : Fin 3) (s : State), SMap.wf glbReset s.regs = true →
    let k := s.image i
    let slot := k.slot k.inactive
    let gives (type : Nat) (c : Instr) (st result : Nat) (q : State → Prop) : Prop :=
      ∃ t, exec c s = .next t ∧ Replied m type result [] t ∧ Updated st i result t ∧ (∀ j, j ≠ i → t.image j = s.image j) ∧ q t
    let same (t : State) : Prop := t.gatehouse.images = s.gatehouse.images ∧ t.gatehouse.pausing = s.gatehouse.pausing
    (∀ total, Manages m 0x10 none s →
      (256 + bodyMax i + 8192 + 96 < total → gives 0x10 (.imageBegin m i.val total) s.updateState mgMalformed same) ∧
      (total ≤ 256 + bodyMax i + 8192 + 96 →
        (s.pendingImage i = true → gives 0x10 (.imageBegin m i.val total) s.updateState mgBusy same) ∧
        (s.pendingImage i = false → (∀ q, q ≠ i → (s.image q).opened = false) → gives 0x10 (.imageBegin m i.val total) 1 mgOk fun t =>
          (t.image i).opened = true ∧ (t.image i).slot k.inactive = { bytes := [], total := total, valid := false } ∧
          (t.image i).slot (!k.inactive) = k.slot (!k.inactive)))) ∧
    (∀ off data, Manages m 0x11 none s → ((List.finRange 3).find? fun q => (s.image q).opened) = some i → slot.bytes.wf = true →
      (data.length ≤ 4096 → off + data.length ≤ slot.total → gives 0x11 (.imageData m off data) 1 mgOk fun t =>
        (∀ n < data.length, ((t.image i).slot k.inactive).bytes.read (off + n) = data.getD n 0) ∧
        (∀ a, (a < off ∨ off + data.length ≤ a) → ((t.image i).slot k.inactive).bytes.read a = slot.bytes.read a)) ∧
      ((4096 < data.length ∨ slot.total < off + data.length) → gives 0x11 (.imageData m off data) s.updateState mgMalformed same)) ∧
    (∀ c, Manages m 0x12 none s → s.pendingImage i = false →
      (slot.verify i k.fused c = mgOk → gives 0x12 (.imageVerify m i.val c) 2 mgOk fun t => (t.image i).opened = false ∧
        (t.image i).slot k.inactive = { slot with valid := true } ∧ (t.image i).slot (!k.inactive) = k.slot (!k.inactive)) ∧
      (slot.verify i k.fused c ≠ mgOk → gives 0x12 (.imageVerify m i.val c) (if k.opened then 1 else 0) (slot.verify i k.fused c) fun t =>
        ((t.image i).slot k.inactive).valid = false)) ∧
    (Manages m 0x13 none s →
      (slot.valid = false → gives 0x13 (.imageActivate m i.val 0) s.updateState mgMalformed same) ∧
      (slot.valid = true → s.pendingImage i = false → gives 0x13 (.imageActivate m i.val 1) s.updateState mgOk fun t =>
        (t.image i).next = some k.inactive ∧ t.gatehouse.pausing = s.gatehouse.pausing) ∧
      (slot.valid = true → s.updating = true → gives 0x13 (.imageActivate m i.val 0) s.updateState mgBusy same) ∧
      (slot.valid = true → s.updating = false → k.trial = false →
        (k.misfit = true → gives 0x13 (.imageActivate m i.val 0) s.updateState mgIncompatible same) ∧
        (k.misfit = false → s.hearth.emergency = true → gives 0x13 (.imageActivate m i.val 0) 3 mgDeferred fun t => t.gatehouse.deferred = some i) ∧
        (k.misfit = false → s.hearth.emergency = false → gives 0x13 (.imageActivate m i.val 0) 4 mgOk fun t => t.gatehouse.pausing = some i))) ∧
    ((s.gatehouse.deferred = none ∨ s.hearth.emergency = true) → exec .deferredActivationStart s = .next s) ∧
    (s.gatehouse.deferred = some i → s.hearth.emergency = false → ∃ t, exec .deferredActivationStart s = .next t ∧
      t.gatehouse.pausing = some i ∧ t.gatehouse.deferred = none ∧ bitsOf (t.rd 0x1004) 2 0 = 4) ∧
    (s.gatehouse.pausing = some i → s.gatehouse.held = [] →
      (∀ us, ∃ t, exec (.handoffReady us) s = .next t ∧ (t.image i).running = some k.inactive ∧ (t.image i).trial = true ∧
        (t.image i).committed = k.committed ∧ (t.image i).fused = k.fused ∧ t.gatehouse.pausing = none ∧
        bitsOf (t.rd 0x1004) 2 0 = 0 ∧ bitsOf (t.rd 0x1004) 15 8 = mgOk ∧ bitsOf (t.rd 0x1004) 27 16 = min us 4095) ∧
      ∃ t, exec .handoffTimeout s = .next t ∧ t.gatehouse.images = s.gatehouse.images ∧ t.gatehouse.pausing = none ∧
        bitsOf (t.rd 0x1004) 15 8 = mgHandoffFailed ∧ 1800 ≤ bitsOf (t.rd 0x1004) 27 16 ∧ bitsOf (t.rd 0x1004) 27 16 ≤ 2000) ∧
    (Manages m 0x14 none s →
      (∀ b, k.running = some b → k.trial = true → gives 0x14 (.imageCommit m i.val) 0 mgOk fun t => (t.image i).committed = b ∧
        (t.image i).trial = false ∧ (t.image i).fused = max k.fused (k.slot b).rollback ∧ (t.image i).running = some b) ∧
      (k.trial = false → gives 0x14 (.imageCommit m i.val) s.updateState mgMalformed same)) ∧
    (Manages m 0x15 none s → s.gatehouse.pausing ≠ some i →
      (s.gatehouse.deferred = some i → gives 0x15 (.imageAbandon m i.val) 2 mgOk fun t => t.gatehouse.deferred = none ∧ t.gatehouse.images = s.gatehouse.images) ∧
      (s.gatehouse.deferred ≠ some i → k.next ≠ none → gives 0x15 (.imageAbandon m i.val) 2 mgOk fun t =>
        (t.image i).next = none ∧ (t.image i).slot k.inactive = slot) ∧
      (s.gatehouse.deferred ≠ some i → k.next = none → gives 0x15 (.imageAbandon m i.val) 0 mgOk fun t =>
        ((t.image i).slot k.inactive).valid = false ∧ (t.image i).opened = false ∧ (t.image i).running = k.running))

/-- R320, R383, R414 to R417, R420, R425, R426: management requests and sessions. Outside a TCP session a request is discarded; another
VERSION, a reserved byte and a requester that no anchor covers are answered so, and change nothing else. Register reads and writes are
those of the register map, MALFORMED outside it and UNAVAILABLE while their die has no power. A collector receives what is unacknowledged;
EMERGENCY_CLEAR ends a removal whose cause is gone; anchors are added, removed with their sessions, and cleared. An acknowledgement
removes every report up to its number. KEY_EXCHANGE opens a session while its transport has a place; IDE streams become secure in a DOE
session and lose it by a failure, which is reported. Where the spec leaves the form open the clauses follow log entries 80 and 82 (the
model's choices). -/
def Obligations.ManagementRequests : Prop :=
  ∀ (m : Mgmt) (s : State),
    let g := s.gatehouse
    let gives (type : Nat) (i : Instr) (result : Nat) (q : State → Prop) : Prop := ∃ t, exec i s = .next t ∧ Replied m type result [] t ∧ q t
    let gate (t : State) (g1 : Gate) : Prop := t = { s with gatehouse := g1, out := t.out }
    (∀ i type adding, IsRequest m i type adding → s.gateServes = true →
      let gets (result : Nat) : Prop := exec i s = .next { s with out := s.out ++ [.answer m.session (mgmtAnswer type m.seq result [])] }
      (g.session m.session = none → exec i s = .next s) ∧
      ∀ u, g.session m.session = some u → g.images[2].running ≠ none → (u.transport ≠ .tcp → exec i s = .next s) ∧
        (u.transport = .tcp → (m.version ≠ 1 → gets mgVersion) ∧ (m.version = 1 → (m.reservedNonzero = true → gets mgMalformed) ∧
          (m.reservedNonzero = false → g.denies u adding = true → gets mgDenied)))) ∧
    (∀ off sel, Manages m 1 none s → (badAccess off sel = true → gives 1 (.regRead m off sel) mgMalformed fun t => gate t g) ∧
      (badAccess off sel = false → (onComputeDie off = true → s.power.rails = false → gives 1 (.regRead m off sel) mgUnavailable fun t => gate t g) ∧
        ((onComputeDie off = false ∨ s.power.rails = true) → ∃ t, exec (.regRead m off sel) s = .next t ∧ t.mem = s.mem ∧
          Replied m 1 mgOk (leBytes 4 (s.readReg .gate sel (off / 4 * 4)).1) t))) ∧
    (∀ off sel value, Manages m 2 none s → ((badAccess off sel = true ∨ physOnly (off / 4 * 4) = true) →
        gives 2 (.regWrite m off sel value) mgMalformed fun t => gate t g) ∧
      ∀ u, badAccess off sel = false → physOnly (off / 4 * 4) = false → (onComputeDie off = false ∨ s.power.rails = true) →
        s.writeReg .gate sel (off / 4 * 4) value = .next u → gives 2 (.regWrite m off sel value) mgOk fun t => t = { u with out := t.out }) ∧
    (∀ addr, Manages m 0x20 none s → (addr.length ≠ 16 → gives 0x20 (.collectorSet m addr) mgMalformed fun t => gate t g) ∧
      (addr.length = 16 → gives 0x20 (.collectorSet m addr) mgOk fun t => gate t { g with collector := some addr } ∧
        ∀ p ∈ g.reports, Out.report p.1 p.2 ∈ t.out)) ∧
    (Manages m 0x30 none s → (s.hearth.removed = false → gives 0x30 (.emergencyClear m) mgOk fun t => gate t g) ∧
      (s.hearth.removed = true → s.causePersists = true → gives 0x30 (.emergencyClear m) mgCausePersists fun t => gate t g) ∧
      (s.hearth.removed = true → s.causePersists = false → gives 0x30 (.emergencyClear m) mgOk fun t => t.hearth.removed = false ∧
        t.hearth.conds[7] = false ∧ t.gatehouse = g ∧ t.power = s.power)) ∧
    (∀ hash, hash.length = 48 → Manages m 0x40 (some hash) s →
      (hash ∈ g.anchors → gives 0x40 (.anchorAdd m hash) mgOk fun t => gate t g) ∧
      (hash ∉ g.anchors → g.anchors.length < 4 → gives 0x40 (.anchorAdd m hash) mgOk fun t => gate t { g with anchors := g.anchors ++ [hash] }) ∧
      (hash ∉ g.anchors → 4 ≤ g.anchors.length → gives 0x40 (.anchorAdd m hash) mgMalformed fun t => gate t g)) ∧
    (∀ hash, hash.length = 48 → Manages m 0x41 none s → gives 0x41 (.anchorRemove m hash) mgOk fun t => t.gatehouse.anchors = g.anchors.erase hash ∧
      (∀ q ∈ t.gatehouse.sessions, q.anchored = true → q.root ≠ hash) ∧
      ∀ q ∈ g.sessions, (q.anchored = false ∨ q.root ≠ hash) → q ∈ t.gatehouse.sessions) ∧
    (Manages m 0x42 none s → gives 0x42 (.ownershipClear m) mgOk fun t => gate t { g with anchors := [], sessions := [] }) ∧
    (s.gateServes = true →
      (∀ seq, exec (.reportAck false seq) s = .next s) ∧
      (∀ seq, g.collector ≠ none → ∃ t, exec (.reportAck true seq) s = .next t ∧ t.gatehouse.reports = g.reports.filter (fun p => !seqUpTo p.1 seq.toNat) ∧
        t.mem = s.mem ∧ t.out = s.out) ∧
      (∀ p rest, g.collector ≠ none → g.reports = p :: rest → exec .reportResend s = .next { s with out := s.out ++ [.report p.1 p.2] }) ∧
      (∀ x mu root, let mine := g.sessions.filter fun q => q.transport == x
        (sessionLimit x ≤ mine.length → exec (.keyExchange x mu root) s = .next s) ∧
        (mine.length < sessionLimit x → ∃ t, exec (.keyExchange x mu root) s = .next t ∧ t.gatehouse.sessions = g.sessions ++
          [{ id := g.nextSession, transport := x, mutAuth := mu, root := root, anchored := mu && g.anchors.contains root }])) ∧
      (∀ n, ∃ t, exec (.endSession n) s = .next t ∧ t.gatehouse = { g with sessions := g.sessions.filter fun q => q.id != n }) ∧
      (∃ t, exec .getMeasurements s = .next t ∧ t = { s with out := t.out } ∧ t.out = s.out ++ [.measurements s.measurements]) ∧
      (∀ x, exec (.ideKm false x) s = .next s) ∧
      ∀ x, (∃ q ∈ g.sessions, q.transport = .doe) → ∃ t, exec (.ideKm true x) s = .next t ∧ t.gatehouse.ide = g.ide.set x true) ∧
    ∀ x : Fin 9, (g.ide[x] = false → exec (.ideIntegrityFailure x) s = .next s) ∧
      (g.ide[x] = true → ∃ t, exec (.ideIntegrityFailure x) s = .next t ∧ t.gatehouse.ide = g.ide.set x false ∧
        (g.nextReport, Report.ideFailure x.val) ∈ t.gatehouse.reports)

/-- R418, R421, Table 16.3: the baseboard port. A powered Gatehouse with its tables answers every row of Table 16.3 once, with the types,
commands, readings and FRU fields that the spec states and one value where it states none; a sensor beyond those of R418 and a command
beyond the table have their own completion codes. SetEventReceiver and the dynamic address are kept. Nothing else changes, and without its
tables the port is silent. Where the spec leaves the form open the clauses follow log entries 25 and 83 (the model's choices). -/
def Obligations.BaseboardPort : Prop :=
  ∀ (s : State) (n : Nat) (a c : Byte) (d : BitVec 7),
    let gets (i : Instr) (type cmd code : Nat) (data : List Nat) : Prop := exec i s = .next { s with out := s.out ++ [.pldm type cmd code data] }
    let open_ (i : Instr) (type cmd : Nat) : Prop := ∃ v : Nat, exec i s = .next { s with free := s.free + 1, out := s.out ++ [.pldm type cmd 0 [v]] }
    (s.portServes = true →
      open_ .gettid 0 2 ∧ open_ .getpldmversion 0 3 ∧ gets .getpldmtypes 0 4 0 [0, 2, 4] ∧
      (∃ l : List Nat, l.length = 11 ∧ gets .getpldmcommands 0 5 0 l) ∧ open_ .getpdrrepositoryinfo 2 0x50 ∧ open_ (.getpdr n) 2 0x51 ∧
      (1 ≤ n → n ≤ 7 → n ≠ 5 → ∃ v : Nat, s.numericSensor n = some v ∧ gets (.getsensorreading n) 2 0x11 0 [v]) ∧
      open_ (.getsensorreading 5) 2 0x11 ∧ ((n = 0 ∨ 7 < n) → gets (.getsensorreading n) 2 0x11 0x80 []) ∧
      gets (.getstatesensorreadings 1) 2 0x21 0 [b2n s.hearth.gate] ∧ gets (.getstatesensorreadings 2) 2 0x21 0 [b2n s.hearth.removed] ∧
      gets (.getstatesensorreadings 3) 2 0x21 0 [b2n s.hearth.leaking] ∧ gets (.getstatesensorreadings 4) 2 0x21 0 [b2n s.hearth.throttled] ∧
      ((n = 0 ∨ 4 < n) → gets (.getstatesensorreadings n) 2 0x21 0x80 []) ∧
      exec (.seteventreceiver a) s =
        .next { s with gatehouse := { s.gatehouse with receiver := some a }, out := s.out ++ [.pldm 2 4 0 []] } ∧
      open_ .getfrurecordtablemetadata 4 1 ∧ gets .getfrurecordtable 4 2 0 [s.mfg.variant, s.mfg.serial, s.mfg.date] ∧
      gets (.unsupportedPldmCmd a c) a.toNat c.toNat 5 [] ∧ exec (.mctpControl c) s = .next { s with out := s.out ++ [.mctpAnswer c] }) ∧
    (s.gateServes = true → exec (.i3cDynamicAddress d) s = .next { s with gatehouse := { s.gatehouse with i3c := d } }) ∧
    (s.portServes = false → exec .gettid s = .next s ∧ exec .getfrurecordtable s = .next s ∧ exec (.mctpControl c) s = .next s ∧
      exec (.getsensorreading n) s = .next s ∧ exec (.unsupportedPldmCmd a c) s = .next s)

/-- R324, R428, R434 to R442, R461, Tables 16.5 and 17.2: power. VAUX loads every image whose slot verifies, the committed one before the
other. The rails come on when VMAIN, the latch and the images allow, with islands at 0.72 V and the valve open: each core, Tollhouse and
channel that failed is fenced or erased and logged; else the cause is shown and nothing comes on. PERST_N's release samples the straps,
and the link comes up at an option of Table 12.1 within them. The module is ready once tested and linked, and says so. PERST_N's assertion
takes the link down, and resets every function of a ready module. Losing VAUX keeps the images, the anchors and what is fused. Where the
spec leaves the form open the clauses follow log entries 28, 81 and 84 (the model's choices). -/
def Obligations.PowerUp : Prop :=
  ∀ (s : State), SMap.wf glbReset s.regs = true →
    (s.power.vaux = true → ∀ ok, exec (.vauxUp ok) s = .next s) ∧
    (s.power.vaux = false → ∀ ok, ∃ t, exec (.vauxUp ok) s = .next t ∧ t.power.vaux = true ∧ bitsOf (t.rd 0x10000) 2 0 = 3 ∧ t.cores = s.cores ∧
      ∀ i : Fin 3, let k := s.image i
        let first := k.next.getD k.committed
        let good (b : Bool) : Bool := (k.slot b).loads i k.fused (ok.getD (2 * i.val + b2n b) false)
        (t.image i).running = (if good first then some first else if good (!first) then some (!first) else none) ∧
        (t.image i).fused = k.fused ∧ (t.image i).committed = k.committed ∧ (t.image i).next = none) ∧
    (∃ t, exec .vauxLoss s = .next t ∧ t.power = resetPower ∧ t.mem = [] ∧ t.mfg = s.mfg ∧ (∀ c, t.core c = resetCore (s.mfg.role c.val)) ∧
      t.gatehouse.anchors = s.gatehouse.anchors ∧
      t.gatehouse.sessions = [] ∧ ∀ i : Fin 3, (t.image i).running = none ∧ (t.image i).a = (s.image i).a ∧ (t.image i).b = (s.image i).b ∧
        (t.image i).fused = (s.image i).fused ∧ (t.image i).committed = (s.image i).committed) ∧
    (∀ mv b, (s.power.vaux = false ∨ s.power.rails = true) → exec (.railsEnable mv b) s = .next s) ∧
    (∀ mv b, s.power.vaux = true → s.power.rails = false →
      (s.waitCause mv ≠ 0 → ∃ t, exec (.railsEnable mv b) s = .next t ∧ t.power = s.power ∧ t.cores = s.cores ∧
        bitsOf (t.rd 0x10000) 6 4 = s.waitCause mv ∧ bitsOf (t.rd 0x10000) 2 0 = 3) ∧
      (s.waitCause mv = 0 → ∃ t, exec (.railsEnable mv b) s = .next t ∧ t.power.rails = true ∧ t.power.tested = true ∧ t.duty = 100 ∧
        bitsOf (t.rd 0x10000) 2 0 = 7 ∧ (∀ i, (t.island i).want = 720 ∧ (t.island i).base = 720) ∧ t.mem = s.mem ∧
        (∀ c : Fin 192, (s.core c).role ≠ 2 → b.coreFail.find? (fun p => p.1 == c) = some (c, .failed) → (t.core c).role = 3) ∧
        (∀ c : Fin 192, (s.core c).role ≠ 2 → c ∈ b.calFail → (∀ q ∈ b.coreFail, q.1 ≠ c) → (t.core c).role = 3) ∧
        (∀ c : Fin 192, (∀ q ∈ b.coreFail, q.1 ≠ c) → c ∉ b.calFail → (t.core c).role = (s.core c).role) ∧
        (∀ q ∈ b.tollFail, (t.toll q).fenced = true) ∧ ∀ q ∈ b.chanFail, (t.chan q).st = 2)) ∧
    (∀ strap width rate, (s.power.perst = true → exec (.perstRelease strap width rate) s = .next s) ∧
      (s.power.perst = false → exec (.perstRelease strap width rate) s = .next { s with
        power := if (width = 4 ∨ width = 8 ∨ width = 16) ∧ width ≤ (if strap = 3 then 16 else if strap = 2 then 8 else 4) ∧ 5 ≤ rate ∧ rate ≤ 7
          then { s.power with perst := true, width := width, rate := rate, link := s.power.rails }
          else { s.power with perst := true, width := 0, rate := 0, link := false } })) ∧
    (∀ a b, s.power.tested = true → s.power.perst = true → s.power.link = true → s.power.ready = false → ∃ t, exec (.moduleReady a b) s = .next t ∧
      t.power.ready = true ∧ bitsOf (t.rd 0x10000) 2 0 = 0 ∧ t.rd 0x10004 = min a 0xFFFF + min b 0xFFFF * 2 ^ 16 ∧ t.out = s.out ++ [.deviceReady] ∧
      t.cores = s.cores ∧ t.mem = s.mem) ∧
    (∀ a b, (s.power.tested = false ∨ s.power.perst = false ∨ s.power.link = false ∨ s.power.ready = true) → exec (.moduleReady a b) s = .next s) ∧
    ∃ t, exec .perstAssert s = .next t ∧ t.power.perst = false ∧ t.power.link = false ∧ t.power.ready = false ∧ t.power.rails = s.power.rails ∧
      (∀ i : Fin 9, t.gatehouse.ide[i] = false) ∧ (s.power.ready = true → ∀ f, (t.fn f).lease = .inactive) ∧
      (s.power.ready = false → t.fns = s.fns ∧ t.ctxs = s.ctxs)

/-- R4, R324, R340, R384, R386, R451, R452, R453: BAR0. A read returns the register through the function's selects and telemetry view,
zero where the function may not read, and one of a LO register latches its HI register; it changes nothing but latches. A write that is
not of four bytes, or that the identity block takes, is discarded. Selects hold their width; limits are clamped to their range by the
physical function and kept from others; HRTH_EVENT clears the bits written as 1. Where the spec leaves the form open the clauses follow
log entry 34 (the model's choices). -/
def Obligations.RegisterAccess : Prop :=
  ∀ (f : Fin 32) (off : Nat) (value : Word) (s : State), SMap.wf glbReset s.regs = true → SMap.wf fnReset (s.fn f).regs = true →
    SMap.wf noReg (s.fn f).latch = true →
    let sel := (s.fn f).selects
    let a := off / 4 * 4
    let v := value.toNat
    let put (o : Nat) : Result := exec (.registerWrite f o 0xF value) s
    (∃ t v, exec (.registerReadLoLatch f off) s = .next t ∧ t.out = s.out ++ [.regRead (some f.val) off v] ∧ t.regs = s.regs ∧ t.cores = s.cores ∧
      t.mem = s.mem ∧ (t.fn f).regs = (s.fn f).regs ∧ (∀ g, g ≠ f → t.fn g = s.fn g) ∧
      (s.mayRead (.fn f) sel a = false → v = 0) ∧
      (s.mayRead (.fn f) sel a = true → loRegs.contains (a - 4) = false → v = s.rawRead (.fn f) sel a) ∧
      (s.mayRead (.fn f) sel a = true → loRegs.contains a = false → loRegs.contains (a - 4) = true → v = Regs.rd noReg (s.fn f).latch a) ∧
      (s.mayRead (.fn f) sel a = true → loRegs.contains a = true → Regs.rd noReg (t.fn f).latch (a + 4) = s.rawRead (.fn f) sel (a + 4) % 2 ^ 32) ∧
      (loRegs.contains a = false → t.fns = s.fns)) ∧
    (∀ be, be ≠ 0xF → exec (.registerWrite f off be value) s = .next s) ∧
    (∀ o < 0x100, put o = .next s) ∧
    (∀ p ∈ [(0x10100, 256), (0x10104, 256), (0x10108, 64), (0x1010C, 4), (0x10110, 32)], ∃ t, put p.1 = .next t ∧ (t.fn f).rd p.1 = v % p.2 ∧
      t = { s with fns := t.fns } ∧ ∀ g, g ≠ f → t.fn g = s.fn g) ∧
    (∀ p ∈ [(0x70008, 500, 2800, 12), (0x70010, 850, 1550, 11), (0x90058, 1, 3600, 12), (0x5002C, 1, 10000, 14), (0x70030, 10, 1000, 10)],
      (f ≠ 0 → put p.1 = .next s) ∧
      (f = 0 → ∃ t, put p.1 = .next t ∧ t = { s with regs := t.regs } ∧ (∀ o, o ≠ p.1 → t.rd o = s.rd o) ∧
        t.rd p.1 % 2 ^ p.2.2.2 = clampNat p.2.1 p.2.2.1 (v % 2 ^ p.2.2.2))) ∧
    (f = 0 → ∃ t, put 0x70004 = .next t ∧ t.rd 0x70004 = s.rd 0x70004 - Nat.land (s.rd 0x70004) (v % 2 ^ 17) ∧ t.mem = s.mem) ∧
    (f ≠ 0 → put 0x70004 = .next s)

/-- A step takes the command at the front of the queue and is its effect on the state with the queue's rest; on an empty queue a
microsecond passes (the model's choice, log entry 26). No row of the table spells a command in bits, so placing a word changes nothing. -/
def Obligations.StepRunsTheFront : Prop :=
  (∀ (c : Instr) (rest : List Instr) (s : State), step { s with pending := c :: rest } = exec c { s with pending := rest }) ∧
    (∀ s : State, s.pending = [] → step s = .next s.tick ∧ s.tick.pending = [] ∧ s.tick.out = s.out) ∧
    ∀ (s : State) (nbits w : Nat), s.withFetchWord nbits w = s

/-- Every command of the table runs to a next state in every state of the block, and none puts a command into the queue or takes one from
it: no arm of the dispatch stops, on any operands. -/
def Obligations.EveryCommandCompletes : Prop :=
  ∀ (c : Instr) (s : State), ∃ t, exec c s = .next t ∧ t.pending = s.pending

/-- R429, R455: whatever command a step takes, in whatever state, the identity and capability registers read in every function as before,
and no image type's fused count goes down. -/
def Obligations.IdentityNeverChanges : Prop :=
  ∀ s t : State, step s = .next t → (∀ off, off < 0x100 → ∀ w sel, t.rawRead w sel off = s.rawRead w sel off) ∧
    (∀ off, off < 0x100 → ∀ w w' sel, t.rawRead w sel off = s.rawRead w' sel off) ∧ t.mfg = s.mfg ∧
    ∀ i : Fin 3, (s.image i).fused ≤ (t.image i).fused

/-- Every step keeps every memory, register block and table in its canonical form, so that equal contents are equal data. The form is the
model's own; what it stores are the memories of R6 and R7 and the registers of R449 to R453. -/
def Obligations.CanonicalKept : Prop :=
  ∀ s t : State, Canonical s → step s = .next t → Canonical t

/-- The state after reset has the canonical form. -/
def Obligations.CanonicalAtReset : Prop :=
  Canonical State.reset

/-- R113, R115, Tables 5.2 and 5.3: the decoder reads back every instruction that the tables allow from its word, with every operand at
every value; every 32-bit word that decodes is the word of what it decodes to, and that instruction is one the tables allow. -/
def Obligations.StewardWordsRoundTrip : Prop :=
  (∀ i : SInstr, i.wf = true → encodeSteward i < 2 ^ 32 ∧ decodeSteward (encodeSteward i) = some i) ∧
    ∀ (w : Nat) (i : SInstr), w < 2 ^ 32 → decodeSteward w = some i → i.wf = true ∧ encodeSteward i = w

/-- R141, Tables 6.1 and 6.5 to 6.12: the decoder reads back every tile command from its four 32-bit words, with every field at every
value; words that decode are those of what they decode to, so a bit that the layout does not name makes the words undecodable. -/
def Obligations.TileWordsRoundTrip : Prop :=
  (∀ c : TileCmd, let w := encodeTile c
    w.1 < 2 ^ 32 ∧ w.2.1 < 2 ^ 32 ∧ w.2.2.1 < 2 ^ 32 ∧ w.2.2.2 < 2 ^ 32 ∧ decodeTile w.1 w.2.1 w.2.2.1 w.2.2.2 = some c) ∧
    ∀ (w0 w1 w2 w3 : Nat) (c : TileCmd), decodeTile w0 w1 w2 w3 = some c → encodeTile c = (w0, w1, w2, w3)

/-- R115, R141: words written out by hand from the tables, and the two commands of the worked example of Chapter 6, decode to what they
stand for; a reserved bit, an unused function value and a shift by more than 31 decode to nothing. -/
def Obligations.WrittenWords : Prop :=
  decodeSteward 0x00430800 = some ⟨.add, 2, 3, 1, 0⟩ ∧ decodeSteward 0x40A4FFFF = some ⟨.addi, 5, 4, 0, 0xFFFF⟩ ∧
  decodeSteward 0x60C70010 = some ⟨.lw, 6, 7, 0, 0x10⟩ ∧ decodeSteward 0x8822FFFE = some ⟨.beq, 0, 1, 2, 0xFFFE⟩ ∧
  decodeSteward 0xA3E00005 = some ⟨.jal, 31, 0, 0, 5⟩ ∧ decodeSteward 0xA8221802 = some ⟨.fmulS, 1, 2, 3, 0⟩ ∧
  decodeSteward 0xFC000000 = some ⟨.halt, 0, 0, 0, 0⟩ ∧ decodeSteward 0x00430801 = none ∧ decodeSteward 0x50220020 = none ∧
  decodeSteward 0xA822180F = none ∧
  decodeTile 0x00030001 0x00000200 0x00000140 0x00420046 = some ⟨0, false, .opx 3 0 512 0 false 320 70 66⟩ ∧
  decodeTile 0x06050006 0x00002A0A 0x00010203 0 = some ⟨0, false, .drn 5 6 false true 2 42 0x10203⟩ ∧
  decodeTile 0x06052006 0x00002A0A 0x00010203 0 = none ∧ decodeTile 0x00000007 0 0 0 = none
end

