-- ==== Sys2Proof/Laws/Memory.lean ====
section
/-! SUPPORT. What the sparse maps and memories do: a read after a write, what a write leaves alone, and that every
operation keeps the canonical form. -/

namespace Sys2Proof.Machine

variable {α : Type}

@[simp] theorem SMap.get_nil (d : Nat → α) (k : Nat) : SMap.get d [] k = d k := rfl

theorem SMap.get_cons (d : Nat → α) (k' : Nat) (v : α) (m : SMap α) (k : Nat) :
    SMap.get d ((k', v) :: m) k = if k' = k then v else SMap.get d m k := rfl

variable [DecidableEq α]

theorem SMap.wfFrom_cons (d : Nat → α) (lo k : Nat) (v : α) (m : SMap α) :
    SMap.wfFrom d lo ((k, v) :: m) = true ↔ lo ≤ k ∧ v ≠ d k ∧ SMap.wfFrom d (k + 1) m = true := by
  simp [SMap.wfFrom, and_assoc]

@[simp] theorem SMap.wfFrom_nil (d : Nat → α) (lo : Nat) : SMap.wfFrom d lo [] = true := rfl
@[simp] theorem SMap.wf_nil (d : Nat → α) : SMap.wf d [] = true := rfl

/-- A canonical map from `lo` on is one from any lower key on. -/
theorem SMap.wfFrom_mono {d : Nat → α} {lo lo' : Nat} {m : SMap α} (h : lo' ≤ lo) (hm : SMap.wfFrom d lo m = true) :
    SMap.wfFrom d lo' m = true := by
  cases m with
  | nil => rfl
  | cons e m => obtain ⟨k, v⟩ := e; rw [SMap.wfFrom_cons] at *; exact ⟨h.trans hm.1, hm.2⟩

/-- Below its first key a canonical map holds the defaults. -/
theorem SMap.get_below {d : Nat → α} {lo k : Nat} {m : SMap α} (hm : SMap.wfFrom d lo m = true) (h : k < lo) :
    SMap.get d m k = d k := by
  induction m generalizing lo with
  | nil => rfl
  | cons e m ih =>
    obtain ⟨k', v⟩ := e
    rw [SMap.wfFrom_cons] at hm
    rw [SMap.get_cons, if_neg (by omega)]
    exact ih hm.2.2 (by omega)

theorem SMap.set_wfFrom {d : Nat → α} {lo k : Nat} {v : α} {m : SMap α} (hm : SMap.wfFrom d lo m = true) (h : lo ≤ k) :
    SMap.wfFrom d lo (SMap.set d m k v) = true := by
  induction m generalizing lo with
  | nil => unfold SMap.set; split <;> simp_all [SMap.wfFrom]
  | cons e m ih =>
    obtain ⟨k', v'⟩ := e
    rw [SMap.wfFrom_cons] at hm
    unfold SMap.set
    split
    · split <;> simp_all [SMap.wfFrom_cons]
    · split
      · split
        · exact SMap.wfFrom_mono (by omega) hm.2.2
        · simp_all [SMap.wfFrom_cons]
      · rw [SMap.wfFrom_cons]; exact ⟨hm.1, hm.2.1, ih hm.2.2 (by omega)⟩

/-- A write keeps the canonical form. -/
theorem SMap.set_wf {d : Nat → α} {m : SMap α} (hm : SMap.wf d m = true) (k : Nat) (v : α) : SMap.wf d (SMap.set d m k v) = true :=
  SMap.set_wfFrom hm (Nat.zero_le k)

theorem SMap.setAll_wf {d : Nat → α} (kvs : List (Nat × α)) {m : SMap α} (hm : SMap.wf d m = true) :
    SMap.wf d (SMap.setAll d m kvs) = true := by
  induction kvs generalizing m with
  | nil => exact hm
  | cons kv kvs ih => exact ih (SMap.set_wf hm _ _)

theorem SMap.get_set_from {d : Nat → α} {lo : Nat} {m : SMap α} (hm : SMap.wfFrom d lo m = true) (k : Nat) (v : α) (a : Nat) :
    SMap.get d (SMap.set d m k v) a = if a = k then v else SMap.get d m a := by
  induction m generalizing lo with
  | nil => unfold SMap.set; split <;> simp_all [SMap.get, eq_comm]
  | cons e m ih =>
    obtain ⟨k', v'⟩ := e
    rw [SMap.wfFrom_cons] at hm
    unfold SMap.set
    split
    · have hb (h : a = k) : SMap.get d ((k', v') :: m) a = d a := by
        rw [SMap.get_cons, if_neg (by omega), SMap.get_below hm.2.2 (by omega)]
      split
      · split
        · rename_i hv h; rw [hb h, hv, h]
        · rfl
      · rw [SMap.get_cons]; exact if_congr eq_comm rfl rfl
    · split
      · subst k'
        split
        · split
          · rename_i hv h; rw [hv, h, SMap.get_below hm.2.2 (by omega)]
          · rw [SMap.get_cons, if_neg (Ne.symm (by assumption))]
        · rw [SMap.get_cons, SMap.get_cons]
          by_cases h : a = k
          · rw [if_pos h.symm, if_pos h]
          · rw [if_neg (Ne.symm h), if_neg h, if_neg (Ne.symm h)]
      · rw [SMap.get_cons, SMap.get_cons, ih hm.2.2]
        by_cases h : k' = a
        · subst h; simp [Ne.symm (by assumption : ¬ k = k')]
        · simp [h]

/-- A read after a write to a canonical map. -/
theorem SMap.get_set {d : Nat → α} {m : SMap α} (hm : SMap.wf d m = true) (k : Nat) (v : α) (a : Nat) :
    SMap.get d (SMap.set d m k v) a = if a = k then v else SMap.get d m a := SMap.get_set_from hm k v a

/-- Two canonical maps that read the same are equal. -/
theorem SMap.ext_from {d : Nat → α} {lo : Nat} {m m' : SMap α} (hm : SMap.wfFrom d lo m = true) (hm' : SMap.wfFrom d lo m' = true)
    (h : ∀ a, SMap.get d m a = SMap.get d m' a) : m = m' := by
  induction m generalizing lo m' with
  | nil =>
    cases m' with
    | nil => rfl
    | cons e m' =>
      obtain ⟨k, v⟩ := e
      rw [SMap.wfFrom_cons] at hm'
      have := h k
      simp [SMap.get_cons] at this
      exact absurd this.symm hm'.2.1
  | cons e m ih =>
    obtain ⟨k, v⟩ := e
    rw [SMap.wfFrom_cons] at hm
    cases m' with
    | nil =>
      have := h k
      simp [SMap.get_cons] at this
      exact absurd this hm.2.1
    | cons e' m' =>
      obtain ⟨k', v'⟩ := e'
      rw [SMap.wfFrom_cons] at hm'
      have hk : k = k' := by
        rcases Nat.lt_trichotomy k k' with c | c | c
        · have := h k
          rw [SMap.get_cons, SMap.get_cons, if_pos rfl, if_neg (by omega), SMap.get_below hm'.2.2 (by omega)] at this
          exact absurd this hm.2.1
        · exact c
        · have := h k'
          rw [SMap.get_cons, SMap.get_cons, if_neg (by omega), if_pos rfl, SMap.get_below hm.2.2 (by omega)] at this
          exact absurd this.symm hm'.2.1
      subst hk
      have hv : v = v' := by have := h k; simpa [SMap.get_cons] using this
      subst hv
      rw [ih hm.2.2 hm'.2.2 fun a => ?_]
      by_cases c : k < a
      · have := h a
        rwa [SMap.get_cons, SMap.get_cons, if_neg (by omega), if_neg (by omega)] at this
      · rw [SMap.get_below hm.2.2 (by omega), SMap.get_below hm'.2.2 (by omega)]

theorem SMap.ext {d : Nat → α} {m m' : SMap α} (hm : SMap.wf d m = true) (hm' : SMap.wf d m' = true)
    (h : ∀ a, SMap.get d m a = SMap.get d m' a) : m = m' := SMap.ext_from hm hm' h

/- Memories. -/

/-- Entries kept by a test: the form stays, and a byte reads as before or as the default. -/
theorem SMap.filter_from {d : Nat → α} (p : Nat → Bool) {lo : Nat} {m : SMap α} (hm : SMap.wfFrom d lo m = true) :
    SMap.wfFrom d lo (m.filter fun c => p c.1) = true ∧
      ∀ a, SMap.get d (m.filter fun c => p c.1) a = if p a then SMap.get d m a else d a := by
  induction m generalizing lo with
  | nil => simp
  | cons e m ih =>
    obtain ⟨k, v⟩ := e
    rw [SMap.wfFrom_cons] at hm
    obtain ⟨h1, h2⟩ := ih hm.2.2
    by_cases hp : p k
    · simp only [List.filter_cons, hp, if_true, SMap.wfFrom_cons]
      refine ⟨⟨hm.1, hm.2.1, h1⟩, fun a => ?_⟩
      by_cases c : k = a
      · subst c; simp [SMap.get_cons, hp]
      · simp [SMap.get_cons, c, h2]
    · simp only [List.filter_cons, hp]
      refine ⟨SMap.wfFrom_mono (by omega) h1, fun a => ?_⟩
      by_cases c : k = a
      · subst c; simp [h2, hp]
      · simp [SMap.get_cons, c, h2]

/-- The first map ends before the second begins: the two together are canonical, and a key reads from its own. -/
theorem SMap.append_from {d : Nat → α} {lo hi : Nat} {m m' : SMap α} (hm : SMap.wfFrom d lo m = true) (hl : ∀ e ∈ m, e.1 < hi)
    (hlo : lo ≤ hi) (hm' : SMap.wfFrom d hi m' = true) :
    SMap.wfFrom d lo (m ++ m') = true ∧ ∀ a, SMap.get d (m ++ m') a = if a < hi then SMap.get d m a else SMap.get d m' a := by
  induction m generalizing lo with
  | nil =>
    refine ⟨SMap.wfFrom_mono hlo hm', fun a => ?_⟩
    by_cases c : a < hi
    · simp [c, SMap.get_below hm' c]
    · simp [c]
  | cons e m ih =>
    obtain ⟨k, v⟩ := e
    rw [SMap.wfFrom_cons] at hm
    have hk : k < hi := hl (k, v) (by simp)
    obtain ⟨h1, h2⟩ := ih (lo := k + 1) hm.2.2 (fun e he => hl e (by simp [he])) (by omega)
    simp only [List.cons_append, SMap.wfFrom_cons]
    refine ⟨⟨hm.1, hm.2.1, h1⟩, fun a => ?_⟩
    by_cases c : k = a
    · subst c; simp [SMap.get_cons, hk]
    · simp [SMap.get_cons, c, h2]

/-- The cells of a run of bytes: their form, where they end, and what they read as. -/
theorem Memory.cells_spec (a : Nat) (bs : List Byte) : SMap.wfFrom memDefault a (Memory.cells a bs) = true ∧
    (∀ e ∈ Memory.cells a bs, e.1 < a + bs.length) ∧
    ∀ b, SMap.get memDefault (Memory.cells a bs) b = if a ≤ b ∧ b < a + bs.length then bs.getD (b - a) 0 else 0 := by
  induction bs generalizing a with
  | nil => simp [Memory.cells, memDefault]
  | cons x bs ih =>
    obtain ⟨h1, h2, h3⟩ := ih (a + 1)
    have hb : SMap.get memDefault (Memory.cells (a + 1) bs) a = 0 := SMap.get_below h1 (by omega)
    have tail (b : Nat) (h : b ≠ a) : (if a + 1 ≤ b ∧ b < a + 1 + bs.length then bs.getD (b - (a + 1)) 0 else 0) =
        if a ≤ b ∧ b < a + (x :: bs).length then (x :: bs).getD (b - a) 0 else (0 : Byte) := by
      by_cases c : a < b
      · have e : b - a = (b - (a + 1)) + 1 := by omega
        rw [e, List.getD_cons_succ, List.length_cons]
        exact if_congr (by omega) rfl rfl
      · rw [if_neg (by omega), if_neg (by omega)]
    have hl : ∀ e ∈ Memory.cells (a + 1) bs, e.1 < a + (x :: bs).length := fun e he => by
      have := h2 e he; rw [List.length_cons]; omega
    unfold Memory.cells
    split
    · rename_i hx
      refine ⟨SMap.wfFrom_mono (by omega) h1, hl, fun b => ?_⟩
      by_cases c : b = a
      · subst c; simp [hb]; exact hx.symm
      · rw [h3, tail b c]
    · rename_i hx
      refine ⟨(SMap.wfFrom_cons ..).2 ⟨le_refl a, hx, h1⟩, fun e he => ?_, fun b => ?_⟩
      · rcases List.mem_cons.1 he with rfl | he
        · simp
        · exact hl e he
      · by_cases c : b = a
        · subst c; simp [SMap.get_cons]
        · rw [SMap.get_cons, if_neg (Ne.symm c), h3, tail b c]

theorem Memory.below_spec {m : Memory} (hm : m.wf = true) (a : Nat) : (m.below a).wf = true ∧ (∀ e ∈ m.below a, e.1 < a) ∧
    ∀ b, (m.below a).read b = if b < a then m.read b else 0 := by
  obtain ⟨h1, h2⟩ := SMap.filter_from (fun k => decide (k < a)) hm
  refine ⟨h1, fun e he => ?_, fun b => ?_⟩
  · have := (List.mem_filter.1 he).2; simpa using this
  · have := h2 b; simpa [Memory.below, Memory.read, memDefault] using this

theorem Memory.from_spec {m : Memory} (hm : m.wf = true) (a : Nat) : SMap.wfFrom memDefault a (m.from a) = true ∧
    ∀ b, (m.from a).read b = if a ≤ b then m.read b else 0 := by
  obtain ⟨h1, h2⟩ := SMap.filter_from (fun k => decide (a ≤ k)) hm
  refine ⟨?_, fun b => ?_⟩
  · have hall : ∀ e ∈ m.from a, a ≤ e.1 := fun e he => by have := (List.mem_filter.1 he).2; simpa using this
    have h1' : SMap.wfFrom memDefault 0 (m.from a) = true := h1
    generalize m.from a = l at *
    cases l with
    | nil => rfl
    | cons e l => obtain ⟨k, v⟩ := e; rw [SMap.wfFrom_cons] at *; exact ⟨hall (k, v) (by simp), h1'.2⟩
  · have := h2 b; simpa [Memory.from, Memory.read, memDefault] using this

/-- Writing a run of bytes keeps the canonical form. -/
theorem Memory.writeRun_wf {m : Memory} (hm : m.wf = true) (a : Nat) (bs : List Byte) : (m.writeRun a bs).wf = true := by
  obtain ⟨b1, b2, -⟩ := Memory.below_spec hm a
  obtain ⟨c1, c2, -⟩ := Memory.cells_spec a bs
  exact (SMap.append_from b1 b2 (by omega) (SMap.append_from c1 c2 (by omega) (Memory.from_spec hm _).1).1).1

/-- Every byte after a run is written: one of the run, or the one before. -/
theorem Memory.read_writeRun {m : Memory} (hm : m.wf = true) (a : Nat) (bs : List Byte) (b : Nat) :
    (m.writeRun a bs).read b = if a ≤ b ∧ b < a + bs.length then bs.getD (b - a) 0 else m.read b := by
  obtain ⟨b1, b2, b3⟩ := Memory.below_spec hm a
  obtain ⟨c1, c2, c3⟩ := Memory.cells_spec a bs
  obtain ⟨f1, f2⟩ := Memory.from_spec hm (a + bs.length)
  obtain ⟨i1, i2⟩ := SMap.append_from c1 c2 (by omega) f1
  obtain ⟨-, o2⟩ := SMap.append_from b1 b2 (by omega) i1
  have h := o2 b
  rw [i2, c3] at h
  have e1 : SMap.get memDefault (m.below a) b = _ := b3 b
  have e2 : SMap.get memDefault (m.from (a + bs.length)) b = _ := f2 b
  rw [e1, e2] at h
  refine Eq.trans h ?_
  by_cases h1 : b < a
  · rw [if_pos h1, if_pos h1, if_neg (by omega)]
  · rw [if_neg h1]
    by_cases h2 : b < a + bs.length
    · rw [if_pos h2, if_pos (by omega), if_pos (by omega)]
    · rw [if_neg h2, if_pos (by omega), if_neg (by omega)]

theorem Memory.runFrom_length (m : Memory) (a n : Nat) : (Memory.runFrom m a n).length = n := by
  induction n generalizing m a with
  | zero => cases m <;> rfl
  | succ n ih => rcases m with _ | ⟨⟨k, v⟩, m⟩ <;> simp only [Memory.runFrom] <;> (try split) <;> simp [ih]

/-- Walking the entries reads each byte of the run. -/
theorem Memory.runFrom_getD {m : Memory} {a : Nat} (hm : SMap.wfFrom memDefault a m = true) (n i : Nat) (hi : i < n) :
    (Memory.runFrom m a n).getD i 0 = m.read (a + i) := by
  induction n generalizing m a i with
  | zero => omega
  | succ n ih =>
    rcases m with _ | ⟨⟨k, v⟩, m⟩
    · cases i with
      | zero => rfl
      | succ i =>
        have := ih (m := []) (a := a + 1) rfl i (by omega)
        rw [Memory.runFrom, List.getD_cons_succ, this]; rfl
    · rw [SMap.wfFrom_cons] at hm
      unfold Memory.runFrom
      split
      · subst k
        cases i with
        | zero => simp [Memory.read, SMap.get_cons]
        | succ i =>
          rw [List.getD_cons_succ, ih hm.2.2 i (by omega)]
          simp only [Memory.read]
          rw [SMap.get_cons, if_neg (by omega)]
          congr 1; omega
      · have hw : SMap.wfFrom memDefault (a + 1) ((k, v) :: m) = true := (SMap.wfFrom_cons ..).2 ⟨by omega, hm.2⟩
        cases i with
        | zero => simp only [List.getD_cons_zero, Memory.read]; rw [Nat.add_zero, SMap.get_below hw (by omega)]
        | succ i =>
          rw [List.getD_cons_succ, ih hw i (by omega)]
          congr 1; omega

@[simp] theorem Memory.readRun_length (m : Memory) (a n : Nat) : (m.readRun a n).length = n := Memory.runFrom_length ..

/-- A run read from a canonical memory holds its bytes. -/
theorem Memory.readRun_getD {m : Memory} (hm : m.wf = true) (a : Nat) {n i : Nat} (hi : i < n) :
    (m.readRun a n).getD i 0 = m.read (a + i) := by
  obtain ⟨h1, h2⟩ := Memory.from_spec hm a
  rw [Memory.readRun, Memory.runFrom_getD h1 n i hi, h2, if_pos (by omega)]

/- Register blocks. -/

/-- A register reads what was written to it last, and a write changes no other. -/
theorem Regs.rd_wr {d : Nat → Word} {m : Regs} (hm : SMap.wf d m = true) (off v o : Nat) :
    Regs.rd d (Regs.wr d m off v) o = if o = off then v % 2 ^ 32 else Regs.rd d m o := by
  rw [Regs.rd, Regs.wr, SMap.get_set hm]
  split <;> simp [Regs.rd]

theorem Regs.wr_wf {d : Nat → Word} {m : Regs} (hm : SMap.wf d m = true) (off v : Nat) : SMap.wf d (Regs.wr d m off v) = true :=
  SMap.set_wf hm _ _

theorem Regs.bump64_wf {d : Nat → Word} {m : Regs} (hm : SMap.wf d m = true) (off n : Nat) : SMap.wf d (Regs.bump64 d m off n) = true :=
  Regs.wr_wf (Regs.wr_wf hm _ _) _ _

theorem Regs.wrBits_wf {d : Nat → Word} {m : Regs} (hm : SMap.wf d m = true) (off hi lo v : Nat) :
    SMap.wf d (Regs.wrBits d m off hi lo v) = true := Regs.wr_wf hm _ _

end Sys2Proof.Machine
end

