-- ==== Sys2Proof/Laws/State.lean ====
section
/-! SUPPORT. What each update of the state leaves alone, and what it gives back: one lemma per field and update. -/

namespace Sys2Proof.Machine

/- setCore. -/

@[simp] theorem State.setCore_time (s : State) (c : Fin 192) (k : Core) : (s.setCore c k).time = s.time := rfl
@[simp] theorem State.setCore_ctxs (s : State) (c : Fin 192) (k : Core) : (s.setCore c k).ctxs = s.ctxs := rfl
@[simp] theorem State.setCore_fns (s : State) (c : Fin 192) (k : Core) : (s.setCore c k).fns = s.fns := rfl
@[simp] theorem State.setCore_numVfs (s : State) (c : Fin 192) (k : Core) : (s.setCore c k).numVfs = s.numVfs := rfl
@[simp] theorem State.setCore_regs (s : State) (c : Fin 192) (k : Core) : (s.setCore c k).regs = s.regs := rfl
@[simp] theorem State.setCore_win (s : State) (c : Fin 192) (k : Core) : (s.setCore c k).win = s.win := rfl
@[simp] theorem State.setCore_stepSh (s : State) (c : Fin 192) (k : Core) : (s.setCore c k).stepSh = s.stepSh := rfl
@[simp] theorem State.setCore_hostPrev (s : State) (c : Fin 192) (k : Core) : (s.setCore c k).hostPrev = s.hostPrev := rfl
@[simp] theorem State.setCore_hostFirst (s : State) (c : Fin 192) (k : Core) : (s.setCore c k).hostFirst = s.hostFirst := rfl
@[simp] theorem State.setCore_hostCur (s : State) (c : Fin 192) (k : Core) : (s.setCore c k).hostCur = s.hostCur := rfl
@[simp] theorem State.setCore_mem (s : State) (c : Fin 192) (k : Core) : (s.setCore c k).mem = s.mem := rfl
@[simp] theorem State.setCore_marked (s : State) (c : Fin 192) (k : Core) : (s.setCore c k).marked = s.marked := rfl
@[simp] theorem State.setCore_regions (s : State) (c : Fin 192) (k : Core) : (s.setCore c k).regions = s.regions := rfl
@[simp] theorem State.setCore_dir (s : State) (c : Fin 192) (k : Core) : (s.setCore c k).dir = s.dir := rfl
@[simp] theorem State.setCore_refetches (s : State) (c : Fin 192) (k : Core) : (s.setCore c k).refetches = s.refetches := rfl
@[simp] theorem State.setCore_refetchNo (s : State) (c : Fin 192) (k : Core) : (s.setCore c k).refetchNo = s.refetchNo := rfl
@[simp] theorem State.setCore_meet (s : State) (c : Fin 192) (k : Core) : (s.setCore c k).meet = s.meet := rfl
@[simp] theorem State.setCore_chans (s : State) (c : Fin 192) (k : Core) : (s.setCore c k).chans = s.chans := rfl
@[simp] theorem State.setCore_svcQ (s : State) (c : Fin 192) (k : Core) : (s.setCore c k).svcQ = s.svcQ := rfl
@[simp] theorem State.setCore_sqs (s : State) (c : Fin 192) (k : Core) : (s.setCore c k).sqs = s.sqs := rfl
@[simp] theorem State.setCore_cqs (s : State) (c : Fin 192) (k : Core) : (s.setCore c k).cqs = s.cqs := rfl
@[simp] theorem State.setCore_streams (s : State) (c : Fin 192) (k : Core) : (s.setCore c k).streams = s.streams := rfl
@[simp] theorem State.setCore_cc (s : State) (c : Fin 192) (k : Core) : (s.setCore c k).cc = s.cc := rfl
@[simp] theorem State.setCore_ports (s : State) (c : Fin 192) (k : Core) : (s.setCore c k).ports = s.ports := rfl
@[simp] theorem State.setCore_banks (s : State) (c : Fin 192) (k : Core) : (s.setCore c k).banks = s.banks := rfl
@[simp] theorem State.setCore_fence (s : State) (c : Fin 192) (k : Core) : (s.setCore c k).fence = s.fence := rfl
@[simp] theorem State.setCore_member (s : State) (c : Fin 192) (k : Core) : (s.setCore c k).member = s.member := rfl
@[simp] theorem State.setCore_windows (s : State) (c : Fin 192) (k : Core) : (s.setCore c k).windows = s.windows := rfl
@[simp] theorem State.setCore_winGen (s : State) (c : Fin 192) (k : Core) : (s.setCore c k).winGen = s.winGen := rfl
@[simp] theorem State.setCore_txQ (s : State) (c : Fin 192) (k : Core) : (s.setCore c k).txQ = s.txQ := rfl
@[simp] theorem State.setCore_inbox (s : State) (c : Fin 192) (k : Core) : (s.setCore c k).inbox = s.inbox := rfl
@[simp] theorem State.setCore_awaiting (s : State) (c : Fin 192) (k : Core) : (s.setCore c k).awaiting = s.awaiting := rfl
@[simp] theorem State.setCore_streamSeq (s : State) (c : Fin 192) (k : Core) : (s.setCore c k).streamSeq = s.streamSeq := rfl
@[simp] theorem State.setCore_flowNo (s : State) (c : Fin 192) (k : Core) : (s.setCore c k).flowNo = s.flowNo := rfl
@[simp] theorem State.setCore_tolls (s : State) (c : Fin 192) (k : Core) : (s.setCore c k).tolls = s.tolls := rfl
@[simp] theorem State.setCore_layers (s : State) (c : Fin 192) (k : Core) : (s.setCore c k).layers = s.layers := rfl
@[simp] theorem State.setCore_layerTab (s : State) (c : Fin 192) (k : Core) : (s.setCore c k).layerTab = s.layerTab := rfl
@[simp] theorem State.setCore_ruleTab (s : State) (c : Fin 192) (k : Core) : (s.setCore c k).ruleTab = s.ruleTab := rfl
@[simp] theorem State.setCore_nextTabs (s : State) (c : Fin 192) (k : Core) : (s.setCore c k).nextTabs = s.nextTabs := rfl
@[simp] theorem State.setCore_lossGate (s : State) (c : Fin 192) (k : Core) : (s.setCore c k).lossGate = s.lossGate := rfl
@[simp] theorem State.setCore_tollRegs (s : State) (c : Fin 192) (k : Core) : (s.setCore c k).tollRegs = s.tollRegs := rfl
@[simp] theorem State.setCore_guardPermits (s : State) (c : Fin 192) (k : Core) : (s.setCore c k).guardPermits = s.guardPermits := rfl
@[simp] theorem State.setCore_moments (s : State) (c : Fin 192) (k : Core) : (s.setCore c k).moments = s.moments := rfl
@[simp] theorem State.setCore_lanternQ (s : State) (c : Fin 192) (k : Core) : (s.setCore c k).lanternQ = s.lanternQ := rfl
@[simp] theorem State.setCore_lanternRun (s : State) (c : Fin 192) (k : Core) : (s.setCore c k).lanternRun = s.lanternRun := rfl
@[simp] theorem State.setCore_faultLog (s : State) (c : Fin 192) (k : Core) : (s.setCore c k).faultLog = s.faultLog := rfl
@[simp] theorem State.setCore_hearth (s : State) (c : Fin 192) (k : Core) : (s.setCore c k).hearth = s.hearth := rfl
@[simp] theorem State.setCore_power (s : State) (c : Fin 192) (k : Core) : (s.setCore c k).power = s.power := rfl
@[simp] theorem State.setCore_mfg (s : State) (c : Fin 192) (k : Core) : (s.setCore c k).mfg = s.mfg := rfl
@[simp] theorem State.setCore_gatehouse (s : State) (c : Fin 192) (k : Core) : (s.setCore c k).gatehouse = s.gatehouse := rfl
@[simp] theorem State.setCore_free (s : State) (c : Fin 192) (k : Core) : (s.setCore c k).free = s.free := rfl
@[simp] theorem State.setCore_out (s : State) (c : Fin 192) (k : Core) : (s.setCore c k).out = s.out := rfl
@[simp] theorem State.setCore_pending (s : State) (c : Fin 192) (k : Core) : (s.setCore c k).pending = s.pending := rfl
@[simp] theorem State.core_setCore (s : State) (c : Fin 192) (k : Core) : (s.setCore c k).core c = k := Vector.getElem_set_self _
theorem State.core_setCore_ne (s : State) (c : Fin 192) (k : Core) {q : Fin 192} (h : c ≠ q) : (s.setCore c k).core q = s.core q :=
  Vector.getElem_set_ne c.isLt q.isLt fun h2 => h (Fin.ext h2)
@[simp] theorem State.ctx_setCore (s : State) (c : Fin 192) (k : Core) (q : Fin 64) : (s.setCore c k).ctx q = s.ctx q := rfl
@[simp] theorem State.fn_setCore (s : State) (c : Fin 192) (k : Core) (q : Fin 32) : (s.setCore c k).fn q = s.fn q := rfl
@[simp] theorem State.chan_setCore (s : State) (c : Fin 192) (k : Core) (q : Fin 208) : (s.setCore c k).chan q = s.chan q := rfl
@[simp] theorem State.port_setCore (s : State) (c : Fin 192) (k : Core) (q : Fin 36) : (s.setCore c k).port q = s.port q := rfl
@[simp] theorem State.bank_setCore (s : State) (c : Fin 192) (k : Core) (q : Fin 2) : (s.setCore c k).bank q = s.bank q := rfl
@[simp] theorem State.sq_setCore (s : State) (c : Fin 192) (k : Core) (q : Fin 256) : (s.setCore c k).sq q = s.sq q := rfl
@[simp] theorem State.cq_setCore (s : State) (c : Fin 192) (k : Core) (q : Fin 256) : (s.setCore c k).cq q = s.cq q := rfl
@[simp] theorem State.toll_setCore (s : State) (c : Fin 192) (k : Core) (q : Fin 4) : (s.setCore c k).toll q = s.toll q := rfl

/- setCtx. -/

@[simp] theorem State.setCtx_time (s : State) (x : Fin 64) (k : Ctx) : (s.setCtx x k).time = s.time := rfl
@[simp] theorem State.setCtx_cores (s : State) (x : Fin 64) (k : Ctx) : (s.setCtx x k).cores = s.cores := rfl
@[simp] theorem State.setCtx_fns (s : State) (x : Fin 64) (k : Ctx) : (s.setCtx x k).fns = s.fns := rfl
@[simp] theorem State.setCtx_numVfs (s : State) (x : Fin 64) (k : Ctx) : (s.setCtx x k).numVfs = s.numVfs := rfl
@[simp] theorem State.setCtx_regs (s : State) (x : Fin 64) (k : Ctx) : (s.setCtx x k).regs = s.regs := rfl
@[simp] theorem State.setCtx_win (s : State) (x : Fin 64) (k : Ctx) : (s.setCtx x k).win = s.win := rfl
@[simp] theorem State.setCtx_stepSh (s : State) (x : Fin 64) (k : Ctx) : (s.setCtx x k).stepSh = s.stepSh := rfl
@[simp] theorem State.setCtx_hostPrev (s : State) (x : Fin 64) (k : Ctx) : (s.setCtx x k).hostPrev = s.hostPrev := rfl
@[simp] theorem State.setCtx_hostFirst (s : State) (x : Fin 64) (k : Ctx) : (s.setCtx x k).hostFirst = s.hostFirst := rfl
@[simp] theorem State.setCtx_hostCur (s : State) (x : Fin 64) (k : Ctx) : (s.setCtx x k).hostCur = s.hostCur := rfl
@[simp] theorem State.setCtx_mem (s : State) (x : Fin 64) (k : Ctx) : (s.setCtx x k).mem = s.mem := rfl
@[simp] theorem State.setCtx_marked (s : State) (x : Fin 64) (k : Ctx) : (s.setCtx x k).marked = s.marked := rfl
@[simp] theorem State.setCtx_regions (s : State) (x : Fin 64) (k : Ctx) : (s.setCtx x k).regions = s.regions := rfl
@[simp] theorem State.setCtx_dir (s : State) (x : Fin 64) (k : Ctx) : (s.setCtx x k).dir = s.dir := rfl
@[simp] theorem State.setCtx_refetches (s : State) (x : Fin 64) (k : Ctx) : (s.setCtx x k).refetches = s.refetches := rfl
@[simp] theorem State.setCtx_refetchNo (s : State) (x : Fin 64) (k : Ctx) : (s.setCtx x k).refetchNo = s.refetchNo := rfl
@[simp] theorem State.setCtx_meet (s : State) (x : Fin 64) (k : Ctx) : (s.setCtx x k).meet = s.meet := rfl
@[simp] theorem State.setCtx_chans (s : State) (x : Fin 64) (k : Ctx) : (s.setCtx x k).chans = s.chans := rfl
@[simp] theorem State.setCtx_svcQ (s : State) (x : Fin 64) (k : Ctx) : (s.setCtx x k).svcQ = s.svcQ := rfl
@[simp] theorem State.setCtx_sqs (s : State) (x : Fin 64) (k : Ctx) : (s.setCtx x k).sqs = s.sqs := rfl
@[simp] theorem State.setCtx_cqs (s : State) (x : Fin 64) (k : Ctx) : (s.setCtx x k).cqs = s.cqs := rfl
@[simp] theorem State.setCtx_streams (s : State) (x : Fin 64) (k : Ctx) : (s.setCtx x k).streams = s.streams := rfl
@[simp] theorem State.setCtx_cc (s : State) (x : Fin 64) (k : Ctx) : (s.setCtx x k).cc = s.cc := rfl
@[simp] theorem State.setCtx_ports (s : State) (x : Fin 64) (k : Ctx) : (s.setCtx x k).ports = s.ports := rfl
@[simp] theorem State.setCtx_banks (s : State) (x : Fin 64) (k : Ctx) : (s.setCtx x k).banks = s.banks := rfl
@[simp] theorem State.setCtx_fence (s : State) (x : Fin 64) (k : Ctx) : (s.setCtx x k).fence = s.fence := rfl
@[simp] theorem State.setCtx_member (s : State) (x : Fin 64) (k : Ctx) : (s.setCtx x k).member = s.member := rfl
@[simp] theorem State.setCtx_windows (s : State) (x : Fin 64) (k : Ctx) : (s.setCtx x k).windows = s.windows := rfl
@[simp] theorem State.setCtx_winGen (s : State) (x : Fin 64) (k : Ctx) : (s.setCtx x k).winGen = s.winGen := rfl
@[simp] theorem State.setCtx_txQ (s : State) (x : Fin 64) (k : Ctx) : (s.setCtx x k).txQ = s.txQ := rfl
@[simp] theorem State.setCtx_inbox (s : State) (x : Fin 64) (k : Ctx) : (s.setCtx x k).inbox = s.inbox := rfl
@[simp] theorem State.setCtx_awaiting (s : State) (x : Fin 64) (k : Ctx) : (s.setCtx x k).awaiting = s.awaiting := rfl
@[simp] theorem State.setCtx_streamSeq (s : State) (x : Fin 64) (k : Ctx) : (s.setCtx x k).streamSeq = s.streamSeq := rfl
@[simp] theorem State.setCtx_flowNo (s : State) (x : Fin 64) (k : Ctx) : (s.setCtx x k).flowNo = s.flowNo := rfl
@[simp] theorem State.setCtx_tolls (s : State) (x : Fin 64) (k : Ctx) : (s.setCtx x k).tolls = s.tolls := rfl
@[simp] theorem State.setCtx_layers (s : State) (x : Fin 64) (k : Ctx) : (s.setCtx x k).layers = s.layers := rfl
@[simp] theorem State.setCtx_layerTab (s : State) (x : Fin 64) (k : Ctx) : (s.setCtx x k).layerTab = s.layerTab := rfl
@[simp] theorem State.setCtx_ruleTab (s : State) (x : Fin 64) (k : Ctx) : (s.setCtx x k).ruleTab = s.ruleTab := rfl
@[simp] theorem State.setCtx_nextTabs (s : State) (x : Fin 64) (k : Ctx) : (s.setCtx x k).nextTabs = s.nextTabs := rfl
@[simp] theorem State.setCtx_lossGate (s : State) (x : Fin 64) (k : Ctx) : (s.setCtx x k).lossGate = s.lossGate := rfl
@[simp] theorem State.setCtx_tollRegs (s : State) (x : Fin 64) (k : Ctx) : (s.setCtx x k).tollRegs = s.tollRegs := rfl
@[simp] theorem State.setCtx_guardPermits (s : State) (x : Fin 64) (k : Ctx) : (s.setCtx x k).guardPermits = s.guardPermits := rfl
@[simp] theorem State.setCtx_moments (s : State) (x : Fin 64) (k : Ctx) : (s.setCtx x k).moments = s.moments := rfl
@[simp] theorem State.setCtx_lanternQ (s : State) (x : Fin 64) (k : Ctx) : (s.setCtx x k).lanternQ = s.lanternQ := rfl
@[simp] theorem State.setCtx_lanternRun (s : State) (x : Fin 64) (k : Ctx) : (s.setCtx x k).lanternRun = s.lanternRun := rfl
@[simp] theorem State.setCtx_faultLog (s : State) (x : Fin 64) (k : Ctx) : (s.setCtx x k).faultLog = s.faultLog := rfl
@[simp] theorem State.setCtx_hearth (s : State) (x : Fin 64) (k : Ctx) : (s.setCtx x k).hearth = s.hearth := rfl
@[simp] theorem State.setCtx_power (s : State) (x : Fin 64) (k : Ctx) : (s.setCtx x k).power = s.power := rfl
@[simp] theorem State.setCtx_mfg (s : State) (x : Fin 64) (k : Ctx) : (s.setCtx x k).mfg = s.mfg := rfl
@[simp] theorem State.setCtx_gatehouse (s : State) (x : Fin 64) (k : Ctx) : (s.setCtx x k).gatehouse = s.gatehouse := rfl
@[simp] theorem State.setCtx_free (s : State) (x : Fin 64) (k : Ctx) : (s.setCtx x k).free = s.free := rfl
@[simp] theorem State.setCtx_out (s : State) (x : Fin 64) (k : Ctx) : (s.setCtx x k).out = s.out := rfl
@[simp] theorem State.setCtx_pending (s : State) (x : Fin 64) (k : Ctx) : (s.setCtx x k).pending = s.pending := rfl
@[simp] theorem State.core_setCtx (s : State) (x : Fin 64) (k : Ctx) (q : Fin 192) : (s.setCtx x k).core q = s.core q := rfl
@[simp] theorem State.ctx_setCtx (s : State) (x : Fin 64) (k : Ctx) : (s.setCtx x k).ctx x = k := Vector.getElem_set_self _
theorem State.ctx_setCtx_ne (s : State) (x : Fin 64) (k : Ctx) {q : Fin 64} (h : x ≠ q) : (s.setCtx x k).ctx q = s.ctx q :=
  Vector.getElem_set_ne x.isLt q.isLt fun h2 => h (Fin.ext h2)
@[simp] theorem State.fn_setCtx (s : State) (x : Fin 64) (k : Ctx) (q : Fin 32) : (s.setCtx x k).fn q = s.fn q := rfl
@[simp] theorem State.chan_setCtx (s : State) (x : Fin 64) (k : Ctx) (q : Fin 208) : (s.setCtx x k).chan q = s.chan q := rfl
@[simp] theorem State.port_setCtx (s : State) (x : Fin 64) (k : Ctx) (q : Fin 36) : (s.setCtx x k).port q = s.port q := rfl
@[simp] theorem State.bank_setCtx (s : State) (x : Fin 64) (k : Ctx) (q : Fin 2) : (s.setCtx x k).bank q = s.bank q := rfl
@[simp] theorem State.sq_setCtx (s : State) (x : Fin 64) (k : Ctx) (q : Fin 256) : (s.setCtx x k).sq q = s.sq q := rfl
@[simp] theorem State.cq_setCtx (s : State) (x : Fin 64) (k : Ctx) (q : Fin 256) : (s.setCtx x k).cq q = s.cq q := rfl
@[simp] theorem State.toll_setCtx (s : State) (x : Fin 64) (k : Ctx) (q : Fin 4) : (s.setCtx x k).toll q = s.toll q := rfl

/- modFn. -/

@[simp] theorem State.modFn_time (s : State) (f : Fin 32) (g : Fn → Fn) : (s.modFn f g).time = s.time := rfl
@[simp] theorem State.modFn_cores (s : State) (f : Fin 32) (g : Fn → Fn) : (s.modFn f g).cores = s.cores := rfl
@[simp] theorem State.modFn_ctxs (s : State) (f : Fin 32) (g : Fn → Fn) : (s.modFn f g).ctxs = s.ctxs := rfl
@[simp] theorem State.modFn_numVfs (s : State) (f : Fin 32) (g : Fn → Fn) : (s.modFn f g).numVfs = s.numVfs := rfl
@[simp] theorem State.modFn_regs (s : State) (f : Fin 32) (g : Fn → Fn) : (s.modFn f g).regs = s.regs := rfl
@[simp] theorem State.modFn_win (s : State) (f : Fin 32) (g : Fn → Fn) : (s.modFn f g).win = s.win := rfl
@[simp] theorem State.modFn_stepSh (s : State) (f : Fin 32) (g : Fn → Fn) : (s.modFn f g).stepSh = s.stepSh := rfl
@[simp] theorem State.modFn_hostPrev (s : State) (f : Fin 32) (g : Fn → Fn) : (s.modFn f g).hostPrev = s.hostPrev := rfl
@[simp] theorem State.modFn_hostFirst (s : State) (f : Fin 32) (g : Fn → Fn) : (s.modFn f g).hostFirst = s.hostFirst := rfl
@[simp] theorem State.modFn_hostCur (s : State) (f : Fin 32) (g : Fn → Fn) : (s.modFn f g).hostCur = s.hostCur := rfl
@[simp] theorem State.modFn_mem (s : State) (f : Fin 32) (g : Fn → Fn) : (s.modFn f g).mem = s.mem := rfl
@[simp] theorem State.modFn_marked (s : State) (f : Fin 32) (g : Fn → Fn) : (s.modFn f g).marked = s.marked := rfl
@[simp] theorem State.modFn_regions (s : State) (f : Fin 32) (g : Fn → Fn) : (s.modFn f g).regions = s.regions := rfl
@[simp] theorem State.modFn_dir (s : State) (f : Fin 32) (g : Fn → Fn) : (s.modFn f g).dir = s.dir := rfl
@[simp] theorem State.modFn_refetches (s : State) (f : Fin 32) (g : Fn → Fn) : (s.modFn f g).refetches = s.refetches := rfl
@[simp] theorem State.modFn_refetchNo (s : State) (f : Fin 32) (g : Fn → Fn) : (s.modFn f g).refetchNo = s.refetchNo := rfl
@[simp] theorem State.modFn_meet (s : State) (f : Fin 32) (g : Fn → Fn) : (s.modFn f g).meet = s.meet := rfl
@[simp] theorem State.modFn_chans (s : State) (f : Fin 32) (g : Fn → Fn) : (s.modFn f g).chans = s.chans := rfl
@[simp] theorem State.modFn_svcQ (s : State) (f : Fin 32) (g : Fn → Fn) : (s.modFn f g).svcQ = s.svcQ := rfl
@[simp] theorem State.modFn_sqs (s : State) (f : Fin 32) (g : Fn → Fn) : (s.modFn f g).sqs = s.sqs := rfl
@[simp] theorem State.modFn_cqs (s : State) (f : Fin 32) (g : Fn → Fn) : (s.modFn f g).cqs = s.cqs := rfl
@[simp] theorem State.modFn_streams (s : State) (f : Fin 32) (g : Fn → Fn) : (s.modFn f g).streams = s.streams := rfl
@[simp] theorem State.modFn_cc (s : State) (f : Fin 32) (g : Fn → Fn) : (s.modFn f g).cc = s.cc := rfl
@[simp] theorem State.modFn_ports (s : State) (f : Fin 32) (g : Fn → Fn) : (s.modFn f g).ports = s.ports := rfl
@[simp] theorem State.modFn_banks (s : State) (f : Fin 32) (g : Fn → Fn) : (s.modFn f g).banks = s.banks := rfl
@[simp] theorem State.modFn_fence (s : State) (f : Fin 32) (g : Fn → Fn) : (s.modFn f g).fence = s.fence := rfl
@[simp] theorem State.modFn_member (s : State) (f : Fin 32) (g : Fn → Fn) : (s.modFn f g).member = s.member := rfl
@[simp] theorem State.modFn_windows (s : State) (f : Fin 32) (g : Fn → Fn) : (s.modFn f g).windows = s.windows := rfl
@[simp] theorem State.modFn_winGen (s : State) (f : Fin 32) (g : Fn → Fn) : (s.modFn f g).winGen = s.winGen := rfl
@[simp] theorem State.modFn_txQ (s : State) (f : Fin 32) (g : Fn → Fn) : (s.modFn f g).txQ = s.txQ := rfl
@[simp] theorem State.modFn_inbox (s : State) (f : Fin 32) (g : Fn → Fn) : (s.modFn f g).inbox = s.inbox := rfl
@[simp] theorem State.modFn_awaiting (s : State) (f : Fin 32) (g : Fn → Fn) : (s.modFn f g).awaiting = s.awaiting := rfl
@[simp] theorem State.modFn_streamSeq (s : State) (f : Fin 32) (g : Fn → Fn) : (s.modFn f g).streamSeq = s.streamSeq := rfl
@[simp] theorem State.modFn_flowNo (s : State) (f : Fin 32) (g : Fn → Fn) : (s.modFn f g).flowNo = s.flowNo := rfl
@[simp] theorem State.modFn_tolls (s : State) (f : Fin 32) (g : Fn → Fn) : (s.modFn f g).tolls = s.tolls := rfl
@[simp] theorem State.modFn_layers (s : State) (f : Fin 32) (g : Fn → Fn) : (s.modFn f g).layers = s.layers := rfl
@[simp] theorem State.modFn_layerTab (s : State) (f : Fin 32) (g : Fn → Fn) : (s.modFn f g).layerTab = s.layerTab := rfl
@[simp] theorem State.modFn_ruleTab (s : State) (f : Fin 32) (g : Fn → Fn) : (s.modFn f g).ruleTab = s.ruleTab := rfl
@[simp] theorem State.modFn_nextTabs (s : State) (f : Fin 32) (g : Fn → Fn) : (s.modFn f g).nextTabs = s.nextTabs := rfl
@[simp] theorem State.modFn_lossGate (s : State) (f : Fin 32) (g : Fn → Fn) : (s.modFn f g).lossGate = s.lossGate := rfl
@[simp] theorem State.modFn_tollRegs (s : State) (f : Fin 32) (g : Fn → Fn) : (s.modFn f g).tollRegs = s.tollRegs := rfl
@[simp] theorem State.modFn_guardPermits (s : State) (f : Fin 32) (g : Fn → Fn) : (s.modFn f g).guardPermits = s.guardPermits := rfl
@[simp] theorem State.modFn_moments (s : State) (f : Fin 32) (g : Fn → Fn) : (s.modFn f g).moments = s.moments := rfl
@[simp] theorem State.modFn_lanternQ (s : State) (f : Fin 32) (g : Fn → Fn) : (s.modFn f g).lanternQ = s.lanternQ := rfl
@[simp] theorem State.modFn_lanternRun (s : State) (f : Fin 32) (g : Fn → Fn) : (s.modFn f g).lanternRun = s.lanternRun := rfl
@[simp] theorem State.modFn_faultLog (s : State) (f : Fin 32) (g : Fn → Fn) : (s.modFn f g).faultLog = s.faultLog := rfl
@[simp] theorem State.modFn_hearth (s : State) (f : Fin 32) (g : Fn → Fn) : (s.modFn f g).hearth = s.hearth := rfl
@[simp] theorem State.modFn_power (s : State) (f : Fin 32) (g : Fn → Fn) : (s.modFn f g).power = s.power := rfl
@[simp] theorem State.modFn_mfg (s : State) (f : Fin 32) (g : Fn → Fn) : (s.modFn f g).mfg = s.mfg := rfl
@[simp] theorem State.modFn_gatehouse (s : State) (f : Fin 32) (g : Fn → Fn) : (s.modFn f g).gatehouse = s.gatehouse := rfl
@[simp] theorem State.modFn_free (s : State) (f : Fin 32) (g : Fn → Fn) : (s.modFn f g).free = s.free := rfl
@[simp] theorem State.modFn_out (s : State) (f : Fin 32) (g : Fn → Fn) : (s.modFn f g).out = s.out := rfl
@[simp] theorem State.modFn_pending (s : State) (f : Fin 32) (g : Fn → Fn) : (s.modFn f g).pending = s.pending := rfl
@[simp] theorem State.core_modFn (s : State) (f : Fin 32) (g : Fn → Fn) (q : Fin 192) : (s.modFn f g).core q = s.core q := rfl
@[simp] theorem State.ctx_modFn (s : State) (f : Fin 32) (g : Fn → Fn) (q : Fin 64) : (s.modFn f g).ctx q = s.ctx q := rfl
@[simp] theorem State.fn_modFn (s : State) (f : Fin 32) (g : Fn → Fn) : (s.modFn f g).fn f = g (s.fn f) := Vector.getElem_set_self _
theorem State.fn_modFn_ne (s : State) (f : Fin 32) (g : Fn → Fn) {q : Fin 32} (h : f ≠ q) : (s.modFn f g).fn q = s.fn q :=
  Vector.getElem_set_ne f.isLt q.isLt fun h2 => h (Fin.ext h2)
@[simp] theorem State.chan_modFn (s : State) (f : Fin 32) (g : Fn → Fn) (q : Fin 208) : (s.modFn f g).chan q = s.chan q := rfl
@[simp] theorem State.port_modFn (s : State) (f : Fin 32) (g : Fn → Fn) (q : Fin 36) : (s.modFn f g).port q = s.port q := rfl
@[simp] theorem State.bank_modFn (s : State) (f : Fin 32) (g : Fn → Fn) (q : Fin 2) : (s.modFn f g).bank q = s.bank q := rfl
@[simp] theorem State.sq_modFn (s : State) (f : Fin 32) (g : Fn → Fn) (q : Fin 256) : (s.modFn f g).sq q = s.sq q := rfl
@[simp] theorem State.cq_modFn (s : State) (f : Fin 32) (g : Fn → Fn) (q : Fin 256) : (s.modFn f g).cq q = s.cq q := rfl
@[simp] theorem State.toll_modFn (s : State) (f : Fin 32) (g : Fn → Fn) (q : Fin 4) : (s.modFn f g).toll q = s.toll q := rfl

/- modChan. -/

@[simp] theorem State.modChan_time (s : State) (c : Fin 208) (f : Chan → Chan) : (s.modChan c f).time = s.time := rfl
@[simp] theorem State.modChan_cores (s : State) (c : Fin 208) (f : Chan → Chan) : (s.modChan c f).cores = s.cores := rfl
@[simp] theorem State.modChan_ctxs (s : State) (c : Fin 208) (f : Chan → Chan) : (s.modChan c f).ctxs = s.ctxs := rfl
@[simp] theorem State.modChan_fns (s : State) (c : Fin 208) (f : Chan → Chan) : (s.modChan c f).fns = s.fns := rfl
@[simp] theorem State.modChan_numVfs (s : State) (c : Fin 208) (f : Chan → Chan) : (s.modChan c f).numVfs = s.numVfs := rfl
@[simp] theorem State.modChan_regs (s : State) (c : Fin 208) (f : Chan → Chan) : (s.modChan c f).regs = s.regs := rfl
@[simp] theorem State.modChan_win (s : State) (c : Fin 208) (f : Chan → Chan) : (s.modChan c f).win = s.win := rfl
@[simp] theorem State.modChan_stepSh (s : State) (c : Fin 208) (f : Chan → Chan) : (s.modChan c f).stepSh = s.stepSh := rfl
@[simp] theorem State.modChan_hostPrev (s : State) (c : Fin 208) (f : Chan → Chan) : (s.modChan c f).hostPrev = s.hostPrev := rfl
@[simp] theorem State.modChan_hostFirst (s : State) (c : Fin 208) (f : Chan → Chan) : (s.modChan c f).hostFirst = s.hostFirst := rfl
@[simp] theorem State.modChan_hostCur (s : State) (c : Fin 208) (f : Chan → Chan) : (s.modChan c f).hostCur = s.hostCur := rfl
@[simp] theorem State.modChan_mem (s : State) (c : Fin 208) (f : Chan → Chan) : (s.modChan c f).mem = s.mem := rfl
@[simp] theorem State.modChan_marked (s : State) (c : Fin 208) (f : Chan → Chan) : (s.modChan c f).marked = s.marked := rfl
@[simp] theorem State.modChan_regions (s : State) (c : Fin 208) (f : Chan → Chan) : (s.modChan c f).regions = s.regions := rfl
@[simp] theorem State.modChan_dir (s : State) (c : Fin 208) (f : Chan → Chan) : (s.modChan c f).dir = s.dir := rfl
@[simp] theorem State.modChan_refetches (s : State) (c : Fin 208) (f : Chan → Chan) : (s.modChan c f).refetches = s.refetches := rfl
@[simp] theorem State.modChan_refetchNo (s : State) (c : Fin 208) (f : Chan → Chan) : (s.modChan c f).refetchNo = s.refetchNo := rfl
@[simp] theorem State.modChan_meet (s : State) (c : Fin 208) (f : Chan → Chan) : (s.modChan c f).meet = s.meet := rfl
@[simp] theorem State.modChan_svcQ (s : State) (c : Fin 208) (f : Chan → Chan) : (s.modChan c f).svcQ = s.svcQ := rfl
@[simp] theorem State.modChan_sqs (s : State) (c : Fin 208) (f : Chan → Chan) : (s.modChan c f).sqs = s.sqs := rfl
@[simp] theorem State.modChan_cqs (s : State) (c : Fin 208) (f : Chan → Chan) : (s.modChan c f).cqs = s.cqs := rfl
@[simp] theorem State.modChan_streams (s : State) (c : Fin 208) (f : Chan → Chan) : (s.modChan c f).streams = s.streams := rfl
@[simp] theorem State.modChan_cc (s : State) (c : Fin 208) (f : Chan → Chan) : (s.modChan c f).cc = s.cc := rfl
@[simp] theorem State.modChan_ports (s : State) (c : Fin 208) (f : Chan → Chan) : (s.modChan c f).ports = s.ports := rfl
@[simp] theorem State.modChan_banks (s : State) (c : Fin 208) (f : Chan → Chan) : (s.modChan c f).banks = s.banks := rfl
@[simp] theorem State.modChan_fence (s : State) (c : Fin 208) (f : Chan → Chan) : (s.modChan c f).fence = s.fence := rfl
@[simp] theorem State.modChan_member (s : State) (c : Fin 208) (f : Chan → Chan) : (s.modChan c f).member = s.member := rfl
@[simp] theorem State.modChan_windows (s : State) (c : Fin 208) (f : Chan → Chan) : (s.modChan c f).windows = s.windows := rfl
@[simp] theorem State.modChan_winGen (s : State) (c : Fin 208) (f : Chan → Chan) : (s.modChan c f).winGen = s.winGen := rfl
@[simp] theorem State.modChan_txQ (s : State) (c : Fin 208) (f : Chan → Chan) : (s.modChan c f).txQ = s.txQ := rfl
@[simp] theorem State.modChan_inbox (s : State) (c : Fin 208) (f : Chan → Chan) : (s.modChan c f).inbox = s.inbox := rfl
@[simp] theorem State.modChan_awaiting (s : State) (c : Fin 208) (f : Chan → Chan) : (s.modChan c f).awaiting = s.awaiting := rfl
@[simp] theorem State.modChan_streamSeq (s : State) (c : Fin 208) (f : Chan → Chan) : (s.modChan c f).streamSeq = s.streamSeq := rfl
@[simp] theorem State.modChan_flowNo (s : State) (c : Fin 208) (f : Chan → Chan) : (s.modChan c f).flowNo = s.flowNo := rfl
@[simp] theorem State.modChan_tolls (s : State) (c : Fin 208) (f : Chan → Chan) : (s.modChan c f).tolls = s.tolls := rfl
@[simp] theorem State.modChan_layers (s : State) (c : Fin 208) (f : Chan → Chan) : (s.modChan c f).layers = s.layers := rfl
@[simp] theorem State.modChan_layerTab (s : State) (c : Fin 208) (f : Chan → Chan) : (s.modChan c f).layerTab = s.layerTab := rfl
@[simp] theorem State.modChan_ruleTab (s : State) (c : Fin 208) (f : Chan → Chan) : (s.modChan c f).ruleTab = s.ruleTab := rfl
@[simp] theorem State.modChan_nextTabs (s : State) (c : Fin 208) (f : Chan → Chan) : (s.modChan c f).nextTabs = s.nextTabs := rfl
@[simp] theorem State.modChan_lossGate (s : State) (c : Fin 208) (f : Chan → Chan) : (s.modChan c f).lossGate = s.lossGate := rfl
@[simp] theorem State.modChan_tollRegs (s : State) (c : Fin 208) (f : Chan → Chan) : (s.modChan c f).tollRegs = s.tollRegs := rfl
@[simp] theorem State.modChan_guardPermits (s : State) (c : Fin 208) (f : Chan → Chan) : (s.modChan c f).guardPermits = s.guardPermits := rfl
@[simp] theorem State.modChan_moments (s : State) (c : Fin 208) (f : Chan → Chan) : (s.modChan c f).moments = s.moments := rfl
@[simp] theorem State.modChan_lanternQ (s : State) (c : Fin 208) (f : Chan → Chan) : (s.modChan c f).lanternQ = s.lanternQ := rfl
@[simp] theorem State.modChan_lanternRun (s : State) (c : Fin 208) (f : Chan → Chan) : (s.modChan c f).lanternRun = s.lanternRun := rfl
@[simp] theorem State.modChan_faultLog (s : State) (c : Fin 208) (f : Chan → Chan) : (s.modChan c f).faultLog = s.faultLog := rfl
@[simp] theorem State.modChan_hearth (s : State) (c : Fin 208) (f : Chan → Chan) : (s.modChan c f).hearth = s.hearth := rfl
@[simp] theorem State.modChan_power (s : State) (c : Fin 208) (f : Chan → Chan) : (s.modChan c f).power = s.power := rfl
@[simp] theorem State.modChan_mfg (s : State) (c : Fin 208) (f : Chan → Chan) : (s.modChan c f).mfg = s.mfg := rfl
@[simp] theorem State.modChan_gatehouse (s : State) (c : Fin 208) (f : Chan → Chan) : (s.modChan c f).gatehouse = s.gatehouse := rfl
@[simp] theorem State.modChan_free (s : State) (c : Fin 208) (f : Chan → Chan) : (s.modChan c f).free = s.free := rfl
@[simp] theorem State.modChan_out (s : State) (c : Fin 208) (f : Chan → Chan) : (s.modChan c f).out = s.out := rfl
@[simp] theorem State.modChan_pending (s : State) (c : Fin 208) (f : Chan → Chan) : (s.modChan c f).pending = s.pending := rfl
@[simp] theorem State.core_modChan (s : State) (c : Fin 208) (f : Chan → Chan) (q : Fin 192) : (s.modChan c f).core q = s.core q := rfl
@[simp] theorem State.ctx_modChan (s : State) (c : Fin 208) (f : Chan → Chan) (q : Fin 64) : (s.modChan c f).ctx q = s.ctx q := rfl
@[simp] theorem State.fn_modChan (s : State) (c : Fin 208) (f : Chan → Chan) (q : Fin 32) : (s.modChan c f).fn q = s.fn q := rfl
@[simp] theorem State.chan_modChan (s : State) (c : Fin 208) (f : Chan → Chan) : (s.modChan c f).chan c = f (s.chan c) := Vector.getElem_set_self _
theorem State.chan_modChan_ne (s : State) (c : Fin 208) (f : Chan → Chan) {q : Fin 208} (h : c ≠ q) : (s.modChan c f).chan q = s.chan q :=
  Vector.getElem_set_ne c.isLt q.isLt fun h2 => h (Fin.ext h2)
@[simp] theorem State.port_modChan (s : State) (c : Fin 208) (f : Chan → Chan) (q : Fin 36) : (s.modChan c f).port q = s.port q := rfl
@[simp] theorem State.bank_modChan (s : State) (c : Fin 208) (f : Chan → Chan) (q : Fin 2) : (s.modChan c f).bank q = s.bank q := rfl
@[simp] theorem State.sq_modChan (s : State) (c : Fin 208) (f : Chan → Chan) (q : Fin 256) : (s.modChan c f).sq q = s.sq q := rfl
@[simp] theorem State.cq_modChan (s : State) (c : Fin 208) (f : Chan → Chan) (q : Fin 256) : (s.modChan c f).cq q = s.cq q := rfl
@[simp] theorem State.toll_modChan (s : State) (c : Fin 208) (f : Chan → Chan) (q : Fin 4) : (s.modChan c f).toll q = s.toll q := rfl

/- modPort. -/

@[simp] theorem State.modPort_time (s : State) (p : Fin 36) (f : Port → Port) : (s.modPort p f).time = s.time := rfl
@[simp] theorem State.modPort_cores (s : State) (p : Fin 36) (f : Port → Port) : (s.modPort p f).cores = s.cores := rfl
@[simp] theorem State.modPort_ctxs (s : State) (p : Fin 36) (f : Port → Port) : (s.modPort p f).ctxs = s.ctxs := rfl
@[simp] theorem State.modPort_fns (s : State) (p : Fin 36) (f : Port → Port) : (s.modPort p f).fns = s.fns := rfl
@[simp] theorem State.modPort_numVfs (s : State) (p : Fin 36) (f : Port → Port) : (s.modPort p f).numVfs = s.numVfs := rfl
@[simp] theorem State.modPort_regs (s : State) (p : Fin 36) (f : Port → Port) : (s.modPort p f).regs = s.regs := rfl
@[simp] theorem State.modPort_win (s : State) (p : Fin 36) (f : Port → Port) : (s.modPort p f).win = s.win := rfl
@[simp] theorem State.modPort_stepSh (s : State) (p : Fin 36) (f : Port → Port) : (s.modPort p f).stepSh = s.stepSh := rfl
@[simp] theorem State.modPort_hostPrev (s : State) (p : Fin 36) (f : Port → Port) : (s.modPort p f).hostPrev = s.hostPrev := rfl
@[simp] theorem State.modPort_hostFirst (s : State) (p : Fin 36) (f : Port → Port) : (s.modPort p f).hostFirst = s.hostFirst := rfl
@[simp] theorem State.modPort_hostCur (s : State) (p : Fin 36) (f : Port → Port) : (s.modPort p f).hostCur = s.hostCur := rfl
@[simp] theorem State.modPort_mem (s : State) (p : Fin 36) (f : Port → Port) : (s.modPort p f).mem = s.mem := rfl
@[simp] theorem State.modPort_marked (s : State) (p : Fin 36) (f : Port → Port) : (s.modPort p f).marked = s.marked := rfl
@[simp] theorem State.modPort_regions (s : State) (p : Fin 36) (f : Port → Port) : (s.modPort p f).regions = s.regions := rfl
@[simp] theorem State.modPort_dir (s : State) (p : Fin 36) (f : Port → Port) : (s.modPort p f).dir = s.dir := rfl
@[simp] theorem State.modPort_refetches (s : State) (p : Fin 36) (f : Port → Port) : (s.modPort p f).refetches = s.refetches := rfl
@[simp] theorem State.modPort_refetchNo (s : State) (p : Fin 36) (f : Port → Port) : (s.modPort p f).refetchNo = s.refetchNo := rfl
@[simp] theorem State.modPort_meet (s : State) (p : Fin 36) (f : Port → Port) : (s.modPort p f).meet = s.meet := rfl
@[simp] theorem State.modPort_chans (s : State) (p : Fin 36) (f : Port → Port) : (s.modPort p f).chans = s.chans := rfl
@[simp] theorem State.modPort_svcQ (s : State) (p : Fin 36) (f : Port → Port) : (s.modPort p f).svcQ = s.svcQ := rfl
@[simp] theorem State.modPort_sqs (s : State) (p : Fin 36) (f : Port → Port) : (s.modPort p f).sqs = s.sqs := rfl
@[simp] theorem State.modPort_cqs (s : State) (p : Fin 36) (f : Port → Port) : (s.modPort p f).cqs = s.cqs := rfl
@[simp] theorem State.modPort_streams (s : State) (p : Fin 36) (f : Port → Port) : (s.modPort p f).streams = s.streams := rfl
@[simp] theorem State.modPort_cc (s : State) (p : Fin 36) (f : Port → Port) : (s.modPort p f).cc = s.cc := rfl
@[simp] theorem State.modPort_banks (s : State) (p : Fin 36) (f : Port → Port) : (s.modPort p f).banks = s.banks := rfl
@[simp] theorem State.modPort_fence (s : State) (p : Fin 36) (f : Port → Port) : (s.modPort p f).fence = s.fence := rfl
@[simp] theorem State.modPort_member (s : State) (p : Fin 36) (f : Port → Port) : (s.modPort p f).member = s.member := rfl
@[simp] theorem State.modPort_windows (s : State) (p : Fin 36) (f : Port → Port) : (s.modPort p f).windows = s.windows := rfl
@[simp] theorem State.modPort_winGen (s : State) (p : Fin 36) (f : Port → Port) : (s.modPort p f).winGen = s.winGen := rfl
@[simp] theorem State.modPort_txQ (s : State) (p : Fin 36) (f : Port → Port) : (s.modPort p f).txQ = s.txQ := rfl
@[simp] theorem State.modPort_inbox (s : State) (p : Fin 36) (f : Port → Port) : (s.modPort p f).inbox = s.inbox := rfl
@[simp] theorem State.modPort_awaiting (s : State) (p : Fin 36) (f : Port → Port) : (s.modPort p f).awaiting = s.awaiting := rfl
@[simp] theorem State.modPort_streamSeq (s : State) (p : Fin 36) (f : Port → Port) : (s.modPort p f).streamSeq = s.streamSeq := rfl
@[simp] theorem State.modPort_flowNo (s : State) (p : Fin 36) (f : Port → Port) : (s.modPort p f).flowNo = s.flowNo := rfl
@[simp] theorem State.modPort_tolls (s : State) (p : Fin 36) (f : Port → Port) : (s.modPort p f).tolls = s.tolls := rfl
@[simp] theorem State.modPort_layers (s : State) (p : Fin 36) (f : Port → Port) : (s.modPort p f).layers = s.layers := rfl
@[simp] theorem State.modPort_layerTab (s : State) (p : Fin 36) (f : Port → Port) : (s.modPort p f).layerTab = s.layerTab := rfl
@[simp] theorem State.modPort_ruleTab (s : State) (p : Fin 36) (f : Port → Port) : (s.modPort p f).ruleTab = s.ruleTab := rfl
@[simp] theorem State.modPort_nextTabs (s : State) (p : Fin 36) (f : Port → Port) : (s.modPort p f).nextTabs = s.nextTabs := rfl
@[simp] theorem State.modPort_lossGate (s : State) (p : Fin 36) (f : Port → Port) : (s.modPort p f).lossGate = s.lossGate := rfl
@[simp] theorem State.modPort_tollRegs (s : State) (p : Fin 36) (f : Port → Port) : (s.modPort p f).tollRegs = s.tollRegs := rfl
@[simp] theorem State.modPort_guardPermits (s : State) (p : Fin 36) (f : Port → Port) : (s.modPort p f).guardPermits = s.guardPermits := rfl
@[simp] theorem State.modPort_moments (s : State) (p : Fin 36) (f : Port → Port) : (s.modPort p f).moments = s.moments := rfl
@[simp] theorem State.modPort_lanternQ (s : State) (p : Fin 36) (f : Port → Port) : (s.modPort p f).lanternQ = s.lanternQ := rfl
@[simp] theorem State.modPort_lanternRun (s : State) (p : Fin 36) (f : Port → Port) : (s.modPort p f).lanternRun = s.lanternRun := rfl
@[simp] theorem State.modPort_faultLog (s : State) (p : Fin 36) (f : Port → Port) : (s.modPort p f).faultLog = s.faultLog := rfl
@[simp] theorem State.modPort_hearth (s : State) (p : Fin 36) (f : Port → Port) : (s.modPort p f).hearth = s.hearth := rfl
@[simp] theorem State.modPort_power (s : State) (p : Fin 36) (f : Port → Port) : (s.modPort p f).power = s.power := rfl
@[simp] theorem State.modPort_mfg (s : State) (p : Fin 36) (f : Port → Port) : (s.modPort p f).mfg = s.mfg := rfl
@[simp] theorem State.modPort_gatehouse (s : State) (p : Fin 36) (f : Port → Port) : (s.modPort p f).gatehouse = s.gatehouse := rfl
@[simp] theorem State.modPort_free (s : State) (p : Fin 36) (f : Port → Port) : (s.modPort p f).free = s.free := rfl
@[simp] theorem State.modPort_out (s : State) (p : Fin 36) (f : Port → Port) : (s.modPort p f).out = s.out := rfl
@[simp] theorem State.modPort_pending (s : State) (p : Fin 36) (f : Port → Port) : (s.modPort p f).pending = s.pending := rfl
@[simp] theorem State.core_modPort (s : State) (p : Fin 36) (f : Port → Port) (q : Fin 192) : (s.modPort p f).core q = s.core q := rfl
@[simp] theorem State.ctx_modPort (s : State) (p : Fin 36) (f : Port → Port) (q : Fin 64) : (s.modPort p f).ctx q = s.ctx q := rfl
@[simp] theorem State.fn_modPort (s : State) (p : Fin 36) (f : Port → Port) (q : Fin 32) : (s.modPort p f).fn q = s.fn q := rfl
@[simp] theorem State.chan_modPort (s : State) (p : Fin 36) (f : Port → Port) (q : Fin 208) : (s.modPort p f).chan q = s.chan q := rfl
@[simp] theorem State.port_modPort (s : State) (p : Fin 36) (f : Port → Port) : (s.modPort p f).port p = f (s.port p) := Vector.getElem_set_self _
theorem State.port_modPort_ne (s : State) (p : Fin 36) (f : Port → Port) {q : Fin 36} (h : p ≠ q) : (s.modPort p f).port q = s.port q :=
  Vector.getElem_set_ne p.isLt q.isLt fun h2 => h (Fin.ext h2)
@[simp] theorem State.bank_modPort (s : State) (p : Fin 36) (f : Port → Port) (q : Fin 2) : (s.modPort p f).bank q = s.bank q := rfl
@[simp] theorem State.sq_modPort (s : State) (p : Fin 36) (f : Port → Port) (q : Fin 256) : (s.modPort p f).sq q = s.sq q := rfl
@[simp] theorem State.cq_modPort (s : State) (p : Fin 36) (f : Port → Port) (q : Fin 256) : (s.modPort p f).cq q = s.cq q := rfl
@[simp] theorem State.toll_modPort (s : State) (p : Fin 36) (f : Port → Port) (q : Fin 4) : (s.modPort p f).toll q = s.toll q := rfl

/- modBank. -/

@[simp] theorem State.modBank_time (s : State) (b : Fin 2) (f : Bank → Bank) : (s.modBank b f).time = s.time := rfl
@[simp] theorem State.modBank_cores (s : State) (b : Fin 2) (f : Bank → Bank) : (s.modBank b f).cores = s.cores := rfl
@[simp] theorem State.modBank_ctxs (s : State) (b : Fin 2) (f : Bank → Bank) : (s.modBank b f).ctxs = s.ctxs := rfl
@[simp] theorem State.modBank_fns (s : State) (b : Fin 2) (f : Bank → Bank) : (s.modBank b f).fns = s.fns := rfl
@[simp] theorem State.modBank_numVfs (s : State) (b : Fin 2) (f : Bank → Bank) : (s.modBank b f).numVfs = s.numVfs := rfl
@[simp] theorem State.modBank_regs (s : State) (b : Fin 2) (f : Bank → Bank) : (s.modBank b f).regs = s.regs := rfl
@[simp] theorem State.modBank_win (s : State) (b : Fin 2) (f : Bank → Bank) : (s.modBank b f).win = s.win := rfl
@[simp] theorem State.modBank_stepSh (s : State) (b : Fin 2) (f : Bank → Bank) : (s.modBank b f).stepSh = s.stepSh := rfl
@[simp] theorem State.modBank_hostPrev (s : State) (b : Fin 2) (f : Bank → Bank) : (s.modBank b f).hostPrev = s.hostPrev := rfl
@[simp] theorem State.modBank_hostFirst (s : State) (b : Fin 2) (f : Bank → Bank) : (s.modBank b f).hostFirst = s.hostFirst := rfl
@[simp] theorem State.modBank_hostCur (s : State) (b : Fin 2) (f : Bank → Bank) : (s.modBank b f).hostCur = s.hostCur := rfl
@[simp] theorem State.modBank_mem (s : State) (b : Fin 2) (f : Bank → Bank) : (s.modBank b f).mem = s.mem := rfl
@[simp] theorem State.modBank_marked (s : State) (b : Fin 2) (f : Bank → Bank) : (s.modBank b f).marked = s.marked := rfl
@[simp] theorem State.modBank_regions (s : State) (b : Fin 2) (f : Bank → Bank) : (s.modBank b f).regions = s.regions := rfl
@[simp] theorem State.modBank_dir (s : State) (b : Fin 2) (f : Bank → Bank) : (s.modBank b f).dir = s.dir := rfl
@[simp] theorem State.modBank_refetches (s : State) (b : Fin 2) (f : Bank → Bank) : (s.modBank b f).refetches = s.refetches := rfl
@[simp] theorem State.modBank_refetchNo (s : State) (b : Fin 2) (f : Bank → Bank) : (s.modBank b f).refetchNo = s.refetchNo := rfl
@[simp] theorem State.modBank_meet (s : State) (b : Fin 2) (f : Bank → Bank) : (s.modBank b f).meet = s.meet := rfl
@[simp] theorem State.modBank_chans (s : State) (b : Fin 2) (f : Bank → Bank) : (s.modBank b f).chans = s.chans := rfl
@[simp] theorem State.modBank_svcQ (s : State) (b : Fin 2) (f : Bank → Bank) : (s.modBank b f).svcQ = s.svcQ := rfl
@[simp] theorem State.modBank_sqs (s : State) (b : Fin 2) (f : Bank → Bank) : (s.modBank b f).sqs = s.sqs := rfl
@[simp] theorem State.modBank_cqs (s : State) (b : Fin 2) (f : Bank → Bank) : (s.modBank b f).cqs = s.cqs := rfl
@[simp] theorem State.modBank_streams (s : State) (b : Fin 2) (f : Bank → Bank) : (s.modBank b f).streams = s.streams := rfl
@[simp] theorem State.modBank_cc (s : State) (b : Fin 2) (f : Bank → Bank) : (s.modBank b f).cc = s.cc := rfl
@[simp] theorem State.modBank_ports (s : State) (b : Fin 2) (f : Bank → Bank) : (s.modBank b f).ports = s.ports := rfl
@[simp] theorem State.modBank_fence (s : State) (b : Fin 2) (f : Bank → Bank) : (s.modBank b f).fence = s.fence := rfl
@[simp] theorem State.modBank_member (s : State) (b : Fin 2) (f : Bank → Bank) : (s.modBank b f).member = s.member := rfl
@[simp] theorem State.modBank_windows (s : State) (b : Fin 2) (f : Bank → Bank) : (s.modBank b f).windows = s.windows := rfl
@[simp] theorem State.modBank_winGen (s : State) (b : Fin 2) (f : Bank → Bank) : (s.modBank b f).winGen = s.winGen := rfl
@[simp] theorem State.modBank_txQ (s : State) (b : Fin 2) (f : Bank → Bank) : (s.modBank b f).txQ = s.txQ := rfl
@[simp] theorem State.modBank_inbox (s : State) (b : Fin 2) (f : Bank → Bank) : (s.modBank b f).inbox = s.inbox := rfl
@[simp] theorem State.modBank_awaiting (s : State) (b : Fin 2) (f : Bank → Bank) : (s.modBank b f).awaiting = s.awaiting := rfl
@[simp] theorem State.modBank_streamSeq (s : State) (b : Fin 2) (f : Bank → Bank) : (s.modBank b f).streamSeq = s.streamSeq := rfl
@[simp] theorem State.modBank_flowNo (s : State) (b : Fin 2) (f : Bank → Bank) : (s.modBank b f).flowNo = s.flowNo := rfl
@[simp] theorem State.modBank_tolls (s : State) (b : Fin 2) (f : Bank → Bank) : (s.modBank b f).tolls = s.tolls := rfl
@[simp] theorem State.modBank_layers (s : State) (b : Fin 2) (f : Bank → Bank) : (s.modBank b f).layers = s.layers := rfl
@[simp] theorem State.modBank_layerTab (s : State) (b : Fin 2) (f : Bank → Bank) : (s.modBank b f).layerTab = s.layerTab := rfl
@[simp] theorem State.modBank_ruleTab (s : State) (b : Fin 2) (f : Bank → Bank) : (s.modBank b f).ruleTab = s.ruleTab := rfl
@[simp] theorem State.modBank_nextTabs (s : State) (b : Fin 2) (f : Bank → Bank) : (s.modBank b f).nextTabs = s.nextTabs := rfl
@[simp] theorem State.modBank_lossGate (s : State) (b : Fin 2) (f : Bank → Bank) : (s.modBank b f).lossGate = s.lossGate := rfl
@[simp] theorem State.modBank_tollRegs (s : State) (b : Fin 2) (f : Bank → Bank) : (s.modBank b f).tollRegs = s.tollRegs := rfl
@[simp] theorem State.modBank_guardPermits (s : State) (b : Fin 2) (f : Bank → Bank) : (s.modBank b f).guardPermits = s.guardPermits := rfl
@[simp] theorem State.modBank_moments (s : State) (b : Fin 2) (f : Bank → Bank) : (s.modBank b f).moments = s.moments := rfl
@[simp] theorem State.modBank_lanternQ (s : State) (b : Fin 2) (f : Bank → Bank) : (s.modBank b f).lanternQ = s.lanternQ := rfl
@[simp] theorem State.modBank_lanternRun (s : State) (b : Fin 2) (f : Bank → Bank) : (s.modBank b f).lanternRun = s.lanternRun := rfl
@[simp] theorem State.modBank_faultLog (s : State) (b : Fin 2) (f : Bank → Bank) : (s.modBank b f).faultLog = s.faultLog := rfl
@[simp] theorem State.modBank_hearth (s : State) (b : Fin 2) (f : Bank → Bank) : (s.modBank b f).hearth = s.hearth := rfl
@[simp] theorem State.modBank_power (s : State) (b : Fin 2) (f : Bank → Bank) : (s.modBank b f).power = s.power := rfl
@[simp] theorem State.modBank_mfg (s : State) (b : Fin 2) (f : Bank → Bank) : (s.modBank b f).mfg = s.mfg := rfl
@[simp] theorem State.modBank_gatehouse (s : State) (b : Fin 2) (f : Bank → Bank) : (s.modBank b f).gatehouse = s.gatehouse := rfl
@[simp] theorem State.modBank_free (s : State) (b : Fin 2) (f : Bank → Bank) : (s.modBank b f).free = s.free := rfl
@[simp] theorem State.modBank_out (s : State) (b : Fin 2) (f : Bank → Bank) : (s.modBank b f).out = s.out := rfl
@[simp] theorem State.modBank_pending (s : State) (b : Fin 2) (f : Bank → Bank) : (s.modBank b f).pending = s.pending := rfl
@[simp] theorem State.core_modBank (s : State) (b : Fin 2) (f : Bank → Bank) (q : Fin 192) : (s.modBank b f).core q = s.core q := rfl
@[simp] theorem State.ctx_modBank (s : State) (b : Fin 2) (f : Bank → Bank) (q : Fin 64) : (s.modBank b f).ctx q = s.ctx q := rfl
@[simp] theorem State.fn_modBank (s : State) (b : Fin 2) (f : Bank → Bank) (q : Fin 32) : (s.modBank b f).fn q = s.fn q := rfl
@[simp] theorem State.chan_modBank (s : State) (b : Fin 2) (f : Bank → Bank) (q : Fin 208) : (s.modBank b f).chan q = s.chan q := rfl
@[simp] theorem State.port_modBank (s : State) (b : Fin 2) (f : Bank → Bank) (q : Fin 36) : (s.modBank b f).port q = s.port q := rfl
@[simp] theorem State.bank_modBank (s : State) (b : Fin 2) (f : Bank → Bank) : (s.modBank b f).bank b = f (s.bank b) := Vector.getElem_set_self _
theorem State.bank_modBank_ne (s : State) (b : Fin 2) (f : Bank → Bank) {q : Fin 2} (h : b ≠ q) : (s.modBank b f).bank q = s.bank q :=
  Vector.getElem_set_ne b.isLt q.isLt fun h2 => h (Fin.ext h2)
@[simp] theorem State.sq_modBank (s : State) (b : Fin 2) (f : Bank → Bank) (q : Fin 256) : (s.modBank b f).sq q = s.sq q := rfl
@[simp] theorem State.cq_modBank (s : State) (b : Fin 2) (f : Bank → Bank) (q : Fin 256) : (s.modBank b f).cq q = s.cq q := rfl
@[simp] theorem State.toll_modBank (s : State) (b : Fin 2) (f : Bank → Bank) (q : Fin 4) : (s.modBank b f).toll q = s.toll q := rfl

/- modSq. -/

@[simp] theorem State.modSq_time (s : State) (r : Fin 256) (g : SubRing → SubRing) : (s.modSq r g).time = s.time := rfl
@[simp] theorem State.modSq_cores (s : State) (r : Fin 256) (g : SubRing → SubRing) : (s.modSq r g).cores = s.cores := rfl
@[simp] theorem State.modSq_ctxs (s : State) (r : Fin 256) (g : SubRing → SubRing) : (s.modSq r g).ctxs = s.ctxs := rfl
@[simp] theorem State.modSq_fns (s : State) (r : Fin 256) (g : SubRing → SubRing) : (s.modSq r g).fns = s.fns := rfl
@[simp] theorem State.modSq_numVfs (s : State) (r : Fin 256) (g : SubRing → SubRing) : (s.modSq r g).numVfs = s.numVfs := rfl
@[simp] theorem State.modSq_regs (s : State) (r : Fin 256) (g : SubRing → SubRing) : (s.modSq r g).regs = s.regs := rfl
@[simp] theorem State.modSq_win (s : State) (r : Fin 256) (g : SubRing → SubRing) : (s.modSq r g).win = s.win := rfl
@[simp] theorem State.modSq_stepSh (s : State) (r : Fin 256) (g : SubRing → SubRing) : (s.modSq r g).stepSh = s.stepSh := rfl
@[simp] theorem State.modSq_hostPrev (s : State) (r : Fin 256) (g : SubRing → SubRing) : (s.modSq r g).hostPrev = s.hostPrev := rfl
@[simp] theorem State.modSq_hostFirst (s : State) (r : Fin 256) (g : SubRing → SubRing) : (s.modSq r g).hostFirst = s.hostFirst := rfl
@[simp] theorem State.modSq_hostCur (s : State) (r : Fin 256) (g : SubRing → SubRing) : (s.modSq r g).hostCur = s.hostCur := rfl
@[simp] theorem State.modSq_mem (s : State) (r : Fin 256) (g : SubRing → SubRing) : (s.modSq r g).mem = s.mem := rfl
@[simp] theorem State.modSq_marked (s : State) (r : Fin 256) (g : SubRing → SubRing) : (s.modSq r g).marked = s.marked := rfl
@[simp] theorem State.modSq_regions (s : State) (r : Fin 256) (g : SubRing → SubRing) : (s.modSq r g).regions = s.regions := rfl
@[simp] theorem State.modSq_dir (s : State) (r : Fin 256) (g : SubRing → SubRing) : (s.modSq r g).dir = s.dir := rfl
@[simp] theorem State.modSq_refetches (s : State) (r : Fin 256) (g : SubRing → SubRing) : (s.modSq r g).refetches = s.refetches := rfl
@[simp] theorem State.modSq_refetchNo (s : State) (r : Fin 256) (g : SubRing → SubRing) : (s.modSq r g).refetchNo = s.refetchNo := rfl
@[simp] theorem State.modSq_meet (s : State) (r : Fin 256) (g : SubRing → SubRing) : (s.modSq r g).meet = s.meet := rfl
@[simp] theorem State.modSq_chans (s : State) (r : Fin 256) (g : SubRing → SubRing) : (s.modSq r g).chans = s.chans := rfl
@[simp] theorem State.modSq_svcQ (s : State) (r : Fin 256) (g : SubRing → SubRing) : (s.modSq r g).svcQ = s.svcQ := rfl
@[simp] theorem State.modSq_cqs (s : State) (r : Fin 256) (g : SubRing → SubRing) : (s.modSq r g).cqs = s.cqs := rfl
@[simp] theorem State.modSq_streams (s : State) (r : Fin 256) (g : SubRing → SubRing) : (s.modSq r g).streams = s.streams := rfl
@[simp] theorem State.modSq_cc (s : State) (r : Fin 256) (g : SubRing → SubRing) : (s.modSq r g).cc = s.cc := rfl
@[simp] theorem State.modSq_ports (s : State) (r : Fin 256) (g : SubRing → SubRing) : (s.modSq r g).ports = s.ports := rfl
@[simp] theorem State.modSq_banks (s : State) (r : Fin 256) (g : SubRing → SubRing) : (s.modSq r g).banks = s.banks := rfl
@[simp] theorem State.modSq_fence (s : State) (r : Fin 256) (g : SubRing → SubRing) : (s.modSq r g).fence = s.fence := rfl
@[simp] theorem State.modSq_member (s : State) (r : Fin 256) (g : SubRing → SubRing) : (s.modSq r g).member = s.member := rfl
@[simp] theorem State.modSq_windows (s : State) (r : Fin 256) (g : SubRing → SubRing) : (s.modSq r g).windows = s.windows := rfl
@[simp] theorem State.modSq_winGen (s : State) (r : Fin 256) (g : SubRing → SubRing) : (s.modSq r g).winGen = s.winGen := rfl
@[simp] theorem State.modSq_txQ (s : State) (r : Fin 256) (g : SubRing → SubRing) : (s.modSq r g).txQ = s.txQ := rfl
@[simp] theorem State.modSq_inbox (s : State) (r : Fin 256) (g : SubRing → SubRing) : (s.modSq r g).inbox = s.inbox := rfl
@[simp] theorem State.modSq_awaiting (s : State) (r : Fin 256) (g : SubRing → SubRing) : (s.modSq r g).awaiting = s.awaiting := rfl
@[simp] theorem State.modSq_streamSeq (s : State) (r : Fin 256) (g : SubRing → SubRing) : (s.modSq r g).streamSeq = s.streamSeq := rfl
@[simp] theorem State.modSq_flowNo (s : State) (r : Fin 256) (g : SubRing → SubRing) : (s.modSq r g).flowNo = s.flowNo := rfl
@[simp] theorem State.modSq_tolls (s : State) (r : Fin 256) (g : SubRing → SubRing) : (s.modSq r g).tolls = s.tolls := rfl
@[simp] theorem State.modSq_layers (s : State) (r : Fin 256) (g : SubRing → SubRing) : (s.modSq r g).layers = s.layers := rfl
@[simp] theorem State.modSq_layerTab (s : State) (r : Fin 256) (g : SubRing → SubRing) : (s.modSq r g).layerTab = s.layerTab := rfl
@[simp] theorem State.modSq_ruleTab (s : State) (r : Fin 256) (g : SubRing → SubRing) : (s.modSq r g).ruleTab = s.ruleTab := rfl
@[simp] theorem State.modSq_nextTabs (s : State) (r : Fin 256) (g : SubRing → SubRing) : (s.modSq r g).nextTabs = s.nextTabs := rfl
@[simp] theorem State.modSq_lossGate (s : State) (r : Fin 256) (g : SubRing → SubRing) : (s.modSq r g).lossGate = s.lossGate := rfl
@[simp] theorem State.modSq_tollRegs (s : State) (r : Fin 256) (g : SubRing → SubRing) : (s.modSq r g).tollRegs = s.tollRegs := rfl
@[simp] theorem State.modSq_guardPermits (s : State) (r : Fin 256) (g : SubRing → SubRing) : (s.modSq r g).guardPermits = s.guardPermits := rfl
@[simp] theorem State.modSq_moments (s : State) (r : Fin 256) (g : SubRing → SubRing) : (s.modSq r g).moments = s.moments := rfl
@[simp] theorem State.modSq_lanternQ (s : State) (r : Fin 256) (g : SubRing → SubRing) : (s.modSq r g).lanternQ = s.lanternQ := rfl
@[simp] theorem State.modSq_lanternRun (s : State) (r : Fin 256) (g : SubRing → SubRing) : (s.modSq r g).lanternRun = s.lanternRun := rfl
@[simp] theorem State.modSq_faultLog (s : State) (r : Fin 256) (g : SubRing → SubRing) : (s.modSq r g).faultLog = s.faultLog := rfl
@[simp] theorem State.modSq_hearth (s : State) (r : Fin 256) (g : SubRing → SubRing) : (s.modSq r g).hearth = s.hearth := rfl
@[simp] theorem State.modSq_power (s : State) (r : Fin 256) (g : SubRing → SubRing) : (s.modSq r g).power = s.power := rfl
@[simp] theorem State.modSq_mfg (s : State) (r : Fin 256) (g : SubRing → SubRing) : (s.modSq r g).mfg = s.mfg := rfl
@[simp] theorem State.modSq_gatehouse (s : State) (r : Fin 256) (g : SubRing → SubRing) : (s.modSq r g).gatehouse = s.gatehouse := rfl
@[simp] theorem State.modSq_free (s : State) (r : Fin 256) (g : SubRing → SubRing) : (s.modSq r g).free = s.free := rfl
@[simp] theorem State.modSq_out (s : State) (r : Fin 256) (g : SubRing → SubRing) : (s.modSq r g).out = s.out := rfl
@[simp] theorem State.modSq_pending (s : State) (r : Fin 256) (g : SubRing → SubRing) : (s.modSq r g).pending = s.pending := rfl
@[simp] theorem State.core_modSq (s : State) (r : Fin 256) (g : SubRing → SubRing) (q : Fin 192) : (s.modSq r g).core q = s.core q := rfl
@[simp] theorem State.ctx_modSq (s : State) (r : Fin 256) (g : SubRing → SubRing) (q : Fin 64) : (s.modSq r g).ctx q = s.ctx q := rfl
@[simp] theorem State.fn_modSq (s : State) (r : Fin 256) (g : SubRing → SubRing) (q : Fin 32) : (s.modSq r g).fn q = s.fn q := rfl
@[simp] theorem State.chan_modSq (s : State) (r : Fin 256) (g : SubRing → SubRing) (q : Fin 208) : (s.modSq r g).chan q = s.chan q := rfl
@[simp] theorem State.port_modSq (s : State) (r : Fin 256) (g : SubRing → SubRing) (q : Fin 36) : (s.modSq r g).port q = s.port q := rfl
@[simp] theorem State.bank_modSq (s : State) (r : Fin 256) (g : SubRing → SubRing) (q : Fin 2) : (s.modSq r g).bank q = s.bank q := rfl
@[simp] theorem State.sq_modSq (s : State) (r : Fin 256) (g : SubRing → SubRing) : (s.modSq r g).sq r = g (s.sq r) := Vector.getElem_set_self _
theorem State.sq_modSq_ne (s : State) (r : Fin 256) (g : SubRing → SubRing) {q : Fin 256} (h : r ≠ q) : (s.modSq r g).sq q = s.sq q :=
  Vector.getElem_set_ne r.isLt q.isLt fun h2 => h (Fin.ext h2)
@[simp] theorem State.cq_modSq (s : State) (r : Fin 256) (g : SubRing → SubRing) (q : Fin 256) : (s.modSq r g).cq q = s.cq q := rfl
@[simp] theorem State.toll_modSq (s : State) (r : Fin 256) (g : SubRing → SubRing) (q : Fin 4) : (s.modSq r g).toll q = s.toll q := rfl

/- modCq. -/

@[simp] theorem State.modCq_time (s : State) (r : Fin 256) (g : CompRing → CompRing) : (s.modCq r g).time = s.time := rfl
@[simp] theorem State.modCq_cores (s : State) (r : Fin 256) (g : CompRing → CompRing) : (s.modCq r g).cores = s.cores := rfl
@[simp] theorem State.modCq_ctxs (s : State) (r : Fin 256) (g : CompRing → CompRing) : (s.modCq r g).ctxs = s.ctxs := rfl
@[simp] theorem State.modCq_fns (s : State) (r : Fin 256) (g : CompRing → CompRing) : (s.modCq r g).fns = s.fns := rfl
@[simp] theorem State.modCq_numVfs (s : State) (r : Fin 256) (g : CompRing → CompRing) : (s.modCq r g).numVfs = s.numVfs := rfl
@[simp] theorem State.modCq_regs (s : State) (r : Fin 256) (g : CompRing → CompRing) : (s.modCq r g).regs = s.regs := rfl
@[simp] theorem State.modCq_win (s : State) (r : Fin 256) (g : CompRing → CompRing) : (s.modCq r g).win = s.win := rfl
@[simp] theorem State.modCq_stepSh (s : State) (r : Fin 256) (g : CompRing → CompRing) : (s.modCq r g).stepSh = s.stepSh := rfl
@[simp] theorem State.modCq_hostPrev (s : State) (r : Fin 256) (g : CompRing → CompRing) : (s.modCq r g).hostPrev = s.hostPrev := rfl
@[simp] theorem State.modCq_hostFirst (s : State) (r : Fin 256) (g : CompRing → CompRing) : (s.modCq r g).hostFirst = s.hostFirst := rfl
@[simp] theorem State.modCq_hostCur (s : State) (r : Fin 256) (g : CompRing → CompRing) : (s.modCq r g).hostCur = s.hostCur := rfl
@[simp] theorem State.modCq_mem (s : State) (r : Fin 256) (g : CompRing → CompRing) : (s.modCq r g).mem = s.mem := rfl
@[simp] theorem State.modCq_marked (s : State) (r : Fin 256) (g : CompRing → CompRing) : (s.modCq r g).marked = s.marked := rfl
@[simp] theorem State.modCq_regions (s : State) (r : Fin 256) (g : CompRing → CompRing) : (s.modCq r g).regions = s.regions := rfl
@[simp] theorem State.modCq_dir (s : State) (r : Fin 256) (g : CompRing → CompRing) : (s.modCq r g).dir = s.dir := rfl
@[simp] theorem State.modCq_refetches (s : State) (r : Fin 256) (g : CompRing → CompRing) : (s.modCq r g).refetches = s.refetches := rfl
@[simp] theorem State.modCq_refetchNo (s : State) (r : Fin 256) (g : CompRing → CompRing) : (s.modCq r g).refetchNo = s.refetchNo := rfl
@[simp] theorem State.modCq_meet (s : State) (r : Fin 256) (g : CompRing → CompRing) : (s.modCq r g).meet = s.meet := rfl
@[simp] theorem State.modCq_chans (s : State) (r : Fin 256) (g : CompRing → CompRing) : (s.modCq r g).chans = s.chans := rfl
@[simp] theorem State.modCq_svcQ (s : State) (r : Fin 256) (g : CompRing → CompRing) : (s.modCq r g).svcQ = s.svcQ := rfl
@[simp] theorem State.modCq_sqs (s : State) (r : Fin 256) (g : CompRing → CompRing) : (s.modCq r g).sqs = s.sqs := rfl
@[simp] theorem State.modCq_streams (s : State) (r : Fin 256) (g : CompRing → CompRing) : (s.modCq r g).streams = s.streams := rfl
@[simp] theorem State.modCq_cc (s : State) (r : Fin 256) (g : CompRing → CompRing) : (s.modCq r g).cc = s.cc := rfl
@[simp] theorem State.modCq_ports (s : State) (r : Fin 256) (g : CompRing → CompRing) : (s.modCq r g).ports = s.ports := rfl
@[simp] theorem State.modCq_banks (s : State) (r : Fin 256) (g : CompRing → CompRing) : (s.modCq r g).banks = s.banks := rfl
@[simp] theorem State.modCq_fence (s : State) (r : Fin 256) (g : CompRing → CompRing) : (s.modCq r g).fence = s.fence := rfl
@[simp] theorem State.modCq_member (s : State) (r : Fin 256) (g : CompRing → CompRing) : (s.modCq r g).member = s.member := rfl
@[simp] theorem State.modCq_windows (s : State) (r : Fin 256) (g : CompRing → CompRing) : (s.modCq r g).windows = s.windows := rfl
@[simp] theorem State.modCq_winGen (s : State) (r : Fin 256) (g : CompRing → CompRing) : (s.modCq r g).winGen = s.winGen := rfl
@[simp] theorem State.modCq_txQ (s : State) (r : Fin 256) (g : CompRing → CompRing) : (s.modCq r g).txQ = s.txQ := rfl
@[simp] theorem State.modCq_inbox (s : State) (r : Fin 256) (g : CompRing → CompRing) : (s.modCq r g).inbox = s.inbox := rfl
@[simp] theorem State.modCq_awaiting (s : State) (r : Fin 256) (g : CompRing → CompRing) : (s.modCq r g).awaiting = s.awaiting := rfl
@[simp] theorem State.modCq_streamSeq (s : State) (r : Fin 256) (g : CompRing → CompRing) : (s.modCq r g).streamSeq = s.streamSeq := rfl
@[simp] theorem State.modCq_flowNo (s : State) (r : Fin 256) (g : CompRing → CompRing) : (s.modCq r g).flowNo = s.flowNo := rfl
@[simp] theorem State.modCq_tolls (s : State) (r : Fin 256) (g : CompRing → CompRing) : (s.modCq r g).tolls = s.tolls := rfl
@[simp] theorem State.modCq_layers (s : State) (r : Fin 256) (g : CompRing → CompRing) : (s.modCq r g).layers = s.layers := rfl
@[simp] theorem State.modCq_layerTab (s : State) (r : Fin 256) (g : CompRing → CompRing) : (s.modCq r g).layerTab = s.layerTab := rfl
@[simp] theorem State.modCq_ruleTab (s : State) (r : Fin 256) (g : CompRing → CompRing) : (s.modCq r g).ruleTab = s.ruleTab := rfl
@[simp] theorem State.modCq_nextTabs (s : State) (r : Fin 256) (g : CompRing → CompRing) : (s.modCq r g).nextTabs = s.nextTabs := rfl
@[simp] theorem State.modCq_lossGate (s : State) (r : Fin 256) (g : CompRing → CompRing) : (s.modCq r g).lossGate = s.lossGate := rfl
@[simp] theorem State.modCq_tollRegs (s : State) (r : Fin 256) (g : CompRing → CompRing) : (s.modCq r g).tollRegs = s.tollRegs := rfl
@[simp] theorem State.modCq_guardPermits (s : State) (r : Fin 256) (g : CompRing → CompRing) : (s.modCq r g).guardPermits = s.guardPermits := rfl
@[simp] theorem State.modCq_moments (s : State) (r : Fin 256) (g : CompRing → CompRing) : (s.modCq r g).moments = s.moments := rfl
@[simp] theorem State.modCq_lanternQ (s : State) (r : Fin 256) (g : CompRing → CompRing) : (s.modCq r g).lanternQ = s.lanternQ := rfl
@[simp] theorem State.modCq_lanternRun (s : State) (r : Fin 256) (g : CompRing → CompRing) : (s.modCq r g).lanternRun = s.lanternRun := rfl
@[simp] theorem State.modCq_faultLog (s : State) (r : Fin 256) (g : CompRing → CompRing) : (s.modCq r g).faultLog = s.faultLog := rfl
@[simp] theorem State.modCq_hearth (s : State) (r : Fin 256) (g : CompRing → CompRing) : (s.modCq r g).hearth = s.hearth := rfl
@[simp] theorem State.modCq_power (s : State) (r : Fin 256) (g : CompRing → CompRing) : (s.modCq r g).power = s.power := rfl
@[simp] theorem State.modCq_mfg (s : State) (r : Fin 256) (g : CompRing → CompRing) : (s.modCq r g).mfg = s.mfg := rfl
@[simp] theorem State.modCq_gatehouse (s : State) (r : Fin 256) (g : CompRing → CompRing) : (s.modCq r g).gatehouse = s.gatehouse := rfl
@[simp] theorem State.modCq_free (s : State) (r : Fin 256) (g : CompRing → CompRing) : (s.modCq r g).free = s.free := rfl
@[simp] theorem State.modCq_out (s : State) (r : Fin 256) (g : CompRing → CompRing) : (s.modCq r g).out = s.out := rfl
@[simp] theorem State.modCq_pending (s : State) (r : Fin 256) (g : CompRing → CompRing) : (s.modCq r g).pending = s.pending := rfl
@[simp] theorem State.core_modCq (s : State) (r : Fin 256) (g : CompRing → CompRing) (q : Fin 192) : (s.modCq r g).core q = s.core q := rfl
@[simp] theorem State.ctx_modCq (s : State) (r : Fin 256) (g : CompRing → CompRing) (q : Fin 64) : (s.modCq r g).ctx q = s.ctx q := rfl
@[simp] theorem State.fn_modCq (s : State) (r : Fin 256) (g : CompRing → CompRing) (q : Fin 32) : (s.modCq r g).fn q = s.fn q := rfl
@[simp] theorem State.chan_modCq (s : State) (r : Fin 256) (g : CompRing → CompRing) (q : Fin 208) : (s.modCq r g).chan q = s.chan q := rfl
@[simp] theorem State.port_modCq (s : State) (r : Fin 256) (g : CompRing → CompRing) (q : Fin 36) : (s.modCq r g).port q = s.port q := rfl
@[simp] theorem State.bank_modCq (s : State) (r : Fin 256) (g : CompRing → CompRing) (q : Fin 2) : (s.modCq r g).bank q = s.bank q := rfl
@[simp] theorem State.sq_modCq (s : State) (r : Fin 256) (g : CompRing → CompRing) (q : Fin 256) : (s.modCq r g).sq q = s.sq q := rfl
@[simp] theorem State.cq_modCq (s : State) (r : Fin 256) (g : CompRing → CompRing) : (s.modCq r g).cq r = g (s.cq r) := Vector.getElem_set_self _
theorem State.cq_modCq_ne (s : State) (r : Fin 256) (g : CompRing → CompRing) {q : Fin 256} (h : r ≠ q) : (s.modCq r g).cq q = s.cq q :=
  Vector.getElem_set_ne r.isLt q.isLt fun h2 => h (Fin.ext h2)
@[simp] theorem State.toll_modCq (s : State) (r : Fin 256) (g : CompRing → CompRing) (q : Fin 4) : (s.modCq r g).toll q = s.toll q := rfl

/- modToll. -/

@[simp] theorem State.modToll_time (s : State) (t : Fin 4) (f : Toll → Toll) : (s.modToll t f).time = s.time := rfl
@[simp] theorem State.modToll_cores (s : State) (t : Fin 4) (f : Toll → Toll) : (s.modToll t f).cores = s.cores := rfl
@[simp] theorem State.modToll_ctxs (s : State) (t : Fin 4) (f : Toll → Toll) : (s.modToll t f).ctxs = s.ctxs := rfl
@[simp] theorem State.modToll_fns (s : State) (t : Fin 4) (f : Toll → Toll) : (s.modToll t f).fns = s.fns := rfl
@[simp] theorem State.modToll_numVfs (s : State) (t : Fin 4) (f : Toll → Toll) : (s.modToll t f).numVfs = s.numVfs := rfl
@[simp] theorem State.modToll_regs (s : State) (t : Fin 4) (f : Toll → Toll) : (s.modToll t f).regs = s.regs := rfl
@[simp] theorem State.modToll_win (s : State) (t : Fin 4) (f : Toll → Toll) : (s.modToll t f).win = s.win := rfl
@[simp] theorem State.modToll_stepSh (s : State) (t : Fin 4) (f : Toll → Toll) : (s.modToll t f).stepSh = s.stepSh := rfl
@[simp] theorem State.modToll_hostPrev (s : State) (t : Fin 4) (f : Toll → Toll) : (s.modToll t f).hostPrev = s.hostPrev := rfl
@[simp] theorem State.modToll_hostFirst (s : State) (t : Fin 4) (f : Toll → Toll) : (s.modToll t f).hostFirst = s.hostFirst := rfl
@[simp] theorem State.modToll_hostCur (s : State) (t : Fin 4) (f : Toll → Toll) : (s.modToll t f).hostCur = s.hostCur := rfl
@[simp] theorem State.modToll_mem (s : State) (t : Fin 4) (f : Toll → Toll) : (s.modToll t f).mem = s.mem := rfl
@[simp] theorem State.modToll_marked (s : State) (t : Fin 4) (f : Toll → Toll) : (s.modToll t f).marked = s.marked := rfl
@[simp] theorem State.modToll_regions (s : State) (t : Fin 4) (f : Toll → Toll) : (s.modToll t f).regions = s.regions := rfl
@[simp] theorem State.modToll_dir (s : State) (t : Fin 4) (f : Toll → Toll) : (s.modToll t f).dir = s.dir := rfl
@[simp] theorem State.modToll_refetches (s : State) (t : Fin 4) (f : Toll → Toll) : (s.modToll t f).refetches = s.refetches := rfl
@[simp] theorem State.modToll_refetchNo (s : State) (t : Fin 4) (f : Toll → Toll) : (s.modToll t f).refetchNo = s.refetchNo := rfl
@[simp] theorem State.modToll_meet (s : State) (t : Fin 4) (f : Toll → Toll) : (s.modToll t f).meet = s.meet := rfl
@[simp] theorem State.modToll_chans (s : State) (t : Fin 4) (f : Toll → Toll) : (s.modToll t f).chans = s.chans := rfl
@[simp] theorem State.modToll_svcQ (s : State) (t : Fin 4) (f : Toll → Toll) : (s.modToll t f).svcQ = s.svcQ := rfl
@[simp] theorem State.modToll_sqs (s : State) (t : Fin 4) (f : Toll → Toll) : (s.modToll t f).sqs = s.sqs := rfl
@[simp] theorem State.modToll_cqs (s : State) (t : Fin 4) (f : Toll → Toll) : (s.modToll t f).cqs = s.cqs := rfl
@[simp] theorem State.modToll_streams (s : State) (t : Fin 4) (f : Toll → Toll) : (s.modToll t f).streams = s.streams := rfl
@[simp] theorem State.modToll_cc (s : State) (t : Fin 4) (f : Toll → Toll) : (s.modToll t f).cc = s.cc := rfl
@[simp] theorem State.modToll_ports (s : State) (t : Fin 4) (f : Toll → Toll) : (s.modToll t f).ports = s.ports := rfl
@[simp] theorem State.modToll_banks (s : State) (t : Fin 4) (f : Toll → Toll) : (s.modToll t f).banks = s.banks := rfl
@[simp] theorem State.modToll_fence (s : State) (t : Fin 4) (f : Toll → Toll) : (s.modToll t f).fence = s.fence := rfl
@[simp] theorem State.modToll_member (s : State) (t : Fin 4) (f : Toll → Toll) : (s.modToll t f).member = s.member := rfl
@[simp] theorem State.modToll_windows (s : State) (t : Fin 4) (f : Toll → Toll) : (s.modToll t f).windows = s.windows := rfl
@[simp] theorem State.modToll_winGen (s : State) (t : Fin 4) (f : Toll → Toll) : (s.modToll t f).winGen = s.winGen := rfl
@[simp] theorem State.modToll_txQ (s : State) (t : Fin 4) (f : Toll → Toll) : (s.modToll t f).txQ = s.txQ := rfl
@[simp] theorem State.modToll_inbox (s : State) (t : Fin 4) (f : Toll → Toll) : (s.modToll t f).inbox = s.inbox := rfl
@[simp] theorem State.modToll_awaiting (s : State) (t : Fin 4) (f : Toll → Toll) : (s.modToll t f).awaiting = s.awaiting := rfl
@[simp] theorem State.modToll_streamSeq (s : State) (t : Fin 4) (f : Toll → Toll) : (s.modToll t f).streamSeq = s.streamSeq := rfl
@[simp] theorem State.modToll_flowNo (s : State) (t : Fin 4) (f : Toll → Toll) : (s.modToll t f).flowNo = s.flowNo := rfl
@[simp] theorem State.modToll_layers (s : State) (t : Fin 4) (f : Toll → Toll) : (s.modToll t f).layers = s.layers := rfl
@[simp] theorem State.modToll_layerTab (s : State) (t : Fin 4) (f : Toll → Toll) : (s.modToll t f).layerTab = s.layerTab := rfl
@[simp] theorem State.modToll_ruleTab (s : State) (t : Fin 4) (f : Toll → Toll) : (s.modToll t f).ruleTab = s.ruleTab := rfl
@[simp] theorem State.modToll_nextTabs (s : State) (t : Fin 4) (f : Toll → Toll) : (s.modToll t f).nextTabs = s.nextTabs := rfl
@[simp] theorem State.modToll_lossGate (s : State) (t : Fin 4) (f : Toll → Toll) : (s.modToll t f).lossGate = s.lossGate := rfl
@[simp] theorem State.modToll_tollRegs (s : State) (t : Fin 4) (f : Toll → Toll) : (s.modToll t f).tollRegs = s.tollRegs := rfl
@[simp] theorem State.modToll_guardPermits (s : State) (t : Fin 4) (f : Toll → Toll) : (s.modToll t f).guardPermits = s.guardPermits := rfl
@[simp] theorem State.modToll_moments (s : State) (t : Fin 4) (f : Toll → Toll) : (s.modToll t f).moments = s.moments := rfl
@[simp] theorem State.modToll_lanternQ (s : State) (t : Fin 4) (f : Toll → Toll) : (s.modToll t f).lanternQ = s.lanternQ := rfl
@[simp] theorem State.modToll_lanternRun (s : State) (t : Fin 4) (f : Toll → Toll) : (s.modToll t f).lanternRun = s.lanternRun := rfl
@[simp] theorem State.modToll_faultLog (s : State) (t : Fin 4) (f : Toll → Toll) : (s.modToll t f).faultLog = s.faultLog := rfl
@[simp] theorem State.modToll_hearth (s : State) (t : Fin 4) (f : Toll → Toll) : (s.modToll t f).hearth = s.hearth := rfl
@[simp] theorem State.modToll_power (s : State) (t : Fin 4) (f : Toll → Toll) : (s.modToll t f).power = s.power := rfl
@[simp] theorem State.modToll_mfg (s : State) (t : Fin 4) (f : Toll → Toll) : (s.modToll t f).mfg = s.mfg := rfl
@[simp] theorem State.modToll_gatehouse (s : State) (t : Fin 4) (f : Toll → Toll) : (s.modToll t f).gatehouse = s.gatehouse := rfl
@[simp] theorem State.modToll_free (s : State) (t : Fin 4) (f : Toll → Toll) : (s.modToll t f).free = s.free := rfl
@[simp] theorem State.modToll_out (s : State) (t : Fin 4) (f : Toll → Toll) : (s.modToll t f).out = s.out := rfl
@[simp] theorem State.modToll_pending (s : State) (t : Fin 4) (f : Toll → Toll) : (s.modToll t f).pending = s.pending := rfl
@[simp] theorem State.core_modToll (s : State) (t : Fin 4) (f : Toll → Toll) (q : Fin 192) : (s.modToll t f).core q = s.core q := rfl
@[simp] theorem State.ctx_modToll (s : State) (t : Fin 4) (f : Toll → Toll) (q : Fin 64) : (s.modToll t f).ctx q = s.ctx q := rfl
@[simp] theorem State.fn_modToll (s : State) (t : Fin 4) (f : Toll → Toll) (q : Fin 32) : (s.modToll t f).fn q = s.fn q := rfl
@[simp] theorem State.chan_modToll (s : State) (t : Fin 4) (f : Toll → Toll) (q : Fin 208) : (s.modToll t f).chan q = s.chan q := rfl
@[simp] theorem State.port_modToll (s : State) (t : Fin 4) (f : Toll → Toll) (q : Fin 36) : (s.modToll t f).port q = s.port q := rfl
@[simp] theorem State.bank_modToll (s : State) (t : Fin 4) (f : Toll → Toll) (q : Fin 2) : (s.modToll t f).bank q = s.bank q := rfl
@[simp] theorem State.sq_modToll (s : State) (t : Fin 4) (f : Toll → Toll) (q : Fin 256) : (s.modToll t f).sq q = s.sq q := rfl
@[simp] theorem State.cq_modToll (s : State) (t : Fin 4) (f : Toll → Toll) (q : Fin 256) : (s.modToll t f).cq q = s.cq q := rfl
@[simp] theorem State.toll_modToll (s : State) (t : Fin 4) (f : Toll → Toll) : (s.modToll t f).toll t = f (s.toll t) := Vector.getElem_set_self _
theorem State.toll_modToll_ne (s : State) (t : Fin 4) (f : Toll → Toll) {q : Fin 4} (h : t ≠ q) : (s.modToll t f).toll q = s.toll q :=
  Vector.getElem_set_ne t.isLt q.isLt fun h2 => h (Fin.ext h2)

/- wr. -/

@[simp] theorem State.wr_time (s : State) (o v : Nat) : (s.wr o v).time = s.time := rfl
@[simp] theorem State.wr_cores (s : State) (o v : Nat) : (s.wr o v).cores = s.cores := rfl
@[simp] theorem State.wr_ctxs (s : State) (o v : Nat) : (s.wr o v).ctxs = s.ctxs := rfl
@[simp] theorem State.wr_fns (s : State) (o v : Nat) : (s.wr o v).fns = s.fns := rfl
@[simp] theorem State.wr_numVfs (s : State) (o v : Nat) : (s.wr o v).numVfs = s.numVfs := rfl
@[simp] theorem State.wr_win (s : State) (o v : Nat) : (s.wr o v).win = s.win := rfl
@[simp] theorem State.wr_stepSh (s : State) (o v : Nat) : (s.wr o v).stepSh = s.stepSh := rfl
@[simp] theorem State.wr_hostPrev (s : State) (o v : Nat) : (s.wr o v).hostPrev = s.hostPrev := rfl
@[simp] theorem State.wr_hostFirst (s : State) (o v : Nat) : (s.wr o v).hostFirst = s.hostFirst := rfl
@[simp] theorem State.wr_hostCur (s : State) (o v : Nat) : (s.wr o v).hostCur = s.hostCur := rfl
@[simp] theorem State.wr_mem (s : State) (o v : Nat) : (s.wr o v).mem = s.mem := rfl
@[simp] theorem State.wr_marked (s : State) (o v : Nat) : (s.wr o v).marked = s.marked := rfl
@[simp] theorem State.wr_regions (s : State) (o v : Nat) : (s.wr o v).regions = s.regions := rfl
@[simp] theorem State.wr_dir (s : State) (o v : Nat) : (s.wr o v).dir = s.dir := rfl
@[simp] theorem State.wr_refetches (s : State) (o v : Nat) : (s.wr o v).refetches = s.refetches := rfl
@[simp] theorem State.wr_refetchNo (s : State) (o v : Nat) : (s.wr o v).refetchNo = s.refetchNo := rfl
@[simp] theorem State.wr_meet (s : State) (o v : Nat) : (s.wr o v).meet = s.meet := rfl
@[simp] theorem State.wr_chans (s : State) (o v : Nat) : (s.wr o v).chans = s.chans := rfl
@[simp] theorem State.wr_svcQ (s : State) (o v : Nat) : (s.wr o v).svcQ = s.svcQ := rfl
@[simp] theorem State.wr_sqs (s : State) (o v : Nat) : (s.wr o v).sqs = s.sqs := rfl
@[simp] theorem State.wr_cqs (s : State) (o v : Nat) : (s.wr o v).cqs = s.cqs := rfl
@[simp] theorem State.wr_streams (s : State) (o v : Nat) : (s.wr o v).streams = s.streams := rfl
@[simp] theorem State.wr_cc (s : State) (o v : Nat) : (s.wr o v).cc = s.cc := rfl
@[simp] theorem State.wr_ports (s : State) (o v : Nat) : (s.wr o v).ports = s.ports := rfl
@[simp] theorem State.wr_banks (s : State) (o v : Nat) : (s.wr o v).banks = s.banks := rfl
@[simp] theorem State.wr_fence (s : State) (o v : Nat) : (s.wr o v).fence = s.fence := rfl
@[simp] theorem State.wr_member (s : State) (o v : Nat) : (s.wr o v).member = s.member := rfl
@[simp] theorem State.wr_windows (s : State) (o v : Nat) : (s.wr o v).windows = s.windows := rfl
@[simp] theorem State.wr_winGen (s : State) (o v : Nat) : (s.wr o v).winGen = s.winGen := rfl
@[simp] theorem State.wr_txQ (s : State) (o v : Nat) : (s.wr o v).txQ = s.txQ := rfl
@[simp] theorem State.wr_inbox (s : State) (o v : Nat) : (s.wr o v).inbox = s.inbox := rfl
@[simp] theorem State.wr_awaiting (s : State) (o v : Nat) : (s.wr o v).awaiting = s.awaiting := rfl
@[simp] theorem State.wr_streamSeq (s : State) (o v : Nat) : (s.wr o v).streamSeq = s.streamSeq := rfl
@[simp] theorem State.wr_flowNo (s : State) (o v : Nat) : (s.wr o v).flowNo = s.flowNo := rfl
@[simp] theorem State.wr_tolls (s : State) (o v : Nat) : (s.wr o v).tolls = s.tolls := rfl
@[simp] theorem State.wr_layers (s : State) (o v : Nat) : (s.wr o v).layers = s.layers := rfl
@[simp] theorem State.wr_layerTab (s : State) (o v : Nat) : (s.wr o v).layerTab = s.layerTab := rfl
@[simp] theorem State.wr_ruleTab (s : State) (o v : Nat) : (s.wr o v).ruleTab = s.ruleTab := rfl
@[simp] theorem State.wr_nextTabs (s : State) (o v : Nat) : (s.wr o v).nextTabs = s.nextTabs := rfl
@[simp] theorem State.wr_lossGate (s : State) (o v : Nat) : (s.wr o v).lossGate = s.lossGate := rfl
@[simp] theorem State.wr_tollRegs (s : State) (o v : Nat) : (s.wr o v).tollRegs = s.tollRegs := rfl
@[simp] theorem State.wr_guardPermits (s : State) (o v : Nat) : (s.wr o v).guardPermits = s.guardPermits := rfl
@[simp] theorem State.wr_moments (s : State) (o v : Nat) : (s.wr o v).moments = s.moments := rfl
@[simp] theorem State.wr_lanternQ (s : State) (o v : Nat) : (s.wr o v).lanternQ = s.lanternQ := rfl
@[simp] theorem State.wr_lanternRun (s : State) (o v : Nat) : (s.wr o v).lanternRun = s.lanternRun := rfl
@[simp] theorem State.wr_faultLog (s : State) (o v : Nat) : (s.wr o v).faultLog = s.faultLog := rfl
@[simp] theorem State.wr_hearth (s : State) (o v : Nat) : (s.wr o v).hearth = s.hearth := rfl
@[simp] theorem State.wr_power (s : State) (o v : Nat) : (s.wr o v).power = s.power := rfl
@[simp] theorem State.wr_mfg (s : State) (o v : Nat) : (s.wr o v).mfg = s.mfg := rfl
@[simp] theorem State.wr_gatehouse (s : State) (o v : Nat) : (s.wr o v).gatehouse = s.gatehouse := rfl
@[simp] theorem State.wr_free (s : State) (o v : Nat) : (s.wr o v).free = s.free := rfl
@[simp] theorem State.wr_out (s : State) (o v : Nat) : (s.wr o v).out = s.out := rfl
@[simp] theorem State.wr_pending (s : State) (o v : Nat) : (s.wr o v).pending = s.pending := rfl
@[simp] theorem State.core_wr (s : State) (o v : Nat) (q : Fin 192) : (s.wr o v).core q = s.core q := rfl
@[simp] theorem State.ctx_wr (s : State) (o v : Nat) (q : Fin 64) : (s.wr o v).ctx q = s.ctx q := rfl
@[simp] theorem State.fn_wr (s : State) (o v : Nat) (q : Fin 32) : (s.wr o v).fn q = s.fn q := rfl
@[simp] theorem State.chan_wr (s : State) (o v : Nat) (q : Fin 208) : (s.wr o v).chan q = s.chan q := rfl
@[simp] theorem State.port_wr (s : State) (o v : Nat) (q : Fin 36) : (s.wr o v).port q = s.port q := rfl
@[simp] theorem State.bank_wr (s : State) (o v : Nat) (q : Fin 2) : (s.wr o v).bank q = s.bank q := rfl
@[simp] theorem State.sq_wr (s : State) (o v : Nat) (q : Fin 256) : (s.wr o v).sq q = s.sq q := rfl
@[simp] theorem State.cq_wr (s : State) (o v : Nat) (q : Fin 256) : (s.wr o v).cq q = s.cq q := rfl
@[simp] theorem State.toll_wr (s : State) (o v : Nat) (q : Fin 4) : (s.wr o v).toll q = s.toll q := rfl

/- bump. -/

@[simp] theorem State.bump_time (s : State) (o n : Nat) : (s.bump o n).time = s.time := rfl
@[simp] theorem State.bump_cores (s : State) (o n : Nat) : (s.bump o n).cores = s.cores := rfl
@[simp] theorem State.bump_ctxs (s : State) (o n : Nat) : (s.bump o n).ctxs = s.ctxs := rfl
@[simp] theorem State.bump_fns (s : State) (o n : Nat) : (s.bump o n).fns = s.fns := rfl
@[simp] theorem State.bump_numVfs (s : State) (o n : Nat) : (s.bump o n).numVfs = s.numVfs := rfl
@[simp] theorem State.bump_win (s : State) (o n : Nat) : (s.bump o n).win = s.win := rfl
@[simp] theorem State.bump_stepSh (s : State) (o n : Nat) : (s.bump o n).stepSh = s.stepSh := rfl
@[simp] theorem State.bump_hostPrev (s : State) (o n : Nat) : (s.bump o n).hostPrev = s.hostPrev := rfl
@[simp] theorem State.bump_hostFirst (s : State) (o n : Nat) : (s.bump o n).hostFirst = s.hostFirst := rfl
@[simp] theorem State.bump_hostCur (s : State) (o n : Nat) : (s.bump o n).hostCur = s.hostCur := rfl
@[simp] theorem State.bump_mem (s : State) (o n : Nat) : (s.bump o n).mem = s.mem := rfl
@[simp] theorem State.bump_marked (s : State) (o n : Nat) : (s.bump o n).marked = s.marked := rfl
@[simp] theorem State.bump_regions (s : State) (o n : Nat) : (s.bump o n).regions = s.regions := rfl
@[simp] theorem State.bump_dir (s : State) (o n : Nat) : (s.bump o n).dir = s.dir := rfl
@[simp] theorem State.bump_refetches (s : State) (o n : Nat) : (s.bump o n).refetches = s.refetches := rfl
@[simp] theorem State.bump_refetchNo (s : State) (o n : Nat) : (s.bump o n).refetchNo = s.refetchNo := rfl
@[simp] theorem State.bump_meet (s : State) (o n : Nat) : (s.bump o n).meet = s.meet := rfl
@[simp] theorem State.bump_chans (s : State) (o n : Nat) : (s.bump o n).chans = s.chans := rfl
@[simp] theorem State.bump_svcQ (s : State) (o n : Nat) : (s.bump o n).svcQ = s.svcQ := rfl
@[simp] theorem State.bump_sqs (s : State) (o n : Nat) : (s.bump o n).sqs = s.sqs := rfl
@[simp] theorem State.bump_cqs (s : State) (o n : Nat) : (s.bump o n).cqs = s.cqs := rfl
@[simp] theorem State.bump_streams (s : State) (o n : Nat) : (s.bump o n).streams = s.streams := rfl
@[simp] theorem State.bump_cc (s : State) (o n : Nat) : (s.bump o n).cc = s.cc := rfl
@[simp] theorem State.bump_ports (s : State) (o n : Nat) : (s.bump o n).ports = s.ports := rfl
@[simp] theorem State.bump_banks (s : State) (o n : Nat) : (s.bump o n).banks = s.banks := rfl
@[simp] theorem State.bump_fence (s : State) (o n : Nat) : (s.bump o n).fence = s.fence := rfl
@[simp] theorem State.bump_member (s : State) (o n : Nat) : (s.bump o n).member = s.member := rfl
@[simp] theorem State.bump_windows (s : State) (o n : Nat) : (s.bump o n).windows = s.windows := rfl
@[simp] theorem State.bump_winGen (s : State) (o n : Nat) : (s.bump o n).winGen = s.winGen := rfl
@[simp] theorem State.bump_txQ (s : State) (o n : Nat) : (s.bump o n).txQ = s.txQ := rfl
@[simp] theorem State.bump_inbox (s : State) (o n : Nat) : (s.bump o n).inbox = s.inbox := rfl
@[simp] theorem State.bump_awaiting (s : State) (o n : Nat) : (s.bump o n).awaiting = s.awaiting := rfl
@[simp] theorem State.bump_streamSeq (s : State) (o n : Nat) : (s.bump o n).streamSeq = s.streamSeq := rfl
@[simp] theorem State.bump_flowNo (s : State) (o n : Nat) : (s.bump o n).flowNo = s.flowNo := rfl
@[simp] theorem State.bump_tolls (s : State) (o n : Nat) : (s.bump o n).tolls = s.tolls := rfl
@[simp] theorem State.bump_layers (s : State) (o n : Nat) : (s.bump o n).layers = s.layers := rfl
@[simp] theorem State.bump_layerTab (s : State) (o n : Nat) : (s.bump o n).layerTab = s.layerTab := rfl
@[simp] theorem State.bump_ruleTab (s : State) (o n : Nat) : (s.bump o n).ruleTab = s.ruleTab := rfl
@[simp] theorem State.bump_nextTabs (s : State) (o n : Nat) : (s.bump o n).nextTabs = s.nextTabs := rfl
@[simp] theorem State.bump_lossGate (s : State) (o n : Nat) : (s.bump o n).lossGate = s.lossGate := rfl
@[simp] theorem State.bump_tollRegs (s : State) (o n : Nat) : (s.bump o n).tollRegs = s.tollRegs := rfl
@[simp] theorem State.bump_guardPermits (s : State) (o n : Nat) : (s.bump o n).guardPermits = s.guardPermits := rfl
@[simp] theorem State.bump_moments (s : State) (o n : Nat) : (s.bump o n).moments = s.moments := rfl
@[simp] theorem State.bump_lanternQ (s : State) (o n : Nat) : (s.bump o n).lanternQ = s.lanternQ := rfl
@[simp] theorem State.bump_lanternRun (s : State) (o n : Nat) : (s.bump o n).lanternRun = s.lanternRun := rfl
@[simp] theorem State.bump_faultLog (s : State) (o n : Nat) : (s.bump o n).faultLog = s.faultLog := rfl
@[simp] theorem State.bump_hearth (s : State) (o n : Nat) : (s.bump o n).hearth = s.hearth := rfl
@[simp] theorem State.bump_power (s : State) (o n : Nat) : (s.bump o n).power = s.power := rfl
@[simp] theorem State.bump_mfg (s : State) (o n : Nat) : (s.bump o n).mfg = s.mfg := rfl
@[simp] theorem State.bump_gatehouse (s : State) (o n : Nat) : (s.bump o n).gatehouse = s.gatehouse := rfl
@[simp] theorem State.bump_free (s : State) (o n : Nat) : (s.bump o n).free = s.free := rfl
@[simp] theorem State.bump_out (s : State) (o n : Nat) : (s.bump o n).out = s.out := rfl
@[simp] theorem State.bump_pending (s : State) (o n : Nat) : (s.bump o n).pending = s.pending := rfl
@[simp] theorem State.core_bump (s : State) (o n : Nat) (q : Fin 192) : (s.bump o n).core q = s.core q := rfl
@[simp] theorem State.ctx_bump (s : State) (o n : Nat) (q : Fin 64) : (s.bump o n).ctx q = s.ctx q := rfl
@[simp] theorem State.fn_bump (s : State) (o n : Nat) (q : Fin 32) : (s.bump o n).fn q = s.fn q := rfl
@[simp] theorem State.chan_bump (s : State) (o n : Nat) (q : Fin 208) : (s.bump o n).chan q = s.chan q := rfl
@[simp] theorem State.port_bump (s : State) (o n : Nat) (q : Fin 36) : (s.bump o n).port q = s.port q := rfl
@[simp] theorem State.bank_bump (s : State) (o n : Nat) (q : Fin 2) : (s.bump o n).bank q = s.bank q := rfl
@[simp] theorem State.sq_bump (s : State) (o n : Nat) (q : Fin 256) : (s.bump o n).sq q = s.sq q := rfl
@[simp] theorem State.cq_bump (s : State) (o n : Nat) (q : Fin 256) : (s.bump o n).cq q = s.cq q := rfl
@[simp] theorem State.toll_bump (s : State) (o n : Nat) (q : Fin 4) : (s.bump o n).toll q = s.toll q := rfl

/- wrBits. -/

@[simp] theorem State.wrBits_time (s : State) (o h l v : Nat) : (s.wrBits o h l v).time = s.time := rfl
@[simp] theorem State.wrBits_cores (s : State) (o h l v : Nat) : (s.wrBits o h l v).cores = s.cores := rfl
@[simp] theorem State.wrBits_ctxs (s : State) (o h l v : Nat) : (s.wrBits o h l v).ctxs = s.ctxs := rfl
@[simp] theorem State.wrBits_fns (s : State) (o h l v : Nat) : (s.wrBits o h l v).fns = s.fns := rfl
@[simp] theorem State.wrBits_numVfs (s : State) (o h l v : Nat) : (s.wrBits o h l v).numVfs = s.numVfs := rfl
@[simp] theorem State.wrBits_win (s : State) (o h l v : Nat) : (s.wrBits o h l v).win = s.win := rfl
@[simp] theorem State.wrBits_stepSh (s : State) (o h l v : Nat) : (s.wrBits o h l v).stepSh = s.stepSh := rfl
@[simp] theorem State.wrBits_hostPrev (s : State) (o h l v : Nat) : (s.wrBits o h l v).hostPrev = s.hostPrev := rfl
@[simp] theorem State.wrBits_hostFirst (s : State) (o h l v : Nat) : (s.wrBits o h l v).hostFirst = s.hostFirst := rfl
@[simp] theorem State.wrBits_hostCur (s : State) (o h l v : Nat) : (s.wrBits o h l v).hostCur = s.hostCur := rfl
@[simp] theorem State.wrBits_mem (s : State) (o h l v : Nat) : (s.wrBits o h l v).mem = s.mem := rfl
@[simp] theorem State.wrBits_marked (s : State) (o h l v : Nat) : (s.wrBits o h l v).marked = s.marked := rfl
@[simp] theorem State.wrBits_regions (s : State) (o h l v : Nat) : (s.wrBits o h l v).regions = s.regions := rfl
@[simp] theorem State.wrBits_dir (s : State) (o h l v : Nat) : (s.wrBits o h l v).dir = s.dir := rfl
@[simp] theorem State.wrBits_refetches (s : State) (o h l v : Nat) : (s.wrBits o h l v).refetches = s.refetches := rfl
@[simp] theorem State.wrBits_refetchNo (s : State) (o h l v : Nat) : (s.wrBits o h l v).refetchNo = s.refetchNo := rfl
@[simp] theorem State.wrBits_meet (s : State) (o h l v : Nat) : (s.wrBits o h l v).meet = s.meet := rfl
@[simp] theorem State.wrBits_chans (s : State) (o h l v : Nat) : (s.wrBits o h l v).chans = s.chans := rfl
@[simp] theorem State.wrBits_svcQ (s : State) (o h l v : Nat) : (s.wrBits o h l v).svcQ = s.svcQ := rfl
@[simp] theorem State.wrBits_sqs (s : State) (o h l v : Nat) : (s.wrBits o h l v).sqs = s.sqs := rfl
@[simp] theorem State.wrBits_cqs (s : State) (o h l v : Nat) : (s.wrBits o h l v).cqs = s.cqs := rfl
@[simp] theorem State.wrBits_streams (s : State) (o h l v : Nat) : (s.wrBits o h l v).streams = s.streams := rfl
@[simp] theorem State.wrBits_cc (s : State) (o h l v : Nat) : (s.wrBits o h l v).cc = s.cc := rfl
@[simp] theorem State.wrBits_ports (s : State) (o h l v : Nat) : (s.wrBits o h l v).ports = s.ports := rfl
@[simp] theorem State.wrBits_banks (s : State) (o h l v : Nat) : (s.wrBits o h l v).banks = s.banks := rfl
@[simp] theorem State.wrBits_fence (s : State) (o h l v : Nat) : (s.wrBits o h l v).fence = s.fence := rfl
@[simp] theorem State.wrBits_member (s : State) (o h l v : Nat) : (s.wrBits o h l v).member = s.member := rfl
@[simp] theorem State.wrBits_windows (s : State) (o h l v : Nat) : (s.wrBits o h l v).windows = s.windows := rfl
@[simp] theorem State.wrBits_winGen (s : State) (o h l v : Nat) : (s.wrBits o h l v).winGen = s.winGen := rfl
@[simp] theorem State.wrBits_txQ (s : State) (o h l v : Nat) : (s.wrBits o h l v).txQ = s.txQ := rfl
@[simp] theorem State.wrBits_inbox (s : State) (o h l v : Nat) : (s.wrBits o h l v).inbox = s.inbox := rfl
@[simp] theorem State.wrBits_awaiting (s : State) (o h l v : Nat) : (s.wrBits o h l v).awaiting = s.awaiting := rfl
@[simp] theorem State.wrBits_streamSeq (s : State) (o h l v : Nat) : (s.wrBits o h l v).streamSeq = s.streamSeq := rfl
@[simp] theorem State.wrBits_flowNo (s : State) (o h l v : Nat) : (s.wrBits o h l v).flowNo = s.flowNo := rfl
@[simp] theorem State.wrBits_tolls (s : State) (o h l v : Nat) : (s.wrBits o h l v).tolls = s.tolls := rfl
@[simp] theorem State.wrBits_layers (s : State) (o h l v : Nat) : (s.wrBits o h l v).layers = s.layers := rfl
@[simp] theorem State.wrBits_layerTab (s : State) (o h l v : Nat) : (s.wrBits o h l v).layerTab = s.layerTab := rfl
@[simp] theorem State.wrBits_ruleTab (s : State) (o h l v : Nat) : (s.wrBits o h l v).ruleTab = s.ruleTab := rfl
@[simp] theorem State.wrBits_nextTabs (s : State) (o h l v : Nat) : (s.wrBits o h l v).nextTabs = s.nextTabs := rfl
@[simp] theorem State.wrBits_lossGate (s : State) (o h l v : Nat) : (s.wrBits o h l v).lossGate = s.lossGate := rfl
@[simp] theorem State.wrBits_tollRegs (s : State) (o h l v : Nat) : (s.wrBits o h l v).tollRegs = s.tollRegs := rfl
@[simp] theorem State.wrBits_guardPermits (s : State) (o h l v : Nat) : (s.wrBits o h l v).guardPermits = s.guardPermits := rfl
@[simp] theorem State.wrBits_moments (s : State) (o h l v : Nat) : (s.wrBits o h l v).moments = s.moments := rfl
@[simp] theorem State.wrBits_lanternQ (s : State) (o h l v : Nat) : (s.wrBits o h l v).lanternQ = s.lanternQ := rfl
@[simp] theorem State.wrBits_lanternRun (s : State) (o h l v : Nat) : (s.wrBits o h l v).lanternRun = s.lanternRun := rfl
@[simp] theorem State.wrBits_faultLog (s : State) (o h l v : Nat) : (s.wrBits o h l v).faultLog = s.faultLog := rfl
@[simp] theorem State.wrBits_hearth (s : State) (o h l v : Nat) : (s.wrBits o h l v).hearth = s.hearth := rfl
@[simp] theorem State.wrBits_power (s : State) (o h l v : Nat) : (s.wrBits o h l v).power = s.power := rfl
@[simp] theorem State.wrBits_mfg (s : State) (o h l v : Nat) : (s.wrBits o h l v).mfg = s.mfg := rfl
@[simp] theorem State.wrBits_gatehouse (s : State) (o h l v : Nat) : (s.wrBits o h l v).gatehouse = s.gatehouse := rfl
@[simp] theorem State.wrBits_free (s : State) (o h l v : Nat) : (s.wrBits o h l v).free = s.free := rfl
@[simp] theorem State.wrBits_out (s : State) (o h l v : Nat) : (s.wrBits o h l v).out = s.out := rfl
@[simp] theorem State.wrBits_pending (s : State) (o h l v : Nat) : (s.wrBits o h l v).pending = s.pending := rfl
@[simp] theorem State.core_wrBits (s : State) (o h l v : Nat) (q : Fin 192) : (s.wrBits o h l v).core q = s.core q := rfl
@[simp] theorem State.ctx_wrBits (s : State) (o h l v : Nat) (q : Fin 64) : (s.wrBits o h l v).ctx q = s.ctx q := rfl
@[simp] theorem State.fn_wrBits (s : State) (o h l v : Nat) (q : Fin 32) : (s.wrBits o h l v).fn q = s.fn q := rfl
@[simp] theorem State.chan_wrBits (s : State) (o h l v : Nat) (q : Fin 208) : (s.wrBits o h l v).chan q = s.chan q := rfl
@[simp] theorem State.port_wrBits (s : State) (o h l v : Nat) (q : Fin 36) : (s.wrBits o h l v).port q = s.port q := rfl
@[simp] theorem State.bank_wrBits (s : State) (o h l v : Nat) (q : Fin 2) : (s.wrBits o h l v).bank q = s.bank q := rfl
@[simp] theorem State.sq_wrBits (s : State) (o h l v : Nat) (q : Fin 256) : (s.wrBits o h l v).sq q = s.sq q := rfl
@[simp] theorem State.cq_wrBits (s : State) (o h l v : Nat) (q : Fin 256) : (s.wrBits o h l v).cq q = s.cq q := rfl
@[simp] theorem State.toll_wrBits (s : State) (o h l v : Nat) (q : Fin 4) : (s.wrBits o h l v).toll q = s.toll q := rfl

/- bumpField. -/

@[simp] theorem State.bumpField_time (s : State) (o h l n : Nat) : (s.bumpField o h l n).time = s.time := rfl
@[simp] theorem State.bumpField_cores (s : State) (o h l n : Nat) : (s.bumpField o h l n).cores = s.cores := rfl
@[simp] theorem State.bumpField_ctxs (s : State) (o h l n : Nat) : (s.bumpField o h l n).ctxs = s.ctxs := rfl
@[simp] theorem State.bumpField_fns (s : State) (o h l n : Nat) : (s.bumpField o h l n).fns = s.fns := rfl
@[simp] theorem State.bumpField_numVfs (s : State) (o h l n : Nat) : (s.bumpField o h l n).numVfs = s.numVfs := rfl
@[simp] theorem State.bumpField_win (s : State) (o h l n : Nat) : (s.bumpField o h l n).win = s.win := rfl
@[simp] theorem State.bumpField_stepSh (s : State) (o h l n : Nat) : (s.bumpField o h l n).stepSh = s.stepSh := rfl
@[simp] theorem State.bumpField_hostPrev (s : State) (o h l n : Nat) : (s.bumpField o h l n).hostPrev = s.hostPrev := rfl
@[simp] theorem State.bumpField_hostFirst (s : State) (o h l n : Nat) : (s.bumpField o h l n).hostFirst = s.hostFirst := rfl
@[simp] theorem State.bumpField_hostCur (s : State) (o h l n : Nat) : (s.bumpField o h l n).hostCur = s.hostCur := rfl
@[simp] theorem State.bumpField_mem (s : State) (o h l n : Nat) : (s.bumpField o h l n).mem = s.mem := rfl
@[simp] theorem State.bumpField_marked (s : State) (o h l n : Nat) : (s.bumpField o h l n).marked = s.marked := rfl
@[simp] theorem State.bumpField_regions (s : State) (o h l n : Nat) : (s.bumpField o h l n).regions = s.regions := rfl
@[simp] theorem State.bumpField_dir (s : State) (o h l n : Nat) : (s.bumpField o h l n).dir = s.dir := rfl
@[simp] theorem State.bumpField_refetches (s : State) (o h l n : Nat) : (s.bumpField o h l n).refetches = s.refetches := rfl
@[simp] theorem State.bumpField_refetchNo (s : State) (o h l n : Nat) : (s.bumpField o h l n).refetchNo = s.refetchNo := rfl
@[simp] theorem State.bumpField_meet (s : State) (o h l n : Nat) : (s.bumpField o h l n).meet = s.meet := rfl
@[simp] theorem State.bumpField_chans (s : State) (o h l n : Nat) : (s.bumpField o h l n).chans = s.chans := rfl
@[simp] theorem State.bumpField_svcQ (s : State) (o h l n : Nat) : (s.bumpField o h l n).svcQ = s.svcQ := rfl
@[simp] theorem State.bumpField_sqs (s : State) (o h l n : Nat) : (s.bumpField o h l n).sqs = s.sqs := rfl
@[simp] theorem State.bumpField_cqs (s : State) (o h l n : Nat) : (s.bumpField o h l n).cqs = s.cqs := rfl
@[simp] theorem State.bumpField_streams (s : State) (o h l n : Nat) : (s.bumpField o h l n).streams = s.streams := rfl
@[simp] theorem State.bumpField_cc (s : State) (o h l n : Nat) : (s.bumpField o h l n).cc = s.cc := rfl
@[simp] theorem State.bumpField_ports (s : State) (o h l n : Nat) : (s.bumpField o h l n).ports = s.ports := rfl
@[simp] theorem State.bumpField_banks (s : State) (o h l n : Nat) : (s.bumpField o h l n).banks = s.banks := rfl
@[simp] theorem State.bumpField_fence (s : State) (o h l n : Nat) : (s.bumpField o h l n).fence = s.fence := rfl
@[simp] theorem State.bumpField_member (s : State) (o h l n : Nat) : (s.bumpField o h l n).member = s.member := rfl
@[simp] theorem State.bumpField_windows (s : State) (o h l n : Nat) : (s.bumpField o h l n).windows = s.windows := rfl
@[simp] theorem State.bumpField_winGen (s : State) (o h l n : Nat) : (s.bumpField o h l n).winGen = s.winGen := rfl
@[simp] theorem State.bumpField_txQ (s : State) (o h l n : Nat) : (s.bumpField o h l n).txQ = s.txQ := rfl
@[simp] theorem State.bumpField_inbox (s : State) (o h l n : Nat) : (s.bumpField o h l n).inbox = s.inbox := rfl
@[simp] theorem State.bumpField_awaiting (s : State) (o h l n : Nat) : (s.bumpField o h l n).awaiting = s.awaiting := rfl
@[simp] theorem State.bumpField_streamSeq (s : State) (o h l n : Nat) : (s.bumpField o h l n).streamSeq = s.streamSeq := rfl
@[simp] theorem State.bumpField_flowNo (s : State) (o h l n : Nat) : (s.bumpField o h l n).flowNo = s.flowNo := rfl
@[simp] theorem State.bumpField_tolls (s : State) (o h l n : Nat) : (s.bumpField o h l n).tolls = s.tolls := rfl
@[simp] theorem State.bumpField_layers (s : State) (o h l n : Nat) : (s.bumpField o h l n).layers = s.layers := rfl
@[simp] theorem State.bumpField_layerTab (s : State) (o h l n : Nat) : (s.bumpField o h l n).layerTab = s.layerTab := rfl
@[simp] theorem State.bumpField_ruleTab (s : State) (o h l n : Nat) : (s.bumpField o h l n).ruleTab = s.ruleTab := rfl
@[simp] theorem State.bumpField_nextTabs (s : State) (o h l n : Nat) : (s.bumpField o h l n).nextTabs = s.nextTabs := rfl
@[simp] theorem State.bumpField_lossGate (s : State) (o h l n : Nat) : (s.bumpField o h l n).lossGate = s.lossGate := rfl
@[simp] theorem State.bumpField_tollRegs (s : State) (o h l n : Nat) : (s.bumpField o h l n).tollRegs = s.tollRegs := rfl
@[simp] theorem State.bumpField_guardPermits (s : State) (o h l n : Nat) : (s.bumpField o h l n).guardPermits = s.guardPermits := rfl
@[simp] theorem State.bumpField_moments (s : State) (o h l n : Nat) : (s.bumpField o h l n).moments = s.moments := rfl
@[simp] theorem State.bumpField_lanternQ (s : State) (o h l n : Nat) : (s.bumpField o h l n).lanternQ = s.lanternQ := rfl
@[simp] theorem State.bumpField_lanternRun (s : State) (o h l n : Nat) : (s.bumpField o h l n).lanternRun = s.lanternRun := rfl
@[simp] theorem State.bumpField_faultLog (s : State) (o h l n : Nat) : (s.bumpField o h l n).faultLog = s.faultLog := rfl
@[simp] theorem State.bumpField_hearth (s : State) (o h l n : Nat) : (s.bumpField o h l n).hearth = s.hearth := rfl
@[simp] theorem State.bumpField_power (s : State) (o h l n : Nat) : (s.bumpField o h l n).power = s.power := rfl
@[simp] theorem State.bumpField_mfg (s : State) (o h l n : Nat) : (s.bumpField o h l n).mfg = s.mfg := rfl
@[simp] theorem State.bumpField_gatehouse (s : State) (o h l n : Nat) : (s.bumpField o h l n).gatehouse = s.gatehouse := rfl
@[simp] theorem State.bumpField_free (s : State) (o h l n : Nat) : (s.bumpField o h l n).free = s.free := rfl
@[simp] theorem State.bumpField_out (s : State) (o h l n : Nat) : (s.bumpField o h l n).out = s.out := rfl
@[simp] theorem State.bumpField_pending (s : State) (o h l n : Nat) : (s.bumpField o h l n).pending = s.pending := rfl
@[simp] theorem State.core_bumpField (s : State) (o h l n : Nat) (q : Fin 192) : (s.bumpField o h l n).core q = s.core q := rfl
@[simp] theorem State.ctx_bumpField (s : State) (o h l n : Nat) (q : Fin 64) : (s.bumpField o h l n).ctx q = s.ctx q := rfl
@[simp] theorem State.fn_bumpField (s : State) (o h l n : Nat) (q : Fin 32) : (s.bumpField o h l n).fn q = s.fn q := rfl
@[simp] theorem State.chan_bumpField (s : State) (o h l n : Nat) (q : Fin 208) : (s.bumpField o h l n).chan q = s.chan q := rfl
@[simp] theorem State.port_bumpField (s : State) (o h l n : Nat) (q : Fin 36) : (s.bumpField o h l n).port q = s.port q := rfl
@[simp] theorem State.bank_bumpField (s : State) (o h l n : Nat) (q : Fin 2) : (s.bumpField o h l n).bank q = s.bank q := rfl
@[simp] theorem State.sq_bumpField (s : State) (o h l n : Nat) (q : Fin 256) : (s.bumpField o h l n).sq q = s.sq q := rfl
@[simp] theorem State.cq_bumpField (s : State) (o h l n : Nat) (q : Fin 256) : (s.bumpField o h l n).cq q = s.cq q := rfl
@[simp] theorem State.toll_bumpField (s : State) (o h l n : Nat) (q : Fin 4) : (s.bumpField o h l n).toll q = s.toll q := rfl

/- Updates of one unit join. -/

@[simp] theorem State.setCore_setCore (s : State) (c : Fin 192) (k k' : Core) : (s.setCore c k).setCore c k' = s.setCore c k' := by
  simp [State.setCore]

@[simp] theorem State.setCore_core (s : State) (c : Fin 192) : s.setCore c (s.core c) = s := by
  simp [State.setCore, State.core]

theorem State.modCore_eq (s : State) (c : Fin 192) (f : Core → Core) : s.modCore c f = s.setCore c (f (s.core c)) := rfl

@[simp] theorem State.setCtx_setCtx (s : State) (x : Fin 64) (k k' : Ctx) : (s.setCtx x k).setCtx x k' = s.setCtx x k' := by
  simp [State.setCtx]

@[simp] theorem State.setCtx_ctx (s : State) (x : Fin 64) : s.setCtx x (s.ctx x) = s := by
  simp [State.setCtx, State.ctx]

theorem State.modCtx_eq (s : State) (x : Fin 64) (f : Ctx → Ctx) : s.modCtx x f = s.setCtx x (f (s.ctx x)) := rfl

theorem State.setCtx_setCore (s : State) (x : Fin 64) (j : Ctx) (c : Fin 192) (k : Core) :
    (s.setCore c k).setCtx x j = (s.setCtx x j).setCore c k := rfl

/- Slots of a core. -/

@[simp] theorem Core.slot_setSlot (k : Core) (i : Fin 8) (v : Slot) : (k.setSlot i v).slot i = v := Vector.getElem_set_self _

theorem Core.slot_setSlot_ne (k : Core) {i j : Fin 8} (v : Slot) (h : i ≠ j) : (k.setSlot i v).slot j = k.slot j :=
  Vector.getElem_set_ne i.isLt j.isLt fun h2 => h (Fin.ext h2)

end Sys2Proof.Machine
end

