-- ==== Sys2Proof/Laws/Ops.lean ====
section
/-! SUPPORT. What the shared operations do, once each: which fields they change, and what memory holds after a write. -/

namespace Sys2Proof.Machine

/- Registers of the module and of a core. -/

/-- A module register reads what was written to it last, and a write changes no other. -/
theorem State.rd_wr {s : State} (h : SMap.wf glbReset s.regs = true) (off v o : Nat) :
    (s.wr off v).rd o = if o = off then v % 2 ^ 32 else s.rd o := Regs.rd_wr h off v o

theorem State.wr_regs_wf {s : State} (h : SMap.wf glbReset s.regs = true) (off v : Nat) : SMap.wf glbReset (s.wr off v).regs = true :=
  Regs.wr_wf h off v

theorem State.wrBits_regs_wf {s : State} (h : SMap.wf glbReset s.regs = true) (off hi lo v : Nat) :
    SMap.wf glbReset (s.wrBits off hi lo v).regs = true := Regs.wrBits_wf h off hi lo v

/-- A write of a field changes no other register. -/
theorem State.rd_wrBits_ne {s : State} (h : SMap.wf glbReset s.regs = true) {off o : Nat} (ne : o ≠ off) (hi lo v : Nat) :
    (s.wrBits off hi lo v).rd o = s.rd o := (Regs.rd_wr h off _ o).trans (if_neg ne)

theorem Core.rd_wr {k : Core} (h : SMap.wf coreReset k.regs = true) (off v o : Nat) :
    (k.wr off v).rd o = if o = off then v % 2 ^ 32 else k.rd o := Regs.rd_wr h off v o

theorem Core.bump64_regs_wf {k : Core} (h : SMap.wf coreReset k.regs = true) (off n : Nat) : SMap.wf coreReset (k.bump64 off n).regs = true :=
  Regs.bump64_wf h off n

/- Reports and the fault log (R389, R420). -/

theorem State.report_shape (s : State) (r : Report) : ∃ g regs out, s.report r = { s with gatehouse := g, regs := regs, out := out } := by
  unfold State.report
  dsimp only
  split <;> exact ⟨_, _, _, rfl⟩

theorem State.report_regs_wf {s : State} (h : SMap.wf glbReset s.regs = true) (r : Report) : SMap.wf glbReset (s.report r).regs = true := by
  unfold State.report
  dsimp only
  split
  · exact State.wrBits_regs_wf (s := { s with gatehouse := _, out := _ }) h _ _ _ _
  · exact h

/-- An entry of the fault log changes the log, its pointers, the Gatehouse's reports and what goes out. -/
theorem State.logFault_shape (s : State) (e : LogEntry) :
    ∃ l g regs out, s.logFault e = { s with faultLog := l, gatehouse := g, regs := regs, out := out } := by
  unfold State.logFault
  dsimp only
  split
  · obtain ⟨g, regs, out, h⟩ := State.report_shape ((({ s with faultLog := SMap.set (fun _ => []) s.faultLog (bitsOf (s.rd 0x90004) 15 0 % 1024) (e.bytes s.time (bitsOf (s.rd 0x90004) 15 0) (s.stepOf e.ctx)) }).wrBits 0x90004 15 0 (bitsOf (s.rd 0x90004) 15 0 + 1)).bumpField 0x90004 31 16 1) (.fault (e.bytes s.time (bitsOf (s.rd 0x90004) 15 0) (s.stepOf e.ctx)))
    exact ⟨_, g, regs, out, h⟩
  · obtain ⟨g, regs, out, h⟩ := State.report_shape (({ s with faultLog := SMap.set (fun _ => []) s.faultLog (bitsOf (s.rd 0x90004) 15 0 % 1024) (e.bytes s.time (bitsOf (s.rd 0x90004) 15 0) (s.stepOf e.ctx)) }).wrBits 0x90004 15 0 (bitsOf (s.rd 0x90004) 15 0 + 1)) (.fault (e.bytes s.time (bitsOf (s.rd 0x90004) 15 0) (s.stepOf e.ctx)))
    exact ⟨_, g, regs, out, h⟩

theorem State.hearthEvent_shape (s : State) (bit : Nat) :
    ∃ g regs out, s.hearthEvent bit = { s with gatehouse := g, regs := regs, out := out } := by
  unfold State.hearthEvent
  split
  · exact ⟨_, _, _, rfl⟩
  · obtain ⟨g, regs, out, h⟩ := State.report_shape (s.wrBits 0x70004 bit bit 1) (.event ((s.wrBits 0x70004 bit bit 1).rd 0x70004))
    exact ⟨g, regs, out, h⟩

/- What the Innkeeper tells the host. -/

/-- A message or a pending bit; another function keeps its state. -/
theorem State.msix_shape (s : State) (f : Fin 32) (v : Nat) : ∃ k out, s.msix f v = { s with fns := s.fns.set f k, out := out } := by
  have same : s.fns.set f s.fns[f] = s.fns := by ext i hi; simp
  unfold State.msix
  dsimp only
  split
  · exact ⟨s.fns[f], s.out, by rw [same]⟩
  · split
    · exact ⟨_, _, rfl⟩
    · exact ⟨s.fns[f], _, by rw [same]⟩

/-- An event changes the function's own state, and may send a message. -/
theorem State.postEvent_shape (s : State) (f : Fin 32) (evt seq : Nat) (st : Byte) (u : Bool) (body : List Byte) :
    ∃ k out, s.postEvent f evt seq st u body = { s with fns := s.fns.set f k, out := out } := by
  have same : s.fns.set f s.fns[f] = s.fns := by ext i hi; simp
  unfold State.postEvent
  dsimp only
  split
  · exact ⟨s.fns[f], s.out, by rw [same]⟩
  · split
    · exact ⟨_, _, rfl⟩
    · generalize Memory.writeLE (Memory.writeRun _ _ _) _ _ _ = box
      obtain ⟨k, out, h⟩ := State.msix_shape (s.modFn f fun q => { q with box := box }) f 0
      refine ⟨k, out, h.trans ?_⟩
      have : ∀ a : Fn, (s.fns.set f a).set f k = s.fns.set f k := fun a => by
        ext i hi; simp
      simp only [State.modFn, this]

/-- A record joins a completion ring, or its context's held records. -/
theorem State.pushRec_shape (s : State) (x : Option (Fin 64)) (q : Fin 256) (r : Rec) :
    ∃ cqs ctxs, s.pushRec x q r = { s with cqs := cqs, ctxs := ctxs } := by
  unfold State.pushRec
  split
  · split <;> exact ⟨_, _, rfl⟩
  · exact ⟨_, _, rfl⟩

/-- A completion changes the rings and, for an orphaned context, its held records. -/
theorem State.complete_shape (s : State) (d : DescRef) (st : Byte) (d16 d32 d64 : Nat) :
    ∃ sqs cqs ctxs, s.complete d st d16 d32 d64 = { s with sqs := sqs, cqs := cqs, ctxs := ctxs } := by
  unfold State.complete
  dsimp only
  obtain ⟨cqs, ctxs, h⟩ := State.pushRec_shape s (s.sq (ringOf d.ring)).ctx (s.cqOf (ringOf d.ring)) { sq := d.ring, idx := some d.idx, tag := d.le 4 4, status := st, type := d.le 1 1, d16 := d16, d32 := d32, d64 := d64, irq := bitOf (d.le 2 1) 0, time := s.time }
  rw [h]
  split <;> split <;> exact ⟨_, _, _, rfl⟩

/-- A completion of a ring whose context is not orphaned: one record joins those that wait (R333). -/
theorem State.complete_record {s : State} {d : DescRef} {x : Fin 64} (hx : (s.sq (ringOf d.ring)).ctx = some x) (ho : (s.ctx x).orphaned = false)
    (st : Byte) (d16 d32 d64 : Nat) : s.complete d st d16 d32 d64 = s.modCq (s.cqOf (ringOf d.ring)) fun k => { k with waiting := k.waiting ++
      [{ sq := d.ring, idx := some d.idx, tag := d.le 4 4, status := st, type := d.le 1 1, d16 := d16, d32 := d32, d64 := d64,
         irq := bitOf (d.le 2 1) 0, time := s.time }] } := by
  simp [State.complete, State.pushRec, hx, ho]

/- Memory tiers. -/

/-- From `s` to `t` only what a memory controller keeps and reports has changed: markers, channels, the fault log and its reports. -/
def TierOnly (s t : State) : Prop :=
  t = { s with marked := t.marked, chans := t.chans, faultLog := t.faultLog, gatehouse := t.gatehouse, regs := t.regs, out := t.out }

theorem TierOnly.refl (s : State) : TierOnly s s := rfl

theorem TierOnly.trans {s t u : State} (h : TierOnly s t) (h' : TierOnly t u) : TierOnly s u := by
  unfold TierOnly at *; rw [h', h]

theorem TierOnly.mem {s t : State} (h : TierOnly s t) : t.mem = s.mem := by rw [h]

/-- A fold of such updates is one. -/
theorem TierOnly.foldl {α : Type} {f : State → α → State} (hf : ∀ s a, TierOnly s (f s a)) (l : List α) (s : State) : TierOnly s (l.foldl f s) := by
  induction l generalizing s with
  | nil => exact .refl s
  | cons a l ih => exact (hf s a).trans (ih _)

theorem State.modChan_tier (s : State) (c : Fin 208) (f : Chan → Chan) : TierOnly s (s.modChan c f) := rfl
theorem State.withMarked_tier (s : State) (m : SMap Bool) : TierOnly s { s with marked := m } := rfl
theorem State.markGrans_tier (s : State) (gs : List Nat) : TierOnly s (s.markGrans gs) := rfl

theorem State.logFault_tier (s : State) (e : LogEntry) : TierOnly s (s.logFault e) := by
  obtain ⟨l, g, regs, out, h⟩ := s.logFault_shape e; rw [h]; rfl

theorem State.corrected_tier (s : State) (c : Fin 208) (die : Nat) : TierOnly s (s.corrected c die) := by
  unfold State.corrected
  dsimp only
  split
  · exact ((s.modChan_tier c _).trans (State.modChan_tier _ c _)).trans (State.logFault_tier _ _)
  · exact s.modChan_tier c _

/-- Decoding a granule counts, and may erase a die. -/
theorem State.decodeGran_tier (s : State) (g : Nat) : TierOnly s (s.decodeGran g).2 := by
  unfold State.decodeGran
  dsimp only
  split
  · exact s.modChan_tier (chanOf (64 * g)) fun k => k.bump 0x30014 1
  · split
    · exact .refl s
    · exact s.corrected_tier _ _
    · exact s.modChan_tier (chanOf (64 * g)) fun k => k.bump 0x30014 1

/-- Tokens change the channels' queues. -/
theorem State.charge_tier (s : State) (a n cls cost : Nat) : TierOnly s (s.charge a n cls cost) := by
  unfold State.charge
  dsimp only
  split
  · exact .refl s
  · exact TierOnly.foldl (fun (s : State) (r : Fin 208 × Nat) => s.modChan_tier r.1 _) _ s

theorem State.mergeGran_tier (s : State) (g : Nat) : TierOnly s (s.mergeGran g) := by
  unfold State.mergeGran
  dsimp only
  have h := (s.decodeGran_tier g).trans ((s.decodeGran g).2.charge_tier (64 * g) 64 (s.decodeGran g).2.meet.cls 128)
  split
  · exact h.trans (State.markGrans_tier _ _)
  · exact h

theorem State.evictGran_tier (s : State) (g : Nat) : TierOnly s (s.evictGran g) := by
  unfold State.evictGran
  exact (s.modChan_tier (chanOf (64 * g)) _).trans (State.mergeGran_tier _ _)

theorem State.evictChan_tier (s : State) (c : Fin 208) (p : WcEntry → Bool) : TierOnly s (s.evictChan c p) := by
  unfold State.evictChan
  exact TierOnly.foldl (f := fun (s : State) (e : WcEntry) => s.evictGran e.gran) (fun s e => s.evictGran_tier e.gran) _ s

theorem State.evictRange_tier (s : State) (a n : Nat) : TierOnly s (s.evictRange a n) := by
  unfold State.evictRange
  exact TierOnly.foldl (fun (s : State) (r : Fin 208 × Nat) => s.evictChan_tier r.1 _) _ s

/-- From `s` to `t` only memory and what a controller keeps has changed. -/
def MemOnly (s t : State) : Prop := TierOnly { s with mem := t.mem } t

theorem MemOnly.refl (s : State) : MemOnly s s := rfl

theorem MemOnly.trans {s t u : State} (h : MemOnly s t) (h' : MemOnly t u) : MemOnly s u := by
  unfold MemOnly TierOnly at *; rw [h', h]

theorem TierOnly.memOnly {s t : State} (h : TierOnly s t) : MemOnly s t := by
  unfold MemOnly TierOnly at *; rw [h]

/-- A change of memory, and then of what a controller keeps. -/
theorem TierOnly.afterMem {s t : State} {m : Memory} (h : TierOnly { s with mem := m } t) : MemOnly s t ∧ t.mem = m := by
  have e : t.mem = m := h.mem
  refine ⟨?_, e⟩
  unfold MemOnly
  rw [e]; exact h

/-- Whole granules: the bytes, and what a controller keeps. -/
theorem State.putFull_shape (s : State) (a : Nat) (bs : List Byte) : MemOnly s (s.putFull a bs) ∧ (s.putFull a bs).mem = s.mem.writeRun a bs := by
  have h := s.charge_tier a bs.length s.meet.cls 64
  have e : (s.putFull a bs).mem = s.mem.writeRun a bs := by
    show (s.charge a bs.length s.meet.cls 64).mem.writeRun a bs = _; rw [h.mem]
  refine ⟨h.memOnly.trans ?_, e⟩
  rfl

/-- A partial write of one granule: the bytes, and what a controller keeps. -/
theorem State.putPartial_shape (s : State) (a : Nat) (bs : List Byte) :
    MemOnly s (s.putPartial a bs) ∧ (s.putPartial a bs).mem = s.mem.writeRun a bs := by
  apply TierOnly.afterMem
  unfold State.putPartial
  dsimp only
  split
  · exact State.mergeGran_tier _ _
  · split
    · split
      · exact ((State.modChan_tier _ (chanOf a) _).trans (State.charge_tier _ (64 * (a / 64)) 64 s.meet.cls 64)).trans (State.withMarked_tier _ _)
      · exact State.modChan_tier _ (chanOf a) _
    · refine TierOnly.trans ?_ (State.modChan_tier _ (chanOf a) _)
      split
      · split
        · exact State.evictGran_tier _ _
        · exact .refl _
      · exact .refl _

/-- Writing a run changes memory and what a controller keeps, nothing else. -/
theorem State.putBytes_shape (s : State) (a : Nat) (bs : List Byte) : MemOnly s (s.putBytes a bs) := by
  have full (s : State) (a : Nat) (bs : List Byte) (p : Prop) [Decidable p] : MemOnly s (if p then s else s.putFull a bs) := by
    split
    · exact .refl s
    · exact (s.putFull_shape a bs).1
  have part (s : State) (a : Nat) (bs : List Byte) (p : Prop) [Decidable p] : MemOnly s (if p then s else s.putPartial a bs) := by
    split
    · exact .refl s
    · exact (s.putPartial_shape a bs).1
  unfold State.putBytes
  dsimp only
  exact ((part s a _ _).trans (full _ _ _ _)).trans (part _ _ _ _)

/-- Two runs in a row are one. -/
theorem Memory.read_writeRun_two {m : Memory} (hm : m.wf = true) (a : Nat) (bs bs' : List Byte) (b : Nat) :
    ((m.writeRun a bs).writeRun (a + bs.length) bs').read b = (m.writeRun a (bs ++ bs')).read b := by
  rw [Memory.read_writeRun (Memory.writeRun_wf hm _ _), Memory.read_writeRun hm, Memory.read_writeRun hm, List.length_append]
  by_cases h1 : b < a
  · rw [if_neg (by omega), if_neg (by omega), if_neg (by omega)]
  · by_cases h2 : b < a + bs.length
    · rw [if_neg (by omega), if_pos (by omega), if_pos (by omega), List.getD_append _ _ _ _ (by omega)]
    · by_cases h3 : b < a + bs.length + bs'.length
      · rw [if_pos (by omega), if_pos (by omega), List.getD_append_right _ _ _ _ (by omega)]; congr 1; omega
      · rw [if_neg (by omega), if_neg (by omega), if_neg (by omega)]

theorem Memory.writeRun_two {m : Memory} (hm : m.wf = true) (a : Nat) (bs bs' : List Byte) :
    (m.writeRun a bs).writeRun (a + bs.length) bs' = m.writeRun a (bs ++ bs') :=
  SMap.ext (Memory.writeRun_wf (Memory.writeRun_wf hm _ _) _ _) (Memory.writeRun_wf hm _ _) fun b => Memory.read_writeRun_two hm a bs bs' b

theorem Memory.writeRun_nil {m : Memory} (hm : m.wf = true) (a : Nat) : m.writeRun a [] = m :=
  SMap.ext (Memory.writeRun_wf hm _ _) hm fun b => by
    have := Memory.read_writeRun hm a [] b
    rw [if_neg (by simp)] at this; exact this

/-- After a run is written, memory holds it and is as before elsewhere: whole and partial granules make no difference to the bytes. -/
theorem State.putBytes_mem {s : State} (hm : s.mem.wf = true) (a : Nat) (bs : List Byte) : (s.putBytes a bs).mem = s.mem.writeRun a bs := by
  have part (s : State) (hm : s.mem.wf = true) (a : Nat) (bs : List Byte) (p : Prop) [Decidable p] (hp : p → bs = []) :
      (if p then s else s.putPartial a bs).mem = s.mem.writeRun a bs := by
    split
    · rw [hp ‹_›, Memory.writeRun_nil hm]
    · exact (s.putPartial_shape a bs).2
  have full (s : State) (hm : s.mem.wf = true) (a : Nat) (bs : List Byte) (p : Prop) [Decidable p] (hp : p → bs = []) :
      (if p then s else s.putFull a bs).mem = s.mem.writeRun a bs := by
    split
    · rw [hp ‹_›, Memory.writeRun_nil hm]
    · exact (s.putFull_shape a bs).2
  unfold State.putBytes
  dsimp only
  generalize hh : min bs.length ((64 - a % 64) % 64) = h
  have hle : h ≤ bs.length := by omega
  generalize hr : bs.drop h = rest
  generalize hd : rest.length / 64 * 64 = mid
  have hmid : mid ≤ rest.length := by rw [← hd]; omega
  have e1 := part s hm a (bs.take h) (h = 0) (fun e => by rw [e]; rfl)
  have w1 : (if h = 0 then s else s.putPartial a (bs.take h)).mem.wf = true := by rw [e1]; exact Memory.writeRun_wf hm _ _
  generalize (if h = 0 then s else s.putPartial a (bs.take h)) = s1 at *
  have e2 := full s1 w1 (a + h) (rest.take mid) (mid = 0) (fun e => by rw [e]; rfl)
  have w2 : (if mid = 0 then s1 else s1.putFull (a + h) (rest.take mid)).mem.wf = true := by rw [e2]; exact Memory.writeRun_wf w1 _ _
  generalize (if mid = 0 then s1 else s1.putFull (a + h) (rest.take mid)) = s2 at *
  rw [part s2 w2 (a + h + mid) (rest.drop mid) (rest.drop mid = []) id, e2, e1]
  have l1 : (bs.take h).length = h := by rw [List.length_take]; omega
  have l2 : (bs.take h ++ rest.take mid).length = h + mid := by rw [List.length_append, l1, List.length_take]; omega
  have j1 := Memory.writeRun_two hm a (bs.take h) (rest.take mid)
  rw [l1] at j1
  have j2 := Memory.writeRun_two hm a (bs.take h ++ rest.take mid) (rest.drop mid)
  rw [l2, ← Nat.add_assoc] at j2
  rw [j1, j2, List.append_assoc, List.take_append_drop, ← hr, List.take_append_drop]

theorem State.putBytes_wf {s : State} (hm : s.mem.wf = true) (a : Nat) (bs : List Byte) : (s.putBytes a bs).mem.wf = true := by
  rw [State.putBytes_mem hm]; exact Memory.writeRun_wf hm _ _

/-- Erasing keeps the form; the range reads 0 and the rest as before. -/
theorem State.zero_mem {s : State} (hm : s.mem.wf = true) (a n : Nat) : (s.zero a n).mem.wf = true ∧
    ∀ b, (s.zero a n).mem.read b = if a ≤ b ∧ b < a + n then 0 else s.mem.read b := by
  obtain ⟨b1, b2, b3⟩ := Memory.below_spec hm a
  obtain ⟨f1, f2⟩ := Memory.from_spec hm (a + n)
  obtain ⟨h1, h2⟩ := SMap.append_from b1 b2 (by omega) (SMap.wfFrom_mono (lo' := a) (by omega) f1)
  refine ⟨h1, fun b => (h2 b).trans ?_⟩
  have e1 : SMap.get memDefault (s.mem.below a) b = _ := b3 b
  have e2 : SMap.get memDefault (s.mem.from (a + n)) b = _ := f2 b
  rw [e1, e2]
  by_cases c1 : b < a
  · rw [if_pos c1, if_pos c1, if_neg (by omega)]
  · by_cases c2 : b < a + n
    · rw [if_neg c1, if_neg (by omega), if_pos (by omega)]
    · rw [if_neg c1, if_pos (by omega), if_neg (by omega)]

/-- The memory after reset has the canonical form. -/
theorem reset_mem_wf : State.reset.mem.wf = true := rfl

end Sys2Proof.Machine
end

