-- ==== Sys2Proof/Laws/Steward.lean ====
section
/-! SUPPORT. What the Steward's shared operations do, once each. -/

namespace Sys2Proof.Machine

open Sys2Proof.Safety

@[simp] theorem counted_core (e : Ecc) (s : State) (c : Fin 192) : (counted e s).core c = s.core c := by
  unfold counted; split <;> rfl

@[simp] theorem counted_ctx (e : Ecc) (s : State) (x : Fin 64) : (counted e s).ctx x = s.ctx x := by
  unfold counted; split <;> rfl

@[simp] theorem counted_time (e : Ecc) (s : State) : (counted e s).time = s.time := by
  unfold counted; split <;> rfl

@[simp] theorem Core.setG_pc (k : Core) (r : BitVec 5) (v : Word) : (k.setG r v).stw.pc = k.stw.pc := by
  unfold Core.setG; split <;> rfl

@[simp] theorem Core.setG_state (k : Core) (r : BitVec 5) (v : Word) : (k.setG r v).stw.state = k.stw.state := by
  unfold Core.setG; split <;> rfl

@[simp] theorem Core.setPair_pc (k : Core) (r : BitVec 5) (v : Nat) : (k.setPair r v).stw.pc = k.stw.pc := by
  simp [Core.setPair]

@[simp] theorem Core.raise_pc (k : Core) (f : FFlags) : (k.raise f).stw.pc = k.stw.pc := rfl

/-- A running Steward that fetches `i` takes the row of its operation, and no other row. -/
theorem stewardStep_eq {c : Fin 192} {e : Ecc} {i : SInstr} {s : State} (h : Fetches c e i s) (op : SOp)
    (act : SInstr → State → State) :
    stewardStep op c e act s = if i.op = op then .next (act i (counted e s)) else .next s := by
  obtain ⟨h1, h2, h3, h4⟩ := h
  cases e <;> simp_all [stewardStep, stewardIn, counted]

/-- A Steward at word `n` of its bank. -/
theorem State.stwGoto_eq (s : State) (c : Fin 192) (n : Int) (h : 0 ≤ n ∧ n < 16384) :
    s.stwGoto c n = s.setCore c (atWord (s.core c) n.toNat) := by
  simp [State.stwGoto, h, State.modCore_eq, atWord]

/-- An update that keeps the program counter, and the next word. -/
theorem State.stwDone_eq (s : State) (c : Fin 192) (f : Core → Core) (hf : (f (s.core c)).stw.pc = (s.core c).stw.pc)
    (h : (s.core c).stw.pc.toNat < 16383) : s.stwDone c f = s.setCore c (goesOn (f (s.core c))) := by
  have h2 : (0 : Int) ≤ (s.core c).stw.pc.toNat + 1 ∧ ((s.core c).stw.pc.toNat + 1 : Int) < 16384 := by omega
  have h3 : ((s.core c).stw.pc.toNat + 1 : Int).toNat = (s.core c).stw.pc.toNat + 1 := by omega
  simp [State.stwDone, State.stwNext, State.modCore_eq, hf, State.stwGoto_eq _ _ _ h2, goesOn, h3]

/-- gd is written and the Steward goes on. -/
theorem State.stwWrite_eq (s : State) (c : Fin 192) (d : BitVec 5) (v : Word) (h : (s.core c).stw.pc.toNat < 16383) :
    s.stwWrite c d v = s.setCore c (goesOn ((s.core c).setG d v)) :=
  s.stwDone_eq c _ (by simp) h

end Sys2Proof.Machine
end

