-- ==== Sys2Proof/Laws/Tiles.lean ====
section
/-! SUPPORT. What the tile operations do: the tile that STT builds passes the checks of R231 and R241. -/

namespace Sys2Proof.Machine
/-- Little-endian bytes read back as the number, within their width. -/
theorem leNat_leBytes (n v : Nat) : leNat (leBytes n v) = v % 256 ^ n := by
  induction n generalizing v with
  | zero => simp [leBytes, leNat, Nat.mod_one]
  | succ n ih =>
    rw [leBytes, leNat, ih, BitVec.toNat_ofNat, Nat.pow_succ 256 n, Nat.mul_comm (256 ^ n), Nat.mod_mul]

@[simp] theorem leBytes_length (n v : Nat) : (leBytes n v).length = n := by
  induction n generalizing v <;> simp_all [leBytes]

/-- The digest does not cover itself (R230). -/
theorem digestOf_skips (h e e' ps : List Byte) (hh : h.length = 56) (he : e.length = 8) (he' : e'.length = 8) :
    digestOf (h ++ (e ++ ps)) = digestOf (h ++ (e' ++ ps)) := by
  simp [digestOf, tileField, List.take_append, List.drop_append, hh, he, he']

/-- The first 56 bytes of the header that STT builds (R232). -/
def tileHead (fmt kind layout rows cols gen : Nat) : List Byte :=
  leBytes 1 1 ++ (leBytes 1 (fmt + kind * 32) ++ (leBytes 1 layout ++ (leBytes 1 0 ++
    (leBytes 2 rows ++ (leBytes 2 cols ++ (leBytes 2 gen ++ (leBytes 2 0 ++ leBytes 4 (planes fmt kind)))))))) ++ List.replicate 40 0

theorem tileHead_length (fmt kind layout rows cols gen : Nat) : (tileHead fmt kind layout rows cols gen).length = 56 := by
  simp [tileHead]

theorem buildTile_eq (fmt kind layout rows cols gen : Nat) (ps : List Byte) :
    ∃ d, buildTile fmt kind layout rows cols gen ps = tileHead fmt kind layout rows cols gen ++ (leBytes 8 d ++ ps) ∧
      d = digestOf (tileHead fmt kind layout rows cols gen ++ (List.replicate 8 0 ++ ps)) := ⟨_, rfl, rfl⟩

theorem buildTile_length (fmt kind layout rows cols gen : Nat) (ps : List Byte) :
    (buildTile fmt kind layout rows cols gen ps).length = 64 + ps.length := by
  obtain ⟨d, h, -⟩ := buildTile_eq fmt kind layout rows cols gen ps
  rw [h, List.length_append, tileHead_length, List.length_append, leBytes_length]; omega

theorem digestOf_lt (bs : List Byte) : digestOf bs < 256 ^ 8 := by
  simp only [digestOf]; exact (crc64 _).isLt

/-- The digest of a built tile stands. -/
theorem buildTile_digest (fmt kind layout rows cols gen : Nat) (ps : List Byte) :
    digestOk (buildTile fmt kind layout rows cols gen ps) = true := by
  obtain ⟨d, h, hd⟩ := buildTile_eq fmt kind layout rows cols gen ps
  have hl := tileHead_length fmt kind layout rows cols gen
  generalize tileHead fmt kind layout rows cols gen = t at *
  have h1 : digestOf (t ++ (leBytes 8 d ++ ps)) = d := by
    rw [digestOf_skips t _ (List.replicate 8 0) ps hl (by simp) (by simp)]; exact hd.symm
  have h2 : tileDigest (t ++ (leBytes 8 d ++ ps)) = d % 256 ^ 8 := by
    simp [tileDigest, tileField, hl, leNat_leBytes]
  have h3 : d < 256 ^ 8 := hd ▸ digestOf_lt _
  rw [h, digestOk, h1, h2, Nat.mod_eq_of_lt h3]; simp

theorem tileField_append (h r : List Byte) (off n : Nat) (hl : off + n ≤ h.length) : tileField (h ++ r) off n = tileField h off n := by
  rw [tileField, tileField, List.drop_append_of_le_length (by omega), List.take_append_of_le_length (by simp; omega)]

/-- A whole tile of generation 0, once built, is one that a refetch takes. -/
theorem goodRefetch_buildTile (ps : List Byte) (h : ps.length = planes 13 0) :
    goodRefetch 0 (buildTile 13 0 1 128 128 0 ps) = some (buildTile 13 0 1 128 128 0 ps) := by
  have hd := buildTile_digest 13 0 1 128 128 0 ps
  have hlen := buildTile_length 13 0 1 128 128 0 ps
  obtain ⟨d, e, -⟩ := buildTile_eq 13 0 1 128 128 0 ps
  have hl := tileHead_length 13 0 1 128 128 0
  generalize buildTile 13 0 1 128 128 0 ps = t at *
  have f (off n : Nat) (hn : off + n ≤ 56) : tileField t off n = tileField (tileHead 13 0 1 128 128 0) off n := by
    rw [e]; exact tileField_append _ _ _ _ (by omega)
  have hz : (t.drop 0x10).take 40 = ((tileHead 13 0 1 128 128 0).drop 0x10).take 40 := by
    rw [e, List.drop_append_of_le_length (by omega), List.take_append_of_le_length (by simp [hl])]
  have hfmt : tileFmt t = 13 := by rw [tileFmt, f 1 1 (by omega)]; decide
  have hsc : tileScale t = 0 := by rw [tileScale, f 1 1 (by omega)]; decide
  have hb : headerBytes t = t.length := by rw [headerBytes, hfmt, hsc, hlen, h]; rfl
  have hv : headerValid t = true := by
    unfold headerValid tileVersion tileLayout tileComp tileRows tileCols tileStoredBytes
    rw [hfmt, hsc, hz, f 0 1 (by omega), f 1 1 (by omega), f 2 1 (by omega), f 3 1 (by omega), f 4 2 (by omega), f 6 2 (by omega), f 0x0A 2 (by omega), f 0x0C 4 (by omega)]
    decide
  have hg : tileGen t = 0 := by rw [tileGen, f 8 2 (by omega)]; decide
  have hs : headerSane t = true := by rw [headerSane, hfmt, hsc]; decide
  simp [goodRefetch, hs, hb, hv, hd, hg]

end Sys2Proof.Machine
end

