-- ==== Sys2Proof/WellFormed.lean ====
section
/-! DEFINITION. Which commands are well formed: the lengths and ranges of the data that the
surroundings hand over with a row. Every unit number is in range by its type. -/

namespace Sys2Proof

/-- Data widths that BAR4, the fabric and the descriptors fix (R12, R257, R331): a descriptor is 64 B, a
packet at least its 64 B header. -/
def Instr.wf : Instr → Bool
  | .descriptorFetch _ bytes => bytes.length == 64
  | .flitReceive _ data _ _ _ _ _ _ => data.length == 256
  | .write pkt _ => decide (64 ≤ pkt.length)
  | .readReq pkt _ => pkt.length == 64
  | .readResp pkt => decide (64 ≤ pkt.length)
  | .completion pkt => pkt.length == 64
  | .neighborIdAnnounce _ id => decide (id < 2 ^ 16)
  | .bar4Read _ off len _ => decide (0 < len ∧ off + len ≤ 2 ^ 39)
  | .bar4Write _ off data _ => decide (0 < data.length ∧ off + data.length ≤ 2 ^ 39)
  | .registerWrite _ off _ _ => decide (off % 4 = 0 ∧ off < 2 ^ 26)
  | .registerReadLoLatch _ off => decide (off % 4 = 0 ∧ off < 2 ^ 26)
  | .anchorAdd _ h => h.length == 48
  | .anchorRemove _ h => h.length == 48
  | _ => true

end Sys2Proof
end

