-- ==== Sys2Proof/Tests/Slice0.lean ====
section
/-! SUPPORT. Tests of the model: steps on small states, and for each statement that has hypotheses a state that meets them. -/

namespace Sys2Proof.Tests

set_option Elab.async false

open Sys2Proof.Machine Sys2Proof.Safety

/-- The state after reset with every core as `k`. -/
def allCores (k : Core) : State := { State.reset with cores := Vector.replicate 192 k }

/-- A memory that holds these 32-bit words. -/
def words (l : List (Nat × Nat)) : Memory := l.foldl (fun m p => m.writeLE p.1 4 p.2) []

/-- A memory that holds these bytes from an address on. -/
def bytesAt (a : Nat) (bs : List Byte) : Memory := let m : Memory := []; m.writeRun a bs

/-- What a command's result says of the next state; false where there is none. -/
def after (r : Result) (p : State → Bool) : Bool :=
  match r with
  | .next t => p t
  | _ => false

/-- A core whose Steward runs at word `pc`, which holds `w`, with `v` in every register but g0. -/
def fetching (pc : Nat) (w v : Word) : Core :=
  { resetCore 0 with imem0 := [(pc, w)], stw := { resetSteward with state := .running, pc := BitVec.ofNat 14 pc, g := Vector.replicate 32 v } }

/- Well-formedness: one ill-formed term for each check. -/

theorem test_wf_refuses : (Instr.descriptorFetch 0 []).wf = false ∧ (Instr.write [] []).wf = false ∧
    (Instr.readReq [] []).wf = false ∧ (Instr.readResp []).wf = false ∧ (Instr.completion []).wf = false ∧
    (Instr.neighborIdAnnounce 0 0x10000).wf = false ∧ (Instr.bar4Read 0 0 0 []).wf = false ∧ (Instr.bar4Write 0 (2 ^ 39) [1] []).wf = false ∧
    (Instr.registerWrite 0 2 0xF 0).wf = false ∧ (Instr.registerReadLoLatch 0 (2 ^ 26)).wf = false := by
  decide +kernel

theorem test_wf_accepts : (Instr.registerWrite 0 0x10100 0xF 0).wf = true ∧ (Instr.bar4Read 31 (2 ^ 39 - 1) 1 []).wf = true ∧
    (Instr.descriptorFetch 255 (List.replicate 64 0)).wf = true := by
  decide +kernel

/- Steward words, written out from Tables 5.2 and 5.3: the operation at [31:26], then gd, ga and gb = 2, 4, 6 where the form has them. -/

def writtenInteger : List (Word × SInstr) :=
  [(0x00443000, ⟨.add, 2, 4, 6, 0⟩), (0x04443000, ⟨.sub, 2, 4, 6, 0⟩), (0x08443000, ⟨.and, 2, 4, 6, 0⟩),
   (0x0C443000, ⟨.or, 2, 4, 6, 0⟩), (0x10443000, ⟨.xor, 2, 4, 6, 0⟩), (0x14443000, ⟨.shl, 2, 4, 6, 0⟩),
   (0x18443000, ⟨.shr, 2, 4, 6, 0⟩), (0x1C443000, ⟨.sra, 2, 4, 6, 0⟩), (0x20443000, ⟨.slt, 2, 4, 6, 0⟩),
   (0x24443000, ⟨.sltu, 2, 4, 6, 0⟩), (0x28443000, ⟨.mul, 2, 4, 6, 0⟩), (0x2C443000, ⟨.mulh, 2, 4, 6, 0⟩),
   (0x30443000, ⟨.div, 2, 4, 6, 0⟩), (0x34443000, ⟨.divu, 2, 4, 6, 0⟩), (0x38443000, ⟨.rem, 2, 4, 6, 0⟩),
   (0x3C443000, ⟨.remu, 2, 4, 6, 0⟩), (0x4044FFFF, ⟨.addi, 2, 4, 0, 0xFFFF⟩), (0x44448000, ⟨.andi, 2, 4, 0, 0x8000⟩),
   (0x48448000, ⟨.ori, 2, 4, 0, 0x8000⟩), (0x4C44FFFF, ⟨.xori, 2, 4, 0, 0xFFFF⟩), (0x5044001F, ⟨.shli, 2, 4, 0, 0x1F⟩),
   (0x5444001F, ⟨.shri, 2, 4, 0, 0x1F⟩), (0x5844001F, ⟨.srai, 2, 4, 0, 0x1F⟩), (0x5C40FFFF, ⟨.lui, 2, 0, 0, 0xFFFF⟩)]

def writtenMemory : List (Word × SInstr) :=
  [(0x6044000C, ⟨.lw, 2, 4, 0, 0xC⟩), (0x6444000E, ⟨.lh, 2, 4, 0, 0xE⟩), (0x6844000E, ⟨.lhu, 2, 4, 0, 0xE⟩),
   (0x6C44000F, ⟨.lb, 2, 4, 0, 0xF⟩), (0x7044000F, ⟨.lbu, 2, 4, 0, 0xF⟩), (0x7444000C, ⟨.sw, 2, 4, 0, 0xC⟩),
   (0x7844000E, ⟨.sh, 2, 4, 0, 0xE⟩), (0x7C44000F, ⟨.sb, 2, 4, 0, 0xF⟩), (0x8044000C, ⟨.lws, 2, 4, 0, 0xC⟩),
   (0x8444000C, ⟨.sws, 2, 4, 0, 0xC⟩), (0x8886FFFF, ⟨.beq, 0, 4, 6, 0xFFFF⟩), (0x8C86FFFF, ⟨.bne, 0, 4, 6, 0xFFFF⟩),
   (0x90860001, ⟨.blt, 0, 4, 6, 0x1⟩), (0x9486FFFF, ⟨.bge, 0, 4, 6, 0xFFFF⟩), (0x98860001, ⟨.bltu, 0, 4, 6, 0x1⟩),
   (0x9C86FFFF, ⟨.bgeu, 0, 4, 6, 0xFFFF⟩), (0xA05FFFFF, ⟨.jal, 2, 0, 0, 0x1FFFFF⟩), (0xA444000F, ⟨.jalr, 2, 4, 0, 0xF⟩)]

def writtenFp : List (Word × SInstr) :=
  [(0xA8443000, ⟨.faddS, 2, 4, 6, 0⟩), (0xA8443001, ⟨.fsubS, 2, 4, 6, 0⟩), (0xA8443002, ⟨.fmulS, 2, 4, 6, 0⟩),
   (0xA8443003, ⟨.fdivS, 2, 4, 6, 0⟩), (0xA8440004, ⟨.fsqrtS, 2, 4, 0, 0⟩), (0xA8443005, ⟨.fminS, 2, 4, 6, 0⟩),
   (0xA8443006, ⟨.fmaxS, 2, 4, 6, 0⟩), (0xA8443007, ⟨.feqS, 2, 4, 6, 0⟩), (0xA8443008, ⟨.fltS, 2, 4, 6, 0⟩),
   (0xA8443009, ⟨.fleS, 2, 4, 6, 0⟩), (0xA844000A, ⟨.fcvtSW, 2, 4, 0, 0⟩), (0xA844000B, ⟨.fcvtWS, 2, 4, 0, 0⟩),
   (0xA844300C, ⟨.fmaS, 2, 4, 6, 0⟩), (0xAC443000, ⟨.faddD, 2, 4, 6, 0⟩), (0xAC443001, ⟨.fsubD, 2, 4, 6, 0⟩),
   (0xAC443002, ⟨.fmulD, 2, 4, 6, 0⟩), (0xAC443003, ⟨.fdivD, 2, 4, 6, 0⟩), (0xAC440004, ⟨.fsqrtD, 2, 4, 0, 0⟩),
   (0xAC443005, ⟨.fminD, 2, 4, 6, 0⟩), (0xAC443006, ⟨.fmaxD, 2, 4, 6, 0⟩), (0xAC443007, ⟨.feqD, 2, 4, 6, 0⟩),
   (0xAC443008, ⟨.fltD, 2, 4, 6, 0⟩), (0xAC443009, ⟨.fleD, 2, 4, 6, 0⟩), (0xAC44000A, ⟨.fcvtDW, 2, 4, 0, 0⟩),
   (0xAC44000B, ⟨.fcvtWD, 2, 4, 0, 0⟩), (0xAC44300C, ⟨.fmaD, 2, 4, 6, 0⟩), (0xAC44000D, ⟨.fcvtDS, 2, 4, 0, 0⟩),
   (0xAC44000E, ⟨.fcvtSD, 2, 4, 0, 0⟩)]

def writtenSystem : List (Word × SInstr) :=
  [(0xC0440007, ⟨.fld, 2, 4, 0, 0x7⟩), (0xC4443000, ⟨.farm, 2, 4, 6, 0⟩), (0xC8443000, ⟨.fstat, 2, 4, 6, 0⟩),
   (0xCC4403FC, ⟨.frd, 2, 4, 0, 0x3FC⟩), (0xD0443000, ⟨.pwr, 2, 4, 6, 0⟩), (0xD4443000, ⟨.prd, 2, 4, 6, 0⟩),
   (0xD85C3000, ⟨.mskw, 2, 28, 6, 0⟩), (0xE0440FFF, ⟨.wait, 2, 4, 0, 0xFFF⟩), (0xE4440007, ⟨.csrr, 2, 4, 0, 0x7⟩),
   (0xE8440004, ⟨.csrw, 2, 4, 0, 0x4⟩), (0xFC443000, ⟨.halt, 2, 4, 6, 0⟩)]

/-- The word spells the instruction, the encoder writes the word, and a Steward that runs at its word fetches it. -/
def written (p : Word × SInstr) : Bool :=
  decide (decodeSteward p.1.toNat = some p.2) && (encodeSteward p.2 == p.1.toNat) && p.2.wf &&
    decide (((allCores (fetching 16382 p.1 0)).core 191).fetch 16382 = p.1)

theorem test_written_integer : writtenInteger.all written = true := by decide +kernel
theorem test_written_memory : writtenMemory.all written = true := by decide +kernel
theorem test_written_fp : writtenFp.all written = true := by decide +kernel
theorem test_written_system : writtenSystem.all written = true := by decide +kernel

theorem test_bad_words : decodeSteward 0xC8000001 = none ∧ decodeSteward 0x5CA50001 = none ∧ decodeSteward 0xAC411800 = none ∧
    decodeSteward 0xA8441004 = none ∧ decodeSteward 0xD8020000 = none ∧ decodeSteward 0xB0000000 = none := by
  decide +kernel

/-- Fields of a Steward's SInstr that no form has make it ill formed. -/
theorem test_steward_wf : (SInstr.wf ⟨.add, 1, 2, 3, 1⟩ || SInstr.wf ⟨.addi, 1, 2, 3, 1⟩ || SInstr.wf ⟨.addi, 1, 2, 0, 0x10000⟩ ||
    SInstr.wf ⟨.beq, 1, 2, 3, 0⟩ || SInstr.wf ⟨.jal, 1, 2, 0, 0⟩ || SInstr.wf ⟨.shli, 1, 2, 0, 32⟩ || SInstr.wf ⟨.lui, 1, 2, 0, 0⟩ ||
    SInstr.wf ⟨.faddD, 3, 2, 4, 0⟩ || SInstr.wf ⟨.faddD, 0, 2, 4, 0⟩ || SInstr.wf ⟨.mskw, 0, 6, 1, 0⟩) = false := by
  decide +kernel

theorem witness_StewardRegisters : (31 : BitVec 5) ≠ 0 ∧ (1 : BitVec 5) ≠ 31 ∧ pairOk 2 = true ∧ pairOk 30 = true ∧
    (∃ i, decodeSteward 0xAFDEF00C = some i ∧ i.op.fpRoles.1 = true ∧ i.op.fpRoles.2.1 = true ∧ i.op.fpRoles.2.2.1 = true) :=
  ⟨by decide, by decide, by decide, by decide, ⟨.fmaD, 30, 30, 30, 0⟩, by decide +kernel⟩

/-- A Steward at the last word but one fetches `p`, with a clean and with a corrected read. -/
def FetchesWritten (p : Word × SInstr) : Prop :=
  FetchesOn 191 .clean p.2 (allCores (fetching 16382 p.1 0)) ∧ FetchesOn 191 .corrected p.2 (allCores (fetching 16382 p.1 0))

theorem witness_StewardArithmetic : ∀ p ∈ writtenInteger, FetchesWritten p := by
  unfold FetchesWritten FetchesOn Fetches; decide +kernel
theorem witness_StewardFloatingPoint : ∀ p ∈ writtenFp, FetchesWritten p := by
  unfold FetchesWritten FetchesOn Fetches; decide +kernel
theorem witness_StewardPredicatesAndCsrs : ∀ p ∈ writtenSystem, FetchesWritten p := by
  unfold FetchesWritten FetchesOn Fetches; decide +kernel

/-- The address of a load or store of `p` with `v` in ga. -/
def loadAddr (p : Word × SInstr) (v : Word) : Nat := (v + (p.2.imm.setWidth 16).signExtend 32).toNat

/-- Each load and store reaches the last bytes of its memory. -/
theorem witness_StewardLoads : ∀ p ∈ writtenMemory.take 10, FetchesOn 0 .clean p.2 (allCores (fetching 0 p.1 0)) ∧
    ((p.2.op = .lws ∨ p.2.op = .sws) → loadAddr p 0x7FFFF0 = 0x800000 - 4) ∧ (p.2.op = .lw ∨ p.2.op = .sw → loadAddr p 0x1FFF0 = 0x20000 - 4) ∧
    (p.2.op = .lh ∨ p.2.op = .lhu ∨ p.2.op = .sh → loadAddr p 0x1FFF0 = 0x20000 - 2) ∧
    (p.2.op = .lb ∨ p.2.op = .lbu ∨ p.2.op = .sb → loadAddr p 0x1FFF0 = 0x20000 - 1) := by
  unfold FetchesOn Fetches; decide +kernel

theorem witness_StewardStores : (fetching 0 0 0).dmem.wf = true ∧ (fetching 0 0 0).sp.wf = true ∧
    loadAddr (0, ⟨.sw, 2, 4, 0, 0xFFF0⟩) 0x1F010 = 0x1F000 := by
  decide +kernel

/-- A branch back to word 0, a jump to word 0 and one to the last word. -/
theorem witness_StewardBranchesAndJumps : FetchesOn 0 .clean ⟨.beq, 0, 4, 6, 0xFFFF⟩ (allCores (fetching 1 0x8886FFFF 5)) ∧
    FetchesOn 0 .clean ⟨.jal, 2, 0, 0, 0x1FFFFF⟩ (allCores (fetching 1 0xA05FFFFF 5)) ∧
    FetchesOn 0 .clean ⟨.jalr, 2, 4, 0, 0xF⟩ (allCores (fetching 1 0xA444000F 16368)) ∧ (16368 : Word) + 15 = 16383 ∧
    (1 : Int) + (0xFFFF#16).toInt = 0 ∧ (1 : Int) + (0x1FFFFF#21).toInt = 0 := by
  unfold FetchesOn Fetches; decide +kernel

theorem witness_FpDefaultResults : (fp32.decode 0x7FC00001).isNan = true ∧ (fp64.decode 0xFFF0000000000001).isNan = true ∧
    fp32.decode 0x7F800000 = .inf false ∧ fp32.decode 0xFF800000 = .inf true ∧
    (∃ x, fp32.decode 0x80000000 = .fin true 0 x) ∧ (∃ x, fp32.decode 0xBF800000 = .fin true 0x800000 x) ∧
    ∃ x, fp64.decode 0x8000000000000001 = .fin true 1 x :=
  ⟨by decide +kernel, by decide +kernel, by decide +kernel, by decide +kernel, ⟨_, rfl⟩, ⟨_, rfl⟩, ⟨_, rfl⟩⟩

/- One step each, on values of the tables of Chapter 5. -/

/-- The register that an instruction leaves in gd with `v` in every register. -/
def leaves (op : Fin 192 → Ecc → Instr) (w v : Word) (d : BitVec 5) (x : Word) : Bool :=
  after (exec (op 0 .clean) (allCores (fetching 0 w v))) fun t => (t.core 0).g d == x && (t.core 0).stw.pc == 1

theorem test_add_wraps : leaves .add 0x00443000 0x80000001 2 2 = true := by decide +kernel
theorem test_sra_fills : leaves .sra 0x1C443000 0xFFFFFF04 2 0xFFFFFFF0 = true := by decide +kernel
theorem test_mulh_signed : leaves .mulh 0x2C443000 0x80000000 2 0x40000000 = true := by decide +kernel
theorem test_divide_by_zero : leaves .div 0x30443000 0 2 0xFFFFFFFF = true := by decide +kernel
theorem test_addi_negative : leaves .addi 0x4044FFFF 0 2 0xFFFFFFFF = true := by decide +kernel
theorem test_lui : leaves .lui 0x5C40FFFF 7 2 0xFFFF0000 = true := by decide +kernel
theorem test_g0_discards : leaves .addi 0x40040001 9 0 0 = true := by decide +kernel
theorem test_fadd : leaves .faddS 0xA8443000 0x3F800000 2 0x40000000 = true := by decide +kernel
theorem test_fma : leaves .fmaS 0xA844300C 0x40000000 2 0x40C00000 = true := by decide +kernel
theorem test_fcvt_saturates : leaves .fcvtWS 0xA844000B 0x7F800000 2 0x7FFFFFFF = true := by decide +kernel
theorem test_csr_step_unlisted : after (exec (.csrr 0 .clean) (allCores (fetching 0 0xE4440008 0)))
    (fun t => (t.core 0).stw.cause == 1 && (t.core 0).stw.pc == 0) = true := by decide +kernel

/-- A Steward that runs and whose next word is illegal; one whose load is out of range, and one misaligned. -/
theorem witness_StewardFaults : (allCores (fetching 0 0xFFFFFFFF 0)).stwHeld 0 = false ∧
    ((allCores (fetching 0 0xFFFFFFFF 0)).core 0).stw.state = .running ∧ decodeSteward 0xFFFFFFFF = none ∧
    Fetches 0 .clean ⟨.lw, 2, 4, 0, 12⟩ (allCores (fetching 0 0x6044000C 0x1FFF4)) ∧ 0x20000 < loadAddr (0, ⟨.lw, 2, 4, 0, 12⟩) 0x1FFF4 + 4 ∧
    loadAddr (0, ⟨.lw, 2, 4, 0, 12⟩) 0x1FFEE % 4 ≠ 0 ∧ loadAddr (0, ⟨.lw, 2, 4, 0, 12⟩) 0x1FFEE + 4 ≤ 0x20000 := by
  unfold Fetches; decide +kernel

/- Tile commands. -/

/-- A frame image of context 0 for FP32 tiles of this side, with this ACC_USE. -/
def frameOfSide (side : Byte) (accUse : Nat) : List Byte :=
  [1, 0, 0, 0, 0, BitVec.ofNat 8 (16 * accUse)] ++ List.replicate 0x9A 0 ++ [side, 0, side, 0]

/-- A frame image for 128 × 128. -/
def frameImg (accUse : Nat) : List Byte := frameOfSide 128 accUse

/-- The words of a billet entry: its number, base line, extent in lines, orientation, layout and length; FP32. -/
def entryWords (num base lines orient layout len : Nat) : List (Nat × Nat) :=
  [(entryAddr num, base + lines / 2 * 2 ^ 17), (entryAddr num + 4, orient * 2 ^ 7 + layout * 2 ^ 8 + len * 2 ^ 12)]

/-- The words of a command at command index 0. -/
def cmdAt (c : TileCmd) : List (Nat × Nat) :=
  let w := encodeTile c
  [(0, w.1), (4, w.2.1), (8, w.2.2.1), (12, w.2.2.2)]

/-- The first `n` entries of: operands of an OPX, one of a RED, a linear one, and 128 × 128 tiles row by row and column by column. -/
def tableWords : List (Nat × Nat) :=
  ((entryWords 1 0 8 1 1 128).append (entryWords 2 8 8 0 1 128)).append
    (((entryWords 3 16 8 0 2 128).append (entryWords 4 24 32 0 0 0)).append ((entryWords 5 1024 1024 0 1 128).append (entryWords 6 2048 1024 0 2 128)))

/-- An instance of micro-batch 7 that runs one command, from command index 0. -/
def inst0 : Inst := { newInst 7 0 1 with running := true }

/-- A core of context 0 that runs `c` in every slot, under a frame with this ACC_USE. -/
def issuing (accUse : Nat) (c : TileCmd) : Core :=
  { resetCore 0 with
    ctx := some 0, dmem := words ((cmdAt c).append tableWords)
    slots := Vector.replicate 8 { image := some (frameImg accUse), inst := some inst0 } }

/-- The frame of such a core. -/
def frame0 (accUse : Nat) : Frame := frameOf (frameImg accUse)

/-- A command that runs on an engine, without ranges. -/
def busyJob : Job := { newJob 1 inst0 ⟨0, false, .nop⟩ [] with started := true }

/-- The core with both engines at work. -/
def atWork (k : Core) : Core := { k with arrayQ := [busyJob], shadowQ := [busyJob] }

/-- One command of each kind, with operands that pass their checks. -/
def opx0 : TileCmd := ⟨0, false, .opx 1 2 1 0 false 0 0 0⟩
def red0 : TileCmd := ⟨0, false, .red 3 0 1 false false false 0 3⟩
def ewl0 : TileCmd := ⟨0, false, .ewl 4 0 128 0 5 4 false⟩
def tload0 : TileCmd := ⟨0, false, .ewl 4 0 0 63 0 0 true⟩
def swp0 : TileCmd := ⟨0, false, .swp 9⟩
def accld0 : TileCmd := ⟨0, false, .accld 5 false false 0 0 9⟩
def drn0 : TileCmd := ⟨0, false, .drn 6 0 false true 1 9 5⟩

/- Caravans. -/

/-- A tile of two granules with this tag. -/
def ctile (tag : BitVec 16) : CTile := { tag := tag, poison := 0, bytes := List.replicate 128 1, consumed := false, forwarded := false }

/-- A core of context 0 whose port is in this state, forwards to core 5 and holds these tiles. -/
def porting (st : CarState) (tiles : List CTile) (owed : Nat) (resuming : Bool) : Core :=
  { resetCore 0 with
    ctx := some 0
    car := { state := st, forward := true, id := 1, position := 1, prev := 3, next := 5, tiles := tiles, owed := owed, resuming := resuming } }

/-- A frame image whose b-source is the caravan. -/
def caravanImg : List Byte := [1, 0, 0, 0, 0, 0x10] ++ List.replicate 0x5C 0 ++ [1] ++ List.replicate 0x3D 0 ++ [128, 0, 128, 0]

/-- A core whose running OPX takes its tiles from the caravan, with FIRST_TAG 0xFFFF, next its tile `n`. -/
def consuming (n : Nat) (tiles : List CTile) (waiting : Bool) : Core :=
  { porting .bound tiles 0 false with
    slots := Vector.replicate 8 { image := some caravanImg, inst := some inst0 }
    arrayQ := [{ newJob 2 inst0 ⟨0, false, .opx 1 0 512 0 false 0xFFFF 400 400⟩ [] with started := true, tile := n, waiting := waiting }] }

/- Queues, control commands, the Porter. -/

/-- An open context with 16 completion counters. -/
def openCtx : Ctx := { closedCtx with state := .opened, ccCount := 16 }

/-- A raw near region of context 0, of 8 KiB from address 0. -/
def rawRegion : Region :=
  { base := 0, size := 2, ctx := 0, kind := 0, slot := 0, home := 0, ro := false, snapshot := false, mirror := .none, closing := none }

/-- Every core as `k`, every context open, one raw region, counter 3 at 4. -/
def module (k : Core) : State :=
  { allCores k with ctxs := Vector.replicate 64 openCtx, regions := [rawRegion], cc := [(3, 4)], mem := [(0, 7), (8191, 9)] }

def wct0 : TileCmd := ⟨0, false, .wct 3 5 9⟩
def fence0 : TileCmd := ⟨0, false, .fence⟩
def pset0 : TileCmd := ⟨0, false, .psetMask 0x7FFF 0x6AAA⟩
def psetCounter0 : TileCmd := ⟨0, false, .psetCounter 11 15 0⟩

/-- The core with its instances held by `c`. -/
def holding (k : Core) (c : TileCmd) : Core := k.modInst 2 fun n => { n with next := 1, held := some c }

/-- Endpoint 0x35, number 5 of core 3. -/
def ep0 : BitVec 16 := 0x35
def bqp0 : TileCmd := ⟨0, false, .bqp 1 ep0⟩
def bqt0 : TileCmd := ⟨0, false, .bqt 9 ep0⟩

/-- The core with endpoint 5 enabled: slots of four lines pairs from line 4096, this queue and these slots taken. -/
def endpointed (k : Core) (q : List QItem) (taken : BitVec 16) : Core :=
  { k with regs := (k.wr 0x20654 (4096 + 4 * 2 ^ 17 + 2 ^ 28)).regs, ends := k.ends.set 5 { queue := q, busy := taken } }

/-- The core with a BQP or BQT of slot 2 on its queue unit. -/
def queueing (k : Core) (c : TileCmd) (es : List BEntry) (poison : Byte) : Core :=
  { k with queueQ := [{ newJob 2 inst0 c es with started := true, poison := poison }] }

def ldt0 : TileCmd := ⟨0, false, .ldt 1 1 0 0 3⟩
def stt0 : TileCmd := ⟨0, false, .stt 1 1 64 0⟩
def acw0 : TileCmd := ⟨0, false, .acw 1 0 7680 0⟩
def xmt0 : TileCmd := ⟨0, false, .xmt 1 false 7 0 1 3 0 3⟩

/-- The core with a Porter request of slot 2. -/
def portering (k : Core) (c : TileCmd) (data : LoadData) : Core :=
  { k with porterQ := [newPJob k 2 inst0 c (k.entry 1) data] }

/- Memory tiers and the fabric. -/

/-- Every channel as `k`. -/
def channels (k : Chan) : State := { State.reset with chans := Vector.replicate 208 k }
/-- Every port as `k`. -/
def ports (k : Port) : State := { State.reset with ports := Vector.replicate 36 k }
/-- A port that is up; it awaits flit 1023 and has 15 unacknowledged. -/
def upPort : Port := { resetPort with st := .up, lanes := 15, version := 1, neighbor := 9, rxSeq := 1023, unacked := 15 }
/-- The same with a packet begun, one flit of it in the replay buffer, and one that waits. -/
def sendingPort : Port :=
  { upPort with
    waiting := [⟨5, none, List.replicate 64 3, 1, 1, 0, 2⟩], begun := [⟨4, none, List.replicate 300 3, 2, 2, 1, 0⟩]
    replay := [⟨9, 0, List.replicate 256 3, 4, false⟩] }
/-- Bank 0 in state `a`, bank 1 in state `b`. -/
def bankStates (a b : BankSt) : State :=
  { ports sendingPort with
    flowNo := 6
    banks := #v[{ st := a, epoch := 3, route := [(7, 5)], group := [(40, 2)] }, { st := b, epoch := 4, route := [], group := [] }]
    inbox := [{ port := some 1, bytes := List.replicate 64 3 }] }

/-- A packet with these header fields (offset, bytes, value) and payload, and the PCRC of R260. -/
def packet (fs : List (Nat × Nat × Nat)) (payload : List Byte) : List Byte :=
  let h := fs.foldl (fun p f => setField p f.1 f.2.1 f.2.2) (List.replicate 64 0)
  let p := h ++ payload
  setField p 0x30 4 (pcrcOf p)

/-- Fields of a packet of version 1 and this type, epoch, hops, destination and source. -/
def head (type epoch hops dest src : Nat) : List (Nat × Nat × Nat) :=
  [(0, 1, 1), (1, 1, type), (2, 1, epoch), (4, 1, hops), (8, 3, dest), (0xC, 3, src)]

/-- Fields of a request: sequence number, stream, window, generation, offset, length, counter. -/
def ask (sq stream window gen off len rcount : Nat) : List (Nat × Nat × Nat) :=
  [(0x10, 4, sq), (0x14, 2, stream), (0x16, 2, window), (0x18, 4, gen), (0x1C, 4, off), (0x20, 2, len), (0x22, 2, rcount)]

def writePkt : List Byte := packet ((head 0 3 2 5 9).append (ask 8 1 7 2 60 8 3)) [1, 2, 3, 4, 5, 6, 7, 8]
def readPkt : List Byte := packet ((head 1 3 2 5 9).append (ask 8 1 7 2 60 8 0)) []
def answerPkt (type status count : Nat) (payload : List Byte) : List Byte :=
  packet ((head type 3 2 5 9).append [(0x10, 4, 8), (0x14, 2, 1), (0x28, 1, status), (0x2A, 2, count)]) payload

/-- The module as endpoint 5 with endpoint 9 as a member, one raw region and window 7 over it, and `p` delivered. -/
def delivered (p : List Byte) : State :=
  { module (resetCore 0) with
    regs := (State.reset.wr 0x50000 5).regs, member := [(0, 0x3FF)], windows := [⟨7, 2, 0, 0, 4096, 0, 0, 0, true, none⟩]
    inbox := [{ port := some 1, bytes := [] }, { port := some 1, bytes := p }] }

/-- Bank 0 active in epoch 3, where endpoint 7 is behind port 5 in class 0 and endpoint 8 has no route; all ports up. -/
def routing : State :=
  { bankStates .active .empty with
    regs := (State.reset.wr 0x50000 5).regs
    banks := #v[{ st := .active, epoch := 3, route := [(7, 5), (8, 0x33F3F)], group := [] }, { st := .empty, epoch := 0, route := [], group := [] }] }

/-- The head of virtual channel 11 of port 2 is this packet, wholly arrived. -/
def flowOf (p : List Byte) : RxFlow := { rid := 3, version := 1, vc := 11, bytes := p, got := 1, flits := 1, gone := 0, fate := .unrouted }
def arrived (p : List Byte) : State := { routing with ports := routing.ports.set 2 { upPort with rx := [flowOf p] } }

/-- The entry of a VALID layer of context 0: 128 × 256 gradients of format 4, served by Tollhouse 1, parked from address 0. -/
def layerBytes : List Byte :=
  [(1, 1, 3), (4, 4, 128), (8, 4, 256), (0x0C, 1, 4), (0x18, 4, 32768)].foldl (fun p f => setField p f.1 f.2.1 f.2.2) (List.replicate 128 0)

/-- Layer 7 with that entry and an elementwise rule, in state `l`; its step is open. -/
def layered (l : Layer) : State :=
  { module (resetCore 0) with
    layerTab := [(7, layerBytes)], ruleTab := [(0, [1, 0, 0, 0])], layers := [(7, l)]
    ctxs := Vector.replicate 64 { openCtx with inStep := true } }

/-- Tollhouse 1 with layer 7 queued or taken. -/
def tolling (queue : List Nat) (current : Option Nat) (s : State) : State :=
  { s with tolls := s.tolls.set 1 { resetToll with queue := queue, current := current } }

def arrivingLayer : Layer := { layerDefault 7 with st := .arriving, got := [(0, 100000), (1, 100000)] }

/- Rings and descriptors. -/

/-- The 64 bytes of a descriptor of version 1 with these fields (offset, bytes, value). -/
def descBytes (type : Nat) (fs : List (Nat × Nat × Nat)) : List Byte :=
  ([(0, 1, 1), (1, 1, type), (4, 4, 0xABCD)].append fs).foldl (fun p f => setField p f.1 f.2.1 f.2.2) (List.replicate 64 0)
def descOf (type : Nat) (fs : List (Nat × Nat × Nat)) : DescRef := { ring := 3, idx := 1, bytes := descBytes type fs }

/-- Every core as `k`, ring 3 of context 5 enabled with completion ring 3, 64 entries each; function 0 owns it. -/
def ringed (k : Core) (sq : SubRing) (cq : CompRing) : State :=
  let s := module k
  let s : State := { s with regs := ((s.wr (sqCfgOff 3) (1 + 6 * 2 + 3 * 32)).wr (cqCfgOff 3) (1 + 6 * 2 + 3 * 32 + 2 * 2 ^ 16 + 7 * 2 ^ 24)).regs }
  { s with sqs := s.sqs.set 3 { sq with ctx := some 5 }, cqs := s.cqs.set 3 { cq with ctx := some 5 } }

/-- That module with one descriptor outstanding in ring 3. -/
def submitting (k : Core) (type : Nat) (fs : List (Nat × Nat × Nat)) : State :=
  ringed k { head := 2, tail := 5, out := [{ ref := descOf type fs, started := false }] } {}

/-- A record of descriptor 1 of ring 3 that waits. -/
def waitingRec (irq : Bool) : Rec := { sq := 3, idx := some 1, tag := 7, status := 0, type := 0x10, d16 := 1, d32 := 2, d64 := 3, irq := irq, time := 9 }

/-- A near region of context 5 with the stream, step and decode areas of the tests. -/
def region5 : Region := { rawRegion with ctx := 5, size := 64 }
def streamSet0 : DescRef := descOf 0x30 [(8, 1, 9), (0x0A, 2, 2), (0x0C, 4, 64), (0x18, 6, 64), (0x24, 4, 128)]
def decCfg0 : DecCfg := { buffers := 2, deadlineUs := 50, base := 0, inStride := 64, outStride := 64, stashMib := 3 }
def batch0 : Batch := { buf := 1, mb := 7, closed := false, deadline := 60, reqs := [{ desc := descOf 3 [], data := [1] }] }
/-- The module with region 5, stream 9 of context 5 as `t` and context 5 as `k`. -/
def streaming (type : Nat) (fs : List (Nat × Nat × Nat)) (t : Stream) (k : Ctx) : State :=
  let s := submitting (resetCore 0) type fs
  { s with regions := [region5], streams := SMap.set streamDefault [] (64 * 5 + 9) t, ctxs := s.ctxs.set 5 k }
def mb0 : Mb :=
  { mb := 7, step := 4, est := 2 ^ 20, admitted := true, resv := 2, resvBase := [], extents := [], spilled := false, failed := none, aborted := none
    desc := some (descOf 2 []), batch := false, done := false, wg := false }
/- Contexts and functions. -/

/-- A mailbox with one request: entry 0 of the request ring, of this type, sequence number and body. -/
def mailbox (type seq : Nat) (body : List Byte) : Memory :=
  let e := leBytes 1 1 |>.append (leBytes 1 type) |>.append (leBytes 2 seq) |>.append (leBytes 2 body.length) |>.append [0, 0] |>.append body
  let m : Memory := []
  (((m.writeRun 0x1000 e).writeLE 4 2 1).writeLE 0x0C 2 255).writeLE 0x10 2 254

/-- A state in which function 0, with an active lease, asks so. -/
def asking (type seq : Nat) (body : List Byte) (s : State) : State :=
  { s with fns := s.fns.set 0 { s.fn 0 with box := mailbox type seq body, lease := .active } }

/-- The request's body with the zeros beyond its length. -/
def asked (body : List Byte) : List Byte := body ++ List.replicate (120 - body.length) 0

/-- Fields (offset, bytes, value) of a body of `n` bytes. -/
def fieldsOf (n : Nat) (fs : List (Nat × Nat × Nat)) : List Byte :=
  fs.foldl (fun p f => setField p f.1 f.2.1 f.2.2) (List.replicate n 0)

def openBody : List Byte := fieldsOf 60 [(0, 1, 5), (2, 1, 3), (8, 1, 2), (9, 1, 2), (0x0A, 1, 2), (0x0B, 1, 2), (0x0C, 2, 8), (0x0E, 2, 4), (0x20, 1, 6)]

/-- The module with VAUX up, the rails on, ready, its three images running, and Hearth so. -/
def powered (h : Hearth) : State :=
  let s := module (resetCore 0)
  { s with
    hearth := h, time := 100000, power := { resetPower with vaux := true, rails := true, tested := true, perst := true, link := true, ready := true }
    gatehouse := { s.gatehouse with images := s.gatehouse.images.map fun k => { k with running := some false } } }

/-- A request in session 4, and the powered module with that TCP session, which an anchor covers. -/
def mg0 : Mgmt := { session := 4, version := 1, reservedNonzero := false, seq := 0x1234 }
def root0 : List Byte := List.replicate 48 7
def managed (h : Hearth) (f : Gate → Gate) : State :=
  let s := powered h
  let q : Session := { id := 4, transport := .tcp, mutAuth := true, root := root0, anchored := true }
  { s with gatehouse := f { s.gatehouse with anchors := [root0], sessions := [q], collector := some (List.replicate 16 1), reports := [(0, .event 3), (1, .event 4)] } }
/-- The module with image type `i` changed so. -/
def imaged (h : Hearth) (i : Fin 3) (f : ImageType → ImageType) : State := managed h fun g => { g with images := g.images.set i (f g.images[i]) }

/-- A good tile of the narrowest format, generation 0. -/
def goodTile : List Byte := buildTile 13 0 1 128 128 0 (List.replicate (planes 13 0) 5)
/-- A slot of 256 granules under refetch from its home copy, or its host mirror. -/
def refetch0 (home : Bool) : Refetch := ⟨4, 32768, .clean, false, [], home, 0, [], false⟩
def refetching0 (m : Mirror) (f : Refetch) : State :=
  { module (resetCore 0) with
    regions := [{ rawRegion with size := 16, kind := 2, slot := 512, home := 0x100000000000, mirror := m }], refetches := [f]
    dir := [(32768, { st := .refetching, gen := 0 })] }

/- The hypotheses of the statements about frames and tile commands. -/

/-- A Steward about to execute `w`, with a frame image at address 0 and `v` in every register. -/
def framed (w v : Word) (slot : Slot) : Core :=
  { fetching 0 w v with ctx := some 0, dmem := bytesAt 0 (frameImg 1), slots := Vector.replicate 8 slot }

theorem witness_StewardFrames :
    FetchesOn 3 .clean ⟨.fld, 2, 4, 0, 7⟩ (allCores (framed 0xC0440007 0 {})) ∧ (0x1FC00 : Nat) + 1024 = 0x20000 ∧
    (allCores (framed 0xC0440007 0 {})).loadStatus 3 7 (((framed 0xC0440007 0 {}).dmem).readRun 0 1024) = 0 ∧
    (allCores (framed 0xC0440007 0 {})).loadStatus 3 7 [2] ≠ 0 ∧
    FetchesOn 3 .clean ⟨.farm, 2, 4, 6, 0⟩ (allCores (framed 0xC4443000 0x10001 { image := some (frameImg 1) })) ∧
    (framed 0xC4443000 0x10001 { image := some (frameImg 1) }).armStatus 0x10001 0x10001 = 0 ∧
    (framed 0xC4443000 0x10001 {}).armStatus 0x10001 0x10001 ≠ 0 ∧
    FetchesOn 3 .clean ⟨.fstat, 2, 4, 6, 0⟩ (allCores (framed 0xC8443000 7 {})) ∧
    FetchesOn 3 .clean ⟨.frd, 2, 4, 0, 1020⟩ (allCores (framed 0xCC4403FC 7 { image := some (frameImg 1) })) := by
  unfold FetchesOn Fetches; and_intros <;> decide +kernel

/-- The module with every context open, and a core that writes of the physical function and of the owner reach. -/
def opened (k : Core) : State := { allCores k with ctxs := Vector.replicate 64 { closedCtx with state := .opened, fn := 3 } }

theorem witness_BankAndStewardControl :
    ({ framed 0xE0440FFF 0 {} with flipPending := true }).flipPending = true ∧ (framed 0xE0440FFF 0 {}).flipPending = false ∧
    (∃ i, decodeSteward ((framed 0xE0440FFF 0 {}).fetch 0).toNat = some i ∧ i.op = .wait) ∧
    (opened (framed 0 0 {})).owns (.fn 3) (some 0) = true ∧ (opened (framed 0 0 {})).owns (.fn 0) none = true ∧
    (opened (framed 0 0 {})).owns (.fn 4) (some 0) = false ∧ (opened (framed 0 0 {})).owns (.fn 31) none = false ∧
    (framed 0 0 {}).role ≠ 2 :=
  ⟨by decide +kernel, by decide +kernel, ⟨⟨.wait, 2, 4, 0, 0xFFF⟩, by decide +kernel⟩, by decide +kernel, by decide +kernel, by decide +kernel, by decide +kernel, by decide +kernel⟩

/-- A core with one armed instance, in slot 5. -/
def armed (accUse : Nat) : Core :=
  { issuing accUse opx0 with slots := (Vector.replicate 8 {}).set 5 { image := some (frameImg accUse), inst := some (newInst 7 0 1) } }
def armedCand (accUse : Nat) : Cand := ⟨5, newInst 7 0 1, frame0 accUse⟩

/-- What a pick asks for: a candidate that the order names, a free place, and passing start checks. -/
def Picks (c : Fin 192) (array : Bool) (d : Cand) (s : State) : Prop :=
  let s1 := s.markLate c
  let k := s1.core c
  s.innkPaused = false ∧ s.endPoisoned c array = none ∧ k.placeFree array = true ∧ k.role = 0 ∧
    k.best (k.preferOwner array ((s1.candidates c array).filter fun d => !array || s1.energyPermits c d.frame)) = some d ∧
    k.parkClear d.slot d.frame = true ∧ s1.startStatus c d.slot d.frame = stOk

theorem witness_InstancesPicked :
    (armed 1).best [{ armedCand 0 with slot := 6 }, armedCand 1] = some (armedCand 1) ∧ (armedCand 0).frame.priority ≤ 3 ∧
    Picks 191 false (armedCand 0) (opened (armed 0)) ∧ Picks 191 true (armedCand 1) (opened (armed 1)) ∧
    ((issuing 1 opx0).slot 7).inst = some inst0 ∧ inst0.running = true ∧
    ((armed 1).slot 5).inst = some (newInst 7 0 1) ∧ (armed 1).frame 5 = some (frame0 1) ∧ (newInst 7 0 1).running = false ∧
    (newInst 7 0 1).taken = [] ∧ (armed 1).stw.state ≠ .faulted ∧ (armed 1).refusedAt = none ∧
    ({ armed 1 with refusedAt := some 0 }).refusedAt ≠ none := by
  unfold Picks; and_intros <;> decide +kernel

theorem witness_CommandsComeToIssue : (∀ c ∈ [opx0, red0, ewl0, tload0, swp0, accld0, drn0], Issues 191 7 inst0 (frame0 1) c (allCores (issuing 1 c))) ∧
    opcodeDefined ({ issuing 1 opx0 with dmem := words [(0, 7)] }.cmdWords inst0 0).1 = false ∧
    opcodeDefined ((issuing 1 opx0).cmdWords inst0 0).1 = true ∧
    rowCode ((issuing 1 opx0).cmdWords inst0 0).1 ((issuing 1 opx0).cmdWords inst0 0).2.1 ≠ 0x103 ∧
    (∀ c ∈ ([⟨0, true, .nop⟩, ⟨0, true, .red 3 0 1 false false false 0 3⟩, ⟨0, true, .swp 9⟩, ⟨0, true, .ldt 4 0 0 64 0⟩, ⟨0, true, .wct 3 4 4⟩,
        ⟨0, true, .psetMask 3 7⟩, ⟨0, true, .fence⟩] : List TileCmd),
      NextIs 0 0 inst0 (frame0 1) c (allCores (issuing 1 c)) ∧ (issuing 1 c).predTrue 0 c = false ∧ usesArray (frame0 1) = true ∧
        porterAccepts (issuing 1 c) = true) := by
  unfold Issues NextIs; and_intros <;> decide +kernel

/-- A command is next, and its billets pass their checks and are clear. -/
def Ready (accUse : Nat) (c : TileCmd) (us : List BUse) (g : Core → Core) : Prop :=
  Issues 191 7 inst0 (frame0 accUse) c (allCores (g (issuing accUse c))) ∧
    BilletsReady 191 (frame0 accUse) c.args us (allCores (g (issuing accUse c)))

theorem witness_ArrayCommandsQueue : busy (atWork (issuing 1 opx0)).arrayQ = true ∧ busy (atWork (issuing 1 opx0)).shadowQ = true ∧
    Ready 1 opx0 (opxUses (frame0 1) 1 2 1) atWork ∧ opxOk1 (frame0 1) opx0.args = true ∧ opxOk2 (frame0 1) opx0 (issuing 1 opx0) = true ∧
    Ready 1 red0 (redUses (frame0 1) 3 0 1 false) atWork ∧ redOk1 (frame0 1) red0.args = true ∧ redOk2 (frame0 1) red0 (issuing 1 red0) = true ∧
    Ready 1 ewl0 (ewlUses (frame0 1) 4 0 4 128 0) atWork ∧ ewlOk1 (frame0 1) ewl0.args = true ∧ vectorsOk (frame0 1) 128 128 = true ∧
    Ready 1 tload0 (tloadUses (frame0 1) 4) atWork ∧ tloadOk1 (frame0 1) tload0.args = true ∧
    Ready 1 swp0 [] atWork ∧ usesArray (frame0 1) = true ∧
    Ready 1 accld0 (accldUses (frame0 1) 5 false 0 0) atWork ∧ accldOk1 (frame0 1) accld0.args = true ∧
    Ready 1 drn0 (drnUses (frame0 1) 6 0 1 false) atWork ∧ (issuing 1 drn0).redAhead (frame0 1) false = false ∧ drnOk1 (frame0 1) drn0.args = true := by
  unfold Ready Issues NextIs BilletsReady; and_intros <;> decide +kernel

/-- The core with a complete set of tag 9 in the shadow. -/
def shadowed (k : Core) : Core := { k with shadow := { tag := some 9, complete := true } }

theorem witness_ArrayCommandsStart : usesArray (frame0 1) = true ∧ (frame0 1).rowPath = false ∧ (frame0 1).bCaravan = false ∧
    (issuing 1 opx0).arrayQ = [] ∧ (issuing 1 opx0).shadowQ = [] ∧ (issuing 1 opx0).live.red = none ∧ (issuing 1 opx0).shadow.red = none ∧
    Ready 1 opx0 (opxUses (frame0 1) 1 2 1) id ∧ Ready 1 swp0 [] shadowed ∧ Ready 1 swp0 [] id ∧ (issuing 1 swp0).shadow.tag ≠ some 9 ∧
    Ready 1 accld0 (accldUses (frame0 1) 5 false 0 0) id ∧ Ready 1 drn0 (drnUses (frame0 1) 6 0 1 false) id ∧
    vectorsOk (frame0 1) (shapeRows (frame0 1).shape) (shapeCols (frame0 1).shape) = true := by
  unfold Ready Issues NextIs BilletsReady; and_intros <;> decide +kernel

/- Completions, caravans, queues, the Porter. -/

/-- A command that runs, in slot 2, with its entries. -/
def startedJob (c : TileCmd) (es : List BEntry) : Job := { newJob 2 inst0 c es with started := true, mask := BitVec.allOnes 128 }

/-- A core of 2 × 2 frames whose engine runs `c` alone. -/
def atHead (c : TileCmd) (ns : List Nat) (array : Bool) : Core :=
  let k := { issuing 1 c with slots := Vector.replicate 8 { image := some (frameOfSide 2 1), inst := some inst0 } }
  let j := startedJob c (ns.map k.entry)
  if array then { k with arrayQ := [j] } else { k with shadowQ := [j] }

/-- `c` is the head of its engine, whose other engine is empty. -/
def heads (c : TileCmd) (ns : List Nat) (array : Bool) : Bool :=
  let k := atHead c ns array
  let j := startedJob c (ns.map (issuing 1 c).entry)
  let h := some (j, frameOf (frameOfSide 2 1))
  if array then decide (k.arrayQ = [j] ∧ k.shadowQ = [] ∧ k.arrayHead = h) else decide (k.shadowQ = [j] ∧ k.arrayQ = [] ∧ k.shadowHead = h)

theorem witness_ArrayCommandsComplete : heads opx0 [1, 2] true = true ∧ (frameOf (frameOfSide 2 1)).bCaravan = false ∧
    (frameOf caravanImg).bCaravan = true ∧ (consuming 4 [] false).arrayHead ≠ none ∧ caravanTiles 512 = 4 ∧
    heads red0 [3] true = true ∧ heads ewl0 [4, 4] true = true ∧ (5 : BitVec 6) ≠ 63 ∧ heads tload0 [4] true = true ∧
    (∀ x ∈ ((atHead tload0 [4] true).sp.readRun ((issuing 1 opx0).entry 4).addr 1040).drop 0x401, x = 0) ∧
    heads accld0 [5] false = true ∧ heads drn0 [6] false = true ∧ (atHead drn0 [6] false).shadow.red = none ∧ (atHead drn0 [6] false).shadow.poison = 0 ∧
    (∃ x ∈ ({ atHead tload0 [4] true with sp := List.range 40 |>.map fun n => (((issuing 1 opx0).entry 4).addr + 0x3F0 + n, 1) }.sp.readRun
      ((issuing 1 opx0).entry 4).addr 1040).drop 0x401, x ≠ 0) ∧
    heads drn0 [6, 3] false = true ∧ ({ atHead drn0 [6, 3] false with shadow := { red := some 4 } }).shadow.red = some 4 ∧
    0 < (atHead accld0 [5] false).skewLimit := by
  decide +kernel

theorem witness_DrainFindsFaults : heads drn0 [6] false = true ∧ ((atHead drn0 [6] false).slot 2).inst = some inst0 ∧
    (0 ∈ (({ atHead drn0 [6] false with shadow := { cells := [(0, { acc := 1 <<< 30 })] } }).shape (frameOf (frameOfSide 2 1))).quads) ∧
    (({ cells := [(0, { acc := 1 <<< 30 })] } : AccSet).checkQuad 0 0 0).any = true ∧
    (({ poison := 5 } : AccSet).checkQuad 0 0 0).any = false ∧ (5 : Byte) ≠ 0 ∧ (5 : Byte) ≠ 1 ∧ State.reset.lanternQ.length < 16 := by
  decide +kernel

theorem witness_CaravanControl : (allCores (porting .hold [ctile 3] 1 false)).owns .gate (some 0) = true ∧ (porting .hold [] 0 false).role ≠ 2 ∧
    (porting .hold [ctile 3] 1 false).car.state = .hold ∧ (porting .hold [ctile 3] 1 false).car.forward = true ∧
    (porting .hold [ctile 3] 1 false).car.owed ≠ 0 ∧ (∀ t ∈ (porting .hold [ctile 3] 0 false).car.tiles, t.consumed = false) ∧
    (porting .bound [] 0 false).car.tiles = [] ∧ (porting .bound [ctile 3] 0 false).car.tiles ≠ [] ∧
    (porting .fenced [] 0 false).car.state ≠ .hold := by
  and_intros <;> decide +kernel

/-- The core with this tile on the mesh towards it, from core 5. -/
def arriving (k : Core) (t : CTile) : Core := { k with car := { k.car with inbound := [(5, t)] } }

theorem witness_CaravanTileFlow :
    (arriving (porting .bound [] 0 false) (ctile 0)).arrayHead = none ∧ coreOf? 5 = some 5 ∧ coreOf? 191 = some 191 ∧
    ((allCores (arriving (porting .bound [] 0 false) (ctile 0))).core 5).ctx = some 0 ∧
    (((allCores (porting .bound [] 0 false)).setCore 5 (resetCore 0)).core 5).ctx ≠ some 0 ∧
    (porting .bound [{ ctile 3 with consumed := true }] 0 false).nextForward ≠ none ∧ (5 : Fin 192) ≠ 3 ∧
    (consuming 0 [ctile 0xFFFF] false).carHead = some (ctile 0xFFFF) ∧ (ctile 0xFFFF).tag.toNat = (0xFFFF + 0) % 2 ^ 16 ∧
    (consuming 3 [ctile 2] false).carHead = some (ctile 2) ∧ (ctile 2).tag.toNat = (0xFFFF + 3) % 2 ^ 16 ∧ 3 < caravanTiles 512 ∧
    (ctile 0).tag.toNat ≠ (0xFFFF + 3) % 2 ^ 16 ∧ ((consuming 3 [ctile 0] true).slot 2).inst = some inst0 ∧
    (consuming 3 [ctile 0] true).arrayHead.map (·.1.waiting) = some true ∧ 0 < (consuming 3 [] true).skewLimit ∧
    (arriving (consuming 3 [] true) (ctile 2)).car.inbound = [(5, ctile 2)] ∧ (arriving (consuming 3 [] true) (ctile 2)).ctx ≠ none ∧
    (consuming 3 [{ ctile 2 with poison := 7 }] false).carHead = some { ctile 2 with poison := 7 } ∧ (consuming 3 [] false).carHead = none ∧
    (frameOf caravanImg).tolerant = false ∧
    (Core.arrayHead { issuing 1 swp0 with arrayQ := [{ newJob 2 inst0 swp0 [] with started := true, waiting := true }] }).map (·.1.waiting) = some true := by
  and_intros <;> decide +kernel

def held0 (c : TileCmd) : Inst := { inst0 with next := 1, held := some c }

theorem witness_ControlCommands : (∀ c ∈ [wct0, fence0, pset0, psetCounter0, ⟨0, false, .nop⟩], Issues 191 7 inst0 (frame0 1) c (module (issuing 1 c))) ∧
    (module (issuing 1 wct0)).counterOpen (frame0 1) 3 = true ∧ (module (issuing 1 wct0)).counterOpen (frame0 1) 15 = true ∧
    (issuing 1 pset0).owned (frame0 1) = true ∧ ((holding (issuing 1 wct0) wct0).slot 2).inst = some (held0 wct0) ∧
    ((module (issuing 1 wct0)).counter 3 - 4).toNat < 2 ^ 31 ∧ ¬ ((module (issuing 1 wct0)).counter 3 - 5).toNat < 2 ^ 31 ∧
    ((holding (issuing 1 fence0) fence0).slot 2).inst = some (held0 fence0) ∧ (holding (issuing 1 fence0) fence0).outstanding 2 = false ∧
    ({ holding (issuing 1 fence0) fence0 with arrayQ := [{ busyJob with slot := 2 }] }).outstanding 2 = true := by
  unfold Issues NextIs; and_intros <;> decide +kernel

/-- The module whose cores have `c` next and endpoint 5 enabled. -/
def queuing (c : TileCmd) : Core := endpointed (issuing 1 c) [] 0

theorem witness_QueueCommands : Issues 3 7 inst0 (frame0 1) bqt0 (module (queuing bqt0)) ∧ Issues 3 7 inst0 (frame0 1) bqp0 (module (queuing bqp0)) ∧
    (module (queuing bqp0)).endpointStatus 3 (!(queuing bqp0).owned (frame0 1)) ep0.toNat = stOk ∧
    (module (queuing bqp0)).endpoint ep0.toNat = some (3, 5) ∧ (queuing bqp0).scoreboardClear [((queuing bqp0).entry 1).range false] = true ∧
    ((queuing bqp0).entry 1).layout ≠ 4 ∧
    (module (queuing bqp0)).usesOk 3 (frame0 1) [⟨1, false, fun e => e.layout != 4 && decide (e.size ≤ bitsOf ((queuing bqp0).bqCfg 5) 27 17)⟩] = true ∧
    (queueing (queuing bqp0) bqp0 [(queuing bqp0).entry 1] 0).queueJob 2 true ≠ none ∧
    (queueing (endpointed (issuing 1 bqt0) [.token 9] 0) bqt0 [] 0).queueJob 2 false ≠ none ∧
    ((endpointed (issuing 1 bqp0) (List.replicate 15 (.token 3)) 0x7FFF).end_ 5).queue.length < 16 ∧
    ((endpointed (issuing 1 bqp0) [] 0x7FFF).end_ 5).freeSlot = some 15 ∧
    (module (resetCore 0)).bqpWins 3 5 7 0 = true ∧
    ({ module (resetCore 0) with cores := (module (resetCore 0)).cores.set 9 { queuing bqp0 with queueQ := [{ newJob 2 inst0 bqp0 [] with started := true, arrived := 1 }] } }).bqpWins 3 5 7 2 = false ∧
    (queuing bqt0).dmem.wf = true := by
  unfold Issues NextIs; and_intros <;> decide +kernel

theorem witness_InstanceEnds : ∀ u ∈ [0, 1, 2], let k := (issuing u opx0).modInst 7 fun n => { n with next := 1 }
    (k.slot 7).inst = some { inst0 with next := 1 } ∧ k.frame 7 = some (frame0 u) ∧ inst0.running = true ∧ k.outstanding 7 = false ∧
    inst0.held = none ∧ inst0.len ≤ 1 := by
  decide +kernel

/- The Porter, memory and the fabric. -/

/-- An LDT of the region's last granule; the others of the module reach it too. -/
theorem witness_PorterAccepts :
    (∀ c ∈ [ldt0, stt0, acw0, xmt0], Issues 191 7 inst0 (frame0 1) c (module (issuing 1 c)) ∧ (issuing 1 c).porterQ.length < 16) ∧
    BilletsReady 191 (frame0 1) ldt0.args (ldtUses 1 false) (module (issuing 1 ldt0)) ∧
    BilletsReady 191 (frame0 1) stt0.args (sttUses 1 false) (module (issuing 1 stt0)) ∧
    BilletsReady 191 (frame0 1) acw0.args (plainUses 1) (module (issuing 1 acw0)) ∧
    BilletsReady 191 (frame0 1) xmt0.args (plainUses 1) (module (issuing 1 xmt0)) ∧
    inStash 7680 = false ∧ (module (issuing 1 ldt0)).regionAt 7680 1 = some rawRegion ∧ (module (issuing 1 ldt0)).regionAt 64 1 = some rawRegion ∧
    (module (issuing 1 stt0)).writeWaits rawRegion 64 [] = false ∧ beyondWindows 0 [(0, [])] = 0 ∧
    rawRegion.ctx = (frame0 1).context ∧ rawRegion.closing = none ∧ rawRegion.ro = false ∧ rawRegion.kind = 0 ∧
    ((issuing 1 ldt0).entry 1).layout ≠ 4 ∧ rawRegion.holds 7680 ((issuing 1 ldt0).entry 1).extent = true ∧
    rawRegion.holds (8192 - ((issuing 1 ldt0).entry 1).extent) ((issuing 1 ldt0).entry 1).extent = true ∧
    ((issuing 1 ldt0).entry 1).extent % 64 = 0 ∧ acwFmt ((issuing 1 ldt0).entry 1).fmt = true ∧ ((issuing 1 ldt0).entry 1).fmt ≠ 14 ∧
    (module (issuing 1 xmt0)).counterOpen (frame0 1) 3 = true ∧
    (∀ g ∈ granules 7680 ((issuing 1 ldt0).entry 1).extent,
      SMap.get (fun _ => false) (module (issuing 1 ldt0)).marked g = false ∧ ((module (issuing 1 ldt0)).chan (chanOf (64 * g))).st ≠ 2) := by
  unfold Issues NextIs BilletsReady; and_intros <;> decide +kernel

/-- The request of a core that has `c` alone outstanding. -/
def request (c : TileCmd) (data : LoadData) : PJob := newPJob (issuing 1 c) 2 inst0 c ((issuing 1 c).entry 1) data

/-- The request of an insertion, on a port that is bound. -/
def inserting : Core :=
  let k := { issuing 1 ldt0 with car := (porting .bound [] 0 false).car }
  { k with porterQ := [newPJob k 2 inst0 ldt0 { k.entry 1 with w1 := 4 * 2 ^ 8 } .bad] }

theorem witness_PorterWork : inserting.mayInsert 0 = true ∧ ({ inserting with car := (porting .fenced [] 0 false).car }).mayInsert 0 = false ∧
    (inserting.porterQ.map fun j => (j.ent.layout, j.refetching, j.good true)) = [(4, false, none)] ∧
    (∀ c ∈ [ldt0, stt0, acw0], (module (issuing 1 c)).heldAt 64 1024 = false) ∧
    ((module (issuing 1 acw0)).meeting []).acwDecode (some rawRegion) [0, 64] = (some [], (((module (issuing 1 acw0)).meeting []).acwDecode (some rawRegion) [0, 64]).2) ∧
    (∀ c ∈ [ldt0, stt0, acw0, xmt0], (portering (issuing 1 c) c .bad).porterQ[0]? = some (request c .bad) ∧
      (portering (issuing 1 c) c .bad).frame 2 = some (frame0 1)) ∧
    (request ldt0 .bad).ent.layout ≠ 4 ∧ (portering (issuing 1 ldt0) ldt0 .bad).dmem.wf = true ∧
    (portering (issuing 1 ldt0) ldt0 .bad).entry 1 = (request ldt0 .bad).ent ∧ (request ldt0 .bad).ent.size ≠ 0 ∧ (request ldt0 .bad).ent.num = 1 ∧
    (request ldt0 .bad).stale = false ∧ tileAccepted (request ldt0 .bad).ent [] = false ∧ ({ request ldt0 .bad with stale := true }).stale = true ∧
    (request ldt0 (.bytes [1])).data = .bytes [1] ∧ inStash 64 = false ∧ (module (issuing 1 stt0)).regionAt 64 1 = some rawRegion ∧
    rawRegion.holds 64 ((portering (issuing 1 stt0) stt0 .bad).sp.readRun (request stt0 .bad).ent.addr (request stt0 .bad).ent.extent).length = true ∧
    (module (issuing 1 stt0)).mem.wf = true ∧ (request acw0 .bad).ent.fmt = 0 ∧ rawRegion.holds 7680 (request acw0 .bad).ent.extent = true ∧
    (request acw0 .bad).ent.extent % 64 = 0 ∧ (request xmt0 .bad).expected ≤ (request xmt0 .bad).returned ∧
    ((portering (issuing 1 xmt0) xmt0 .bad).slot 2).inst = some inst0 := by
  and_intros <;> decide +kernel

/-- The region of a refetch. -/
def regionOfRefetch (m : Mirror) : Region := { rawRegion with size := 16, kind := 2, slot := 512, home := 0x100000000000, mirror := m }

theorem witness_RefetchEnds : (refetching0 (.host 0 4096) (refetch0 false)).regionAt 32768 1 = some (regionOfRefetch (.host 0 4096)) ∧
    (∀ b, ((refetching0 (.host 0 4096) (refetch0 b)).runningRefetches (dieOf 32768)).find? (fun g => g.slot == 32768) = some (refetch0 b)) ∧
    (∀ b, ((refetching0 .none (refetch0 b)).runningRefetches (dieOf 32768)).find? (fun g => g.slot == 32768) = some (refetch0 b)) ∧
    (∀ j ∈ (resetCore 0).porterQ, j.data ≠ .refetching 32768) ∧ (refetching0 .none (refetch0 true)).heldAt 32768 32768 = false ∧
    (refetching0 .none (refetch0 true)).heldAt 0x100000000000 32768 = false ∧
    ({ refetching0 .none (refetch0 true) with chans := Vector.replicate 208 { resetChan with st := 1 } }).heldAt 32768 32768 = true ∧
    (refetching0 (.host 0 4096) (refetch0 true)).hasMirror (regionOfRefetch (.host 0 4096)) = true ∧
    (refetching0 .none (refetch0 true)).hasMirror (regionOfRefetch .none) = false ∧
    (((refetching0 (.host 0 4096) (refetch0 false)).refetched (regionOfRefetch (.host 0 4096)) (refetch0 false) []).1.bind (goodRefetch 0)).isNone = true ∧
    (refetching0 .none (refetch0 true)).mem.wf = true ∧ SMap.wf glbReset (refetching0 .none (refetch0 true)).regs = true ∧
    SMap.wf dirDefault (refetching0 .none (refetch0 true)).dir = true ∧
    SMap.wf (fun _ => ([] : List Byte)) (refetching0 .none (refetch0 true)).faultLog = true := by
  and_intros <;> decide +kernel

theorem witness_RefetchEnds_good :
    (((refetching0 (.host 0 4096) (refetch0 false)).refetched (regionOfRefetch (.host 0 4096)) (refetch0 false) [goodTile]).1.bind
      (goodRefetch 0)) = some goodTile := by
  have m : (refetching0 (.host 0 4096) (refetch0 false)).hasMirror (regionOfRefetch (.host 0 4096)) = true := by decide +kernel
  have h : ((refetching0 (.host 0 4096) (refetch0 false)).refetched (regionOfRefetch (.host 0 4096)) (refetch0 false) [goodTile]).1 = some goodTile :=
    if_pos (e := none) m
  rw [h, Option.bind_some]; unfold goodTile; exact goodRefetch_buildTile (List.replicate (planes 13 0) 5) List.length_replicate

/-- A channel with two combining entries, and an access of partition 15 and one of none that wait. -/
def combining : Chan := { resetChan with wc := [{ gran := 7, mask := 3 }, { gran := 9, mask := 1 }], reqs := [⟨some 15, 1, 64, 2⟩, ⟨none, 0, 0, 1⟩] }
def busyRegion : Region := { rawRegion with base := 4096, kind := 1, slot := 4, size := 1, closing := some ⟨0, 0, []⟩ }
def closingState : State := { State.reset with regions := [rawRegion, busyRegion] }

theorem witness_ChannelEvents : (∃ e, ((channels combining).chan (chanOf (64 * 9))).wc.filter (fun e => e.gran == 9) = [e]) ∧
    SMap.wf chanReset combining.regs = true ∧ SMap.wf (fun _ => false) (channels combining).marked = true ∧
    SMap.wf zeroTokens combining.tokens = true ∧ (resetChan.refill 0).eligible resetChan.reqs = [] ∧ (combining.refill 1).eligible combining.reqs ≠ [] ∧
    combining.st ≠ 1 ∧ combining.reqs.find? (fun q => q.part.isNone) = some ⟨none, 0, 0, 1⟩ ∧
    resetChan.reqs.find? (fun q => q.part.isNone) = none ∧ ({ combining with st := 1 }).st = 1 ∧
    closingState.regions.find? (fun q => q.base == 4096 && q.closing.isSome) = some busyRegion ∧ closingState.regionBusy busyRegion = false ∧
    ({ closingState with refetches := [⟨4, 4352, .clean, false, [], true, 0, [], false⟩] }).regionBusy busyRegion = true :=
  ⟨⟨{ gran := 9, mask := 1 }, by decide +kernel⟩, by and_intros <;> decide +kernel⟩

theorem witness_ChannelService : planeWrites (.fn 0) = true ∧ planeWrites .gate = true ∧ planeWrites (.fn 1) = false ∧
    (∀ j ∈ (State.reset.core 0).porterQ, j.data ≠ .held) ∧ ({ channels resetChan with svcQ := [⟨207, 2, true⟩] }).svcQ = [⟨(207 : Fin 208).val, 2, true⟩] ∧ SMap.wf chanReset resetChan.regs = true ∧
    (7 < 8 ∧ ¬ (8 < 8 ∨ 15 < 15) ∧ (8 < 16 ∨ 15 < 30) ∧ ¬ (16 < 16 ∨ 30 < 30) ∧ 127 < 128 ∧ 255 < 256) := by
  and_intros <;> decide +kernel

theorem witness_Bar4Accesses : (module (resetCore 0)).bar4Region 0 0 8192 = some rawRegion ∧ (module (resetCore 0)).bar4Region 0 1 8192 = none ∧
    (module (resetCore 0)).bar4Region 31 0 1 = none ∧ ((module (resetCore 0)).fn 0).inBar4 0x1000000 8192 = true ∧
    ((module (resetCore 0)).fn 0).inBar4 0x100000000 1 = false ∧ ((module (resetCore 0)).fn 0).box.wf = true ∧
    (module (resetCore 0)).heldAt 0 8192 = false ∧ ({ channels { resetChan with st := 1 } with mem := [] }).heldAt 0 8192 = true ∧ ((module (resetCore 0)).fn 0).bar4Base + (0x1000000 - 0x1000000) = 0 ∧
    SMap.wf fnReset ((module (resetCore 0)).fn 0).regs = true ∧ (module (resetCore 0)).mem.wf = true ∧
    rawRegion.kind = 0 ∧ rawRegion.ro = false := by
  and_intros <;> decide +kernel

theorem witness_PortsAndFabricEvents : ((ports resetPort).port 35).st = .down ∧ ((ports { resetPort with st := .training }).port 35).st = .training ∧
    ((ports upPort).port 0).st = .up ∧ ((ports sendingPort).port 0).st ≠ .training ∧ (Nat.testBit 2 1 = true ∧ Nat.testBit 5 1 = false) ∧ planeWrites .gate = true ∧ planeWrites (.fn 31) = false ∧
    ((ports { upPort with st := .outOfService }).port 35).st = .outOfService ∧ SMap.wf glbReset (ports upPort).regs = true := by
  and_intros <;> decide +kernel

/-- Flit `seq` of virtual channel `vc`, acknowledging 1022: its control bytes. -/
def ctl0 (seq vc : Nat) : Word := linkCtl seq 1022 false vc 15 0

theorem witness_FlitsReceived : ((ports upPort).port 35).st = .up ∧ upPort.begun = [] ∧ upPort.waiting = [] ∧ upPort.replay = [] ∧
    ctlSeq (ctl0 1023 11) = upPort.rxSeq ∧ ctlVc (ctl0 1023 11) < 12 ∧ 12 ≤ ctlVc (ctl0 1023 12) ∧ ctlSeq (ctl0 0 11) ≠ upPort.rxSeq ∧
    upPort.buffered 11 < 16 ∧ ¬ ({ upPort with rx := [⟨3, 1, 11, [], 16, 17, 0, .unrouted⟩] }).buffered 11 < 16 ∧
    upPort.rx.find? (fun f => f.vc == 11 && decide (f.got < f.flits)) = none ∧
    flitCrc [1, 2, 3] (ctl0 1023 11) ≠ 0 ∧ 16 ≤ upPort.unacked + 1 ∧ upPort.run < 15 ∧
    upPort.unacked ≠ 0 ∧ ({ upPort with run := 14 }).run < 15 ∧ ¬ 16 ≤ ({ upPort with unacked := 14 }).unacked + 1 := by
  and_intros <;> decide +kernel

theorem witness_TableBanks : planeWrites (.fn 0) = true ∧ (bankStates .active .empty).bankIn .active = some 0 ∧
    ((bankStates .active .draining).bank 1).st = .draining ∧ (bankStates .active .loading).bankIn .loading = some 1 ∧
    (bankStates .active .empty).bankIn .loading = none ∧ (bankStates .active .ready).bankIn .ready = some 1 ∧
    (bankStates .draining .empty).bankIn .draining = some 0 ∧ (bankStates .active .draining).drainCount = 0 ∧
    (bankStates .draining .active).drainCount ≠ 0 ∧ SMap.wf noWord (bankStates .active .loading).fence = true ∧
    (∀ b, SMap.wf noWord ((bankStates .active .loading).bank b).route = true ∧ SMap.wf noWord ((bankStates .active .loading).bank b).group = true) ∧
    ((bankStates .loading .active).bank (bankOf (bitsOf 0x20FFF 16 16))).st = .loading ∧ bitsOf 0x20FFF 18 17 = 1 ∧ bitsOf 0x20FFF 15 0 < 4096 ∧
    bitsOf ((State.reset.wr 0x5001C 0xFFFF).rd 0x50020) 15 0 = (bitsOf ((State.reset.wr 0x5001C 0xFFFF).rd 0x5001C) 15 0 + 1) % 65536 ∧
    bitsOf (State.reset.rd 0x50020) 15 0 ≠ (bitsOf (State.reset.rd 0x5001C) 15 0 + 1) % 65536 := by
  and_intros <;> decide +kernel

theorem witness_PacketsAreRouted : (∃ b, routing.routingBank 3 = some b ∧ routing.routeOf b 7 ≠ none ∧ routing.routeOf b 8 = none) ∧
    ((arrived (packet (head 0 3 62 7 9) [])).port 2).head 11 = some (flowOf (packet (head 0 3 62 7 9) [])) ∧
    (∀ x, ∀ o ∈ ((arrived []).port x).begun ++ ((arrived []).port x).waiting, o.key < (arrived []).flowNo ∧ o.rid ≠ some 3) ∧
    (∀ r ∈ (arrived []).inbox, r.rid ≠ some 3) ∧ SMap.wf glbReset (arrived []).regs = true ∧ (arrived []).aliasId = none ∧
    pktVersion (packet (head 0 3 62 7 9) []) = (flowOf []).version ∧ pktDest (packet (head 0 3 62 7 9) []) = 7 ∧
    ({ routing with txQ := [⟨packet (head 0 3 62 7 9) [], none⟩] }).txQ.find? routing.mayInject = some ⟨packet (head 0 3 62 7 9) [], none⟩ ∧
    routing.bankIn .active = some 0 ∧ (bankStates .ready .empty).bankIn .active = none ∧
    pktMcast (routing.injected 3 (packet (head 0 3 62 7 9) [])) = false ∧ pktDest (routing.injected 3 (packet (head 0 3 62 7 9) [])) = 7 ∧
    pktHops (routing.injected 3 (packet (head 0 3 62 7 9) [])) = 62 ∧
    pktIdsOk (packet (head 0 3 62 7 9) []) = true ∧ pktMcast (packet (head 0 3 62 7 9) []) = false ∧
    routing.routingBank 4 = none ∧
    routing.selfId = 5 ∧ routing.fenced 7 = false ∧ ({ routing with fence := [(0, 0x80#32)] }).fenced 7 = true ∧
    pktHops (packet (head 0 3 62 7 9) []) < 63 ∧ 63 ≤ pktHops (packet (head 0 3 63 7 9) []) ∧ pktType (packet (head 3 3 62 7 9) []) = 3 := by
  refine ⟨⟨_, rfl, ?_⟩, ?_⟩ <;> and_intros <;> decide +kernel

/-- The packet with its PCRC spoilt. -/
def spoilt (p : List Byte) : List Byte := setField p 0x30 4 0

theorem witness_RequestsAtWindows :
    (∀ p ∈ [writePkt, readPkt], (delivered p).inbox.find? (fun r => r.bytes == p && r.left == 0) = some { port := some 1, bytes := p }) ∧
    SMap.wf glbReset (delivered writePkt).regs = true ∧ (delivered writePkt).mem.wf = true ∧ rawRegion.kind = 0 ∧
    (delivered writePkt).heldAt 60 8 = false ∧ ({ delivered writePkt with chans := Vector.replicate 208 { resetChan with st := 1 } }).heldAt 60 8 = true ∧
    pktType writePkt = 0 ∧ pktType readPkt = 1 ∧ pcrcOk writePkt = true ∧ pcrcOk readPkt = true ∧ pcrcOk (spoilt writePkt) = false ∧
    pcrcOk (spoilt readPkt) = false ∧ (delivered writePkt).fenced (delivered writePkt).selfId = false ∧
    ({ delivered writePkt with windows := [] }).passedWindow { port := some 1, bytes := writePkt } = none ∧
    (delivered writePkt).passedWindow { port := some 1, bytes := writePkt } = some ⟨7, 2, 0, 0, 4096, 0, 0, 0, true, none⟩ ∧
    (delivered readPkt).passedWindow { port := some 1, bytes := readPkt } = some ⟨7, 2, 0, 0, 4096, 0, 0, 0, true, none⟩ ∧
    (delivered writePkt).regionAt 60 8 = some rawRegion ∧ SMap.wf (fun _ => (0 : Word)) (delivered writePkt).cc = true := by
  and_intros <;> decide +kernel

def awaitOf (who : Sender) (left : Nat) : Await := ⟨1, 8, left, who⟩
/-- The module that awaits answers of a packet, one of which has come. -/
def awaited (p : List Byte) (who : Sender) (left : Nat) : State :=
  { module (portering (issuing 1 xmt0) xmt0 .bad) with
    inbox := [{ port := some 1, bytes := p }], awaiting := [⟨1, 7, 3, who⟩, awaitOf who left], refetches := [refetch0 false] }

theorem witness_AnswersAtTheirSource :
    (∀ p ∈ [answerPkt 3 0 2 [], answerPkt 2 0 1 [7]], (awaited p (.xmt 191 2 0 0) 5).inbox.find? (fun r => r.bytes == p && r.left == 0) =
      some { port := some 1, bytes := p }) ∧ pcrcOk (answerPkt 3 0 2 []) = true ∧ pktType (answerPkt 3 0 2 []) = 3 ∧ pktCcount (answerPkt 3 0 2 []) = 2 ∧
    (awaited (answerPkt 3 0 2 []) (.xmt 191 2 0 0) 5).matching (pktStream (answerPkt 3 0 2 [])) (pktSeq (answerPkt 3 0 2 [])) =
      some (awaitOf (.xmt 191 2 0 0) 5) ∧
    ({ awaited (answerPkt 3 0 2 []) (.xmt 191 2 0 0) 5 with awaiting := [] }).matching 1 8 = none ∧
    (awaited (answerPkt 2 0 1 [7]) (.refetch 4 0) 1).matching (pktStream (answerPkt 2 0 1 [7])) (pktSeq (answerPkt 2 0 1 [7])) =
      some (awaitOf (.refetch 4 0) 1) ∧ pktType (answerPkt 2 0 1 [7]) = 2 ∧ pktCstatus (answerPkt 2 0 1 [7]) = 0 ∧
    pcrcOk (answerPkt 2 0 1 [7]) = true ∧ (awaited (answerPkt 2 0 1 [7]) (.refetch 4 0) 1).refetches.map (·.serial) = [4] ∧ SMap.wf (fun _ => (0 : Word)) (awaited (answerPkt 3 0 2 []) (.xmt 191 2 0 0) 5).cc = true := by
  and_intros <;> decide +kernel

/-- The same with tile 1 in staging, in a region that holds its place; and with its place a slot under refetch. -/
def stagingLayer : State :=
  { layered arrivingLayer with
    regions := [{ rawRegion with size := 64 }], tolls := (layered arrivingLayer).tolls.set 1 { resetToll with staged := [⟨7, 1, 16384, []⟩] } }
def refetchingLayer : State :=
  { layered arrivingLayer with regions := [{ rawRegion with size := 64, kind := 2, slot := 512 }], dir := [(32768, { st := .refetching, gen := 0 })] }
/-- What a read of a Tollhouse finds bad; none where it waits. -/
def readsAs (s : State) (a n : Nat) : Option (List (Nat × Nat)) :=
  match (s.tollReads [(a, n)]).1 with
  | .wait => none
  | .ready bad => some bad

theorem witness_TollRounds : (layered arrivingLayer).layerEntry 7 = some layerBytes ∧ (layered arrivingLayer).servedBy (leToll layerBytes) = 1 ∧
    ((layered arrivingLayer).layer 7).st = .arriving ∧ ((layered arrivingLayer).layer 7).done = [] ∧ leTiles layerBytes = 2 ∧
    gradBytes layerBytes ≤ SMap.get (fun _ => 0) ((layered arrivingLayer).layer 7).got 1 ∧
    (∀ s ∈ [layered arrivingLayer, stagingLayer, refetchingLayer], s.heldAt (parkSlot layerBytes 1) (gradBytes layerBytes) = false) ∧
    ((layered arrivingLayer).toll 1).stagedTile 7 1 = none ∧ ((stagingLayer.toll 1).stagedTile 7 1).isSome = true ∧
    readsAs (stagingLayer.meeting []) (parkSlot layerBytes 1) 64 = some [] ∧ readsAs (refetchingLayer.meeting []) (parkSlot layerBytes 1) 64 = none ∧
    stagingLayer.regionAt (parkSlot layerBytes 1) (gradBytes layerBytes) = some { rawRegion with size := 64 } ∧ stagingLayer.mem.wf = true ∧
    SMap.wf layerDefault (layered arrivingLayer).layers = true ∧ SMap.wf tollReset ((layered arrivingLayer).toll 1).regs = true ∧
    ({ layered { arrivingLayer with st := .queued } with tollRegs := [(0xA8000, 2)] }).spikeEn = true ∧
    (layered { arrivingLayer with st := .queued }).anyQueued = true ∧ (layered arrivingLayer).lossGate.decided = false ∧
    ctxOf? (leCtx layerBytes) = some 0 ∧ ((layered arrivingLayer).ctx 0).inStep = true ∧ ((layered arrivingLayer).ctx 0).mbsDone = true ∧
    ((layered arrivingLayer).layer 7).finished = false ∧
    (tolling [7, 8] none (layered { arrivingLayer with st := .queued })).tryGate.nextLayer 1 = some 7 ∧
    (tolling [7, 8] none (layered { arrivingLayer with st := .queued })).tryGate.holdCause 1 7 layerBytes = none ∧
    (tolling [7, 8] none (layered { arrivingLayer with st := .queued, trip := some 2 })).tryGate.holdCause 1 7 layerBytes ≠ none ∧
    rrFamily ((layered arrivingLayer).ruleOf layerBytes) = 0 ∧ ((tolling [] (some 7) (layered { arrivingLayer with st := .applying })).toll 1).current = some 7 ∧
    (tolling [] (some 7) (layered { arrivingLayer with st := .applying })).layerWaits 7 = false ∧
    ({ tolling [] (some 7) (layered { arrivingLayer with st := .applying }) with awaiting := [awaitOf (.layer 7) 1] }).layerWaits 7 = true := by
  and_intros <;> decide +kernel

/- Host rings, descriptors, contexts. -/

/-- Ring 3 of context 5 with its two enables as named. -/
def enabled (sqen cqen : Bool) (k : SubRing) (c : CompRing) : State :=
  let s := module (resetCore 0)
  { s with
    regs := ((s.wr (sqCfgOff 3) (b2n sqen + 6 * 2 + 3 * 32)).wr (cqCfgOff 3) (b2n cqen + 6 * 2 + 3 * 32)).regs
    sqs := s.sqs.set 3 { k with ctx := some 5 }, cqs := s.cqs.set 3 { c with ctx := some 5 } }

/-- Ring 3 enabled and not; a doorbell of 69 is the last that it takes. -/
theorem witness_Doorbells : (let s := enabled true true { head := 5, tail := 9 } { head := 5, tail := 9 }
    s.ownsCtx 0 5 && (s.sq 3).ctx == some 5 && s.sqEnabled 3 && decide (ringDist 9 5 ≤ ringDist 69 5 ∧ ringDist 69 5 ≤ s.sqSize 3) &&
    decide (¬ ringDist 70 5 ≤ s.sqSize 3) && decide (¬ ringDist 9 5 ≤ ringDist 8 5) && !(enabled false false {} {}).sqEnabled 3) = true := by
  decide +kernel

/-- Ring 3 between slots 5 and 9; `v` is the last value a doorbell or a release may write, and one beyond it may not be. -/
theorem witness_RingsAreDriven : (let s := enabled true true { head := 5, tail := 9 } { head := 5, tail := 9 }
    s.ownsCtx 0 5 && (s.sq 3).ctx == some 5 && (s.cq 3).ctx == some 5 && s.sqEnabled 3 && s.cqEnabled 3 && !(enabled false false {} {}).cqEnabled 3 &&
    decide (ringDist 9 5 ≤ ringDist 9 5) && decide (¬ ringDist 10 5 ≤ ringDist 9 5) &&
    (s.fn 0).box.wf && decide (ringDist 0 0 ≤ ringDist 128 0 ∧ ringDist 128 0 ≤ 128 ∧ ¬ ringDist 129 0 ≤ 128 ∧ ringDist 0 0 ≤ ringDist 0 0 ∧
      ¬ ringDist 1 0 ≤ ringDist 0 0) &&
    SMap.wf glbReset s.regs && s.ownsRing 0 (some 5) && !s.ownsRing 1 (some 5) && bitOf (s.rd (sqCfgOff 3)) 0 && bitOf (s.rd (cqCfgOff 3)) 0 &&
    !bitOf ((enabled false false {} {}).rd (sqCfgOff 3)) 0 && !bitOf ((enabled false false {} {}).rd (cqCfgOff 3)) 0 &&
    decide (6 ≤ bitsOf 0x6D 4 1 ∧ ringOf (bitsOf 0x6D 12 5) = 3 ∧ bitOf 0x6D 0 = true ∧ bitsOf 0x6D 13 5 < vectorsOf 0) &&
    decide (¬ 6 ≤ bitsOf 0x6B 4 1)) = true := by
  decide +kernel

theorem witness_DescriptorsAndRecords : (let s := ringed (resetCore 0) { head := 2, tail := 5 } { tail := 70, head := 69, unsig := 1, waiting := [waitingRec true, waitingRec false] }
    let d : DescRef := { ring := 3, idx := (s.sq 3).nextIdx, bytes := descBytes 0 [] }
    (s.sq 3).ctx == some 5 && s.sqEnabled 3 && (s.sq 3).head != (s.sq 3).tail && decide ((s.sq 3).out.length < 64) && s.fetches 5 &&
    (descBytes 0 []).length == 64 && !s.innkPaused && (s.descRefusal 5 d).isNone && (s.descRefusal 5 { d with bytes := descBytes 0 [(3, 1, 1)] }).isSome &&
    ((submitting (resetCore 0) 0 []).mayStart 3 0 0).map (fun p => (p.1, p.2.ref)) == some (5, descOf 0 []) && (descOf 0 []).ring == 3 && !(s.ctx 5).orphaned &&
    s.cqOpen 3 && (s.cq 3).waiting == [waitingRec true, waitingRec false] && (s.cq 3).ctx == some 5 &&
    !(ringed (resetCore 0) {} { tail := 70, head := 6 }).cqOpen 3 && s.coalUs 3 != 0 && (s.cq 3).unsig != 0 && s.cqEnabled 3 && (s.fn 0).lease != .expired &&
    !(bitOf ((({ s with fns := s.fns.set 0 ((s.fn 0).wr (0x18000 + 16 * 3 + 12) 0) }).fn 0).rd (0x18000 + 16 * 3 + 12)) 0) &&
    s.hostCur == none && decide (s.hostPrev < 64) && ({ s with hostCur := some 5 }).hostCur == some (5 : Fin 64).val &&
    decide (10 ≤ (({ s with ctxs := s.ctxs.set 5 { s.ctx 5 with deficit := 4096 } }).ctx 5).deficit)) = true := by
  decide +kernel

/-- A core of context 5 with something in each memory. -/
def loaded5 : Core := { resetCore 0 with ctx := some 5, imem0 := [(3, 7), (9, 1)], imem1 := [(5, 6)], dmem := [(2, 1), (9, 9)] }
/-- The module with one near region of context 5, two windows of it, and this descriptor outstanding. -/
def regioned (type : Nat) (fs : List (Nat × Nat × Nat)) : State :=
  { submitting loaded5 type fs with
    regions := [{ rawRegion with ctx := 5 }], windows := [⟨8, 2, 5, 0, 4096, 0, 0, 0, true, none⟩, ⟨9, 2, 5, 0, 4096, 0, 0, 0, true, none⟩] }
/-- The module in which a descriptor of this type starts. -/
def startsAt (type : Nat) (d : DescRef) (s : State) : Bool :=
  (s.mayStart 3 0 type).map (fun p => (p.1, p.2.ref)) == some (5, d) && d.ring == 3 && (s.check3 5 d).isNone && s.fetches 5

def copyIn : List (Nat × Nat × Nat) := [(0x18, 6, 64), (0x20, 4, 128)]
def copyOut : List (Nat × Nat × Nat) := [(8, 1, 1), (0x18, 6, 64), (0x20, 4, 128)]
def imemFs : List (Nat × Nat × Nat) := [(8, 1, 1), (9, 1, 1), (0xA, 2, 4), (0xC, 2, 3)]
def dmemFs : List (Nat × Nat × Nat) := [(8, 1, 1), (0xC, 4, 8), (0x18, 4, 8)]
def slotted : Region := { rawRegion with ctx := 5, kind := 2, slot := 16, home := 0x100000000000 }

theorem witness_LoadsRegionsAndWindows :
    startsAt 0x10 (descOf 0x10 copyIn) (regioned 0x10 copyIn) = true ∧ startsAt 0x10 (descOf 0x10 copyOut) (regioned 0x10 copyOut) = true ∧
    (descOf 0x10 copyIn).bits 8 1 0 0 = 0 ∧ (descOf 0x10 copyOut).bits 8 1 0 0 = 1 ∧ (regioned 0x10 copyIn).mem.wf = true ∧
    (regioned 0x10 copyIn).copyRegion 5 64 128 true = some { rawRegion with ctx := 5 } ∧ rawRegion.tiled = false ∧
    (regioned 0x10 copyOut).copyRegion 5 64 128 false = some { rawRegion with ctx := 5 } ∧ (regioned 0x10 copyOut).heldAt 64 128 = false ∧
    ({ regioned 0x10 copyIn with chans := Vector.replicate 208 { resetChan with st := 1 } }).heldAt 64 128 = true ∧
    (((regioned 0x10 copyOut).meeting []).decodeGrans (granules 64 128)).1 = [] ∧
    (((regioned 0x10 copyOut).meeting [.media 1, .dies 2 [(0, 0, 1), (1, 0, 1), (2, 0, 1)]]).decodeGrans (granules 64 128)).1 ≠ [] ∧
    startsAt 0x11 (descOf 0x11 imemFs) (regioned 0x11 imemFs) = true ∧ coreOf? ((descOf 0x11 imemFs).le 8 1) = some 1 ∧
    (descOf 0x11 imemFs).bits 0x0C 2 14 0 = 3 ∧ SMap.wf (fun _ => (0 : Word)) loaded5.imem1 = true ∧
    startsAt 0x12 (descOf 0x12 dmemFs) (regioned 0x12 dmemFs) = true ∧ loaded5.dmem.wf = true ∧ (descOf 0x12 dmemFs).bits 0x18 4 17 0 = 8 := by
  and_intros <;> decide +kernel

theorem witness_LoadsRegionsAndWindows_regions :
    startsAt 0x20 (descOf 0x20 [(0x10, 6, 0x10000), (0xC, 4, 1)]) (regioned 0x20 [(0x10, 6, 0x10000), (0xC, 4, 1)]) = true ∧
    startsAt 0x21 (descOf 0x21 []) (regioned 0x21 []) = true ∧ startsAt 0x22 (descOf 0x22 []) { regioned 0x22 [] with regions := [slotted] } = true ∧
    ({ regioned 0x22 [] with regions := [slotted] }).namedRegion 5 0 = some slotted ∧
    ({ regioned 0x22 [] with regions := [slotted], dir := [(0, { st := .dirty })] }).drainHolds slotted = false ∧
    (({ regioned 0x22 [] with regions := [slotted], dir := [] }).flushRegion slotted).flushed slotted = true ∧
    startsAt 0x24 (descOf 0x24 [(8, 2, 7), (0xC, 4, 5), (0x18, 3, 1)]) (regioned 0x24 [(8, 2, 7), (0xC, 4, 5), (0x18, 3, 1)]) = true ∧
    startsAt 0x25 (descOf 0x25 [(8, 2, 8)]) (regioned 0x25 [(8, 2, 8)]) = true ∧
    (regioned 0x25 [(8, 2, 8)]).windows.filter (fun v => v.id == 8) = [⟨8, 2, 5, 0, 4096, 0, 0, 0, true, none⟩] ∧
    (∀ v ∈ (regioned 0x25 [(8, 2, 8)]).windows, v.closing = none) ∧
    (regioned 0x25 [(8, 2, 8)]).windowBusy ⟨8, 2, 5, 0, 4096, 0, 0, 0, true, none⟩ = false ∧
    ({ regioned 0x25 [(8, 2, 8)] with inbox := [{ port := none, bytes := [], passed := some ⟨8, 2, 5, 0, 4096, 0, 0, 0, true, none⟩ }] }).windowBusy
      ⟨8, 2, 5, 0, 4096, 0, 0, 0, true, none⟩ = true ∧
    startsAt 0x28 (descOf 0x28 [(0x18, 2, 1), (0x1A, 2, 1)]) (regioned 0x28 [(0x18, 2, 1), (0x1A, 2, 1)]) = true := by
  and_intros <;> decide +kernel

def idleStream : Stream := { st := .idle, set := some streamSet0, k := 3, run := (4, 1) }
def stepFs : List (Nat × Nat × Nat) := [(8, 5, 4), (0x10, 2, 3)]
def mbFs (mb : Nat) : List (Nat × Nat × Nat) := [(8, 5, 4), (0x10, 2, mb), (0x18, 6, 1000)]
def decodeFs : List (Nat × Nat × Nat) := [(8, 5, 4), (0x20, 4, 2), (0x24, 4, 3)]
def decodeCtx : Ctx := { openCtx with decode := true, dec := some decCfg0, batches := [batch0] }

theorem witness_StreamsStepsAndBatches :
    startsAt 0x30 (descOf 0x30 [(8, 1, 9), (0x0A, 2, 2), (0x0C, 4, 64), (0x18, 6, 64), (0x24, 4, 128)])
      (streaming 0x30 [(8, 1, 9), (0x0A, 2, 2), (0x0C, 4, 64), (0x18, 6, 64), (0x24, 4, 128)] {} openCtx) = true ∧
    startsAt 0x31 (descOf 0x31 [(8, 1, 9)]) (streaming 0x31 [(8, 1, 9)] idleStream openCtx) = true ∧
    (streaming 0x31 [(8, 1, 9)] idleStream openCtx).stream 5 ((descOf 0x31 [(8, 1, 9)]).bits 8 1 5 0) = idleStream ∧
    SMap.wf streamDefault (streaming 0x31 [(8, 1, 9)] idleStream openCtx).streams = true ∧
    (streaming 0 [] idleStream openCtx).ownsCtx 0 5 = true ∧ (4 : Word).toNat < 0x10000 ∧ ((streaming 0 [] idleStream openCtx).ctx 5).orphaned = false ∧
    (streaming 0 [] { idleStream with st := .busy } openCtx).fetches 5 = true ∧ streamSet0.bits 9 1 0 0 = 0 ∧
    (streaming 0 [] { idleStream with st := .busy } openCtx).copyRegion 5 (streamLocal streamSet0 1) (streamSet0.le 0x0C 4) true = some region5 ∧
    region5.tiled = false ∧ (streaming 0 [] idleStream openCtx).mem.wf = true ∧
    startsAt 1 (descOf 1 stepFs) (streaming 1 stepFs {} openCtx) = true ∧ startsAt 1 (descOf 1 stepFs) (streaming 1 stepFs {} decodeCtx) = true ∧
    startsAt 2 (descOf 2 (mbFs 1)) (streaming 2 (mbFs 1) {} { openCtx with inStep := true, step := some 4, mbCount := 2 }) = true ∧
    (({ openCtx with inStep := true, step := some 4, mbCount := 2 } : Ctx).mbRefused 4 1) = false ∧
    (({ openCtx with inStep := true, step := some 4, mbCount := 2 } : Ctx).mbRefused 4 2) = true ∧
    startsAt 3 (descOf 3 decodeFs) (streaming 3 decodeFs {} decodeCtx) = true ∧ decodeCtx.batches.find? (fun b => !b.closed) = some batch0 ∧
    batch0.reqs.length < 127 ∧ (descOf 3 decodeFs).le 0x20 4 ≤ decCfg0.inStride := by
  and_intros <;> decide +kernel

/-- Function 0 asks so of context 5, which is `k`; the cores are those of `c`. -/
def asks5 (type : Nat) (body : List Byte) (c : Option (Fin 64)) (k : Ctx) : State :=
  let s := asking type 77 body (submitting { resetCore 0 with ctx := c } 2 [])
  { s with ctxs := s.ctxs.set 5 k, regions := [region5], windows := [⟨8, 2, 5, 0, 4096, 0, 0, 0, true, none⟩] }
/-- `Asks`, as a test. -/
def asksB (msg : Nat) (body : List Byte) (s : State) : Bool :=
  let k := s.fn 0
  let head := k.box.readLE 8 2
  let e := k.box.readRun (0x1000 + 128 * (head % 128)) 128
  head != k.box.readLE 4 2 && k.lease != .expired && !k.evtFull && !s.innkPaused && k.box.wf && bodyLE e 0 1 == 1 &&
    bodyLE e 1 1 == msg && bodyLE e 2 2 == 77 && decide (bodyLE e 4 2 ≤ 120) && bodyLE e 6 2 == 0 &&
    body == (e.drop 8).take (bodyLE e 4 2) ++ List.replicate (120 - bodyLE e 4 2) 0

/-- Nothing is open: no context, no ring. -/
def allClosed : State :=
  let s := asks5 1 openBody none closedCtx
  { s with ctxs := Vector.replicate 64 closedCtx, sqs := State.reset.sqs, cqs := State.reset.cqs }

def cancelBody : List Byte := fieldsOf 24 [(0, 1, 5), (8, 5, 4), (16, 2, 7)]
def decBody : List Byte := fieldsOf 28 [(0, 1, 5), (1, 1, 2), (2, 2, 9), (0x10, 3, 64), (0x14, 3, 64), (0x18, 3, 1)]
def midCtx : Ctx := { openCtx with state := .parkedMid, orphaned := true, reclaimed := true, step := some 4, held := [waitingRec true] }
def boundCtx : Ctx := { midCtx with state := .parkedBoundary }

theorem witness_ContextRequests :
    asksB 1 (asked openBody) allClosed = true ∧ (bodyCheck (openFields (asked openBody)) (openRanges (asked openBody)) (asked openBody)) = none ∧
    (allClosed.ctx 5).state = .closed ∧ (allClosed.fn 0).lease = .active ∧ allClosed.openCheck 0 5 (asked openBody) (openCores (asked openBody)) = .inr (0, 0) ∧
    asksB 1 (asked openBody) (asks5 1 openBody none openCtx) = true ∧ ctxOf? (bitsOf (bodyLE (asked openBody) 0 1) 5 0) = some 5 ∧
    asksB 2 (asked [5]) (asks5 2 [5] (some 5) openCtx) = true ∧ bodyCheck [(0, 6)] [] (asked [5]) = none ∧
    asksB 3 (asked [5]) (asks5 3 [5] (some 5) midCtx) = true ∧ (asks5 3 [5] (some 5) midCtx).stillParking 0 = false ∧
    (asks5 3 [5] (some 5) { openCtx with state := .orphaned, orphaned := true }).stillParking 0 = true ∧
    asksB 4 (asked [5]) (asks5 4 [5] (some 5) boundCtx) = true ∧ boundCtx.reclaimed = true ∧ boundCtx.tainted = false ∧
    asksB 5 (asked cancelBody) (asks5 5 cancelBody (some 5) { openCtx with mbs := [{ mb0 with admitted := false }] }) = true ∧
    bodyCheck [(0, 6), (8, 40), (0x10, 16)] [] (asked cancelBody) = none ∧ (asks5 5 cancelBody (some 5) openCtx).ownsCtx 0 5 = true ∧
    ({ openCtx with mbs := [{ mb0 with admitted := false }] } : Ctx).mbs.find?
      (fun r => r.mb == bodyLE (asked cancelBody) 0x10 2 && r.step == bodyLE (asked cancelBody) 8 5 && !r.done) = some { mb0 with admitted := false } ∧
    mb0.wg = false ∧ mb0.batch = false ∧ ((asks5 5 cancelBody (some 5) openCtx).sq (ringOf (descOf 2 []).ring)).ctx = some 5 ∧
    asksB 6 (asked decBody) (asks5 6 decBody (some 5) { openCtx with decode := true }) = true ∧
    bodyCheck [(0, 6), (1, 4), (2, 16), (8, 48), (0x10, 24), (0x14, 24), (0x18, 20)] (decRanges (asked decBody)) (asked decBody) = none ∧
    (asks5 6 decBody (some 5) openCtx).regionAt (decCfgOf (asked decBody)).base ((decCfgOf (asked decBody)).buffers * (decCfgOf (asked decBody)).bufBytes) = some region5 ∧
    region5.ctx = (5 : Fin 64).val ∧ region5.kind = 0 ∧ region5.closing = none := by
  and_intros <;> decide +kernel

def stepCtx : Ctx := { openCtx with anyStep := false, inStep := true, step := some 4, mbCount := 1, fetchedMbs := [0], poolMib := 2, freeMib := 1 }
/-- Context 5 as `k`, and its cores. -/
def stepping (k : Ctx) : State :=
  let s := submitting { resetCore 0 with ctx := some 5 } 2 []
  { s with ctxs := s.ctxs.set 5 k, regions := [region5] }
def queuedMb : Mb := { mb0 with admitted := false }
def doneMb : Mb := { mb0 with done := true }
def between : Ctx := { stepCtx with inStep := false }

theorem witness_StepsAndSnapshots : SMap.wf glbReset (stepping stepCtx).regs = true ∧
    failingStatus 15 = true ∧ failingStatus 16 = false ∧ stepCtx.state = .opened ∧ ({ stepCtx with mbs := [mb0] } : Ctx).mbFind 7 = some mb0 ∧ mb0.done = false ∧ mb0.aborted = none ∧ mb0.admitted = true ∧
    ({ stepCtx with mbs := [{ mb0 with aborted := some 3 }] } : Ctx).mbFind 7 = some { mb0 with aborted := some 3 } ∧
    ((stepping { stepCtx with mbs := [{ mb0 with aborted := some 3 }] }).mbInsts 5 7 none).isEmpty = true ∧
    (stepping { stepCtx with mbs := [{ mb0 with aborted := some 3 }] }).porterHolds 5 7 = false ∧ (descOf 2 []).ring = (3 : Fin 256).val ∧
    ((stepping stepCtx).sq 3).ctx = some 5 ∧ ({ stepCtx with mbs := [queuedMb] } : Ctx).mbs.filter (fun r => !r.done && !r.admitted) = [queuedMb] ∧
    (stepping stepCtx).innkPaused = false ∧ ceilDiv mb0.est (2 ^ 20) ≤ stepCtx.freeMib ∧ (∀ c ∈ (stepping stepCtx).ctxCores 5, ((stepping stepCtx).core c).admitFull = false) ∧
    ¬ ceilDiv mb0.est (2 ^ 20) ≤ ({ stepCtx with freeMib := 0 } : Ctx).freeMib ∧ ({ stepCtx with poolMib := 0 } : Ctx).poolMib < ceilDiv mb0.est (2 ^ 20) ∧
    ({ between with waitingSteps := [descOf 1 [(8, 5, 5), (0x10, 2, 2)]] } : Ctx).waitingSteps = [descOf 1 [(8, 5, 5), (0x10, 2, 2)]] ∧
    (descOf 1 [(8, 5, 5), (0x10, 2, 2)]).le 8 5 = 4 + 1 ∧ (descOf 1 [(8, 5, 9)]).le 8 5 ≠ 4 + 1 ∧ between.anyStep = false ∧ between.snap.phase ≠ 1 ∧
    (stepping { stepCtx with mbs := [mb0] }).boundaryReached 5 = false ∧
    (stepping { stepCtx with mbs := [doneMb], stepDesc := some (descOf 2 []) }).boundaryReached 5 = true ∧
    (∀ g ∈ (stepping { between with snap := { phase := 1 } }).snapRegions 5, g.kind ≠ 2) ∧ (stepping stepCtx).mem.wf = true ∧
    (stepping { between with snap := { phase := 2 } }).drainMay 5 = true := by
  and_intros <;> decide +kernel

/-- Function 1 with this lease, of which context 6 is one. -/
def leased (l : Lease) (warned : Bool) : State :=
  let s := ringed (resetCore 0) {} {}
  { s with
    time := 90000, fns := Vector.replicate 32 { resetFn with lease := l, warned := warned, lastBeat := some 9, regs := [(0x10100, 5), (0x69004, 0x1234)] }
    ctxs := s.ctxs.set 6 { openCtx with fn := 1 } }

theorem witness_LeaseLife : SMap.wf glbReset (leased .active false).regs = true ∧ ((leased .expired false).fn 1).lease = .expired ∧
    ((leased .active false).fn 1).lease = .active ∧ ((leased .active false).fn 1).lastBeat ≠ some 8 ∧ ((leased .active false).fn 1).lastBeat = some 9 ∧
    ((leased .active false).fn 1).warned = false ∧ ((leased .active true).fn 1).warned = true ∧ ((leased .active false).fn 1).evtFull = false ∧
    ((leased .active false).fn 1).box.wf = true ∧ (∀ x, ((leased .active false).ctx x).orphaned = false) ∧ bitOf (0x100 : Word).toNat 8 = true ∧
    bitOf (0xFF : Word).toNat 8 = false ∧ SMap.wf fnReset ((leased .active false).fn 1).regs = true ∧ ((leased .active false).sq 3).ctx = some 5 ∧ ((leased .active false).ctx 6).fn = (1 : Fin 32).val ∧
    ((leased .active false).ctx 6).state ≠ .closed := by
  and_intros <;> decide +kernel

/- Hearth and Lantern. -/

def hearth0 : Hearth := { resetHearth with islands := Vector.replicate 24 { base := 700, want := 720, offset := 20 } }
def held : Hearth := { hearth0 with conds := Vector.replicate 9 true, islands := Vector.replicate 24 { want := 1, overAmps := true } }

theorem witness_HearthEmergencies : (powered hearth0).power.rails = true ∧ SMap.wf glbReset (powered hearth0).regs = true ∧
    (∀ n : Fin 9, hearth0.conds[n] = false) ∧ (∀ n : Fin 9, held.conds[n] = true) ∧ (∀ i, ((powered hearth0).island i).overAmps = false) ∧
    (∀ i, ((powered held).island i).overAmps = true) ∧ hearth0.removed = false ∧ ({ hearth0 with leakLow := true }).leaking = true ∧
    hearth0.leaking = false ∧ hearth0.thrLow = false ∧ hearth0.throttled = false ∧ ({ hearth0 with thrLow := true }).throttled = true ∧
    ({ hearth0 with thrLow := true, thrChatter := true }).thrChatter = true := by
  and_intros <;> decide +kernel

def reading0 : HearthReading := { islands := List.replicate 24 { tjC := 50, currentA := 20, paces := List.replicate 8 900 }, pIn1ms := 1000, pIn1s := 3000 }

theorem witness_HearthLoops : SMap.wf glbReset (powered hearth0).regs = true ∧ (powered hearth0).innkPaused = false ∧ (powered hearth0).hearthRuns = true ∧
    (allCores (resetCore 0)).hearthRuns = false ∧ reading0.islands[23]? = some { tjC := 50, currentA := 20, paces := List.replicate 8 900 } ∧
    ({ hearth0 with thrLow := true }).throttled = true ∧ ({ hearth0 with flowLost := true }).flowLost = true ∧ (powered hearth0).capW < reading0.pIn1s ∧
    held.gate = true ∧ (∃ h : Hearth, h.conds[(7 : Fin 9)] = true ∧ h = held) ∧ sensorOk 45 = true ∧ sensorOk 200 = false ∧
    ((powered hearth0).setDuty 100).duty = 100 ∧ bitsOf (((powered hearth0).wr 0x70024 199).rd 0x70024) 15 0 < 200 ∧
    bitsOf ((powered hearth0).rd 0x70018) 30 24 < 100 ∧ bitsOf ((powered hearth0).rd 0x70024) 15 0 = 0 ∧
    signedOf 8 (bitsOf (((powered hearth0).wr 0x70020 40).rd 0x70020) 7 0) ≤ 40 ∧ 40 < signedOf 8 (bitsOf (((powered hearth0).wr 0x70020 41).rd 0x70020) 7 0) ∧
    (powered hearth0).power.vaux = true := by
  refine ⟨?_, ?_, ?_, ?_, ?_, ?_, ?_, ?_, ?_, ⟨held, ?_, rfl⟩, ?_⟩ <;> decide +kernel

def sweep7 (cal : Bool) : Sweep := { toll := false, unit := 7, groups := 3, cal := cal }
/-- Every core as `k`, core 9 a spare, every Tollhouse fenced, context 0 in a step that core 7 takes part in. -/
def lantern (k : Core) (q r : List Sweep) : State :=
  let s := module k
  { s with
    lanternQ := q, lanternRun := r, ctxs := Vector.replicate 64 { openCtx with inStep := true, ran := [7] }
    tolls := s.tolls.map fun t => { t with fenced := true }, cores := s.cores.set 9 { resetCore 1 with dmem := [(3, 4)] } }

theorem witness_RemapAndLantern : SMap.wf glbReset (lantern (issuing 1 wct0) [] []).regs = true ∧
    SMap.wf coreReset ((lantern (issuing 1 wct0) [] []).core 7).regs = true ∧ ((lantern (issuing 1 wct0) [] []).core 7).ctx = some 0 ∧
    (lantern (issuing 1 wct0) [] []).remapDue 7 (.condemned (some 4)) = true ∧ ((lantern (issuing 1 wct0) [] []).core 7).role = 0 ∧
    (lantern (issuing 1 wct0) [] []).spareFor 7 = some 9 ∧ (module (issuing 1 wct0)).spareFor 7 = none ∧ ((module (issuing 1 wct0)).ctx 0).state = .opened ∧
    planeWrites (.fn 0) = true ∧ planeWrites (.fn 3) = false ∧ bitsOf (0x30007 : Word).toNat 22 16 ≠ 0 ∧ (lantern (resetCore 3) [] []).lanternFull = false ∧
    (lantern (resetCore 3) (List.replicate 16 (sweep7 false)) []).lanternFull = true ∧ bitOf (0x50103 : Word).toNat 8 = true ∧
    bitsOf (0x50103 : Word).toNat 7 0 < 4 ∧ ((lantern (resetCore 3) [] []).toll (tollOf 3)).fenced = true ∧ ((module (resetCore 3)).toll (tollOf 3)).fenced = false ∧
    bitOf (0x30007 : Word).toNat 8 = false ∧ bitsOf (0x30007 : Word).toNat 7 0 = (7 : Fin 192).val ∧ ((lantern (resetCore 3) [] []).core 7).ctx = none ∧
    ((lantern (resetCore 3) [] []).core 7).role = 3 ∧ bitOf (0x107 : Word).toNat 8 = true ∧ (lantern (resetCore 3) [sweep7 false] []).mayRun (sweep7 false) = true ∧
    (lantern (resetCore 3) [] [sweep7 false]).running (.core 7) false = some (sweep7 false) ∧
    (lantern (resetCore 3) [] [sweep7 true]).running (.core 7) true = some (sweep7 true) ∧
    (lantern (resetCore 3) [] []).calFails 7 1000 1081 = true ∧ (lantern (resetCore 3) [] []).calFails 7 1875 1900 = false ∧
    1080 * 1000 < 1000 * 1081 ∧ 1000 * 919 < 920 * 1000 ∧
    (lantern (resetCore 3) [] [{ sweep7 false with toll := true, unit := 3 }]).running (.toll 3) false = some { sweep7 false with toll := true, unit := 3 } := by
  and_intros <;> decide +kernel

def saved0 (b : List Byte) : Saved :=
  { params := b, step := 9, gate := (false, false, false), curLoss := (0, 0, 0, false), cores := [], regions := [], windows := [], streams := [], microbatches := [], counters := [(9, 3)], layers := []
    rules := [], layerState := [], ema := 0, emaValid := true, warm := 1, nextLoss := (0, 0, 0, false), rng := [], leaseMs := 9, record := [] }
/-- Context 5 as `k`, every other closed. -/
def snapping (k : Ctx) : State :=
  let s := submitting { resetCore 0 with ctx := if k.state = .closed then none else some 5 } 2 []
  { s with ctxs := (Vector.replicate 64 closedCtx).set 5 k, regions := [region5] }
/-- The same with snapshots enabled and a staging area. -/
def snapOn (k : Ctx) : State :=
  let s := snapping k
  { (((s.wr (snapOff 5 0) 1).wr (snapOff 5 0x14) 0).wr (snapOff 5 0x18) (16 + 65536)) with
    regions := [{ region5 with base := 0x1000000000, kind := 4, size := 2 ^ 20 }] }

theorem witness_SnapshotCommands : planeWrites .gate = true ∧ planeWrites (.fn 2) = false ∧ (snapOn openCtx).snapEnabled 5 = true ∧
    (snapping openCtx).snapEnabled 5 = false ∧ (snapping { boundCtx with tainted := true }).ctx 5 = { boundCtx with tainted := true } ∧
    ({ openCtx with inStep := true }).decode = false ∧ SMap.wf glbReset (snapping openCtx).regs = true ∧ bitOf (0x3F : Word).toNat 9 = false ∧
    closedCtx.state = .closed ∧ closedCtx.snap.phase = 0 ∧ midCtx.snap.phase = 0 ∧ ({ closedCtx with snap := { phase := 3 } }).snap.phase = 3 ∧
    ((snapping { closedCtx with snap := { phase := 3, restoreFunc := 2 } }).restoreInto 5 (saved0 (asked (fieldsOf 60 [(2, 1, 1), (0x20, 1, 6)])))).isSome = true ∧
    ((snapping { closedCtx with snap := { phase := 3, restoreFunc := 2 } }).restoreInto 5 (saved0 (asked (fieldsOf 60 [(0x20, 1, 255), (0x18, 4, 0xFFFFF)])))).isNone = true := by
  and_intros <;> decide +kernel

/- The Gatehouse, power, registers. -/

/-- The inactive slot of image type `i`, as it is shipped and valid. -/
def goodSlot (i : Fin 3) : ImageSlot := { shippedImage i.val with valid := true }
def imageRaw : ImageSlot := { bytes := [(1, 9), (66, 4)], total := 72, valid := false }
/-- `Manages` of an image request, as a test. -/
def managesB (s : State) : Bool :=
  s.gateServes && (match s.gatehouse.session mg0.session with
    | some q => q.transport == .tcp && !s.gatehouse.denies q none
    | none => false) && decide (s.gatehouse.images[2].running ≠ none) && decide (mg0.version = 1 ∧ mg0.reservedNonzero = false)

def opened1 : State := imaged resetHearth 1 fun k => { k with b := imageRaw, opened := true }
def valid1 : State := imaged resetHearth 1 fun k => { k with b := goodSlot 1 }
def trial1 : State := imaged resetHearth 1 fun k => { k with b := goodSlot 1, trial := true }

theorem witness_LiveUpdate : SMap.wf glbReset valid1.regs = true ∧ managesB opened1 = true ∧ managesB valid1 = true ∧ managesB trial1 = true ∧
    ((valid1.image 1).slot (valid1.image 1).inactive) = goodSlot 1 ∧ valid1.pendingImage 1 = false ∧
    (∀ q : Fin 3, (valid1.image q).opened = false) ∧ ((List.finRange 3).find? fun q => (opened1.image q).opened) = some 1 ∧ (imageRaw).bytes.wf = true ∧
    65 + 7 ≤ (imageRaw).total ∧ (imageRaw).total < 66 + 7 ∧ (goodSlot 1).valid = true ∧ (imageRaw).valid = false ∧ valid1.updating = false ∧
    (valid1.image 1).trial = false ∧ (valid1.image 1).misfit = false ∧ valid1.hearth.emergency = false ∧
    (imaged held 1 id).hearth.emergency = true ∧ (imaged resetHearth 1 fun k => { k with next := some true }).pendingImage 1 = true ∧
    valid1.gatehouse.deferred = none ∧ (managed resetHearth fun g => { g with pausing := some 1 }).gatehouse.held = [] ∧
    (managed resetHearth fun g => { g with pausing := some 1 }).gatehouse.pausing = some 1 ∧ (trial1.image 1).trial = true ∧
    (trial1.image 1).running = some false ∧ valid1.gatehouse.pausing ≠ some 1 ∧
    (managed resetHearth fun g => { g with pausing := some 2 }).updating = true := by
  and_intros <;> decide +kernel

theorem witness_LiveUpdate_verify : (goodSlot 1).verify 1 0 ⟨true, true, true⟩ = mgOk ∧ (goodSlot 1).verify 1 0 ⟨true, false, true⟩ ≠ mgOk ∧
    (∃ s : State, (s.image 1).misfit = true ∧ s = imaged resetHearth 1 fun k => { k with b := { goodSlot 1 with bytes := (goodSlot 1).bytes.writeLE 0xC 2 3 } }) := by
  refine ⟨?_, ?_, _, ?_, rfl⟩ <;> decide +kernel

def doeSession : Session := { id := 5, transport := .doe, mutAuth := false, root := [], anchored := false }

theorem witness_ManagementRequests : IsRequest mg0 (.emergencyClear mg0) 0x30 none ∧ managesB (managed resetHearth id) = true ∧
    (managed resetHearth id).gateServes = true ∧ ((managed resetHearth id).gatehouse.session 9) = none ∧
    ((managed resetHearth id).gatehouse.session 4).isSome = true ∧
    ((managed resetHearth fun g => { g with sessions := [{ doeSession with id := 4 }] }).gatehouse.session 4) = some { doeSession with id := 4 } ∧
    badAccess 0x20000 ⟨0, 0, 0, 0, 0⟩ = false ∧ badAccess 0x8000000 ⟨0, 0, 0, 0, 0⟩ = true ∧ onComputeDie 0x20000 = true ∧ onComputeDie 0x1000 = false ∧
    physOnly 0x1000 = physOnly 0x1004 ∧ (managed { resetHearth with removed := true } id).hearth.removed = true ∧
    (managed { resetHearth with removed := true } id).causePersists = false ∧ (managed { held with removed := true } id).causePersists = true ∧
    root0 ∈ (managed resetHearth id).gatehouse.anchors ∧ List.replicate 48 4 ∉ (managed resetHearth id).gatehouse.anchors ∧ root0.length = 48 ∧
    (managed resetHearth id).gatehouse.anchors.length < 4 ∧ (managed resetHearth id).gatehouse.collector ≠ none ∧
    (managed resetHearth id).gatehouse.reports = [(0, .event 3), (1, .event 4)] ∧
    (managed resetHearth fun g => { g with sessions := [doeSession] }).gatehouse.sessions = [doeSession] ∧ doeSession.transport = .doe ∧
    (managed resetHearth id).gatehouse.ide[(0 : Fin 9)] = false ∧ (managed resetHearth fun g => { g with ide := Vector.replicate 9 true }).gatehouse.ide[(8 : Fin 9)] = true :=
  ⟨by simp [IsRequest], by and_intros <;> decide +kernel⟩

theorem witness_BaseboardPort : (managed resetHearth id).portServes = true ∧ (managed resetHearth id).gateServes = true ∧
    (allCores (resetCore 0)).portServes = false ∧ 1 ≤ 7 ∧ 7 ≠ 5 ∧ 7 < 8 := by
  and_intros <;> decide +kernel

def unpowered (vaux perst : Bool) : State := { managed resetHearth id with power := { resetPower with vaux := vaux, perst := perst } }
def outcome0 : BringUp := { coreFail := [(3, .failed), (9, .degradedQuad 1)], calFail := [9, 4], cal := [(0, 7)], tollFail := [2], chanFail := [200] }

theorem witness_PowerUp : SMap.wf glbReset (powered resetHearth).regs = true ∧ (powered resetHearth).power.vaux = true ∧ (unpowered false false).power.vaux = false ∧
    (unpowered true false).power.rails = false ∧ (powered resetHearth).power.rails = true ∧ (unpowered true false).waitCause 48000 = 0 ∧ (unpowered true false).waitCause 0 ≠ 0 ∧
    ((unpowered true false).core 3).role ≠ 2 ∧ outcome0.coreFail.find? (fun p => p.1 == 3) = some (3, .failed) ∧ (4 : Fin 192) ∈ outcome0.calFail ∧
    (∀ q ∈ outcome0.coreFail, q.1 ≠ 4) ∧ (5 : Fin 192) ∉ outcome0.calFail ∧ (unpowered true false).power.perst = false ∧ (unpowered true true).power.perst = true ∧
    ({ resetPower with tested := true, perst := true, link := true }).ready = false ∧ (powered resetHearth).power.ready = true := by
  and_intros <;> decide +kernel

theorem witness_RegisterAccess : SMap.wf glbReset (managed resetHearth id).regs = true ∧ SMap.wf fnReset ((managed resetHearth id).fn 1).regs = true ∧
    SMap.wf noReg ((managed resetHearth id).fn 1).latch = true ∧
    (loRegs.all fun o => loRegs.contains o && !loRegs.contains (o + 4)) = true ∧
    (∃ o ∈ loRegs, (managed resetHearth id).mayRead (.fn 0) ((managed resetHearth id).fn 0).selects o = true) ∧
    (∃ o ∈ loRegs, (managed resetHearth id).mayRead (.fn 0) ((managed resetHearth id).fn 0).selects (o + 4) = true) ∧
    (managed resetHearth id).mayRead (.fn 1) ((managed resetHearth id).fn 1).selects 0 = true ∧
    (managed resetHearth id).mayRead (.fn 1) ((managed resetHearth id).fn 1).selects 0x80000000 = false := by
  and_intros <;> decide +kernel

/- The whole machine. -/

theorem witness_StepRunsTheFront : State.reset.pending = [] := rfl

/-- A step that changes a register: the identity and the canonical form are about it. -/
theorem witness_IdentityNeverChanges : ∃ s t : State, step s = .next t ∧ t.regs ≠ s.regs := by
  refine ⟨{ State.reset with pending := [.registerWrite 0 0x90058 0xF 7] }, ?_⟩
  refine Exists.intro _ ⟨rfl, ?_⟩
  decide +kernel

theorem witness_StewardWordsRoundTrip : (⟨.beq, 0, 1, 2, 0xFFFE⟩ : SInstr).wf = true ∧ 0x8822FFFE < 2 ^ 32 ∧
    decodeSteward 0x8822FFFE = some ⟨.beq, 0, 1, 2, 0xFFFE⟩ := by
  decide +kernel

theorem witness_TileWordsRoundTrip : decodeTile 0x00030001 0x00000200 0x00000140 0x00420046 = some ⟨0, false, .opx 3 0 512 0 false 320 70 66⟩ := by
  decide +kernel

/-- The state after reset, with three bytes of memory and a command waiting. -/
def queued0 : State := { State.reset with mem := [(0, 7), (64, 1), (8191, 9)], pending := [.accept (.fn 0) 5] }

theorem witness_CanonicalKept : Canonical queued0 ∧ ∃ t, step queued0 = .next t := by
  refine ⟨⟨?_, ?_⟩, _, rfl⟩
  · and_intros <;> decide +kernel
  · unfold CoreCanonical; and_intros <;> decide +kernel

/- Worked examples of the spec, and commands on small states. -/

def elemOf (r : Rnd) (m : Nat) (e : Int) : Elem := { v := .fin false m e, ovf := false, r := r }

/-- The example under R217: near address 0x60_0000_3000 lies in near channel 99. -/
theorem test_near_channel : chanOf 0x006000003000 = 99 := by decide +kernel

/-- Chapter 7's example: element (37, 90) of a skewed BF16 tile at line 4,096 lies at line 4,282, byte 52. -/
theorem test_skewed_element : skewBit 2 (4096 * 64) 37 90 = 8 * (4282 * 64 + 52) := by decide +kernel

/-- Chapter 4's drained block: 1,000 and 3.3 (here 211 ÷ 64) in MXFP8-E4M3 give scale 0x80, 448 and 1.625. -/
theorem test_mx_block : e8m0Block 4 [elemOf .rne 1000 0, elemOf .rne 211 (-6)] = (0x80, [(0x7E, .none), (0x3D, .none)]) := by decide +kernel

/-- Chapter 4's UE4M3 block: amax 2.5 in FP4 gives 0.4375, which is 0x2E; 2.5 is stored as 6 and 1.0 as 2. -/
theorem test_ue4m3_block : ue4m3Block 8 [elemOf .rne 5 (-1), elemOf .rne 1 0] = (0x2E, [(7, .none), (4, .none)]) := by decide +kernel

/-- Chapter 4's BFP8 segment: amax 0.75 gives exponent byte 126 and magnitude 96; a value below half a step goes to 0. -/
theorem test_bfp8_segment : bfp8Block [elemOf .rne 3 (-2), elemOf .rne 1 (-10)] = (126, [(96, .none), (0, .none)]) := by decide +kernel

/-- The example under R102: 1 + 3 × 2⁻¹⁰ to BF16 goes up under a draw of 0x5A and down under 0x60. -/
theorem test_stochastic : bf16.encode (bf16.roundMag (.sr 8 0x5A) false 1027 (-10)) = 0x3F81 ∧
    bf16.encode (bf16.roundMag (.sr 8 0x60) false 1027 (-10)) = 0x3F80 := by decide +kernel

/-- R257, R260, R230 on the nine digits that every catalogue of CRCs gives (PRESUMED: the values are from outside the spec). -/
theorem test_crcs : (let d : List Byte := [0x31, 0x32, 0x33, 0x34, 0x35, 0x36, 0x37, 0x38, 0x39]
    crc32 d = 0xCBF43926#32 ∧ crc32c d = 0xE3069283#32 ∧ crc64 d = 0x6C40DF5F0B497347#64) := by decide +kernel

/-- Chapter 18's example: VF 3's CORE_SEL changes alone. -/
theorem test_core_sel : after (exec (.registerWrite 3 0x10100 0xF 131) State.reset) (fun t => (t.fn 3).rd 0x10100 == 131 && (t.fn 0).rd 0x10100 == 0) = true := by
  decide +kernel
/-- R410 with Table 12.4: the attributes that a ledger keeps of a region are those from which it opens again. -/
theorem test_regionOpenBytes : (let r : Region := {
      base := 0x40000, size := 0x300, ctx := 5, kind := 2, slot := 0x110, home := 0xC0000050000, ro := true, snapshot := true
      mirror := .peer 0x1234 0x56 0x789AB 0xCDEF0123, closing := none, fill := 2 }
    let q := { r with mirror := .host 9 0x123456789ABCDEF0 }
    r.openBytes.length == 48 && regionOf 5 ⟨0, 0, leBytes 8 0 ++ r.openBytes⟩ == r && regionOf 5 ⟨0, 0, leBytes 8 0 ++ q.openBytes⟩ == q) = true := by
  decide +kernel


end Sys2Proof.Tests
end

