-- ==== Sys2Proof/Proofs/RegisterAccess.lean ====
section
/-! PROOF. BAR0 reads and writes (O52): what a read returns and latches, and where a write of a dword goes. -/

namespace Sys2Proof.Machine

/- Reads (R452). -/

theorem State.setLatch_fn_self (s : State) (f : Fin 32) (off v : Nat) :
    (s.setLatch (.fn f) off v).fn f = { s.fn f with latch := Regs.wr noReg (s.fn f).latch off v } := State.fn_modFn s f _

theorem State.setLatch_fn_ne (s : State) {f g : Fin 32} (off v : Nat) (ne : g ≠ f) : (s.setLatch (.fn f) off v).fn g = s.fn g :=
  State.fn_modFn_ne s f _ ne.symm

/-- A read changes nothing, or it writes the reader's HI latch, and that only for a LO register. -/
theorem State.readReg_state (s : State) (f : Fin 32) (sel : Selects) (off : Nat) :
    (loRegs.contains off = false ∧ (s.readReg (.fn f) sel off).2 = s) ∨
      (loRegs.contains off = true ∧ ∃ v, (s.readReg (.fn f) sel off).2 = s.setLatch (.fn f) (off + 4) v ∧
        (s.mayRead (.fn f) sel off = true → v = s.rawRead (.fn f) sel (off + 4))) := by
  unfold State.readReg
  cases hm : s.mayRead (.fn f) sel off <;> cases hl : loRegs.contains off
  · simp
  · exact .inr ⟨rfl, 0, by simp, by simp⟩
  · exact .inl ⟨rfl, by simp [apply_ite]⟩
  · exact .inr ⟨rfl, _, by simp, fun _ => rfl⟩

theorem State.readReg_hidden {s : State} {w : Who} {sel : Selects} {off : Nat} (h : s.mayRead w sel off = false) : (s.readReg w sel off).1 = 0 := by
  simp [State.readReg, h]

theorem State.readReg_raw {s : State} {w : Who} {sel : Selects} {off : Nat} (h : s.mayRead w sel off = true) (hi : loRegs.contains (off - 4) = false) :
    (s.readReg w sel off).1 = s.rawRead w sel off := by
  cases hl : loRegs.contains off <;> simp_all [State.readReg]

theorem State.readReg_latch {s : State} {w : Who} {sel : Selects} {off : Nat} (h : s.mayRead w sel off = true) (hl : loRegs.contains off = false)
    (hi : loRegs.contains (off - 4) = true) : (s.readReg w sel off).1 = Regs.rd noReg (s.latches w) off := by
  simp_all [State.readReg]

/- Writes (R450, R451). -/

theorem exec_registerWrite_dword (f : Fin 32) (off : Nat) (value : Word) (s : State) :
    exec (.registerWrite f off 0xF value) s = s.writeReg (.fn f) (s.fn f).selects (off / 4 * 4) value := rfl

/-- The identity block takes no write. -/
theorem State.writeReg_identity {off : Nat} (h : off < 0x100) (s : State) (f : Fin 32) (sel : Selects) (value : Word) :
    s.writeReg (.fn f) sel off value = .next s := by
  have out (lo hi : Nat) (hlo : 0x100 ≤ lo) : within lo hi off = false := by simp [within]; omega
  have ne (o : Nat) (ho : 0x100 ≤ o) : off ≠ o := by omega
  simp [State.writeReg, State.storeGlb, glbStored, out, ne]

/-- The selects of a function, each with the number of units that its width tells apart (R324). -/
theorem State.writeReg_select {p : Nat × Nat} (h : p ∈ [(0x10100, 256), (0x10104, 256), (0x10108, 64), (0x1010C, 4), (0x10110, 32)])
    (s : State) (f : Fin 32) (sel : Selects) (value : Word) :
    s.writeReg (.fn f) sel p.1 value = .next (s.modFn f fun k => k.wr p.1 (value.toNat % p.2)) := by
  simp only [List.mem_cons, List.not_mem_nil, or_false] at h
  rcases h with rfl | rfl | rfl | rfl | rfl <;> rfl

/-- The limits and HRTH_EVENT are stored by the physical function and by no other. -/
theorem State.writeReg_plane {off : Nat} (h : off ∈ [0x70004, 0x70008, 0x70010, 0x90058, 0x5002C, 0x70030]) (s : State) (f : Fin 32) (sel : Selects)
    (value : Word) : s.writeReg (.fn f) sel off value = .next (if f = 0 then s.storeGlb off value.toNat else s) := by
  simp only [List.mem_cons, List.not_mem_nil, or_false] at h
  rcases h with rfl | rfl | rfl | rfl | rfl | rfl <;>
    simp [State.writeReg, State.writeFabricReg, within, planeWrites]

/-- A limit's stored value holds, in the bits of its width, the written value clamped to its range. -/
theorem State.storeGlb_limit {p : Nat × Nat × Nat × Nat}
    (h : p ∈ [(0x70008, 500, 2800, 12), (0x70010, 850, 1550, 11), (0x90058, 1, 3600, 12), (0x5002C, 1, 10000, 14), (0x70030, 10, 1000, 10)])
    (s : State) (v : Nat) :
    ∃ n, s.storeGlb p.1 v = s.wr p.1 n ∧ n % 2 ^ 32 % 2 ^ p.2.2.2 = clampNat p.2.1 p.2.2.1 (v % 2 ^ p.2.2.2) := by
  simp only [List.mem_cons, List.not_mem_nil, or_false] at h
  rcases h with rfl | rfl | rfl | rfl | rfl <;>
    refine ⟨_, rfl, ?_⟩ <;> simp only [clampNat] <;> omega

/-- A report touches no register but the one that counts the reports lost. -/
theorem State.rd_report {s : State} (h : SMap.wf glbReset s.regs = true) (r : Report) {off : Nat} (ne : off ≠ 0x1010) :
    (s.report r).rd off = s.rd off := by
  unfold State.report
  dsimp only
  split
  · exact State.rd_wrBits_ne (s := { s with gatehouse := _, out := _ }) h ne _ _ _
  · rfl

theorem State.storeGlb_event_eq (s : State) (v : Nat) :
    s.storeGlb 0x70004 v =
      let new := s.rd 0x70004 - Nat.land (s.rd 0x70004) (v % 2 ^ 17)
      if new = s.rd 0x70004 then s else (s.wr 0x70004 new).report (.event new) := rfl

/-- HRTH_EVENT keeps the bits that are written as 0 (R384). -/
theorem State.storeGlb_event {s : State} (h : SMap.wf glbReset s.regs = true) (v : Nat) :
    (s.storeGlb 0x70004 v).rd 0x70004 = s.rd 0x70004 - Nat.land (s.rd 0x70004) (v % 2 ^ 17) ∧ (s.storeGlb 0x70004 v).mem = s.mem := by
  have hlt : s.rd 0x70004 < 2 ^ 32 := (SMap.get glbReset s.regs 0x70004).isLt
  rw [State.storeGlb_event_eq]
  extract_lets new
  split
  next same => exact ⟨same.symm, rfl⟩
  next =>
    constructor
    · rw [State.rd_report (State.wr_regs_wf h _ _) _ (by decide), State.rd_wr h, if_pos rfl, Nat.mod_eq_of_lt (by omega)]
    · obtain ⟨_, _, _, e⟩ := State.report_shape (s.wr 0x70004 new) (.event new)
      rw [e]; rfl

/- The statement. -/

/-- What a read by function `f` returns, what it latches, and what it leaves alone. -/
theorem exec_registerRead (f : Fin 32) (off : Nat) (s : State) (hl : SMap.wf noReg (s.fn f).latch = true) :
    let sel := (s.fn f).selects
    let a := off / 4 * 4
    ∃ t v, exec (.registerReadLoLatch f off) s = .next t ∧ t.out = s.out ++ [.regRead (some f.val) off v] ∧ t.regs = s.regs ∧ t.cores = s.cores ∧
      t.mem = s.mem ∧ (t.fn f).regs = (s.fn f).regs ∧ (∀ g, g ≠ f → t.fn g = s.fn g) ∧
      (s.mayRead (.fn f) sel a = false → v = 0) ∧
      (s.mayRead (.fn f) sel a = true → loRegs.contains (a - 4) = false → v = s.rawRead (.fn f) sel a) ∧
      (s.mayRead (.fn f) sel a = true → loRegs.contains a = false → loRegs.contains (a - 4) = true → v = Regs.rd noReg (s.fn f).latch a) ∧
      (s.mayRead (.fn f) sel a = true → loRegs.contains a = true → Regs.rd noReg (t.fn f).latch (a + 4) = s.rawRead (.fn f) sel (a + 4) % 2 ^ 32) ∧
      (loRegs.contains a = false → t.fns = s.fns) := by
  intro sel a
  have hidden := State.readReg_hidden (s := s) (w := .fn f) (sel := sel) (off := a)
  have raw := State.readReg_raw (s := s) (w := .fn f) (sel := sel) (off := a)
  have latch := State.readReg_latch (s := s) (w := .fn f) (sel := sel) (off := a)
  have state := State.readReg_state s f sel a
  refine ⟨_, (s.readReg (.fn f) sel a).1, rfl, ?_⟩
  rw [show s.readReg (.fn f) (s.fn f).selects (off / 4 * 4) = s.readReg (.fn f) sel a from rfl]
  generalize s.readReg (.fn f) sel a = r at *
  obtain ⟨v, t⟩ := r
  obtain ⟨plain, rfl⟩ | ⟨lo, hi, rfl, hv⟩ := state
  · exact ⟨rfl, rfl, rfl, rfl, rfl, fun _ _ => rfl, hidden, raw, latch, fun _ lo => absurd lo (by simp only [plain]; decide), fun _ => rfl⟩
  · refine ⟨rfl, rfl, rfl, rfl, ?_, fun g ne => State.setLatch_fn_ne s _ _ ne, hidden, raw, latch, fun m _ => ?_,
      fun plain => absurd plain (by simp only [lo]; decide)⟩
    · exact (congrArg Fn.regs (State.setLatch_fn_self s f (a + 4) hi) :)
    · rw [← hv m]
      exact (congrArg (fun k : Fn => Regs.rd noReg k.latch (a + 4)) (State.setLatch_fn_self s f _ hi)).trans
        ((Regs.rd_wr hl _ _ _).trans (if_pos rfl))

/-- Settles O52: each clause is one of the rules above at its offsets. -/
theorem registerAccess : Obligations.RegisterAccess := by
  unfold Obligations.RegisterAccess
  intro f off value s hs hf hl sel a v put
  have put_eq (o : Nat) : put o = s.writeReg (.fn f) (s.fn f).selects (o / 4 * 4) value := exec_registerWrite_dword f o value s
  refine ⟨exec_registerRead f off s hl, fun be hb => ?_, fun o ho => ?_, fun p hp => ?_, fun p hp => ?_, ?_, ?_⟩
  · exact if_neg hb
  · rw [put_eq, State.writeReg_identity (by omega)]
  · have aligned : p.1 / 4 * 4 = p.1 ∧ 0 < p.2 ∧ p.2 ≤ 256 := by
      simp only [List.mem_cons, List.not_mem_nil, or_false] at hp
      rcases hp with rfl | rfl | rfl | rfl | rfl <;> decide
    refine ⟨_, by rw [put_eq, aligned.1, State.writeReg_select hp], ?_, rfl, fun g ne => State.fn_modFn_ne s f _ ne.symm⟩
    rw [State.fn_modFn]
    have := Nat.mod_lt value.toNat aligned.2.1
    exact (Regs.rd_wr hf _ _ _).trans (by rw [if_pos rfl, Nat.mod_eq_of_lt (by omega)])
  · have aligned : p.1 / 4 * 4 = p.1 ∧ p.1 ∈ [0x70004, 0x70008, 0x70010, 0x90058, 0x5002C, 0x70030] := by
      simp only [List.mem_cons, List.not_mem_nil, or_false] at hp
      rcases hp with rfl | rfl | rfl | rfl | rfl <;> decide
    have run : put p.1 = .next (if f = 0 then s.storeGlb p.1 v else s) := by
      rw [put_eq, aligned.1, State.writeReg_plane aligned.2]
    refine ⟨fun h => by rw [run, if_neg h], fun h => ?_⟩
    obtain ⟨n, stored, clamped⟩ := State.storeGlb_limit hp s v
    refine ⟨s.wr p.1 n, by rw [run, if_pos h, stored], rfl, fun o ne => ?_, ?_⟩
    · rw [State.rd_wr hs, if_neg ne]
    · rw [State.rd_wr hs, if_pos rfl, clamped]
  · intro h
    exact ⟨_, by rw [put_eq, State.writeReg_plane (by decide), if_pos h], State.storeGlb_event hs v⟩
  · intro h
    rw [put_eq, State.writeReg_plane (by decide), if_neg h]

end Sys2Proof.Machine
end

