-- ==== Sys2Proof/Proofs/Canonical/Units.lean ====
section
/-! PROOF. The canonical form (O56): what it says of each unit, and that it stays under an update of one unit or one table. -/

namespace Sys2Proof.Machine

/-- Entries kept by a test of their key are in the canonical form. -/
theorem SMap.filter_wf {α : Type} [DecidableEq α] {d : Nat → α} {m : SMap α} (h : SMap.wf d m = true) (p : Nat → Bool) :
    SMap.wf d (m.filter fun e => p e.1) = true := (SMap.filter_from p h).1

theorem Memory.ite_wf {p : Prop} [Decidable p] {m m' : Memory} (h : m.wf = true) (h' : m'.wf = true) : Memory.wf (if p then m else m') = true := by
  split <;> assumption

end Sys2Proof.Machine

namespace Sys2Proof.Safety

open Sys2Proof.Machine

/- Units. -/

/-- A channel's registers and token buckets are in their canonical form. -/
def ChanCanonical (k : Chan) : Prop := SMap.wf chanReset k.regs = true ∧ SMap.wf zeroTokens k.tokens = true

/-- A function's mailbox, registers and latches are in their canonical form. -/
def FnCanonical (k : Fn) : Prop := k.box.wf = true ∧ SMap.wf fnReset k.regs = true ∧ SMap.wf noReg k.latch = true

/-- A Tollhouse's registers are in their canonical form. -/
def TollCanonical (k : Toll) : Prop := SMap.wf tollReset k.regs = true

/-- A bank's tables are in their canonical form. -/
def BankCanonical (k : Bank) : Prop := SMap.wf noWord k.route = true ∧ SMap.wf noWord k.group = true

/-- Both slots of an image type hold bytes in their canonical form. -/
def ImageCanonical (k : ImageType) : Prop := k.a.bytes.wf = true ∧ k.b.bytes.wf = true

/-- Where a command leads, the canonical form holds. -/
def Lands (r : Result) : Prop := ∀ t, r = .next t → Canonical t

variable {α β : Type} {s : State} {k : Core}

/- Branches: both ways lead to the canonical form. -/

theorem Canonical.ite {p : Prop} [Decidable p] {t : State} (hs : Canonical s) (ht : Canonical t) : Canonical (if p then s else t) := by
  split <;> assumption
theorem CoreCanonical.ite {p : Prop} [Decidable p] {q : Core} (hk : CoreCanonical k) (hq : CoreCanonical q) :
    CoreCanonical (if p then k else q) := by
  split <;> assumption
theorem ChanCanonical.ite {p : Prop} [Decidable p] {k q : Chan} (hk : ChanCanonical k) (hq : ChanCanonical q) :
    ChanCanonical (if p then k else q) := by
  split <;> assumption
theorem TollCanonical.ite {p : Prop} [Decidable p] {k q : Toll} (hk : TollCanonical k) (hq : TollCanonical q) :
    TollCanonical (if p then k else q) := by
  split <;> assumption
theorem ImageCanonical.ite {p : Prop} [Decidable p] {k q : ImageType} (hk : ImageCanonical k) (hq : ImageCanonical q) :
    ImageCanonical (if p then k else q) := by
  split <;> assumption
theorem Lands.ite {p : Prop} [Decidable p] {r q : Result} (hr : Lands r) (hq : Lands q) : Lands (if p then r else q) := by
  split <;> assumption

theorem Lands.next (h : Canonical s) : Lands (.next s) := by
  rintro _ ⟨⟩; exact h

theorem Canonical.iteSnd {p : Prop} [Decidable p] {a b : α × State} (ha : Canonical a.2) (hb : Canonical b.2) :
    Canonical (if p then a else b).2 := by
  split <;> assumption
theorem CoreCanonical.iteFst {p : Prop} [Decidable p] {a b : Core × α} (ha : CoreCanonical a.1) (hb : CoreCanonical b.1) :
    CoreCanonical (if p then a else b).1 := by
  split <;> assumption

theorem Canonical.of_snd {p : α × State} {a : α} {t : State} (h : Canonical p.2) (e : p = (a, t)) : Canonical t := by
  subst e; exact h

theorem CoreCanonical.of_fst {p : Core × α} {a : α} {q : Core} (h : CoreCanonical p.1) (e : p = (q, a)) : CoreCanonical q := by
  subst e; exact h

/- Updates in a row. -/

theorem Canonical.foldl {f : State → α → State} {l : List α} (h : Canonical s) (hf : ∀ s a, Canonical s → Canonical (f s a)) :
    Canonical (l.foldl f s) := by
  induction l generalizing s with
  | nil => exact h
  | cons a l ih => exact ih (hf s a h)

theorem CoreCanonical.foldl {f : Core → α → Core} {l : List α} (h : CoreCanonical k)
    (hf : ∀ k a, CoreCanonical k → CoreCanonical (f k a)) : CoreCanonical (l.foldl f k) := by
  induction l generalizing k with
  | nil => exact h
  | cons a l ih => exact ih (hf k a h)

theorem Canonical.foldlSnd {f : α × State → β → α × State} {l : List β} {p : α × State} (h : Canonical p.2)
    (hf : ∀ p b, Canonical p.2 → Canonical (f p b).2) : Canonical (l.foldl f p).2 := by
  induction l generalizing p with
  | nil => exact h
  | cons b l ih => exact ih (hf p b h)

theorem CoreCanonical.foldlFst {f : Core × α → β → Core × α} {l : List β} {p : Core × α} (h : CoreCanonical p.1)
    (hf : ∀ p b, CoreCanonical p.1 → CoreCanonical (f p b).1) : CoreCanonical (l.foldl f p).1 := by
  induction l generalizing p with
  | nil => exact h
  | cons b l ih => exact ih (hf p b h)

/- One table of the module. -/

theorem Canonical.regs : Canonical s → SMap.wf glbReset s.regs = true
  | ⟨⟨_, h, _⟩, _⟩ => h


theorem Canonical.withMem {m : Memory} : Canonical s → (s.mem.wf = true → m.wf = true) → Canonical { s with mem := m }
  | ⟨⟨h, tables⟩, units⟩, hm => ⟨⟨hm h, tables⟩, units⟩
theorem Canonical.withRegs {m : Regs} : Canonical s → (SMap.wf glbReset s.regs = true → SMap.wf glbReset m = true) →
    Canonical { s with regs := m }
  | ⟨⟨mem, h, tables⟩, units⟩, hm => ⟨⟨mem, hm h, tables⟩, units⟩
theorem Canonical.withCc {m : SMap Word} : Canonical s →
    (SMap.wf (fun _ => (0 : Word)) s.cc = true → SMap.wf (fun _ => (0 : Word)) m = true) → Canonical { s with cc := m }
  | ⟨⟨mem, regs, h, tables⟩, units⟩, hm => ⟨⟨mem, regs, hm h, tables⟩, units⟩
theorem Canonical.withDir {m : SMap DirEnt} : Canonical s → (SMap.wf dirDefault s.dir = true → SMap.wf dirDefault m = true) →
    Canonical { s with dir := m }
  | ⟨⟨mem, regs, cc, h, tables⟩, units⟩, hm => ⟨⟨mem, regs, cc, hm h, tables⟩, units⟩
theorem Canonical.withLayers {m : SMap Layer} : Canonical s → (SMap.wf layerDefault s.layers = true → SMap.wf layerDefault m = true) →
    Canonical { s with layers := m }
  | ⟨⟨mem, regs, cc, dir, h, tables⟩, units⟩, hm => ⟨⟨mem, regs, cc, dir, hm h, tables⟩, units⟩
theorem Canonical.withStreams {m : SMap Stream} : Canonical s → (SMap.wf streamDefault s.streams = true → SMap.wf streamDefault m = true) →
    Canonical { s with streams := m }
  | ⟨⟨mem, regs, cc, dir, layers, h, fence⟩, units⟩, hm => ⟨⟨mem, regs, cc, dir, layers, hm h, fence⟩, units⟩
theorem Canonical.withFence {m : SMap Word} : Canonical s → (SMap.wf noWord s.fence = true → SMap.wf noWord m = true) →
    Canonical { s with fence := m }
  | ⟨⟨mem, regs, cc, dir, layers, streams, h⟩, units⟩, hm => ⟨⟨mem, regs, cc, dir, layers, streams, hm h⟩, units⟩

/- One unit of the module. -/

theorem Canonical.core {c : Fin 192} : Canonical s → CoreCanonical (s.core c)
  | ⟨_, h, _⟩ => h c
theorem Canonical.chan {c : Fin 208} : Canonical s → ChanCanonical (s.chan c)
  | ⟨_, _, h, _⟩ => h c
theorem Canonical.fn {f : Fin 32} : Canonical s → FnCanonical (s.fn f)
  | ⟨_, _, _, h, _⟩ => h f
theorem Canonical.toll {t : Fin 4} : Canonical s → TollCanonical (s.toll t)
  | ⟨_, _, _, _, h, _⟩ => h t
theorem Canonical.bank {b : Fin 2} : Canonical s → BankCanonical (s.bank b)
  | ⟨_, _, _, _, _, h, _⟩ => h b
theorem Canonical.image {i : Fin 3} : Canonical s → ImageCanonical (s.image i)
  | ⟨_, _, _, _, _, _, h⟩ => h i

theorem Canonical.withCores {v : Vector Core 192} : Canonical s → (∀ c : Fin 192, CoreCanonical v[c]) → Canonical { s with cores := v }
  | ⟨tables, _, units⟩, h => ⟨tables, h, units⟩
theorem Canonical.withChans {v : Vector Chan 208} : Canonical s → (∀ c : Fin 208, ChanCanonical v[c]) → Canonical { s with chans := v }
  | ⟨tables, cores, _, units⟩, h => ⟨tables, cores, h, units⟩
theorem Canonical.withFns {v : Vector Fn 32} : Canonical s → (∀ f : Fin 32, FnCanonical v[f]) → Canonical { s with fns := v }
  | ⟨tables, cores, chans, _, units⟩, h => ⟨tables, cores, chans, h, units⟩
theorem Canonical.withTolls {v : Vector Toll 4} : Canonical s → (∀ t : Fin 4, TollCanonical v[t]) → Canonical { s with tolls := v }
  | ⟨tables, cores, chans, fns, _, units⟩, h => ⟨tables, cores, chans, fns, h, units⟩
theorem Canonical.withBanks {v : Vector Bank 2} : Canonical s → (∀ b : Fin 2, BankCanonical v[b]) → Canonical { s with banks := v }
  | ⟨tables, cores, chans, fns, tolls, _, images⟩, h => ⟨tables, cores, chans, fns, tolls, h, images⟩
theorem Canonical.withGatehouse {g : Gate} : Canonical s → (∀ i : Fin 3, ImageCanonical g.images[i]) → Canonical { s with gatehouse := g }
  | ⟨tables, cores, chans, fns, tolls, banks, _⟩, h => ⟨tables, cores, chans, fns, tolls, banks, h⟩

/-- What holds of every unit and of a new one holds of every unit once the new one has its place. -/
theorem forall_vector_set {P : α → Prop} {n : Nat} {v : Vector α n} {x : α} (hv : ∀ i : Fin n, P v[i]) (hx : P x) (j : Fin n) :
    ∀ i : Fin n, P (v.set j x)[i] := by
  intro i
  simp only [Fin.getElem_fin, Vector.getElem_set]
  split
  · exact hx
  · exact hv i

theorem forall_vector_map {P : α → Prop} {n : Nat} {v : Vector α n} {f : α → α} (hv : ∀ i : Fin n, P v[i]) (hf : ∀ x, P x → P (f x)) :
    ∀ i : Fin n, P (v.map f)[i] := by
  intro i
  simp only [Fin.getElem_fin, Vector.getElem_map]
  exact hf _ (hv i)

theorem Canonical.setCore {c : Fin 192} (h : Canonical s) (hk : CoreCanonical k) : Canonical (s.setCore c k) :=
  h.withCores (forall_vector_set (fun _ => h.core) hk c)
theorem Canonical.modCore {c : Fin 192} {f : Core → Core} (h : Canonical s) (hf : ∀ k, CoreCanonical k → CoreCanonical (f k)) :
    Canonical (s.modCore c f) := h.setCore (hf _ h.core)
theorem Canonical.modChan {c : Fin 208} {f : Chan → Chan} (h : Canonical s) (hf : ∀ k, ChanCanonical k → ChanCanonical (f k)) :
    Canonical (s.modChan c f) := h.withChans (forall_vector_set (fun _ => h.chan) (hf _ h.chan) c)
theorem Canonical.modFn {f : Fin 32} {g : Fn → Fn} (h : Canonical s) (hg : ∀ k, FnCanonical k → FnCanonical (g k)) :
    Canonical (s.modFn f g) :=
  h.withFns (forall_vector_set (fun _ => h.fn) (hg _ h.fn) f)
theorem Canonical.modToll {t : Fin 4} {f : Toll → Toll} (h : Canonical s) (hf : ∀ k, TollCanonical k → TollCanonical (f k)) :
    Canonical (s.modToll t f) := h.withTolls (forall_vector_set (fun _ => h.toll) (hf _ h.toll) t)
theorem Canonical.modBank {b : Fin 2} {f : Bank → Bank} (h : Canonical s) (hf : ∀ k, BankCanonical k → BankCanonical (f k)) :
    Canonical (s.modBank b f) := h.withBanks (forall_vector_set (fun _ => h.bank) (hf _ h.bank) b)
theorem Canonical.modImage {t : Fin 3} {f : ImageType → ImageType} (h : Canonical s) (hf : ∀ k, ImageCanonical k → ImageCanonical (f k)) :
    Canonical (s.modImage t f) := h.withGatehouse (forall_vector_set (fun _ => h.image) (hf _ h.image) t)
/-- The Gatehouse's other fields hold no bytes of an image. -/
theorem Canonical.modGate {f : Gate → Gate} (h : Canonical s) (hf : (f s.gatehouse).images = s.gatehouse.images := by rfl) :
    Canonical (s.modGate f) :=
  h.withGatehouse fun i => by rw [hf]; exact h.image (i := i)

theorem Canonical.overCores {f : Core → Core} (h : Canonical s) (hf : ∀ k, CoreCanonical k → CoreCanonical (f k)) :
    Canonical { s with cores := s.cores.map f } := h.withCores (forall_vector_map (fun _ => h.core) hf)
theorem Canonical.overChans {f : Chan → Chan} (h : Canonical s) (hf : ∀ k, ChanCanonical k → ChanCanonical (f k)) :
    Canonical { s with chans := s.chans.map f } := h.withChans (forall_vector_map (fun _ => h.chan) hf)
theorem Canonical.overTolls {f : Toll → Toll} (h : Canonical s) (hf : ∀ k, TollCanonical k → TollCanonical (f k)) :
    Canonical { s with tolls := s.tolls.map f } := h.withTolls (forall_vector_map (fun _ => h.toll) hf)

/- One table of a unit. -/

theorem CoreCanonical.withSp {m : Memory} : CoreCanonical k → (k.sp.wf = true → m.wf = true) → CoreCanonical { k with sp := m }
  | ⟨h, rest⟩, hm => ⟨hm h, rest⟩
theorem CoreCanonical.withDmem {m : Memory} : CoreCanonical k → (k.dmem.wf = true → m.wf = true) → CoreCanonical { k with dmem := m }
  | ⟨sp, h, rest⟩, hm => ⟨sp, hm h, rest⟩
theorem CoreCanonical.withRegs {m : Regs} : CoreCanonical k → (SMap.wf coreReset k.regs = true → SMap.wf coreReset m = true) →
    CoreCanonical { k with regs := m }
  | ⟨sp, dmem, h, imem⟩, hm => ⟨sp, dmem, hm h, imem⟩
theorem CoreCanonical.withImem0 {m : SMap Word} : CoreCanonical k →
    (SMap.wf (fun _ => (0 : Word)) k.imem0 = true → SMap.wf (fun _ => (0 : Word)) m = true) → CoreCanonical { k with imem0 := m }
  | ⟨sp, dmem, regs, h, imem1⟩, hm => ⟨sp, dmem, regs, hm h, imem1⟩
theorem CoreCanonical.withImem1 {m : SMap Word} : CoreCanonical k →
    (SMap.wf (fun _ => (0 : Word)) k.imem1 = true → SMap.wf (fun _ => (0 : Word)) m = true) → CoreCanonical { k with imem1 := m }
  | ⟨sp, dmem, regs, imem0, h⟩, hm => ⟨sp, dmem, regs, imem0, hm h⟩
theorem CoreCanonical.withAct {v : Vector ActTable 2} (h : CoreCanonical k) : CoreCanonical { k with act := v } := h
theorem ChanCanonical.withRegs {k : Chan} {m : Regs} : ChanCanonical k → (SMap.wf chanReset k.regs = true → SMap.wf chanReset m = true) →
    ChanCanonical { k with regs := m }
  | ⟨h, tokens⟩, hm => ⟨hm h, tokens⟩
theorem ChanCanonical.withTokens {k : Chan} {m : SMap Nat} : ChanCanonical k →
    (SMap.wf zeroTokens k.tokens = true → SMap.wf zeroTokens m = true) → ChanCanonical { k with tokens := m }
  | ⟨regs, h⟩, hm => ⟨regs, hm h⟩
theorem FnCanonical.withBox {k : Fn} {m : Memory} : FnCanonical k → (k.box.wf = true → m.wf = true) → FnCanonical { k with box := m }
  | ⟨h, rest⟩, hm => ⟨hm h, rest⟩
theorem FnCanonical.withRegs {k : Fn} {m : Regs} : FnCanonical k → (SMap.wf fnReset k.regs = true → SMap.wf fnReset m = true) →
    FnCanonical { k with regs := m }
  | ⟨box, h, latch⟩, hm => ⟨box, hm h, latch⟩
theorem FnCanonical.withLatch {k : Fn} {m : Regs} : FnCanonical k → (SMap.wf noReg k.latch = true → SMap.wf noReg m = true) →
    FnCanonical { k with latch := m }
  | ⟨box, regs, h⟩, hm => ⟨box, regs, hm h⟩
theorem TollCanonical.withRegs {k : Toll} {m : Regs} (h : TollCanonical k) (hm : SMap.wf tollReset k.regs = true → SMap.wf tollReset m = true) :
    TollCanonical { k with regs := m } := hm h
theorem BankCanonical.withRoute {k : Bank} {m : SMap Word} : BankCanonical k → (SMap.wf noWord k.route = true → SMap.wf noWord m = true) →
    BankCanonical { k with route := m }
  | ⟨h, group⟩, hm => ⟨hm h, group⟩
theorem BankCanonical.withGroup {k : Bank} {m : SMap Word} : BankCanonical k → (SMap.wf noWord k.group = true → SMap.wf noWord m = true) →
    BankCanonical { k with group := m }
  | ⟨route, h⟩, hm => ⟨route, hm h⟩
theorem ImageCanonical.withA {k : ImageType} {i : ImageSlot} : ImageCanonical k → (k.a.bytes.wf = true → i.bytes.wf = true) →
    ImageCanonical { k with a := i }
  | ⟨h, b⟩, hi => ⟨hi h, b⟩
theorem ImageCanonical.withB {k : ImageType} {i : ImageSlot} : ImageCanonical k → (k.b.bytes.wf = true → i.bytes.wf = true) →
    ImageCanonical { k with b := i }
  | ⟨a, h⟩, hi => ⟨a, hi h⟩

end Sys2Proof.Safety
end

