-- ==== Sys2Proof/Proofs/Canonical/Operations.lean ====
section
/-! PROOF. State, cores, channels, mailboxes and instances: each shared operation keeps the canonical form (O56). -/

namespace Sys2Proof.Safety

open Sys2Proof.Machine

variable {α : Type} {s : State} {k : Core} {c : Fin 192} {x : Fin 64} {f : Fin 32} {e : Ecc}

/- State. -/

theorem CoreCanonical.resetCore {role : Nat} : CoreCanonical (resetCore role) := ⟨rfl, rfl, rfl, rfl, rfl⟩

theorem ChanCanonical.resetChan : ChanCanonical resetChan := ⟨rfl, rfl⟩

theorem TollCanonical.resetToll : TollCanonical resetToll := rfl

theorem FnCanonical.resetFn : FnCanonical resetFn := ⟨rfl, rfl, rfl⟩

/- Ops. -/

theorem Canonical.setCtx {k : Ctx} (h : Canonical s) : Canonical (s.setCtx x k) := h

theorem Canonical.modCtx {f : Ctx → Ctx} (h : Canonical s) : Canonical (s.modCtx x f) := h.setCtx

theorem CoreCanonical.wr {off v : Nat} (h : CoreCanonical k) : CoreCanonical (k.wr off v) := h.withRegs fun hm => Regs.wr_wf hm _ _

theorem CoreCanonical.bump {off n : Nat} (h : CoreCanonical k) : CoreCanonical (k.bump off n) := h.withRegs fun hm => Regs.wr_wf hm _ _

theorem CoreCanonical.bumpSat {off n : Nat} (h : CoreCanonical k) : CoreCanonical (k.bumpSat off n) := h.withRegs fun hm => Regs.wr_wf hm _ _

theorem CoreCanonical.bump64 {off n : Nat} (h : CoreCanonical k) : CoreCanonical (k.bump64 off n) := h.withRegs fun hm => Regs.bump64_wf hm _ _

theorem CoreCanonical.bumpHalf {off lo n : Nat} (h : CoreCanonical k) : CoreCanonical (k.bumpHalf off lo n) :=
  h.withRegs fun hm => Regs.wrBits_wf hm _ _ _ _

theorem CoreCanonical.beats {n : Nat} (h : CoreCanonical k) : CoreCanonical (k.beats n) := h.bump64

theorem CoreCanonical.waited {w : Waits} (h : CoreCanonical k) : CoreCanonical (k.waited w) := h.bump.bump.bump.bump.bump

theorem Canonical.wr {off v : Nat} (h : Canonical s) : Canonical (s.wr off v) := h.withRegs fun hm => Regs.wr_wf hm _ _

theorem Canonical.bump {off n : Nat} (h : Canonical s) : Canonical (s.bump off n) := h.withRegs fun hm => Regs.wr_wf hm _ _

theorem Canonical.wrBits {off hi lo v : Nat} (h : Canonical s) : Canonical (s.wrBits off hi lo v) := h.withRegs fun hm => Regs.wrBits_wf hm _ _ _ _

theorem Canonical.bumpField {off hi lo n : Nat} (h : Canonical s) : Canonical (s.bumpField off hi lo n) := h.wrBits

theorem Canonical.report {r : Report} (h : Canonical s) : Canonical (s.report r) := .ite (.bumpField h) h

theorem Canonical.logFault {e : LogEntry} (h : Canonical s) : Canonical (s.logFault e) := .report (.ite (.bumpField (.wrBits h)) (.wrBits h))

theorem Canonical.drawFree (h : Canonical s) : Canonical s.drawFree.2 := h

/- Frame. -/

theorem CoreCanonical.setSlot {i : Fin 8} {v : Slot} (h : CoreCanonical k) : CoreCanonical (k.setSlot i v) := h

theorem CoreCanonical.modSlot {i : Fin 8} {f : Slot → Slot} (h : CoreCanonical k) : CoreCanonical (k.modSlot i f) := h.setSlot

theorem CoreCanonical.modInst {i : Fin 8} {f : Inst → Inst} (h : CoreCanonical k) : CoreCanonical (k.modInst i f) := h.modSlot

theorem CoreCanonical.writeSoft {filler : Bool} {mask value : BitVec 16} (h : CoreCanonical k) : CoreCanonical (k.writeSoft filler mask value) :=
  .ite h h

theorem CoreCanonical.setPoison {n : Nat} {st : Byte} (h : CoreCanonical k) : CoreCanonical (k.setPoison n st) :=
  h.withDmem fun hm => Memory.writeRun_wf hm _ _

theorem CoreCanonical.poisonBillet {e : BEntry} {st : Byte} (h : CoreCanonical k) : CoreCanonical (k.poisonBillet e st) :=
  h.foldl fun _ _ hk => .ite hk.setPoison hk

theorem CoreCanonical.writeEntry {n w0 w1 w2 w3 : Nat} (h : CoreCanonical k) : CoreCanonical (k.writeEntry n w0 w1 w2 w3) :=
  h.withDmem fun hm => Memory.writeRun_wf hm _ _

/- Billet. -/

theorem writePacked_wf {m : Memory} {base at' bits : Nat} {es : List Nat} (h : m.wf = true) : (writePacked m base at' bits es).wf = true :=
  Memory.writeRun_wf h _ _

theorem CoreCanonical.writeSlice {e : BEntry} {i : Nat} {codes scales : List Nat} (h : CoreCanonical k) :
    CoreCanonical (k.writeSlice e i codes scales) :=
  h.withSp fun hm => Memory.ite_wf (writePacked_wf hm) (Memory.writeRun_wf (writePacked_wf hm) _ _)

/- Tiers. -/

theorem ChanCanonical.wr {k : Chan} {off v : Nat} (h : ChanCanonical k) : ChanCanonical (k.wr off v) := h.withRegs fun hm => Regs.wr_wf hm _ _

theorem ChanCanonical.bump {k : Chan} {off n : Nat} (h : ChanCanonical k) : ChanCanonical (k.bump off n) := h.withRegs fun hm => Regs.wr_wf hm _ _

theorem Canonical.logChan {c : Fin 208} {kind : Nat} {st : Byte} {x : Option (Fin 64)} (h : Canonical s) : Canonical (s.logChan c kind st x) :=
  h.logFault

theorem Canonical.corrected {c : Fin 208} {die : Nat} (h : Canonical s) : Canonical (s.corrected c die) :=
  .ite (.logChan (.modChan (h.modChan fun _ hk => hk.bump) fun _ hk => hk)) (h.modChan fun _ hk => hk.bump)

theorem Canonical.decodeGran {g : Nat} (h : Canonical s) : Canonical (s.decodeGran g).2 := by
  unfold State.decodeGran
  refine .iteSnd (h.modChan fun _ hk => hk.bump) ?_
  split
  · exact h
  · exact h.corrected
  · exact h.modChan fun _ hk => hk.bump

theorem Canonical.decodeGrans {gs : List Nat} (h : Canonical s) : Canonical (s.decodeGrans gs).2 :=
  .foldlSnd (p := ([], s)) h fun _ _ hs => hs.decodeGran

theorem Canonical.charge {a n cls cost : Nat} (h : Canonical s) : Canonical (s.charge a n cls cost) :=
  .ite h (h.foldl fun _ _ hs => hs.modChan fun _ hk => hk)

theorem Canonical.chargeReads {a n : Nat} (h : Canonical s) : Canonical (s.chargeReads a n) := h.charge

theorem Canonical.inClass {cls : Nat} (h : Canonical s) : Canonical (s.inClass cls) := h

theorem Canonical.prepaid {f : State → State} (h : Canonical s) (hf : ∀ s, Canonical s → Canonical (f s)) : Canonical (s.prepaid f) := hf _ h

theorem Lands.meetRow {errs : List GranErr} {go : State → Result} (hgo : ∀ s, Canonical s → Lands (go s)) (h : Canonical s) :
    Lands (meetRow errs go s) := by
  have met : Lands (go (s.meeting errs)) := hgo _ h
  intro t e
  unfold Machine.meetRow at e
  split at e
  next u hu => cases e; exact met u hu
  next => exact met t e

theorem Canonical.markGrans {gs : List Nat} (h : Canonical s) : Canonical (s.markGrans gs) := h

theorem Canonical.putWhole {a : Nat} {bs : List Byte} (h : Canonical s) : Canonical (s.putWhole a bs) :=
  (h.withMem fun hm => Memory.writeRun_wf hm _ _).overChans fun _ hk => hk

theorem Canonical.putFull {a : Nat} {bs : List Byte} (h : Canonical s) : Canonical (s.putFull a bs) := h.charge.putWhole

theorem Canonical.mergeGran {g : Nat} (h : Canonical s) : Canonical (s.mergeGran g) := .ite h.decodeGran.charge.markGrans h.decodeGran.charge

theorem Canonical.evictGran {g : Nat} (h : Canonical s) : Canonical (s.evictGran g) := .mergeGran (h.modChan fun _ hk => hk.bump)

theorem Canonical.evictChan {c : Fin 208} {p : WcEntry → Bool} (h : Canonical s) : Canonical (s.evictChan c p) :=
  h.foldl fun _ _ hs => hs.evictGran

theorem Canonical.evictRange {a n : Nat} (h : Canonical s) : Canonical (s.evictRange a n) := h.foldl fun _ _ hs => hs.evictChan

theorem Canonical.putPartial {a : Nat} {bs : List Byte} (h : Canonical s) : Canonical (s.putPartial a bs) := by
  unfold State.putPartial
  dsimp only
  have stored : Canonical { s with mem := s.mem.writeRun a bs } := h.withMem fun hm => Memory.writeRun_wf hm _ _
  generalize ({ s with mem := s.mem.writeRun a bs } : State) = s1 at stored ⊢
  refine .ite stored.mergeGran ?_
  split
  · exact .ite (.charge (.modChan stored fun _ hk => hk.bump)) (.modChan stored fun _ hk => hk)
  · refine .modChan ?_ fun _ hk => hk
    split
    · exact .ite stored.evictGran stored
    · exact stored

theorem Canonical.putBytes {a : Nat} {bs : List Byte} (h : Canonical s) : Canonical (s.putBytes a bs) := by
  unfold State.putBytes
  extract_lets head s1 rest mid s2 tail
  have h1 : Canonical s1 := .ite h h.putPartial
  have h2 : Canonical s2 := .ite h1 h1.putFull
  exact .ite h2 h2.putPartial

/- HostOps. -/

theorem FnCanonical.box_wf {k : Fn} : FnCanonical k → k.box.wf = true
  | ⟨h, _⟩ => h

theorem FnCanonical.wr {k : Fn} {off v : Nat} (h : FnCanonical k) : FnCanonical (k.wr off v) := h.withRegs fun hm => Regs.wr_wf hm _ _

theorem Canonical.msix {v : Nat} (h : Canonical s) : Canonical (s.msix f v) := .ite h (.ite (h.modFn fun _ hk => hk.wr) h)

theorem Canonical.postEvent {evt seq : Nat} {st : Byte} {unsolicited : Bool} {body : List Byte} (h : Canonical s) :
    Canonical (s.postEvent f evt seq st unsolicited body) := by
  unfold State.postEvent
  refine .ite h ?_
  refine .ite (h.modFn fun _ hk => hk.withBox fun hm => Memory.writeRun_wf hm _ _) ?_
  exact .msix (h.modFn fun _ hk => hk.withBox fun _ => Memory.writeRun_wf (Memory.writeRun_wf h.fn.box_wf _ _) _ _)

theorem Canonical.answer {msg seq : Nat} {st : Byte} {body : List Byte} (h : Canonical s) : Canonical (s.answer f msg seq st body) := h.postEvent

theorem Canonical.tellOwner {evt : Nat} {body : List Byte} (h : Canonical s) : Canonical (s.tellOwner x evt body) := .ite h h.postEvent

theorem Canonical.modSq {r : Fin 256} {g : SubRing → SubRing} (h : Canonical s) : Canonical (s.modSq r g) := h

theorem Canonical.modCq {r : Fin 256} {g : CompRing → CompRing} (h : Canonical s) : Canonical (s.modCq r g) := h

theorem Canonical.pushRec {x : Option (Fin 64)} {q : Fin 256} {r : Rec} (h : Canonical s) : Canonical (s.pushRec x q r) := by
  unfold State.pushRec
  split
  · exact .ite h.modCtx h.modCq
  · exact h

theorem Canonical.complete {d : DescRef} {st : Byte} {d16 d32 d64 : Nat} (h : Canonical s) : Canonical (s.complete d st d16 d32 d64) :=
  .ite h.pushRec.modSq h.pushRec

/- Innk. -/

theorem Canonical.onCtxCores {f : Core → Core} (h : Canonical s) (hf : ∀ k, CoreCanonical k → CoreCanonical (f k)) :
    Canonical (s.onCtxCores x f) :=
  h.foldl fun _ _ hs => hs.modCore hf

theorem CoreCanonical.raiseEvent {bit : Nat} (h : CoreCanonical k) : CoreCanonical (k.raiseEvent bit) := h

theorem CoreCanonical.postAdmit {w : Word} (h : CoreCanonical k) : CoreCanonical (k.postAdmit w) := .raiseEvent h

theorem CoreCanonical.postNotice {m : Nat} (h : CoreCanonical k) : CoreCanonical (k.postNotice m) := .raiseEvent (.ite h (.ite h.postAdmit h))

theorem CoreCanonical.admitRead (h : CoreCanonical k) : CoreCanonical k.admitRead.2 := by
  unfold Core.admitRead
  split
  · exact h
  · split
    · exact h
    · exact .postAdmit h

theorem Canonical.taintStep {cause : Nat} {st : Byte} (h : Canonical s) : Canonical (s.taintStep x cause st) := h.modCtx

theorem Canonical.hostWrite {a : Nat} {bs : List Byte} (h : Canonical s) : Canonical (s.hostWrite x a bs) := .ite h h

theorem Canonical.closeBatch {mb : Nat} (h : Canonical s) : Canonical (s.closeBatch x mb) := by
  unfold State.closeBatch
  dsimp only
  split
  · exact h.putFull.putFull.modCtx
  · exact h

theorem Canonical.joinBatch {q : DecReq} (h : Canonical s) : Canonical (s.joinBatch x q) := by
  unfold State.joinBatch
  dsimp only
  split
  · exact h
  · split
    · exact .ite h.putFull.modCtx.closeBatch h.putFull.modCtx
    · split
      · exact h.modCtx
      · exact .ite h.modCtx.putFull.modCtx.closeBatch h.modCtx.putFull.modCtx

theorem Canonical.joinWaiting (h : Canonical s) : Canonical (s.joinWaiting x) := h.modCtx.foldl fun _ _ hs => hs.joinBatch

theorem Canonical.endBatch {mb : Nat} {st : Byte} (h : Canonical s) : Canonical (s.endBatch x mb st) := by
  unfold State.endBatch
  dsimp only
  split
  · exact .joinWaiting (.modCtx (.onCtxCores (h.foldl fun _ _ hs => .complete (.ite hs.hostWrite hs)) fun _ hc => hc))
  · exact h

theorem Canonical.finishMb {m : Nat} {st : Byte} (h : Canonical s) : Canonical (s.finishMb x m st) := by
  unfold State.finishMb
  split
  · exact h
  · refine .ite h ?_
    refine .ite h.modCtx.modCtx.endBatch.modCtx ?_
    split
    · exact h.modCtx.modCtx.complete
    · exact h.modCtx.modCtx

theorem Canonical.settleMb {m : Nat} (h : Canonical s) : Canonical (s.settleMb x m) := by
  unfold State.settleMb
  split
  · exact h
  · exact .ite h (.ite h.finishMb h)

theorem Canonical.fwdDeclared {m : BitVec 16} (h : Canonical s) : Canonical (s.fwdDeclared c m) := by
  unfold State.fwdDeclared
  dsimp only
  split
  · exact .settleMb (h.modCore fun _ hk => .ite hk hk)
  · exact h.modCore fun _ hk => .ite hk hk

theorem Canonical.recordAbort {m : Nat} {st : Byte} (h : Canonical s) : Canonical (s.recordAbort x m st) := by
  unfold State.recordAbort
  split
  · exact h
  · extract_lets s1 s2 s3
    have h3 : Canonical s3 := h.modCtx.bumpField.bumpField.onCtxCores fun _ hk => hk.postNotice
    exact .ite h3 h3.finishMb

theorem Canonical.skewTime {be : Nat} (h : Canonical s) : Canonical (s.skewTime c be) := by
  unfold State.skewTime
  split
  · exact h.modCtx
  · exact h

theorem Canonical.tileDrawn {x stream : Nat} (h : Canonical s) : Canonical (s.tileDrawn x stream) := by
  unfold State.tileDrawn
  split
  · exact h
  · exact h.modCtx

theorem Canonical.queueSweep {w : Sweep} (h : Canonical s) : Canonical (s.queueSweep w) := .ite h h

theorem Canonical.abftQueued (h : Canonical s) : Canonical (s.abftQueued c) := h.queueSweep

/- Issue. -/

theorem CoreCanonical.recordW1C {off lo v : Nat} {more : List (Nat × Nat)} (h : CoreCanonical k) : CoreCanonical (k.recordW1C off lo v more) :=
  .ite (h.withRegs fun hm => Regs.wrBits_wf hm _ _ _ _) (h.wr.foldl fun _ _ hk => hk.wr)

theorem CoreCanonical.recordCmdFault {slot : Fin 8} {st : Byte} {opcode : Nat} {atIssue : Bool} {idx mb : Nat} (h : CoreCanonical k) :
    CoreCanonical (k.recordCmdFault slot st opcode atIssue idx mb) := h.recordW1C

theorem CoreCanonical.failInst {slot : Fin 8} {st : Byte} (h : CoreCanonical k) : CoreCanonical (k.failInst slot st) := h.modInst

theorem CoreCanonical.cmdEnded {slot : Fin 8} {seq opcode : Nat} {atIssue : Bool} {st : Byte} (h : CoreCanonical k) :
    CoreCanonical (k.cmdEnded slot seq opcode atIssue st) := .ite h (.ite h.modInst h.recordCmdFault.failInst)

theorem CoreCanonical.makeLate {p : PJob → Bool} (h : CoreCanonical k) : CoreCanonical (k.makeLate p) := .bump h

theorem CoreCanonical.lateOn {rs : List Range} (h : CoreCanonical k) : CoreCanonical (k.lateOn rs) := h.makeLate

theorem CoreCanonical.advance {i : Fin 8} (h : CoreCanonical k) : CoreCanonical (k.advance i) := h.modInst

theorem CoreCanonical.carHold {owed : Nat} (h : CoreCanonical k) : CoreCanonical (k.carHold owed) := .ite h h

theorem CoreCanonical.opxLost {f : Frame} {w0 w1 : Nat} (h : CoreCanonical k) : CoreCanonical (k.opxLost f w0 w1) := .ite h.carHold h

/-- A verdict carries only states that have the canonical form. -/
def Settles : Verdict → Prop
  | .failIn t _ | .run t => Canonical t
  | .fail _ | .wait | .stall _ => True

theorem Settles.failIn {st : Byte} (h : Canonical s) : Settles (.failIn s st) := h

theorem Settles.run (h : Canonical s) : Settles (.run s) := h

theorem Settles.ite {p : Prop} [Decidable p] {a b : Verdict} (ha : Settles a) (hb : Settles b) : Settles (if p then a else b) := by
  split <;> assumption

theorem Settles.withBillets {f : Frame} {a : TileArgs} {us : List BUse} {extra : Bool} {go : List BEntry → Verdict}
    (hgo : ∀ es, Settles (go es)) : Settles (s.withBillets c f a us extra go) := by
  unfold State.withBillets
  refine .ite trivial ?_
  split
  · trivial
  · exact .ite trivial (hgo _)

theorem Lands.issueStep {i : Fin 8} {stall code : Nat} {accept : Core → Bool} {ok1 : Frame → TileArgs → Bool}
    {ok2 : Frame → TileCmd → Core → Bool} {body : Frame → Inst → TileCmd → State → Verdict} (h : Canonical s)
    (hbody : ∀ f n cmd s, Canonical s → Settles (body f n cmd s)) :
    Lands (issueStep c i stall code accept ok1 ok2 body s) := by
  have fails {s : State} {f : Frame} {w0 w1 seq : Nat} {st : Byte} (h : Canonical s) :
      Lands (.next (s.modCore c fun k => (k.opxLost f w0 w1).cmdEnded i seq w0 true st)) := .next (h.modCore fun _ hk => hk.opxLost.cmdEnded)
  unfold Machine.issueStep
  dsimp only
  split
  next n f _ _ =>
    refine .ite (.next h) (.ite (fails h) (.ite (.next h) ?_))
    split
    · exact fails h
    next cmd _ =>
      refine .ite (fails h) (.ite (.next (h.modCore fun _ hk => hk.advance.bump)) ?_)
      have issued : Canonical (s.modCore c fun k => k.bump 0x20444 stall) := h.modCore fun _ hk => hk.bump
      have settled := hbody f n cmd _ issued
      split <;> rename_i verdict <;> rw [verdict] at settled
      · exact fails issued
      · exact .next (settled.modCore fun _ hk => hk.cmdEnded)
      · exact .next h
      · exact .next (h.modCore fun _ hk => hk.lateOn)
      · exact .next (settled.modCore fun _ hk => hk.advance)
  · exact .next h

theorem CoreCanonical.setEnd {e : Fin 16} {v : Endpoint} (h : CoreCanonical k) : CoreCanonical (k.setEnd e v) := h

theorem Canonical.putToken {ep : Nat} {st : Byte} (h : Canonical s) : Canonical (s.putToken ep st) := by
  unfold State.putToken
  split
  · exact h
  · exact h.modCore fun _ hk => hk.setEnd

theorem Canonical.poisonFlush {i : Fin 8} {n : Inst} {f : Frame} {st : Byte} (h : Canonical s) : Canonical (s.poisonFlush c i n f st) := by
  unfold State.poisonFlush
  refine h.foldl fun s _ hs => ?_
  dsimp only
  split
  · exact .ite hs.putToken hs
  · exact hs

theorem CoreCanonical.returnSlots {n : Inst} (h : CoreCanonical k) : CoreCanonical (k.returnSlots n) :=
  h.foldl fun _ _ hk => .ite hk.writeEntry.setEnd hk.writeEntry

theorem CoreCanonical.clearSets {i : Fin 8} {f : Frame} (h : CoreCanonical k) : CoreCanonical (k.clearSets i f) := .ite h (.ite h h)

theorem Canonical.endCore {i : Fin 8} {st : Byte} (h : Canonical s) : Canonical (s.endCore c i st) := by
  unfold State.endCore
  split
  · extract_lets s1 s2
    have h1 : Canonical s1 := .ite h.poisonFlush h
    have h2 : Canonical s2 := h1.modCore fun _ hk =>
      .raiseEvent (.ite (.returnSlots (.ite hk.clearSets hk)) (.modSlot (.returnSlots (.ite hk.clearSets hk))))
    split
    · exact .ite h2.modCtx h2
    · exact h2
  · exact h

theorem Canonical.cancelInst {i : Fin 8} {st : Byte} {unstarted : List Nat} (h : Canonical s) : Canonical (s.cancelInst c i st unstarted) := by
  unfold State.cancelInst
  split
  · exact h
  · extract_lets stale mark s1
    have h1 : Canonical s1 := h.modCore fun _ hk => .modSlot (hk.foldl fun _ _ hk => hk.recordCmdFault)
    exact .ite h1 h1.endCore

/- Instances. -/

theorem Canonical.abortMb {m : Nat} {st : Byte} (h : Canonical s) : Canonical (s.abortMb x m st) := by
  unfold State.abortMb
  split
  · exact h
  · exact .ite h (h.recordAbort.foldl fun _ _ hs => hs.cancelInst)

theorem Canonical.parkMid {st : Byte} (h : Canonical s) : Canonical (s.parkMid x st) := .ite (h.modCtx.foldl fun _ _ hs => hs.cancelInst) h

theorem Canonical.settleFault (h : Canonical s) : Canonical (s.settleFault c) := by
  unfold State.settleFault
  refine .ite ?_ h
  dsimp only
  split
  · exact .parkMid (h.modCore fun _ hk => hk)
  · exact h.modCore fun _ hk => hk

theorem Canonical.stwFaulted (h : Canonical s) : Canonical (s.stwFaulted c) := by
  unfold State.stwFaulted
  refine .settleFault ?_
  split
  · exact h.tellOwner
  · exact h

theorem Canonical.failMb {f : Frame} {m : Nat} {st : Byte} (h : Canonical s) : Canonical (s.failMb x f m st) :=
  .ite (.ite h h.taintStep) (.ite h.abortMb (.ite h.modCtx h.modCtx.taintStep))

theorem Canonical.instEnded {n : Inst} {f : Frame} {st : Byte} (h : Canonical s) : Canonical (s.instEnded n f st) := by
  unfold State.instEnded
  split
  · exact h
  · exact .settleMb (.ite h.failMb h)

theorem Canonical.endInst {i : Fin 8} {st : Byte} (h : Canonical s) : Canonical (s.endInst c i st) := by
  unfold State.endInst
  split
  · exact h.endCore.instEnded.settleFault
  · exact h

theorem Canonical.cancelOne {i : Fin 8} {st : Byte} {unstarted : List Nat} (h : Canonical s) : Canonical (s.cancelOne c i st unstarted) := by
  unfold State.cancelOne
  dsimp only
  split
  · exact .settleFault (.ite h.cancelInst h.cancelInst.instEnded)
  · exact h.cancelInst

/- Packet. -/

theorem Canonical.send {p : List Byte} {w : Option Await} (h : Canonical s) : Canonical (s.send p w) := h

theorem Canonical.nextSeq {stream : Nat} (h : Canonical s) : Canonical (s.nextSeq stream).2 := h

theorem Canonical.sendCompletion {p : List Byte} {cstatus ccount mlo mhi member : Nat} (h : Canonical s) :
    Canonical (s.sendCompletion p cstatus ccount mlo mhi member) := h.send

theorem Canonical.sendFenced {p : List Byte} {lo hi : Nat} (h : Canonical s) : Canonical (s.sendFenced p lo hi) := h.bump.sendCompletion

end Sys2Proof.Safety
end

