-- ==== Sys2Proof/Proofs/Canonical/TileCommands.lean ====
section
/-! PROOF. Array, shadow, Caravan and queue commands and the paths of memory they use keep the canonical form (O56). -/

namespace Sys2Proof.Safety

open Sys2Proof.Machine

variable {α : Type} {s : State} {k : Core} {c : Fin 192} {x : Fin 64} {f : Fin 32} {e : Ecc}

/- ArrayCmds. -/

theorem CoreCanonical.putSet {live : Bool} {a : AccSet} (h : CoreCanonical k) : CoreCanonical (k.putSet live a) := .ite h h

theorem Canonical.recordSkew {caravan tolerant wrongTag : Bool} {expected found cmd : Nat} (h : Canonical s) :
    Canonical (s.recordSkew c caravan tolerant wrongTag expected found cmd) := (h.modCore fun _ hk => hk.recordW1C).logFault

theorem CoreCanonical.condPoisoned {i : Fin 8} (h : CoreCanonical k) : CoreCanonical (k.condPoisoned i) := h.modInst

theorem CoreCanonical.condNonfinite {i : Fin 8} (h : CoreCanonical k) : CoreCanonical (k.condNonfinite i) := h.modInst

theorem CoreCanonical.condMaskEmpty {i : Fin 8} {b : Bool} (h : CoreCanonical k) : CoreCanonical (k.condMaskEmpty i b) := h.modInst

theorem CoreCanonical.swap (h : CoreCanonical k) : CoreCanonical k.swap := h

theorem Canonical.swpFail {j : Job} {tolerant wrongTag : Bool} {tag : Byte} {found : Nat} (h : Canonical s) :
    Canonical (s.swpFail c j tolerant wrongTag tag found) := h.recordSkew.modCore fun _ hk => .cmdEnded (.condPoisoned hk)

/-- The start of a job leads to a state that has the canonical form. -/
def JobStarts : Started → Prop
  | .runs t _ | .ended t => Canonical t

theorem JobStarts.ite {p : Prop} [Decidable p] {a b : Started} (ha : JobStarts a) (hb : JobStarts b) : JobStarts (if p then a else b) := by
  split <;> assumption

theorem Canonical.startJob {j : Job} (h : Canonical s) : JobStarts (s.startJob c j) := by
  have runs {t : State} {i : Job} (h : Canonical t) : JobStarts (.runs t i) := h
  have ended {t : State} (h : Canonical t) : JobStarts (.ended t) := h
  unfold State.startJob
  dsimp only
  split
  · exact h
  · refine .ite (ended (h.modCore fun _ hk => hk.carHold.cmdEnded)) ?_
    split
    · exact .ite h (runs (h.modCore fun _ hk => hk.condMaskEmpty))
    · refine .ite (ended (h.modCore fun _ hk => hk.beats)) ?_
      split
      · exact ended (h.modCore fun _ hk => hk.swap.beats)
      · exact h
      · exact ended h.swpFail
    · exact runs (h.modCore fun _ hk => hk.putSet)
    · exact runs (h.modCore fun _ hk => hk.putSet)
    · exact h

theorem Canonical.startArray {n : Nat} (h : Canonical s) : Canonical (State.startArray n s c) := by
  induction n generalizing s with
  | zero => exact h
  | succ n ih =>
    unfold State.startArray
    split
    · exact h
    next j _ _ =>
      have started := h.startJob (c := c) (j := j)
      refine .ite h ?_
      split <;> rename_i run <;> rw [run] at started
      · exact started.modCore fun _ hk => hk
      · exact ih (started.modCore fun _ hk => hk)

theorem Canonical.startShadow {n : Nat} (h : Canonical s) : Canonical (State.startShadow n s c) := by
  induction n generalizing s with
  | zero => exact h
  | succ n ih =>
    unfold State.startShadow
    split
    · exact h
    next j _ _ =>
      have started := h.startJob (c := c) (j := j)
      refine .ite h ?_
      split <;> rename_i run <;> rw [run] at started
      · exact started.modCore fun _ hk => hk
      · exact ih (started.modCore fun _ hk => hk)

theorem Canonical.startEngines (h : Canonical s) : Canonical (s.startEngines c) := h.startShadow.startArray.startShadow

theorem Canonical.pushJob {shadow : Bool} {j : Job} (h : Canonical s) : Canonical (s.pushJob c shadow j) :=
  .startEngines (h.modCore fun _ hk => .ite hk hk)

theorem Canonical.popJob {shadow : Bool} {j : Job} {st : Byte} (h : Canonical s) : Canonical (s.popJob c shadow j st) :=
  .startEngines (h.modCore fun _ hk => .cmdEnded (.ite hk hk))

theorem CoreCanonical.spAccess {f : Frame} {j : Job} (h : CoreCanonical k) : CoreCanonical (k.spAccess f j) := h.bump64

theorem Lands.opx {i : Fin 8} {stall : Nat} (h : Canonical s) : Lands (execOpx c i stall s) := .issueStep h fun _ _ _ _ hs => by
  split
  · exact .withBillets fun _ => .run hs.pushJob
  · trivial

theorem CoreCanonical.accumulate {f : Frame} {mask : MaskSel} {ps : List Pos} (h : CoreCanonical k) : CoreCanonical (k.accumulate f mask ps) :=
  .bump64 (.bump64 h)

theorem CoreCanonical.slotBeats {f : Frame} {n first stride : Nat} (h : CoreCanonical k) : CoreCanonical (k.slotBeats f n first stride) :=
  h.beats.bump

theorem Lands.opxComplete {w : Waits} (h : Canonical s) : Lands (execOpxComplete c w s) := by
  unfold Machine.execOpxComplete
  split
  · split
    · refine .ite (.next h) ?_
      refine .next ?_
      refine .popJob ?_
      refine .modCore h fun k hk => ?_
      refine .spAccess ?_
      refine .waited ?_
      refine .beats ?_
      split
      · exact hk.accumulate
      · exact hk
    · exact .next h
  · exact .next h

theorem Lands.red {i : Fin 8} {stall : Nat} (h : Canonical s) : Lands (execRed c i stall s) := .issueStep h fun _ _ _ _ hs => by
  split
  · exact .withBillets fun _ => .run hs.pushJob
  · trivial

theorem Lands.redComplete {w : Waits} (h : Canonical s) : Lands (execRedComplete c w s) := by
  unfold Machine.execRedComplete
  split
  · split
    · exact .next (.popJob (h.modCore fun _ hk => .spAccess (.waited (.bumpSat (.beats hk)))))
    · exact .next h
  · exact .next h

theorem CoreCanonical.countTile {i : Fin 8} {t : Counts} (h : CoreCanonical k) : CoreCanonical (k.countTile i t) :=
  .ite h.bumpSat.bumpSat.bumpSat h.bumpSat.bumpSat.bumpSat.condNonfinite

theorem Canonical.countDraw {f : Frame} (h : Canonical s) : Canonical (s.countDraw f) := .ite h.tileDrawn h

theorem Lands.ewl {i : Fin 8} {stall : Nat} (h : Canonical s) : Lands (execEwl c i stall s) := .issueStep h fun _ _ _ _ hs => by
  split
  · exact .withBillets fun _ => .run hs.pushJob
  · trivial

theorem CoreCanonical.writeSeq {e : BEntry} {xs : List Elem} (h : CoreCanonical k) : CoreCanonical (k.writeSeq e xs).1 :=
  .iteFst (h.withSp fun hm => writePacked_wf hm) (.foldlFst (p := (k, [])) h fun _ _ hk => hk.writeSlice)

theorem Lands.ewlComplete {w : Waits} (h : Canonical s) : Lands (execEwlComplete c w s) := by
  unfold Machine.execEwlComplete
  split
  next j _ _ =>
    obtain ⟨_, _, ⟨_, _, args⟩, _⟩ := j
    cases args
    case ewl =>
      refine .ite ?_ ?_
      · dsimp only
        split
        · exact .next (.popJob (h.modCore fun _ hk => .ite hk.beats.waited.spAccess hk.beats.waited.spAccess.withAct))
        · exact .next h
      · dsimp only
        split
        · split
          · exact .next h
          · exact .next (h.setCore h.core.writeSeq.setPoison.countTile.spAccess.beats.waited).countDraw.popJob
        · exact .next h
    all_goals exact .next h
  · exact .next h

theorem Lands.tload {i : Fin 8} {stall : Nat} (h : Canonical s) : Lands (execTload c i stall s) := .issueStep h fun _ _ _ _ hs => by
  split
  · exact .withBillets fun _ => .run hs.pushJob
  · trivial

theorem Lands.swp {i : Fin 8} {stall : Nat} (h : Canonical s) : Lands (execSwp c i stall s) := .issueStep h fun _ _ _ _ hs => .run hs.pushJob

theorem Canonical.swpLimit {j : Job} {f : Frame} {tag : Byte} (h : Canonical s) : Canonical (s.swpLimit c j f tag) :=
  .startEngines (.swpFail (h.skewTime.modCore fun _ hk => hk))

theorem Canonical.swpOverdue {be : Nat} (h : Canonical s) : Canonical (s.swpOverdue c be) := by
  unfold State.swpOverdue
  split
  · split
    · exact .ite h.swpLimit h
    · exact h
  · exact h

theorem Canonical.swpRetry {be : Nat} (h : Canonical s) : Canonical (s.swpRetry c be) := by
  unfold State.swpRetry
  split
  · split
    · refine .ite h ?_
      split
      · exact h
      · exact .popJob (h.skewTime.modCore fun _ hk => hk.swap.beats)
      · exact .startEngines (.swpFail (h.skewTime.modCore fun _ hk => hk))
    · exact h
  · exact h

theorem Lands.accld {i : Fin 8} {stall : Nat} (h : Canonical s) : Lands (execAccld c i stall s) := .issueStep h fun _ _ _ _ hs => by
  split
  · exact .withBillets fun _ => .run hs.pushJob
  · trivial

theorem Lands.accldComplete {shadow : Bool} {w : Waits} {s0 : State} (h : Canonical s0) : Lands (execAccldComplete c shadow w s0) := by
  unfold Machine.execAccldComplete
  split
  · split
    · exact .next (.swpRetry (.popJob (.modCore (.ite h.swpOverdue h) fun _ hk => .ite hk.putSet.spAccess.waited hk.putSet.spAccess.waited.beats)))
    · exact .next h
  · exact .next h

theorem Lands.drn {i : Fin 8} {stall : Nat} (h : Canonical s) : Lands (execDrn c i stall s) := .issueStep h fun _ _ _ _ hs => by
  split
  · exact .withBillets fun _ => .run hs.pushJob
  · trivial

theorem CoreCanonical.writeLines {e : BEntry} {fmt kind lines : Nat} {line : Nat → List Elem} (h : CoreCanonical k) :
    CoreCanonical (k.writeLines e fmt kind lines line).1 := .foldlFst (p := (k, [])) h fun _ _ hk => hk.writeSlice

theorem CoreCanonical.drainCopies {f : Frame} {set : AccSet} {key : DrawKey} {lay : BitVec 2} {ents : List BEntry} (h : CoreCanonical k) :
    CoreCanonical (k.drainCopies f set key lay ents).1 := by
  unfold Core.drainCopies
  dsimp only
  split
  · exact h
  · refine .iteFst h.writeLines ?_
    split
    · exact .iteFst h.writeLines.writeLines h.writeLines
    · exact h.writeLines

theorem CoreCanonical.drainLists {f : Frame} {set : AccSet} {key : DrawKey} {depth : Nat} {e0 e1 : BEntry} (h : CoreCanonical k) :
    CoreCanonical (k.drainLists f set key depth e0 e1).1 := h.writeLines.withSp fun hm => Memory.writeRun_wf hm _ _

theorem Canonical.logAbft (h : Canonical s) : Canonical (s.logAbft c) := h.logFault

theorem Lands.drnComplete {shadow : Bool} {w : Waits} {s0 : State} (h : Canonical s0) : Lands (execDrnComplete c shadow w s0) := by
  unfold Machine.execDrnComplete
  split
  · split
    · extract_lets s k sh set marks skipped failed dk dsts st
      have settled : Canonical s := .ite h.swpOverdue h
      split
      next k1 cs drained =>
        have h1 : CoreCanonical k1 := by
          split at drained
          · exact settled.core.drainLists.of_fst drained
          · exact settled.core.drainCopies.of_fst drained
        extract_lets k2 k3 k4 k5 k6 s1 s2
        have h3 : CoreCanonical k3 := h1.countTile.bumpHalf.bumpHalf.bump.putSet.spAccess.waited
        have h4 : CoreCanonical k4 := .ite h3 h3.beats
        have h5 : CoreCanonical k5 := .ite (h4.foldl fun _ _ hk => hk.setPoison) (h4.foldl fun _ _ hk => hk.poisonBillet).condPoisoned
        have h6 : CoreCanonical k6 := by
          unfold k6
          clear_value failed
          split
          · exact h5.recordW1C
          · exact h5
        have written : Canonical s1 := (settled.setCore h6).countDraw
        exact .next (.swpRetry (.popJob (.ite written.logAbft.abftQueued written)))
    · exact .next h
  · exact .next h

/- Ready. -/

theorem Canonical.bumpCounter {n k : Nat} (h : Canonical s) : Canonical (s.bumpCounter n k) := h.withCc fun hm => SMap.set_wf hm _ _

theorem Canonical.markLate (h : Canonical s) : Canonical (s.markLate c) := h.foldl fun _ _ hs => .ite (hs.modCore fun _ hk => hk.makeLate) hs

theorem Canonical.markLateAll (h : Canonical s) : Canonical s.markLateAll := h.foldl fun _ _ hs => hs.markLate

/- Caravan. -/

theorem CoreCanonical.setTiles {ts : List CTile} (h : CoreCanonical k) : CoreCanonical (k.setTiles ts) := h

theorem CoreCanonical.freePlaces (h : CoreCanonical k) : CoreCanonical k.freePlaces := .ite h (.ite h.setTiles h.setTiles)

theorem CoreCanonical.settlePort (h : CoreCanonical k) : CoreCanonical k.settlePort := .ite h h

theorem CoreCanonical.resumeTail (h : CoreCanonical k) : CoreCanonical k.resumeTail := .ite (.settlePort h) h

theorem Canonical.forward (h : Canonical s) : ∀ t ∈ s.forward c, Canonical t := by
  rintro t e
  unfold State.forward at e
  dsimp only at e
  split at e
  · split at e
    · cases e
    · cases e
      exact .modCore (.modCore h fun _ hk => .settlePort (.bump64 (.bump hk))) fun _ hk => hk
  · cases e

theorem Canonical.forwardConsumed {n : Nat} (h : Canonical s) : Canonical (State.forwardConsumed n s c) := by
  induction n generalizing s with
  | zero => exact h
  | succ n ih =>
    unfold State.forwardConsumed
    refine .ite ?_ h
    split
    next t e => exact ih (h.forward t e)
    · exact h

theorem Canonical.opxFail {j : Job} {f : Frame} {tc : Nat} {wrongTag : Bool} {expected found : Nat} (h : Canonical s) :
    Canonical (s.opxFail c j f tc wrongTag expected found) :=
  .startEngines (h.recordSkew.modCore fun _ hk => .cmdEnded (.condPoisoned hk.setTiles.carHold))

theorem Canonical.slotCheck {j : Job} {f : Frame} {kk first : Nat} {m : BitVec 4} {bl : Bool} (h : Canonical s) :
    Canonical (s.slotCheck c j f kk first m bl) := by
  unfold State.slotCheck
  dsimp only
  split
  · exact .ite h (.ite (h.modCore fun _ hk => hk) h.opxFail)
  · refine .ite h.opxFail ?_
    refine .ite ?_ ?_
    · refine .startEngines ?_
      refine .modCore ?_ (fun _ hk => .cmdEnded (.condPoisoned hk.carHold))
      exact .forwardConsumed (h.setCore (.freePlaces (.ite h.core.setTiles.condMaskEmpty h.core.setTiles)))
    · refine h.setCore (.freePlaces ?_)
      split
      · exact .accumulate (.ite h.core.setTiles.condMaskEmpty h.core.setTiles)
      · exact .ite h.core.setTiles.condMaskEmpty h.core.setTiles

theorem Lands.caravanSlotCheck {w : Waits} (h : Canonical s) : Lands (execCaravanSlotCheck c w s) := by
  unfold Machine.execCaravanSlotCheck
  split
  · split
    · exact .ite (.next h) (.ite (.next h) (.next (h.modCore fun _ hk => hk.slotBeats.waited).slotCheck))
    · exact .next h
  · exact .next h

theorem Canonical.opxLimit {j : Job} {f : Frame} {kk tag : Nat} (h : Canonical s) : Canonical (s.opxLimit c j f kk tag) :=
  .opxFail (h.skewTime.modCore fun _ hk => hk)

theorem Canonical.opxOverdue {be : Nat} (h : Canonical s) : Canonical (s.opxOverdue c be) := by
  unfold State.opxOverdue
  split
  · split
    · exact .ite h.opxLimit h
    · exact h
  · exact h

theorem Lands.skewLimitExpiry (h : Canonical s) : Lands (execSkewLimitExpiry c s) := by
  unfold Machine.execSkewLimitExpiry
  split
  · refine .ite (.next h) ?_
    split
    · exact .next h.swpLimit
    · exact .next h.opxLimit
    · exact .next h
  · exact .next h

theorem Canonical.tilePresent {t : CTile} {skewBE : Nat} (h : Canonical s) : Canonical (s.tilePresent c t skewBE) := by
  unfold State.tilePresent
  dsimp only
  split
  · split
    · refine .ite (.slotCheck ((h.opxOverdue.modCore fun _ hk => hk.setTiles.freePlaces.resumeTail).skewTime.modCore fun _ hk => hk)) ?_
      exact (h.opxOverdue.modCore fun _ hk => hk.setTiles.freePlaces.resumeTail).markLate
    · exact (h.opxOverdue.modCore fun _ hk => hk.setTiles.freePlaces.resumeTail).markLate
  · exact (h.opxOverdue.modCore fun _ hk => hk.setTiles.freePlaces.resumeTail).markLate

theorem Lands.caravanTileArrive {w : Waits} (h : Canonical s) : Lands (execCaravanTileArrive c w s) := by
  unfold Machine.execCaravanTileArrive
  dsimp only
  split
  · exact .next h
  · exact .ite (.next h) (.next (.ite (.tilePresent (.modCore (h.modCore fun _ hk => hk) fun _ hk => hk.waited)) (h.modCore fun _ hk => hk)))

theorem Lands.caravanForward {w : Waits} (h : Canonical s) : Lands (execCaravanForward c w s) := by
  unfold Machine.execCaravanForward
  refine .next ?_
  split
  next t e => exact (h.forward t e).modCore fun _ hk => hk.waited
  · exact h

theorem CoreCanonical.carResume (h : CoreCanonical k) : CoreCanonical k.carResume := .ite (.settlePort (.resumeTail h)) h

theorem CoreCanonical.carFlush (h : CoreCanonical k) : CoreCanonical k.carFlush := .ite h h

theorem CoreCanonical.carUnbind (h : CoreCanonical k) : CoreCanonical k.carUnbind := .ite h h

theorem Lands.coreWrite {w : Who} {f : Core → Core} (h : Canonical s) (hf : ∀ k, CoreCanonical k → CoreCanonical (f k)) :
    Lands (s.coreWrite w c f) :=
  .ite (.next (h.modCore hf)) (.next h)

theorem Lands.resume {w : Who} (h : Canonical s) : Lands (execResume w c s) := .coreWrite h fun _ hk => hk.carResume

theorem Lands.flush {w : Who} (h : Canonical s) : Lands (execFlush w c s) := .coreWrite h fun _ hk => hk.carFlush

theorem Lands.unbind {w : Who} (h : Canonical s) : Lands (execUnbind w c s) := .coreWrite h fun _ hk => hk.carUnbind

theorem CoreCanonical.carCtl {v : Nat} (h : CoreCanonical k) : CoreCanonical (k.carCtl v) := by
  unfold Core.carCtl
  split
  · exact h.carResume
  · exact h.carFlush
  · exact h.carUnbind
  · exact h

/- Tiles. -/

theorem CoreCanonical.placeTile {e : BEntry} {bs : List Byte} (h : CoreCanonical k) : CoreCanonical (k.placeTile e bs) :=
  h.withSp fun hm => Memory.ite_wf (Memory.writeRun_wf hm _ _) (Memory.writeRun_wf (Memory.writeRun_wf hm _ _) _ _)

/- Memory. -/

theorem Canonical.setDir {slot : Nat} {d : DirEnt} (h : Canonical s) : Canonical (s.setDir slot d) := h.withDir fun hm => SMap.set_wf hm _ _

theorem Canonical.storeTile {a : Nat} {bs : List Byte} (h : Canonical s) : Canonical (s.storeTile a bs) := h.putFull

theorem Canonical.writeSlot {r : Region} {a : Nat} {bs : List Byte} (h : Canonical s) : Canonical (s.writeSlot r a bs) :=
  .ite h (.ite (.setDir (.ite h.storeTile h.putBytes)) (.setDir (.ite h.storeTile h.putBytes)))

theorem Canonical.writeIn {r : Region} {a : Nat} {bs : List Byte} (h : Canonical s) : Canonical (s.writeIn r a bs) :=
  .ite (h.foldl fun _ _ hs => hs.writeSlot) h.putBytes

theorem Canonical.writeOther {r : Region} {a : Nat} {bs : List Byte} (h : Canonical s) : Canonical (s.writeOther r a bs) :=
  .ite (h.foldl fun _ _ hs => hs.modChan fun _ hk => hk.bump) h.writeIn

theorem Canonical.askMirror {r : Region} {serial slot : Nat} (h : Canonical s) : Canonical (s.askMirror r serial slot) := by
  unfold State.askMirror
  split
  · exact h.foldl fun _ _ hs => hs.nextSeq.send
  · exact h
  · exact h

theorem Canonical.startRefetches {die : Nat} (h : Canonical s) : Canonical (s.startRefetches die) := by
  unfold State.startRefetches
  refine h.foldl fun s _ hs => ?_
  split
  · exact .ite (.askMirror hs) hs
  · exact hs

theorem Canonical.faultSlot {r : Region} {slot : Nat} {bad : List Nat} (h : Canonical s) : Canonical (s.faultSlot r slot bad) :=
  .ite (.startRefetches h.markGrans.setDir) h.markGrans.setDir.logChan

theorem Canonical.readSlot {r : Region} {slot a n : Nat} (h : Canonical s) : Canonical (s.readSlot r slot a n).2 := by
  unfold State.readSlot
  split
  · exact h
  · exact h
  · exact .iteSnd h.decodeGrans h.decodeGrans.faultSlot

theorem Canonical.readRaw {r : Region} {a n : Nat} (h : Canonical s) : Canonical (s.readRaw r a n).2 := by
  unfold State.readRaw
  refine .iteSnd (.foldlSnd (p := (SlotRead.ok, s)) h fun _ _ hs => hs.readSlot) ?_
  have decoded := h.decodeGrans (gs := granules a n)
  generalize s.decodeGrans (granules a n) = p at decoded ⊢
  obtain ⟨bad, t⟩ := p
  cases bad with
  | nil => exact decoded
  | cons g _ => exact decoded.logChan

theorem Canonical.readTile {r : Region} {slot : Nat} (h : Canonical s) : Canonical (s.readTile r slot).2 := by
  unfold State.readTile
  dsimp only
  split
  next t e => exact h.readSlot.of_snd e
  next t e => exact h.readSlot.of_snd e
  next t e =>
    have ht := h.readSlot.of_snd e
    exact .iteSnd ht.faultSlot ht

theorem Canonical.readStash {m : Mb} {o n : Nat} {tile : Bool} (h : Canonical s) : Canonical (s.readStash m o n tile).2 := by
  unfold State.readStash
  dsimp only
  split
  · exact h.decodeGrans
  · exact h.decodeGrans.logChan

theorem Canonical.zero {a n : Nat} (h : Canonical s) : Canonical (s.zero a n) :=
  (h.withMem fun hm => (State.zero_mem hm a n).1).overChans fun _ hk => hk

theorem Canonical.allocExtent {m ext : Nat} (h : Canonical s) : ∀ t ∈ s.allocExtent x m ext, Canonical t := by
  rintro t e
  unfold State.allocExtent at e
  dsimp only at e
  split at e
  · cases e
    exact .ite (.wr (.ite h.modCtx.zero h.modCtx.zero.bumpField)) (.ite h.modCtx.zero h.modCtx.zero.bumpField)
  · cases e

theorem Canonical.allocExtents {m : Nat} {es : List Nat} (h : Canonical s) : ∀ t ∈ s.allocExtents x m es, Canonical t := by
  induction es generalizing s with
  | nil => rintro _ ⟨⟩; exact h
  | cons e es ih =>
    intro t ht
    unfold State.allocExtents at ht
    split at ht
    next u hu => exact ih (h.allocExtent u hu) t ht
    next => cases ht

theorem Canonical.writeStash {gs : List (Option Nat)} {bs : List Byte} (h : Canonical s) : Canonical (s.writeStash gs bs) := by
  refine h.foldl fun s p hs => ?_
  split
  · exact hs.putFull
  · exact hs

/- QueueCmds. -/

theorem Lands.nop {i : Fin 8} {stall : Nat} (h : Canonical s) : Lands (execNop c i stall s) := .issueStep h fun _ _ _ _ hs => .run hs

theorem Lands.wct {i : Fin 8} {stall : Nat} (h : Canonical s) : Lands (execWct c i stall s) := .issueStep h fun _ _ _ _ hs => by
  split
  · exact .ite (.run (hs.modCore fun _ hk => hk.modInst)) trivial
  · trivial

theorem CoreCanonical.release {i : Fin 8} {be : Nat} (h : CoreCanonical k) : CoreCanonical (k.release i be) := h.bump.modInst

theorem Lands.wctCountMet {i : Fin 8} {waitBE : Nat} (h : Canonical s) : Lands (execWctCountMet c i waitBE s) := by
  unfold Machine.execWctCountMet
  split
  · exact .ite (.next (h.modCore fun _ hk => hk.release)) (.next h)
  · exact .next h

theorem Lands.wctTimeout {i : Fin 8} {waitBE : Nat} (h : Canonical s) : Lands (execWctTimeout c i waitBE s) := by
  unfold Machine.execWctTimeout
  split
  · exact .ite (.next h) (.next (h.modCore fun _ hk => hk.release.cmdEnded))
  · exact .next h

theorem CoreCanonical.psetBits {i : Fin 8} {filler : Bool} {mask value : BitVec 16} (h : CoreCanonical k) :
    CoreCanonical (k.psetBits i filler mask value) := h.writeSoft.modInst

theorem Lands.pset {i : Fin 8} {stall : Nat} (h : Canonical s) : Lands (execPset c i stall s) := .issueStep h fun _ _ _ _ hs => by
  split
  · exact .run (hs.modCore fun _ hk => hk.psetBits)
  · trivial

theorem Lands.psetCounter {i : Fin 8} {stall : Nat} (h : Canonical s) : Lands (execPsetCounter c i stall s) := .issueStep h fun _ _ _ _ hs => by
  split
  · exact .ite trivial (.run (hs.modCore fun _ hk => hk.writeSoft))
  · trivial

theorem Lands.fence {i : Fin 8} {stall : Nat} (h : Canonical s) : Lands (execFence c i stall s) :=
  .issueStep h fun _ _ _ _ hs => .run (hs.modCore fun _ hk => hk.modInst)

theorem Lands.fenceRelease {i : Fin 8} {waitBE : Nat} (h : Canonical s) : Lands (execFenceRelease c i waitBE s) := by
  unfold Machine.execFenceRelease
  split
  · split
    · exact .ite (.next h) (.next (h.modCore fun _ hk => hk.release))
    · exact .next h
  · exact .next h

theorem Lands.bqp {i : Fin 8} {stall : Nat} {tie : Bool} (h : Canonical s) : Lands (execBqp c i stall tie s) := .issueStep h fun _ _ _ s hs => by
  have moved {n : Nat} : Canonical { s with moments := n } := hs
  split
  · exact .ite trivial (.ite trivial (.ite trivial (.ite trivial (.run (moved.modCore fun _ hk => hk)))))
  · trivial

theorem CoreCanonical.endQueueJob {j : Job} {st : Byte} (h : CoreCanonical k) : CoreCanonical (k.endQueueJob j st) := .cmdEnded h

theorem Lands.bqpAccept {i : Fin 8} {w : Waits} (h : Canonical s) : Lands (execBqpAccept c i w s) := by
  unfold Machine.execBqpAccept
  split
  · split
    · split
      · exact .next h
      · refine .ite (.next h) ?_
        refine .ite (.next ((h.putToken.modCore fun _ hk => hk.setEnd).modCore fun _ hk => hk.waited.endQueueJob).markLate) ?_
        split
        · exact .next h
        · refine .next (.markLate (.modCore (.modCore h fun _ hk => ?_) fun _ hk => hk.bump64.bump64.waited.endQueueJob))
          exact .setEnd (.bump64 (hk.withSp fun hm => Memory.writeRun_wf hm _ _))
    · exact .next h
  · exact .next h

theorem Lands.bqt {i : Fin 8} {stall : Nat} (h : Canonical s) : Lands (execBqt c i stall s) := .issueStep h fun _ _ _ _ hs => by
  split
  · exact .ite trivial (.ite trivial (.run (hs.modCore fun _ hk => hk)))
  · trivial

theorem Lands.bqtTake {i : Fin 8} {w : Waits} (h : Canonical s) : Lands (execBqtTake c i w s) := by
  unfold Machine.execBqtTake
  dsimp only
  split
  · split
    · split
      · exact .next h
      · split
        · exact .next h
        · split <;> exact .next (h.setCore h.core.waited.setEnd.writeEntry.modInst.endQueueJob)
    · exact .next h
  · exact .next h

end Sys2Proof.Safety
end

