-- ==== Sys2Proof/Proofs/Canonical/PorterFabric.lean ====
section
/-! PROOF. Porter commands and the fabric's ports, banks and packets keep the canonical form (O56). -/

namespace Sys2Proof.Safety

open Sys2Proof.Machine

variable {α : Type} {s : State} {k : Core} {c : Fin 192} {x : Fin 64} {f : Fin 32} {e : Ecc}

/- Porter. -/

theorem Canonical.chargeLoad {t : Reach} {a n cls : Nat} {tile : Bool} (h : Canonical s) : Canonical (s.chargeLoad t a n cls tile) := by
  unfold State.chargeLoad
  split
  · exact h.charge
  · refine h.foldl fun s _ hs => ?_
    split
    · exact hs.charge
    · exact hs

theorem Canonical.readReach {t : Reach} {a n : Nat} {tile : Bool} (h : Canonical s) : Canonical (s.readReach t a n tile).2 := by
  unfold State.readReach
  refine .iteSnd h ?_
  split
  · exact h.readStash
  · refine .iteSnd h.readTile ?_
    split <;> rename_i e <;> exact h.readRaw.of_snd e

theorem CoreCanonical.advanceTag {e : BEntry} (h : CoreCanonical k) : CoreCanonical (k.advanceTag e) :=
  h.withDmem fun hm => Memory.writeRun_wf hm _ _

theorem Lands.ldt {i : Fin 8} {stall : Nat} {errs : List GranErr} (h : Canonical s) : Lands (execLdt c i stall errs s) :=
  .meetRow (fun _ hs => .issueStep hs fun _ _ _ _ hs => by
    split
    · refine .withBillets fun _ => ?_
      split
      · trivial
      · exact .run (.markLate (.modCore hs.readReach fun _ hk => .ite hk.advanceTag hk))
    · trivial) h

theorem CoreCanonical.bumpGroup {g mb : BitVec 16} (h : CoreCanonical k) : CoreCanonical (k.bumpGroup g mb) := .ite h h

theorem CoreCanonical.endPorter {pos : Nat} {j : PJob} {st : Byte} (h : CoreCanonical k) : CoreCanonical (k.endPorter pos j st) :=
  .ite (.ite h (.recordCmdFault h)) (.cmdEnded h)

theorem Canonical.insertTile {pos : Nat} {j : PJob} {group : BitVec 16} {skewBE : Nat} (h : Canonical s) :
    Canonical (s.insertTile c pos j group skewBE) := by
  unfold State.insertTile
  refine .ite ((h.modCore fun _ hk => hk.endPorter).tilePresent) ?_
  split
  · exact (h.modCore fun _ hk => hk.endPorter.bumpGroup).tilePresent
  · exact (h.modCore fun _ hk => hk.endPorter).tilePresent

theorem CoreCanonical.landLdt {pos : Nat} {j : PJob} {tile : Bool} {group : BitVec 16} (h : CoreCanonical k) :
    CoreCanonical (k.landLdt pos j tile group) := by
  unfold Core.landLdt
  refine .ite h.poisonBillet.condPoisoned.endPorter ?_
  split
  · exact h.poisonBillet.condPoisoned.endPorter
  · exact .bumpGroup (.endPorter (.bump64 (.setPoison (.ite h.placeTile (h.withSp fun hm => Memory.writeRun_wf hm _ _)))))

theorem Canonical.chargeLdt {j : PJob} (h : Canonical s) : Canonical (s.chargeLdt j) := by
  unfold State.chargeLdt
  split
  · dsimp only
    split
    · exact h.chargeLoad
    · exact h
  · exact h

theorem Lands.ldtComplete {pos : Nat} {w : Waits} (h : Canonical s) : Lands (execLdtComplete c pos w s) := by
  unfold Machine.execLdtComplete
  split
  · exact .next h
  · split
    · refine .ite (.next h) (.ite ?_ ?_)
      · exact .ite (.next (h.chargeLdt.modCore fun _ hk => hk.waited).insertTile) (.next h)
      · exact .next (h.chargeLdt.modCore fun _ hk => hk.landLdt.waited)
    · exact .next h

theorem Canonical.serveLdts {which : LoadData → Bool} (h : Canonical s) : Canonical (s.serveLdts which) := by
  unfold State.serveLdts
  refine h.foldl fun s _ hs => ?_
  refine hs.foldl fun s _ hs => ?_
  refine .ite ?_ hs
  refine .modCore ?_ (fun _ hk => hk)
  split
  · dsimp only
    split
    · exact hs.readReach
    · exact hs
  · exact hs

theorem Canonical.toPorter {i : Fin 8} {n : Inst} {cmd : TileCmd} {e : BEntry} (h : Canonical s) : Canonical (s.toPorter c i n cmd e) :=
  h.modCore fun _ hk => hk

theorem Canonical.startWrite {t : Reach} {n : Nat} {go : State → Verdict} (h : Canonical s) (hgo : ∀ u, Canonical u → Settles (go u)) :
    Settles (s.startWrite t n go) := by
  -- Over any list of extents: the kernel does not get through `Mb.newExtents`.
  have general (extents : Mb → Nat → Nat → List Nat) : Settles (match t with
      | .region _ => go s
      | .stash x m off => match s.allocExtents x m.mb (extents m off n) with
        | some u => go u
        | none => .failIn (s.abortMb x m.mb stStash) stStash) := by
    split
    · exact hgo _ h
    · split
      next u alloc => exact hgo _ (h.allocExtents u alloc)
      · exact .failIn h.abortMb
  exact general Mb.newExtents

theorem Lands.stt {i : Fin 8} {stall : Nat} (h : Canonical s) : Lands (execStt c i stall s) := .issueStep h fun _ _ _ _ hs => by
  split
  · refine .withBillets fun _ => ?_
    split
    · trivial
    · exact hs.startWrite fun _ hu => .run hu.toPorter
  · trivial

theorem Lands.sttComplete {pos : Nat} {w : Waits} (h : Canonical s) : Lands (execSttComplete c pos w s) := by
  unfold Machine.execSttComplete
  split
  · exact .next h
  · split
    · dsimp only
      split
      · refine .ite (.next h) ?_
        split
        · exact .ite (.next h) (.next (h.writeIn.modCore fun _ hk => hk.bump64.bump64.waited.endPorter))
        · exact .next (h.writeStash.modCtx.modCore fun _ hk => hk.bump64.bump64.waited.endPorter)
      · exact .next (h.modCore fun _ hk => hk.bump64.bump64.waited.endPorter)
    · exact .next h

theorem Lands.acw {i : Fin 8} {stall : Nat} (h : Canonical s) : Lands (execAcw c i stall s) := .issueStep h fun _ _ _ _ hs => by
  split
  · exact .withBillets fun _ => .run hs.toPorter
  · trivial

theorem Canonical.applyUnits {r : Option Region} {fmt op : Nat} {scale : Val} {bad : List Nat} {us : List (List Nat × Nat × List Byte)}
    (h : Canonical s) : Canonical (s.applyUnits r fmt op scale bad us) := by
  induction us generalizing s with
  | nil => exact h
  | cons u us ih =>
    obtain ⟨gs, off, bytes⟩ := u
    unfold State.applyUnits
    refine .ite (ih h) ?_
    extract_lets old s1
    split
    extract_lets new s2 s3
    have h1 : Canonical s1 := h.foldl fun _ _ hs => .modChan (.charge hs.evictRange) fun _ hk => hk.bump
    have h2 : Canonical s2 := by
      refine h1.prepaid fun s hs => hs.foldl fun s p hs => ?_
      split
      · exact hs.writeIn
      · exact hs.putFull
    have h3 : Canonical s3 := by
      unfold s3
      split
      · exact h2.modChan fun _ hk => hk.bump
      · exact h2
    exact ih h3

theorem Canonical.acwDecode {r : Option Region} {as_ : List Nat} (h : Canonical s) : Canonical (s.acwDecode r as_).2 := by
  unfold State.acwDecode
  extract_lets slots
  refine .iteSnd h ?_
  have decoded := h.decodeGrans (gs := as_.map (· / 64))
  generalize s.decodeGrans (as_.map (· / 64)) = p at decoded ⊢
  obtain ⟨bad, t⟩ := p
  clear_value slots
  cases r with
  | none => exact decoded.markGrans
  | some r => exact .iteSnd (decoded.foldl fun _ _ hs => .ite hs.faultSlot hs) (.markGrans (decoded.foldl fun _ _ hs => .ite hs.faultSlot hs))

theorem Canonical.acwApply {r : Option Region} {fmt op : Nat} {scale : Val} {as_ : List Nat} {x : List Byte} (h : Canonical s) :
    Canonical (s.acwApply r fmt op scale as_ x).2 := by
  unfold State.acwApply
  split
  next t e => exact h.acwDecode.of_snd e
  next t e => exact (h.acwDecode.of_snd e).applyUnits

theorem Lands.acwComplete {pos : Nat} {w : Waits} {errs : List GranErr} (h : Canonical s) : Lands (execAcwComplete c pos w errs s) := by
  unfold Machine.execAcwComplete
  refine .meetRow (fun s hs => ?_) h
  split
  · exact .next hs
  · split
    · extract_lets x fin go
      have finished {p : Option Bool × State} (hp : Canonical p.2) : Lands (fin p) := by
        obtain ⟨_ | _, t⟩ := p
        · exact .next hp
        · exact .next (hp.modCore fun _ hk => hk.bump64.bump64.waited.endPorter)
      have goes (r : Option Region) (as_ : List Nat) : Lands (go r as_) := finished hs.acwApply
      clear_value go
      split
      · refine .ite (.next hs) ?_
        split <;> exact goes _ _
      · exact goes _ _
    · exact .next hs

/- Fabric. -/

theorem Canonical.modPort {p : Fin 36} {f : Port → Port} (h : Canonical s) : Canonical (s.modPort p f) := h

theorem Canonical.logPort {p : Fin 36} (h : Canonical s) : Canonical (s.logPort p) := h.logFault

theorem Canonical.pumpPort {p : Fin 36} (h : Canonical s) : Canonical (s.pumpPort p) := h

theorem Canonical.toPort {p : Fin 36} {f : Flow} {vcc : Nat} (h : Canonical s) : Canonical (s.toPort p f vcc) := .pumpPort (.modPort h)

theorem Canonical.pumpAll (h : Canonical s) : Canonical s.pumpAll := h.foldl fun _ _ hs => hs.pumpPort

theorem Canonical.settleRx (h : Canonical s) : Canonical s.settleRx := h.foldl fun _ _ hs => .ite hs hs

theorem Canonical.refuseCmd (h : Canonical s) : Canonical s.refuseCmd := h.wrBits

theorem Lands.beginLoad {w : Who} {epoch : Byte} (h : Canonical s) : Lands (execBeginLoad w epoch s) :=
  .ite (.next h) (.ite (.next h.refuseCmd) (.next (h.modBank fun _ hk => hk)))

theorem Lands.loadDone {w : Who} (h : Canonical s) : Lands (execLoadDone w s) := by
  unfold Machine.execLoadDone
  refine .ite (.next h) ?_
  split
  · exact .next (h.modBank fun _ hk => hk)
  · exact .next h.refuseCmd

theorem Lands.flip {w : Who} (h : Canonical s) : Lands (execFlip w s) := by
  unfold Machine.execFlip
  refine .ite (.next h) ?_
  split
  · exact .next h.refuseCmd
  · refine .next ?_
    refine .wrBits ?_
    refine .modBank ?_ (fun _ hk => hk)
    split
    · exact .wr (h.modBank fun _ hk => hk)
    · exact h

theorem Lands.retire {w : Who} (h : Canonical s) : Lands (execRetire w s) := by
  unfold Machine.execRetire
  refine .ite (.next h) ?_
  split
  · exact .next h.refuseCmd
  · exact .ite (.next (h.modBank fun _ hk => hk)) (.next h.refuseCmd)

theorem Lands.forceRetire {w : Who} (h : Canonical s) : Lands (execForceRetire w s) := by
  unfold Machine.execForceRetire
  refine .ite (.next h) ?_
  split
  · exact .next h.refuseCmd
  · exact .next (.settleRx (.modBank h.bump fun _ hk => hk))

theorem Lands.abandonLoad {w : Who} (h : Canonical s) : Lands (execAbandonLoad w s) := by
  unfold Machine.execAbandonLoad
  refine .ite (.next h) ?_
  split
  · exact .next (h.modBank fun _ hk => hk)
  · exact .next h.refuseCmd

theorem Canonical.selectEntry {v : Nat} (h : Canonical s) : Canonical (s.selectEntry v) := h.wr.foldl fun _ _ ht => ht.wr

theorem Lands.tableEntryStore {w : Who} {n : Fin 32} {value : Word} (h : Canonical s) : Lands (execTableEntryStore w n value s) := by
  unfold Machine.execTableEntryStore
  refine .ite (.next h) ?_
  dsimp only
  split
  · exact .ite (.next (h.wr.modBank fun _ hk => hk.withRoute fun hm => SMap.set_wf hm _ _)) (.next h.wr)
  · exact .ite (.next (h.wr.modBank fun _ hk => hk.withGroup fun hm => SMap.setAll_wf _ hm)) (.next h.wr)
  · exact .next (.ite (h.wr.withFence fun hm => SMap.set_wf hm _ _) h.wr)
  · exact .next (.ite h.wr h.wr)

theorem setBitmap_wf {m : SMap Word} {ep : Nat} {b : Bool} (h : SMap.wf noWord m = true) : SMap.wf noWord (setBitmap m ep b) = true :=
  SMap.set_wf h _ _

theorem Lands.fenceUpdate {w : Who} {value : Word} (h : Canonical s) : Lands (execFenceUpdate w value s) :=
  .ite (.next h) (.ite (.next (.wrBits (h.withFence setBitmap_wf))) (.next h.wrBits))

theorem Canonical.stale (h : Canonical s) : Canonical s.stale := h.bump

theorem Canonical.branch {b : Bank} {f : Flow} {q : Nat} (h : Canonical s) : Canonical (s.branch b f q) := by
  unfold State.branch
  dsimp only
  split
  · exact h.sendFenced
  · exact .ite h.sendFenced (.ite h.stale h.toPort)

theorem Canonical.deliver {f : Flow} (h : Canonical s) : Canonical (s.deliver f) := h

theorem Canonical.routePacket {b : Bank} {f : Flow} (h : Canonical s) : Canonical (s.routePacket b f) := by
  unfold State.routePacket
  refine .ite (.ite h.stale (.foldl (.ite h.deliver h) fun _ _ hs => .ite hs.stale hs.branch)) ?_
  refine .ite h.stale ?_
  refine .ite h.deliver ?_
  refine .ite (.ite h.sendFenced h) ?_
  split
  · exact h.stale
  · exact .ite h.stale h.toPort

theorem Canonical.arrive {version : Nat} {f : Flow} (h : Canonical s) : Canonical (s.arrive version f) := by
  unfold State.arrive
  refine .ite h.stale ?_
  split
  · exact h.stale
  · exact .routePacket (.ite h.bump h)

theorem Canonical.sealFlow {q : Fin 36} {rid : Nat} (h : Canonical s) : Canonical (s.sealFlow q rid) := h.modPort

theorem Canonical.routeHead {q : Fin 36} {vc : Fin 12} (h : Canonical s) : Canonical (s.routeHead q vc) := by
  unfold State.routeHead
  split
  · exact h
  · exact .ite h h.arrive.sealFlow.settleRx

theorem Canonical.inject (h : Canonical s) : Canonical s.inject := by
  unfold State.inject
  split
  · exact h
  · dsimp only
    split
    · exact .stale h
    · exact .routePacket h

theorem Lands.packetRoute {head : Option (Fin 36 × Fin 12)} (h : Canonical s) : Lands (execPacketRoute head s) := by
  unfold Machine.execPacketRoute
  split
  · exact .next h.inject
  · exact .next h.routeHead

theorem Canonical.dropFlow {rid : Nat} (h : Canonical s) : Canonical (s.dropFlow rid) := h

theorem Canonical.dropPackets {p : Fin 36} (h : Canonical s) : Canonical (s.dropPackets p) := by
  unfold State.dropPackets
  refine (h.foldl fun _ _ hs => hs.dropFlow).modPort.foldl fun s _ hs => ?_
  dsimp only
  split
  · exact hs.stale
  · refine .ite hs.sendFenced ?_
    split
    · exact hs.toPort
    · exact hs.stale

theorem Canonical.takeDown {p : Fin 36} {st : PortSt} (h : Canonical s) : Canonical (s.takeDown p st) := h.modPort.dropPackets

theorem Canonical.beginTraining {p : Fin 36} (h : Canonical s) : Canonical (s.beginTraining p) := h

theorem Lands.portTrain {p : Fin 36} (h : Canonical s) : Lands (execPortTrain p s) := .ite (.next h.beginTraining) (.next h)

theorem Lands.portTrainDone {p : Fin 36} {r : TrainResult} {ms : Nat} (h : Canonical s) : Lands (execPortTrainDone p r ms s) := by
  unfold Machine.execPortTrainDone
  refine .ite (.next h) ?_
  dsimp only
  split
  · exact .next h.modPort.modPort
  · exact .ite (.next h.modPort.modPort) (.ite (.next h.modPort.modPort) (.next h.modPort.modPort.pumpPort.settleRx))

theorem Lands.neighborIdAnnounce {p : Fin 36} {id : Nat} (h : Canonical s) : Lands (execNeighborIdAnnounce p id s) :=
  .ite (.next h.modPort) (.next h)

theorem Lands.selfIdWrite {w : Who} {value : Word} (h : Canonical s) : Lands (execSelfIdWrite w value s) := .ite (.next h) (.next h.wr)

theorem Lands.portRetrain {w : Who} {p : Fin 36} (h : Canonical s) : Lands (execPortRetrain w p s) :=
  .ite (.next h) (.next h.takeDown.modPort.beginTraining)

theorem Lands.portOutOfService {w : Who} {p : Fin 36} (h : Canonical s) : Lands (execPortOutOfService w p s) := .ite (.next h) (.next h.takeDown)

theorem Lands.portReturnToService {w : Who} {p : Fin 36} (h : Canonical s) : Lands (execPortReturnToService w p s) :=
  .ite (.next h) (.next h.modPort)

theorem Canonical.portDown {p : Fin 36} (h : Canonical s) : Canonical (s.portDown p) := h.logPort.takeDown.modPort

theorem Lands.neighborSilent {p : Fin 36} (h : Canonical s) : Lands (execNeighborSilent p s) := .ite (.next h.portDown) (.next h)

theorem Lands.vcStallEvent {p : Fin 36} {vc : Fin 12} (h : Canonical s) : Lands (execVcStallEvent p vc s) := .ite (.next h.bump.report) (.next h)

theorem Canonical.replayRun {p : Fin 36} (h : Canonical s) : Canonical (s.replayRun p) := .ite h (.ite h.portDown h.modPort.logPort)

theorem Canonical.askReplay {p : Fin 36} (h : Canonical s) : Canonical (s.askReplay p) := .replayRun h

theorem Canonical.sendAck {p : Fin 36} (h : Canonical s) : Canonical (s.sendAck p) := h

theorem Canonical.takeFlit {p : Fin 36} {vc : Nat} {data : List Byte} (h : Canonical s) : Canonical (s.takeFlit p vc data) := by
  unfold State.takeFlit
  split
  · exact .modPort h
  · exact .pumpAll h

theorem Canonical.linkControl {p : Fin 36} {ctl : Word} (h : Canonical s) : Canonical (s.linkControl p ctl) := .pumpPort (.ite h h.modPort)

theorem Lands.flitReceive {p : Fin 36} {data : List Byte} {ctl crc : Word} {corr01 corr23 uncorr stall : Nat} (h : Canonical s) :
    Lands (execFlitReceive p data ctl crc corr01 corr23 uncorr stall s) := by
  unfold Machine.execFlitReceive
  refine .ite (.next h) ?_
  refine .ite (.next h.modPort.modPort.askReplay) ?_
  refine .ite (.next h.modPort.linkControl.settleRx) ?_
  refine .ite (.next h.modPort.linkControl.askReplay.settleRx) ?_
  have taken {t : State} (ht : Canonical t) {vc : Nat} : Canonical (t.takeFlit p vc data) := ht.takeFlit
  exact .next (.settleRx (.ite (taken h.modPort.linkControl.modPort).sendAck (taken h.modPort.linkControl.modPort)))

theorem Lands.flitAckTimer {p : Fin 36} (h : Canonical s) : Lands (execFlitAckTimer p s) := .ite (.next h.sendAck) (.next h)

end Sys2Proof.Safety
end

