-- ==== Sys2Proof/Proofs/Canonical/Tollhouse.lean ====
section
/-! PROOF. The Tollhouse's tiles, loss gate and apply rounds keep the canonical form (O56). -/

namespace Sys2Proof.Safety

open Sys2Proof.Machine

variable {α : Type} {s : State} {k : Core} {c : Fin 192} {x : Fin 64} {f : Fin 32} {e : Ecc}

/- Toll. -/

theorem TollCanonical.wr {k : Toll} {off v : Nat} (h : TollCanonical k) : TollCanonical (k.wr off v) := h.withRegs fun hm => Regs.wr_wf hm _ _

theorem TollCanonical.bump {k : Toll} {off n : Nat} (h : TollCanonical k) : TollCanonical (k.bump off n) := h.withRegs fun hm => Regs.wr_wf hm _ _

theorem TollCanonical.bumpSat {k : Toll} {off n : Nat} (h : TollCanonical k) : TollCanonical (k.bumpSat off n) :=
  h.withRegs fun hm => Regs.wr_wf hm _ _

theorem TollCanonical.bump64 {k : Toll} {off n : Nat} (h : TollCanonical k) : TollCanonical (k.bump64 off n) :=
  h.withRegs fun hm => Regs.bump64_wf hm _ _

theorem TollCanonical.bumpHalf {k : Toll} {off lo n : Nat} (h : TollCanonical k) : TollCanonical (k.bumpHalf off lo n) :=
  h.withRegs fun hm => Regs.wrBits_wf hm _ _ _ _

theorem Canonical.setLayer {n : Nat} {l : Layer} (h : Canonical s) : Canonical (s.setLayer n l) := h.withLayers fun hm => SMap.set_wf hm _ _

theorem Canonical.modLayer {n : Nat} {f : Layer → Layer} (h : Canonical s) : Canonical (s.modLayer n f) := h.setLayer

theorem TollCanonical.unstage {k : Toll} {p : Staged → Bool} (h : TollCanonical k) : TollCanonical (k.unstage p) := h

theorem Canonical.takePart {t : Fin 4} {layer : Nat} {e : List Byte} {r : Region} {n off : Nat} {bs : List Byte} (h : Canonical s) :
    Canonical (s.takePart t layer e r n off bs) :=
  .modLayer (.ite (.writeOther (.ite (h.modToll fun _ hk => hk.bump) h)) (h.modToll fun _ hk => .ite hk hk))

/-- What becomes of a payload leads to a state that has the canonical form. -/
def Takes : TollTake → Prop
  | .closed => True
  | .wait t | .taken t => Canonical t

theorem Takes.ite {p : Prop} [Decidable p] {a b : TollTake} (ha : Takes a) (hb : Takes b) : Takes (if p then a else b) := by
  split <;> assumption

theorem Takes.wait (h : Canonical s) : Takes (.wait s) := h

theorem Takes.taken (h : Canonical s) : Takes (.taken s) := h

theorem Canonical.tollPayload {t : Nat} {r : Region} {a : Nat} {bs : List Byte} (h : Canonical s) : Takes (s.tollPayload t r a bs) := by
  unfold State.tollPayload
  split
  · trivial
  · exact .ite trivial (.ite (.wait h) (.taken (h.foldl fun _ _ hs => hs.takePart)))

theorem Canonical.decideGate {waitExpired : Bool} (h : Canonical s) : Canonical (s.decideGate waitExpired) :=
  .ite (.ite h.wr h) (.ite (.wr (.ite h.wr h)) (.wr (.ite h.wr h)))

theorem Canonical.tryGate (h : Canonical s) : Canonical s.tryGate := .ite h.decideGate h

theorem Canonical.lossRecord {ctx off : Nat} {bs : List Byte} (h : Canonical s) : ∀ t ∈ s.lossRecord ctx off bs, Canonical t := by
  intro u taken
  unfold State.lossRecord at taken
  dsimp only at taken
  split at taken
  · cases taken
  · split at taken
    · cases taken
    · split at taken
      · split at taken <;> cases taken
        · exact h
        · exact .tryGate h
      · split at taken <;> cases taken
        exact h

theorem Canonical.queueLayer {t : Fin 4} {n : Nat} (h : Canonical s) : Canonical (s.queueLayer t n) := by
  unfold State.queueLayer
  refine .tryGate ?_
  split
  · exact .ite (.modCtx (h.modLayer.modToll fun _ hk => hk)) (h.modLayer.modToll fun _ hk => hk)
  · exact h.modLayer.modToll fun _ hk => hk

theorem Canonical.tollWrite {a : Nat} {bs : List Byte} (h : Canonical s) : Canonical (s.tollWrite a bs) := by
  unfold State.tollWrite
  split
  · exact h.writeOther
  · exact h

theorem Canonical.tollRead1 {p : TollRead × State} {q : Nat × Nat} (h : Canonical p.2) : Canonical (State.tollRead1 p q).2 := by
  unfold State.tollRead1
  split
  · exact h
  next r _ =>
    have read := (h.chargeReads (a := q.1) (n := q.2)).readRaw (r := r) (a := q.1) (n := q.2)
    generalize (p.2.chargeReads q.1 q.2).readRaw r q.1 q.2 = o at read ⊢
    obtain ⟨o, t⟩ := o
    dsimp only
    split <;> exact read

theorem Canonical.tollReads {rs : List (Nat × Nat)} (h : Canonical s) : Canonical (s.tollReads rs).2 :=
  .iteSnd h (.foldlSnd (p := (.ready [], s)) h fun _ _ hp => hp.tollRead1)

theorem Canonical.selfCheckFailed {t : Fin 4} {n : Nat} {x : Option (Fin 64)} (h : Canonical s) : Canonical (s.selfCheckFailed t n x) := by
  unfold State.selfCheckFailed
  dsimp only
  split
  · exact .taintStep (.logFault (.queueSweep (h.modToll fun _ hk => hk)))
  · exact .logFault (.queueSweep (h.modToll fun _ hk => hk))

theorem Canonical.putKronecker {t : Fin 4} {layer : Nat} {e : List Byte} {at' : Nat} {vs : List Val} (h : Canonical s) :
    Canonical (s.putKronecker t layer e at' vs) :=
  .ite (h.modToll fun _ hk => hk.bump64).selfCheckFailed ((h.modToll fun _ hk => hk.bump64).tollWrite.tollWrite.modToll fun _ hk => hk.bumpSat)

theorem Canonical.processTile {t : Fin 4} {layer tile : Nat} {e : List Byte} {ok : Bool} {bs : List Byte} (h : Canonical s) :
    Canonical (s.processTile t layer tile e ok bs) := by
  unfold State.processTile
  refine .ite ((h.modToll fun _ hk => hk.bumpSat).modLayer) ?_
  exact .ite (h.modToll fun _ hk => hk.bumpSat).modLayer.putKronecker (h.modToll fun _ hk => hk.bumpSat).modLayer

theorem Lands.tollTileComplete {t : Fin 4} {layer tile : Nat} {errs : List GranErr} (h : Canonical s) :
    Lands (execTollTileComplete t layer tile errs s) := by
  unfold Machine.execTollTileComplete
  refine .meetRow (fun s hs => ?_) h
  split
  · exact .next hs
  · extract_lets l size slot go
    refine .ite (.next hs) ?_
    have goes {u : State} {ok : Bool} {bs : List Byte} (hu : Canonical u) : Lands (go u ok bs) := by
      unfold go
      extract_lets s1 s2 s3
      have h2 : Canonical s2 := .ite hu.processTile.tollWrite hu.processTile
      have h3 : Canonical s3 := h2.modToll fun _ hk => hk.unstage
      exact .next (.ite h3.queueLayer h3)
    clear_value go
    split
    · exact goes hs
    · split
      next t e => exact .next (hs.tollReads.of_snd e)
      next t e => exact goes (hs.tollReads.of_snd e)

theorem Lands.lossWaitExpiry (h : Canonical s) : Lands (execLossWaitExpiry s) := .ite (.next h.decideGate) (.next h)

theorem Lands.arriveLimitExpiry {layer : Nat} (h : Canonical s) : Lands (execArriveLimitExpiry layer s) := by
  unfold Machine.execArriveLimitExpiry
  split
  · exact .next h
  · dsimp only
    split
    · exact .next h
    · exact .ite (.next h) (.next (h.modToll fun _ hk => hk.unstage).modLayer.queueLayer)

/- TollRules. -/

theorem Canonical.writeCodes {at' fmt : Nat} {cs : List Nat} (h : Canonical s) : Canonical (s.writeCodes at' fmt cs) := h.tollWrite

theorem Canonical.tollOvf {t : Fin 4} {n : Nat} (h : Canonical s) : Canonical (s.tollOvf t n) := h.modToll fun _ hk => hk.bumpSat

theorem Canonical.writeTensor {t : Fin 4} {a : Apply} {base tile : Nat} {vs : List StageVal} (h : Canonical s) :
    Canonical (s.writeTensor t a base tile vs).2 := h.writeCodes.tollOvf

theorem Canonical.writeVector {t : Fin 4} {a : Apply} {at' : Nat} {v : Block} (h : Canonical s) : Canonical (s.writeVector t a at' v) :=
  h.writeCodes.tollOvf

theorem Canonical.kronUpdate {t : Fin 4} {r : List Byte} {at' new : Nat} (h : Canonical s) : Canonical (s.kronUpdate t r at' new) :=
  h.writeCodes.tollOvf

theorem Canonical.putTileOut {t : Fin 4} {a : Apply} {d : Round} {n : Nat} {o : TileOut} (h : Canonical s) :
    Canonical (s.putTileOut t a d n o).2 := by
  unfold State.putTileOut
  split
  next cs s1 written =>
    have h1 : Canonical s1 := h.writeTensor.of_snd written
    extract_lets s2 s3 g s4
    have h2 : Canonical s2 := by
      unfold s2
      split
      · exact h1.writeTensor
      · exact h1
    have h3 : Canonical s3 := by
      unfold s3
      split
      · exact h2.writeTensor
      · exact h2
    have h4 : Canonical s4 := by
      unfold s4
      split
      · exact h3.kronUpdate.kronUpdate
      · exact h3.writeCodes
      · exact h3
    exact h4.modToll fun _ hk => hk.bumpHalf.bump64

theorem Canonical.applyTiles {t : Fin 4} {a : Apply} {l : Layer} {d : Round} {p : Applied} {ns : List Nat} (h : Canonical s) :
    Canonical (s.applyTiles t a l d p ns).2 := by
  induction ns generalizing s p with
  | nil => exact h
  | cons n ns ih =>
    unfold State.applyTiles
    split
    · exact h
    · exact ih h.putTileOut

theorem Canonical.applyAll {t : Fin 4} {a : Apply} {l : Layer} {d : Round} (h : Canonical s) : Canonical (s.applyAll t a l d).2 := h.applyTiles

theorem Canonical.orthoPass {t : Fin 4} {a : Apply} {l : Layer} {d : Round} (h : Canonical s) :
    ∀ p ∈ s.orthoPass t a l d, Canonical p.2 := by
  intro p passed
  unfold State.orthoPass at passed
  dsimp only at passed
  split at passed <;> cases passed
  exact .tollOvf (.modToll (h.foldl fun _ _ hs => hs.writeCodes.tollOvf) fun _ hk => hk.bump64)

theorem Canonical.applyLayer {t : Fin 4} {a : Apply} {l : Layer} {bad : List Nat} (h : Canonical s) : Canonical (s.applyLayer t a l bad).2 := by
  unfold State.applyLayer
  dsimp only
  split
  · exact .iteSnd h.applyAll.writeVector.writeVector.modLayer.tollOvf h.applyAll
  · exact (h.modToll fun _ hk => hk.wr).applyAll
  · split
    · exact h
    next t e => exact (h.orthoPass _ e).applyAll
  · exact h.applyAll

theorem Canonical.sendParts {hd : Hdr} {offset left : Nat} {by_ : Sender} {ps : List (Nat × List Byte)} (h : Canonical s) :
    Canonical (s.sendParts hd offset left by_ ps) := h.foldl fun _ _ hs => .ite hs.nextSeq hs.nextSeq.send

theorem Canonical.computeCopy {a : Apply} {n : Nat} {vs : List Val} (h : Canonical s) : Canonical (s.computeCopy a n vs).2.2 := h.drawFree

theorem Canonical.sendWeights {a : Apply} {t : Fin 4} {new : List (Nat × List Val)} {bad : List Nat} (h : Canonical s) :
    Canonical (s.sendWeights a t new bad) := by
  unfold State.sendWeights
  split
  · refine h.foldl fun s n hs => ?_
    have sent {ovf : Nat} {hd : Hdr} {at' left : Nat} {by_ : Sender} {ps : List (Nat × List Byte)} :=
      (hs.computeCopy (a := a) (n := n) (vs := s.weightsOf a new bad n)).tollOvf (t := t) (n := ovf)
        |>.sendParts (hd := hd) (offset := at') (left := left) (by_ := by_) (ps := ps)
    exact .ite sent sent.bumpCounter.markLateAll.modLayer
  · exact h.modLayer

theorem Canonical.beginRound {t : Fin 4} {n : Nat} (h : Canonical s) : Canonical (s.beginRound t n) := .setLayer (h.modToll fun _ hk => hk)

theorem Canonical.addNorm {t : Fin 4} {sumSq : Nat} (h : Canonical s) : Canonical (s.addNorm t sumSq) := h.modToll fun _ hk => hk

theorem Lands.tollApplyStart {t : Fin 4} {fail : ApplyCheck} {errs : List GranErr} (h : Canonical s) :
    Lands (execTollApplyStart t fail errs s) := by
  unfold Machine.execTollApplyStart
  refine .meetRow (fun s hs => ?_) h
  dsimp only
  split
  · exact .next hs.tryGate
  · split
    · exact .next (hs.tryGate.modToll fun _ hk => hk)
    · split
      next t e => exact .next (hs.tryGate.tollReads.of_snd e)
      next u e =>
        have read : Canonical u := hs.tryGate.tollReads.of_snd e
        split
        · exact .next (.sendWeights (.modLayer (.addNorm (.beginRound (.ite (read.foldl fun _ _ hs => hs.tileDrawn) read)))))
        · have begun {l : List Nat} {y z n : Nat} {p : Prop} [Decidable p] :
              Canonical ((if p then l.foldl (fun s _ => s.tileDrawn y z) u else u).beginRound t n) :=
            .beginRound (.ite (read.foldl fun _ _ hs => hs.tileDrawn) read)
          exact .ite (.next begun.applyLayer.addNorm.modLayer.sendWeights) (.next begun.applyLayer.modLayer.selfCheckFailed.sendWeights)

theorem Lands.tollApplyEnd {t : Fin 4} (h : Canonical s) : Lands (execTollApplyEnd t s) := by
  unfold Machine.execTollApplyEnd
  split
  · exact .next h
  · refine .ite (.next h) ?_
    extract_lets l sent st s1 full s2 s3
    have h1 : Canonical s1 := h.modToll fun _ hk => .ite (.bumpHalf hk.wr) (.ite hk.wr (.bumpHalf hk.wr))
    have h2 : Canonical s2 := h1.modLayer
    have h3 : Canonical s3 := by
      unfold s3
      split
      · split
        · exact .ite h2.modCtx h2
        · exact h2
      · exact h2
    exact .next (.ite h3.queueLayer h3)

end Sys2Proof.Safety
end

