-- ==== Sys2Proof/Proofs/Canonical/RequestsRings.lean ====
section
/-! PROOF. Packets that arrive, channel service, BAR4, rings and descriptors keep the canonical form (O56). -/

namespace Sys2Proof.Safety

open Sys2Proof.Machine

variable {α : Type} {s : State} {k : Core} {c : Fin 192} {x : Fin 64} {f : Fin 32} {e : Ecc}

/- Requests. -/

theorem Lands.xmt {i : Fin 8} {stall : Nat} (h : Canonical s) : Lands (execXmt c i stall s) := .issueStep h fun _ _ _ _ hs => by
  split
  · refine .withBillets fun _ => ?_
    split
    · trivial
    · exact .run (hs.sendParts.bumpCounter.markLateAll.modCore fun _ hk => hk)
  · trivial

theorem CoreCanonical.recordPruned {j : PJob} (h : CoreCanonical k) : CoreCanonical (k.recordPruned j) := h.recordW1C

theorem Lands.xmtComplete {pos : Nat} {w : Waits} (h : Canonical s) : Lands (execXmtComplete c pos w s) := by
  unfold Machine.execXmtComplete
  split
  · exact .next h
  · split
    · refine .ite (.next h) ?_
      extract_lets st s1
      have h1 : Canonical s1 := h.modCore fun _ hk => .endPorter (.ite hk.bump64.bump64.waited.recordPruned hk.bump64.bump64.waited)
      split
      · exact .next (.ite h1.modCtx h1)
      · exact .next h1
    · exact .next h

theorem Canonical.takePkt {type : Nat} {p : List Byte} {q : RxPkt} {t : State} (h : Canonical s) (e : s.takePkt type p = some (q, t)) :
    Canonical t := by
  unfold State.takePkt at e
  split at e
  · cases e
  · obtain ⟨_, _, ⟨⟩⟩ := Option.map_eq_some_iff.1 e
    exact h

theorem Canonical.holdRequest {inbox : List RxPkt} {r : RxPkt} {w : Window} (h : Canonical s) : Canonical (s.holdRequest inbox r w) := h

theorem Canonical.dropWindow {w : Window} (h : Canonical s) : Canonical (s.dropWindow w) := h

theorem Canonical.settleWindows (h : Canonical s) : Canonical s.settleWindows := by
  unfold State.settleWindows
  refine h.foldl fun s _ hs => ?_
  split
  · exact hs.dropWindow.complete
  · exact hs

theorem Canonical.packetDone (h : Canonical s) : Canonical s.packetDone := h.settleRx.settleWindows

theorem Canonical.answerClosed {p : List Byte} (h : Canonical s) : Canonical (s.answerClosed p) := h.sendCompletion

theorem Canonical.answerOk {p : List Byte} (h : Canonical s) : Canonical (s.answerOk p) := h.bumpCounter.markLateAll.sendCompletion

theorem Canonical.requestGate {p : List Byte} (h : Canonical s) : ∀ t ∈ s.requestGate p, Canonical t := by
  intro t gated
  unfold State.requestGate at gated
  split at gated
  · cases gated
    exact h.bump
  · split at gated <;> cases gated
    exact h.sendFenced

theorem Canonical.windowAcw {r : Region} {w : Window} {a : Nat} {bs : List Byte} (h : Canonical s) : Takes (s.windowAcw r w a bs) := by
  unfold State.windowAcw
  split
  next t decoded => exact .wait (h.acwDecode.of_snd decoded)
  next bad t decoded => exact .taken (h.acwDecode.of_snd decoded).applyUnits

theorem Canonical.applyWrite {w : Window} {p : List Byte} (h : Canonical s) : Takes (s.applyWrite w p) := by
  unfold State.applyWrite
  dsimp only
  split
  · trivial
  · refine .ite (.ite ?_ h.tollPayload) (.ite (.taken h.writeOther) (.ite (.wait h) (.ite (.ite (.wait h) (.taken h.writeOther)) h.windowAcw)))
    split
    next t recorded => exact .taken (h.lossRecord t recorded)
    · trivial

theorem Lands.write {pkt : List Byte} {errs : List GranErr} (h : Canonical s) : Lands (execWrite pkt errs s) := by
  unfold Machine.execWrite
  refine .meetRow (fun s hs => ?_) h
  split
  · exact .next hs
  next t e =>
    have ht := hs.takePkt e
    split
    next t e => exact .next (ht.requestGate _ e).packetDone
    · split
      · exact .next ht.bump.answerClosed.packetDone
      next w _ =>
        have took := ht.applyWrite (w := w) (p := pkt)
        split <;> rename_i run <;> rw [run] at took
        · exact .next (Canonical.answerOk took).packetDone
        · exact .next (Canonical.holdRequest took)
        · exact .next (.packetDone (.answerClosed (.ite ht.bump (ht.modToll fun _ hk => hk.bump))))

theorem Canonical.readAnswer {pkt : List Byte} {st : Nat} {bs : List Byte} (h : Canonical s) : Canonical (s.readAnswer pkt st bs) := h.send

theorem Lands.readReq {pkt : List Byte} {errs : List GranErr} (h : Canonical s) : Lands (execReadReq pkt errs s) := by
  unfold Machine.execReadReq
  refine .meetRow (fun s hs => ?_) h
  split
  · exact .next hs
  next t e =>
    have ht := hs.takePkt e
    split
    next t e => exact .next (ht.requestGate _ e).packetDone
    · split
      · exact .next ht.bump.readAnswer.packetDone
      · dsimp only
        split
        · exact .next ht.bump.readAnswer.packetDone
        · refine .ite (.next ht.holdRequest) ?_
          split
          next t e => exact .next (ht.readRaw.of_snd e).chargeReads.readAnswer.packetDone
          next t e => exact .next (ht.readRaw.of_snd e).readAnswer.packetDone
          next t e => exact .next (ht.readRaw.of_snd e).holdRequest

theorem Canonical.withAwaiting {l : List Await} (h : Canonical s) : Canonical { s with awaiting := l } := h

theorem Canonical.late (h : Canonical s) : Canonical s.late := h.bump

theorem Canonical.modRefetch {serial : Nat} {f : Refetch → Refetch} (h : Canonical s) : Canonical (s.modRefetch serial f) := h

theorem Lands.readResp {pkt : List Byte} (h : Canonical s) : Lands (execReadResp pkt s) := by
  unfold Machine.execReadResp
  split
  · exact .next h
  next t e =>
    have ht := h.takePkt e
    refine .ite (.next ht.packetDone.bump) ?_
    split
    · split
      · exact .next (.modRefetch (.withAwaiting ht.packetDone))
      · exact .next (.late ht.packetDone)
    · exact .next (.late ht.packetDone)

theorem Canonical.outcome {w : Await} {n cstatus members : Nat} {timeout : Bool} (h : Canonical s) :
    Canonical (s.outcome w n cstatus members timeout) := by
  unfold State.outcome
  split
  · exact h.modRefetch
  · exact h.bumpCounter.markLateAll.modLayer
  · dsimp only
    split
    · exact h.bumpCounter.markLateAll
    · exact h.bumpCounter.markLateAll.modCore fun _ hk => hk

theorem Lands.completion {pkt : List Byte} (h : Canonical s) : Lands (execCompletion pkt s) := by
  unfold Machine.execCompletion
  split
  · exact .next h
  next t e =>
    have ht := h.takePkt e
    refine .ite (.next ht.packetDone.bump) ?_
    split
    · exact .next (.late ht.packetDone)
    · exact .next (.outcome (.withAwaiting ht.packetDone))

theorem Lands.packetTimeout {stream seq : Nat} (h : Canonical s) : Lands (execPacketTimeout stream seq s) := by
  unfold Machine.execPacketTimeout
  split
  · exact .next h
  · exact .next (.outcome h.bump)

/- Channels. -/

theorem Canonical.refetched {r : Region} {f : Refetch} {arrived : List (List Byte)} (h : Canonical s) : Canonical (s.refetched r f arrived).2 := by
  unfold State.refetched
  refine .iteSnd h.charge.decodeGrans ?_
  split
  · exact h
  · exact .iteSnd h h
  · exact h

theorem Canonical.endRefetch {r : Region} {f : Refetch} {ok : Bool} (h : Canonical s) : Canonical (s.endRefetch r f ok) :=
  .startRefetches (.serveLdts (.foldl (.ite (.bumpField h) (.bumpField h)) fun _ _ hs => hs.writeSlot))

theorem Canonical.putTile {r : Region} {slot : Nat} {t : List Byte} (h : Canonical s) : Canonical (s.putTile r slot t) :=
  .inClass (.ite h.inClass.evictRange.storeTile h.inClass.evictRange.putFull)

theorem Lands.refetchComplete {slot : Nat} {arrived : List (List Byte)} {errs : List GranErr} (h : Canonical s) :
    Lands (execRefetchComplete slot arrived errs s) := by
  unfold Machine.execRefetchComplete
  refine .meetRow (fun s hs => ?_) h
  split
  · refine .ite (.next hs) ?_
    split
    next got s0 run =>
      have h0 : Canonical s0 := hs.refetched.of_snd run
      split
      · exact .ite (.next h0.endRefetch) (.next h0.putTile.setDir.endRefetch)
      · exact .ite (.next h0.modRefetch.startRefetches) (.ite (.next h0.endRefetch) (.next h0.setDir.logChan.endRefetch))
  · exact .next hs

theorem Canonical.writeBack {r : Region} {slot : Nat} (h : Canonical s) : Canonical (s.writeBack r slot) := by
  unfold State.writeBack
  refine .ite h ?_
  dsimp only
  split
  next t e => exact (h.inClass.evictRange.readSlot.of_snd e).chargeReads.storeTile.inClass.setDir
  next t e => exact (h.inClass.evictRange.readSlot.of_snd e).inClass

theorem Canonical.flushRegion {r : Region} (h : Canonical s) : Canonical (s.flushRegion r) := h.foldl fun _ _ hs => hs.writeBack

theorem Lands.wcEntryTimeout {ch : Fin 208} {granule : Nat} {errs : List GranErr} (h : Canonical s) :
    Lands (execWcEntryTimeout ch granule errs s) :=
  .meetRow (fun _ hs => .next hs.evictChan) h

theorem ChanCanonical.refill {k : Chan} {ns : Nat} (h : ChanCanonical k) : ChanCanonical (k.refill ns) := by
  refine h.withTokens fun hm => ?_
  generalize List.range 16 = parts
  generalize k.tokens = m at hm
  induction parts generalizing m with
  | nil => exact hm
  | cons p parts ih => exact ih _ (SMap.set_wf hm _ _)

theorem ChanCanonical.pick {k : Chan} {ns : Nat} {own : Bool} (h : ChanCanonical k) : ChanCanonical (k.pick ns own) := by
  unfold Chan.pick
  have filled := h.refill (ns := ns)
  generalize k.refill ns = k1 at filled ⊢
  refine .ite ?_ ?_
  · split <;> exact filled
  · split
    · exact filled
    · split
      · exact filled
      · exact filled.bump.withTokens fun hm => SMap.set_wf hm _ _

theorem Lands.channelPick {ch : Fin 208} {ns : Nat} {own : Bool} (h : Canonical s) : Lands (execChannelPick ch ns own s) :=
  .ite (.next (h.modChan fun _ hk => hk.refill)) (.next (h.modChan fun _ hk => hk.pick))

theorem Canonical.dropRegion {r : Region} (h : Canonical s) : Canonical (s.dropRegion r) :=
  (h.foldl fun _ _ hs => hs.dropWindow).evictRange.withDir fun hm => SMap.filter_wf hm (!r.holds · 1)

theorem Lands.regionCloseEffect {base : Nat} {errs : List GranErr} (h : Canonical s) : Lands (execRegionCloseEffect base errs s) := by
  unfold Machine.execRegionCloseEffect
  refine .meetRow (fun s hs => ?_) h
  split
  · exact .next hs
  · refine .ite (.next hs) ?_
    dsimp only
    split
    · exact .next hs.dropRegion.complete
    · exact .next hs.dropRegion

theorem Canonical.startService {unit : Nat} (h : Canonical s) : Canonical (s.startService unit) := by
  unfold State.startService
  refine .ite h ?_
  split
  · exact h
  · exact .modChan (.ite (.evictChan h) h) fun _ hk => hk

theorem Canonical.requestService {w : Who} {ch : Fin 208} {op : Nat} (h : Canonical s) : Canonical (s.requestService w ch op) :=
  .ite h (.startService (.modChan h fun _ hk => .ite hk hk))

theorem Lands.marginScan {w : Who} {ch : Fin 208} (h : Canonical s) : Lands (execMarginScan w ch s) := .next h.requestService

theorem Lands.retrain {w : Who} {ch : Fin 208} {errs : List GranErr} (h : Canonical s) : Lands (execRetrain w ch errs s) :=
  .meetRow (fun _ hs => .next hs.requestService) h

theorem Lands.channelServiceComplete {ch : Fin 208} {tMin vMin lane us : Nat} {errs : List GranErr} (h : Canonical s) :
    Lands (execChannelServiceComplete ch tMin vMin lane us errs s) := by
  unfold Machine.execChannelServiceComplete
  refine .meetRow (fun s hs => ?_) h
  split
  · exact .next hs
  · exact .next (.startService (.serveLdts (.modChan hs fun _ hk => hk.wr.wr)))

theorem Canonical.bar4Reject (h : Canonical s) : Canonical (s.bar4Reject f) := h.modFn fun _ hk => hk.withRegs fun hm => Regs.wr_wf hm _ _

theorem Canonical.barAnswer {status : Nat} {bs : List Byte} (h : Canonical s) : Canonical (s.barAnswer f status bs) := h

theorem Lands.bar4Read {off len : Nat} {errs : List GranErr} (h : Canonical s) : Lands (execBar4Read f off len errs s) := by
  unfold Machine.execBar4Read
  refine .meetRow (fun s hs => ?_) h
  refine .ite (.next hs) ?_
  refine .ite (.next hs.barAnswer) ?_
  dsimp only
  split
  · exact .next hs.bar4Reject.barAnswer
  · refine .ite (.next hs) ?_
    split
    next t e => exact .next (hs.readRaw.of_snd e).chargeReads.barAnswer
    next t e => exact .next (hs.readRaw.of_snd e).barAnswer

theorem Canonical.reqDoorbell {v : Nat} (h : Canonical s) : Canonical (s.reqDoorbell f v) :=
  .ite (h.modFn fun _ hk => hk.withBox fun hm => Memory.writeRun_wf hm _ _) h

theorem Canonical.evtRelease {v : Nat} (h : Canonical s) : Canonical (s.evtRelease f v) :=
  .ite (h.modFn fun _ hk => hk.withBox fun hm => Memory.writeRun_wf hm _ _) h

theorem Canonical.boxWrite {off : Nat} {bs : List Byte} (h : Canonical s) : Canonical (s.boxWrite f off bs) := by
  unfold State.boxWrite
  extract_lets ring m s1 s2
  have h1 : Canonical s1 := h.modFn fun _ hk => hk.withBox fun hm => SMap.setAll_wf _ hm
  have h2 : Canonical s2 := by
    unfold s2
    split
    · exact h1.reqDoorbell
    · exact h1
  split
  · exact h2.evtRelease
  · exact h2

theorem Lands.bar4Write {off : Nat} {data : List Byte} {errs : List GranErr} (h : Canonical s) : Lands (execBar4Write f off data errs s) := by
  unfold Machine.execBar4Write
  refine .meetRow (fun s hs => ?_) h
  refine .ite (.next hs) ?_
  refine .ite (.next hs.boxWrite) ?_
  refine .ite (.next hs) ?_
  dsimp only
  split
  · exact .next hs.bar4Reject
  · exact .ite (.next hs) (.next hs.writeOther)

/- Rings. -/

theorem Lands.doorbell {r : Fin 256} {value : Word} (h : Canonical s) : Lands (execDoorbell f x r value s) :=
  .ite (.next h) (.ite (.next h.modSq) (.next h.modSq))

theorem Lands.cqHeadRelease {cq : Fin 256} {value : Word} (h : Canonical s) : Lands (execCqHeadRelease f x cq value s) :=
  .ite (.next h) (.ite (.next h.modCq) (.next h))

theorem Lands.mailboxDoorbell {value : Word} (h : Canonical s) : Lands (execMailboxDoorbell f value s) := .next h.reqDoorbell

theorem Lands.evtHeadWrite {value : Word} (h : Canonical s) : Lands (execEvtHeadWrite f value s) := .next h.evtRelease

theorem Canonical.writeSqCfg {r : Fin 256} {v : Nat} (h : Canonical s) : Canonical (s.writeSqCfg r v) := .ite h.wr (.ite h.wr.modSq h.wr)

theorem Canonical.writeCqCfg {r : Fin 256} {v : Nat} (h : Canonical s) : Canonical (s.writeCqCfg r v) := .ite h.wr (.ite h.wr.modCq h.wr)

theorem Lands.ringEnable {isCq : Bool} {r : Fin 256} {value : Word} (h : Canonical s) : Lands (execRingEnable f isCq r value s) :=
  .ite (.ite (.next h.writeCqCfg) (.next h)) (.ite (.next h.writeSqCfg) (.next h))

theorem Canonical.signalCq {q : Fin 256} (h : Canonical s) : Canonical (s.signalCq q) := by
  unfold State.signalCq
  split
  · exact h.msix.modCq
  · exact h

theorem Canonical.writeRec {q : Fin 256} (h : Canonical s) : Canonical (s.writeRec q) := by
  unfold State.writeRec
  extract_lets k size a
  split
  · refine .ite h ?_
    extract_lets sq bytes s1 s2 s3
    have h2 : Canonical s2 := Canonical.modCq h
    have h3 : Canonical s3 := by
      unfold s3
      split
      · exact h2.modSq
      · exact h2
    exact .ite h3.signalCq h3
  · exact h

theorem Lands.completionRecordWrite {cq : Fin 256} (h : Canonical s) : Lands (execCompletionRecordWrite cq s) := .ite (.next h) (.next h.writeRec)

theorem Canonical.writeRecs {q : Fin 256} (h : Canonical s) : Canonical (s.writeRecs q) := h.foldl fun _ _ hs => hs.writeRec

theorem Lands.interruptCoalTimer {cq : Fin 256} (h : Canonical s) : Lands (execInterruptCoalTimer cq s) := .ite (.next h) (.next h.signalCq)

theorem Canonical.setStream {n : Nat} {t : Stream} (h : Canonical s) : Canonical (s.setStream x n t) := h.withStreams fun hm => SMap.set_wf hm _ _

theorem Canonical.hostRead {a n : Nat} (h : Canonical s) : Canonical (s.hostRead x a n) := h

theorem Lands.descriptorFetch {r : Fin 256} {bytes : List Byte} (h : Canonical s) : Lands (execDescriptorFetch r bytes s) := by
  unfold Machine.execDescriptorFetch
  dsimp only
  split
  · exact .next h
  · refine .ite (.next h) ?_
    split
    · exact .next h.modSq.hostRead
    · exact .next h.modSq.hostRead.complete

theorem Canonical.started {d : DescRef} (h : Canonical s) : Canonical (s.started d) := h.modSq

theorem Canonical.setWaits {d : DescRef} {b : Bool} (h : Canonical s) : Canonical (s.setWaits d b) := h.modSq

theorem Lands.startDesc {r : Fin 256} {n type : Nat} {go : Fin 64 → DescRef → State → State} (h : Canonical s)
    (hgo : ∀ x d s, Canonical s → Canonical (go x d s)) :
    Lands (s.startDesc r n type go) := by
  unfold State.startDesc
  split
  · exact .next h
  · dsimp only
    split
    · exact .next h.started.setWaits.complete
    · exact .next (hgo _ _ _ h.started.setWaits)

theorem Lands.startHost {r : Fin 256} {n type : Nat} {go : Fin 64 → DescRef → State → State} (h : Canonical s)
    (hgo : ∀ x d s, Canonical s → Canonical (go x d s)) :
    Lands (s.startHost r n type go) := by
  unfold State.startHost
  split
  · exact .next h
  · exact .ite (.startDesc h hgo) (.next h)

theorem Lands.descNop {r : Fin 256} {n : Nat} (h : Canonical s) : Lands (execDescNop r n s) := .startDesc h fun _ _ _ hs => hs.complete

theorem Canonical.servePiece {bytes : Nat} (h : Canonical s) : Canonical (s.servePiece x bytes) := h.modCtx

theorem Canonical.visit (h : Canonical s) : Canonical (s.visit x) := h

theorem Lands.hostPieceServe {waiting : List (Fin 64 × Nat)} (h : Canonical s) : Lands (execHostPieceServe waiting s) := by
  unfold Machine.execHostPieceServe
  extract_lets cur piece prev idle s1 from_ idle1
  have hidle : Canonical idle := h
  have h1 : Canonical s1 := by
    unfold s1
    clear_value cur
    split
    · exact h.modCtx
    · exact h
  have hidle1 : Canonical idle1 := h1
  clear_value idle idle1 s1 piece
  split
  · refine .ite (.next h.servePiece) ?_
    split
    · exact .next h.visit.servePiece
    · split
      · exact .next hidle.visit.servePiece
      · exact .next hidle
  · split
    · exact .next h1.visit.servePiece
    · split
      · exact .next hidle1.visit.servePiece
      · exact .next hidle1

/- Tables. -/

theorem Lands.tableLoad {r : Fin 256} {n : Nat} {data : List Byte} (h : Canonical s) : Lands (execTableLoad r n data s) :=
  .startHost h fun _ _ _ hs => .complete (.ite hs hs.hostRead)

theorem Canonical.swapTables (h : Canonical s) : Canonical s.swapTables := by
  unfold State.swapTables
  split
  · exact h
  · have cleared : Canonical { s with tolls := s.tolls.map fun k => { k with queue := [], staged := [], current := none } } :=
      h.overTolls fun _ hk => hk
    exact cleared.withLayers (m := []) fun _ => SMap.wf_nil _

theorem Canonical.dropLayers (h : Canonical s) : Canonical (s.dropLayers x) := h

/- Descs. -/

theorem Canonical.readLocal {a n : Nat} (h : Canonical s) : Canonical (s.readLocal x a n).2 := by
  unfold State.readLocal
  split
  · exact h
  · split <;> rename_i e <;> exact h.chargeReads.readRaw.of_snd e

theorem Canonical.writeLocal {a : Nat} {bs : List Byte} (h : Canonical s) : Canonical (s.writeLocal x a bs) := by
  unfold State.writeLocal
  split
  · exact h.writeIn
  · exact h

theorem Lands.copy {r : Fin 256} {n : Nat} {data : List Byte} {errs : List GranErr} (h : Canonical s) : Lands (execCopy r n data errs s) := by
  unfold Machine.execCopy
  refine .meetRow (fun s hs => ?_) h
  refine .startHost hs fun _ _ s hs => ?_
  refine .ite hs.setWaits ?_
  refine .ite hs.hostRead.writeLocal.complete ?_
  split
  next t e => exact (hs.readLocal.of_snd e).hostWrite.complete
  next t e => exact (hs.readLocal.of_snd e).complete
  next t e => exact (hs.readLocal.of_snd e).setWaits

theorem CoreCanonical.loadBank {bank off : Nat} {ws : List Nat} (h : CoreCanonical k) : CoreCanonical (k.loadBank bank off ws) :=
  .ite (h.withImem0 fun hm => SMap.setAll_wf _ hm) (h.withImem1 fun hm => SMap.setAll_wf _ hm)

theorem Lands.imemLoad {r : Fin 256} {n : Nat} {data : List Byte} (h : Canonical s) : Lands (execImemLoad r n data s) := by
  unfold Machine.execImemLoad
  refine .startHost h fun _ _ s hs => ?_
  dsimp only
  split
  · exact (hs.hostRead.modCore fun _ hk => hk.loadBank).complete
  · exact hs.complete

theorem Lands.dmemLoad {r : Fin 256} {n : Nat} {data : List Byte} (h : Canonical s) : Lands (execDmemLoad r n data s) := by
  unfold Machine.execDmemLoad
  refine .startHost h fun _ _ s hs => ?_
  split
  · exact .complete (hs.hostRead.modCore fun _ hk => hk.withDmem fun hm => Memory.writeRun_wf hm _ _)
  · exact hs.complete

theorem Canonical.fillContents {r : Region} {bs : List Byte} (h : Canonical s) : Canonical (s.fillContents r bs) :=
  .ite h.putFull (h.putFull.foldl fun _ _ hs => .setDir (.ite (hs.prepaid fun _ hs => hs.storeTile) hs))

theorem Canonical.fillReads {d : DescRef} {r : Region} (h : Canonical s) : Canonical (s.fillReads x d r) := by
  unfold State.fillReads
  refine .ite h.hostRead ?_
  split <;> exact h

theorem Lands.regionOpen {r : Fin 256} {n : Nat} {data : List Byte} (h : Canonical s) : Lands (execRegionOpen r n data s) :=
  .startHost h fun _ _ _ hs => .complete (.ite (.zero hs) (.fillContents (.fillReads hs)))

theorem Lands.regionClose {r : Fin 256} {n : Nat} (h : Canonical s) : Lands (execRegionClose r n s) := .startDesc h fun _ _ _ hs => hs

theorem Lands.regionFlush {r : Fin 256} {n : Nat} {errs : List GranErr} (h : Canonical s) : Lands (execRegionFlush r n errs s) := by
  unfold Machine.execRegionFlush
  refine .meetRow (fun s hs => ?_) h
  refine .startDesc hs fun _ _ s hs => ?_
  split
  · exact .ite hs.setWaits (.ite hs.flushRegion.complete hs.flushRegion.setWaits)
  · exact hs.complete

theorem Lands.windowOpen {r : Fin 256} {n : Nat} (h : Canonical s) : Lands (execWindowOpen r n s) := .startDesc h fun _ _ _ hs => .complete hs

theorem Lands.windowClose {r : Fin 256} {n : Nat} (h : Canonical s) : Lands (execWindowClose r n s) :=
  .startDesc h fun _ _ _ hs => .settleWindows hs

theorem Lands.streamSet {r : Fin 256} {n : Nat} (h : Canonical s) : Lands (execStreamSet r n s) :=
  .startDesc h fun _ _ _ hs => hs.setStream.complete

theorem Canonical.armRecord {n : Nat} {d : DescRef} {arm : Nat × Nat} {st : Byte} (h : Canonical s) : Canonical (s.armRecord x n d arm st) :=
  h.pushRec

theorem Lands.streamClear {r : Fin 256} {n : Nat} (h : Canonical s) : Lands (execStreamClear r n s) := by
  unfold Machine.execStreamClear
  refine .startDesc h fun _ _ s hs => ?_
  refine .ite hs.setWaits ?_
  split
  · exact hs.setStream
  · exact hs.setStream.armRecord
  · exact hs.setStream.complete

theorem Lands.streamArm {i : Fin 64} {value : Word} (h : Canonical s) : Lands (execStreamArm f x i value s) := by
  unfold Machine.execStreamArm
  dsimp only
  split
  · exact .next h
  · refine .ite (.next h) ?_
    split
    · exact .next h
    · exact .next h.setStream
    · exact .next h.setStream
    · exact .next h.armRecord

theorem Canonical.endTransfer {i : Nat} {st : Byte} (h : Canonical s) : Canonical (s.endTransfer x i st) := by
  unfold State.endTransfer
  dsimp only
  split
  · exact h
  · refine .ite h.armRecord.setStream ?_
    split
    · exact h.armRecord.setStream.complete
    · exact h.armRecord.setStream

theorem Lands.streamTransferComplete {i : Fin 64} {data : List Byte} {errs : List GranErr} (h : Canonical s) :
    Lands (execStreamTransferComplete x i data errs s) := by
  unfold Machine.execStreamTransferComplete
  refine .meetRow (fun s hs => ?_) h
  dsimp only
  split
  · exact .next hs
  · refine .ite (.next hs) ?_
    refine .ite (.next hs.hostRead.writeLocal.endTransfer) ?_
    split
    next t e => exact .next (hs.readLocal.of_snd e).hostWrite.endTransfer
    next t e => exact .next (hs.readLocal.of_snd e).endTransfer
    next t e => exact .next (hs.readLocal.of_snd e)

theorem Lands.step {r : Fin 256} {n : Nat} (h : Canonical s) : Lands (execStep r n s) := .startDesc h fun _ _ _ hs => .ite hs.complete hs.modCtx

theorem Lands.microbatch {r : Fin 256} {n : Nat} (h : Canonical s) : Lands (execMicrobatch r n s) :=
  .startDesc h fun _ _ _ hs => .ite hs.complete hs.modCtx

theorem Lands.decode {r : Fin 256} {n : Nat} {data : List Byte} (h : Canonical s) : Lands (execDecode r n data s) :=
  .startHost h fun _ _ _ hs => hs.hostRead.joinBatch

theorem Lands.decodeDeadline (h : Canonical s) : Lands (execDecodeDeadline x s) := by
  unfold Machine.execDecodeDeadline
  split
  · exact .next h.closeBatch
  · exact .next h

end Sys2Proof.Safety
end

