-- ==== Sys2Proof/Proofs/Canonical/Contexts.lean ====
section
/-! PROOF. The picker, steps, micro-batches and contexts keep the canonical form (O56). -/

namespace Sys2Proof.Safety

open Sys2Proof.Machine

variable {α : Type} {s : State} {k : Core} {c : Fin 192} {x : Fin 64} {f : Fin 32} {e : Ecc}

/- Picker. -/

theorem CoreCanonical.parkBeats (h : CoreCanonical k) : CoreCanonical k.parkBeats := h.beats.bump.bump64

theorem CoreCanonical.park {j : Fin 8} (h : CoreCanonical k) : CoreCanonical (k.park j) :=
  .parkBeats (.modSlot (h.withSp fun hm => Memory.writeRun_wf hm _ _))

theorem Canonical.restore {i : Fin 8} (h : Canonical s) : Canonical (s.restore c i) := by
  unfold State.restore
  dsimp only
  split
  · exact .modCore (.ite h h) fun _ hk => .parkBeats (.modSlot hk)
  · exact h

theorem CoreCanonical.bindPort {f : Frame} (h : CoreCanonical k) : CoreCanonical (k.bindPort f) := .ite (.freePlaces h) h

/- Parts of the module that no table's canonical form speaks of. -/

theorem Canonical.withRegions {l : List Region} (h : Canonical s) : Canonical { s with regions := l } := h

theorem Canonical.withLossGate {g : LossGate} (h : Canonical s) : Canonical { s with lossGate := g } := h

theorem Canonical.withTollRegs {m : Regs} (h : Canonical s) : Canonical { s with tollRegs := m } := h

theorem Canonical.withShadows {m : Regs} {v : Vector Port 36} (h : Canonical s) : Canonical { s with stepSh := m, ports := v } := h

theorem CoreCanonical.withArm {d : Nat} {a : BitVec 5} {r : Option Nat} {g : Bool} (h : CoreCanonical k) :
    CoreCanonical { k with draw := d, refusedAt := r, guardPassed := g, arrayCfg := a } := h

theorem Canonical.startInst {d : Cand} (h : Canonical s) : Canonical (s.startInst c d) := by
  unfold State.startInst
  refine .ite h.endInst ?_
  extract_lets array k s1 s2 s3 s4
  have h1 : Canonical s1 := by
    unfold s1
    split
    · exact .ite (h.modCore fun _ hk => hk.park) h
    · exact h
  have h2 : Canonical s2 := .ite h1.restore h1
  have h3 : Canonical s3 := h2.modCore fun _ hk => .ite hk.bindPort.modInst.withArm hk.bindPort.modInst
  have h4 : Canonical s4 := .ite h3 h3
  split
  · exact h4.modCtx
  · exact h4

theorem Canonical.endPoisoned {array : Bool} (h : Canonical s) : ∀ t ∈ s.endPoisoned c array, Canonical t := by
  intro t ended
  unfold State.endPoisoned at ended
  dsimp only at ended
  split at ended <;> cases ended
  refine .endInst ?_
  split
  · exact h.modCore fun _ hk => hk
  · exact h

theorem Canonical.pick {array : Bool} (h : Canonical s) : Canonical (s.pick c array) := by
  unfold State.pick
  split
  next t e => exact h.endPoisoned _ e
  · extract_lets s1 k ready ok s2
    have h1 : Canonical s1 := h.markLate
    have h2 : Canonical s2 := .ite h1.bump h1
    clear_value s1 s2
    refine .ite h1 ?_
    split
    · exact .ite h2.startInst h2
    · exact .ite (h2.modCore fun _ hk => hk) h2

theorem Lands.pick {array : Bool} (h : Canonical s) : Lands (execPick c array s) := .ite (.next h) (.next h.pick)

theorem Lands.guardUsExpiry (h : Canonical s) : Lands (execGuardUsExpiry c s) := .ite (.next h) (.next (.pick (h.modCore fun _ hk => hk)))

theorem Lands.instanceEnd {i : Fin 8} {w : Waits} (h : Canonical s) : Lands (execInstanceEnd c i w s) := by
  unfold Machine.execInstanceEnd
  extract_lets k
  split
  · extract_lets s1
    have h1 : Canonical s1 := (h.modCore fun _ hk => hk.waited).endInst
    exact .ite (.next h) (.next (.markLateAll (.ite (h1.modCore fun _ hk => hk.carResume) h1)))
  · exact .next h

theorem Lands.instanceCancel {i : Fin 8} {st : Byte} {unstarted : List Nat} (h : Canonical s) : Lands (execInstanceCancel c i st unstarted s) :=
  .ite (.next h.cancelOne.markLateAll) (.next h)

/- Steps. -/

theorem Lands.mbAbort {mb : Nat} {status : Byte} (h : Canonical s) : Lands (execMbAbort x mb status s) := .ite (.next h.abortMb) (.next h)

theorem Lands.stashRelease {mb : Nat} (h : Canonical s) : Lands (execStashRelease x mb s) := by
  unfold Machine.execStashRelease
  split
  · exact .next h
  · split
    · exact .next h
    · exact .ite (.next h) (.next h.finishMb)

theorem Canonical.rejectMb {r : Mb} (h : Canonical s) : Canonical (s.rejectMb x r) := by
  unfold State.rejectMb
  extract_lets s1 s2 s3
  have h3 : Canonical s3 := h.modCtx.bumpField.bumpField.onCtxCores fun _ hk => hk.postNotice
  refine .ite h3.endBatch ?_
  split
  · exact h3.complete
  · exact h3

theorem Canonical.admitMb {r : Mb} {need : Nat} (h : Canonical s) : Canonical (s.admitMb x r need) := h.modCtx.onCtxCores fun _ hk => hk.postAdmit

theorem Canonical.admitLoop {n : Nat} (h : Canonical s) : Canonical (s.admitLoop x n) := by
  induction n generalizing s with
  | zero => exact h
  | succ n ih =>
    unfold State.admitLoop
    dsimp only
    split
    · exact h
    · exact .ite (ih h.rejectMb) (.ite h (.ite h (.ite h (ih h.admitMb))))

theorem Lands.admitMb (h : Canonical s) : Lands (execAdmitMb x s) := .ite (.next h) (.ite (.next h.admitLoop) (.next h))

theorem Canonical.openStep {d : DescRef} (h : Canonical s) : Canonical (s.openStep x d) := by
  unfold State.openStep
  extract_lets step count early bad s1
  have h1 : Canonical s1 := h.modCtx
  refine Canonical.foldl (h1.onCtxCores fun _ hc => hc) fun s _ hs => ?_
  split
  · exact .ite hs hs.complete
  · exact hs

theorem Lands.stepOpen (h : Canonical s) : Lands (execStepOpen x s) := by
  unfold Machine.execStepOpen
  dsimp only
  split
  · exact .next h
  · exact .ite (.next h) (.ite (.next h.modCtx.openStep) (.next h.modCtx.complete))

theorem CoreCanonical.withStepSh {m : Regs} (h : CoreCanonical k) : CoreCanonical { k with stepSh := m } := h

theorem TollCanonical.foldl {k : Toll} {f : Toll → α → Toll} {l : List α} (h : TollCanonical k)
    (hf : ∀ k a, TollCanonical k → TollCanonical (f k a)) : TollCanonical (l.foldl f k) := by
  induction l generalizing k with
  | nil => exact h
  | cons a l ih => exact ih (hf k a h)

theorem Canonical.latchStep (h : Canonical s) : Canonical (s.latchStep x) := by
  unfold State.latchStep
  extract_lets s1 s2 s3 s4
  have h1 : Canonical s1 := (h.overChans (f := fun k => { k with stepSh := k.regs }) fun _ hk => hk).withShadows
  have h2 : Canonical s2 := h1.onCtxCores fun _ hk => CoreCanonical.foldl hk.withStepSh fun _ _ hk => hk.wr
  have h3 : Canonical s3 := h2.foldl fun _ _ hs => hs.modToll fun _ hk => TollCanonical.foldl hk fun _ _ hk => hk.wr
  exact h3.wr.wrBits.wrBits.report

theorem Canonical.mapTolls (h : Canonical s) : Canonical s.mapTolls := h.foldl fun _ _ hs => hs.wrBits

theorem Canonical.fenceTolls (h : Canonical s) : Canonical s.fenceTolls := .ite (.mapTolls (h.overTolls fun _ hk => .ite hk hk)) h

theorem Canonical.turnTolls (h : Canonical s) : Canonical (s.turnTolls x) := by
  unfold State.turnTolls
  extract_lets s1 done s2 g gate s3 s4 back
  have h1 : Canonical s1 := h.withTollRegs
  have h2 : Canonical s2 := h1.foldl fun _ _ hs => hs.modLayer
  have h3 : Canonical s3 := .ite h2 h2.withLossGate.tryGate
  have h4 : Canonical s4 := h3.fenceTolls
  clear_value s4
  exact .ite h4 (h4.overTolls (f := back) fun _ hk => .ite hk hk).mapTolls.swapTables

theorem Canonical.snapFailed {result : Nat} (h : Canonical s) : Canonical (s.snapFailed x result) := h.modCtx.bumpField.logFault

theorem Canonical.startStop (h : Canonical s) : Canonical (s.startStop x) := by
  unfold State.startStop
  refine .ite h.modCtx.bumpField ?_
  dsimp only
  split
  · exact .ite h.modCtx.snapFailed h.modCtx.modCtx
  · exact h.modCtx.snapFailed

theorem Canonical.abandon (h : Canonical s) : Canonical (s.abandon x) := by
  unfold State.abandon
  extract_lets k s1 s2 s3 rings
  have h1 : Canonical s1 := h.modCtx
  have h2 : Canonical s2 := h1.foldl fun _ _ hs => hs.complete
  have h3 : Canonical s3 := h2.foldl fun s r hs => by
    split
    · exact hs.complete
    · exact hs
  exact h3.foldl fun _ _ hs => hs.foldl fun _ _ hs => hs.complete

theorem Canonical.parkOrphan (h : Canonical s) : Canonical (s.parkOrphan x) := h.modCtx.abandon

theorem Canonical.afterBoundary {taint : Option (Nat × Byte)} (h : Canonical s) : Canonical (s.afterBoundary x taint) := by
  unfold State.afterBoundary
  dsimp only
  split
  · exact .ite h.modCtx.logFault.abandon h.modCtx.logFault
  · exact .ite (.parkOrphan (.ite h.startStop h)) (.ite h.startStop h)

theorem Lands.stepBoundary {awaited : Bool} (h : Canonical s) : Lands (execStepBoundary x awaited s) := by
  unfold Machine.execStepBoundary
  refine .ite (.next h) ?_
  refine .next ?_
  refine .afterBoundary ?_
  refine .wr ?_
  refine .turnTolls ?_
  refine .onCtxCores ?_ (fun _ hc => .raiseEvent hc)
  split
  · exact h.latchStep.modCtx.complete
  · exact h.latchStep.modCtx

theorem Canonical.writeStaging (h : Canonical s) : Canonical (s.writeStaging x) := by
  unfold State.writeStaging
  split
  · exact h
  · exact h.putFull

theorem Lands.snapshotStopEnd {us : Nat} {errs : List GranErr} (h : Canonical s) : Lands (execSnapshotStopEnd x us errs s) := by
  unfold Machine.execSnapshotStopEnd
  refine .meetRow (fun s hs => ?_) h
  extract_lets k tiered s1 g body s2
  have h1 : Canonical s1 := hs.foldl fun _ _ hs => hs.flushRegion
  have h2 : Canonical s2 := .modCtx (.writeStaging h1)
  exact .ite (.next hs) (.ite (.next h1) (.next (.ite h2.parkOrphan h2)))

theorem Lands.snapshotDrainComplete {ok : Bool} (h : Canonical s) : Lands (execSnapshotDrainComplete x ok s) :=
  .ite (.next h) (.ite (.next (.modCtx h)) (.next h.modCtx.snapFailed))

theorem Canonical.snapRefused (h : Canonical s) : Canonical (s.snapRefused x) := h.modCtx

theorem Lands.snapNow {w : Who} (h : Canonical s) : Lands (execSnapNow w x s) := .ite (.next h) (.ite (.next h.modCtx) (.next h.snapRefused))

theorem Lands.accept {w : Who} (h : Canonical s) : Lands (execAccept w x s) := .ite (.next h) (.ite (.next h.modCtx) (.next h.snapRefused))

theorem Lands.taint {w : Who} (h : Canonical s) : Lands (execTaint w x s) :=
  .ite (.next h) (.ite (.next h.taintStep.logFault) (.next h.snapRefused))

/- Contexts. -/

theorem Lands.serveMsg {msg : Nat} {go : List Byte → Nat → State → State}
    (hgo : ∀ b n s, Canonical s → Canonical (go b n s)) (h : Canonical s) :
    Lands (serveMsg f msg go s) := by
  unfold Machine.serveMsg
  extract_lets k head e type seq len s1 body
  have h1 : Canonical s1 := h.modFn fun _ hk => hk.withBox fun hm => Memory.writeRun_wf hm _ _
  exact .ite (.next h) (.ite (.next h1.answer) (.ite (.next h1.answer) (.ite (.next h) (.ite (.next h1.answer) (.next (hgo _ _ _ h1))))))

theorem CoreCanonical.opened {fill : Option Nat} (h : CoreCanonical k) : CoreCanonical (k.opened x fill) := by
  unfold Core.opened
  extract_lets stw clear bq
  have cleared : CoreCanonical clear := by
    obtain ⟨_, _, regs, _, _⟩ := h
    exact ⟨rfl, rfl, regs, rfl, rfl⟩
  have hbq : CoreCanonical bq := cleared.foldl fun _ _ hk => hk.wr
  split
  · exact hbq.wr
  · exact hbq

theorem Canonical.openCtx {fn : Nat} {b : List Byte} {cores : List (Fin 192)} {p : Nat × Nat} (h : Canonical s) :
    Canonical (s.openCtx fn x b cores p) := by
  unfold State.openCtx
  extract_lets filler closed k sq cq inCc s1 s2 s3 s4
  have h1 : Canonical s1 := (h.withStreams fun hm => SMap.filter_wf hm (· / 64 != x.val)).withCc fun hm => SMap.filter_wf hm (!inCc ·)
  have h2 : Canonical s2 := .ite h1 h1.withRegions.zero
  have h3 : Canonical s3 := .ite h2 h2.withRegions
  have h4 : Canonical s4 := h3.foldl fun _ _ hs => hs.modCore fun _ hk => hk.opened
  exact h4.wr.wr.wr

theorem Lands.ctxOpen (h : Canonical s) : Lands (execCtxOpen f s) := by
  unfold Machine.execCtxOpen
  refine .serveMsg (fun _ _ s hs => ?_) h
  dsimp only
  split
  · exact hs.answer
  · exact hs.answer
  · refine .ite hs.answer ?_
    refine .ite hs.answer ?_
    split
    · exact hs.answer
    · exact hs.openCtx.answer

theorem Canonical.dropInst {i : Fin 8} (h : Canonical s) : Canonical (s.dropInst c i) := .endInst (h.cancelOne.modCore fun _ hk => hk)

theorem Canonical.endRing {r : Fin 256} {st : Byte} (h : Canonical s) : Canonical (s.endRing r st) := h.foldl fun _ _ hs => .ite hs hs.complete

theorem Canonical.endStreams {st : Byte} (h : Canonical s) : Canonical (s.endStreams x st) := by
  unfold State.endStreams
  refine h.foldl fun s i hs => ?_
  extract_lets t
  split
  · exact hs
  · extract_lets s1 s2
    have h1 : Canonical s1 := .ite hs.armRecord hs
    have h2 : Canonical s2 := .ite h1.armRecord h1
    exact .ite h2.setStream h2

theorem CoreCanonical.released (h : CoreCanonical k) : CoreCanonical k.released := h.wr

theorem Canonical.closeCtx (h : Canonical s) : Canonical (s.closeCtx x) := by
  unfold State.closeCtx
  extract_lets cores s1 s2 s3 s4 s5 s5b unalias s6 s7 s8 s9 snap
  have h1 : Canonical s1 := h.foldl fun _ _ hs => hs.dropInst
  have h2 : Canonical s2 := Canonical.endStreams (h1.foldl fun _ _ hs => hs.endRing)
  have h3 : Canonical s3 := h2.foldl fun _ _ hs => hs.writeRecs
  have h4 : Canonical s4 := h3.foldl fun _ _ hs => hs.dropWindow
  have h5 : Canonical s5 := h4.foldl fun _ _ hs => hs.dropRegion
  have h5b : Canonical s5b := h5.dropLayers
  have h6 : Canonical s6 := (h5b.overCores (f := unalias) fun _ hk => .ite hk hk).foldl fun _ _ hs => hs.modCore fun _ hk => hk.released
  have h7 : Canonical s7 := h6.foldl fun _ _ hs => hs.wrBits.modSq
  have h8 : Canonical s8 := h7.foldl fun _ _ hs => hs.wrBits.modCq
  have h9 : Canonical s9 := h8.foldl fun _ _ hs => hs.modCtx.onCtxCores fun _ hk => hk.wr
  clear_value s9
  exact h9.setCtx.withStreams fun hm => SMap.filter_wf hm (· / 64 != x.val)

theorem Lands.ctxClose {errs : List GranErr} (h : Canonical s) : Lands (execCtxClose f errs s) := by
  unfold Machine.execCtxClose
  refine .meetRow (fun s hs => ?_) h
  refine .serveMsg (fun _ _ s hs => ?_) hs
  split
  · exact .ite hs.answer hs.closeCtx.answer
  · exact hs.answer

theorem Lands.ctxReclaim (h : Canonical s) : Lands (execCtxReclaim f s) := by
  unfold Machine.execCtxReclaim
  refine .ite (.next h) ?_
  refine .serveMsg (fun _ _ s hs => ?_) h
  split
  · exact .ite hs.answer (.ite hs.answer hs.modCtx.answer)
  · exact hs.answer

theorem Canonical.resumeCtx (h : Canonical s) : Canonical (s.resumeCtx x) := h.modCtx.foldl fun _ _ hs => hs.modCq

theorem Lands.ctxResume (h : Canonical s) : Lands (execCtxResume f s) := by
  unfold Machine.execCtxResume
  refine .serveMsg (fun _ _ s hs => ?_) h
  split
  · exact .ite hs.answer (.ite hs.answer (.ite hs.answer hs.resumeCtx.answer))
  · exact hs.answer

theorem Canonical.cancelQueued {r : Mb} (h : Canonical s) : Canonical (s.cancelQueued x r) := by
  unfold State.cancelQueued
  extract_lets s1 s2 s3
  have h3 : Canonical s3 := h.modCtx.bumpField.bumpField.onCtxCores fun _ hk => hk.postNotice
  refine .ite h3.endBatch ?_
  split
  · exact h3.complete
  · exact h3

theorem Lands.mbCancel (h : Canonical s) : Lands (execMbCancel f s) := by
  unfold Machine.execMbCancel
  refine .serveMsg (fun _ _ s hs => ?_) h
  dsimp only
  split
  · refine .ite hs.answer ?_
    split
    · exact hs.answer
    · exact .ite hs.answer (.answer (.ite hs.abortMb hs.cancelQueued))
  · exact hs.answer

theorem Lands.decodeCfg (h : Canonical s) : Lands (execDecodeCfg f s) := by
  unfold Machine.execDecodeCfg
  refine .serveMsg (fun _ _ s hs => ?_) h
  dsimp only
  split
  · exact .ite hs.answer (.ite hs.answer (.ite hs.answer hs.modCtx.answer))
  · exact hs.answer

theorem Lands.leaseBeat {value : Word} (h : Canonical s) : Lands (execLeaseBeat f value s) := .ite (.next h) (.next (h.modFn fun _ hk => hk))

theorem Lands.leaseWarning (h : Canonical s) : Lands (execLeaseWarning f s) := .ite (.next h) (.next (.postEvent (h.modFn fun _ hk => hk)))

theorem Canonical.holdRecs (h : Canonical s) : Canonical (s.holdRecs x) := by
  unfold State.holdRecs
  refine h.foldl fun s _ hs => ?_
  refine .modCtx ?_
  refine hs.modCq.foldl fun s _ hs => ?_
  split
  · exact hs.modSq
  · exact hs

theorem Canonical.dropTransfers (h : Canonical s) : Canonical (s.dropTransfers x) :=
  (h.foldl fun _ _ hs => hs.foldl fun _ _ hs => hs.complete).endStreams.foldl fun _ _ hs => hs.setStream.complete

theorem Canonical.abortUnfetched (h : Canonical s) : Canonical (s.abortUnfetched x) :=
  h.modCtx.bumpField.bumpField.foldl fun _ _ hs => hs.onCtxCores fun _ hc => hc.postNotice

theorem Canonical.abandonStep (h : Canonical s) : Canonical (s.abandonStep x) := by
  unfold State.abandonStep
  extract_lets k s1 s2
  have h1 : Canonical s1 := h.foldl fun s r hs => by
    split
    · exact .ite hs hs.complete
    · exact hs
  have h2 : Canonical s2 := by
    unfold s2
    clear_value s1
    split
    · exact h1.complete
    · exact h1
  exact h2.modCtx.abandon

theorem Canonical.abandonDecode (h : Canonical s) : Canonical (s.abandonDecode x) := h.modCtx.foldl fun _ _ hs => hs.complete

theorem Canonical.orphanCtx (h : Canonical s) : Canonical (s.orphanCtx x) := by
  unfold State.orphanCtx
  extract_lets k run s1 s2 s3 s4
  have h2 : Canonical s2 := h.modCtx.holdRecs.dropTransfers
  have h3 : Canonical s3 := h2.abandonDecode
  have h4 : Canonical s4 := .ite (h3.foldl fun _ _ hs => hs.abortMb) h3
  clear_value s2 s4
  exact .ite h2.abandon (.ite h4.modCtx (.ite h2.parkMid.abandonStep (.ite h2.abortUnfetched (.ite h2 h2.parkOrphan))))

theorem Canonical.loseHost (h : Canonical s) : Canonical (s.loseHost f) := .foldl (.logFault (h.modFn fun _ hk => hk)) fun _ _ hs => hs.orphanCtx

theorem Lands.leaseExpiry (h : Canonical s) : Lands (execLeaseExpiry f s) := .ite (.next h.loseHost) (.next h)

theorem Canonical.rearm {v : Nat} (h : Canonical s) : Canonical (s.rearm f v) := .ite (h.modFn fun _ hk => hk) h

theorem Lands.rearm {value : Word} (h : Canonical s) : Lands (execRearm f value s) := .next h.rearm

theorem Canonical.stopRings (h : Canonical s) : Canonical (s.stopRings x) := (h.foldl fun _ _ hs => hs.wrBits).foldl fun _ _ hs => hs.wrBits

theorem FnCanonical.foldl {k : Fn} {f : Fn → α → Fn} {l : List α} (h : FnCanonical k)
    (hf : ∀ k a, FnCanonical k → FnCanonical (f k a)) : FnCanonical (l.foldl f k) := by
  induction l generalizing k with
  | nil => exact h
  | cons a l ih => exact ih (hf k a h)

theorem Canonical.resetFn (h : Canonical s) : Canonical (s.resetFn f) := by
  unfold State.resetFn
  extract_lets s1 s2
  have h2 : Canonical s2 := h.loseHost.foldl fun _ _ hs => hs.stopRings
  refine h2.modFn fun k hk => ?_
  have cleared : FnCanonical (selectRegs.foldl (fun k off => k.wr off 0) k) := FnCanonical.foldl hk fun _ _ hk => hk.wr
  exact (cleared.withLatch (m := []) fun _ => rfl).withBox fun _ => Memory.writeRun_wf hk.box_wf _ _

theorem Canonical.setNumVfs {n : Nat} (h : Canonical s) : Canonical (s.setNumVfs n) := h.foldl fun _ _ hs => hs.resetFn

theorem Lands.functionLevelReset {numVfs : Option (Fin 32)} (h : Canonical s) : Lands (execFunctionLevelReset f numVfs s) := by
  unfold Machine.execFunctionLevelReset
  split
  · exact .next h.setNumVfs
  · exact .ite (.next (h.foldl fun _ _ hs => hs.resetFn)) (.next h.resetFn)

end Sys2Proof.Safety
end

