-- ==== Sys2Proof/Proofs/Canonical/HearthRas.lean ====
section
/-! PROOF. Hearth, the Steward's operands and system instructions, remap, Lantern and restore keep the canonical form (O56). -/

namespace Sys2Proof.Safety

open Sys2Proof.Machine

variable {α : Type} {s : State} {k : Core} {c : Fin 192} {x : Fin 64} {f : Fin 32} {e : Ecc}

/- Hearth. -/

theorem Canonical.modHearth {f : Hearth → Hearth} (h : Canonical s) : Canonical (s.modHearth f) := h

theorem Canonical.modIsland {i : Fin 24} {f : Island → Island} (h : Canonical s) : Canonical (s.modIsland i f) := h.modHearth

theorem Canonical.hearthEvent {bit : Nat} (h : Canonical s) : Canonical (s.hearthEvent bit) := .ite h h.wrBits.report

theorem Canonical.reportCond {n : Nat} {island : Option Nat} (h : Canonical s) : Canonical (s.reportCond n island) := by
  unfold State.reportCond
  refine .hearthEvent ?_
  refine .logFault ?_
  split <;> exact h.report

theorem Canonical.publishBudget {watts : Nat} {hot : Bool} (h : Canonical s) : Canonical (s.publishBudget watts hot) :=
  .ite h.wrBits.wrBits.modHearth h.wrBits.wrBits

theorem Canonical.forceHot (h : Canonical s) : Canonical s.forceHot := h.publishBudget

theorem Canonical.setDuty {d : Nat} (h : Canonical s) : Canonical (s.setDuty d) := h.wrBits

theorem forall_vector_ofFn {P : α → Prop} {n : Nat} {f : Fin n → α} (hf : ∀ i, P (f i)) : ∀ i : Fin n, P (Vector.ofFn f)[i] := by
  intro i
  simp only [Fin.getElem_fin, Vector.getElem_ofFn]
  exact hf i

theorem forall_vector_replicate {P : α → Prop} {n : Nat} {v : α} (hv : P v) : ∀ i : Fin n, P (Vector.replicate n v)[i] := by
  intro i
  simp only [Fin.getElem_fin, Vector.getElem_replicate]
  exact hv

/-- A reset module with any roles of its cores, management registers and image slots. -/
theorem Canonical.atReset {s : State} (regs : SMap.wf glbReset s.regs = true)
    (tables : s.mem = [] ∧ s.cc = [] ∧ s.dir = [] ∧ s.layers = [] ∧ s.streams = [] ∧ s.fence = [])
    (cores : ∀ c, CoreCanonical (s.core c)) (images : ∀ i, ImageCanonical (s.image i))
    (units : s.chans = State.reset.chans ∧ s.fns = State.reset.fns ∧ s.tolls = State.reset.tolls ∧ s.banks = State.reset.banks) :
    Canonical s := by
  obtain ⟨mem, cc, dir, layers, streams, fence⟩ := tables
  obtain ⟨chans, fns, tolls, banks⟩ := units
  refine ⟨⟨by rw [mem]; rfl, regs, by rw [cc]; rfl, by rw [dir]; rfl, by rw [layers]; rfl, by rw [streams]; rfl, by rw [fence]; rfl⟩,
    cores, ?_, ?_, ?_, ?_, images⟩
  · unfold State.chan
    rw [chans]
    exact forall_vector_replicate (P := ChanCanonical) .resetChan
  · unfold State.fn
    rw [fns]
    exact forall_vector_replicate (P := FnCanonical) .resetFn
  · unfold State.toll
    rw [tolls]
    exact forall_vector_replicate (P := TollCanonical) .resetToll
  · unfold State.bank
    rw [banks]
    exact forall_vector_replicate (P := BankCanonical) ⟨rfl, rfl⟩

theorem forall_resetCores {role : Nat → Nat} : ∀ c : Fin 192, CoreCanonical (Vector.ofFn fun c : Fin 192 => resetCore (role c.val))[c] :=
  forall_vector_ofFn fun _ => .resetCore

theorem Canonical.losePower (h : Canonical s) : Canonical s.losePower := by
  unfold State.losePower
  extract_lets roles dark
  refine .atReset ?_ ?_ ?_ ?_ ?_
  · exact SMap.filter_wf h.regs mgmtOff
  · exact ⟨rfl, rfl, rfl, rfl, rfl, rfl⟩
  · exact forall_resetCores
  · intro i
    unfold State.image
    dsimp only
    exact h.image (i := i)
  · exact ⟨rfl, rfl, rfl, rfl⟩

theorem Canonical.removePower (h : Canonical s) : Canonical s.removePower := by
  unfold State.removePower
  extract_lets s1 s2 g s3
  have h2 : Canonical s2 := h.losePower.modHearth
  have h3 : Canonical s3 := .ite (h2.modGate (f := fun g => { g with deferred := none })).wrBits h2
  exact h3.wrBits

theorem Canonical.beginCond {n : Fin 9} {act : State → State} (h : Canonical s) (hact : ∀ s, Canonical s → Canonical (act s)) :
    Canonical (s.beginCond n act) := .ite h (hact _ h.modHearth.reportCond)

theorem Lands.overTemperature (h : Canonical s) : Lands (execOverTemperature s) := .next (h.beginCond fun _ ha => ha)

theorem Lands.persistentOverTemperature (h : Canonical s) : Lands (execPersistentOverTemperature s) :=
  .next (h.beginCond fun _ hs => hs.removePower)

theorem Lands.vmainLow (h : Canonical s) : Lands (execVmainLow s) := .next (h.beginCond fun _ ha => ha)

theorem Lands.vmainCollapse (h : Canonical s) : Lands (execVmainCollapse s) := .next (h.beginCond fun _ hs => hs.removePower)

theorem Lands.vmainHigh (h : Canonical s) : Lands (execVmainHigh s) := .next (h.beginCond fun _ hs => hs.removePower)

theorem Lands.inputOverPower (h : Canonical s) : Lands (execInputOverPower s) := .next (h.beginCond fun _ ha => ha)

theorem Lands.islandOverCurrent {i : Fin 24} (h : Canonical s) : Lands (execIslandOverCurrent i s) := .ite (.next h) (.next h.modIsland.reportCond)

theorem Lands.leak (h : Canonical s) : Lands (execLeak s) := .ite (.next (h.beginCond fun _ hs => hs.removePower.setDuty)) (.next h)

theorem Lands.sequencerSilent (h : Canonical s) : Lands (execSequencerSilent s) := .next (h.beginCond fun _ hs => hs.setDuty.publishBudget)

theorem Lands.emergencyRelease {n : Fin 9} {i : Fin 24} (h : Canonical s) : Lands (execEmergencyRelease n i s) :=
  .ite (.next h.modIsland) (.ite (.next h) (.next h.modHearth))

theorem Canonical.resumeVolts (h : Canonical s) : Canonical s.resumeVolts := .ite h h.modHearth

theorem Lands.throttleAssert (h : Canonical s) : Lands (execThrottleAssert s) := .next h.modHearth

theorem Lands.throttleDeassert (h : Canonical s) : Lands (execThrottleDeassert s) := .ite (.next h) (.next h.modHearth.resumeVolts)

theorem Lands.thrStuck (h : Canonical s) : Lands (execThrStuck s) := .ite (.next h.hearthEvent) (.next h)

theorem Lands.pinGlitch {leak : Bool} (h : Canonical s) : Lands (execPinGlitch leak s) := .next h.wrBits

theorem Canonical.leakQuiets (h : Canonical s) : Canonical s.leakQuiets := h.modHearth

theorem Lands.chatterEval {thr leak : Nat} (h : Canonical s) : Lands (execChatterEval thr leak s) := by
  unfold Machine.execChatterEval
  extract_lets q thrIn leakIn s1 s2 s3 s4
  have h1 : Canonical s1 := h.modHearth
  have h2 : Canonical s2 := .ite h1.hearthEvent h1
  have h3 : Canonical s3 := .ite h2.hearthEvent h2
  have h4 : Canonical s4 := .ite h3.resumeVolts h3
  exact .next h4.leakQuiets

theorem Lands.leakAssert (h : Canonical s) : Lands (execLeakAssert s) := .next h.modHearth.leakQuiets

theorem Lands.leakDeassert (h : Canonical s) : Lands (execLeakDeassert s) := .next h.modHearth.leakQuiets

theorem Lands.planPublish (h : Canonical s) : Lands (execPlanPublish s) :=
  .ite (.next h) (.next (h.modHearth.foldl fun _ _ hs => .ite hs.modCtx hs))

theorem Canonical.readIsland {i : Fin 24} {r : IslandReading} (h : Canonical s) : Canonical (s.readIsland i r) :=
  .modIsland (h.foldl fun _ _ hs => hs.modCore fun _ hk => hk)

theorem Canonical.setIsland {n : Nat} {i : Fin 24} (h : Canonical s) : Canonical (s.setIsland n i) := h.modIsland

theorem Canonical.capPower {mean : Nat} (h : Canonical s) : Canonical (s.capPower mean) := .ite h.modHearth.hearthEvent.modHearth h.modHearth

theorem Canonical.publish {n pIn : Nat} (h : Canonical s) : Canonical (s.publish n pIn) := .ite h.publishBudget h.publishBudget

theorem Lands.hearthTick {r : HearthReading} (h : Canonical s) : Lands (execHearthTick r s) := by
  unfold Machine.execHearthTick
  extract_lets n s0 s1 hottest s2 s3 s4
  have h0 : Canonical s0 := Canonical.modHearth h
  have h1 : Canonical s1 := h0.foldl fun _ _ hs => hs.readIsland
  have h3 : Canonical s3 := h1.wr.wrBits.capPower
  have h4 : Canonical s4 := .ite h3 (h3.foldl fun _ _ hs => hs.setIsland)
  exact .ite (.next h) (.next h4.publish)

theorem Lands.valveTick {inlet outlet : Int} {flow : Nat} (h : Canonical s) : Lands (execValveTick inlet outlet flow s) := by
  unfold Machine.execValveTick
  extract_lets n s0 s1 low lost sf s2 ok s3
  have h0 : Canonical s0 := h
  have hf : Canonical sf := h0.wrBits.wrBits.wr.modHearth
  have h2 : Canonical s2 := .ite hf.resumeVolts hf
  have h3 : Canonical s3 := .ite h2 h2.hearthEvent
  exact .ite (.next h) (.ite (.next h3.setDuty) (.ite (.next h3.setDuty) (.next h3.setDuty)))

theorem Lands.flowLow (h : Canonical s) : Lands (execFlowLow s) := .ite (.next h.modHearth.hearthEvent.forceHot) (.next h)

theorem Lands.flowLost (h : Canonical s) : Lands (execFlowLost s) := .ite (.next h.modHearth.hearthEvent.forceHot) (.next h)

theorem Lands.inletHigh (h : Canonical s) : Lands (execInletHigh s) := .ite (.next h.hearthEvent) (.next h)

theorem Canonical.slowLog {i : Fin 24} (h : Canonical s) : Canonical (s.slowLog i) := h.logFault

theorem Canonical.slowWindow {i : Fin 24} (h : Canonical s) : Canonical (s.slowWindow i) := by
  unfold State.slowWindow
  extract_lets k core pace hold k1 training lag slows s1 s2
  have h1 : Canonical s1 := h.modIsland
  have h2 : Canonical s2 := .ite h1.slowLog h1
  exact .ite h2.logFault.report h2

theorem Canonical.withWindows {m : Regs} {v : Vector Port 36} (h : Canonical s) : Canonical { s with win := m, ports := v } := h

theorem Lands.telemetryWindow (h : Canonical s) : Lands (execTelemetryWindow s) := by
  unfold Machine.execTelemetryWindow
  refine .ite (.next h) ?_
  extract_lets words s1 s2 s3
  have h1 : Canonical s1 := by
    have cores := h.overCores (f := fun k => { k with win := k.regs }) fun _ hk => hk
    have chans := cores.overChans (f := fun k => { k with win := k.regs, dieCorr := [] }) fun _ hk => hk
    exact (chans.overTolls (f := fun k => { k with win := k.latched }) fun _ hk => hk).withWindows
  have h2 : Canonical s2 := h1.foldl fun _ _ hs => hs.slowWindow
  exact .next h2.modHearth.bump.report

/- Operands. -/

theorem CoreCanonical.setG {r : BitVec 5} {v : Word} (h : CoreCanonical k) : CoreCanonical (k.setG r v) := .ite h h

theorem CoreCanonical.setPair {r : BitVec 5} {v : Nat} (h : CoreCanonical k) : CoreCanonical (k.setPair r v) := h.setG.setG

theorem Canonical.stwFault {cause : Nat} (h : Canonical s) : Canonical (s.stwFault c cause) := .stwFaulted (.logFault (h.modCore fun _ hk => hk))

theorem Canonical.stwGoto {n : Int} (h : Canonical s) : Canonical (s.stwGoto c n) := .ite (h.modCore fun _ hk => hk) h.stwFault

theorem Canonical.stwNext (h : Canonical s) : Canonical (s.stwNext c) := h.stwGoto

theorem Canonical.stwDone {f : Core → Core} (h : Canonical s) (hf : ∀ k, CoreCanonical k → CoreCanonical (f k)) : Canonical (s.stwDone c f) :=
  (h.modCore hf).stwNext

theorem Canonical.stwWrite {d : BitVec 5} {v : Word} (h : Canonical s) : Canonical (s.stwWrite c d v) := h.stwDone fun _ hk => hk.setG

theorem Lands.stewardIn {may : StwState → Bool} {op : SOp} {act : SInstr → State → State}
    (hact : ∀ i s, Canonical s → Canonical (act i s)) (h : Canonical s) : Lands (stewardIn may op c e act s) := by
  unfold Machine.stewardIn
  refine .ite (.next h) ?_
  split
  · exact .next h.bumpField.stwFault
  · dsimp only
    split
    · exact .next (.stwFault (.ite h.bumpField h))
    · exact .ite (.next (hact _ _ (.ite h.bumpField h))) (.next h)

theorem Lands.stewardStep {op : SOp} {act : SInstr → State → State} (hact : ∀ i s, Canonical s → Canonical (act i s)) (h : Canonical s) :
    Lands (stewardStep op c e act s) := .stewardIn hact h

theorem Canonical.stwLoad {n : Nat} {f : Nat → Word} {i : SInstr} (h : Canonical s) : Canonical (stwLoad c n f i s) := by
  unfold Machine.stwLoad
  dsimp only
  split
  · exact h.stwFault
  · exact h.stwWrite

theorem CoreCanonical.storeData {a n v : Nat} (h : CoreCanonical k) : CoreCanonical (k.storeData a n v) :=
  .ite (.setPoison (h.withDmem fun hm => Memory.writeRun_wf hm _ _)) (h.withDmem fun hm => Memory.writeRun_wf hm _ _)

theorem Canonical.stwStore {n : Nat} {i : SInstr} (h : Canonical s) : Canonical (stwStore c n i s) := by
  unfold Machine.stwStore
  dsimp only
  split
  · exact h.stwFault
  · exact h.stwDone fun _ hk => hk.storeData

/- StewardSys. -/

theorem CoreCanonical.dropTile {i : Fin 8} (h : CoreCanonical k) : CoreCanonical (k.dropTile i) := .modSlot (.ite h h)

theorem CoreCanonical.loadFrame {i : Fin 8} {img : List Byte} {st : Byte} (h : CoreCanonical k) : CoreCanonical (k.loadFrame i img st) :=
  .ite h.modSlot (.freePlaces (.ite (.modSlot (.ite h.dropTile.carFlush h.dropTile)) (.modSlot (.ite h.dropTile.carFlush h.dropTile))))

theorem Lands.fld (h : Canonical s) : Lands (execFld c e s) :=
  .stewardStep (fun _ _ hs => .ite hs.stwFault (.ite hs.stwFault (hs.stwDone fun _ hk => hk.loadFrame.setG))) h

theorem Canonical.arm {a b : Nat} (h : Canonical s) : Canonical (s.arm c a b) := by
  unfold State.arm
  dsimp only
  split
  · exact h
  · split
    · exact (h.modCore fun _ hk => hk.modSlot).cancelInst
    · exact h.modCore fun _ hk => hk.modSlot

theorem Lands.farm (h : Canonical s) : Lands (execFarm c e s) :=
  .stewardStep (fun _ _ hs => .stwWrite (.ite hs.arm.markLate (hs.modCore fun _ hk => hk.modSlot))) h

theorem Lands.fstat (h : Canonical s) : Lands (execFstat c e s) := .stewardStep (fun _ _ hs => hs.stwWrite) h

theorem Lands.frd (h : Canonical s) : Lands (execFrd c e s) := by
  unfold Machine.execFrd
  refine .stewardStep (fun _ s hs => ?_) h
  dsimp only
  split
  · exact hs.stwFault
  · exact hs.stwWrite

theorem Lands.pwr (h : Canonical s) : Lands (execPwr c e s) := .stewardStep (fun _ _ hs => hs.stwDone fun _ hk => hk.writeSoft) h

theorem Lands.prd (h : Canonical s) : Lands (execPrd c e s) := .stewardStep (fun _ _ hs => hs.stwWrite) h

theorem CoreCanonical.setMask {n : BitVec 4} {v : BitVec 128} (h : CoreCanonical k) : CoreCanonical (k.setMask n v) := .ite h h

theorem Lands.mskw (h : Canonical s) : Lands (execMskw c e s) := .stewardStep (fun _ _ hs => hs.stwDone fun _ hk => hk.setMask) h

theorem CoreCanonical.takeFlip (h : CoreCanonical k) : CoreCanonical k.takeFlip := .raiseEvent h

theorem Lands.wait (h : Canonical s) : Lands (execWait c e s) := by
  unfold Machine.execWait
  refine .stewardIn (fun i s hs => ?_) h
  extract_lets k m stop s1
  have h1 : Canonical s1 := hs.stwDone fun _ hk => .setG hk
  exact .ite (hs.modCore fun _ hk => hk.takeFlip) (.ite (hs.modCore fun _ hk => hk) (.ite (h1.modCore fun _ hk => hk) h1))

theorem Lands.csrr (h : Canonical s) : Lands (execCsrr c e s) := by
  unfold Machine.execCsrr
  refine .stewardStep (fun _ s hs => ?_) h
  split
  · exact hs.stwFault
  · exact .stwWrite (.ite (hs.modCore fun _ hk => hk.admitRead) hs)

theorem Lands.csrw (h : Canonical s) : Lands (execCsrw c e s) :=
  .stewardStep (fun _ _ hs => .ite (hs.stwDone fun _ hk => hk) (.ite hs.stwNext.fwdDeclared hs.stwFault)) h

theorem Lands.halt (h : Canonical s) : Lands (execHalt c e s) := .stewardStep (fun _ _ hs => hs.modCore fun _ hk => hk) h

theorem CoreCanonical.requestFlip (h : CoreCanonical k) : CoreCanonical k.requestFlip := h

theorem Lands.imemFlipRequest {w : Who} (h : Canonical s) : Lands (execImemFlipRequest w c s) := .coreWrite h fun _ hk => hk.requestFlip

theorem Lands.imemFlipTaken (h : Canonical s) : Lands (execImemFlipTaken c s) := .ite (.next (h.modCore fun _ hk => hk.takeFlip)) (.next h)

theorem CoreCanonical.stewardStart (h : CoreCanonical k) : CoreCanonical k.stewardStart := .ite (.ite h.takeFlip h) (.ite h h)

theorem CoreCanonical.stewardStop (h : CoreCanonical k) : CoreCanonical k.stewardStop := by
  unfold Core.stewardStop
  split <;> exact h

theorem Lands.stewardStart {w : Who} (h : Canonical s) : Lands (execStewardStart w c s) := .coreWrite h fun _ hk => hk.stewardStart

theorem Lands.stewardStop {w : Who} (h : Canonical s) : Lands (execStewardStop w c s) := .coreWrite h fun _ hk => hk.stewardStop

/- Ras. -/

theorem Canonical.fenceInst {i : Fin 8} (h : Canonical s) : Canonical (s.fenceInst c i) := .endInst (h.modCore fun _ hk => .modSlot hk.carHold)

theorem Canonical.fenceRunning (h : Canonical s) : Canonical (s.fenceRunning c) := by
  unfold State.fenceRunning
  refine h.foldl fun s _ hs => ?_
  split
  · exact .ite hs.fenceInst hs
  · exact hs

theorem CoreCanonical.relink {f sp : Nat} (h : CoreCanonical k) : CoreCanonical (k.relink f sp) := h

theorem CoreCanonical.takeImage {q : Core} (h : CoreCanonical k) (hq : CoreCanonical q) : CoreCanonical (k.takeImage q) := by
  unfold Core.takeImage
  extract_lets st stw k0 k1
  have h0 : CoreCanonical k0 := by
    obtain ⟨_, _, regs, _, _⟩ := h
    obtain ⟨sp, dmem, _, imem0, imem1⟩ := hq
    exact ⟨sp, dmem, regs, imem0, imem1⟩
  have h1 : CoreCanonical k1 := h0.foldl fun _ _ hk => hk.wr
  exact h1.wr.carResume

theorem CoreCanonical.vacated {sp : Fin 192} (h : CoreCanonical k) : CoreCanonical (k.vacated sp) := h

theorem Canonical.remapTo {f sp : Fin 192} (h : Canonical s) : Canonical (s.remapTo f sp x) := by
  unfold State.remapTo
  extract_lets s1 s2 fk s3 follow s4 s5 s6
  have h1 : Canonical s1 := Canonical.fenceRunning (h.modCore fun _ hk => hk)
  have h2 : Canonical s2 := h1.modCore fun k hk => by
    split
    · exact hk.park
    · exact hk
  have h3 : Canonical s3 := h2.setCore (h2.core.takeImage h2.core)
  have h4 : Canonical s4 := h3.overCores fun _ hk => .ite hk hk
  have h5 : Canonical s5 := (h4.modCore fun _ hk => hk.vacated).onCtxCores fun _ hk => hk.relink
  exact h5.tellOwner.logFault

theorem Canonical.fenceCore {f : Fin 192} (h : Canonical s) : Canonical (s.fenceCore f x) :=
  .logFault (.parkMid (.fenceRunning (h.modCore fun _ hk => hk)))

theorem Canonical.slowRemapped (h : Canonical s) : Canonical (s.slowRemapped c) := h.slowLog.modIsland.modCore fun _ hk => hk

theorem CoreCanonical.condemn {cause : RemapCause} (h : CoreCanonical k) : CoreCanonical (k.condemn cause) := by
  unfold Core.condemn
  split
  · exact h.wr
  · exact h

theorem Lands.coreRemap {cause : RemapCause} (h : Canonical s) : Lands (execCoreRemap c cause s) := by
  unfold Machine.execCoreRemap
  dsimp only
  split
  · split
    · exact .next (.ite ((h.modCore fun _ hk => hk.condemn).modCore fun _ hk => hk) (h.modCore fun _ hk => hk.condemn))
    · exact .next h
  · refine .ite (.next h) ?_
    split
    · exact .next (h.modCore fun _ hk => hk.condemn).remapTo.slowRemapped
    · exact .next (h.modCore fun _ hk => hk.condemn).remapTo
    · exact .next h
    · exact .next h
    · exact .next (h.modCore fun _ hk => hk.condemn).fenceCore

theorem Canonical.lanternRefused (h : Canonical s) : Canonical s.lanternRefused := h.wrBits

theorem Canonical.freeForLantern (h : Canonical s) : ∀ t ∈ s.freeForLantern c, Canonical t := by
  intro t free
  unfold State.freeForLantern at free
  split at free
  · obtain ⟨_, _, rfl⟩ := Option.map_eq_some_iff.1 free
    exact h.remapTo
  · split at free <;> cases free
    exact h

theorem Lands.lanternCmd {w : Who} {value : Word} (h : Canonical s) : Lands (execLanternCmd w value s) := by
  unfold Machine.execLanternCmd
  refine .ite (.next h) ?_
  refine .ite (.next h.lanternRefused) ?_
  refine .ite (.ite (.next h.queueSweep) (.next h.lanternRefused)) ?_
  split
  · exact .next h.lanternRefused
  · split
    next t e => exact .next (h.freeForLantern _ e).queueSweep
    · exact .next h.lanternRefused

theorem Lands.lanternSweepStart (h : Canonical s) : Lands (execLanternSweepStart s) := by
  unfold Machine.execLanternSweepStart
  split
  · exact .next h
  · exact .ite (.next h) (.next h)

theorem CoreCanonical.moduleFence {bit : Nat} (h : CoreCanonical k) : CoreCanonical (k.moduleFence bit) := h.wr

theorem CoreCanonical.clearFence (h : CoreCanonical k) : CoreCanonical k.clearFence := h.wr

theorem CoreCanonical.swept {o : SweepOutcome} (h : CoreCanonical k) : CoreCanonical (k.swept o) := by
  cases o with
  | pass => exact h.clearFence
  | degradedQuad => exact h.moduleFence
  | degradedShadow => exact h.moduleFence
  | failed => exact h

theorem Canonical.taintRan {group : Nat} (h : Canonical s) : Canonical (s.taintRan c group) := .ite (h.foldl fun _ _ hs => .ite hs.taintStep hs) h

theorem Canonical.sweepResult {u : LUnit} {o : SweepOutcome} {d : SweepDetail} (h : Canonical s) : Canonical (s.sweepResult u o d) :=
  h.wr.wr.logFault

theorem Canonical.endSweep {u : LUnit} {beats : Nat} {o : SweepOutcome} {d : SweepDetail} (h : Canonical s) :
    Canonical (s.endSweep u beats o d) := by
  unfold State.endSweep
  extract_lets s1
  have h1 : Canonical s1 := h.sweepResult
  split
  · have counted {n : Nat} {t : Fin 4} : Canonical (s1.modToll t fun k => k.bump64 0xA0020 n) := h1.modToll fun _ hk => hk.bump64
    exact .ite (.modToll counted fun _ hk => hk) counted
  · extract_lets s2 s3
    have h2 : Canonical s2 := h1.modCore fun _ hk => hk.beats.swept
    have h3 : Canonical s3 := .ite h2 h2.taintRan
    exact .ite h3.logFault h3

theorem Lands.lanternSweepEnd {u : LUnit} {faults : List CellFault} {o : SweepOutcome} {d : SweepDetail} (h : Canonical s) :
    Lands (execLanternSweepEnd u faults o d s) := by
  unfold Machine.execLanternSweepEnd
  split
  · exact .next h
  · exact .next (.endSweep h)

theorem Canonical.calStatus {c result : Nat} {corr : Int} (h : Canonical s) : Canonical (s.calStatus c result corr) := h.wr

theorem Lands.paceCal {w : Who} {value : Word} (h : Canonical s) : Lands (execPaceCal w value s) := by
  unfold Machine.execPaceCal
  refine .ite (.next h) ?_
  refine .ite (.next h.calStatus) ?_
  split
  · exact .next h.calStatus
  · split
    next t e => exact .next (h.freeForLantern _ e).queueSweep
    · exact .next h.calStatus

theorem Lands.paceCalEnd {raw pace : Nat} (h : Canonical s) : Lands (execPaceCalEnd c raw pace s) := by
  unfold Machine.execPaceCalEnd
  split
  · exact .next h
  · refine .ite (.next (.logFault (.calStatus (.modCore (.modCore h fun _ hk => hk.beats) fun _ hk => hk)))) ?_
    exact .next (.calStatus (.modCore (.modCore h fun _ hk => hk.beats) fun _ hk => hk))

theorem Lands.restore {w : Who} {value : Word} (h : Canonical s) : Lands (execRestore w x value s) :=
  .ite (.next h) (.ite (.next h.snapRefused) (.ite (.next h.modCtx) (.next (.modCtx (.ite h.modCtx.closeCtx h)))))

theorem asMemory_wf {l : List (Nat × Byte)} : (asMemory l).wf = true := SMap.setAll_wf l (SMap.wf_nil _)

theorem asWords_wf {l : List (Nat × Word)} : SMap.wf (fun _ => (0 : Word)) (asWords l) = true := SMap.setAll_wf l (SMap.wf_nil _)

theorem CoreCanonical.loadImage {v : SavedCore} (h : CoreCanonical k) : CoreCanonical (k.loadImage v) := by
  unfold Core.loadImage
  extract_lets slot end_ stw k1 k2
  have h1 : CoreCanonical k1 := by
    obtain ⟨_, _, regs, _, _⟩ := h
    exact ⟨asMemory_wf, asMemory_wf, regs, asWords_wf, asWords_wf⟩
  have h2 : CoreCanonical k2 := h1.foldl fun _ _ hk => hk.wr
  exact h2.wr

theorem Canonical.loadRegion {v : SavedRegion} (h : Canonical s) : ∀ t ∈ s.loadRegion x v, Canonical t := by
  intro t loaded
  unfold State.loadRegion at loaded
  dsimp only at loaded
  have filled {a n : Nat} {kvs : List (Nat × Byte)} {g : Region} (h : Canonical s) :
      Canonical { ({ s with regions := s.regions ++ [g] } : State).zero a n with
        mem := SMap.setAll memDefault (({ s with regions := s.regions ++ [g] } : State).zero a n).mem kvs } :=
    (Canonical.zero h.withRegions).withMem fun hm => SMap.setAll_wf _ hm
  split at loaded
  · cases loaded
  · split at loaded <;> cases loaded
    · exact filled h
    · refine (filled h).foldl fun s _ hs => ?_
      exact .setDir (.ite (hs.prepaid fun _ hs => hs.storeTile) hs)

theorem Canonical.loadRegions {vs : List SavedRegion} (h : Canonical s) : ∀ t ∈ s.loadRegions x vs, Canonical t := by
  induction vs generalizing s with
  | nil => rintro _ ⟨⟩; exact h
  | cons v vs ih =>
    intro t loaded
    unfold State.loadRegions at loaded
    split at loaded
    next u one => exact ih (h.loadRegion u one) t loaded
    · cases loaded

theorem Canonical.checkRng {step : Nat} {r : Nat × Nat × Nat} (h : Canonical s) : Canonical (s.checkRng x step r) :=
  .ite h h.bumpField.wr.logFault

theorem Canonical.loadRecords {v : Saved} (h : Canonical s) : Canonical (s.loadRecords x v) :=
  .modCtx (.foldl (.foldl (.wr (h.withCc fun hm => SMap.setAll_wf _ hm)) fun _ _ hs => hs.modLayer) fun _ _ hs => hs.setStream)

theorem Canonical.restoreFailed {result : Nat} (h : Canonical s) : Canonical (s.restoreFailed x result) := h.modCtx.snapFailed

theorem Canonical.restoreInto {v : Saved} (h : Canonical s) : ∀ t ∈ s.restoreInto x v, Canonical t := by
  intro t restored
  unfold State.restoreInto at restored
  extract_lets fn snap own alias_ load at restored
  split at restored
  · extract_lets s1 s2 at restored
    have h1 : Canonical s1 := h.openCtx
    have aliased {s : State} {q : Nat × Fin 192} (hs : Canonical s) : Canonical (alias_ s q) := by
      unfold alias_
      refine .ite hs ?_
      split
      · exact .modCore (.modCore hs fun _ hk => hk) fun _ hk => hk
      · exact hs
    have imaged {s : State} {q : Nat × Fin 192} (hs : Canonical s) : Canonical (load s q) := by
      unfold load
      split
      · exact hs.modCore fun _ hk => hk.loadImage
      · exact hs
    have h2 : Canonical s2 := Canonical.foldl (h1.foldl fun _ _ hs => aliased hs) fun _ _ hs => imaged hs
    clear_value s2
    split at restored
    · cases restored
    next s3 loaded =>
      cases restored
      have h3 : Canonical s3 := h2.loadRegions s3 loaded
      exact ((h3.loadRecords.foldl fun _ _ hs => hs.checkRng).modFn fun _ hk => hk.wr).modCtx
  · cases restored

theorem Lands.restoreComplete {r : RestoreEnd} {v : Saved} (h : Canonical s) : Lands (execRestoreComplete x r v s) := by
  unfold Machine.execRestoreComplete
  refine .ite (.next h) ?_
  refine .ite (.next h.restoreFailed) ?_
  split
  next t e => exact .next (h.restoreInto _ e)
  · exact .next h.restoreFailed

end Sys2Proof.Safety
end

