-- ==== Sys2Proof/Proofs/Canonical/Gatehouse.lean ====
section
/-! PROOF. Register writes, management requests and power-up keep the canonical form (O56). -/

namespace Sys2Proof.Safety

open Sys2Proof.Machine

variable {α : Type} {s : State} {k : Core} {c : Fin 192} {x : Fin 64} {f : Fin 32} {e : Ecc}

/- Registers. -/

theorem Canonical.setLatch {w : Who} {off v : Nat} (h : Canonical s) : Canonical (s.setLatch w off v) := by
  unfold State.setLatch
  split
  · exact h.modFn fun _ hk => hk.withLatch fun hm => Regs.wr_wf hm _ _
  · exact h

theorem Canonical.readReg {w : Who} {sel : Selects} {off : Nat} (h : Canonical s) : Canonical (s.readReg w sel off).2 :=
  .iteSnd (.ite h.setLatch h) (.iteSnd h.setLatch (.iteSnd h h))

theorem CoreCanonical.store {plane phys : Bool} {off v : Nat} (h : CoreCanonical k) : CoreCanonical (k.store plane phys off v) := by
  unfold Core.store
  refine .ite (.ite h.wr h) ?_
  refine .ite (.ite h.wr h) ?_
  refine .ite (.ite h.wr h) ?_
  refine .ite h.wr ?_
  exact .ite h.wr (.ite (.ite h.wr h) (.ite (.ite h.wr h) (.ite h.carCtl (.ite (.ite h h.wr) (.ite (.ite (h.wr.foldl fun _ _ hk => hk.wr) h) h)))))

theorem Lands.writeCoreReg {w : Who} {off v : Nat} (h : Canonical s) : Lands (s.writeCoreReg w c off v) := by
  unfold State.writeCoreReg
  refine .ite (.ite (.coreWrite h fun _ hk => hk.requestFlip) (.next h)) ?_
  exact .ite (.coreWrite h fun _ hk => .ite (.stewardStop (.ite hk.stewardStart hk)) (.ite hk.stewardStart hk)) (.coreWrite h fun _ hk => hk.store)

theorem Lands.writeChanReg {w : Who} {c : Fin 208} {off v : Nat} (h : Canonical s) : Lands (s.writeChanReg w c off v) := by
  unfold State.writeChanReg
  refine .ite ?_ (.ite (.next (.ite (h.modChan fun _ hk => hk.wr) h)) (.next h))
  split
  · exact .next h.requestService
  · exact .next h.requestService
  · exact .next h

theorem Lands.writePortReg {w : Who} {p : Fin 36} {off v : Nat} (h : Canonical s) : Lands (s.writePortReg w p off v) := by
  unfold State.writePortReg
  refine .ite (.next h) ?_
  split
  · exact .portRetrain h
  · exact .portOutOfService h
  · exact .portReturnToService h
  · exact .next h

theorem Lands.writeTableCmd {w : Who} {v : Nat} (h : Canonical s) : Lands (s.writeTableCmd w v) := by
  unfold State.writeTableCmd
  split
  · exact .beginLoad h
  · exact .loadDone h
  · exact .flip h
  · exact .retire h
  · exact .forceRetire h
  · exact .abandonLoad h
  · exact .next h

theorem Canonical.storeGlb {off v : Nat} (h : Canonical s) : Canonical (s.storeGlb off v) := by
  unfold State.storeGlb
  refine .ite (.ite h.wr h) ?_
  refine .ite (.ite h h.wr.report) ?_
  split
  · exact h.wr
  · exact h

theorem Lands.writeFabricReg {w : Who} {off : Nat} {v : Word} (h : Canonical s) : Lands (s.writeFabricReg w off v) := by
  unfold State.writeFabricReg
  refine .ite (.selfIdWrite h) ?_
  refine .ite (.next (.ite h.wrBits h)) ?_
  refine .ite (.writeTableCmd h) (.ite (.next (.ite h.selectEntry h)) ?_)
  exact .ite (.fenceUpdate h) (.ite (.tableEntryStore h) (.next (.ite h.storeGlb h)))

theorem Lands.writeRingReg {off : Nat} {v : Word} (h : Canonical s) : Lands (s.writeRingReg f off v) :=
  .ite (.ringEnable h) (.ite (.next h) (.ite (.next (.ite h.modSq h)) (.ite (.next h) (.next h.wr))))

theorem Canonical.writeMsix {off v : Nat} (h : Canonical s) : Canonical (s.writeMsix f off v) :=
  .ite h (.ite ((h.modFn fun _ hk => hk.wr).modFn fun _ hk => hk.wr).msix (h.modFn fun _ hk => hk.wr))

theorem Lands.writeFnReg {off : Nat} {v : Word} (h : Canonical s) : Lands (s.writeFnReg f off v) := by
  unfold State.writeFnReg
  refine .ite (.next (h.modFn fun _ hk => hk.wr)) ?_
  refine .ite (.next (h.modFn fun _ hk => hk.wr)) ?_
  refine .ite (.next (h.modFn fun _ hk => hk.wr)) ?_
  refine .ite (.next (h.modFn fun _ hk => hk.wr)) ?_
  refine .ite (.next (h.modFn fun _ hk => hk.wr)) ?_
  refine .ite (.next (h.modFn fun _ hk => hk.wr)) ?_
  exact .ite (.leaseBeat h) (.ite (.next (h.modFn fun _ hk => hk.wr)) (.ite (.rearm h) (.ite (.next h.writeMsix) (.next h))))

theorem Lands.writeSnapReg {w : Who} {r : Nat} {v : Word} (h : Canonical s) : Lands (s.writeSnapReg w x r v) := by
  unfold State.writeSnapReg
  refine .ite (.next h) ?_
  refine .ite ?_ (.ite (.next h.wr) (.ite (.next h.wr) (.next h)))
  split
  · exact .snapNow h
  · exact .restore h
  · exact .accept h
  · exact .taint h
  · exact .next h

theorem Canonical.writeIsland {i : Fin 24} {off v : Nat} (h : Canonical s) : Canonical (s.writeIsland i off v) := .ite h.modIsland h

theorem Canonical.writeTollReg {sel : Selects} {off v : Nat} (h : Canonical s) : Canonical (s.writeTollReg sel off v) := by
  unfold State.writeTollReg
  refine .ite ?_ (.ite h.wr (.ite h.wr (.ite h.wr h)))
  split
  · exact h.modToll fun _ hk => hk.wr
  · exact h

theorem Lands.onUnit {α : Type} {u : Option α} {f : α → Result} (h : Canonical s) (hf : ∀ a0, Lands (f a0)) : Lands (s.onUnit u f) := by
  unfold State.onUnit
  split
  · exact hf _
  · exact .next h

theorem Lands.writeReg {w : Who} {sel : Selects} {off : Nat} {v : Word} (h : Canonical s) : Lands (s.writeReg w sel off v) := by
  unfold State.writeReg
  refine .ite ?_ ?_
  · split
    · exact .writeFnReg h
    · exact .next h
  · refine .ite (.paceCal h) ?_
    refine .ite (.onUnit h fun _ => .writeCoreReg h) ?_
    refine .ite (.onUnit h fun _ => .writeChanReg h) ?_
    refine .ite (.onUnit h fun _ => .writePortReg h) ?_
    refine .ite (.writeFabricReg h) ?_
    refine .ite ?_ ?_
    · split
      · exact .writeRingReg h
      · exact .next h
    · refine .ite (.next (h.modFn fun _ hk => hk.wr)) ?_
      refine .ite (.onUnit h fun _ => .next (.ite h.writeIsland h)) ?_
      exact .ite (.lanternCmd h) (.ite (.onUnit h fun _ => .writeSnapReg h) (.ite (.next (.ite h.writeTollReg h)) (.next (.ite h.storeGlb h))))

theorem Lands.registerWrite {off : Nat} {be : BitVec 4} {value : Word} (h : Canonical s) : Lands (execRegisterWrite f off be value s) :=
  .ite (.writeReg h) (.next h)

theorem Lands.registerReadLoLatch {off : Nat} (h : Canonical s) : Lands (execRegisterReadLoLatch f off s) := .next h.readReg

/- Gatehouse. -/

theorem Canonical.gateHold {i : Held} (h : Canonical s) : Canonical (s.gateHold i) := .ite h.modGate h

theorem Canonical.replyMgmt {m : Mgmt} {type result : Nat} {body : List Byte} (h : Canonical s) : Canonical (s.replyMgmt m type result body) := h

theorem Lands.serveMgmt {i : Held} {m : Mgmt} {type : Nat} {adding : Option (List Byte)} {go : State → Reply}
    (hgo : ∀ s, Canonical s → Canonical (go s).2.2) (h : Canonical s) : Lands (serveMgmt i m type adding go s) := by
  unfold Machine.serveMgmt
  refine .ite (.next h.gateHold) ?_
  split
  · exact .next h
  · refine .ite (.next h) (.ite (.next h) (.ite (.next h.replyMgmt) ?_))
    exact .ite (.next h.replyMgmt) (.ite (.next h.replyMgmt) (.next (hgo s h).replyMgmt))

theorem Canonical.iteReply {p : Prop} [Decidable p] {a b : Reply} (ha : Canonical a.2.2) (hb : Canonical b.2.2) :
    Canonical (if p then a else b).2.2 := by
  split <;> assumption

theorem Canonical.onImage {type : Nat} {f : Fin 3 → Reply} (h : Canonical s) (hf : ∀ t, Canonical (f t).2.2) :
    Canonical (onImage s type f).2.2 := by
  unfold Machine.onImage
  split
  · exact hf _
  · exact h

theorem Canonical.withOut {l : List Out} (h : Canonical s) : Canonical { s with out := l } := h

theorem Lands.regRead {m : Mgmt} {off : Nat} {sel : Selects} (h : Canonical s) : Lands (execRegRead m off sel s) :=
  .serveMgmt (fun _ hs => .iteReply hs (.iteReply hs hs.readReg)) h

theorem Lands.regWrite {m : Mgmt} {off : Nat} {sel : Selects} {value : Word} (h : Canonical s) : Lands (execRegWrite m off sel value s) :=
  .serveMgmt (fun _ hs => .iteReply hs (.iteReply hs (by
    split
    next t written => exact Lands.writeReg hs t written
    · exact hs))) h

theorem ImageCanonical.setSlot {t : ImageType} {b : Bool} {i : ImageSlot} (h : ImageCanonical t) (hi : i.bytes.wf = true) :
    ImageCanonical (t.setSlot b i) := .ite (h.withB fun _ => hi) (h.withA fun _ => hi)

theorem ImageCanonical.slot {t : ImageType} {b : Bool} (h : ImageCanonical t) : (t.slot b).bytes.wf = true := by
  obtain ⟨ha, hb⟩ := h
  cases b
  · exact ha
  · exact hb

theorem Canonical.noteUpdate {st t result : Nat} (h : Canonical s) : Canonical (s.noteUpdate st t result) := h.wrBits.wrBits.wrBits

theorem Canonical.imageReply {st result : Nat} {t : Fin 3} (h : Canonical s) : Canonical (imageReply s st t result).2.2 := h.noteUpdate

theorem Canonical.imageRefuse {t : Fin 3} {result : Nat} (h : Canonical s) : Canonical (imageRefuse s t result).2.2 := h.imageReply

theorem Lands.imageBegin {m : Mgmt} {type total : Nat} (h : Canonical s) : Lands (execImageBegin m type total s) :=
  .serveMgmt (fun _ hs => hs.onImage fun _ => .iteReply hs.imageRefuse (.iteReply hs.imageRefuse
    (.imageReply (hs.modImage fun _ hk => hk.setSlot (i := { bytes := [], total := total, valid := false }) (SMap.wf_nil _))))) h

theorem Lands.imageData {m : Mgmt} {off : Nat} {data : List Byte} (h : Canonical s) : Lands (execImageData m off data s) :=
  .serveMgmt (fun _ hs => by
    split
    · exact hs
    · exact .iteReply hs.imageRefuse (.imageReply (hs.modImage fun _ hk =>
        .setSlot hk (Memory.writeRun_wf hs.image.slot _ _)))) h

theorem Lands.imageVerify {m : Mgmt} {type : Nat} {c : ImageCheck} (h : Canonical s) : Lands (execImageVerify m type c s) :=
  .serveMgmt (fun _ hs => hs.onImage fun _ => .iteReply hs.imageRefuse (.iteReply
    (.imageReply (hs.modImage fun _ hk => .setSlot hk hs.image.slot))
    (.imageReply (hs.modImage fun _ hk => .setSlot hk hs.image.slot)))) h

theorem Canonical.startPause {t : Fin 3} (h : Canonical s) : Canonical (s.startPause t) := h.modGate

theorem Lands.imageActivate {m : Mgmt} {type mode : Nat} (h : Canonical s) : Lands (execImageActivate m type mode s) :=
  .serveMgmt (fun _ hs => hs.onImage fun _ => .iteReply hs.imageRefuse (.iteReply
    (.iteReply hs.imageRefuse (.imageReply (hs.modImage fun _ hk => hk)))
    (.iteReply hs.imageRefuse (.iteReply hs.imageRefuse (.iteReply (.imageReply hs.modGate) (.imageReply hs.startPause)))))) h

theorem Lands.deferredActivationStart (h : Canonical s) : Lands (execDeferredActivationStart s) := by
  unfold Machine.execDeferredActivationStart
  split
  · exact .ite (.next h) (.next h.startPause.wrBits)
  · exact .next h

theorem Canonical.endPause {st result us : Nat} (h : Canonical s) : Canonical (s.endPause st result us) := h.modGate.wrBits.wrBits.wrBits

theorem Lands.imageCommit {m : Mgmt} {type : Nat} (h : Canonical s) : Lands (execImageCommit m type s) :=
  .serveMgmt (fun _ hs => hs.onImage fun _ => by
    dsimp only
    split
    · exact .iteReply (.imageReply (hs.modImage fun _ hk => hk)) hs.imageRefuse
    · exact hs.imageRefuse) h

theorem Lands.imageAbandon {m : Mgmt} {type : Nat} (h : Canonical s) : Lands (execImageAbandon m type s) :=
  .serveMgmt (fun _ hs => hs.onImage fun _ => .iteReply hs.imageRefuse (.iteReply (.imageReply hs.modGate)
    (.iteReply (.imageReply (hs.modImage fun _ hk => hk)) (.imageReply (hs.modImage fun _ hk => .setSlot hk hk.slot))))) h

theorem Lands.collectorSet {m : Mgmt} {addr : List Byte} (h : Canonical s) : Lands (execCollectorSet m addr s) :=
  .serveMgmt (fun _ hs => .iteReply hs (.withOut hs.modGate)) h

theorem Lands.emergencyClear {m : Mgmt} (h : Canonical s) : Lands (execEmergencyClear m s) :=
  .serveMgmt (fun _ hs => .iteReply hs (.iteReply hs hs.modHearth)) h

theorem Lands.anchorAdd {m : Mgmt} {hash : List Byte} (h : Canonical s) : Lands (execAnchorAdd m hash s) :=
  .serveMgmt (fun _ hs => .iteReply hs (.iteReply hs (.iteReply hs hs.modGate))) h

theorem Lands.anchorRemove {m : Mgmt} {hash : List Byte} (h : Canonical s) : Lands (execAnchorRemove m hash s) :=
  .serveMgmt (fun _ hs => .iteReply hs hs.modGate) h

theorem Lands.ownershipClear {m : Mgmt} (h : Canonical s) : Lands (execOwnershipClear m s) := .serveMgmt (fun _ hs => hs.modGate) h

theorem Lands.reportAck {tagOk : Bool} {seq : Word} (h : Canonical s) : Lands (execReportAck tagOk seq s) :=
  .ite (.next h.gateHold) (.ite (.next h) (.next h.modGate))

theorem Lands.reportResend (h : Canonical s) : Lands (execReportResend s) := by
  unfold Machine.execReportResend
  refine .ite (.next h) ?_
  split <;> exact .next h

theorem Lands.keyExchange {t : Transport} {mutAuth : Bool} {root : List Byte} (h : Canonical s) : Lands (execKeyExchange t mutAuth root s) :=
  .ite (.next (.ite h h.gateHold)) (.ite (.next h) (.next (.ite h.modGate.wrBits h.modGate)))

theorem Lands.endSession {session : Nat} (h : Canonical s) : Lands (execEndSession session s) := .ite (.next h.gateHold) (.next h.modGate)

theorem Lands.getMeasurements (h : Canonical s) : Lands (execGetMeasurements s) := .ite (.next h.gateHold) (.next h)

theorem Lands.ideKm {inSession : Bool} {stream : Fin 9} (h : Canonical s) : Lands (execIdeKm inSession stream s) :=
  .ite (.next h.gateHold) (.ite (.next h.modGate) (.next h))

theorem Lands.ideIntegrityFailure {stream : Fin 9} (h : Canonical s) : Lands (execIdeIntegrityFailure stream s) :=
  .ite (.next h.modGate.report) (.next h)

theorem Lands.serveHeld {i : Held} (h : Canonical s) : Lands (serveHeld i s) := by
  unfold Machine.serveHeld
  split
  · exact .regRead h
  · exact .regWrite h
  · exact .imageBegin h
  · exact .imageData h
  · exact .imageVerify h
  · exact .imageActivate h
  · exact .imageCommit h
  · exact .imageAbandon h
  · exact .collectorSet h
  · exact .emergencyClear h
  · exact .anchorAdd h
  · exact .anchorRemove h
  · exact .ownershipClear h
  · exact .reportAck h
  · exact .keyExchange h
  · exact .endSession h
  · exact .getMeasurements h
  · exact .ideKm h

theorem Canonical.resumeGate (h : Canonical s) : Canonical s.resumeGate := by
  unfold State.resumeGate
  refine h.modGate.foldl fun s i hs => ?_
  have served : Lands (serveHeld i s) := .serveHeld hs
  split
  next t run => exact served t run
  · exact hs

theorem Lands.handoffReady {us : Nat} (h : Canonical s) : Lands (execHandoffReady us s) := by
  unfold Machine.execHandoffReady
  split
  · exact .next (.resumeGate (.endPause (h.modImage fun _ hk => hk)))
  · exact .next h

theorem Lands.handoffTimeout (h : Canonical s) : Lands (execHandoffTimeout s) := by
  unfold Machine.execHandoffTimeout
  split
  · exact .next h.drawFree.endPause.resumeGate
  · exact .next h

theorem Lands.pldm {type cmd code : Nat} {data : List Nat} (h : Canonical s) : Lands (s.pldm type cmd code data) := .ite (.next h) (.next h)

theorem Lands.pldmFree {type cmd n : Nat} (h : Canonical s) : Lands (s.pldmFree type cmd n) := .ite (.pldm h) (.next h)

theorem Lands.gettid (h : Canonical s) : Lands (execGettid s) := .pldmFree h

theorem Lands.getpldmversion (h : Canonical s) : Lands (execGetpldmversion s) := .pldmFree h

theorem Lands.getpldmtypes (h : Canonical s) : Lands (execGetpldmtypes s) := .pldm h

theorem Lands.getpldmcommands (h : Canonical s) : Lands (execGetpldmcommands s) := .pldm h

theorem Lands.getpdrrepositoryinfo (h : Canonical s) : Lands (execGetpdrrepositoryinfo s) := .pldmFree h

theorem Lands.getpdr {_record : Nat} (h : Canonical s) : Lands (execGetpdr _record s) := .pldmFree h

theorem Lands.getsensorreading {sensor : Nat} (h : Canonical s) : Lands (execGetsensorreading sensor s) := by
  unfold Machine.execGetsensorreading
  refine .ite (.pldmFree h) ?_
  split <;> exact .pldm h

theorem Lands.getstatesensorreadings {sensor : Nat} (h : Canonical s) : Lands (execGetstatesensorreadings sensor s) := by
  unfold Machine.execGetstatesensorreadings
  split <;> exact .pldm h

theorem Lands.seteventreceiver {addr : Byte} (h : Canonical s) : Lands (execSeteventreceiver addr s) := .ite (.pldm h.modGate) (.next h)

theorem Lands.getfrurecordtablemetadata (h : Canonical s) : Lands (execGetfrurecordtablemetadata s) := .pldmFree h

theorem Lands.getfrurecordtable (h : Canonical s) : Lands (execGetfrurecordtable s) := .pldm h

theorem Lands.unsupportedPldmCmd {type cmd : Byte} (h : Canonical s) : Lands (execUnsupportedPldmCmd type cmd s) := .pldm h

theorem Lands.i3cDynamicAddress {addr : BitVec 7} (h : Canonical s) : Lands (execI3cDynamicAddress addr s) := .ite (.next h.modGate) (.next h)

theorem Lands.mctpControl {cmd : Byte} (h : Canonical s) : Lands (execMctpControl cmd s) := .ite (.next h) (.next h)

/- BringUp. -/

theorem Canonical.setStage {n : Nat} (h : Canonical s) : Canonical (s.setStage n) := h.wrBits

theorem ImageCanonical.load {k : ImageType} {t : Fin 3} {okA okB : Bool} (h : ImageCanonical k) : ImageCanonical (k.load t okA okB) := h

theorem Lands.vauxUp {imageOk : List Bool} (h : Canonical s) : Lands (execVauxUp imageOk s) := by
  unfold Machine.execVauxUp
  refine .ite (.next h) ?_
  extract_lets ok load power s1
  have loaded : ∀ i : Fin 3, ImageCanonical (Vector.ofFn fun t => load s1.gatehouse.images[t] t)[i] :=
    forall_vector_ofFn fun i => (h.image (i := i)).load
  have h1 : Canonical s1 := h
  exact .next (h1.withGatehouse loaded).setStage

theorem Lands.vauxLoss (h : Canonical s) : Lands (execVauxLoss s) := by
  unfold Machine.execVauxLoss
  extract_lets off
  refine .next (.atReset ?_ ?_ ?_ ?_ ?_)
  · rfl
  · exact ⟨rfl, rfl, rfl, rfl, rfl, rfl⟩
  · exact forall_resetCores
  · exact forall_vector_map (fun i => h.image (i := i)) fun _ hk => hk
  · exact ⟨rfl, rfl, rfl, rfl⟩

theorem CoreCanonical.tested {o : SweepOutcome} {calOk : Bool} (h : CoreCanonical k) : CoreCanonical (k.tested o calOk) := by
  unfold Core.tested
  split
  · exact .ite h h
  · exact h
  · exact .ite h.moduleFence h
  · exact .ite h.moduleFence h

theorem Canonical.selfTest {b : BringUp} (h : Canonical s) : Canonical (s.selfTest b) := by
  unfold State.selfTest
  extract_lets outcome one s1 toll s2 chan
  have h1 : Canonical s1 := h.foldl fun _ _ hs => .ite hs (.ite (hs.setCore hs.core) (hs.setCore hs.core.tested).logFault)
  have h2 : Canonical s2 := Canonical.mapTolls (h1.foldl fun _ _ hs => .ite (.logFault (hs.modToll fun _ hk => hk)) hs)
  exact h2.foldl fun _ _ hs => .ite (.logChan (hs.modChan fun _ hk => hk)) hs

theorem Lands.railsEnable {mv : Nat} {b : BringUp} (h : Canonical s) : Lands (execRailsEnable mv b s) :=
  .ite (.next h) (.ite (.next h.wrBits.setStage.report) (.next (.wr (.selfTest (.setDuty (.modHearth h))))))

theorem Lands.perstRelease {strap : BitVec 2} {width rate : Nat} (h : Canonical s) : Lands (execPerstRelease strap width rate s) :=
  .ite (.next h) (.ite (.next h) (.next h))

theorem Lands.moduleReady {ms3 msP : Nat} (h : Canonical s) : Lands (execModuleReady ms3 msP s) := .ite (.next h.setStage.wrBits.wr) (.next h)

theorem Lands.perstAssert (h : Canonical s) : Lands (execPerstAssert s) :=
  .next (.ite (.setStage (.modGate (.ite (h.foldl fun _ _ hs => hs.resetFn) h))) (.modGate (.ite (h.foldl fun _ _ hs => hs.resetFn) h)))

theorem Canonical.tickCore (h : Canonical s) : Canonical (s.tickCore c) := by
  unfold State.tickCore
  refine .ite ?_ (.ite (h.modCore fun _ hk => hk.bump) h)
  dsimp only
  split
  · exact .modCtx (.modCore (.ite (h.modCore fun _ hk => hk.bump) h) fun _ hk => hk.bump)
  · exact .modCore (.ite (h.modCore fun _ hk => hk.bump) h) fun _ hk => hk.bump

theorem Canonical.tick (h : Canonical s) : Canonical s.tick := .ite h (.foldl (.ite (.bump h) h) fun _ _ hs => hs.tickCore)

end Sys2Proof.Safety
end

