-- ==== Sys2Proof/Proofs/Canonical/Steps.lean ====
section
/-! PROOF. The Steward's arithmetic, and with it every command and every step, keeps the canonical form (O56). -/

namespace Sys2Proof.Safety

open Sys2Proof.Machine

variable {α : Type} {s : State} {k : Core} {c : Fin 192} {x : Fin 64} {f : Fin 32} {e : Ecc}

/- Steward. -/

theorem Canonical.aluReg {f : Word → Word → Word} {i : SInstr} (h : Canonical s) : Canonical (aluReg c f i s) := h.stwWrite

theorem Canonical.aluImm {f : Word → Word → Word} {imm : SInstr → Word} {i : SInstr} (h : Canonical s) : Canonical (aluImm c f imm i s) :=
  h.stwWrite

theorem Canonical.stwBranch {p : Word → Word → Bool} {i : SInstr} (h : Canonical s) : Canonical (Machine.branch c p i s) :=
  .ite h.stwGoto h.stwNext

theorem Lands.add (h : Canonical s) : Lands (execAdd c e s) := .stewardStep (fun _ _ hs => hs.aluReg) h

theorem Lands.sub (h : Canonical s) : Lands (execSub c e s) := .stewardStep (fun _ _ hs => hs.aluReg) h

theorem Lands.and (h : Canonical s) : Lands (execAnd c e s) := .stewardStep (fun _ _ hs => hs.aluReg) h

theorem Lands.or (h : Canonical s) : Lands (execOr c e s) := .stewardStep (fun _ _ hs => hs.aluReg) h

theorem Lands.xor (h : Canonical s) : Lands (execXor c e s) := .stewardStep (fun _ _ hs => hs.aluReg) h

theorem Lands.shl (h : Canonical s) : Lands (execShl c e s) := .stewardStep (fun _ _ hs => hs.aluReg) h

theorem Lands.shr (h : Canonical s) : Lands (execShr c e s) := .stewardStep (fun _ _ hs => hs.aluReg) h

theorem Lands.sra (h : Canonical s) : Lands (execSra c e s) := .stewardStep (fun _ _ hs => hs.aluReg) h

theorem Lands.slt (h : Canonical s) : Lands (execSlt c e s) := .stewardStep (fun _ _ hs => hs.aluReg) h

theorem Lands.sltu (h : Canonical s) : Lands (execSltu c e s) := .stewardStep (fun _ _ hs => hs.aluReg) h

theorem Lands.mul (h : Canonical s) : Lands (execMul c e s) := .stewardStep (fun _ _ hs => hs.aluReg) h

theorem Lands.mulh (h : Canonical s) : Lands (execMulh c e s) := .stewardStep (fun _ _ hs => hs.aluReg) h

theorem Lands.div (h : Canonical s) : Lands (execDiv c e s) := .stewardStep (fun _ _ hs => hs.aluReg) h

theorem Lands.divu (h : Canonical s) : Lands (execDivu c e s) := .stewardStep (fun _ _ hs => hs.aluReg) h

theorem Lands.rem (h : Canonical s) : Lands (execRem c e s) := .stewardStep (fun _ _ hs => hs.aluReg) h

theorem Lands.remu (h : Canonical s) : Lands (execRemu c e s) := .stewardStep (fun _ _ hs => hs.aluReg) h

theorem Lands.addi (h : Canonical s) : Lands (execAddi c e s) := .stewardStep (fun _ _ hs => hs.aluImm) h

theorem Lands.andi (h : Canonical s) : Lands (execAndi c e s) := .stewardStep (fun _ _ hs => hs.aluImm) h

theorem Lands.ori (h : Canonical s) : Lands (execOri c e s) := .stewardStep (fun _ _ hs => hs.aluImm) h

theorem Lands.xori (h : Canonical s) : Lands (execXori c e s) := .stewardStep (fun _ _ hs => hs.aluImm) h

theorem Lands.shli (h : Canonical s) : Lands (execShli c e s) := .stewardStep (fun _ _ hs => hs.aluImm) h

theorem Lands.shri (h : Canonical s) : Lands (execShri c e s) := .stewardStep (fun _ _ hs => hs.aluImm) h

theorem Lands.srai (h : Canonical s) : Lands (execSrai c e s) := .stewardStep (fun _ _ hs => hs.aluImm) h

theorem Lands.lui (h : Canonical s) : Lands (execLui c e s) := .stewardStep (fun _ _ hs => hs.aluImm) h

theorem Lands.lw (h : Canonical s) : Lands (execLw c e s) := .stewardStep (fun _ _ hs => hs.stwLoad) h

theorem Lands.lh (h : Canonical s) : Lands (execLh c e s) := .stewardStep (fun _ _ hs => hs.stwLoad) h

theorem Lands.lhu (h : Canonical s) : Lands (execLhu c e s) := .stewardStep (fun _ _ hs => hs.stwLoad) h

theorem Lands.lb (h : Canonical s) : Lands (execLb c e s) := .stewardStep (fun _ _ hs => hs.stwLoad) h

theorem Lands.lbu (h : Canonical s) : Lands (execLbu c e s) := .stewardStep (fun _ _ hs => hs.stwLoad) h

theorem Lands.sw (h : Canonical s) : Lands (execSw c e s) := .stewardStep (fun _ _ hs => hs.stwStore) h

theorem Lands.sh (h : Canonical s) : Lands (execSh c e s) := .stewardStep (fun _ _ hs => hs.stwStore) h

theorem Lands.sb (h : Canonical s) : Lands (execSb c e s) := .stewardStep (fun _ _ hs => hs.stwStore) h

theorem Lands.lws (h : Canonical s) : Lands (execLws c e s) := by
  unfold Machine.execLws
  refine .stewardStep (fun _ s hs => ?_) h
  dsimp only
  split
  · exact hs.stwFault
  · exact (hs.modCore fun _ hk => hk.bump64).stwWrite

theorem Lands.sws (h : Canonical s) : Lands (execSws c e s) := by
  unfold Machine.execSws
  refine .stewardStep (fun _ s hs => ?_) h
  dsimp only
  split
  · exact hs.stwFault
  · exact hs.stwDone fun _ hk => hk.bump64.withSp fun hm => Memory.writeRun_wf hm _ _

theorem Lands.beq (h : Canonical s) : Lands (execBeq c e s) := .stewardStep (fun _ _ hs => hs.stwBranch) h

theorem Lands.bne (h : Canonical s) : Lands (execBne c e s) := .stewardStep (fun _ _ hs => hs.stwBranch) h

theorem Lands.blt (h : Canonical s) : Lands (execBlt c e s) := .stewardStep (fun _ _ hs => hs.stwBranch) h

theorem Lands.bge (h : Canonical s) : Lands (execBge c e s) := .stewardStep (fun _ _ hs => hs.stwBranch) h

theorem Lands.bltu (h : Canonical s) : Lands (execBltu c e s) := .stewardStep (fun _ _ hs => hs.stwBranch) h

theorem Lands.bgeu (h : Canonical s) : Lands (execBgeu c e s) := .stewardStep (fun _ _ hs => hs.stwBranch) h

theorem Canonical.jumpTo {d : BitVec 5} {t : Int} (h : Canonical s) : Canonical (jumpTo c d t s) :=
  .ite (h.modCore fun _ hk => hk.setG).stwGoto h.stwFault

theorem Lands.jal (h : Canonical s) : Lands (execJal c e s) := .stewardStep (fun _ _ hs => hs.jumpTo) h

theorem Lands.jalr (h : Canonical s) : Lands (execJalr c e s) := .stewardStep (fun _ _ hs => hs.jumpTo) h

/- StewardFp. -/

theorem CoreCanonical.raise {f : FFlags} (h : CoreCanonical k) : CoreCanonical (k.raise f) := h

theorem Canonical.fpDone {i : SInstr} {r : Nat × FFlags} (h : Canonical s) : Canonical (fpDone c i r s) := h.stwDone fun _ hk => hk.setG.raise

theorem Canonical.fpDonePair {i : SInstr} {r : Nat × FFlags} (h : Canonical s) : Canonical (fpDonePair c i r s) :=
  h.stwDone fun _ hk => hk.setPair.raise

theorem Canonical.fpS2 {f : Nat → Nat → Nat × FFlags} {i : SInstr} (h : Canonical s) : Canonical (fpS2 c f i s) := h.fpDone

theorem Canonical.fpS1 {f : Nat → Nat × FFlags} {i : SInstr} (h : Canonical s) : Canonical (fpS1 c f i s) := h.fpDone

theorem Canonical.fpD2 {f : Nat → Nat → Nat × FFlags} {i : SInstr} (h : Canonical s) : Canonical (fpD2 c f i s) := h.fpDonePair

theorem Canonical.fpDCmp {f : Nat → Nat → Nat × FFlags} {i : SInstr} (h : Canonical s) : Canonical (fpDCmp c f i s) := h.fpDone

theorem Lands.faddS (h : Canonical s) : Lands (execFaddS c e s) := .stewardStep (fun _ _ hs => hs.fpS2) h

theorem Lands.fsubS (h : Canonical s) : Lands (execFsubS c e s) := .stewardStep (fun _ _ hs => hs.fpS2) h

theorem Lands.fmulS (h : Canonical s) : Lands (execFmulS c e s) := .stewardStep (fun _ _ hs => hs.fpS2) h

theorem Lands.fdivS (h : Canonical s) : Lands (execFdivS c e s) := .stewardStep (fun _ _ hs => hs.fpS2) h

theorem Lands.fminS (h : Canonical s) : Lands (execFminS c e s) := .stewardStep (fun _ _ hs => hs.fpS2) h

theorem Lands.fmaxS (h : Canonical s) : Lands (execFmaxS c e s) := .stewardStep (fun _ _ hs => hs.fpS2) h

theorem Lands.feqS (h : Canonical s) : Lands (execFeqS c e s) := .stewardStep (fun _ _ hs => hs.fpS2) h

theorem Lands.fltS (h : Canonical s) : Lands (execFltS c e s) := .stewardStep (fun _ _ hs => hs.fpS2) h

theorem Lands.fleS (h : Canonical s) : Lands (execFleS c e s) := .stewardStep (fun _ _ hs => hs.fpS2) h

theorem Lands.faddD (h : Canonical s) : Lands (execFaddD c e s) := .stewardStep (fun _ _ hs => hs.fpD2) h

theorem Lands.fsubD (h : Canonical s) : Lands (execFsubD c e s) := .stewardStep (fun _ _ hs => hs.fpD2) h

theorem Lands.fmulD (h : Canonical s) : Lands (execFmulD c e s) := .stewardStep (fun _ _ hs => hs.fpD2) h

theorem Lands.fdivD (h : Canonical s) : Lands (execFdivD c e s) := .stewardStep (fun _ _ hs => hs.fpD2) h

theorem Lands.fminD (h : Canonical s) : Lands (execFminD c e s) := .stewardStep (fun _ _ hs => hs.fpD2) h

theorem Lands.fmaxD (h : Canonical s) : Lands (execFmaxD c e s) := .stewardStep (fun _ _ hs => hs.fpD2) h

theorem Lands.feqD (h : Canonical s) : Lands (execFeqD c e s) := .stewardStep (fun _ _ hs => hs.fpDCmp) h

theorem Lands.fltD (h : Canonical s) : Lands (execFltD c e s) := .stewardStep (fun _ _ hs => hs.fpDCmp) h

theorem Lands.fleD (h : Canonical s) : Lands (execFleD c e s) := .stewardStep (fun _ _ hs => hs.fpDCmp) h

theorem Lands.fsqrtS (h : Canonical s) : Lands (execFsqrtS c e s) := .stewardStep (fun _ _ hs => hs.fpS1) h

theorem Lands.fsqrtD (h : Canonical s) : Lands (execFsqrtD c e s) := .stewardStep (fun _ _ hs => hs.fpDonePair) h

theorem Lands.fcvtSW (h : Canonical s) : Lands (execFcvtSW c e s) := .stewardStep (fun _ _ hs => hs.fpS1) h

theorem Lands.fcvtWS (h : Canonical s) : Lands (execFcvtWS c e s) := .stewardStep (fun _ _ hs => hs.fpS1) h

theorem Lands.fcvtDW (h : Canonical s) : Lands (execFcvtDW c e s) := .stewardStep (fun _ _ hs => hs.fpDonePair) h

theorem Lands.fcvtWD (h : Canonical s) : Lands (execFcvtWD c e s) := .stewardStep (fun _ _ hs => hs.fpDone) h

theorem Lands.fmaS (h : Canonical s) : Lands (execFmaS c e s) := .stewardStep (fun _ _ hs => hs.fpDone) h

theorem Lands.fmaD (h : Canonical s) : Lands (execFmaD c e s) := .stewardStep (fun _ _ hs => hs.fpDonePair) h

theorem Lands.fcvtDS (h : Canonical s) : Lands (execFcvtDS c e s) := .stewardStep (fun _ _ hs => hs.fpDonePair) h

theorem Lands.fcvtSD (h : Canonical s) : Lands (execFcvtSD c e s) := .stewardStep (fun _ _ hs => hs.fpDone) h

/- Dispatch. -/

theorem Lands.exec {i : Instr} (h : Canonical s) : Lands (exec i s) := by
  unfold Machine.exec
  split
  · exact .add h
  · exact .sub h
  · exact .and h
  · exact .or h
  · exact .xor h
  · exact .shl h
  · exact .shr h
  · exact .sra h
  · exact .slt h
  · exact .sltu h
  · exact .mul h
  · exact .mulh h
  · exact .div h
  · exact .divu h
  · exact .rem h
  · exact .remu h
  · exact .addi h
  · exact .andi h
  · exact .ori h
  · exact .xori h
  · exact .shli h
  · exact .shri h
  · exact .srai h
  · exact .lui h
  · exact .lw h
  · exact .lh h
  · exact .lhu h
  · exact .lb h
  · exact .lbu h
  · exact .sw h
  · exact .sh h
  · exact .sb h
  · exact .lws h
  · exact .sws h
  · exact .beq h
  · exact .bne h
  · exact .blt h
  · exact .bge h
  · exact .bltu h
  · exact .bgeu h
  · exact .jal h
  · exact .jalr h
  · exact .faddS h
  · exact .fsubS h
  · exact .fmulS h
  · exact .fdivS h
  · exact .fsqrtS h
  · exact .fminS h
  · exact .fmaxS h
  · exact .feqS h
  · exact .fltS h
  · exact .fleS h
  · exact .fcvtSW h
  · exact .fcvtWS h
  · exact .fmaS h
  · exact .faddD h
  · exact .fsubD h
  · exact .fmulD h
  · exact .fdivD h
  · exact .fsqrtD h
  · exact .fminD h
  · exact .fmaxD h
  · exact .feqD h
  · exact .fltD h
  · exact .fleD h
  · exact .fcvtDW h
  · exact .fcvtWD h
  · exact .fmaD h
  · exact .fcvtDS h
  · exact .fcvtSD h
  · exact .fld h
  · exact .farm h
  · exact .fstat h
  · exact .frd h
  · exact .pwr h
  · exact .prd h
  · exact .mskw h
  · exact .wait h
  · exact .csrr h
  · exact .csrw h
  · exact .halt h
  · exact .imemFlipRequest h
  · exact .imemFlipTaken h
  · exact .stewardStart h
  · exact .stewardStop h
  · exact .pick h
  · exact .instanceEnd h
  · exact .instanceCancel h
  · exact .nop h
  · exact .opx h
  · exact .opxComplete h
  · exact .caravanSlotCheck h
  · exact .skewLimitExpiry h
  · exact .red h
  · exact .redComplete h
  · exact .ewl h
  · exact .ewlComplete h
  · exact .tload h
  · exact .swp h
  · exact .accld h
  · exact .accldComplete h
  · exact .drn h
  · exact .drnComplete h
  · exact .ldt h
  · exact .ldtComplete h
  · exact .stt h
  · exact .sttComplete h
  · exact .acw h
  · exact .acwComplete h
  · exact .xmt h
  · exact .xmtComplete h
  · exact .bqp h
  · exact .bqpAccept h
  · exact .bqt h
  · exact .bqtTake h
  · exact .wct h
  · exact .wctCountMet h
  · exact .wctTimeout h
  · exact .pset h
  · exact .psetCounter h
  · exact .fence h
  · exact .fenceRelease h
  · exact .caravanTileArrive h
  · exact .caravanForward h
  · exact .resume h
  · exact .flush h
  · exact .unbind h
  · exact .mbAbort h
  · exact .stashRelease h
  · exact .admitMb h
  · exact .stepOpen h
  · exact .stepBoundary h
  · exact .snapshotStopEnd h
  · exact .snapshotDrainComplete h
  · exact .refetchComplete h
  · exact .wcEntryTimeout h
  · exact .channelPick h
  · exact .regionCloseEffect h
  · exact .marginScan h
  · exact .retrain h
  · exact .channelServiceComplete h
  · exact .bar4Read h
  · exact .bar4Write h
  · exact .portTrain h
  · exact .portTrainDone h
  · exact .neighborIdAnnounce h
  · exact .selfIdWrite h
  · exact .flitReceive h
  · exact .flitAckTimer h
  · exact .neighborSilent h
  · exact .portRetrain h
  · exact .portOutOfService h
  · exact .portReturnToService h
  · exact .packetRoute h
  · exact .write h
  · exact .readReq h
  · exact .readResp h
  · exact .completion h
  · exact .packetTimeout h
  · exact .vcStallEvent h
  · exact .beginLoad h
  · exact .loadDone h
  · exact .flip h
  · exact .retire h
  · exact .forceRetire h
  · exact .abandonLoad h
  · exact .tableEntryStore h
  · exact .fenceUpdate h
  · exact .tollTileComplete h
  · exact .lossWaitExpiry h
  · exact .arriveLimitExpiry h
  · exact .tollApplyStart h
  · exact .tollApplyEnd h
  · exact .doorbell h
  · exact .descriptorFetch h
  · exact .descNop h
  · exact .step h
  · exact .microbatch h
  · exact .decode h
  · exact .decodeDeadline h
  · exact .copy h
  · exact .imemLoad h
  · exact .dmemLoad h
  · exact .regionOpen h
  · exact .regionClose h
  · exact .regionFlush h
  · exact .windowOpen h
  · exact .windowClose h
  · exact .tableLoad h
  · exact .streamSet h
  · exact .streamClear h
  · exact .streamArm h
  · exact .streamTransferComplete h
  · exact .completionRecordWrite h
  · exact .cqHeadRelease h
  · exact .interruptCoalTimer h
  · exact .ringEnable h
  · exact .hostPieceServe h
  · exact .mailboxDoorbell h
  · exact .evtHeadWrite h
  · exact .ctxOpen h
  · exact .ctxClose h
  · exact .ctxReclaim h
  · exact .ctxResume h
  · exact .mbCancel h
  · exact .decodeCfg h
  · exact .leaseBeat h
  · exact .leaseWarning h
  · exact .leaseExpiry h
  · exact .rearm h
  · exact .functionLevelReset h
  · exact .planPublish h
  · exact .hearthTick h
  · exact .valveTick h
  · exact .flowLow h
  · exact .flowLost h
  · exact .inletHigh h
  · exact .throttleAssert h
  · exact .throttleDeassert h
  · exact .thrStuck h
  · exact .pinGlitch h
  · exact .chatterEval h
  · exact .leakAssert h
  · exact .leak h
  · exact .overTemperature h
  · exact .persistentOverTemperature h
  · exact .vmainLow h
  · exact .vmainCollapse h
  · exact .vmainHigh h
  · exact .inputOverPower h
  · exact .islandOverCurrent h
  · exact .sequencerSilent h
  · exact .emergencyRelease h
  · exact .telemetryWindow h
  · exact .coreRemap h
  · exact .lanternCmd h
  · exact .lanternSweepStart h
  · exact .lanternSweepEnd h
  · exact .paceCal h
  · exact .paceCalEnd h
  · exact .snapNow h
  · exact .restore h
  · exact .restoreComplete h
  · exact .accept h
  · exact .taint h
  · exact .regRead h
  · exact .regWrite h
  · exact .imageBegin h
  · exact .imageData h
  · exact .imageVerify h
  · exact .imageActivate h
  · exact .deferredActivationStart h
  · exact .handoffReady h
  · exact .handoffTimeout h
  · exact .imageCommit h
  · exact .imageAbandon h
  · exact .collectorSet h
  · exact .emergencyClear h
  · exact .anchorAdd h
  · exact .anchorRemove h
  · exact .ownershipClear h
  · exact .reportAck h
  · exact .reportResend h
  · exact .getMeasurements h
  · exact .gettid h
  · exact .getpldmversion h
  · exact .getpldmtypes h
  · exact .getpldmcommands h
  · exact .getpdrrepositoryinfo h
  · exact .getpdr h
  · exact .getsensorreading h
  · exact .getstatesensorreadings h
  · exact .seteventreceiver h
  · exact .getfrurecordtablemetadata h
  · exact .getfrurecordtable h
  · exact .unsupportedPldmCmd h
  · exact .i3cDynamicAddress h
  · exact .vauxUp h
  · exact .vauxLoss h
  · exact .railsEnable h
  · exact .perstRelease h
  · exact .moduleReady h
  · exact .perstAssert h
  · exact .registerWrite h
  · exact .registerReadLoLatch h
  · exact .leakDeassert h
  · exact .guardUsExpiry h
  · exact .keyExchange h
  · exact .endSession h
  · exact .ideKm h
  · exact .ideIntegrityFailure h
  · exact .mctpControl h

/- Step. -/

/-- Settles O56: each command, and a tick where none waits, updates every unit and table through an operation that keeps its form. -/
theorem canonicalKept : Obligations.CanonicalKept := by
  intro s t h stepped
  unfold Machine.step at stepped
  split at stepped
  next i rest _ =>
    have exec : Lands (exec i { s with pending := rest }) := .exec h
    exact exec t stepped
  · cases stepped
    exact h.tick

end Sys2Proof.Safety
end

section
/-! PROOF. How a tile command comes to issue and how it ends: the rules that the statements on tile commands share. -/

namespace Sys2Proof.Machine

open Sys2Proof.Safety

/- Registers: a write leaves every other key alone, canonical or not. -/

theorem SMap.get_set_ne {α : Type} [DecidableEq α] (d : Nat → α) (m : SMap α) (v : α) {k a : Nat} (h : a ≠ k) :
    SMap.get d (SMap.set d m k v) a = SMap.get d m a := by
  induction m with
  | nil => unfold SMap.set; split <;> simp [SMap.get_cons, h.symm]
  | cons e m ih =>
    obtain ⟨k', v'⟩ := e
    unfold SMap.set
    split
    · split
      · rfl
      · rw [SMap.get_cons, if_neg h.symm]
    · split
      · subst k'
        rw [SMap.get_cons _ _ v', if_neg h.symm]
        split
        · rfl
        · rw [SMap.get_cons, if_neg h.symm]
      · rw [SMap.get_cons, SMap.get_cons, ih]

theorem Core.rd_bump_ne (k : Core) (n : Nat) {off o : Nat} (h : o ≠ off) : (k.bump off n).rd o = k.rd o :=
  congrArg BitVec.toNat (SMap.get_set_ne _ _ _ h)

/- Cores: one after an update of another, or of itself. -/

@[simp] theorem State.core_modCore_same (s : State) (c : Fin 192) (g : Core → Core) : (s.modCore c g).core c = g (s.core c) :=
  State.core_setCore ..

theorem State.core_modCore_other (s : State) {c r : Fin 192} (g : Core → Core) (h : r ≠ c) : (s.modCore c g).core r = s.core r :=
  State.core_setCore_ne _ _ _ h.symm

/-- What an update keeps of a core, whichever core it updates. -/
theorem State.core_modCore_keeps {α : Type} {p : Core → α} {g : Core → Core} (h : ∀ k, p (g k) = p k) (s : State) (c r : Fin 192) :
    p ((s.modCore c g).core r) = p (s.core r) := by
  by_cases e : r = c
  · subst e; rw [State.core_modCore_same, h]
  · rw [State.core_modCore_other _ _ e]

/-- The row answers a state that differs from `s` in core `c` alone, of which `p` holds. -/
def GivesCore (r : Instr) (s : State) (c : Fin 192) (p : Core → Prop) : Prop :=
  ∃ t, exec r s = .next t ∧ t = s.setCore c (t.core c) ∧ p (t.core c)

theorem GivesCore.of_eq {r : Instr} {s : State} {c : Fin 192} {p : Core → Prop} {k : Core} (h : exec r s = .next (s.setCore c k)) (hp : p k) :
    GivesCore r s c p := ⟨_, h, by simp, by simpa⟩

/- Slots: what a slot holds after an update. -/

theorem Core.slot_modSlot (k : Core) (i : Fin 8) (g : Slot → Slot) : (k.modSlot i g).slot i = g (k.slot i) := Core.slot_setSlot ..

theorem Core.inst_modInst {k : Core} {i : Fin 8} {n : Inst} (h : (k.slot i).inst = some n) (g : Inst → Inst) :
    ((k.modInst i g).slot i).inst = some (g n) := by
  rw [Core.modInst, Core.slot_modSlot, h]; rfl

/- The end of a command (R131, R148): registers and slots tell how. -/

theorem Core.wr_foldl_shape (more : List (Nat × Nat)) (k : Core) : ∃ regs, more.foldl (fun k m => k.wr m.1 m.2) k = { k with regs := regs } := by
  induction more generalizing k with
  | nil => exact ⟨k.regs, rfl⟩
  | cons m more ih => obtain ⟨regs, e⟩ := ih (k.wr m.1 m.2); exact ⟨regs, e⟩

/-- A status register and those recorded with it are registers only. -/
theorem Core.recordW1C_shape (k : Core) (off lo v : Nat) (more : List (Nat × Nat)) : ∃ regs, k.recordW1C off lo v more = { k with regs := regs } := by
  unfold Core.recordW1C
  split
  · exact ⟨_, rfl⟩
  · exact (Core.wr_foldl_shape more (k.wr off (v + 1))).imp fun _ e => e

/-- A failing status is recorded, and it is the one that its slot reports unless an earlier command failed. -/
theorem Core.cmdEnded_failed (k : Core) (slot : Fin 8) (seq opcode : Nat) (atIssue : Bool) {st : Byte} (ok : st ≠ stOk) (part : st ≠ stPartial) :
    ∃ regs, k.cmdEnded slot seq opcode atIssue st = ({ k with regs := regs }).failInst slot st := by
  unfold Core.cmdEnded
  rw [if_neg ok, if_neg part]
  exact (k.recordW1C_shape _ _ _ _).imp fun _ e => congrArg (fun k => Core.failInst k slot st) e

theorem Core.cmdEnded_shape (k : Core) (slot : Fin 8) (seq opcode : Nat) (atIssue : Bool) (st : Byte) :
    ∃ regs slots, k.cmdEnded slot seq opcode atIssue st = { k with regs := regs, slots := slots } := by
  by_cases ok : st = stOk
  · exact ⟨k.regs, k.slots, if_pos ok⟩
  · by_cases part : st = stPartial
    · exact ⟨k.regs, _, (if_neg ok).trans (if_pos part)⟩
    · obtain ⟨regs, e⟩ := k.cmdEnded_failed slot seq opcode atIssue ok part
      exact ⟨regs, _, e⟩

/- Decoding: the row that a command's words name (R127). -/

/-- The row of a command, by its fields: PSET MODE 1 and TLOAD have rows of their own. -/
def rowOfArgs : TileArgs → Nat
  | .psetCounter .. => 0x121
  | .ewl _ _ _ op .. => if op = 63 then 0x103 else 0x03
  | a => a.opcode

theorem opcodeDefined_of_tileArgsOf {w0 h w1 w2 w3 : Nat} {a : TileArgs} (ha : tileArgsOf (w0 % 2 ^ 8) h w1 w2 w3 = some a) :
    opcodeDefined w0 = true := by
  unfold opcodeDefined
  unfold tileArgsOf at ha ⊢
  dsimp only at ha ⊢
  split at ha <;> simp_all [bitOf]

theorem bitsOf_eq_63 (w1 : Nat) : bitsOf w1 29 24 = 63 ↔ BitVec.ofNat 6 (w1 / 2 ^ 24) = 63 := by
  rw [← BitVec.toNat_inj]; simp [bitsOf]

theorem bitOf_high (w0 : Nat) : bitOf w0 16 = bitOf (w0 / 2 ^ 16) 0 := by simp [bitOf]

theorem rowCode_of_tileArgsOf {w0 w1 w2 w3 : Nat} {a : TileArgs} (ha : tileArgsOf (w0 % 2 ^ 8) (w0 / 2 ^ 16) w1 w2 w3 = some a) :
    rowCode w0 w1 = rowOfArgs a := by
  simp only [rowCode, bitsOf_eq_63, bitOf_high, show (256 : Nat) = 2 ^ 8 from rfl]
  generalize w0 % 2 ^ 8 = op at ha ⊢
  unfold tileArgsOf at ha
  dsimp only at ha
  split at ha
  case h_15 => -- PSET, whose MODE picks the row
    split at ha <;> cases ha <;> simp_all [rowOfArgs, TileArgs.opcode]
  all_goals cases ha
  all_goals simp [rowOfArgs, TileArgs.opcode]

/-- A command's words name its own row. -/
theorem rowCode_of_decodeTile {w0 w1 w2 w3 : Nat} {cmd : TileCmd} (h : decodeTile w0 w1 w2 w3 = some cmd) :
    opcodeDefined w0 = true ∧ rowCode w0 w1 = rowOfArgs cmd.args := by
  unfold decodeTile at h
  split at h
  · cases h
  next a ha =>
    dsimp only at h
    split at h
    · cases h; exact ⟨opcodeDefined_of_tileArgsOf ha, rowCode_of_tileArgsOf ha⟩
    · cases h

/- Issue (R127, R128, R145): the scoreboard stall is counted in a register that no check reads. -/

section
variable {s : State} {c : Fin 192} {i : Fin 8} {n : Inst} {f : Frame} {cmd : TileCmd} {stall : Nat}

/-- The state in which an issuing command takes its checks 4 and 5: its scoreboard stall is counted. -/
def State.stalled (s : State) (c : Fin 192) (stall : Nat) : State := s.setCore c ((s.core c).bump 0x20444 stall)

@[simp] theorem State.core_stalled (s : State) (c : Fin 192) (stall : Nat) : (s.stalled c stall).core c = (s.core c).bump 0x20444 stall :=
  State.core_setCore ..

/-- Any core is as it was, but for that register. -/
theorem State.core_stalled_cases (s : State) (c : Fin 192) (stall : Nat) (d : Fin 192) :
    (s.stalled c stall).core d = s.core d ∨ (s.stalled c stall).core d = (s.core d).bump 0x20444 stall := by
  by_cases h : c = d
  · subst h; exact .inr (s.core_stalled c stall)
  · exact .inl (State.core_setCore_ne _ _ _ h)

theorem State.fillRegion_stalled (d : Fin 192) : (s.stalled c stall).fillRegion d = s.fillRegion d := by
  unfold State.fillRegion
  obtain h | h := s.core_stalled_cases c stall d <;> rw [h]
  · rfl
  · rw [Core.rd_bump_ne _ _ (by decide)]; rfl

theorem State.usesOk_stalled (us : List BUse) : (s.stalled c stall).usesOk c f us = s.usesOk c f us := by
  simp only [State.usesOk, State.core_stalled, State.fillRegion_stalled]; rfl

theorem State.endpoint_stalled (ep : Nat) : (s.stalled c stall).endpoint ep = s.endpoint ep := by
  unfold State.endpoint
  split
  · rfl
  next d _ => obtain h | h := s.core_stalled_cases c stall d <;> rw [h]; rfl

theorem State.bqCfg_stalled (d : Fin 192) (e : Fin 16) : ((s.stalled c stall).core d).bqCfg e = (s.core d).bqCfg e := by
  obtain h | h := s.core_stalled_cases c stall d <;> rw [h]
  exact Core.rd_bump_ne _ _ (by omega)

theorem State.endpointStatus_stalled (filler : Bool) (ep : Nat) :
    (s.stalled c stall).endpointStatus c filler ep = s.endpointStatus c filler ep := by
  unfold State.endpointStatus
  rw [State.endpoint_stalled]
  split
  · rfl
  next d e _ =>
    simp only [State.bqCfg_stalled, State.fillRegion_stalled, Core.slotsEntry, State.core_stalled]
    obtain h | h := s.core_stalled_cases c stall d <;> rw [h] <;> rfl

/-- Billets that are ready pass checks 4 and 5, and the command goes on with the entries read. -/
theorem State.withBillets_ready {a : TileArgs} {us : List BUse} (h : BilletsReady c f a us s) {extra : Bool} (he : extra = true)
    (go : List BEntry → Verdict) : (s.stalled c stall).withBillets c f a us extra go = go (us.map fun u => (s.core c).entry u.num) := by
  obtain ⟨uses, poison, clear⟩ := h
  have readPoison : ((s.core c).bump 0x20444 stall).readPoison us = none := poison
  have entry (m : Nat) : ((s.core c).bump 0x20444 stall).entry m = (s.core c).entry m := rfl
  have scoreboard (rs : List Range) : ((s.core c).bump 0x20444 stall).scoreboardClear rs = (s.core c).scoreboardClear rs := rfl
  simp [State.withBillets, State.usesOk_stalled, uses, he, readPoison, entry, scoreboard, clear]

/-- A command whose checks pass issues as its body says. -/
theorem issueStep_run {code : Nat} {accept : Core → Bool} {ok1 : Frame → TileArgs → Bool} {ok2 : Frame → TileCmd → Core → Bool}
    {body : Frame → Inst → TileCmd → State → Verdict} {t : State} (h : Issues c i n f cmd s) (row : rowOfArgs cmd.args = code)
    (accepts : accept (s.core c) = true) (h1 : ok1 f cmd.args = true) (h2 : ok2 f cmd (s.core c) = true)
    (hb : body f n cmd (s.stalled c stall) = .run t) :
    issueStep c i stall code accept ok1 ok2 body s = .next (t.modCore c fun k => k.advance i) := by
  obtain ⟨⟨inst, frame, running, held, failed, more, decodes⟩, predicate⟩ := h
  obtain ⟨defined, rowCode⟩ := rowCode_of_decodeTile decodes
  rw [row] at rowCode
  change body f n cmd (s.modCore c fun k => k.bump 0x20444 stall) = _ at hb
  simp [issueStep, inst, frame, running, held, failed, more, defined, rowCode, accepts, decodes, h1, h2, predicate, hb]

end

end Sys2Proof.Machine
end

section
/-! PROOF. What array commands do as they start on engines that stand idle (O15). -/

namespace Sys2Proof.Machine

open Sys2Proof.Safety

section
variable {s t : State} {c : Fin 192} {j j' : Job} {fuel : Nat}

/- The engines (R128): an empty queue, a running head, and a head that starts alone. -/

theorem Core.drainFree_idle {k : Core} {shadow : Bool} (h : (if shadow then k.arrayQ else k.shadowQ) = []) : k.drainFree shadow j = true := by
  cases shadow <;> simp_all [Core.drainFree]

theorem State.startArray_empty (h : (s.core c).arrayQ = []) : s.startArray fuel c = s := by
  cases fuel <;> simp [State.startArray, h]

theorem State.startShadow_empty (h : (s.core c).shadowQ = []) : s.startShadow fuel c = s := by
  cases fuel <;> simp [State.startShadow, h]

theorem State.startShadow_running (h : (s.core c).shadowQ = [j]) (hj : j.started = true) : s.startShadow fuel c = s := by
  cases fuel <;> simp [State.startShadow, h, hj]

/- A job that joins engines that stand idle stands alone. -/

/-- The core with the job alone on the shadow path, or on the array engine. -/
def Core.alone (k : Core) (shadow : Bool) (j : Job) : Core := if shadow then { k with shadowQ := [j] } else { k with arrayQ := [j] }

@[simp] theorem Core.alone_true_shadowQ (k : Core) (j : Job) : (k.alone true j).shadowQ = [j] := rfl
@[simp] theorem Core.alone_true_arrayQ (k : Core) (j : Job) : (k.alone true j).arrayQ = k.arrayQ := rfl
@[simp] theorem Core.alone_false_arrayQ (k : Core) (j : Job) : (k.alone false j).arrayQ = [j] := rfl
@[simp] theorem Core.alone_false_shadowQ (k : Core) (j : Job) : (k.alone false j).shadowQ = k.shadowQ := rfl

theorem State.startArray_runs (h : (s.core c).arrayQ = [j]) (idle : (s.core c).shadowQ = []) (hj : j.started = false)
    (start : s.startJob c j = .runs t j') : s.startArray (fuel + 1) c = t.modCore c fun k => k.alone false j' := by
  have free : (s.core c).drainFree false j = true := Core.drainFree_idle idle
  simp [State.startArray, h, hj, free, start, Core.alone]

theorem State.startArray_ended (h : (s.core c).arrayQ = [j]) (idle : (s.core c).shadowQ = []) (hj : j.started = false)
    (start : s.startJob c j = .ended t) : s.startArray (fuel + 1) c = t.modCore c fun k => { k with arrayQ := [] } := by
  have free : (s.core c).drainFree false j = true := Core.drainFree_idle idle
  simp [State.startArray, h, hj, free, start, State.startArray_empty, State.modCore_eq]

theorem State.startShadow_runs (h : (s.core c).shadowQ = [j]) (idle : (s.core c).arrayQ = []) (hj : j.started = false)
    (start : s.startJob c j = .runs t j') : s.startShadow (fuel + 1) c = t.modCore c fun k => k.alone true j' := by
  have free : (s.core c).drainFree true j = true := Core.drainFree_idle idle
  simp [State.startShadow, h, hj, free, start, Core.alone]

/-- The shadow path starts, then the array engine, then the shadow path again. -/
theorem State.startEngines_eq {s1 s2 : State} (first : ∀ n, s.startShadow (n + 1) c = s1) (array : ∀ n, s1.startArray (n + 1) c = s2)
    (last : ∀ n, s2.startShadow (n + 1) c = t) : s.startEngines c = t := by
  unfold State.startEngines
  dsimp only
  rw [first, array, last]

theorem State.pushJob_alone (array : (s.core c).arrayQ = []) (shadow : (s.core c).shadowQ = []) (sh : Bool) :
    s.pushJob c sh j = (s.setCore c ((s.core c).alone sh j)).startEngines c := by
  cases sh <;> simp [State.pushJob, State.modCore_eq, Core.alone, array, shadow]

/-- A job that runs from its start on stands alone on its engine. -/
theorem State.pushJob_runs {sh : Bool} {q : Core} (array : (s.core c).arrayQ = []) (shadow : (s.core c).shadowQ = [])
    (hj : j.started = false) (hj' : j'.started = true)
    (start : (s.setCore c ((s.core c).alone sh j)).startJob c j = .runs (s.setCore c q) j')
    (others : (if sh then q.arrayQ else q.shadowQ) = []) : s.pushJob c sh j = s.setCore c (q.alone sh j') := by
  have left : (s.setCore c q).modCore c (fun k => k.alone sh j') = s.setCore c (q.alone sh j') := by simp [State.modCore_eq]
  rw [State.pushJob_alone array shadow, ← left]
  cases sh with
  | true =>
    exact State.startEngines_eq (fun _ => State.startShadow_runs (by simp) (by simpa) hj start)
      (fun _ => State.startArray_empty (by simpa [State.modCore_eq] using others))
      (fun _ => State.startShadow_running (j := j') (by simp [State.modCore_eq]) hj')
  | false =>
    exact State.startEngines_eq (fun _ => State.startShadow_empty (by simpa))
      (fun _ => State.startArray_runs (by simp) (by simpa) hj start)
      (fun _ => State.startShadow_empty (by simpa [State.modCore_eq] using others))

/-- A job that ends at its start leaves the array engine idle again. -/
theorem State.pushJob_ended (array : (s.core c).arrayQ = []) (shadow : (s.core c).shadowQ = []) (hj : j.started = false)
    (start : (s.setCore c ((s.core c).alone false j)).startJob c j = .ended t) (others : (t.core c).shadowQ = []) :
    s.pushJob c false j = t.modCore c fun k => { k with arrayQ := [] } := by
  rw [State.pushJob_alone array shadow]
  exact State.startEngines_eq (fun _ => State.startShadow_empty (by simpa)) (fun _ => State.startArray_ended (by simp) (by simpa) hj start)
    (fun _ => State.startShadow_empty (by simpa [State.modCore_eq] using others))

end

/- What starting does, command by command (R36, R67, R77, R154, R156). -/

section
variable {s : State} {c : Fin 192} {j : Job} {f : Frame}

theorem State.startJob_opx {a b : BitVec 8} {kk : BitVec 24} {m : BitVec 4} {bl : Bool} {tag first stride : BitVec 16}
    (frame : (s.core c).frame j.slot = some f) (args : j.cmd.args = .opx a b kk m bl tag first stride) (billet : f.bCaravan = false)
    (red : (s.core c).live.red = none) :
    let bits := (s.core c).mask[m.toNat]'m.isLt
    s.startJob c j = .runs (s.modCore c fun k => k.condMaskEmpty j.slot (MaskSel.none ⟨bits, bl⟩)) { j with started := true, mask := bits } := by
  simp [State.startJob, State.startOk, frame, args, billet, red]

theorem State.startJob_swp_rowPath {tag : BitVec 8} (frame : (s.core c).frame j.slot = some f) (args : j.cmd.args = .swp tag)
    (row : f.rowPath = true) : s.startJob c j = .ended (s.modCore c fun k => k.beats 1) := by
  simp [State.startJob, State.startOk, frame, args, row]

/- Outside the row-broadcast path an SWP does what its check says (R36, R38). -/

theorem State.startJob_swp_proceed {tag : BitVec 8} (frame : (s.core c).frame j.slot = some f) (args : j.cmd.args = .swp tag)
    (row : f.rowPath = false) (check : (s.core c).swpCheck f.tolerant tag = .proceed) :
    s.startJob c j = .ended (s.modCore c fun k => k.swap.beats 1) := by
  simp [State.startJob, State.startOk, frame, args, row, check]

theorem State.startJob_swp_wait {tag : BitVec 8} (frame : (s.core c).frame j.slot = some f) (args : j.cmd.args = .swp tag)
    (row : f.rowPath = false) (check : (s.core c).swpCheck f.tolerant tag = .wait) :
    s.startJob c j = .runs s { j with started := true, waiting := true } := by
  simp [State.startJob, State.startOk, frame, args, row, check]

theorem State.startJob_swp_fail {tag : BitVec 8} {wrong : Bool} {found : Nat} (frame : (s.core c).frame j.slot = some f)
    (args : j.cmd.args = .swp tag) (row : f.rowPath = false) (check : (s.core c).swpCheck f.tolerant tag = .fail wrong found) :
    s.startJob c j = .ended (s.swpFail c j f.tolerant wrong tag found) := by
  simp [State.startJob, State.startOk, frame, args, row, check]

theorem State.startJob_accld {sr : BitVec 8} {live z : Bool} {fm : BitVec 5} {sc : BitVec 2} {tag : BitVec 8}
    (frame : (s.core c).frame j.slot = some f) (args : j.cmd.args = .accld sr live z fm sc tag) :
    let l := usesLive f live
    s.startJob c j = .runs (s.modCore c fun k => k.putSet l { k.setOf l with tag := some tag, complete := false, red := none })
      { j with started := true } := by
  simp [State.startJob, State.startOk, frame, args]

theorem State.startJob_drn {d0 d1 : BitVec 8} {live cl : Bool} {lay : BitVec 2} {tag : BitVec 8} {key : BitVec 32}
    (frame : (s.core c).frame j.slot = some f) (args : j.cmd.args = .drn d0 d1 live cl lay tag key) (layout : lay ≠ 0)
    (red : ((s.core c).setOf (usesLive f live)).red = none) :
    let l := usesLive f live
    s.startJob c j = .runs (s.modCore c fun k => k.putSet l { k.setOf l with complete := false })
      { j with started := true, tol := (s.core c).rd 0x20204 } := by
  simp [State.startJob, State.startOk, frame, args, red]
  exact fun row => absurd row layout

end

/- The check of an SWP (R36, R38). -/

theorem Core.swpCheck_complete {k : Core} {tag : Byte} (h : k.shadow.tag = some tag) (complete : k.shadow.complete = true) (tolerant : Bool) :
    k.swpCheck tolerant tag = .proceed := by
  simp [Core.swpCheck, h, complete]

theorem Core.swpCheck_late {k : Core} {tag : Byte} (h : k.shadow.tag = some tag) (late : k.shadow.complete = false) :
    k.swpCheck true tag = .wait := by
  simp [Core.swpCheck, h, late]

theorem Core.swpCheck_wrongTag {k : Core} {tag : Byte} (h : k.shadow.tag ≠ some tag) (idle : k.shadowQ = []) (tolerant : Bool) :
    ∃ found, k.swpCheck tolerant tag = .fail true found := by
  simp [Core.swpCheck, h, idle]

/- The sets. -/

@[simp] theorem Core.setOf_putSet (k : Core) (l : Bool) (a : AccSet) : (k.putSet l a).setOf l = a := by
  cases l <;> rfl

@[simp] theorem Core.setOf_putSet_other (k : Core) (l : Bool) (a : AccSet) : (k.putSet l a).setOf (!l) = k.setOf (!l) := by
  cases l <;> rfl

/- From issue to start (R128): the core as the engine leaves it. -/

section
variable {s : State} {c : Fin 192} {i : Fin 8} {n : Inst} {f : Frame} {cmd : TileCmd} {stall code : Nat} {accept : Core → Bool}
  {ok1 : Frame → TileArgs → Bool} {ok2 : Frame → TileCmd → Core → Bool} {body : Frame → Inst → TileCmd → State → Verdict}

@[simp] theorem newJob_slot (i : Fin 8) (n : Inst) (cmd : TileCmd) (es : List BEntry) : (newJob i n cmd es).slot = i := rfl

/-- The core on which a job that has just joined an idle engine starts. -/
def Core.joined (k : Core) (stall : Nat) (shadow : Bool) (j : Job) : Core := (k.bump 0x20444 stall).alone shadow j

@[simp] theorem Core.joined_frame (k : Core) (shadow : Bool) (j : Job) (i : Fin 8) : (k.joined stall shadow j).frame i = k.frame i := by
  cases shadow <;> rfl

@[simp] theorem Core.joined_slot (k : Core) (shadow : Bool) (j : Job) (i : Fin 8) : (k.joined stall shadow j).slot i = k.slot i := by
  cases shadow <;> rfl

@[simp] theorem Core.joined_setOf (k : Core) (shadow : Bool) (j : Job) (l : Bool) : (k.joined stall shadow j).setOf l = k.setOf l := by
  cases shadow <;> rfl

theorem Core.joined_rd (k : Core) (shadow : Bool) (j : Job) {o : Nat} (h : o ≠ 0x20444) : (k.joined stall shadow j).rd o = k.rd o := by
  cases shadow <;> exact Core.rd_bump_ne _ _ h

/-- A command whose job runs from its start on: `g` is what the start does to the core, `j'` the running job. -/
theorem issueStep_joins {sh : Bool} {j j' : Job} {g : Core → Core} (h : Issues c i n f cmd s) (array : (s.core c).arrayQ = [])
    (shadow : (s.core c).shadowQ = []) (row : rowOfArgs cmd.args = code) (accepts : accept (s.core c) = true)
    (h1 : ok1 f cmd.args = true) (h2 : ok2 f cmd (s.core c) = true)
    (hb : body f n cmd (s.stalled c stall) = .run ((s.stalled c stall).pushJob c sh j)) (hj : j.started = false)
    (hj' : j'.started = true)
    (start : ∀ t : State, t.core c = (s.core c).joined stall sh j → t.startJob c j = .runs (t.modCore c g) j')
    (others : (if sh then (g ((s.core c).joined stall sh j)).arrayQ else (g ((s.core c).joined stall sh j)).shadowQ) = []) :
    issueStep c i stall code accept ok1 ok2 body s =
      .next (s.setCore c (((g ((s.core c).joined stall sh j)).alone sh j').advance i)) := by
  have pushed := State.pushJob_runs (s := s.stalled c stall) (q := g ((s.core c).joined stall sh j)) (j' := j')
    (by rw [State.core_stalled]; exact array) (by rw [State.core_stalled]; exact shadow) hj hj'
    (by simpa [State.modCore_eq, Core.joined] using
      start ((s.stalled c stall).setCore c (((s.stalled c stall).core c).alone sh j)) (by simp [Core.joined]))
    others
  rw [issueStep_run h row accepts h1 h2 (hb.trans (congrArg _ pushed))]
  simp [State.modCore_eq, State.stalled]

/-- A command whose job ends as it starts; `u` is what the start leaves. -/
theorem issueStep_ends {j : Job} {u : State} (h : Issues c i n f cmd s) (array : (s.core c).arrayQ = [])
    (shadow : (s.core c).shadowQ = []) (row : rowOfArgs cmd.args = code) (accepts : accept (s.core c) = true)
    (h1 : ok1 f cmd.args = true) (h2 : ok2 f cmd (s.core c) = true)
    (hb : body f n cmd (s.stalled c stall) = .run ((s.stalled c stall).pushJob c false j)) (hj : j.started = false)
    (start : (s.setCore c ((s.core c).joined stall false j)).startJob c j = .ended u) (others : (u.core c).shadowQ = []) :
    issueStep c i stall code accept ok1 ok2 body s = .next (u.modCore c fun k => { k with arrayQ := [] }.advance i) := by
  have pushed := State.pushJob_ended (s := s.stalled c stall) (j := j) (by rw [State.core_stalled]; exact array)
    (by rw [State.core_stalled]; exact shadow) hj (by simpa [State.stalled, Core.joined] using start) others
  rw [issueStep_run h row accepts h1 h2 (hb.trans (congrArg _ pushed))]
  simp [State.modCore_eq]

end

/- An SWP that fails (R41). -/

@[simp] theorem State.core_logFault (s : State) (e : LogEntry) (c : Fin 192) : (s.logFault e).core c = s.core c := by
  obtain ⟨_, _, _, _, h⟩ := s.logFault_shape e
  rw [h]; rfl

theorem State.core_recordSkew (s : State) (c : Fin 192) (caravan tolerant wrong : Bool) (expected found cmd : Nat) :
    ∃ regs, (s.recordSkew c caravan tolerant wrong expected found cmd).core c = { s.core c with regs := regs } := by
  unfold State.recordSkew
  simp only [State.core_logFault, State.modCore_eq, State.core_setCore]
  exact Core.recordW1C_shape ..

@[simp] theorem AccSet.taint_cells (a : AccSet) (st : Byte) : (a.taint st).cells = a.cells := by
  unfold AccSet.taint; split <;> rfl

/-- A failed SWP fails its slot with SCHEDULE_SKEW, sets POISONED there, and leaves the cells of both sets. -/
theorem State.core_swpFail (s : State) (c : Fin 192) (j : Job) (tolerant wrong : Bool) (tag : Byte) (found : Nat) {n : Inst}
    (inst : ((s.core c).slot j.slot).inst = some n) :
    let q := (s.swpFail c j tolerant wrong tag found).core c
    (q.slot j.slot).inst = some { n with poisoned := true, failed := some (n.failed.getD stSkew) } ∧
      q.live.cells = (s.core c).live.cells ∧ q.shadow.cells = (s.core c).shadow.cells ∧ q.shadowQ = (s.core c).shadowQ := by
  obtain ⟨regs, record⟩ := s.core_recordSkew c false tolerant wrong tag.toNat found j.seq
  let k : Core := { s.core c with regs := regs, live := (s.core c).live.taint stSkew, shadow := (s.core c).shadow.taint stSkew }
  obtain ⟨regs', ended⟩ := (k.condPoisoned j.slot).cmdEnded_failed j.slot j.seq 0x04 false (st := stSkew) (by decide) (by decide)
  have core : (s.swpFail c j tolerant wrong tag found).core c = (k.condPoisoned j.slot).cmdEnded j.slot j.seq 0x04 false stSkew := by
    simp only [State.swpFail, State.modCore_eq, State.core_setCore, record]; rfl
  rw [core, ended]
  exact ⟨Core.inst_modInst (Core.inst_modInst (k := { k with regs := regs' }) inst _) _, AccSet.taint_cells .., AccSet.taint_cells .., rfl⟩

/- The commands. -/

/-- With LAYOUT 1 or 2 the billets of a DRN do not depend on whether a RED tile is to come. -/
theorem drnUses_eq {lay : BitVec 2} (layout : lay ≠ 0) (f : Frame) (d0 d1 : BitVec 8) (red : Bool) :
    drnUses f d0 d1 lay red = drnUses f d0 d1 lay false := by
  have dst : drnDst0 f lay red = drnDst0 f lay false := by
    funext e; unfold drnDst0; rw [if_neg layout, if_neg layout]
  simp only [drnUses, dst, layout, false_and, or_false]

/-- The job of a command that has started with the entries of its billets. -/
def jobStarted (k : Core) (i : Fin 8) (n : Inst) (cmd : TileCmd) (us : List BUse) : Job :=
  { newJob i n cmd (us.map fun u => k.entry u.num) with started := true }

section
variable {s : State} {c : Fin 192} {i : Fin 8} {n : Inst} {f : Frame} {cmd : TileCmd} {stall : Nat} (h : Issues c i n f cmd s)
  (array : (s.core c).arrayQ = []) (shadow : (s.core c).shadowQ = []) (uses : usesArray f = true)

include h array shadow

theorem opx_starts {a b : BitVec 8} {kk : BitVec 24} {m : BitVec 4} {bl : Bool} {tag first stride : BitVec 16}
    (args : cmd.args = .opx a b kk m bl tag first stride) (h1 : opxOk1 f cmd.args = true) (h2 : opxOk2 f cmd (s.core c) = true)
    (billet : f.bCaravan = false) (red : (s.core c).live.red = none) (ready : BilletsReady c f cmd.args (opxUses f a b kk) s) :
    let bits := (s.core c).mask[m.toNat]'m.isLt
    GivesCore (.opx c i stall) s c fun q => q.arrayQ = [{ jobStarted (s.core c) i n cmd (opxUses f a b kk) with mask := bits }] ∧
      q.live = (s.core c).live ∧ q.shadow = (s.core c).shadow ∧
      (q.slot i).inst = some { n with next := n.next + 1, maskEmpty := MaskSel.none ⟨bits, bl⟩ } := by
  intro bits
  have ⟨⟨inst, frame, _⟩, _⟩ := h
  have run : execOpx c i stall s = _ := issueStep_joins (sh := false) (g := fun k => k.condMaskEmpty i (MaskSel.none ⟨bits, bl⟩)) h array
    shadow (by rw [args]; rfl) rfl h1 h2 (by simp only [args] at ready ⊢; exact State.withBillets_ready ready rfl _) rfl rfl
    (j' := { jobStarted (s.core c) i n cmd (opxUses f a b kk) with mask := bits })
    (fun t ht => ?_) shadow
  · exact .of_eq run ⟨rfl, rfl, rfl, Core.inst_modInst (Core.inst_modInst inst _) _⟩
  · rw [State.startJob_opx (f := f) (by simpa [ht] using frame) args billet (by rw [ht]; exact red), ht]; rfl

include uses

/-- In a row-broadcast frame an SWP only takes the beat (R155). -/
theorem swp_starts_rowPath {tag : BitVec 8} (args : cmd.args = .swp tag) (row : f.rowPath = true) :
    GivesCore (.swp c i stall) s c fun q => q.live = (s.core c).live ∧ q.shadow = (s.core c).shadow ∧ q.arrayQ = [] ∧
      (q.slot i).inst = some { n with next := n.next + 1 } := by
  have ⟨⟨inst, frame, _⟩, _⟩ := h
  have run : execSwp c i stall s = _ := issueStep_ends h array shadow (by rw [args]; rfl) rfl (by rw [args]; rfl) uses rfl rfl
    (State.startJob_swp_rowPath (f := f) (by simpa using frame) args row) (by simpa [State.modCore_eq])
  simp only [State.modCore_eq, State.setCore_setCore, State.core_setCore] at run
  exact .of_eq run ⟨rfl, rfl, rfl, Core.inst_modInst inst _⟩

/-- A complete set of the expected tag is exchanged in one beat (R36, R50). -/
theorem swp_starts_complete {tag : BitVec 8} (args : cmd.args = .swp tag) (row : f.rowPath = false) (expected : (s.core c).shadow.tag = some tag)
    (complete : (s.core c).shadow.complete = true) :
    GivesCore (.swp c i stall) s c fun q => q.live = (s.core c).shadow ∧ q.shadow = (s.core c).live ∧ q.arrayQ = [] ∧
      (q.slot i).inst = some { n with next := n.next + 1 } := by
  have ⟨⟨inst, frame, _⟩, _⟩ := h
  have run : execSwp c i stall s = _ := issueStep_ends h array shadow (by rw [args]; rfl) rfl (by rw [args]; rfl) uses rfl rfl
    (State.startJob_swp_proceed (f := f) (by simpa using frame) args row (by rw [State.core_setCore]; exact Core.swpCheck_complete expected complete _))
    (by simpa [State.modCore_eq])
  simp only [State.modCore_eq, State.setCore_setCore, State.core_setCore] at run
  exact .of_eq run ⟨rfl, rfl, rfl, Core.inst_modInst inst _⟩

/-- In tolerant mode the SWP of a set of the expected tag that is not finished waits (R38). -/
theorem swp_starts_late {tag : BitVec 8} (args : cmd.args = .swp tag) (row : f.rowPath = false) (expected : (s.core c).shadow.tag = some tag)
    (late : (s.core c).shadow.complete = false) (tolerant : f.tolerant = true) :
    GivesCore (.swp c i stall) s c fun q => q.live = (s.core c).live ∧ q.shadow = (s.core c).shadow ∧
      q.arrayQ = [{ jobStarted (s.core c) i n cmd [] with waiting := true }] := by
  have ⟨⟨_, frame, _⟩, _⟩ := h
  have run : execSwp c i stall s = _ := issueStep_joins (sh := false) (g := id) h array shadow (by rw [args]; rfl) rfl (by rw [args]; rfl) uses
    rfl rfl (j' := { jobStarted (s.core c) i n cmd [] with waiting := true }) rfl (fun t ht => ?_) shadow
  · exact .of_eq run ⟨rfl, rfl, rfl⟩
  · have check : (t.core c).swpCheck f.tolerant tag = .wait := by
      rw [tolerant, ht]; exact Core.swpCheck_late expected late
    rw [State.startJob_swp_wait (f := f) (by simpa [ht] using frame) args row check]
    simp [State.modCore_eq, jobStarted]

/-- The SWP of a set with another tag fails (R36, R41). -/
theorem swp_starts_wrongTag {tag : BitVec 8} (args : cmd.args = .swp tag) (row : f.rowPath = false) (other : (s.core c).shadow.tag ≠ some tag) :
    ∃ t n', exec (.swp c i stall) s = .next t ∧ ((t.core c).slot i).inst = some n' ∧ n'.failed = some 0x05 ∧ n'.poisoned = true ∧
      (t.core c).live.cells = (s.core c).live.cells ∧ (t.core c).shadow.cells = (s.core c).shadow.cells := by
  have ⟨⟨inst, frame, _, _, failed, _⟩, _⟩ := h
  let j := newJob i n cmd []
  let k := (s.core c).joined stall false j
  obtain ⟨found, check⟩ : ∃ found, k.swpCheck f.tolerant tag = .fail true found := Core.swpCheck_wrongTag other shadow _
  obtain ⟨inst', live, sh, idle⟩ := (s.setCore c k).core_swpFail c j f.tolerant true tag found (n := n) (by simpa [k, j] using inst)
  have run : execSwp c i stall s = _ := issueStep_ends h array shadow (by rw [args]; rfl) rfl (by rw [args]; rfl) uses rfl rfl
    (State.startJob_swp_fail (f := f) (by simpa using frame) args row (by rw [State.core_setCore]; exact check))
    (by rw [idle, State.core_setCore]; exact shadow)
  simp only [State.core_setCore] at inst' live sh
  simp only [State.modCore_eq] at run
  generalize (s.setCore c k).swpFail c j f.tolerant true tag found = u at run inst' live sh
  exact ⟨_, { n with next := n.next + 1, poisoned := true, failed := some (n.failed.getD stSkew) }, run,
    by rw [State.core_setCore]; exact Core.inst_modInst inst' _, by rw [failed]; rfl, rfl,
    by rw [State.core_setCore]; exact live, by rw [State.core_setCore]; exact sh⟩

theorem accld_starts {sr : BitVec 8} {live z : Bool} {fm : BitVec 5} {sc : BitVec 2} {tag : BitVec 8}
    (args : cmd.args = .accld sr live z fm sc tag) (h1 : accldOk1 f cmd.args = true) (ready : BilletsReady c f cmd.args (accldUses f sr z fm sc) s) :
    let l := usesLive f live
    GivesCore (.accld c i stall) s c fun q => (if l then q.arrayQ else q.shadowQ) =
        [jobStarted (s.core c) i n cmd (accldUses f sr z fm sc)] ∧
      q.setOf (!l) = (s.core c).setOf (!l) ∧ q.setOf l = { (s.core c).setOf l with tag := some tag, complete := false, red := none } := by
  intro l
  have ⟨⟨_, frame, _⟩, _⟩ := h
  have run : execAccld c i stall s = _ := issueStep_joins (sh := !l)
    (g := fun k => k.putSet l { k.setOf l with tag := some tag, complete := false, red := none }) h array shadow (by rw [args]; rfl) rfl h1 uses
    (by simp only [args] at ready ⊢; exact State.withBillets_ready ready rfl _) rfl
    (j' := jobStarted (s.core c) i n cmd (accldUses f sr z fm sc)) rfl
    (fun t ht => State.startJob_accld (f := f) (by simpa [ht] using frame) args) ?_
  · refine .of_eq run ?_
    cases l <;> exact ⟨rfl, rfl, rfl⟩
  · cases l <;> assumption

theorem drn_starts {d0 d1 : BitVec 8} {live cl : Bool} {lay : BitVec 2} {tag : BitVec 8} {key : BitVec 32}
    (args : cmd.args = .drn d0 d1 live cl lay tag key) (h1 : drnOk1 f cmd.args = true) (layout : lay ≠ 0)
    (red : ((s.core c).setOf (usesLive f live)).red = none) (vectors : vectorsOk f (shapeRows f.shape) (shapeCols f.shape) = true)
    (ready : BilletsReady c f cmd.args (drnUses f d0 d1 lay false) s) :
    let l := usesLive f live
    GivesCore (.drn c i stall) s c fun q => (if l then q.arrayQ else q.shadowQ) =
        [{ jobStarted (s.core c) i n cmd (drnUses f d0 d1 lay false) with tol := (s.core c).rd 0x20204 }] ∧
      q.setOf (!l) = (s.core c).setOf (!l) ∧ q.setOf l = { (s.core c).setOf l with complete := false } := by
  intro l
  have ⟨⟨_, frame, _⟩, _⟩ := h
  have run : execDrn c i stall s = _ := issueStep_joins (sh := !l) (g := fun k => k.putSet l { k.setOf l with complete := false }) h array shadow
    (by rw [args]; rfl) rfl h1 uses
    (by simp only [args] at ready ⊢; rw [drnUses_eq layout]; exact State.withBillets_ready ready vectors _) rfl
    (j' := { jobStarted (s.core c) i n cmd (drnUses f d0 d1 lay false) with tol := (s.core c).rd 0x20204 }) rfl (fun t ht => ?_) ?_
  · refine .of_eq run ?_
    cases l <;> exact ⟨rfl, rfl, rfl⟩
  · rw [State.startJob_drn (f := f) (by simpa [ht] using frame) args layout (by simpa [ht] using red), ht,
      Core.joined_rd _ _ _ (by decide)]
    rfl
  · cases l <;> assumption

end

/-- Settles O15: each command joins an idle engine, and its start does what its lemma above says. -/
theorem arrayCommandsStart : Obligations.ArrayCommandsStart := by
  unfold Obligations.ArrayCommandsStart
  intro c i stall s n f cmd h k gives job uses array shadow
  split
  next args => exact fun h1 h2 billet red ready => opx_starts h array shadow args h1 h2 billet red (args ▸ ready)
  next tag args =>
    exact ⟨swp_starts_complete h array shadow uses args, swp_starts_rowPath h array shadow uses args,
      swp_starts_late h array shadow uses args, swp_starts_wrongTag h array shadow uses args⟩
  next args => exact fun h1 ready => accld_starts h array shadow uses args h1 ready
  next args => exact fun h1 layout red vectors ready => drn_starts h array shadow uses args h1 layout red vectors ready
  next => trivial

end Sys2Proof.Machine
end

section
/-! PROOF. BQP and BQT on the queue unit (O21). -/

namespace Sys2Proof.Machine

open Sys2Proof.Safety

/- Entries of the billet table (Table 7.2): what is read after a write. -/

/-- A little-endian number read inside a run that has been written. -/
theorem Memory.readLE_writeRun {m : Memory} (hm : m.wf = true) (a : Nat) {bs : List Byte} {o n : Nat} (h : o + n ≤ bs.length) :
    (m.writeRun a bs).readLE (a + o) n = leNat ((bs.drop o).take n) := by
  unfold Memory.readLE
  congr 1
  refine List.ext_getElem (by simp; omega) fun x hx _ => ?_
  rw [Memory.readRun_length] at hx
  have read := Memory.readRun_getD (Memory.writeRun_wf hm a bs) (a + o) hx
  rw [Memory.read_writeRun hm, if_pos (by omega), List.getD_eq_getElem _ _ (by simpa), List.getD_eq_getElem _ _ (by omega)] at read
  simp only [read, List.getElem_take, List.getElem_drop]
  congr 1; omega

section
variable {k : Core} (wf : k.dmem.wf = true) (n w0 w1 w2 w3 : Nat)
include wf

theorem Core.writeEntry_word0 : (k.writeEntry n w0 w1 w2 w3).dmem.readLE (entryAddr n) 4 = w0 % 2 ^ 32 :=
  (Memory.readLE_writeRun wf (entryAddr n) (o := 0) (by simp)).trans (leNat_leBytes 4 w0)

theorem Core.writeEntry_word1 : (k.writeEntry n w0 w1 w2 w3).dmem.readLE (entryAddr n + 4) 4 = w1 % 2 ^ 32 :=
  (Memory.readLE_writeRun wf (entryAddr n) (by simp)).trans (leNat_leBytes 4 w1)

theorem Core.writeEntry_word2 : (k.writeEntry n w0 w1 w2 w3).dmem.readLE (entryAddr n + 8) 4 = w2 % 2 ^ 32 :=
  (Memory.readLE_writeRun wf (entryAddr n) (by simp)).trans (leNat_leBytes 4 w2)

/-- No byte outside the entry's 16 changes. -/
theorem Core.writeEntry_outside {a : Nat} (h : a < entryAddr n ∨ entryAddr n + 16 ≤ a) :
    (k.writeEntry n w0 w1 w2 w3).dmem.read a = k.dmem.read a := by
  refine (Memory.read_writeRun wf _ _ _).trans (if_neg ?_)
  simp only [List.length_append, leBytes_length]
  omega

end

/-- CONTEXT of a frame has 6 bits (Table 5.6). -/
theorem Core.frame_context {k : Core} {i : Fin 8} {f : Frame} (h : k.frame i = some f) : f.context < 64 := by
  obtain ⟨img, _, rfl⟩ := Option.map_eq_some_iff.1 h
  exact Nat.mod_lt _ (by decide)

/- Endpoints. -/

@[simp] theorem Core.end_setEnd (k : Core) (q : Fin 16) (v : Endpoint) : (k.setEnd q v).end_ q = v := Vector.getElem_set_self _

theorem Core.end_of_ends {k k' : Core} (h : k.ends = k'.ends) (q : Fin 16) : k.end_ q = k'.end_ q := by
  rw [Core.end_, h]; rfl

@[simp] theorem Core.setEnd_setEnd (k : Core) (q : Fin 16) (v v' : Endpoint) : (k.setEnd q v).setEnd q v' = k.setEnd q v' := by
  simp [Core.setEnd]

theorem State.putToken_eq {s : State} {ep : Nat} {d : Fin 192} {q : Fin 16} (target : s.endpoint ep = some (d, q)) (st : Byte) :
    s.putToken ep st = s.modCore d fun k => k.setEnd q { k.end_ q with queue := (k.end_ q).queue ++ [.token st] } := by
  simp [State.putToken, target]

theorem Endpoint.freeSlot_lt {e : Endpoint} {m : Nat} (h : e.freeSlot = some m) : m < 16 :=
  List.mem_range.1 (List.mem_of_find?_eq_some h)

/-- A slot that is taken is busy. -/
theorem busy_taken (busy : BitVec 16) {m : Nat} (h : m < 16) : (busy ||| (1#16 <<< m)).getLsbD m = true := by
  simp [h]

/- The queue unit's jobs. -/

/-- The job leaves the queue unit; registers and slots tell how. -/
theorem Core.endQueueJob_shape (k : Core) (j : Job) (st : Byte) :
    ∃ regs slots, k.endQueueJob j st = { k with queueQ := k.queueQ.erase j, regs := regs, slots := slots } :=
  Core.cmdEnded_shape { k with queueQ := k.queueQ.erase j } _ _ _ _ _

@[simp] theorem Core.endQueueJob_queueQ (k : Core) (j : Job) (st : Byte) : (k.endQueueJob j st).queueQ = k.queueQ.erase j := by
  obtain ⟨_, _, h⟩ := k.endQueueJob_shape j st; rw [h]

@[simp] theorem Core.endQueueJob_sp (k : Core) (j : Job) (st : Byte) : (k.endQueueJob j st).sp = k.sp := by
  obtain ⟨_, _, h⟩ := k.endQueueJob_shape j st; rw [h]

@[simp] theorem Core.endQueueJob_dmem (k : Core) (j : Job) (st : Byte) : (k.endQueueJob j st).dmem = k.dmem := by
  obtain ⟨_, _, h⟩ := k.endQueueJob_shape j st; rw [h]

@[simp] theorem Core.endQueueJob_ends (k : Core) (j : Job) (st : Byte) : (k.endQueueJob j st).ends = k.ends := by
  obtain ⟨_, _, h⟩ := k.endQueueJob_shape j st; rw [h]

/-- A job that fails, fails its slot. -/
theorem Core.endQueueJob_failed {k : Core} {j : Job} {st : Byte} (ok : st ≠ stOk) (part : st ≠ stPartial) {n : Inst}
    (h : (k.slot j.slot).inst = some n) :
    ((k.endQueueJob j st).slot j.slot).inst = some { n with failed := some (n.failed.getD st) } := by
  obtain ⟨regs, e⟩ := Core.cmdEnded_failed { k with queueQ := k.queueQ.erase j } j.slot j.seq j.cmd.args.opcode false ok part
  rw [Core.endQueueJob, e]
  exact Core.inst_modInst (k := { k with queueQ := k.queueQ.erase j, regs := regs }) h _

theorem State.markLate_shape (s : State) (c : Fin 192) :
    ∃ regs porterQ, s.markLate c = s.setCore c { s.core c with regs := regs, porterQ := porterQ } := by
  unfold State.markLate
  generalize (s.core c).armedFor true = l
  induction l generalizing s with
  | nil => exact ⟨(s.core c).regs, (s.core c).porterQ, (s.setCore_core c).symm⟩
  | cons d l ih =>
    rw [List.foldl_cons]
    dsimp only
    split
    · obtain ⟨regs, porterQ, e⟩ := ih (s.modCore c _)
      exact ⟨regs, porterQ, e.trans (by simp [State.modCore_eq, Core.makeLate, Core.bump])⟩
    · exact ih s

/-- LDTs that become urgent touch the Porter's queue of their core and count; nothing else changes. -/
theorem State.core_markLate_ne (s : State) {c r : Fin 192} (h : r ≠ c) : (s.markLate c).core r = s.core r := by
  obtain ⟨_, _, e⟩ := s.markLate_shape c
  rw [e, State.core_setCore_ne _ _ _ h.symm]

theorem State.core_markLate_keeps (s : State) (c r : Fin 192) : ((s.markLate c).core r).queueQ = (s.core r).queueQ ∧
    ((s.markLate c).core r).sp = (s.core r).sp ∧ ((s.markLate c).core r).ends = (s.core r).ends := by
  by_cases h : r = c
  · subst h
    obtain ⟨_, _, e⟩ := s.markLate_shape r
    rw [e, State.core_setCore]
    exact ⟨rfl, rfl, rfl⟩
  · rw [State.core_markLate_ne _ h]
    exact ⟨rfl, rfl, rfl⟩

/- BQP_ACCEPT (R185): what core `c` hands over to core `d`, which may be the same. -/

/-- `g` is what arrives at the endpoint's core, `e` what ends the job on the sender's. -/
theorem State.handover {s : State} {c d : Fin 192} {j : Job} {g e : Core → Core} (hg : ∀ k, (g k).queueQ = k.queueQ)
    (leaves : ∀ k, (e k).queueQ = k.queueQ.erase j) (sp : ∀ k, (e k).sp = k.sp) (ends : ∀ k, (e k).ends = k.ends) :
    let t := ((s.modCore d g).modCore c e).markLate d
    (t.core c).queueQ = (s.core c).queueQ.erase j ∧ (c ≠ d → (t.core c).sp = (s.core c).sp) ∧ (∀ r, r ≠ c → r ≠ d → t.core r = s.core r) ∧
      (t.core d).ends = (g (s.core d)).ends ∧ (t.core d).sp = (g (s.core d)).sp := by
  obtain ⟨queueC, spC, -⟩ := ((s.modCore d g).modCore c e).core_markLate_keeps d c
  obtain ⟨-, spD, endsD⟩ := ((s.modCore d g).modCore c e).core_markLate_keeps d d
  refine ⟨?_, fun ne => ?_, fun r rc rd => ?_, ?_, ?_⟩
  · rw [queueC, State.core_modCore_same, leaves, State.core_modCore_keeps hg]
  · rw [spC, State.core_modCore_same, sp, State.core_modCore_other _ _ ne]
  · rw [State.core_markLate_ne _ rd, State.core_modCore_other _ _ rc, State.core_modCore_other _ _ rd]
  · rw [endsD, State.core_modCore_keeps ends, State.core_modCore_same]
  · rw [spD, State.core_modCore_keeps sp, State.core_modCore_same]

/-- The first line of receive slot `m` of an endpoint whose BQ_CFG is `cfg` (R184). -/
def slotLine (cfg m : Nat) : Nat := bitsOf cfg 16 0 + 2 * m * bitsOf cfg 27 17

/-- The handle of a billet of entry `e` in slot `m`. -/
def slotHandle (cfg m : Nat) (e : BEntry) : QItem :=
  .handle (BitVec.ofNat 32 (slotLine cfg m % 2 ^ 17 + e.size * 2 ^ 17)) (BitVec.ofNat 32 e.w1) m

/-- The endpoint's core with the billet's bytes in slot `m` and its handle at the tail of the queue. -/
def Core.receives (k : Core) (q : Fin 16) (en : Endpoint) (c : Fin 192) (m : Nat) (e : BEntry) (cfg : Nat) (data : List Byte) : Core :=
  (({ k with sp := k.sp.writeRun (slotLine cfg m * 64) data }).bump64 0x20610 (2 * e.size)).setEnd q
    ({ en with queue := en.queue ++ [slotHandle cfg m e], busy := en.busy ||| (1#16 <<< m) }.grant c)

section
variable {s : State} {c d : Fin 192} {i : Fin 8} {q : Fin 16} {j : Job} {b : BitVec 8} {ep : BitVec 16} {e : BEntry} {w : Waits}
  (job : (s.core c).queueJob i true = some j) (args : j.cmd.args = .bqp b ep) (target : s.endpoint ep.toNat = some (d, q))

include job args target

/-- A full queue, or an arbiter that grants another core, lets the request wait. -/
theorem bqpAccept_waits (h : 16 ≤ ((s.core d).end_ q).queue.length ∨ s.bqpWins d q c j.arrived = false) :
    exec (.bqpAccept c i w) s = .next s := by
  show execBqpAccept c i w s = _
  cases ents : j.ents <;> simp [execBqpAccept, job, args, target, ents, h]

variable (ents : j.ents = [e]) (room : ((s.core d).end_ q).queue.length < 16) (wins : s.bqpWins d q c j.arrived = true)

include ents room wins

/-- Of a poisoned billet only a token arrives (R167). -/
theorem bqpAccept_token (poison : j.poison ≠ 0) : exec (.bqpAccept c i w) s =
    .next (((s.modCore d fun k => k.setEnd q ({ k.end_ q with queue := (k.end_ q).queue ++ [QItem.token j.poison] }.grant c)).modCore c
      fun k => (k.waited w).endQueueJob j j.poison).markLate d) := by
  show execBqpAccept c i w s = _
  have granted : ¬ (16 ≤ ((s.core d).end_ q).queue.length ∨ s.bqpWins d q c j.arrived = false) := by simp [room, wins]
  simp only [execBqpAccept, job, args, ents, target, if_neg granted, if_pos poison, State.putToken_eq target]
  simp only [State.modCore_eq, State.setCore_setCore, State.core_setCore, Core.end_setEnd, Core.setEnd_setEnd]

/-- A sound billet arrives whole (R185). -/
theorem bqpAccept_handle {m : Nat} (poison : j.poison = 0) (free : ((s.core d).end_ q).freeSlot = some m) : exec (.bqpAccept c i w) s =
    .next (((s.modCore d fun k => k.receives q ((s.core d).end_ q) c m e ((s.core d).bqCfg q) ((s.core c).sp.readRun e.addr e.extent)).modCore c
      fun k => (((k.bump64 0x2061C (ceilDiv e.extent 256)).bump64 0x20610 (2 * e.size)).waited w).endQueueJob j stOk).markLate d) := by
  show execBqpAccept c i w s = _
  have granted : ¬ (16 ≤ ((s.core d).end_ q).queue.length ∨ s.bqpWins d q c j.arrived = false) := by simp [room, wins]
  simp only [execBqpAccept, job, args, ents, target, if_neg granted, if_neg (not_not.2 poison), free]
  rfl

/-- The job leaves its core's queue unit, the endpoint's arbiter has granted core `c`, and `d` holds the billet or its token. -/
theorem bqpAccept_gives {m : Nat} (free : j.poison = 0 → ((s.core d).end_ q).freeSlot = some m) :
    ∃ t, exec (.bqpAccept c i w) s = .next t ∧ (t.core c).queueQ = (s.core c).queueQ.erase j ∧ (c ≠ d → (t.core c).sp = (s.core c).sp) ∧
      (∀ r, r ≠ c → r ≠ d → t.core r = s.core r) ∧ ((t.core d).end_ q).grants = (((s.core d).end_ q).grant c).grants ∧
      (j.poison ≠ 0 → ((t.core d).end_ q).queue = ((s.core d).end_ q).queue ++ [.token j.poison] ∧ (t.core d).sp = (s.core d).sp) ∧
      (j.poison = 0 → ((t.core d).end_ q).busy.getLsbD m = true ∧
        (t.core d).sp = (s.core d).sp.writeRun (slotLine ((s.core d).bqCfg q) m * 64) ((s.core c).sp.readRun e.addr e.extent) ∧
        ((t.core d).end_ q).queue = ((s.core d).end_ q).queue ++ [slotHandle ((s.core d).bqCfg q) m e]) := by
  by_cases poison : j.poison = 0
  · have run := bqpAccept_handle (w := w) job args target ents room wins poison (free poison)
    obtain ⟨left, spC, others, ends, spD⟩ := State.handover (s := s) (c := c) (d := d) (j := j)
      (g := fun k => k.receives q ((s.core d).end_ q) c m e ((s.core d).bqCfg q) ((s.core c).sp.readRun e.addr e.extent))
      (e := fun k => (((k.bump64 0x2061C (ceilDiv e.extent 256)).bump64 0x20610 (2 * e.size)).waited w).endQueueJob j stOk)
      (fun _ => rfl) (fun _ => Core.endQueueJob_queueQ ..) (fun _ => Core.endQueueJob_sp ..) (fun _ => Core.endQueueJob_ends ..)
    have arrived := Core.end_of_ends ends q
    rw [Core.receives, Core.end_setEnd] at arrived
    exact ⟨_, run, left, spC, others, by rw [arrived]; rfl, fun h => absurd poison h,
      fun _ => ⟨by rw [arrived]; exact busy_taken _ (Endpoint.freeSlot_lt (free poison)), spD, by rw [arrived]; rfl⟩⟩
  · have run := bqpAccept_token (w := w) job args target ents room wins poison
    obtain ⟨left, spC, others, ends, spD⟩ := State.handover (s := s) (c := c) (d := d) (j := j)
      (g := fun k => k.setEnd q ({ k.end_ q with queue := (k.end_ q).queue ++ [QItem.token j.poison] }.grant c))
      (e := fun k => (k.waited w).endQueueJob j j.poison)
      (fun _ => rfl) (fun _ => Core.endQueueJob_queueQ ..) (fun _ => Core.endQueueJob_sp ..) (fun _ => Core.endQueueJob_ends ..)
    have arrived := Core.end_of_ends ends q
    rw [Core.end_setEnd] at arrived
    exact ⟨_, run, left, spC, others, by rw [arrived]; rfl, fun _ => ⟨by rw [arrived]; rfl, spD⟩, fun h => absurd h poison⟩

end

/- BQT_TAKE (R186). -/

/-- The core once the head of the queue of endpoint `q` has left it, and entry `b` holds these words. -/
def Core.takes (k : Core) (w : Waits) (q : Fin 16) (rest : List QItem) (b w0 w1 w2 : Nat) : Core :=
  ((k.waited w).setEnd q { k.end_ q with queue := rest }).writeEntry b w0 w1 w2 (k.entry b).w3

section
variable {s : State} {c d : Fin 192} {i : Fin 8} {q : Fin 16} {j : Job} {f : Frame} {b : BitVec 8} {ep : BitVec 16} {w : Waits}
  {rest : List QItem} (job : (s.core c).queueJob i false = some j) (frame : (s.core c).frame i = some f) (args : j.cmd.args = .bqt b ep)
  (target : s.endpoint ep.toNat = some (d, q))

include job frame args target

theorem bqtTake_handle {w0 w1 : Word} {m : Nat} (head : ((s.core c).end_ q).queue = .handle w0 w1 m :: rest) :
    exec (.bqtTake c i w) s = .next (s.setCore c ((((s.core c).takes w q rest b.toNat w0.toNat w1.toNat f.context).modInst i
      fun n => { n with taken := n.taken ++ [(b.toNat, q.val, m)] }).endQueueJob j stOk)) := by
  show execBqtTake c i w s = _
  simp only [execBqtTake, job, frame, args, target, head]
  rfl

theorem bqtTake_token {st : Byte} (head : ((s.core c).end_ q).queue = .token st :: rest) :
    exec (.bqtTake c i w) s = .next (s.setCore c ((((s.core c).takes w q rest b.toNat 0 0 (f.context + st.toNat * 2 ^ 8)).modInst i
      fun n => { n with taken := n.taken ++ [(b.toNat, q.val, 16)], poisoned := true }).endQueueJob j st)) := by
  show execBqtTake c i w s = _
  simp only [execBqtTake, job, frame, args, target, head]
  rfl

end

/-- What a BQT leaves beside its entry and its slot: the head has left the queue, the job the queue unit, and nothing else of the
data memory and nothing of the scratchpad changes. -/
theorem Core.takes_frame {k : Core} (wf : k.dmem.wf = true) (w : Waits) (q : Fin 16) (rest : List QItem) (b w0 w1 w2 : Nat) (i : Fin 8)
    (g : Inst → Inst) (j : Job) (st : Byte) :
    let t := ((k.takes w q rest b w0 w1 w2).modInst i g).endQueueJob j st
    (t.end_ q).queue = rest ∧ t.queueQ = k.queueQ.erase j ∧ t.sp = k.sp ∧
      ∀ a, (a < entryAddr b ∨ entryAddr b + 16 ≤ a) → t.dmem.read a = k.dmem.read a := by
  refine ⟨?_, Core.endQueueJob_queueQ .., Core.endQueueJob_sp .., fun a h => ?_⟩
  · rw [Core.end_of_ends (Core.endQueueJob_ends ..)]
    exact congrArg Endpoint.queue (Core.end_setEnd ..)
  · rw [Core.endQueueJob_dmem]
    exact Core.writeEntry_outside (k := (k.waited w).setEnd q _) wf _ _ _ _ _ h

section
variable {s : State} {c d : Fin 192} {i : Fin 8} {q : Fin 16} {j : Job} {f : Frame} {b : BitVec 8} {ep : BitVec 16} {w : Waits}
  {rest : List QItem} {n : Inst} (job : (s.core c).queueJob i false = some j) (frame : (s.core c).frame i = some f)
  (inst : ((s.core c).slot i).inst = some n) (args : j.cmd.args = .bqt b ep) (target : s.endpoint ep.toNat = some (d, q))
  (wf : (s.core c).dmem.wf = true)

include job frame args target wf

/-- A billet's entry holds the two words of its handle. -/
theorem bqtTake_gives_handle {w0 w1 : Word} {m : Nat} (head : ((s.core c).end_ q).queue = .handle w0 w1 m :: rest) :
    GivesCore (.bqtTake c i w) s c fun k => (k.end_ q).queue = rest ∧ k.queueQ = (s.core c).queueQ.erase j ∧ k.sp = (s.core c).sp ∧
      (∀ a, (a < entryAddr b.toNat ∨ entryAddr b.toNat + 16 ≤ a) → k.dmem.read a = (s.core c).dmem.read a) ∧
      k.dmem.readLE (entryAddr b.toNat) 4 = w0.toNat ∧ k.dmem.readLE (entryAddr b.toNat + 4) 4 = w1.toNat := by
  obtain ⟨queue, left, sp, outside⟩ := Core.takes_frame wf w q rest b.toNat w0.toNat w1.toNat f.context i
    (fun n => { n with taken := n.taken ++ [(b.toNat, q.val, m)] }) j stOk
  refine .of_eq (bqtTake_handle job frame args target head) ⟨queue, left, sp, outside, ?_, ?_⟩ <;> rw [Core.endQueueJob_dmem]
  · exact (Core.writeEntry_word0 wf ..).trans (Nat.mod_eq_of_lt w0.isLt)
  · exact (Core.writeEntry_word1 wf ..).trans (Nat.mod_eq_of_lt w1.isLt)

include inst

/-- A token's entry has no extent and is poisoned by its status, with which its slot fails. -/
theorem bqtTake_gives_token {st : Byte} (head : ((s.core c).end_ q).queue = .token st :: rest) :
    GivesCore (.bqtTake c i w) s c fun k => (k.end_ q).queue = rest ∧ k.queueQ = (s.core c).queueQ.erase j ∧ k.sp = (s.core c).sp ∧
      (∀ a, (a < entryAddr b.toNat ∨ entryAddr b.toNat + 16 ≤ a) → k.dmem.read a = (s.core c).dmem.read a) ∧
      k.dmem.readLE (entryAddr b.toNat) 4 = 0 ∧ k.dmem.readLE (entryAddr b.toNat + 8) 4 = f.context + st.toNat * 2 ^ 8 ∧
      (st ≠ stOk → st ≠ stPartial → j.slot = i → ∃ n',
        (k.slot i).inst = some n' ∧ n'.failed = some (n.failed.getD st) ∧ n'.poisoned = true) := by
  have word : f.context + st.toNat * 2 ^ 8 < 2 ^ 32 := by
    have := Core.frame_context frame
    omega
  obtain ⟨queue, left, sp, outside⟩ := Core.takes_frame wf w q rest b.toNat 0 0 (f.context + st.toNat * 2 ^ 8) i
    (fun n => { n with taken := n.taken ++ [(b.toNat, q.val, 16)], poisoned := true }) j st
  refine .of_eq (bqtTake_token job frame args target head) ⟨queue, left, sp, outside, ?_, ?_, fun ok part slot => ?_⟩
  · rw [Core.endQueueJob_dmem]; exact Core.writeEntry_word0 wf ..
  · rw [Core.endQueueJob_dmem]; exact (Core.writeEntry_word2 wf ..).trans (Nat.mod_eq_of_lt word)
  · subst slot
    exact ⟨_, Core.endQueueJob_failed ok part (Core.inst_modInst inst _), rfl, rfl⟩

end

/- BQP and BQT at issue (R167). -/

section
variable {s : State} {c d : Fin 192} {i : Fin 8} {q : Fin 16} {n : Inst} {f : Frame} {cmd : TileCmd} {b : BitVec 8} {ep : BitVec 16}
  {stall : Nat} (h : Issues c i n f cmd s) (range : ep.toNat < 3072) (opened : s.endpointStatus c (!(s.core c).owned f) ep.toNat = stOk)

include h range opened

theorem bqt_queues (args : cmd.args = .bqt b ep) (own : (s.endpoint ep.toNat).map (·.1) = some c) :
    exec (.bqt c i stall) s = .next (s.setCore c
      { issued i stall (s.core c) with queueQ := (s.core c).queueQ ++ [{ newJob i n cmd [] with started := true }] }) := by
  obtain ⟨⟨d, q⟩, target, same⟩ := Option.map_eq_some_iff.1 own
  replace same : d = c := same
  have status : (s.stalled c stall).endpointStatus c (!((s.core c).bump 0x20444 stall).owned f) ep.toNat = stOk :=
    (State.endpointStatus_stalled ..).trans opened
  have run : execBqt c i stall s = _ := issueStep_run (stall := stall) h (by rw [args]; rfl) rfl (by rw [args]; exact decide_eq_true range) rfl
    (t := (s.stalled c stall).modCore c fun k => { k with queueQ := k.queueQ ++ [{ newJob i n cmd [] with started := true }] })
    (by simp [args, status, State.endpoint_stalled, target, same])
  refine Eq.trans run ?_
  simp only [State.modCore_eq, State.stalled, State.setCore_setCore, State.core_setCore]
  rfl

theorem bqp_queues {tie : Bool} (args : cmd.args = .bqp b ep) (uses : s.usesOk c f (plainUses b) = true)
    (target : s.endpoint ep.toNat = some (d, q)) (fits : ((s.core c).entry b.toNat).size ≤ bitsOf ((s.core d).bqCfg q) 27 17)
    (clear : (s.core c).scoreboardClear (cmdRanges f cmd.args [(s.core c).entry b.toNat]) = true) :
    let e := (s.core c).entry b.toNat
    let m := if tie then s.moments else s.moments + 1
    exec (.bqp c i stall tie) s = .next (({ s with moments := m }).setCore c { issued i stall (s.core c) with
      queueQ := (s.core c).queueQ ++ [{ newJob i n cmd [e] with started := true, poison := BitVec.ofNat 8 e.poison, arrived := m }] }) := by
  intro e m
  have status : (s.stalled c stall).endpointStatus c (!((s.core c).bump 0x20444 stall).owned f) ep.toNat = stOk :=
    (State.endpointStatus_stalled ..).trans opened
  have fits' : ¬ bitsOf ((s.core d).bqCfg q) 27 17 < (((s.core c).bump 0x20444 stall).entry b.toNat).size := Nat.not_lt.2 fits
  have clear' : ((s.core c).bump 0x20444 stall).scoreboardClear
      (cmdRanges f (.bqp b ep) [((s.core c).bump 0x20444 stall).entry b.toNat]) = true := args ▸ clear
  have run : execBqp c i stall tie s = _ := issueStep_run (stall := stall) h (by rw [args]; rfl) rfl (by rw [args]; exact decide_eq_true range) rfl
    (t := { s.stalled c stall with moments := m }.modCore c fun k => { k with
      queueQ := k.queueQ ++ [{ newJob i n cmd [e] with started := true, poison := BitVec.ofNat 8 e.poison, arrived := m }] })
    (by simp only [args, State.core_stalled, State.usesOk_stalled, uses, State.endpoint_stalled, target, State.bqCfg_stalled, status,
          if_neg fits', clear', Bool.not_true, Bool.false_eq_true, if_false, ne_eq, not_true]; rfl)
  have moments : { s.stalled c stall with moments := m } = { s with moments := m }.setCore c ((s.core c).bump 0x20444 stall) := rfl
  refine Eq.trans run ?_
  rw [moments]
  simp only [State.modCore_eq, State.setCore_setCore, State.core_setCore]
  rfl

end

/-- Settles O21: the lemmas above, in order: both commands at issue, what an acceptance hands over, a request that waits, what a BQT takes. -/
theorem queueCommands : Obligations.QueueCommands := by
  unfold Obligations.QueueCommands
  intro c i s f j b ep k e
  refine ⟨fun stall n cmd h range opened => ⟨fun args own => bqt_queues h range opened args own,
      fun tie d q args uses target fits clear => bqp_queues h range opened args uses target fits clear⟩,
    fun w e d q m job args ents target room wins free => bqpAccept_gives job args target ents room wins free,
    fun w d q job args target h => bqpAccept_waits job args target h,
    fun w d q item rest n job frame inst args target head wf => ?_⟩
  cases item with
  | handle w0 w1 m => exact bqtTake_gives_handle job frame args target wf head
  | token st => exact bqtTake_gives_token job frame inst args target wf head

end Sys2Proof.Machine
end

section
/-! PROOF. What array commands leave as they complete (O16), and what a drain that finds a fault leaves (O17). -/

namespace Sys2Proof.Machine

/- Maps and registers: many keys written at once, and a 64-bit counter. -/

/-- Keys 0 to n − 1 written in order, each once. -/
theorem SMap.get_setAll_range {α : Type} [DecidableEq α] {d : Nat → α} {m : SMap α} (hm : SMap.wf d m = true) (v : Nat → α) (n a : Nat) :
    SMap.get d (SMap.setAll d m ((List.range n).map fun i => (i, v i))) a = if a < n then v a else SMap.get d m a := by
  induction n with
  | zero => simp [SMap.setAll]
  | succ n ih =>
    have last : SMap.setAll d m ((List.range (n + 1)).map fun i => (i, v i)) =
        SMap.set d (SMap.setAll d m ((List.range n).map fun i => (i, v i))) n (v n) := by
      simp [SMap.setAll, List.range_succ]
    rw [last, SMap.get_set (SMap.setAll_wf _ hm), ih]
    by_cases h : a = n
    · subst h; simp
    · rw [if_neg h]; exact if_congr (by omega) rfl rfl

theorem Core.rd_bump64_ne (k : Core) (n : Nat) {off o : Nat} (lo : o ≠ off) (hi : o ≠ off + 4) : (k.bump64 off n).rd o = k.rd o :=
  congrArg BitVec.toNat ((SMap.get_set_ne _ _ _ hi).trans (SMap.get_set_ne _ _ _ lo))

/-- Array beats taken since core reset (Table 2.7). -/
def Core.beatCount (k : Core) : Nat := k.rd 0x20100 + k.rd 0x20104 * 2 ^ 32

theorem Core.beatCount_beats {k : Core} (h : SMap.wf coreReset k.regs = true) (n : Nat) : (k.beats n).beatCount = (k.beatCount + n) % 2 ^ 64 := by
  have lo : (k.beats n).rd 0x20100 = (k.beatCount + n) % 2 ^ 32 := by
    refine (congrArg BitVec.toNat (SMap.get_set_ne _ _ _ (by decide))).trans ?_
    exact (Regs.rd_wr h _ _ _).trans (if_pos rfl)
  have hi : (k.beats n).rd 0x20104 = (k.beatCount + n) / 2 ^ 32 % 2 ^ 32 := (Regs.rd_wr (Regs.wr_wf h _ _) _ _ _).trans (if_pos rfl)
  rw [Core.beatCount, lo, hi]
  omega

theorem Core.beatCount_bump (k : Core) (n : Nat) {off : Nat} (lo : 0x20100 ≠ off) (hi : 0x20104 ≠ off) : (k.bump off n).beatCount = k.beatCount := by
  simp only [Core.beatCount, Core.rd_bump_ne _ _ lo, Core.rd_bump_ne _ _ hi]

theorem Core.beatCount_bump64 (k : Core) (n : Nat) {off : Nat} (h : 0x20104 < off) : (k.bump64 off n).beatCount = k.beatCount := by
  simp only [Core.beatCount, Core.rd_bump64_ne k n (o := 0x20100) (off := off) (by omega) (by omega),
    Core.rd_bump64_ne k n (o := 0x20104) (off := off) (by omega) (by omega)]

theorem Core.beatCount_waited (k : Core) (w : Waits) : (k.waited w).beatCount = k.beatCount := by
  simp only [Core.waited, Core.beatCount_bump _ _ (off := 0x20228) (by decide) (by decide), Core.beatCount_bump _ _ (off := 0x2022C) (by decide) (by decide),
    Core.beatCount_bump _ _ (off := 0x20624) (by decide) (by decide), Core.beatCount_bump _ _ (off := 0x20438) (by decide) (by decide),
    Core.beatCount_bump _ _ (off := 0x20618) (by decide) (by decide)]

/-- The beats of a completion are counted, whatever was waited. -/
theorem Core.beatCount_completed {k : Core} (h : SMap.wf coreReset k.regs = true) (n : Nat) (w : Waits) (f : Frame) (j : Job) :
    (((k.beats n).waited w).spAccess f j).beatCount = (k.beatCount + n) % 2 ^ 64 := by
  rw [Core.spAccess, Core.beatCount_bump64 _ _ (by decide), Core.beatCount_waited, Core.beatCount_beats h]

/- Parts of a core. -/

/-- From `k` to `q` only registers have changed. -/
def RegsOnly (k q : Core) : Prop := q = { k with regs := q.regs }

theorem RegsOnly.trans {k q r : Core} (h : RegsOnly k q) (h' : RegsOnly q r) : RegsOnly k r := by
  unfold RegsOnly at *; rw [h', h]

theorem Core.bump_regsOnly (k : Core) (off n : Nat) : RegsOnly k (k.bump off n) := rfl
theorem Core.bumpSat_regsOnly (k : Core) (off n : Nat) : RegsOnly k (k.bumpSat off n) := rfl
theorem Core.bumpHalf_regsOnly (k : Core) (off lo n : Nat) : RegsOnly k (k.bumpHalf off lo n) := rfl
theorem Core.bump64_regsOnly (k : Core) (off n : Nat) : RegsOnly k (k.bump64 off n) := rfl
theorem Core.beats_regsOnly (k : Core) (n : Nat) : RegsOnly k (k.beats n) := k.bump64_regsOnly _ n
theorem Core.spAccess_regsOnly (k : Core) (f : Frame) (j : Job) : RegsOnly k (k.spAccess f j) := k.bump64_regsOnly _ _

theorem Core.waited_regsOnly (k : Core) (w : Waits) : RegsOnly k (k.waited w) :=
  ((((k.bump_regsOnly _ _).trans (Core.bump_regsOnly _ _ _)).trans (Core.bump_regsOnly _ _ _)).trans (Core.bump_regsOnly _ _ _)).trans
    (Core.bump_regsOnly _ _ _)

/-- From `k` to `q` only the scratchpad has changed. -/
def SpOnly (k q : Core) : Prop := q = { k with sp := q.sp }

theorem SpOnly.refl (k : Core) : SpOnly k k := rfl

theorem SpOnly.trans {k q r : Core} (h : SpOnly k q) (h' : SpOnly q r) : SpOnly k r := by
  unfold SpOnly at *; rw [h', h]

theorem SpOnly.arrayQ {k q : Core} (h : SpOnly k q) : q.arrayQ = k.arrayQ := by unfold SpOnly at h; rw [h]
theorem SpOnly.shadowQ {k q : Core} (h : SpOnly k q) : q.shadowQ = k.shadowQ := by unfold SpOnly at h; rw [h]
theorem SpOnly.setOf {k q : Core} (h : SpOnly k q) (l : Bool) : q.setOf l = k.setOf l := by unfold SpOnly at h; rw [h]; cases l <;> rfl
theorem SpOnly.slot {k q : Core} (h : SpOnly k q) (i : Fin 8) : q.slot i = k.slot i := by unfold SpOnly at h; rw [h]; rfl

theorem SpOnly.foldlFst {α β : Type} {f : Core × α → β → Core × α} (hf : ∀ p b, SpOnly p.1 (f p b).1) {k : Core} (l : List β) (p : Core × α)
    (h : SpOnly k p.1) : SpOnly k (l.foldl f p).1 := by
  induction l generalizing p with
  | nil => exact h
  | cons b l ih => exact ih _ (h.trans (hf p b))

theorem Core.writeSlice_spOnly (k : Core) (e : BEntry) (n : Nat) (codes scales : List Nat) : SpOnly k (k.writeSlice e n codes scales) := rfl

theorem Core.writeLines_spOnly (k : Core) (e : BEntry) (fmt kind lines : Nat) (line : Nat → List Elem) :
    SpOnly k (k.writeLines e fmt kind lines line).1 :=
  SpOnly.foldlFst (fun p _ => p.1.writeSlice_spOnly _ _ _ _) _ _ (.refl k)

theorem Core.writeSeq_spOnly (k : Core) (e : BEntry) (xs : List Elem) : SpOnly k (k.writeSeq e xs).1 := by
  unfold Core.writeSeq
  split
  · rfl
  · exact SpOnly.foldlFst (fun p _ => p.1.writeSlice_spOnly _ _ _ _) _ _ (.refl k)

theorem Core.drainLists_spOnly (k : Core) (f : Frame) (set : AccSet) (key : DrawKey) (depth : Nat) (e0 e1 : BEntry) :
    SpOnly k (k.drainLists f set key depth e0 e1).1 :=
  (k.writeLines_spOnly _ _ _ _ _).trans rfl

theorem Core.drainCopies_spOnly (k : Core) (f : Frame) (set : AccSet) (key : DrawKey) (lay : BitVec 2) (ents : List BEntry) :
    SpOnly k (k.drainCopies f set key lay ents).1 := by
  cases ents with
  | nil => exact .refl k
  | cons e0 rest =>
    unfold Core.drainCopies
    dsimp only
    split
    · exact k.writeLines_spOnly _ _ _ _ _
    · cases rest with
      | nil => exact k.writeLines_spOnly _ _ _ _ _
      | cons e1 rest =>
        dsimp only
        split
        · exact (k.writeLines_spOnly _ _ _ _ _).trans (Core.writeLines_spOnly _ _ _ _ _ _)
        · exact k.writeLines_spOnly _ _ _ _ _

/-- From `k` to `q` only counts, condition bits and billet poison have changed: the instances keep the status that they are to report, and
POISONED stays. -/
structure Books (k q : Core) : Prop where
  rest : q = { k with regs := q.regs, slots := q.slots, dmem := q.dmem }
  insts : ∀ i n, (k.slot i).inst = some n → ∃ n', (q.slot i).inst = some n' ∧ n'.failed = n.failed ∧ (n.poisoned = true → n'.poisoned = true)

theorem Books.refl (k : Core) : Books k k := ⟨rfl, fun _ n h => ⟨n, h, rfl, id⟩⟩

theorem Books.trans {k q r : Core} (h : Books k q) (h' : Books q r) : Books k r := by
  refine ⟨?_, fun i n hn => ?_⟩
  · rw [h'.rest, h.rest]
  · obtain ⟨n', hn', failed, poisoned⟩ := h.insts i n hn
    obtain ⟨n'', hn'', failed', poisoned'⟩ := h'.insts i n' hn'
    exact ⟨n'', hn'', failed'.trans failed, poisoned' ∘ poisoned⟩

theorem Books.sp {k q : Core} (h : Books k q) : q.sp = k.sp := by rw [h.rest]
theorem Books.arrayQ {k q : Core} (h : Books k q) : q.arrayQ = k.arrayQ := by rw [h.rest]
theorem Books.shadowQ {k q : Core} (h : Books k q) : q.shadowQ = k.shadowQ := by rw [h.rest]
theorem Books.setOf {k q : Core} (h : Books k q) (l : Bool) : q.setOf l = k.setOf l := by rw [h.rest]; cases l <;> rfl

theorem Books.foldl {α : Type} {f : Core → α → Core} (hf : ∀ k a, Books k (f k a)) (l : List α) (k : Core) : Books k (l.foldl f k) := by
  induction l generalizing k with
  | nil => exact .refl k
  | cons a l ih => exact (hf k a).trans (ih _)

theorem Books.withRegs (k : Core) (m : Regs) : Books k { k with regs := m } := ⟨rfl, fun _ n h => ⟨n, h, rfl, id⟩⟩

theorem Books.withDmem (k : Core) (m : Memory) : Books k { k with dmem := m } := ⟨rfl, fun _ n h => ⟨n, h, rfl, id⟩⟩

theorem Books.modInst (k : Core) (i : Fin 8) {g : Inst → Inst} (hg : ∀ n, (g n).failed = n.failed ∧ (n.poisoned = true → (g n).poisoned = true)) :
    Books k (k.modInst i g) := by
  refine ⟨rfl, fun q n hn => ?_⟩
  by_cases e : i = q
  · subst e; exact ⟨g n, Core.inst_modInst hn g, hg n⟩
  · exact ⟨n, by rw [Core.modInst, Core.modSlot, Core.slot_setSlot_ne _ _ e]; exact hn, rfl, id⟩

/-- Accesses and waits of a command that completes, and the beats that the array spends on it. -/
theorem Core.pathWaits_regsOnly (k : Core) (shadow : Bool) (w : Waits) (f : Frame) (j : Job) :
    RegsOnly k (if shadow then (k.spAccess f j).waited (foregroundWaits shadow w) else ((k.spAccess f j).waited (foregroundWaits shadow w)).beats 128) := by
  have waits := (k.spAccess_regsOnly f j).trans (Core.waited_regsOnly _ (foregroundWaits shadow w))
  split
  · exact waits
  · exact waits.trans (Core.beats_regsOnly _ _)

theorem RegsOnly.books {k q : Core} (h : RegsOnly k q) : Books k q := by
  unfold RegsOnly at h; rw [h]; exact .withRegs k _

theorem Books.putSet {k q : Core} (h : Books k q) (l : Bool) (a : AccSet) : Books (k.putSet l a) (q.putSet l a) := by
  refine ⟨?_, ?_⟩
  · rw [h.rest]; cases l <;> rfl
  · cases l <;> exact h.insts

@[simp] theorem Core.putSet_sp (k : Core) (l : Bool) (a : AccSet) : (k.putSet l a).sp = k.sp := by cases l <;> rfl
@[simp] theorem Core.putSet_arrayQ (k : Core) (l : Bool) (a : AccSet) : (k.putSet l a).arrayQ = k.arrayQ := by cases l <;> rfl
@[simp] theorem Core.putSet_shadowQ (k : Core) (l : Bool) (a : AccSet) : (k.putSet l a).shadowQ = k.shadowQ := by cases l <;> rfl
@[simp] theorem Core.slot_putSet (k : Core) (l : Bool) (a : AccSet) (i : Fin 8) : (k.putSet l a).slot i = k.slot i := by cases l <;> rfl

theorem Core.setPoison_books (k : Core) (n : Nat) (st : Byte) : Books k (k.setPoison n st) := .withDmem k _

theorem Core.poisonBillet_books (k : Core) (e : BEntry) (st : Byte) : Books k (k.poisonBillet e st) :=
  Books.foldl (f := fun k n => if (k.entry n).size ≠ 0 ∧ linesOverlap (k.entry n).base (2 * (k.entry n).size) e.base (2 * e.size) = true
    then k.setPoison n st else k) (fun k n => by split; exacts [k.setPoison_books n st, .refl k]) _ k

theorem Core.condPoisoned_books (k : Core) (i : Fin 8) : Books k (k.condPoisoned i) := .modInst k i fun _ => ⟨rfl, fun _ => rfl⟩

theorem Core.countTile_books (k : Core) (i : Fin 8) (t : Counts) : Books k (k.countTile i t) := by
  unfold Core.countTile
  have counts := ((k.bumpSat_regsOnly 0x20300 t.nan).trans (Core.bumpSat_regsOnly _ 0x20304 t.inf)).trans (Core.bumpSat_regsOnly _ 0x20308 t.ovf)
  dsimp only
  split
  · exact counts.books
  · exact counts.books.trans (.modInst _ i fun _ => ⟨rfl, id⟩)

theorem Core.recordW1C_books (k : Core) (off lo v : Nat) (more : List (Nat × Nat)) : Books k (k.recordW1C off lo v more) := by
  obtain ⟨m, h⟩ := k.recordW1C_shape off lo v more
  rw [h]; exact .withRegs k m

/- The end of a command on an engine (R129). -/

/-- The head leaves its queue. -/
def Core.popped (k : Core) (shadow : Bool) : Core := if shadow then { k with shadowQ := k.shadowQ.tail } else { k with arrayQ := k.arrayQ.tail }

theorem State.popJob_eq (s : State) (c : Fin 192) (shadow : Bool) (j : Job) (st : Byte) : s.popJob c shadow j st =
    (s.modCore c fun k => (k.popped shadow).cmdEnded j.slot j.seq j.cmd.args.opcode false st).startEngines c := rfl

/-- A command that ends with OK only leaves its queue. -/
theorem State.popJob_ok (s : State) (c : Fin 192) (shadow : Bool) (j : Job) :
    s.popJob c shadow j stOk = (s.modCore c fun k => k.popped shadow).startEngines c := by
  simp [State.popJob_eq, Core.cmdEnded]

@[simp] theorem Core.setOf_popped (k : Core) (shadow l : Bool) : (k.popped shadow).setOf l = k.setOf l := by
  cases shadow <;> cases l <;> rfl

@[simp] theorem Core.popped_sp (k : Core) (shadow : Bool) : (k.popped shadow).sp = k.sp := by cases shadow <;> rfl
@[simp] theorem Core.slot_popped (k : Core) (shadow : Bool) (i : Fin 8) : (k.popped shadow).slot i = k.slot i := by cases shadow <;> rfl

theorem Books.popped_of_spOnly {k k0 q : Core} (h : SpOnly k k0) (h' : Books k0 q) : q.popped false = { k with
    arrayQ := k.arrayQ.tail, regs := (q.popped false).regs, slots := (q.popped false).slots, dmem := (q.popped false).dmem, sp := k0.sp } := by
  have e := h'.rest
  unfold SpOnly at h
  rw [h] at e
  rw [e]; rfl

/-- The queues of a core whose head on one path has gone. -/
theorem Core.popped_queues {k q : Core} (array : q.arrayQ = k.arrayQ) (path : q.shadowQ = k.shadowQ) (shadow : Bool) :
    if shadow then (q.popped shadow).shadowQ = k.shadowQ.tail ∧ (q.popped shadow).arrayQ = k.arrayQ
    else (q.popped shadow).arrayQ = k.arrayQ.tail ∧ (q.popped shadow).shadowQ = k.shadowQ := by
  cases shadow <;> simp [Core.popped, array, path]

/- A tile drawn on a stream counts in its context (R106). -/

theorem State.tileDrawn_setCore (s : State) (c : Fin 192) (k : Core) (x stream : Nat) :
    (s.setCore c k).tileDrawn x stream = (s.tileDrawn x stream).setCore c k := by
  unfold State.tileDrawn
  split <;> rfl

theorem State.countDraw_setCore (s : State) (c : Fin 192) (k : Core) (f : Frame) : (s.setCore c k).countDraw f = (s.countDraw f).setCore c k := by
  unfold State.countDraw
  split
  · exact s.tileDrawn_setCore c k _ _
  · rfl

theorem State.countDraw_shape (s : State) (f : Frame) : ∃ ctxs, s.countDraw f = { s with ctxs := ctxs } := by
  unfold State.countDraw State.tileDrawn
  split
  · split <;> exact ⟨_, rfl⟩
  · exact ⟨_, rfl⟩

/-- An update of the core before the draw counts is one after it. -/
theorem State.countDraw_modCore (s : State) (c : Fin 192) (k : Core) (f : Frame) (g : Core → Core) :
    ((s.setCore c k).countDraw f).modCore c g = (s.setCore c (g k)).countDraw f := by
  simp [State.countDraw_setCore, State.modCore_eq]

/- The array engine's completions (R153, R158 to R160). -/

theorem RegsOnly.popped {k q : Core} (h : RegsOnly k q) : q.popped false = { k with arrayQ := k.arrayQ.tail, regs := q.regs } := by
  unfold RegsOnly at h; rw [h]; rfl

theorem Core.beatCount_accumulate (k : Core) (f : Frame) (mask : MaskSel) (ps : List Pos) : (k.accumulate f mask ps).beatCount = k.beatCount := by
  simp only [Core.accumulate, Core.beatCount_bump64 _ _ (off := 0x20218) (by decide), Core.beatCount_bump64 _ _ (off := 0x20220) (by decide)]
  rfl

theorem Core.accumulate_regs_wf {k : Core} (h : SMap.wf coreReset k.regs = true) (f : Frame) (mask : MaskSel) (ps : List Pos) :
    SMap.wf coreReset (k.accumulate f mask ps).regs = true :=
  Core.bump64_regs_wf (Core.bump64_regs_wf (k := { k with live := _ }) h _ _) _ _

/-- The table that an image of 1,040 B spells (R160). -/
def tableOf (img : List Byte) : ActTable where
  seg := SMap.setAll actDefault [] ((List.range 256).map fun n => (n, BitVec.ofNat 32 (imgLE img (4 * n) 4)))
  e0 := img.getD 0x400 0

theorem tableOf_seg (img : List Byte) {n : Nat} (h : n < 256) :
    SMap.get actDefault (tableOf img).seg n = BitVec.ofNat 32 (imgLE img (4 * n) 4) := by
  rw [tableOf, SMap.get_setAll_range (SMap.wf_nil _), if_pos h]

/-- The core with a table loaded. -/
def Core.withTable (k : Core) (tb : Bool) (t : ActTable) : Core := { k with act := k.act.set (b2n tb % 2) t (Nat.mod_lt _ (by decide)) }

theorem Core.withTable_named (k : Core) (tb : Bool) (t : ActTable) :
    (if tb then (k.withTable tb t).act[1] else (k.withTable tb t).act[0]) = t := by
  cases tb <;> simp [Core.withTable, b2n]

theorem Core.withTable_other (k : Core) (tb : Bool) (t : ActTable) :
    if tb then (k.withTable tb t).act[0] = k.act[0] else (k.withTable tb t).act[1] = k.act[1] := by
  cases tb <;> simp [Core.withTable, b2n]

theorem RegsOnly.popped_withTable {k q : Core} (h : RegsOnly k q) (tb : Bool) (t : ActTable) :
    (q.withTable tb t).popped false = { k with arrayQ := k.arrayQ.tail, regs := q.regs, act := (k.withTable tb t).act } := by
  unfold RegsOnly at h; rw [h]; rfl

theorem Core.completed_regsOnly (k : Core) (beats : Nat) (w : Waits) (f : Frame) (j : Job) : RegsOnly k (((k.beats beats).waited w).spAccess f j) :=
  ((k.beats_regsOnly beats).trans (Core.waited_regsOnly _ w)).trans (Core.spAccess_regsOnly _ f j)

/-- What a completion leaves beside its results: the beats, waits and accesses are counted, and the head is gone. -/
def Core.retired (k : Core) (f : Frame) (j : Job) (beats : Nat) (w : Waits) : Core := (((k.beats beats).waited w).spAccess f j).popped false

theorem Core.retired_eq (k : Core) (f : Frame) (j : Job) (beats : Nat) (w : Waits) :
    k.retired f j beats w = { k with arrayQ := k.arrayQ.tail, regs := (k.retired f j beats w).regs } := (k.completed_regsOnly beats w f j).popped

theorem Core.slot_retired (k : Core) (f : Frame) (j : Job) (n : Nat) (w : Waits) (i : Fin 8) : (k.retired f j n w).slot i = k.slot i := rfl

/-- An engine whose command fails: registers and slots tell how (R131, R148). -/
theorem Core.retired_cmdEnded (k : Core) (f : Frame) (j : Job) (n : Nat) (w : Waits) (opcode : Nat) (st : Byte) :
    (k.retired f j n w).cmdEnded j.slot j.seq opcode false st = { k with
      arrayQ := k.arrayQ.tail, regs := ((k.retired f j n w).cmdEnded j.slot j.seq opcode false st).regs
      slots := ((k.retired f j n w).cmdEnded j.slot j.seq opcode false st).slots } := by
  obtain ⟨regs, slots, ended⟩ := (k.retired f j n w).cmdEnded_shape j.slot j.seq opcode false st
  rw [ended, k.retired_eq]

theorem Core.beatCount_retired {k : Core} (h : SMap.wf coreReset k.regs = true) (f : Frame) (j : Job) (beats : Nat) (w : Waits) :
    (k.retired f j beats w).beatCount = (k.beatCount + beats) % 2 ^ 64 := Core.beatCount_completed h beats w f j

section
variable {c : Fin 192} {w : Waits} {s : State} {j : Job} {f : Frame} (head : (s.core c).arrayHead = some (j, f))
include head

theorem opx_completes {a b : BitVec 8} {kk : BitVec 24} {m : BitVec 4} {bl : Bool} {t0 s0 s1 : BitVec 16} {ea eb : BEntry}
    (args : j.cmd.args = .opx a b kk m bl t0 s0 s1) (billet : f.bCaravan = false) (ents : j.ents = [ea, eb]) :
    exec (.opxComplete c w) s = .next ((s.setCore c (((s.core c).accumulate f ⟨j.mask, bl⟩ (opxPositions (s.core c) f ea 0 kk.toNat fun n e =>
      ((s.core c).stored eb).feedVal (!eb.orient) f.b.t n e)).retired f j (opxLastBeats f kk.toNat) w)).startEngines c) := by
  show execOpxComplete c w s = _
  simp [execOpxComplete, head, args, billet, ents, State.popJob_ok, State.modCore_eq, Core.retired]

theorem opx_caravan_completes {a b : BitVec 8} {kk : BitVec 24} {m : BitVec 4} {bl : Bool} {t0 s0 s1 : BitVec 16}
    (args : j.cmd.args = .opx a b kk m bl t0 s0 s1) (caravan : f.bCaravan = true) (consumed : caravanTiles kk.toNat ≤ j.tile) :
    exec (.opxComplete c w) s = .next ((s.setCore c ((s.core c).retired f j (opxLastBeats f kk.toNat) w)).startEngines c) := by
  show execOpxComplete c w s = _
  simp [execOpxComplete, head, args, caravan, consumed, State.popJob_ok, State.modCore_eq, Core.retired]

/-- The lists of a RED over every row of its shape, and its mark (R70, R71). -/
def Core.reduced (k : Core) (f : Frame) (depth : Nat) (mn cont : Bool) (row : Nat → List (Val × BitVec 24)) : AccSet :=
  { (List.range (shapeRows f.shape)).foldl (fun a i => a.redRow (k.shape f) i depth mn cont (row i)) k.live with red := some depth }

theorem red_completes {a b d : BitVec 8} {n ib : BitVec 24} {mn bs ct : Bool} {ea : BEntry} {rest : List BEntry}
    (args : j.cmd.args = .red a b n mn bs ct ib d) (ents : j.ents = ea :: rest) :
    ∃ q, exec (.redComplete c w) s = .next ((s.setCore c (q.popped false)).startEngines c) ∧
      RegsOnly { s.core c with live := (s.core c).reduced f (d.toNat + 1) mn ct fun i =>
        if i < f.rows then (redStream (s.core c) f ea (if bs then rest.head? else none) n.toNat ib.toNat i).1 else [] } q := by
  refine ⟨?_, ?run, ?regs⟩
  case run =>
    show execRedComplete c w s = _
    simp only [execRedComplete, head, args, ents, State.popJob_ok, State.modCore_eq, State.setCore_setCore, State.core_setCore]
    rfl
  case regs =>
    exact (((Core.beats_regsOnly _ _).trans (Core.bumpSat_regsOnly _ _ _)).trans (Core.waited_regsOnly _ w)).trans (Core.spAccess_regsOnly _ f j)

theorem ewl_completes {a b d : BitVec 8} {n : BitVec 24} {op : BitVec 6} {ky : BitVec 32} {tb : Bool} {ea ed : BEntry} {rest : List BEntry}
    (args : j.cmd.args = .ewl a b n op ky d tb) (results : op ≠ 63) (ents : j.ents = ea :: rest) (dst : rest.getLast? = some ed) :
    let xs := (List.range n.toNat).map (ewlElem (s.core c) f (s.drawKey f (keyMb ((s.core c).mbOf j.slot)) ky.toNat) op.toNat ea
      (if ewlUnary op.toNat then none else rest.head?))
    ∃ q, exec (.ewlComplete c w) s = .next (((s.setCore c (q.popped false)).countDraw f).startEngines c) ∧
      Books ((s.core c).writeSeq ed xs).1 q := by
  intro xs
  refine ⟨?_, ?run, ?books⟩
  case run =>
    show execEwlComplete c w s = _
    simp only [execEwlComplete, head, args, results, ents, dst, if_false, State.popJob_ok, State.countDraw_modCore]
    rfl
  case books => exact ((Core.setPoison_books _ ed.num 0).trans (Core.countTile_books _ j.slot _)).trans (((Core.spAccess_regsOnly _ f j).trans
      (Core.beats_regsOnly _ _)).trans (Core.waited_regsOnly _ w)).books

section
variable {a b d : BitVec 8} {n : BitVec 24} {ky : BitVec 32} {tb : Bool} {ea : BEntry} (args : j.cmd.args = .ewl a b n 63 ky d tb) (ents : j.ents = [ea])
include args ents

theorem tload_completes (clean : ∀ x ∈ ((s.core c).sp.readRun ea.addr 1040).drop 0x401, x = 0) : exec (.ewlComplete c w) s =
    .next ((s.setCore c ((((((s.core c).beats 17).waited w).spAccess f j).withTable tb (tableOf ((s.core c).sp.readRun ea.addr 1040))).popped
      false)).startEngines c) := by
  have good : ((((s.core c).sp.readRun ea.addr 1040).drop 0x401).any (· != 0)) = false := by simpa using clean
  show execEwlComplete c w s = _
  simp only [execEwlComplete, head, args, ents, if_true, good, Bool.false_eq_true, if_false, State.popJob_ok, State.modCore_eq,
    State.setCore_setCore, State.core_setCore]
  rfl

theorem tload_fails (dirty : ∃ x ∈ ((s.core c).sp.readRun ea.addr 1040).drop 0x401, x ≠ 0) : exec (.ewlComplete c w) s =
    .next ((s.setCore c (((s.core c).retired f j 17 w).cmdEnded j.slot j.seq j.cmd.args.opcode false stReserved)).startEngines c) := by
  have bad : ((((s.core c).sp.readRun ea.addr 1040).drop 0x401).any (· != 0)) = true := by simpa using dirty
  show execEwlComplete c w s = _
  simp only [execEwlComplete, head, args, ents, if_true, bad, State.popJob_eq, State.modCore_eq, State.setCore_setCore, State.core_setCore]
  rfl

end

end

/- Both paths: a tolerant SWP that waits on the array engine and is not overdue is left alone (R38, Table 2.6). -/

theorem State.swpOverdue_inTime {s : State} {c : Fin 192} {be : Nat}
    (h : ∀ j f, (s.core c).arrayHead = some (j, f) → j.waiting = true → be < (s.core c).skewLimit) : s.swpOverdue c be = s := by
  unfold State.swpOverdue
  split
  next j f head =>
    split
    · exact if_neg fun late => absurd late.2 (Nat.not_le.2 (h j f head late.1))
    · rfl
  · rfl

/-- The value of cell (i, n) that an ACCLD loads: a zero, or an element of its billet. -/
def Core.loaded (k : Core) (z : Bool) (es : List BEntry) (i n : Nat) : Val :=
  match z, es with
  | false, e :: _ => accldVal k e i n
  | _, _ => .zero

/- The checks and results of a DRN (R57 to R59, R147, R156). -/

theorem abftRecord_eq_none {ms : List (Nat × Marks)} {n : Nat} : abftRecord ms n = none ↔ ∀ m ∈ ms, m.2.any = false := by
  unfold abftRecord
  split
  next h => simpa using h
  next q m rest h =>
    have marked : (q, m) ∈ ms.filter fun m => m.2.any := by rw [h]; exact List.mem_cons_self
    obtain ⟨mem, any⟩ := List.mem_filter.1 marked
    simp only [reduceCtorEq, false_iff]
    exact fun clear => absurd (clear _ mem) (by simpa using any)

/-- What the witness check of a DRN finds in the quadrants of its shape; a set with the RED mark is not checked. -/
def Core.drnMarks (k : Core) (f : Frame) (j : Job) (set : AccSet) : List (Nat × Marks) :=
  if set.red.isSome then [] else (k.shape f).quads.map fun q => (q, set.checkQuad (bitsOf j.tol 7 0) (bitsOf j.tol 12 8) q)

/-- The status with which a DRN ends: a mark, then the set's poison. -/
def drnStatus (marked : Bool) (poison : Byte) : Byte := if marked then stAbft else if poison ≠ 0 then poison else stOk

/-- The billets that a DRN writes. -/
def Core.drnDsts (k : Core) (j : Job) (set : AccSet) (d1 : BitVec 8) : List BEntry :=
  match set.red with
  | some _ => [(j.ents[0]?).getD (k.entry 0), (j.ents[1]?).getD (k.entry d1.toNat)]
  | none => j.ents

theorem Core.drnDsts_copies {k : Core} {j : Job} {set : AccSet} (h : set.red = none) (d1 : BitVec 8) : k.drnDsts j set d1 = j.ents := by
  simp [Core.drnDsts, h]

theorem Core.drnDsts_lists {k : Core} {j : Job} {set : AccSet} {depth : Nat} {e0 e1 : BEntry} (h : set.red = some depth) (ents : j.ents = [e0, e1])
    (d1 : BitVec 8) : k.drnDsts j set d1 = [e0, e1] := by
  simp [Core.drnDsts, h, ents]

/-- The core with the billets of a DRN written, and what is counted: copies, or the lists of a RED tile. -/
def Core.drnWrites (k : Core) (f : Frame) (set : AccSet) (key : DrawKey) (lay : BitVec 2) (dsts : List BEntry) : Core × List Count :=
  match set.red, dsts with
  | some depth, e0 :: e1 :: _ => k.drainLists f set key depth e0 e1
  | _, _ => k.drainCopies f set key lay dsts

theorem Core.drnWrites_copies {k : Core} {f : Frame} {set : AccSet} {key : DrawKey} {lay : BitVec 2} {dsts : List BEntry} (h : set.red = none) :
    k.drnWrites f set key lay dsts = k.drainCopies f set key lay dsts := by
  simp [Core.drnWrites, h]

theorem Core.drnWrites_lists {k : Core} {f : Frame} {set : AccSet} {key : DrawKey} {lay : BitVec 2} {depth : Nat} {e0 e1 : BEntry}
    (h : set.red = some depth) : k.drnWrites f set key lay [e0, e1] = k.drainLists f set key depth e0 e1 := by
  simp [Core.drnWrites, h]

theorem Core.drnWrites_spOnly (k : Core) (f : Frame) (set : AccSet) (key : DrawKey) (lay : BitVec 2) (dsts : List BEntry) :
    SpOnly k (k.drnWrites f set key lay dsts).1 := by
  unfold Core.drnWrites
  split
  · exact k.drainLists_spOnly _ _ _ _ _ _
  · exact k.drainCopies_spOnly _ _ _ _ _

theorem Core.drnCounts_books (k : Core) (i : Fin 8) (t : Counts) (nf ovf skipped : Nat) :
    Books k ((((k.countTile i t).bumpHalf 0x2030C 0 nf).bumpHalf 0x2030C 16 ovf).bump 0x20210 skipped) := 
  (k.countTile_books i t).trans (((Core.bumpHalf_regsOnly _ _ _ _).trans (Core.bumpHalf_regsOnly _ _ _ _)).trans (Core.bump_regsOnly _ _ _)).books

/-- What a DRN leaves of the books, from the core with its billets and its set written: counts, poison of its billets, POISONED and
CORE_ABFT_STATUS. -/
def Core.drnBooked (k : Core) (shadow : Bool) (w : Waits) (f : Frame) (j : Job) (st : Byte) (dsts : List BEntry) (failed : Option (Nat × Nat)) : Core :=
  let k3 := (k.spAccess f j).waited (foregroundWaits shadow w)
  let k4 := if shadow then k3 else k3.beats 128
  let k5 := if st = stOk then dsts.foldl (fun k e => k.setPoison e.num 0) k4
    else (dsts.foldl (fun k e => k.poisonBillet e st) k4).condPoisoned j.slot
  match failed with
  | some (stat, det) => k5.recordW1C 0x20208 8 stat [(0x2020C, det)]
  | none => k5

theorem Core.drnFailed_books (k : Core) (failed : Option (Nat × Nat)) :
    Books k (match failed with
      | some (stat, det) => k.recordW1C 0x20208 8 stat [(0x2020C, det)]
      | none => k) := by
  cases failed with
  | none => exact .refl k
  | some p => exact k.recordW1C_books _ _ _ _

theorem Core.drnBooked_books (k : Core) (shadow : Bool) (w : Waits) (f : Frame) (j : Job) (st : Byte) (dsts : List BEntry)
    (failed : Option (Nat × Nat)) : Books k (k.drnBooked shadow w f j st dsts failed) := by
  unfold Core.drnBooked
  extract_lets k3 k4 k5
  have h4 : Books k k4 := (k.pathWaits_regsOnly shadow w f j).books
  have h5 : Books k4 k5 := by
    unfold k5
    split
    · exact Books.foldl (fun k e => k.setPoison_books e.num 0) dsts k4
    · exact (Books.foldl (fun k e => k.poisonBillet_books e st) dsts k4).trans (Core.condPoisoned_books _ _)
  exact (h4.trans h5).trans (k5.drnFailed_books failed)

/-- A DRN that fails takes POISONED (R147). -/
theorem Core.drnBooked_poisoned {k : Core} {shadow : Bool} {w : Waits} {f : Frame} {j : Job} {st : Byte} {dsts : List BEntry}
    {failed : Option (Nat × Nat)} (bad : st ≠ stOk) {n : Inst} (inst : (k.slot j.slot).inst = some n) :
    ∃ n', ((k.drnBooked shadow w f j st dsts failed).slot j.slot).inst = some n' ∧ n'.failed = n.failed ∧ n'.poisoned = true := by
  unfold Core.drnBooked
  extract_lets k3 k4 k5
  have h4 : Books k k4 := (k.pathWaits_regsOnly shadow w f j).books
  have marked : Books k (dsts.foldl (fun k e => k.poisonBillet e st) k4) := h4.trans (Books.foldl (fun k e => k.poisonBillet_books e st) dsts k4)
  obtain ⟨n1, inst1, failed1, -⟩ := marked.insts _ n inst
  have inst2 : (k5.slot j.slot).inst = some { n1 with poisoned := true } := by
    unfold k5; rw [if_neg bad]; exact Core.inst_modInst inst1 _
  obtain ⟨n3, inst3, failed3, poisoned3⟩ := (k5.drnFailed_books failed).insts _ _ inst2
  exact ⟨n3, inst3, failed3.trans failed1, poisoned3 rfl⟩

section
variable {c : Fin 192} {w : Waits} {s : State} {j : Job} {f : Frame} {shadow : Bool}
  (head : (if shadow then (s.core c).shadowHead else (s.core c).arrayHead) = some (j, f))
  (inTime : shadow = true → s.swpOverdue c w.skew = s)
include head inTime

omit head in
theorem swpOverdue_onShadow : (if shadow then s.swpOverdue c w.skew else s) = s := by
  split
  · exact inTime ‹_›
  · rfl

theorem accld_completes {sr : BitVec 8} {live z : Bool} {fm : BitVec 5} {sc : BitVec 2} {tag : BitVec 8}
    (args : j.cmd.args = .accld sr live z fm sc tag) :
    let k := s.core c
    let set : AccSet := { loadSet (k.shape f) (if z then 0 else f.rows) f.cols (k.loaded z j.ents) tag with
      complete := true, poison := (k.setOf (!shadow)).poison }
    ∃ q, exec (.accldComplete c shadow w) s = .next (((s.setCore c (q.popped shadow)).startEngines c).swpRetry c w.skew) ∧
      RegsOnly (k.putSet (!shadow) set) q := by
  intro k set
  refine ⟨?_, ?run, ?regs⟩
  case run =>
    show execAccldComplete c shadow w s = _
    simp only [execAccldComplete, head, args, swpOverdue_onShadow inTime, State.popJob_ok, State.modCore_eq, State.setCore_setCore, State.core_setCore]
    rfl
  case regs => exact Core.pathWaits_regsOnly _ shadow w f j

theorem drn_completes {d0 d1 : BitVec 8} {live cl : Bool} {lay : BitVec 2} {tag : BitVec 8} {ky : BitVec 32}
    (args : j.cmd.args = .drn d0 d1 live cl lay tag ky) :
    let k := s.core c
    let set := k.setOf (!shadow)
    let dsts := k.drnDsts j set d1
    let failed := abftRecord (k.drnMarks f j set) j.seq
    let st := drnStatus failed.isSome set.poison
    ∃ k1, Books (k.drnWrites f set (s.drawKey f (keyMb (k.mbOf j.slot)) ky.toNat) lay dsts).1 k1 ∧
      let q := (k1.putSet (!shadow) (set.drained cl tag)).drnBooked shadow w f j st dsts failed
      let s1 := (s.setCore c q).countDraw f
      exec (.drnComplete c shadow w) s =
        .next (((if failed.isSome then (s1.logAbft c).abftQueued c else s1).popJob c shadow j st).swpRetry c w.skew) := by
  intro k set dsts failed st
  refine ⟨?_, ?books, ?run⟩
  case run =>
    show execDrnComplete c shadow w s = _
    simp only [execDrnComplete, head, args, swpOverdue_onShadow inTime]
    rfl
  case books => exact Core.drnCounts_books _ j.slot _ _ _ _

end

/- A lone DRN on the shadow path: nothing starts after it. -/

theorem State.startEngines_idle {s : State} {c : Fin 192} (array : (s.core c).arrayQ = []) (shadow : (s.core c).shadowQ = []) :
    s.startEngines c = s :=
  State.startEngines_eq (fun _ => State.startShadow_empty shadow) (fun _ => State.startArray_empty array) (fun _ => State.startShadow_empty shadow)

theorem Core.arrayHead_idle {k : Core} (array : k.arrayQ = []) : k.arrayHead = none := by
  simp [Core.arrayHead, array]

/-- The only command of both engines ends, and nothing starts after it. -/
theorem State.popJob_last {s : State} {c : Fin 192} {j : Job} (alone : (s.core c).shadowQ = [j]) (idle : (s.core c).arrayQ = []) (st : Byte) (be : Nat) :
    (s.popJob c true j st).swpRetry c be = s.modCore c fun k => (k.popped true).cmdEnded j.slot j.seq j.cmd.args.opcode false st := by
  obtain ⟨regs, slots, ended⟩ := ((s.core c).popped true).cmdEnded_shape j.slot j.seq j.cmd.args.opcode false st
  have array : ((s.modCore c fun k => (k.popped true).cmdEnded j.slot j.seq j.cmd.args.opcode false st).core c).arrayQ = [] := by
    rw [State.core_modCore_same, ended]; exact idle
  have shadow : ((s.modCore c fun k => (k.popped true).cmdEnded j.slot j.seq j.cmd.args.opcode false st).core c).shadowQ = [] := by
    rw [State.core_modCore_same, ended]; exact congrArg List.tail alone
  rw [State.popJob_eq, State.startEngines_idle array shadow, State.swpRetry, Core.arrayHead_idle array]

/-- A command that fails once POISONED is taken: its status is the one to report, unless an earlier one failed (R131). -/
theorem Core.cmdEnded_inst {k : Core} {i : Fin 8} {n : Inst} (inst : (k.slot i).inst = some n) (seq opcode : Nat) {st : Byte} (ok : st ≠ stOk)
    (part : st ≠ stPartial) : ((k.cmdEnded i seq opcode false st).slot i).inst = some { n with failed := some (n.failed.getD st) } := by
  obtain ⟨regs, ended⟩ := k.cmdEnded_failed i seq opcode false ok part
  rw [ended]
  exact Core.inst_modInst (k := { k with regs := regs }) inst _

@[simp] theorem State.core_countDraw (s : State) (f : Frame) (c : Fin 192) : (s.countDraw f).core c = s.core c := by
  obtain ⟨_, h⟩ := s.countDraw_shape f; rw [h]; rfl

@[simp] theorem State.lanternQ_countDraw (s : State) (f : Frame) : (s.countDraw f).lanternQ = s.lanternQ := by
  obtain ⟨_, h⟩ := s.countDraw_shape f; rw [h]

@[simp] theorem State.lanternQ_logFault (s : State) (e : LogEntry) : (s.logFault e).lanternQ = s.lanternQ := by
  obtain ⟨_, _, _, _, h⟩ := s.logFault_shape e; rw [h]

theorem State.queueSweep_room {s : State} (room : s.lanternQ.length < 16) (q : Sweep) : s.queueSweep q = { s with lanternQ := s.lanternQ ++ [q] } :=
  if_pos room

@[simp] theorem State.core_queueSweep (s : State) (q : Sweep) (c : Fin 192) : (s.queueSweep q).core c = s.core c := by
  unfold State.queueSweep; split <;> rfl

/-- A sweep is queued by a drain that finds a mark (R59), and by no other. -/
def State.swept (s : State) (c : Fin 192) (marked : Bool) : State := if marked then (s.logAbft c).abftQueued c else s

@[simp] theorem State.core_swept (s : State) (c : Fin 192) (marked : Bool) (d : Fin 192) : (s.swept c marked).core d = s.core d := by
  cases marked
  · rfl
  · exact (State.core_queueSweep _ _ _).trans (State.core_logFault _ _ _)

theorem State.lanternQ_swept_false (s : State) (c : Fin 192) : (s.swept c false).lanternQ = s.lanternQ := rfl

theorem State.lanternQ_swept_true {s : State} (room : s.lanternQ.length < 16) (c : Fin 192) :
    (s.swept c true).lanternQ = s.lanternQ ++ [{ toll := false, unit := c.val, groups := 0x33 }] := by
  have logged : (s.logAbft c).lanternQ = s.lanternQ := s.lanternQ_logFault _
  have queued := State.queueSweep_room (s := s.logAbft c) (by rwa [logged]) { toll := false, unit := c.val, groups := 0x33 }
  rw [State.swept, if_pos rfl, State.abftQueued, queued, logged]

section
variable {c : Fin 192} {w : Waits} {s : State} {j : Job} {f : Frame} {shadow : Bool}
  (head : (if shadow then (s.core c).shadowHead else (s.core c).arrayHead) = some (j, f))
  (inTime : shadow = true → s.swpOverdue c w.skew = s)
  {d0 d1 : BitVec 8} {live cl : Bool} {lay : BitVec 2} {tag : BitVec 8} {ky : BitVec 32}
  (args : j.cmd.args = .drn d0 d1 live cl lay tag ky)
include head inTime args

/-- What a DRN leaves on its core as it ends with status `st`. -/
theorem drn_leaves {st : Byte} {failed : Option (Nat × Nat)}
    (record : abftRecord ((s.core c).drnMarks f j ((s.core c).setOf (!shadow))) j.seq = failed)
    (status : drnStatus failed.isSome ((s.core c).setOf (!shadow)).poison = st) :
    let k := s.core c
    let set := k.setOf (!shadow)
    ∃ q, exec (.drnComplete c shadow w) s = .next (((((s.setCore c q).countDraw f).swept c failed.isSome).popJob c shadow j st).swpRetry c w.skew) ∧
      q.sp = (k.drnWrites f set (s.drawKey f (keyMb (k.mbOf j.slot)) ky.toNat) lay (k.drnDsts j set d1)).1.sp ∧
      q.setOf (!shadow) = set.drained cl tag ∧ q.setOf shadow = k.setOf shadow ∧ q.arrayQ = k.arrayQ ∧ q.shadowQ = k.shadowQ ∧
      (st ≠ stOk → ∀ n, (k.slot j.slot).inst = some n →
        ∃ n', (q.slot j.slot).inst = some n' ∧ n'.failed = n.failed ∧ n'.poisoned = true) := by
  intro k set
  obtain ⟨k1, counted, run⟩ := drn_completes head inTime args
  have written := k.drnWrites_spOnly f set (s.drawKey f (keyMb (k.mbOf j.slot)) ky.toNat) lay (k.drnDsts j set d1)
  rw [record, status] at run
  have booked := (k1.putSet (!shadow) (set.drained cl tag)).drnBooked_books shadow w f j st (k.drnDsts j set d1) failed
  refine ⟨_, run, ?_, ?_, ?_, ?_, ?_, fun ok n inst => ?_⟩
  · rw [booked.sp, Core.putSet_sp, counted.sp]
  · rw [booked.setOf, Core.setOf_putSet]
  · have other := k1.setOf_putSet_other (!shadow) (set.drained cl tag)
    rw [Bool.not_not] at other
    rw [booked.setOf, other, counted.setOf, written.setOf]
  · rw [booked.arrayQ, Core.putSet_arrayQ, counted.arrayQ, written.arrayQ]
  · rw [booked.shadowQ, Core.putSet_shadowQ, counted.shadowQ, written.shadowQ]
  · obtain ⟨n1, inst1, failed1, -⟩ := counted.insts j.slot n (by rw [written.slot]; exact inst)
    obtain ⟨n2, inst2, failed2, poisoned⟩ := Core.drnBooked_poisoned (k := k1.putSet (!shadow) (set.drained cl tag)) (shadow := shadow) (w := w)
      (f := f) (dsts := k.drnDsts j set d1) (failed := failed) ok (by rw [Core.slot_putSet]; exact inst1)
    exact ⟨n2, inst2, failed2.trans failed1, poisoned⟩

/-- A DRN that finds no fault ends with OK: its billets and its set are written, and what waits starts. -/
theorem drn_clean (unpoisoned : ((s.core c).setOf (!shadow)).poison = 0)
    (unmarked : ∀ m ∈ (s.core c).drnMarks f j ((s.core c).setOf (!shadow)), m.2.any = false) :
    let k := s.core c
    let set := k.setOf (!shadow)
    ∃ q, exec (.drnComplete c shadow w) s = .next ((((s.setCore c q).countDraw f).startEngines c).swpRetry c w.skew) ∧
      q.sp = (k.drnWrites f set (s.drawKey f (keyMb (k.mbOf j.slot)) ky.toNat) lay (k.drnDsts j set d1)).1.sp ∧
      q.setOf (!shadow) = set.drained cl tag ∧ q.setOf shadow = k.setOf shadow ∧
      if shadow then q.shadowQ = k.shadowQ.tail ∧ q.arrayQ = k.arrayQ else q.arrayQ = k.arrayQ.tail ∧ q.shadowQ = k.shadowQ := by
  intro k set
  obtain ⟨q, run, sp, written, other, array, path, -⟩ := drn_leaves head inTime args (abftRecord_eq_none.2 unmarked)
    (by rw [unpoisoned]; rfl : _ = stOk)
  rw [State.popJob_ok] at run
  refine ⟨q.popped shadow, run.trans ?_, ?_, ?_, ?_, Core.popped_queues array path shadow⟩
  · rw [Option.isSome_none, State.swept, if_neg Bool.false_ne_true, s.countDraw_modCore c q f]
  · rw [Core.popped_sp, sp]
  · rw [Core.setOf_popped, written]
  · rw [Core.setOf_popped, other]

end

section
variable {c : Fin 192} {w : Waits} {s : State} {j : Job} {f : Frame} {d0 d1 : BitVec 8} {live cl : Bool} {lay : BitVec 2} {tag : BitVec 8}
  {ky : BitVec 32} {n : Inst} (alone : (s.core c).shadowQ = [j]) (idle : (s.core c).arrayQ = []) (head : (s.core c).shadowHead = some (j, f))
  (args : j.cmd.args = .drn d0 d1 live cl lay tag ky) (inst : ((s.core c).slot j.slot).inst = some n)
include alone idle head args inst

/-- A DRN that ends with a failing status: its slot's work fails and takes POISONED, and its set takes the tag. -/
theorem drn_fails {st : Byte} {failed : Option (Nat × Nat)} (record : abftRecord ((s.core c).drnMarks f j (s.core c).shadow) j.seq = failed)
    (status : drnStatus failed.isSome (s.core c).shadow.poison = st) (ok : st ≠ stOk) (part : st ≠ stPartial) :
    ∃ t n', exec (.drnComplete c true w) s = .next t ∧ ((t.core c).slot j.slot).inst = some n' ∧ n'.failed = some (n.failed.getD st) ∧
      n'.poisoned = true ∧ (t.core c).shadow.tag = some tag ∧ ∃ q, t.lanternQ = (((s.setCore c q).countDraw f).swept c failed.isSome).lanternQ := by
  have inTime : s.swpOverdue c w.skew = s := State.swpOverdue_inTime fun _ _ h => by rw [Core.arrayHead_idle idle] at h; cases h
  obtain ⟨q, run, -, written, -, array, path, fails⟩ := drn_leaves (shadow := true) head (fun _ => inTime) args record status
  obtain ⟨n', inst', failed', poisoned⟩ := fails ok n inst
  have core : (((s.setCore c q).countDraw f).swept c failed.isSome).core c = q := by simp
  rw [State.popJob_last (by rw [core, path, alone]) (by rw [core, array, idle])] at run
  refine ⟨_, { n' with failed := some (n'.failed.getD st) }, run, ?_, by rw [failed'], poisoned, ?_, q, rfl⟩
  · rw [State.core_modCore_same, core]
    exact Core.cmdEnded_inst (by rw [Core.slot_popped]; exact inst') _ _ ok part
  · obtain ⟨regs, slots, ended⟩ := (q.popped true).cmdEnded_shape j.slot j.seq j.cmd.args.opcode false st
    have tagged : q.shadow = (s.core c).shadow.drained cl tag := written
    rw [State.core_modCore_same, core, ended]
    show q.shadow.tag = some tag
    rw [tagged]
    cases cl <;> rfl

end

/-- Settles O17: a mark gives ABFT_MISMATCH, and without one the set's poison is the status. -/
theorem drainFindsFaults : Obligations.DrainFindsFaults := by
  unfold Obligations.DrainFindsFaults
  intro c s j f d0 d1 live cl lay tag key w n k bad alone idle head args inst
  have marked : bad ↔ ∃ m ∈ k.drnMarks f j k.shadow, m.2.any = true := by
    unfold Core.drnMarks
    cases h : k.shadow.red with
    | none => simp [bad, h]
    | some depth => simp [bad, h]
  refine ⟨fun found room => ?_, fun clean poison part => ?_⟩
  · obtain ⟨m, mem, any⟩ := marked.1 found
    obtain ⟨p, record⟩ : ∃ p, abftRecord (k.drnMarks f j k.shadow) j.seq = some p := by
      refine Option.ne_none_iff_exists'.1 fun none => ?_
      rw [abftRecord_eq_none.1 none m mem] at any; cases any
    obtain ⟨t, n', run, inst', failed, poisoned, tagged, q, swept⟩ := drn_fails alone idle head args inst record (w := w)
      (st := stAbft) rfl (by decide) (by decide)
    refine ⟨t, n', run, inst', failed, poisoned, tagged, ?_⟩
    rw [swept]
    exact (State.lanternQ_swept_true (by simpa using room) c).trans (by simp)
  · have record : abftRecord (k.drnMarks f j k.shadow) j.seq = none :=
      abftRecord_eq_none.2 fun m mem => Bool.eq_false_iff.2 fun any => clean (marked.2 ⟨m, mem, any⟩)
    obtain ⟨t, n', run, inst', failed, poisoned, -, q, swept⟩ := drn_fails alone idle head args inst record (w := w)
      (st := k.shadow.poison) (if_pos poison) poison part
    exact ⟨t, n', run, inst', failed, poisoned, by rw [swept]; simp [State.lanternQ_swept_false]⟩

section
variable {c : Fin 192} {w : Waits} {s : State} {j : Job} {f : Frame} (head : (s.core c).arrayHead = some (j, f)) {a b d : BitVec 8} {n : BitVec 24}
  {ky : BitVec 32} {tb : Bool} {ea : BEntry} (args : j.cmd.args = .ewl a b n 63 ky d tb) (ents : j.ents = [ea])
include head args ents

/-- A TLOAD loads the table that it names, and leaves the other (R160). -/
theorem tload_table (clean : ∀ x ∈ ((s.core c).sp.readRun ea.addr 1040).drop 0x401, x = 0) :
    let k := s.core c
    let img := k.sp.readRun ea.addr 1040
    ∃ q, exec (.ewlComplete c w) s = .next ((s.setCore c q).startEngines c) ∧ q = { k with arrayQ := k.arrayQ.tail, regs := q.regs, act := q.act } ∧
      (∀ n, n < 256 → SMap.get actDefault (if tb then q.act[1] else q.act[0]).seg n = BitVec.ofNat 32 (imgLE img (4 * n) 4)) ∧
      (if tb then q.act[1] else q.act[0]).e0 = img.getD 0x400 0 ∧ (if tb then q.act[0] = k.act[0] else q.act[1] = k.act[1]) := by
  intro k img
  have named := k.withTable_named tb (tableOf img)
  have run := tload_completes head (w := w) args ents clean
  rw [((s.core c).completed_regsOnly 17 w f j).popped_withTable] at run
  refine ⟨_, run, rfl, fun n hn => ?_, ?_, k.withTable_other tb (tableOf img)⟩
  · exact (congrArg (fun t : ActTable => SMap.get actDefault t.seg n) named).trans (tableOf_seg img hn)
  · exact congrArg ActTable.e0 named

/-- A TLOAD whose image has bytes after the exponent fails with RESERVED_NONZERO (R160). -/
theorem tload_reserved (dirty : ∃ x ∈ ((s.core c).sp.readRun ea.addr 1040).drop 0x401, x ≠ 0) :
    let k := s.core c
    ∃ q, exec (.ewlComplete c w) s = .next ((s.setCore c q).startEngines c) ∧ q = { k with arrayQ := k.arrayQ.tail, regs := q.regs, slots := q.slots } ∧
      ∀ m, (k.slot j.slot).inst = some m → ∃ m', (q.slot j.slot).inst = some m' ∧ m'.failed = some (m.failed.getD stReserved) := by
  intro k
  refine ⟨_, tload_fails head args ents dirty, Core.retired_cmdEnded .., fun m inst => ?_⟩
  exact ⟨_, Core.cmdEnded_inst (k := k.retired f j 17 w) (by rw [Core.slot_retired, inst]) _ _ (by decide) (by decide), rfl⟩

end

section
variable {c : Fin 192} {w : Waits} {s : State} {j : Job} {f : Frame} {shadow : Bool}
  (head : (if shadow then (s.core c).shadowHead else (s.core c).arrayHead) = some (j, f))
  (inTime : shadow = true → s.swpOverdue c w.skew = s)
include head inTime

/-- An ACCLD leaves its set loaded, tagged and complete, the other set and the other path as they were (R154). -/
theorem accld_loads {sr : BitVec 8} {live z : Bool} {fm : BitVec 5} {sc : BitVec 2} {tag : BitVec 8}
    (args : j.cmd.args = .accld sr live z fm sc tag) :
    let k := s.core c
    ∃ q, exec (.accldComplete c shadow w) s = .next (((s.setCore c q).startEngines c).swpRetry c w.skew) ∧
      (q.slots = k.slots ∧ q.sp = k.sp ∧ q.dmem = k.dmem ∧
        q.setOf (!shadow) = { loadSet (k.shape f) (if z then 0 else f.rows) f.cols (k.loaded z j.ents) tag with
          complete := true, poison := (k.setOf (!shadow)).poison }) ∧
      (if shadow then q.shadowQ = k.shadowQ.tail ∧ q.arrayQ = k.arrayQ else q.arrayQ = k.arrayQ.tail ∧ q.shadowQ = k.shadowQ) ∧
      q.setOf shadow = k.setOf shadow := by
  intro k
  obtain ⟨q, run, regs⟩ := accld_completes head inTime args
  refine ⟨_, run, ?_⟩
  unfold RegsOnly at regs
  generalize AccSet.mk _ _ _ _ _ = set at regs ⊢
  rw [regs]
  cases shadow <;> exact ⟨⟨rfl, rfl, rfl, rfl⟩, ⟨rfl, rfl⟩, rfl⟩

end

/-- Settles O16: each completion is the rule of its command above. -/
theorem arrayCommandsComplete : Obligations.ArrayCommandsComplete := by
  unfold Obligations.ArrayCommandsComplete
  intro c w s j f k beats gives key ended
  refine ⟨fun head => ⟨?opx, ?caravan, ?red, ?ewl, ?tload⟩, ?both⟩
  case opx =>
    intro a b kk m bl t0 s0 s1 ea eb args billet ents
    refine ⟨_, opx_completes head args billet ents, fun wf => ?_, Core.retired_eq ..⟩
    exact (Core.beatCount_retired (Core.accumulate_regs_wf wf ..) ..).trans (by rw [Core.beatCount_accumulate]; rfl)
  case caravan =>
    intro a b kk m bl t0 s0 s1 args caravan consumed
    exact ⟨_, opx_caravan_completes head args caravan consumed, fun wf => Core.beatCount_retired wf .., Core.retired_eq ..⟩
  case red =>
    intro a b nn mn bs ct ib d ea rest args ents row
    obtain ⟨q, run, regs⟩ := red_completes head (w := w) args ents
    exact ⟨_, run, regs.popped⟩
  case ewl =>
    intro a b nn op ky d tb ea rest ed args results ents dst
    obtain ⟨q, run, books⟩ := ewl_completes head (w := w) args results ents dst
    exact ⟨_, run, books.popped_of_spOnly (k.writeSeq_spOnly _ _)⟩
  case tload =>
    intro a b nn ky d tb ea args ents img
    exact ⟨tload_table head args ents, tload_reserved head args ents⟩
  case both =>
    intro shadow head inTime set gives
    have inTime : shadow = true → s.swpOverdue c w.skew = s := fun h => State.swpOverdue_inTime (inTime h)
    refine ⟨?accld, fun d0 d1 live cl lay tag ky args unpoisoned => ⟨?copies, ?lists⟩⟩
    case accld =>
      rintro sr live z fm sc tag es args rfl - v
      exact accld_loads head inTime args
    case copies =>
      intro red clear
      have unmarked : ∀ m ∈ k.drnMarks f j set, m.2.any = false := by simp [Core.drnMarks, red, clear]
      obtain ⟨q, run, sp, rest⟩ := drn_clean head inTime args unpoisoned unmarked
      exact ⟨q, run, sp.trans (by rw [Core.drnWrites_copies red, Core.drnDsts_copies red]), rest⟩
    case lists =>
      intro depth e0 e1 red ents
      have unmarked : ∀ m ∈ k.drnMarks f j set, m.2.any = false := by simp [Core.drnMarks, red]
      obtain ⟨q, run, sp, written, other, -⟩ := drn_clean head inTime args unpoisoned unmarked
      exact ⟨q, run, sp.trans (by rw [Core.drnDsts_lists red ents, Core.drnWrites_lists red]), written, other⟩

end Sys2Proof.Machine
end

section
/-! PROOF. What instances keep as they end: images of cores, and the states of contexts (O46). -/

namespace Sys2Proof.Machine

/- What instances keep as they end: the image of a core but for their own marks, and the state of a context (R131, R205, R212, R395). -/

/-- None of a core's instances has entries of the billet table to give back (R186). -/
def Core.NoneTaken (k : Core) : Prop := ∀ i n, (k.slot i).inst = some n → n.taken = []

/-- From `k` to `q` a core keeps its instructions, masks, Steward registers, context and role, and its data memory while none of its
instances has taken entries. -/
structure CoreKept (k q : Core) : Prop where
  imem0 : q.imem0 = k.imem0
  imem1 : q.imem1 = k.imem1
  mask : q.mask = k.mask
  g : q.stw.g = k.stw.g
  pc : q.stw.pc = k.stw.pc
  ctx : q.ctx = k.ctx
  role : q.role = k.role
  dmem : k.NoneTaken → q.dmem = k.dmem ∧ q.NoneTaken

/-- All that `CoreKept` speaks of. -/
def Core.keeps (k : Core) := (k.imem0, k.imem1, k.mask, k.stw.g, k.stw.pc, k.ctx, k.role, k.dmem, k.slots)

theorem CoreKept.of_same {k q : Core} (h : q.keeps = k.keeps) : CoreKept k q := by
  simp only [Core.keeps, Prod.mk.injEq] at h
  obtain ⟨imem0, imem1, mask, g, pc, ctx, role, dmem, slots⟩ := h
  exact ⟨imem0, imem1, mask, g, pc, ctx, role, fun none => ⟨dmem, fun i n inst => none i n (by rw [Core.slot, ← slots]; exact inst)⟩⟩

theorem CoreKept.refl (k : Core) : CoreKept k k := .of_same rfl

theorem CoreKept.trans {k q r : Core} (h : CoreKept k q) (h' : CoreKept q r) : CoreKept k r where
  imem0 := h'.imem0.trans h.imem0
  imem1 := h'.imem1.trans h.imem1
  mask := h'.mask.trans h.mask
  g := h'.g.trans h.g
  pc := h'.pc.trans h.pc
  ctx := h'.ctx.trans h.ctx
  role := h'.role.trans h.role
  dmem none :=
    have ⟨same, none'⟩ := h.dmem none
    have ⟨same', none''⟩ := h'.dmem none'
    ⟨same'.trans same, none''⟩

theorem CoreKept.ite {k a b : Core} {p : Prop} [Decidable p] (ha : CoreKept k a) (hb : CoreKept k b) : CoreKept k (if p then a else b) := by
  split <;> assumption

theorem CoreKept.foldl {α : Type} {f : Core → α → Core} (hf : ∀ k a, CoreKept k (f k a)) (l : List α) (k : Core) : CoreKept k (l.foldl f k) := by
  induction l generalizing k with
  | nil => exact .refl k
  | cons a l ih => exact (hf k a).trans (ih _)

/-- An update of a slot that leaves what its instances have taken. -/
theorem CoreKept.setSlot {k : Core} {i : Fin 8} {v : Slot} (h : ∀ n, v.inst = some n → ∃ m, (k.slot i).inst = some m ∧ n.taken = m.taken) :
    CoreKept k (k.setSlot i v) := by
  refine ⟨rfl, rfl, rfl, rfl, rfl, rfl, rfl, fun none => ⟨rfl, fun j n inst => ?_⟩⟩
  by_cases e : i = j
  · subst e
    rw [Core.slot_setSlot] at inst
    obtain ⟨m, held, taken⟩ := h n inst
    exact taken.trans (none i m held)
  · rw [Core.slot_setSlot_ne _ _ e] at inst
    exact none j n inst

theorem RegsOnly.kept {k q : Core} (h : RegsOnly k q) : CoreKept k q := by
  unfold RegsOnly at h
  rw [h]
  exact .of_same rfl

theorem Core.raiseEvent_kept (k : Core) (bit : Nat) : CoreKept k (k.raiseEvent bit) := .of_same rfl

theorem Core.setEnd_kept (k : Core) (e : Fin 16) (v : Endpoint) : CoreKept k (k.setEnd e v) :=
  .of_same rfl

/-- Declarations and the admission queue are no part of what is kept. -/
theorem Core.withAdmission_kept (k : Core) (done : List (BitVec 16)) (queue held : List Word) :
    CoreKept k { k with fwdDone := done, admitQ := queue, heldNotices := held } := .of_same rfl

/-- Neither are the queues, the accumulators and the port. -/
theorem Core.withEngines_kept (k : Core) (a b q : List Job) (p : List PJob) (live shadow : AccSet) (owner : Option (Fin 8)) (car : Caravan) :
    CoreKept k { k with arrayQ := a, shadowQ := b, queueQ := q, porterQ := p, live := live, shadow := shadow, liveOwner := owner, car := car } :=
  .of_same rfl

theorem Core.withDraw_kept (k : Core) (d : Nat) : CoreKept k { k with draw := d } := .of_same rfl

theorem Core.postAdmit_kept (k : Core) (w : Word) : CoreKept k (k.postAdmit w) := (k.withAdmission_kept _ _ _).trans (Core.raiseEvent_kept _ _)

theorem Core.postNotice_kept (k : Core) (m : Nat) : CoreKept k (k.postNotice m) :=
  (CoreKept.ite (k.withAdmission_kept _ _ _) (.ite (k.postAdmit_kept _) (k.withAdmission_kept _ _ _))).trans (Core.raiseEvent_kept _ _)

theorem Core.carHold_kept (k : Core) (owed : Nat) : CoreKept k (k.carHold owed) := .ite (k.withEngines_kept _ _ _ _ _ _ _ _) (.refl k)

theorem Core.recordCmdFault_kept (k : Core) (slot : Fin 8) (st : Byte) (opcode : Nat) (atIssue : Bool) (idx mb : Nat) :
    CoreKept k (k.recordCmdFault slot st opcode atIssue idx mb) := by
  obtain ⟨m, h⟩ := k.recordW1C_shape 0x20500 4 (slot.val * 2 + st.toNat * 2 ^ 8 + opcode % 256 * 2 ^ 16 + b2n atIssue * 2 ^ 24)
    [(0x20504, idx % 2 ^ 16 + mb * 2 ^ 16)]
  rw [Core.recordCmdFault, h]
  exact RegsOnly.kept rfl

theorem Core.clearSets_kept (k : Core) (i : Fin 8) (f : Frame) : CoreKept k (k.clearSets i f) := by
  have resident : CoreKept k (k.modSlot i fun v => { v with resident := true }) := .setSlot fun n inst => ⟨n, inst, rfl⟩
  exact .ite (k.withEngines_kept _ _ _ _ _ _ _ _) (.ite (resident.trans (Core.withEngines_kept _ _ _ _ _ _ _ _ _)) (.refl k))

/-- Slots returned: entries of the billet table are emptied, unless none were taken. -/
theorem Core.returnSlots_kept (k : Core) {n : Inst} (h : k.NoneTaken → n.taken = []) : CoreKept k (k.returnSlots n) := by
  have rest : ∀ q : Core, ∃ dmem ends, q.returnSlots n = { q with dmem := dmem, ends := ends } := by
    unfold Core.returnSlots
    generalize n.taken = l
    intro q
    induction l generalizing q with
    | nil => exact ⟨_, _, rfl⟩
    | cons t l ih =>
      rw [List.foldl_cons]
      split <;> obtain ⟨dmem, ends, e⟩ := ih _ <;> exact ⟨dmem, ends, e⟩
  obtain ⟨dmem, ends, e⟩ := rest k
  rw [e]
  refine ⟨rfl, rfl, rfl, rfl, rfl, rfl, rfl, fun none => ⟨?_, none⟩⟩
  have same : k.returnSlots n = k := by rw [Core.returnSlots, h none]; rfl
  exact (congrArg Core.dmem e).symm.trans (congrArg Core.dmem same)

/-- From `s` to `t` every core keeps what `CoreKept` names, and every context its state, unless it is an orphan's. -/
structure Kept (s t : State) : Prop where
  cores : ∀ c, CoreKept (s.core c) (t.core c)
  ctxs : ∀ x, (s.ctx x).state ≠ .orphaned → (t.ctx x).state = (s.ctx x).state

theorem Kept.refl (s : State) : Kept s s := ⟨fun _ => .refl _, fun _ _ => rfl⟩

theorem Kept.trans {s t u : State} (h : Kept s t) (h' : Kept t u) : Kept s u := by
  refine ⟨fun c => (h.cores c).trans (h'.cores c), fun x live => ?_⟩
  have same := h.ctxs x live
  exact (h'.ctxs x (same ▸ live)).trans same

theorem Kept.ite {s a b : State} {p : Prop} [Decidable p] (ha : Kept s a) (hb : Kept s b) : Kept s (if p then a else b) := by
  split <;> assumption

theorem Kept.foldl {α : Type} {f : State → α → State} (hf : ∀ s a, Kept s (f s a)) (l : List α) (s : State) : Kept s (l.foldl f s) := by
  induction l generalizing s with
  | nil => exact .refl s
  | cons a l ih => exact (hf s a).trans (ih _)

theorem Kept.of_eq {s t : State} (cores : t.cores = s.cores) (ctxs : t.ctxs = s.ctxs) : Kept s t := by
  refine ⟨fun c => ?_, fun x _ => ?_⟩
  · rw [State.core, State.core, cores]; exact .refl _
  · rw [State.ctx, State.ctx, ctxs]

theorem Kept.modCore {s : State} {c : Fin 192} {g : Core → Core} (h : CoreKept (s.core c) (g (s.core c))) : Kept s (s.modCore c g) := by
  refine ⟨fun d => ?_, fun _ _ => rfl⟩
  by_cases e : d = c
  · subst e; rw [State.core_modCore_same]; exact h
  · rw [State.core_modCore_other _ _ e]; exact .refl _

theorem Kept.modCtx {s : State} {x : Fin 64} {g : Ctx → Ctx} (h : (s.ctx x).state ≠ .orphaned → (g (s.ctx x)).state = (s.ctx x).state) :
    Kept s (s.modCtx x g) := by
  refine ⟨fun _ => .refl _, fun y live => ?_⟩
  by_cases e : x = y
  · subst e; rw [State.modCtx, State.ctx_setCtx]; exact h live
  · rw [State.modCtx, State.ctx_setCtx_ne _ _ _ e]

theorem MemOnly.kept {s t : State} (h : MemOnly s t) : Kept s t := by
  unfold MemOnly TierOnly at h
  exact .of_eq (by rw [h]) (by rw [h])

theorem State.onCtxCores_kept (s : State) (x : Fin 64) {f : Core → Core} (hf : ∀ k, CoreKept k (f k)) : Kept s (s.onCtxCores x f) :=
  Kept.foldl (fun _ _ => .modCore (hf _)) _ s

theorem State.pushRec_kept (s : State) (x : Option (Fin 64)) (q : Fin 256) (r : Rec) : Kept s (s.pushRec x q r) := by
  unfold State.pushRec
  split
  · exact .ite (.modCtx fun _ => rfl) (.of_eq rfl rfl)
  · exact .refl s

theorem State.complete_kept (s : State) (d : DescRef) (st : Byte) (d16 d32 d64 : Nat) : Kept s (s.complete d st d16 d32 d64) := by
  unfold State.complete
  dsimp only
  exact .ite ((s.pushRec_kept _ _ _).trans (.of_eq rfl rfl)) (s.pushRec_kept _ _ _)

theorem State.putFull_kept (s : State) (a : Nat) (bs : List Byte) : Kept s (s.putFull a bs) := (s.putFull_shape a bs).1.kept

/- Decode batches. -/

theorem State.closeBatch_kept (s : State) (x : Fin 64) (mb : Nat) : Kept s (s.closeBatch x mb) := by
  unfold State.closeBatch
  dsimp only
  split
  · exact ((s.putFull_kept _ _).trans (State.putFull_kept _ _ _)).trans (.modCtx fun _ => rfl)
  · exact .refl s

theorem State.joinBatch_kept (s : State) (x : Fin 64) (q : DecReq) : Kept s (s.joinBatch x q) := by
  have put (s : State) (a mb : Nat) (bs : List Byte) (p : Prop) [Decidable p] {g : Ctx → Ctx} (hg : ∀ k, (g k).state = k.state) :
      Kept s (if p then ((s.putFull a bs).modCtx x g).closeBatch x mb else (s.putFull a bs).modCtx x g) := by
    have joined := (s.putFull_kept a bs).trans (.modCtx (x := x) fun _ => hg _)
    exact .ite (joined.trans (State.closeBatch_kept _ _ _)) joined
  unfold State.joinBatch
  dsimp only
  split
  · exact .refl s
  · split
    · exact put s _ _ _ _ fun _ => rfl
    · split
      · exact .modCtx fun _ => rfl
      · exact Kept.trans (.modCtx fun _ => rfl) (put _ _ _ _ _ fun _ => rfl)

theorem State.joinWaiting_kept (s : State) (x : Fin 64) : Kept s (s.joinWaiting x) :=
  Kept.trans (.modCtx fun _ => rfl) (Kept.foldl (fun _ _ => State.joinBatch_kept _ _ _) _ _)

theorem State.endBatch_kept (s : State) (x : Fin 64) (mb : Nat) (st : Byte) : Kept s (s.endBatch x mb st) := by
  unfold State.endBatch
  dsimp only
  split
  · have written (s : State) (a : Nat) (bs : List Byte) : Kept s (s.hostWrite x a bs) := .ite (.refl s) (.of_eq rfl rfl)
    refine Kept.trans (Kept.trans (Kept.trans (Kept.foldl (fun s p => ?_) _ s) (State.onCtxCores_kept _ x fun k => ?_)) (.modCtx fun _ => rfl))
      (State.joinWaiting_kept _ _)
    · exact Kept.trans (.ite (written s _ _) (.refl s)) (State.complete_kept _ _ _ _ _ _)
    · exact k.withAdmission_kept _ _ _
  · exact .refl s

/- Micro-batches. -/

theorem Ctx.releaseMb_state (k : Ctx) (m : Nat) : (k.releaseMb m).state = k.state := by
  unfold Ctx.releaseMb
  split <;> rfl

theorem Ctx.settleDecode_state {k : Ctx} (h : k.state ≠ .orphaned) : k.settleDecode.state = k.state := by
  rw [Ctx.settleDecode, if_neg fun ⟨_, _, orphaned, _⟩ => h orphaned]

theorem Ctx.addTime_state (k : Ctx) (cls ns : Nat) : (k.addTime cls ns).state = k.state := by
  unfold Ctx.addTime
  split <;> rfl

theorem State.finishMb_kept (s : State) (x : Fin 64) (m : Nat) (st : Byte) : Kept s (s.finishMb x m st) := by
  unfold State.finishMb
  split
  · exact .refl s
  · refine .ite (.refl s) ?_
    extract_lets s1 ok count s2
    have counted : Kept s s2 := by
      refine Kept.trans (.modCtx fun _ => Ctx.releaseMb_state _ _) (.modCtx fun _ => ?_)
      show (count _).state = _
      unfold count
      split
      · rfl
      · split <;> rfl
    refine .ite ((counted.trans (State.endBatch_kept _ _ _ _)).trans (.modCtx Ctx.settleDecode_state)) ?_
    split
    · exact counted.trans (State.complete_kept _ _ _ _ _ _)
    · exact counted

theorem State.settleMb_kept (s : State) (x : Fin 64) (m : Nat) : Kept s (s.settleMb x m) := by
  unfold State.settleMb
  split
  · exact .refl s
  · exact .ite (.refl s) (.ite (s.finishMb_kept _ _ _) (.refl s))

theorem State.recordAbort_kept (s : State) (x : Fin 64) (m : Nat) (st : Byte) : Kept s (s.recordAbort x m st) := by
  unfold State.recordAbort
  split
  · exact .refl s
  · extract_lets s1 s2 s3
    have noticed : Kept s s3 :=
      (Kept.trans (t := s1) (u := s2) (.modCtx fun _ => rfl) (.of_eq rfl rfl)).trans (s2.onCtxCores_kept x fun k => k.postNotice_kept m)
    exact .ite noticed (noticed.trans (s3.finishMb_kept _ _ _))

/- How instances end (R131, R183, R186). -/

theorem State.putToken_shape (s : State) (ep : Nat) (st : Byte) :
    s.putToken ep st = s ∨ ∃ (d : Fin 192) (e : Fin 16) (v : Core → Endpoint), s.putToken ep st = s.modCore d fun k => k.setEnd e (v k) := by
  unfold State.putToken
  split
  · exact .inl rfl
  · exact .inr ⟨_, _, _, rfl⟩

theorem State.putToken_kept (s : State) (ep : Nat) (st : Byte) : Kept s (s.putToken ep st) := by
  obtain e | ⟨d, e, v, h⟩ := s.putToken_shape ep st
  · rw [e]; exact .refl s
  · rw [h]; exact .modCore (Core.setEnd_kept _ _ _)

theorem State.slots_putToken (s : State) (ep : Nat) (st : Byte) (c : Fin 192) : ((s.putToken ep st).core c).slots = (s.core c).slots := by
  obtain e | ⟨d, e, v, h⟩ := s.putToken_shape ep st
  · rw [e]
  · rw [h]; exact State.core_modCore_keeps (p := Core.slots) (g := fun k => k.setEnd e (v k)) (fun _ => rfl) _ _ _

/-- What tokens put into endpoints keep, a poison flush keeps. -/
theorem State.poisonFlush_keeps {p : State → Prop} (hp : ∀ s ep st, p s → p (s.putToken ep st)) {s : State} (h : p s) (c : Fin 192) (i : Fin 8)
    (n : Inst) (f : Frame) (st : Byte) : p (s.poisonFlush c i n f st) := by
  unfold State.poisonFlush
  generalize (List.range n.len).drop n.next = l
  induction l generalizing s with
  | nil => exact h
  | cons j l ih =>
    refine ih ?_
    dsimp only
    split
    · split
      · exact hp _ _ _ h
      · exact h
    · exact h

theorem State.poisonFlush_kept (s : State) (c : Fin 192) (i : Fin 8) (n : Inst) (f : Frame) (st : Byte) : Kept s (s.poisonFlush c i n f st) :=
  State.poisonFlush_keeps (p := Kept s) (fun t _ _ h => h.trans (t.putToken_kept _ _)) (.refl s) c i n f st

theorem State.slots_poisonFlush (s : State) (c : Fin 192) (i : Fin 8) (n : Inst) (f : Frame) (st : Byte) (d : Fin 192) :
    ((s.poisonFlush c i n f st).core d).slots = (s.core d).slots :=
  State.poisonFlush_keeps (p := fun t => (t.core d).slots = (s.core d).slots) (fun t _ _ h => (t.slots_putToken _ _ _).trans h) rfl c i n f st

theorem Core.inst_clearSets (k : Core) (i : Fin 8) (f : Frame) : ((k.clearSets i f).slot i).inst = (k.slot i).inst := by
  unfold Core.clearSets
  split
  · rfl
  · split
    · exact (congrArg Slot.inst (k.slot_modSlot i fun v => { v with resident := true }) :)
    · rfl

theorem State.endCore_kept (s : State) (c : Fin 192) (i : Fin 8) (st : Byte) : Kept s (s.endCore c i st) := by
  unfold State.endCore
  split
  next n f inst frame =>
    extract_lets s1 s2
    have flushed : Kept s s1 := .ite (s.poisonFlush_kept _ _ _ _ _) (.refl s)
    have slots : (s1.core c).slots = (s.core c).slots := by
      unfold s1
      split
      · exact s.slots_poisonFlush _ _ _ _ _ _
      · rfl
    have emptied : Kept s1 s2 := by
      refine .modCore ?_
      have inst1 : ((s1.core c).slot i).inst = some n := by rw [Core.slot, slots]; exact inst
      generalize s1.core c = k at inst1 ⊢
      extract_lets k1 k2 k3
      have cleared : CoreKept k k1 := .ite (k.clearSets_kept i f) (.refl k)
      have inst1 : (k1.slot i).inst = some n := by
        unfold k1
        split
        · rw [Core.inst_clearSets, inst1]
        · exact inst1
      have returned : CoreKept k1 k2 := k1.returnSlots_kept fun none => none i n inst1
      have gone : CoreKept k2 k3 := .setSlot fun _ none => nomatch none
      have drawn : CoreKept k3 (if n.running = true ∧ f.accUse ≠ 0 then { k3 with draw := 0 } else k3) := .ite (k3.withDraw_kept 0) (.refl k3)
      exact ((cleared.trans returned).trans (gone.trans drawn)).trans (Core.raiseEvent_kept _ _)
    have ended := flushed.trans emptied
    split
    · exact .ite (ended.trans (.modCtx fun _ => Ctx.addTime_state _ _ _)) ended
    · exact ended
  · exact .refl s

theorem State.cancelInst_kept (s : State) (c : Fin 192) (i : Fin 8) (st : Byte) (unstarted : List Nat) : Kept s (s.cancelInst c i st unstarted) := by
  unfold State.cancelInst
  split
  · exact .refl s
  · extract_lets stale mark s1
    have marked : Kept s s1 := by
      refine .modCore ?_
      extract_lets q gone k1
      have told : CoreKept (s.core c) k1 := CoreKept.foldl (fun k p => k.recordCmdFault_kept _ _ _ _ _ _) gone (s.core c)
      refine (told.trans (k1.withEngines_kept _ _ _ q _ _ _ _)).trans (.setSlot fun n inst => ?_)
      obtain ⟨m, held, rfl⟩ := Option.map_eq_some_iff.1 inst
      exact ⟨m, held, rfl⟩
    exact .ite marked (marked.trans (s1.endCore_kept _ _ _))

theorem State.failMb_kept (s : State) (x : Fin 64) (f : Frame) (m : Nat) (st : Byte) : Kept s (s.failMb x f m st) := by
  have tainted (s : State) (cause : Nat) : Kept s (s.taintStep x cause st) := .modCtx fun _ => rfl
  have aborted : Kept s (s.abortMb x m st) := by
    unfold State.abortMb
    split
    · exact .refl s
    · exact .ite (.refl s) ((s.recordAbort_kept _ _ _).trans (Kept.foldl (fun _ _ => State.cancelInst_kept _ _ _ _ _) _ _))
  have marked : Kept s (s.modCtx x fun k => k.mbMod m fun r => { r with failed := some (r.failed.getD st) }) := .modCtx fun _ => rfl
  exact .ite (.ite (.refl s) (tainted s 2)) (.ite aborted (.ite marked (marked.trans (tainted _ 1))))

theorem State.instEnded_kept (s : State) (n : Inst) (f : Frame) (st : Byte) : Kept s (s.instEnded n f st) := by
  unfold State.instEnded
  split
  · exact .refl s
  · exact Kept.trans (.ite (s.failMb_kept _ _ _ _) (.refl s)) (State.settleMb_kept _ _ _)

/-- A core that is out of service is not fenced again. -/
theorem State.settleFault_fenced {s : State} {c : Fin 192} (h : (s.core c).role ≠ 0) : s.settleFault c = s := if_neg fun ⟨_, role, _⟩ => h role

theorem State.endInst_kept {s : State} {c : Fin 192} (h : (s.core c).role ≠ 0) (i : Fin 8) (st : Byte) : Kept s (s.endInst c i st) := by
  unfold State.endInst
  split
  next n f _ _ =>
    have ended := (s.endCore_kept c i st).trans (State.instEnded_kept _ n f st)
    rw [State.settleFault_fenced ((ended.cores c).role ▸ h)]
    exact ended
  · exact .refl s

/-- A core that is being fenced ends its instances, and keeps its image for the spare (R395). -/
theorem State.fenceRunning_kept {s : State} {c : Fin 192} (h : (s.core c).role ≠ 0) : Kept s (s.fenceRunning c) := by
  have fenced {s : State} (h : (s.core c).role ≠ 0) (i : Fin 8) : Kept s (s.fenceInst c i) := by
    unfold State.fenceInst
    extract_lets s1
    have stopped : Kept s s1 := by
      refine .modCore ?_
      refine ((Core.carHold_kept _ _).trans (Core.withEngines_kept _ _ _ _ _ _ _ _ _)).trans (.setSlot fun n inst => ⟨n, inst, rfl⟩)
    exact stopped.trans (State.endInst_kept ((stopped.cores c).role ▸ h) i _)
  unfold State.fenceRunning
  generalize allSlots = l
  induction l generalizing s with
  | nil => exact .refl s
  | cons i l ih =>
    have first : Kept s (match ((s.core c).slot i).inst with
        | some n => if n.running then s.fenceInst c i else s
        | none => s) := by
      split
      · exact .ite (fenced h i) (.refl s)
      · exact .refl s
    exact first.trans (ih ((first.cores c).role ▸ h))

/-- A context that parks mid-step cancels its instances (R361, Table 13.4). -/
theorem State.parkMid_opened {s : State} {x : Fin 64} (h : (s.ctx x).state = .opened) (st : Byte) :
    (∀ c, CoreKept (s.core c) ((s.parkMid x st).core c)) ∧ ((s.parkMid x st).ctx x).state = .parkedMid := by
  unfold State.parkMid
  dsimp only
  rw [if_pos (.inl h)]
  generalize e : s.modCtx x _ = s1
  have parked : (s1.ctx x).state = .parkedMid := by rw [← e, State.modCtx, State.ctx_setCtx]
  have cancelled : Kept s1 ((s1.ctxInsts x).foldl (fun s p => s.cancelInst p.1 p.2 st []) s1) :=
    Kept.foldl (fun _ _ => State.cancelInst_kept _ _ _ _ _) _ _
  refine ⟨fun c => ?_, (cancelled.ctxs x (by rw [parked]; decide)).trans parked⟩
  have same : s1.core c = s.core c := by rw [← e]; rfl
  exact same ▸ cancelled.cores c

end Sys2Proof.Machine
end

section
/-! PROOF. Remaps, the queue and the runs of Lantern, and pace calibrations (O46). -/

namespace Sys2Proof.Machine

/- The spare of a core (R396). -/

theorem nearest_mem {f d : Fin 192} {l : List (Fin 192)} (h : nearest f l = some d) : d ∈ l := by
  induction l generalizing d with
  | nil => cases h
  | cons c l ih =>
    unfold nearest at h
    split at h
    next => cases h; exact .head _
    next e he =>
      split at h <;> cases h
      · exact .head _
      · exact .tail _ (ih he)

theorem State.freeSpare_of_spareFor {s : State} {f sp : Fin 192} (h : s.spareFor f = some sp) : s.freeSpare sp = true := by
  unfold State.spareFor at h
  dsimp only at h
  split at h
  next c near =>
    cases h
    exact (List.mem_filter.1 (List.mem_filter.1 (nearest_mem near)).1).2
  next => exact (List.mem_filter.1 (nearest_mem h)).2

/-- A core with a context is no spare. -/
theorem State.spareFor_ne {s : State} {f sp : Fin 192} {x : Fin 64} (h : s.spareFor f = some sp) (held : (s.core f).ctx = some x) : sp ≠ f := by
  rintro rfl
  have free := State.freeSpare_of_spareFor h
  simp [State.freeSpare, held] at free

/-- Which core is a free spare follows from the roles and the contexts. -/
theorem State.spareFor_modCore (s : State) (c f : Fin 192) {g : Core → Core} (hg : ∀ k, (g k).role = k.role ∧ (g k).ctx = k.ctx) :
    (s.modCore c g).spareFor f = s.spareFor f := by
  have same : (fun d => (s.modCore c g).freeSpare d) = fun d => s.freeSpare d := by
    funext d
    rw [State.freeSpare, State.freeSpare, State.core_modCore_keeps (p := Core.role) fun k => (hg k).1,
      State.core_modCore_keeps (p := Core.ctx) fun k => (hg k).2]
    rfl
  rw [State.spareFor, State.spareFor, same]

/- A condemned part (R78). -/

theorem Core.condemn_eq (k : Core) (cause : RemapCause) : ∃ regs fence, k.condemn cause = { k with regs := regs, modFence := fence } := by
  unfold Core.condemn
  split <;> exact ⟨_, _, rfl⟩

theorem Core.condemn_kept (k : Core) (cause : RemapCause) : CoreKept k (k.condemn cause) := by
  obtain ⟨regs, fence, h⟩ := k.condemn_eq cause
  rw [h]
  exact .of_same rfl

theorem bitOf_eq_testBit (v i : Nat) : bitOf v i = v.testBit i := by
  rw [bitOf, Nat.testBit_eq_decide_div_mod_eq]
  by_cases h : v / 2 ^ i % 2 = 1 <;> simp [h]

theorem Core.rd_fenced {k : Core} (h : SMap.wf coreReset k.regs = true) (bit : Nat) (small : bit < 32) :
    bitOf ((k.wr 0x20200 (Nat.lor (k.rd 0x20200) (2 ^ bit))).rd 0x20200) bit = true := by
  rw [Core.rd_wr h, if_pos rfl, bitOf_eq_testBit, Nat.testBit_mod_two_pow, decide_eq_true small]
  simp

theorem fenceBit_set (m : BitVec 5) (q : Fin 5) : (m ||| (1#5 <<< q.val)).getLsbD q.val = true := by
  simp

/- The move of a core to its spare (R395). -/

theorem Core.park_kept (k : Core) (j : Fin 8) : CoreKept k (k.park j) := by
  unfold Core.park
  extract_lets e tile k1
  have cleared : CoreKept k k1 := .of_same rfl
  have parked : CoreKept k1 (k1.modSlot j fun v => { v with parked := some tile }) := .setSlot fun n inst => ⟨n, inst, rfl⟩
  have counted (q : Core) : RegsOnly q q.parkBeats := ((q.beats_regsOnly _).trans (Core.bump_regsOnly _ _ _)).trans (Core.bump64_regsOnly _ _ _)
  exact (cleared.trans parked).trans (counted _).kept

theorem Core.carResume_kept (k : Core) : CoreKept k k.carResume := by
  have port (k : Core) (car : Caravan) : CoreKept k { k with car := car } := k.withEngines_kept _ _ _ _ _ _ _ car
  have settled (k : Core) : CoreKept k k.settlePort := .ite (port k _) (.refl k)
  have tail (k : Core) : CoreKept k k.resumeTail := .ite ((port k _).trans (settled _)) (.refl k)
  exact .ite (((port k _).trans (tail _)).trans (settled _)) (.refl k)

/-- The spare takes the image of the core, in service. -/
theorem Core.takeImage_kept (k f : Core) : CoreKept { f with role := 0 } (k.takeImage f) := by
  unfold Core.takeImage
  extract_lets st stw k0 k1
  have image : CoreKept { f with role := 0 } k0 := .of_same rfl
  have written (k : Core) (off v : Nat) : CoreKept k (k.wr off v) := RegsOnly.kept rfl
  have queues : CoreKept k0 k1 := CoreKept.foldl (fun _ _ => written _ _ _) _ _
  exact ((image.trans queues).trans (written _ _ _)).trans (Core.carResume_kept _)

theorem Core.relink_kept (k : Core) (f sp : Nat) : CoreKept k (k.relink f sp) := by
  refine ⟨rfl, rfl, rfl, rfl, rfl, rfl, rfl, fun none => ⟨rfl, fun i n inst => none i n ?_⟩⟩
  rw [← inst]
  simp [Core.relink, Core.slot]

/-- A core that another has replaced: fenced and empty, and it names that one (R395). -/
structure Vacated (sp : Fin 192) (k : Core) : Prop where
  ctx : k.ctx = none
  role : k.role = 3
  insts : ∀ i, (k.slot i).inst = none
  car : k.car.state = .fenced
  aliasTo : k.aliasTo = some sp

theorem Core.vacated_vacated (k : Core) (sp : Fin 192) : Vacated sp (k.vacated sp) := by
  refine ⟨rfl, rfl, fun i => ?_, rfl, rfl⟩
  have empty : (k.vacated sp).slot i = {} := Vector.getElem_replicate i.isLt
  rw [empty]

/-- An update of a context's cores leaves every other core. -/
theorem State.core_onCtxCores_other (s : State) {x : Fin 64} {d : Fin 192} (h : (s.core d).ctx ≠ some x) (g : Core → Core) :
    (s.onCtxCores x g).core d = s.core d := by
  have absent : d ∉ s.ctxCores x := fun mem => h (by simpa using (List.mem_filter.1 mem).2)
  unfold State.onCtxCores
  generalize s.ctxCores x = l at absent
  induction l generalizing s with
  | nil => rfl
  | cons c l ih =>
    obtain ⟨ne, absent⟩ : d ≠ c ∧ d ∉ l := by simpa using absent
    have first := s.core_modCore_other g ne
    rw [List.foldl_cons, ih _ (by rw [first]; exact h) absent, first]

@[simp] theorem State.core_tellOwner (s : State) (x : Fin 64) (evt : Nat) (body : List Byte) (c : Fin 192) :
    (s.tellOwner x evt body).core c = s.core c := by
  unfold State.tellOwner
  split
  · rfl
  · obtain ⟨k, out, h⟩ := s.postEvent_shape (fnOf (s.ctx x).fn) evt 0 stOk true body
    rw [h]; rfl

/-- From `s` to `t` core `f` has moved to `sp` (R395). -/
structure Moved (s t : State) (f sp : Fin 192) : Prop where
  image : CoreKept { s.core f with role := 0 } (t.core sp)
  left : Vacated sp (t.core f)

theorem State.remapTo_moved {s : State} {f sp : Fin 192} (ne : sp ≠ f) (x : Fin 64) : Moved s (s.remapTo f sp x) f sp := by
  unfold State.remapTo
  extract_lets s1 s2 fk s3 follow s4 s5 s6
  have serve {a b : Core} (h : CoreKept a b) : CoreKept { a with role := 0 } { b with role := 0 } :=
    ⟨h.imem0, h.imem1, h.mask, h.g, h.pc, h.ctx, rfl, h.dmem⟩
  have ended : CoreKept { s.core f with role := 3 } (s1.core f) := by
    have fenced : ((s.modCore f fun k => { k with role := 3 }).core f).role ≠ 0 := by rw [State.core_modCore_same]; show (3 : Nat) ≠ 0; decide
    have kept := (State.fenceRunning_kept fenced).cores f
    rwa [State.core_modCore_same] at kept
  have parked : CoreKept (s1.core f) fk := by
    unfold fk s2
    rw [State.core_modCore_same]
    split
    · exact Core.park_kept _ _
    · exact .refl _
  have taken : CoreKept { s.core f with role := 0 } (s3.core sp) := by
    unfold s3
    rw [State.core_setCore]
    exact (serve (ended.trans parked)).trans (Core.takeImage_kept _ _)
  have followed (d : Fin 192) : s4.core d = follow (s3.core d) := Vector.getElem_map _ _
  have renamed (k : Core) : CoreKept k (follow k) := by
    unfold follow
    split
    · exact .of_same rfl
    · exact .refl k
  have vacant : (s4.modCore f fun k => k.vacated sp).core f = (s4.core f).vacated sp := State.core_modCore_same _ _ _
  have logged (e : LogEntry) (d : Fin 192) : (s6.logFault e).core d = s5.core d := by
    rw [State.core_logFault]; exact State.core_tellOwner _ _ _ _ _
  refine ⟨?_, ?_⟩
  · have linked := ((s4.modCore f fun k => k.vacated sp).onCtxCores_kept x fun k => k.relink_kept f.val sp.val).cores sp
    rw [State.core_modCore_other _ _ ne, followed] at linked
    rw [logged]
    exact (taken.trans (renamed _)).trans linked
  · have other : s5.core f = (s4.core f).vacated sp := by
      unfold s5
      rw [State.core_onCtxCores_other _ (by rw [vacant]; nofun), vacant]
    rw [logged, other]
    exact (s4.core f).vacated_vacated sp

@[simp] theorem State.core_modIsland (s : State) (i : Fin 24) (g : Island → Island) (c : Fin 192) : (s.modIsland i g).core c = s.core c := rfl

theorem State.slowRemapped_moved {s t : State} {f sp : Fin 192} (ne : sp ≠ f) (h : Moved s t f sp) : Moved s (t.slowRemapped f) f sp := by
  have same (d : Fin 192) : (t.slowLog (islandOf f)).core d = t.core d := t.core_logFault _ d
  unfold State.slowRemapped
  refine ⟨?_, ?_⟩
  · rw [State.core_modCore_other _ _ ne, State.core_modIsland, same]; exact h.image
  · rw [State.core_modCore_same, State.core_modIsland, same]
    exact ⟨h.left.ctx, h.left.role, h.left.insts, h.left.car, h.left.aliasTo⟩

/- CORE_REMAP (R395, R396). -/

theorem CoreKept.serve {k q : Core} (h : CoreKept k q) (n : Nat) : CoreKept { k with role := n } { q with role := n } :=
  ⟨h.imem0, h.imem1, h.mask, h.g, h.pc, h.ctx, rfl, h.dmem⟩

theorem State.spareFor_condemned (s : State) (c : Fin 192) (cause : RemapCause) :
    (s.modCore c fun k => k.condemn cause).spareFor c = s.spareFor c :=
  s.spareFor_modCore c c fun k => ⟨(k.condemn_kept cause).role, (k.condemn_kept cause).ctx⟩

@[simp] theorem State.ctx_logFault (s : State) (e : LogEntry) (x : Fin 64) : (s.logFault e).ctx x = s.ctx x := by
  obtain ⟨l, g, regs, out, h⟩ := s.logFault_shape e
  rw [h]; rfl

section
variable {s : State} {c : Fin 192} {cause : RemapCause}

/-- A core without a context is remapped by no cause. -/
theorem coreRemap_empty (empty : (s.core c).ctx = none) (cause : RemapCause) (whole : ∀ part, cause ≠ .condemned part) :
    exec (.coreRemap c cause) s = .next s := by
  show execCoreRemap c cause s = _
  unfold execCoreRemap
  rw [empty]
  cases cause with
  | condemned part => exact absurd rfl (whole part)
  | _ => rfl

/-- A condemned core without a context is fenced, with the fence bit of its part (R78). -/
theorem coreRemap_condemned_empty (wf : SMap.wf coreReset (s.core c).regs = true) (empty : (s.core c).ctx = none) (part : Option (Fin 5)) :
    ∃ t : State, exec (.coreRemap c (.condemned part)) s = .next t ∧ (t.core c).role = (if (s.core c).role < 2 then 3 else (s.core c).role) ∧
      (∀ e, e ≠ c → t.core e = s.core e) ∧
      ∀ q, part = some q → bitOf ((t.core c).rd 0x20200) q.val = true ∧ (t.core c).modFence.getLsbD q.val = true := by
  have run : exec (.coreRemap c (.condemned part)) s = .next (s.modCore c fun k =>
      { k.condemn (.condemned part) with role := if k.role < 2 then 3 else k.role }) := by
    show execCoreRemap c (.condemned part) s = _
    obtain ⟨regs, fence, condemned⟩ := (s.core c).condemn_eq (.condemned part)
    unfold execCoreRemap
    simp only [empty, State.modCore_eq, State.core_setCore, State.setCore_setCore, condemned]
    split <;> rfl
  refine ⟨_, run, ?_, fun e ne => State.core_modCore_other _ _ ne, ?_⟩
  · rw [State.core_modCore_same]
  · rintro q rfl
    rw [State.core_modCore_same]
    exact ⟨Core.rd_fenced wf q.val (by omega), fenceBit_set _ q⟩

variable {x : Fin 64} (held : (s.core c).ctx = some x)
include held

theorem coreRemap_notDue (idle : s.remapDue c cause = false) : exec (.coreRemap c cause) s = .next s := by
  show execCoreRemap c cause s = _
  simp [execCoreRemap, held, idle]

variable (serving : (s.core c).role = 0)
include serving

/-- A remap that is due goes to the spare. -/
theorem coreRemap_spare {sp : Fin 192} (due : s.remapDue c cause = true) (spare : s.spareFor c = some sp) : exec (.coreRemap c cause) s = .next
    (if cause = .slow then ((s.modCore c fun k => k.condemn cause).remapTo c sp x).slowRemapped c
      else (s.modCore c fun k => k.condemn cause).remapTo c sp x) := by
  show execCoreRemap c cause s = _
  simp only [execCoreRemap, held, State.spareFor_condemned, spare]
  rw [if_neg (by simp [due, serving])]
  cases cause with
  | slow => rw [if_pos rfl]
  | _ => rw [if_neg nofun]

/-- Without a spare the core waits, or is fenced. -/
theorem coreRemap_alone (due : s.remapDue c cause = true) (alone : s.spareFor c = none) : exec (.coreRemap c cause) s = .next
    (if cause = .abft ∨ cause = .slow then s else (s.modCore c fun k => k.condemn cause).fenceCore c x) := by
  show execCoreRemap c cause s = _
  simp only [execCoreRemap, held, State.spareFor_condemned, alone]
  rw [if_neg (by simp [due, serving])]
  cases cause with
  | abft => rw [if_pos (.inl rfl)]
  | slow => rw [if_pos (.inr rfl)]
  | _ => rw [if_neg (by simp)]

theorem coreRemap_moves {sp : Fin 192} (due : s.remapDue c cause = true) (spare : s.spareFor c = some sp) :
    ∃ t, exec (.coreRemap c cause) s = .next t ∧ Moved s t c sp := by
  have ne := State.spareFor_ne spare held
  have moved : Moved s ((s.modCore c fun k => k.condemn cause).remapTo c sp x) c sp := by
    obtain ⟨image, left⟩ := State.remapTo_moved (s := s.modCore c fun k => k.condemn cause) ne x
    rw [State.core_modCore_same] at image
    exact ⟨(((s.core c).condemn_kept cause).serve 0).trans image, left⟩
  refine ⟨_, coreRemap_spare held serving due spare, ?_⟩
  split
  · exact State.slowRemapped_moved ne moved
  · exact moved

/-- Without a spare an ABFT mismatch and the slow-core path wait. -/
theorem coreRemap_waits (alone : s.spareFor c = none) (waits : cause = .abft ∨ cause = .slow) : exec (.coreRemap c cause) s = .next s := by
  cases due : s.remapDue c cause with
  | false => exact coreRemap_notDue held due
  | true => rw [coreRemap_alone held serving due alone, if_pos waits]

/-- Without a spare a condemned core is fenced, and its context parks mid-step (R396). -/
theorem coreRemap_parks (alone : s.spareFor c = none) (part : Option (Fin 5)) (opened : (s.ctx x).state = .opened) :
    ∃ t, exec (.coreRemap c (.condemned part)) s = .next t ∧ (t.core c).role = 3 ∧ (t.ctx x).state = .parkedMid := by
  refine ⟨_, coreRemap_alone held serving (cause := .condemned part) rfl alone, ?_⟩
  rw [if_neg (by simp)]
  generalize e : ((s.modCore c fun k => k.condemn (.condemned part)).modCore c fun k => { k with role := 3 }) = s1
  have fenced : (s1.core c).role = 3 := by rw [← e, State.core_modCore_same]
  have ended : Kept s1 (s1.fenceRunning c) := State.fenceRunning_kept (by rw [fenced]; decide)
  have live : (s1.ctx x).state = .opened := by rw [← e]; exact opened
  have still : ((s1.fenceRunning c).ctx x).state = .opened := (ended.ctxs x (by rw [live]; decide)).trans live
  obtain ⟨cores, parked⟩ := State.parkMid_opened still stFenced
  unfold State.fenceCore
  rw [e]
  dsimp only
  refine ⟨?_, ?_⟩
  · rw [State.core_logFault, (cores c).role, (ended.cores c).role, fenced]
  · rw [State.ctx_logFault, parked]

end

/- Entries of the fault log, and what they leave (R389). -/

/-- From `s` to `t` nothing of the units, of memory and of Lantern's runs has changed, and of the registers only the log's pointers and the count
of lost reports. -/
structure Noted (s t : State) : Prop where
  cores : t.cores = s.cores
  tolls : t.tolls = s.tolls
  mem : t.mem = s.mem
  runs : t.lanternRun = s.lanternRun
  regs : SMap.wf glbReset s.regs = true → SMap.wf glbReset t.regs = true ∧ ∀ o, o ≠ 0x90004 → o ≠ 0x1010 → t.rd o = s.rd o

theorem Noted.refl (s : State) : Noted s s := ⟨rfl, rfl, rfl, rfl, fun wf => ⟨wf, fun _ _ _ => rfl⟩⟩

theorem Noted.trans {s t u : State} (h : Noted s t) (h' : Noted t u) : Noted s u where
  cores := h'.cores.trans h.cores
  tolls := h'.tolls.trans h.tolls
  mem := h'.mem.trans h.mem
  runs := h'.runs.trans h.runs
  regs wf :=
    have ⟨wf', same⟩ := h.regs wf
    have ⟨wf'', same'⟩ := h'.regs wf'
    ⟨wf'', fun o tail lost => (same' o tail lost).trans (same o tail lost)⟩

theorem Noted.ite {s a b : State} {p : Prop} [Decidable p] (ha : Noted s a) (hb : Noted s b) : Noted s (if p then a else b) := by
  split <;> assumption

theorem Noted.core {s t : State} (h : Noted s t) (c : Fin 192) : t.core c = s.core c := by rw [State.core, h.cores]; rfl

theorem Noted.toll {s t : State} (h : Noted s t) (u : Fin 4) : t.toll u = s.toll u := by rw [State.toll, h.tolls]; rfl

theorem State.logFault_noted (s : State) (e : LogEntry) : Noted s (s.logFault e) := by
  have regs (wf : SMap.wf glbReset s.regs = true) :
      SMap.wf glbReset (s.logFault e).regs = true ∧ ∀ o, o ≠ 0x90004 → o ≠ 0x1010 → (s.logFault e).rd o = s.rd o := by
    unfold State.logFault
    extract_lets tail head full b s1 s2
    have wf2 : SMap.wf glbReset s2.regs = true := State.wrBits_regs_wf (s := s1) wf _ _ _ _
    have rd2 {o : Nat} (ne : o ≠ 0x90004) : s2.rd o = s.rd o := State.rd_wrBits_ne (s := s1) wf ne _ _ _
    split
    · have wf3 : SMap.wf glbReset (s2.bumpField 0x90004 31 16 1).regs = true := State.wrBits_regs_wf wf2 _ _ _ _
      exact ⟨State.report_regs_wf wf3 _, fun o ne lost =>
        (State.rd_report wf3 _ lost).trans ((State.rd_wrBits_ne wf2 ne _ _ _).trans (rd2 ne))⟩
    · exact ⟨State.report_regs_wf wf2 _, fun o ne lost => (State.rd_report wf2 _ lost).trans (rd2 ne)⟩
  obtain ⟨l, g, r, out, h⟩ := s.logFault_shape e
  rw [h] at regs ⊢
  exact ⟨rfl, rfl, rfl, rfl, regs⟩

theorem State.taintRan_noted (s : State) (c : Fin 192) (group : Nat) : Noted s (s.taintRan c group) := by
  have shape : ∃ ctxs, s.taintRan c group = { s with ctxs := ctxs } := by
    unfold State.taintRan
    split
    · generalize allCtxs = l
      induction l generalizing s with
      | nil => exact ⟨_, rfl⟩
      | cons x l ih =>
        rw [List.foldl_cons]
        split <;> obtain ⟨ctxs, h⟩ := ih _ <;> exact ⟨ctxs, h⟩
    · exact ⟨_, rfl⟩
  obtain ⟨ctxs, h⟩ := shape
  rw [h]
  exact ⟨rfl, rfl, rfl, rfl, fun wf => ⟨wf, fun _ _ _ => rfl⟩⟩

/- LANTERN_CMD and the queue (R399). -/

section
variable {s : State} {w : Who} {value : Word}

theorem coreOf?_val (c : Fin 192) : coreOf? c.val = some c := dif_pos c.isLt

theorem lanternCmd_other (other : planeWrites w = false) : exec (.lanternCmd w value) s = .next s := by
  show execLanternCmd w value s = _
  simp [execLanternCmd, other]

theorem paceCal_other (other : planeWrites w = false) : exec (.paceCal w value) s = .next s := by
  show execPaceCal w value s = _
  simp [execPaceCal, other]

/-- A refusal sets REFUSED of GLB_LANTERN_STATUS and queues nothing. -/
theorem State.lanternRefused_refused (wf : SMap.wf glbReset s.regs = true) :
    bitOf (s.lanternRefused.rd 0x90044) 8 = true ∧ s.lanternRefused.lanternQ = s.lanternQ ∧ s.lanternRefused.cores = s.cores := by
  refine ⟨?_, rfl, rfl⟩
  have set : s.lanternRefused.rd 0x90044 =
      (s.rd 0x90044 - bitsOf (s.rd 0x90044) 8 8 * 2 ^ 8 + 1 % 2 ^ (8 + 1 - 8) * 2 ^ 8) % 2 ^ 32 := (Regs.rd_wr wf _ _ _).trans (if_pos rfl)
  rw [set]
  simp only [bitOf, bitsOf, beq_iff_eq]
  omega

/-- A core that is a spare, or fenced, and has no context is free for Lantern as it is (R399). -/
theorem State.freeForLantern_spare {c : Fin 192} (spare : (s.core c).ctx = none ∧ ((s.core c).role = 1 ∨ (s.core c).role = 3)) :
    s.freeForLantern c = some s := by
  obtain ⟨empty, role⟩ := spare
  rw [State.freeForLantern, empty]
  exact if_pos role

theorem State.queueSweep_notFull (room : s.lanternFull = false) (q : Sweep) : s.queueSweep q = { s with lanternQ := s.lanternQ ++ [q] } :=
  State.queueSweep_room (by simpa [State.lanternFull] using room) q

section
variable (plane : planeWrites w = true)
include plane

theorem lanternCmd_refused (bad : bitsOf value.toNat 22 16 = 0 ∨ s.lanternFull = true) : exec (.lanternCmd w value) s = .next s.lanternRefused := by
  show execLanternCmd w value s = _
  simp [execLanternCmd, plane, bad]

/-- A sweep of a Tollhouse is queued while that one is fenced, and else refused. -/
theorem lanternCmd_toll (groups : bitsOf value.toNat 22 16 ≠ 0) (room : s.lanternFull = false) (toll : bitOf value.toNat 8 = true) :
    exec (.lanternCmd w value) s = .next
      (if bitsOf value.toNat 7 0 < 4 ∧ (s.toll (tollOf (bitsOf value.toNat 7 0))).fenced = true then
        { s with lanternQ := s.lanternQ ++ [{ toll := true, unit := bitsOf value.toNat 7 0, groups := bitsOf value.toNat 22 16 }] }
        else s.lanternRefused) := by
  show execLanternCmd w value s = _
  simp only [execLanternCmd, plane, groups, room, toll, State.queueSweep_notFull room, Bool.not_true, Bool.false_eq_true, or_self, if_false, if_true]
  split <;> rfl

theorem lanternCmd_core {c : Fin 192} (groups : bitsOf value.toNat 22 16 ≠ 0) (room : s.lanternFull = false) (core : bitOf value.toNat 8 = false)
    (unit : bitsOf value.toNat 7 0 = c.val) (spare : (s.core c).ctx = none ∧ ((s.core c).role = 1 ∨ (s.core c).role = 3)) :
    exec (.lanternCmd w value) s = .next
      { s with lanternQ := s.lanternQ ++ [{ toll := false, unit := bitsOf value.toNat 7 0, groups := bitsOf value.toNat 22 16 }] } := by
  show execLanternCmd w value s = _
  simp [execLanternCmd, plane, groups, room, core, unit, coreOf?_val, State.freeForLantern_spare spare, State.queueSweep_notFull room]

theorem paceCal_queued {c : Fin 192} (go : bitOf value.toNat 8 = true) (room : s.lanternFull = false) (unit : bitsOf value.toNat 7 0 = c.val)
    (spare : (s.core c).ctx = none ∧ ((s.core c).role = 1 ∨ (s.core c).role = 3)) :
    exec (.paceCal w value) s = .next
      { s with lanternQ := s.lanternQ ++ [{ toll := false, unit := bitsOf value.toNat 7 0, groups := 0, cal := true }] } := by
  show execPaceCal w value s = _
  simp [execPaceCal, plane, go, room, unit, coreOf?_val, State.freeForLantern_spare spare, State.queueSweep_notFull room]

theorem paceCal_full (go : bitOf value.toNat 8 = true) (full : s.lanternFull = true) :
    exec (.paceCal w value) s = .next (s.calStatus (bitsOf value.toNat 7 0) 2 0) := by
  show execPaceCal w value s = _
  simp [execPaceCal, plane, go, full]

end

/-- GLB_PACE_CAL_STATUS reads what a calibration or a refusal wrote. -/
theorem State.rd_calStatus (wf : SMap.wf glbReset s.regs = true) {unit result : Nat} (small : unit < 256) (fits : result < 4) (corr : Int) :
    (s.calStatus unit result corr).rd 0x1000C = 1 + unit * 2 + result * 2 ^ 9 + (BitVec.ofInt 8 corr).toNat * 2 ^ 12 := by
  have byte : (BitVec.ofInt 8 corr).toNat < 2 ^ 8 := BitVec.isLt _
  rw [State.calStatus, State.rd_wr wf, if_pos rfl]
  omega

/- LANTERN_SWEEP_START (R399). -/

theorem lanternSweepStart_first {q : Sweep} {rest : List Sweep} (queue : s.lanternQ = q :: rest) (may : s.mayRun q = true)
    (place : s.lanternRun.length < 4) :
    exec .lanternSweepStart s = .next { s with lanternQ := rest, lanternRun := s.lanternRun ++ [q] } := by
  have pick : s.pickSweep [] (q :: rest) = some q := by simp [State.pickSweep, may]
  show execLanternSweepStart s = _
  simp only [execLanternSweepStart, queue, pick]
  rw [if_neg (by omega), List.erase_cons_head]

theorem lanternSweepStart_none (idle : s.lanternQ = [] ∨ 4 ≤ s.lanternRun.length) : exec .lanternSweepStart s = .next s := by
  show execLanternSweepStart s = _
  unfold execLanternSweepStart
  split
  · rfl
  next q pick =>
    obtain empty | full := idle
    · rw [empty] at pick; cases pick
    · exact if_pos full

end

/- LANTERN_SWEEP_END (R400 to R402). -/

theorem sweepVerdict_clean (toll : Bool) (groups : Nat) (o : SweepOutcome) (d : SweepDetail) : (sweepVerdict toll groups [] o d).1 = o := by
  have whole : productFailures toll groups [] = [] := by simp [productFailures]
  rw [sweepVerdict, whole]; rfl

theorem outcomeCode_lt (o : SweepOutcome) : outcomeCode o < 4 := by cases o <;> simp [outcomeCode]

/-- The result register names the unit and the outcome. -/
theorem State.sweepResult_leaves {s : State} (wf : SMap.wf glbReset s.regs = true) (u : LUnit) (o : SweepOutcome) (d : SweepDetail) :
    (s.sweepResult u o d).cores = s.cores ∧ (s.sweepResult u o d).tolls = s.tolls ∧ (s.sweepResult u o d).mem = s.mem ∧
      (s.sweepResult u o d).lanternRun = s.lanternRun ∧ SMap.wf glbReset (s.sweepResult u o d).regs = true ∧
      (unitNum u < 256 → (s.sweepResult u o d).rd 0x90048 % 4096 = 1 + b2n (unitIsToll u) * 2 + unitNum u * 4 + outcomeCode o * 2 ^ 10) := by
  unfold State.sweepResult
  extract_lets bad word cell
  have wf1 : SMap.wf glbReset (s.wr 0x90048 word).regs = true := State.wr_regs_wf wf _ _
  have noted := ((s.wr 0x90048 word).wr 0x9004C cell).logFault_noted
    { kind := 0x0C, unitType := if (unitIsToll u) then 5 else 1, unit := (unitNum u), detail0 := word, detail1 := cell }
  obtain ⟨wf2, same⟩ := noted.regs (State.wr_regs_wf wf1 _ _)
  refine ⟨noted.cores, noted.tolls, noted.mem, noted.runs, wf2, fun small => ?_⟩
  rw [same _ (by decide) (by decide), State.rd_wr wf1, if_neg (by decide), State.rd_wr wf, if_pos rfl]
  have code := outcomeCode_lt o
  have kind : b2n (unitIsToll u) < 2 := by cases unitIsToll u <;> decide
  have low : word % 4096 = 1 + b2n (unitIsToll u) * 2 + unitNum u * 4 + outcomeCode o * 2 ^ 10 := by
    unfold word
    split <;> omega
  omega

theorem lanternSweepEnd_ends {s : State} {u : LUnit} {q : Sweep} (run : s.running u false = some q) (faults : List CellFault) (o : SweepOutcome)
    (d : SweepDetail) : exec (.lanternSweepEnd u faults o d) s = .next ({ s with lanternRun := s.lanternRun.erase q }.endSweep u
      (groupBeats (unitIsToll u) q.groups) (sweepVerdict (unitIsToll u) q.groups faults o d).1 (sweepVerdict (unitIsToll u) q.groups faults o d).2) := by
  show execLanternSweepEnd u faults o d s = _
  simp only [execLanternSweepEnd, run]

/-- A sweep of a core gives the core its beats and its role; what follows is noted only. -/
theorem State.endSweep_core_noted (s : State) (c : Fin 192) (beats : Nat) (o : SweepOutcome) (d : SweepDetail) :
    Noted ((s.sweepResult (.core c) o d).modCore c fun k => (k.beats beats).swept o) (s.endSweep (.core c) beats o d) := by
  unfold State.endSweep
  generalize s.sweepResult (.core c) o d = s1
  have tainted := Noted.ite (p := o = .pass) (.refl _) ((s1.modCore c fun k => (k.beats beats).swept o).taintRan_noted c d.group)
  exact .ite (tainted.trans (State.logFault_noted _ _)) tainted

/-- A sweep of a core leaves its beats counted and the role that its outcome gives (R402). -/
theorem State.endSweep_core {s : State} (wf : SMap.wf glbReset s.regs = true) (c : Fin 192) (beats : Nat) (o : SweepOutcome) (d : SweepDetail) :
    (s.endSweep (.core c) beats o d).core c = ((s.core c).beats beats).swept o ∧
      (∀ e, e ≠ c → (s.endSweep (.core c) beats o d).core e = s.core e) ∧ (s.endSweep (.core c) beats o d).mem = s.mem ∧
      (s.endSweep (.core c) beats o d).lanternRun = s.lanternRun ∧
      (s.endSweep (.core c) beats o d).rd 0x90048 % 4096 = 1 + c.val * 4 + outcomeCode o * 2 ^ 10 := by
  have noted := s.endSweep_core_noted c beats o d
  obtain ⟨cores, -, mem, runs, wf1, result⟩ := State.sweepResult_leaves wf (.core c) o d
  have result := result (Nat.lt_trans c.isLt (by decide))
  generalize s.sweepResult (.core c) o d = s1 at *
  have core (e : Fin 192) : s1.core e = s.core e := by rw [State.core, cores]; rfl
  obtain ⟨-, same⟩ := noted.regs wf1
  refine ⟨?_, fun e ne => ?_, noted.mem.trans mem, noted.runs.trans runs, ?_⟩
  · rw [noted.core, State.core_modCore_same, core]
  · rw [noted.core, State.core_modCore_other _ _ ne, core]
  · rw [same _ (by decide) (by decide)]
    exact result

/-- A pass clears the fence bits that the module had set, and makes the core a spare. -/
theorem Core.rd_clearFence {k : Core} (wf : SMap.wf coreReset k.regs = true) :
    k.clearFence.rd 0x20200 = k.rd 0x20200 - Nat.land (k.rd 0x20200) k.modFence.toNat := by
  have word : k.rd 0x20200 < 2 ^ 32 := BitVec.isLt _
  refine (Core.rd_wr wf 0x20200 _ 0x20200).trans ?_
  rw [if_pos rfl, Nat.mod_eq_of_lt (by omega)]

theorem Core.rd_beats_cfg (k : Core) (n : Nat) : (k.beats n).rd 0x20200 = k.rd 0x20200 := k.rd_bump64_ne n (by decide) (by decide)

/-- A sweep of a Tollhouse leaves it passed, or as it was. -/
theorem State.endSweep_toll {s : State} (wf : SMap.wf glbReset s.regs = true) (u : Fin 4) (beats : Nat) (o : SweepOutcome) (d : SweepDetail) :
    (s.endSweep (.toll u) beats o d).cores = s.cores ∧ (s.endSweep (.toll u) beats o d).mem = s.mem ∧
      (s.endSweep (.toll u) beats o d).lanternRun = s.lanternRun ∧
      ((s.endSweep (.toll u) beats o d).toll u).passed = ((s.toll u).passed || o == .pass) := by
  obtain ⟨cores, tolls, mem, runs, -, -⟩ := State.sweepResult_leaves wf (.toll u) o d
  unfold State.endSweep
  generalize s.sweepResult (.toll u) o d = s1 at *
  have toll : s1.toll u = s.toll u := by rw [State.toll, tolls]; rfl
  dsimp only
  split
  next pass =>
    refine ⟨cores, mem, runs, ?_⟩
    simp [pass]
  next fails =>
    refine ⟨cores, mem, runs, ?_⟩
    rw [State.toll_modToll, toll, beq_eq_false_iff_ne.2 fails, Bool.or_false]
    rfl

/- PACE_CAL_END (R443, R444). -/

/-- A correction beyond ±8.0 % fails a calibration. -/
theorem State.calFails_beyond (s : State) (c : Fin 192) {raw pace : Nat} (beyond : 1080 * raw < 1000 * pace ∨ 1000 * pace < 920 * raw) :
    s.calFails c raw pace = true := by
  have off : raw = 0 ∨ 8 * raw < 100 * (pace - raw) ∨ 8 * raw < 100 * (raw - pace) := by omega
  simp only [State.calFails, decide_eq_true off, Bool.true_or]

/-- An item of Lantern's runs leaves the runs, and a core as `k`. -/
def State.ranOn (s : State) (q : Sweep) (c : Fin 192) (k : Core) : State := { s with lanternRun := s.lanternRun.erase q }.setCore c k

theorem State.core_ranOn (s : State) (q : Sweep) (c : Fin 192) (k : Core) : (s.ranOn q c k).core c = k := State.core_setCore ..

section
variable {s : State} {c : Fin 192} {raw pace : Nat} {q : Sweep} (wf : SMap.wf glbReset s.regs = true) (run : s.running (.core c) true = some q)
include wf run

theorem paceCalEnd_fails (fails : s.calFails c raw pace = true) : ∃ t : State, exec (.paceCalEnd c raw pace) s = .next t ∧
    t.lanternRun = s.lanternRun.erase q ∧ (t.core c).role = 3 ∧ t.rd 0x1000C = 1 + c.val * 2 + 2 ^ 9 := by
  obtain ⟨k, e, role, ends⟩ : ∃ (k : Core) (e : LogEntry), k.role = 3 ∧
      exec (.paceCalEnd c raw pace) s = .next (((s.ranOn q c k).calStatus c.val 1 0).logFault e) := by
    refine ⟨{ (s.core c).beats 1048576 with role := 3 }, ?entry, rfl, ?ends⟩
    case ends =>
      show execPaceCalEnd c raw pace s = _
      simp only [execPaceCalEnd, run, fails, State.modCore_eq, State.core_setCore, State.setCore_setCore, if_true]
      rfl
  have noted := ((s.ranOn q c k).calStatus c.val 1 0).logFault_noted e
  refine ⟨_, ends, noted.runs, ?_, ?_⟩
  · rw [noted.core, State.calStatus, State.core_wr, State.core_ranOn, role]
  · rw [(noted.regs (State.wr_regs_wf (s := s.ranOn q c k) wf _ _)).2 _ (by decide) (by decide)]
    exact State.rd_calStatus (s := s.ranOn q c k) wf (Nat.lt_trans c.isLt (by decide)) (by decide) 0

theorem paceCalEnd_taken (fits : s.calFails c raw pace = false) : ∃ t : State, exec (.paceCalEnd c raw pace) s = .next t ∧
    t.lanternRun = s.lanternRun.erase q ∧ (t.core c).correction = calTenths raw pace ∧ (t.core c).slowFenced = false ∧
      t.rd 0x1000C = 1 + c.val * 2 + (BitVec.ofInt 8 (calTenths raw pace)).toNat * 2 ^ 12 := by
  obtain ⟨k, correction, back, ends⟩ : ∃ k : Core, k.correction = calTenths raw pace ∧ k.slowFenced = false ∧
      exec (.paceCalEnd c raw pace) s = .next ((s.ranOn q c k).calStatus c.val 0 (calTenths raw pace)) := by
    refine ⟨{ (s.core c).beats 1048576 with
      correction := calTenths raw pace, role := if (s.core c).slowFenced then 1 else (s.core c).role, slowFenced := false }, rfl, rfl, ?ends⟩
    case ends =>
      show execPaceCalEnd c raw pace s = _
      simp only [execPaceCalEnd, run, fits, State.modCore_eq, State.core_setCore, State.setCore_setCore, Bool.false_eq_true, if_false]
      rfl
  have core : ((s.ranOn q c k).calStatus c.val 0 (calTenths raw pace)).core c = k := s.core_ranOn q c k
  have read := State.rd_calStatus (s := s.ranOn q c k) wf (unit := c.val) (Nat.lt_trans c.isLt (by decide)) (result := 0) (by decide)
    (calTenths raw pace)
  exact ⟨_, ends, rfl, (congrArg Core.correction core).trans correction, (congrArg Core.slowFenced core).trans back, read⟩

end

/- The statement. -/

/-- A remap that is due and finds a spare: what the statement says of the core and of the spare. -/
theorem Moved.leaves {s t : State} {c sp : Fin 192} (h : Moved s t c sp) {x : Fin 64} (held : (s.core c).ctx = some x) :
    ((t.core c).ctx = none ∧ (t.core c).role = 3 ∧ (∀ i, ((t.core c).slot i).inst = none) ∧ (t.core c).car.state = .fenced) ∧
      (t.core c).aliasTo = some sp ∧ (t.core sp).ctx = some x ∧ (t.core sp).role = 0 ∧
      ((∀ i n, ((s.core c).slot i).inst = some n → n.taken = []) → (t.core sp).dmem = (s.core c).dmem) ∧
      (t.core sp).imem0 = (s.core c).imem0 ∧ (t.core sp).imem1 = (s.core c).imem1 ∧ (t.core sp).mask = (s.core c).mask ∧
      (t.core sp).stw.g = (s.core c).stw.g ∧ (t.core sp).stw.pc = (s.core c).stw.pc :=
  ⟨⟨h.left.ctx, h.left.role, h.left.insts, h.left.car⟩, h.left.aliasTo, h.image.ctx.trans held, h.image.role, fun none => (h.image.dmem none).1,
    h.image.imem0, h.image.imem1, h.image.mask, h.image.g, h.image.pc⟩

/-- What the outcome of a sweep leaves of a core (R402). -/
theorem Core.swept_leaves {k q : Core} (wf : SMap.wf coreReset k.regs = true) {n : Nat} {o : SweepOutcome} (h : q = (k.beats n).swept o) :
    (o = .failed → q = { k.beats n with role := 3 }) ∧
      (o = .pass → q.role = 1 ∧ q.modFence = 0 ∧ q.degraded = false ∧ q.rd 0x20200 = k.rd 0x20200 - Nat.land (k.rd 0x20200) k.modFence.toNat) ∧
      (o = .degradedShadow → q.role = 0 ∧ q.degraded = true ∧ bitOf (q.rd 0x20200) 4 = true) ∧
      ∀ a : Fin 4, o = .degradedQuad a → q.role = 0 ∧ q.degraded = true ∧ bitOf (q.rd 0x20200) a.val = true := by
  have wf' : SMap.wf coreReset (k.beats n).regs = true := Core.bump64_regs_wf wf _ _
  subst h
  refine ⟨?failed, ?pass, ?shadow, ?quad⟩
  case failed => rintro rfl; rfl
  case pass =>
    rintro rfl
    refine ⟨rfl, rfl, rfl, (Core.rd_clearFence wf').trans ?_⟩
    rw [Core.rd_beats_cfg]; rfl
  case shadow => rintro rfl; exact ⟨rfl, rfl, Core.rd_fenced wf' 4 (by decide)⟩
  case quad => rintro a rfl; exact ⟨rfl, rfl, Core.rd_fenced wf' a.val (by omega)⟩

/-- Settles O46: remaps by the spare that R396 names, then Lantern's queue and the ends of its runs. -/
theorem remapAndLantern : Obligations.RemapAndLantern := by
  unfold Obligations.RemapAndLantern
  intro c w value s wf coreWf k v unit queued refused spare fenced
  refine ⟨?empty, ?condemned, ?notDue, ?moves, ?alone, ?other, ?plane, ?start, ?idle, ?core, ?toll, ?pace⟩
  case empty =>
    intro empty
    exact ⟨coreRemap_empty empty _ nofun, coreRemap_empty empty _ nofun, coreRemap_empty empty _ nofun⟩
  case condemned => exact fun part empty => coreRemap_condemned_empty coreWf empty part
  case notDue => exact fun x cause held idle => coreRemap_notDue held idle
  case moves =>
    intro x cause sp held due serving spare
    obtain ⟨t, run, moved⟩ := coreRemap_moves held serving due spare
    exact ⟨t, run, moved.leaves held⟩
  case alone =>
    intro x held serving alone
    exact ⟨coreRemap_waits held serving alone (.inl rfl), coreRemap_waits held serving alone (.inr rfl),
      fun part opened => coreRemap_parks held serving alone part opened⟩
  case other => exact fun other => ⟨lanternCmd_other other, paceCal_other other⟩
  case plane =>
    intro plane
    refine ⟨fun bad => ⟨_, lanternCmd_refused plane bad, State.lanternRefused_refused wf⟩, fun groups room => ⟨?fits, ?unfit, ?cores⟩, ?cal, ?full⟩
    case fits =>
      intro toll small fenced
      exact (lanternCmd_toll plane groups room toll).trans (congrArg _ (if_pos ⟨small, fenced⟩))
    case unfit =>
      intro toll not
      refine ⟨_, (lanternCmd_toll plane groups room toll).trans (congrArg _ (if_neg ?_)), State.lanternRefused_refused wf⟩
      rintro ⟨small, fenced⟩
      obtain large | free := not
      · exact absurd small (Nat.not_lt.2 large)
      · exact Bool.false_ne_true (free.symm.trans fenced)
    case cores => exact fun core unit spare => lanternCmd_core plane groups room core unit spare
    case cal => exact fun go room unit spare => paceCal_queued plane go room unit spare
    case full =>
      intro go full
      have small : unit < 256 := Nat.mod_lt _ (by decide)
      exact ⟨_, paceCal_full plane go full, State.rd_calStatus wf small (by decide) 0, rfl⟩
  case start => exact fun q rest queue may place => lanternSweepStart_first queue may place
  case idle => exact lanternSweepStart_none
  case core =>
    intro faults o d q run o1 u fences
    obtain ⟨core, others, mem, runs, result⟩ := State.endSweep_core (s := { s with lanternRun := s.lanternRun.erase q }) wf c
      (groupBeats false q.groups) o1 (sweepVerdict false q.groups faults o d).2
    refine ⟨?clean, _, lanternSweepEnd_ends run faults o d, runs, result, others, mem, Core.swept_leaves coreWf core⟩
    rintro rfl
    exact sweepVerdict_clean _ _ _ _
  case toll =>
    intro u faults o d q run
    obtain ⟨cores, mem, runs, passed⟩ := State.endSweep_toll (s := { s with lanternRun := s.lanternRun.erase q }) wf u
      (groupBeats true q.groups) (sweepVerdict true q.groups faults o d).1 (sweepVerdict true q.groups faults o d).2
    exact ⟨_, lanternSweepEnd_ends run faults o d, cores, runs, mem, passed⟩
  case pace =>
    intro raw pace q run
    cases fails : s.calFails c raw pace with
    | true =>
      obtain ⟨t, ends, runs, left⟩ := paceCalEnd_fails wf run fails
      exact ⟨t, ends, runs, nofun, fun _ => left⟩
    | false =>
      obtain ⟨t, ends, runs, left⟩ := paceCalEnd_taken wf run fails
      refine ⟨t, ends, runs, fun _ => left, fun bad => ?_⟩
      obtain never | beyond := bad
      · cases never
      · exact absurd (fails.symm.trans (s.calFails_beyond c beyond)) Bool.false_ne_true

end Sys2Proof.Machine
end

section
/-! PROOF. The snapshot commands, the close of a context, and the end of a restore (O47). -/

namespace Sys2Proof.Machine

@[simp] theorem State.ctx_modCtx_same (s : State) (x : Fin 64) (g : Ctx → Ctx) : (s.modCtx x g).ctx x = g (s.ctx x) := State.ctx_setCtx ..

/- The new entry of the fault log (R389). -/

/-- A value that is not the default is read back, canonical or not. -/
theorem SMap.get_set_self {α : Type} [DecidableEq α] {d : Nat → α} {k : Nat} {v : α} (ne : v ≠ d k) (m : SMap α) :
    SMap.get d (SMap.set d m k v) k = v := by
  induction m with
  | nil => rw [SMap.set, if_neg ne, SMap.get_cons, if_pos rfl]
  | cons e m ih =>
    obtain ⟨k', v'⟩ := e
    unfold SMap.set
    split
    · rw [SMap.get_cons, if_pos rfl]
    · split
      · rw [SMap.get_cons, if_pos rfl]
      next other => rw [SMap.get_cons, if_neg (Ne.symm other), ih]

theorem State.faultLog_report (s : State) (r : Report) : (s.report r).faultLog = s.faultLog := by
  obtain ⟨g, regs, out, h⟩ := s.report_shape r
  rw [h]

/-- The entry stands at TAIL mod 1,024, also in a full ring. -/
theorem State.logFault_entry (s : State) (e : LogEntry) :
    SMap.get (fun _ => []) (s.logFault e).faultLog (bitsOf (s.rd 0x90004) 15 0 % 1024) =
      e.bytes s.time (bitsOf (s.rd 0x90004) 15 0) (s.stepOf e.ctx) := by
  have filled : e.bytes s.time (bitsOf (s.rd 0x90004) 15 0) (s.stepOf e.ctx) ≠ [] := nofun
  have log : (s.logFault e).faultLog = SMap.set (fun _ => []) s.faultLog (bitsOf (s.rd 0x90004) 15 0 % 1024)
      (e.bytes s.time (bitsOf (s.rd 0x90004) 15 0) (s.stepOf e.ctx)) := by
    unfold State.logFault
    dsimp only
    rw [State.faultLog_report]
    split <;> rfl
  rw [log, SMap.get_set_self filled]

theorem LogEntry.kind_bytes (e : LogEntry) (time seq step : Nat) : (e.bytes time seq step).getD 4 0 = BitVec.ofNat 8 e.kind := rfl

/- SNAP_NOW, ACCEPT and TAINT (R392, R411). -/

section
variable {s : State} {w : Who} {x : Fin 64} {value : Word}

/-- Only the physical function and the Gatehouse give snapshot commands. -/
theorem snapCommands_other (other : planeWrites w = false) : exec (.snapNow w x) s = .next s ∧ exec (.accept w x) s = .next s ∧
    exec (.taint w x) s = .next s ∧ exec (.restore w x value) s = .next s := by
  have may : (!planeWrites w) = true := by rw [other]; rfl
  exact ⟨if_pos may, if_pos may, if_pos may, if_pos may⟩

variable (plane : planeWrites w = true)
include plane

theorem snapNow_plane : exec (.snapNow w x) s =
    if ((s.ctx x).state = .opened ∨ (s.ctx x).state = .orphaned) ∧ (s.ctx x).decode = false ∧ s.snapEnabled x = true then
      .next (s.modCtx x fun k => k.modSnap fun p => { p with now := true }) else .next (s.snapRefused x) := if_neg (by simp [plane])

theorem accept_plane : exec (.accept w x) s =
    if (s.ctx x).state = .parkedBoundary ∧ (s.ctx x).tainted = true then
      .next (s.modCtx x fun k => { k with tainted := false, taintCause := 0, state := if k.orphaned then .parkedBoundary else .opened })
    else .next (s.snapRefused x) := if_neg (by simp [plane])

theorem taint_plane : exec (.taint w x) s =
    if (s.ctx x).inStep ∧ (s.ctx x).decode = false ∧ ((s.ctx x).state = .opened ∨ (s.ctx x).state = .orphaned) then
      .next ((s.taintStep x 5 stOk).logFault { kind := 0x0B, ctx := some x }) else .next (s.snapRefused x) := if_neg (by simp [plane])

/-- The step under way is tainted by cause 5 unless it is tainted already, and the fault log notes it with kind 0x0B. -/
theorem taint_open (run : (s.ctx x).state = .opened ∨ (s.ctx x).state = .orphaned) (training : (s.ctx x).decode = false)
    (inStep : (s.ctx x).inStep = true) : ∃ t, exec (.taint w x) s = .next t ∧ t.mem = s.mem ∧
      t.ctx x = { s.ctx x with taint := some ((s.ctx x).taint.getD (5, stOk)) } ∧
      (SMap.get (fun _ => []) t.faultLog (bitsOf (s.rd 0x90004) 15 0 % 1024)).getD 4 0 = 0x0B := by
  refine ⟨_, (taint_plane plane).trans (if_pos ⟨inStep, training, run⟩), (State.logFault_noted _ _).mem, ?ctx, ?log⟩
  case ctx => rw [State.ctx_logFault, State.taintStep, State.ctx_modCtx_same]
  case log =>
    have entry := (s.taintStep x 5 stOk).logFault_entry { kind := 0x0B, ctx := some x }
    exact (congrArg (List.getD · 4 0) entry).trans (LogEntry.kind_bytes _ _ _ _)

end

/- The close of a context: its cores are free and its regions gone (R344). -/

/-- From `s` to `t` every core keeps its context. -/
def CoresHeld (s t : State) : Prop := ∀ c, (t.core c).ctx = (s.core c).ctx

theorem CoresHeld.refl (s : State) : CoresHeld s s := fun _ => rfl

theorem CoresHeld.trans {s t u : State} (h : CoresHeld s t) (h' : CoresHeld t u) : CoresHeld s u := fun c => (h' c).trans (h c)

theorem CoresHeld.ite {s a b : State} {p : Prop} [Decidable p] (ha : CoresHeld s a) (hb : CoresHeld s b) : CoresHeld s (if p then a else b) := by
  split <;> assumption

theorem CoresHeld.foldl {α : Type} {f : State → α → State} (hf : ∀ s a, CoresHeld s (f s a)) (l : List α) (s : State) :
    CoresHeld s (l.foldl f s) :=
  List.foldlRecOn l f (.refl s) fun t h a _ => h.trans (hf t a)

theorem CoresHeld.of_cores {s t : State} (h : t.cores = s.cores) : CoresHeld s t := fun c => by rw [State.core, h]; rfl

theorem CoresHeld.modCore {s : State} {c : Fin 192} {g : Core → Core} (h : ∀ k, (g k).ctx = k.ctx) : CoresHeld s (s.modCore c g) :=
  fun d => State.core_modCore_keeps (p := Core.ctx) h s c d

theorem Kept.held {s t : State} (h : Kept s t) : CoresHeld s t := fun c => (h.cores c).ctx

/- Its instances. -/

theorem State.parkMid_held (s : State) (x : Fin 64) (st : Byte) : CoresHeld s (s.parkMid x st) :=
  .ite (.trans (.of_cores rfl) (Kept.foldl (fun _ _ => State.cancelInst_kept _ _ _ _ _) _ _).held) (.refl s)

theorem State.settleFault_held (s : State) (c : Fin 192) : CoresHeld s (s.settleFault c) := by
  unfold State.settleFault
  extract_lets k s1
  refine .ite ?_ (.refl s)
  have fenced : CoresHeld s s1 := .modCore fun _ => rfl
  split
  · exact fenced.trans (s1.parkMid_held _ _)
  · exact fenced

theorem State.endInst_held (s : State) (c : Fin 192) (i : Fin 8) (st : Byte) : CoresHeld s (s.endInst c i st) := by
  unfold State.endInst
  split
  next n f _ _ => exact ((s.endCore_kept c i st).trans (State.instEnded_kept _ n f st)).held.trans (State.settleFault_held _ c)
  · exact .refl s

theorem State.cancelOne_held (s : State) (c : Fin 192) (i : Fin 8) (st : Byte) (unstarted : List Nat) :
    CoresHeld s (s.cancelOne c i st unstarted) := by
  have cancelled := s.cancelInst_kept c i st unstarted
  unfold State.cancelOne
  dsimp only
  split
  · exact (Kept.ite cancelled (cancelled.trans (State.instEnded_kept _ _ _ _))).held.trans (State.settleFault_held _ c)
  · exact cancelled.held

theorem State.dropInst_held (s : State) (c : Fin 192) (i : Fin 8) : CoresHeld s (s.dropInst c i) := by
  unfold State.dropInst
  extract_lets s1 s2
  have cancelled : CoresHeld s s1 := s.cancelOne_held c i _ _
  have emptied : CoresHeld s1 s2 := .modCore fun _ => rfl
  exact (cancelled.trans emptied).trans (s2.endInst_held c i _)

/- Its rings and streams. -/

theorem State.endRing_held (s : State) (r : Fin 256) (st : Byte) : CoresHeld s (s.endRing r st) :=
  CoresHeld.foldl (fun s _ => .ite (.refl s) (s.complete_kept _ _ _ _ _).held) _ s

theorem State.endStreams_held (s : State) (x : Fin 64) (st : Byte) : CoresHeld s (s.endStreams x st) := by
  unfold State.endStreams
  refine CoresHeld.foldl (fun s i => ?_) _ s
  have armed (s : State) (d : DescRef) (arm : Nat × Nat) : CoresHeld s (s.armRecord x i d arm st) := (s.pushRec_kept _ _ _).held
  extract_lets t
  split
  · exact .refl s
  next d _ =>
    extract_lets s1 s2
    have first : CoresHeld s s1 := .ite (armed s d _) (.refl s)
    have second : CoresHeld s1 s2 := .ite (armed s1 d _) (.refl s1)
    exact (first.trans second).trans (.ite (.of_cores rfl) (.refl s2))

theorem State.signalCq_held (s : State) (q : Fin 256) : CoresHeld s (s.signalCq q) := by
  unfold State.signalCq
  split
  next f _ =>
    obtain ⟨k, out, h⟩ := s.msix_shape f (bitsOf (s.rd (cqCfgOff q)) 13 5)
    rw [h]
    exact .of_cores rfl
  · exact .refl s

theorem State.writeRec_held (s : State) (q : Fin 256) : CoresHeld s (s.writeRec q) := by
  unfold State.writeRec
  extract_lets k size a
  split
  next r rest x _ _ =>
    extract_lets sq bytes s1 s2 s3
    have written : CoresHeld s s3 := by
      refine .of_cores ?_
      unfold s3
      split <;> rfl
    exact .ite (.refl s) (.ite (written.trans (s3.signalCq_held q)) written)
  · exact .refl s

theorem State.writeRecs_held (s : State) (q : Fin 256) : CoresHeld s (s.writeRecs q) := CoresHeld.foldl (fun s _ => s.writeRec_held q) _ s

/- Its windows and regions. -/

theorem State.dropWindow_held (s : State) (w : Window) : CoresHeld s (s.dropWindow w) := .of_cores rfl

/-- The windows over a region go first, which leaves the regions. -/
theorem State.dropWindows_shape (l : List Window) (s : State) :
    ∃ windows gens, l.foldl (fun s w => s.dropWindow w) s = { s with windows := windows, winGen := gens } := by
  induction l generalizing s with
  | nil => exact ⟨_, _, rfl⟩
  | cons w l ih =>
    obtain ⟨windows, gens, h⟩ := ih (s.dropWindow w)
    exact ⟨windows, gens, h⟩

/-- Removing a region keeps the cores, and removes every region with its base. -/
theorem State.dropRegion_leaves (s : State) (r : Region) :
    CoresHeld s (s.dropRegion r) ∧ (s.dropRegion r).regions = s.regions.filter fun q => q.base != r.base := by
  unfold State.dropRegion
  extract_lets s1 s2
  obtain ⟨windows, gens, dropped⟩ : ∃ windows gens, s1 = { s with windows := windows, winGen := gens } := State.dropWindows_shape _ s
  have evicted : TierOnly s1 s2 := s1.evictRange_tier r.base r.bytes
  have cores : s2.cores = s.cores := by rw [evicted, dropped]
  have regions : s2.regions = s.regions := by rw [evicted, dropped]
  exact ⟨.of_cores cores, congrArg (List.filter _) regions⟩

/-- No base of a removed region is left. -/
theorem State.mem_dropRegions {l : List Region} {s : State} {g : Region} (h : g ∈ (l.foldl (fun s r => s.dropRegion r) s).regions) :
    g ∈ s.regions ∧ ∀ r ∈ l, g.base ≠ r.base := by
  induction l generalizing s with
  | nil => exact ⟨h, nofun⟩
  | cons r l ih =>
    obtain ⟨left, others⟩ := ih h
    rw [(s.dropRegion_leaves r).2, List.mem_filter, bne_iff_ne] at left
    exact ⟨left.1, List.forall_mem_cons.2 ⟨left.2, others⟩⟩

/-- The regions of a context are removed with its close. -/
theorem State.dropRegions_none (s : State) (x : Fin 64) :
    ∀ g ∈ ((s.regions.filter fun r => r.ctx == x.val).foldl (fun s r => s.dropRegion r) s).regions, g.ctx ≠ x.val := by
  intro g left own
  obtain ⟨mem, removed⟩ := State.mem_dropRegions left
  exact removed g (List.mem_filter.2 ⟨mem, beq_iff_eq.2 own⟩) rfl

/- Its cores. -/

/-- Released cores have no context, and the others keep theirs. -/
theorem State.ctx_released (l : List (Fin 192)) (s : State) (c : Fin 192) :
    ((l.foldl (fun s c => s.modCore c Core.released) s).core c).ctx = if c ∈ l then none else (s.core c).ctx := by
  induction l generalizing s with
  | nil => rfl
  | cons d l ih =>
    rw [List.foldl_cons, ih]
    by_cases e : c = d
    · subst e
      rw [State.core_modCore_same]
      simp [Core.released]
    · rw [State.core_modCore_other _ _ e]
      simp [e]

theorem State.mem_ctxCores {s : State} {x : Fin 64} {c : Fin 192} : c ∈ s.ctxCores x ↔ (s.core c).ctx = some x := by
  simp [State.ctxCores, allCores]

theorem State.regions_modCores (l : List (Fin 192)) (g : Core → Core) (s : State) :
    (l.foldl (fun s c => s.modCore c g) s).regions = s.regions :=
  List.foldlRecOn (motive := fun t : State => t.regions = s.regions) l _ rfl fun _ h _ _ => h

/-- From `s` to `t` every core keeps its context, and the regions are the same. -/
structure Settled (s t : State) : Prop where
  held : CoresHeld s t
  regions : t.regions = s.regions

theorem Settled.refl (s : State) : Settled s s := ⟨.refl s, rfl⟩

theorem Settled.trans {s t u : State} (h : Settled s t) (h' : Settled t u) : Settled s u := ⟨h.held.trans h'.held, h'.regions.trans h.regions⟩

theorem Settled.of_eq {s t : State} (cores : t.cores = s.cores) (regions : t.regions = s.regions) : Settled s t := ⟨.of_cores cores, regions⟩

theorem Settled.foldl {α : Type} {f : State → α → State} (hf : ∀ s a, Settled s (f s a)) (l : List α) (s : State) : Settled s (l.foldl f s) :=
  List.foldlRecOn l f (.refl s) fun t h a _ => h.trans (hf t a)

theorem State.onCtxCores_settled (s : State) (x : Fin 64) {g : Core → Core} (h : ∀ k, (g k).ctx = k.ctx) : Settled s (s.onCtxCores x g) :=
  ⟨CoresHeld.foldl (fun _ _ => .modCore h) _ s, State.regions_modCores _ g s⟩

theorem State.clearSq_settled (s : State) (r : Fin 256) : Settled s ((s.wrBits (sqCfgOff r) 0 0 0).modSq r fun _ => {}) := .of_eq rfl rfl

theorem State.clearCq_settled (s : State) (r : Fin 256) : Settled s ((s.wrBits (cqCfgOff r) 0 0 0).modCq r fun _ => {}) := .of_eq rfl rfl

theorem State.loseFiller_settled (s : State) (y : Fin 64) :
    Settled s ((s.modCtx y fun k => { k with filler := none }).onCtxCores y fun k => k.wr 0x20600 0) := by
  have lost : Settled s (s.modCtx y fun k => { k with filler := none }) := .of_eq rfl rfl
  exact lost.trans (State.onCtxCores_settled _ y fun _ => rfl)

/-- A closed context has no core and no region, and keeps its snapshot block. -/
theorem State.closeCtx_leaves (s : State) (x : Fin 64) :
    (s.closeCtx x).ctx x = { closedCtx with snap := { (s.ctx x).snap with phase := 0, now := false } } ∧
      (∀ c, ((s.closeCtx x).core c).ctx ≠ some x) ∧ ∀ g ∈ (s.closeCtx x).regions, g.ctx ≠ x.val := by
  unfold State.closeCtx
  extract_lets cores s1 s2 s3 s4 s5 s5b unalias s6 s7 s8 s9 snap
  have stopped : CoresHeld s s1 := CoresHeld.foldl (fun s _ => s.dropInst_held _ _) _ s
  have rings : CoresHeld s1 s2 := (CoresHeld.foldl (fun s _ => s.endRing_held _ _) _ s1).trans (State.endStreams_held _ _ _)
  have records : CoresHeld s2 s3 := CoresHeld.foldl (fun s _ => s.writeRecs_held _) _ s2
  have windows : CoresHeld s3 s4 := CoresHeld.foldl (fun s _ => s.dropWindow_held _) _ s3
  have regions : CoresHeld s4 s5 := CoresHeld.foldl (fun s _ => (s.dropRegion_leaves _).1) _ s4
  have held : CoresHeld s s5 := (((stopped.trans rings).trans records).trans windows).trans regions
  have gone : ∀ g ∈ s5.regions, g.ctx ≠ x.val := s4.dropRegions_none x
  clear_value s5
  have renamed (c : Fin 192) : (({ s5b with cores := s5b.cores.map unalias } : State).core c).ctx = (s5.core c).ctx := by
    have core : ({ s5b with cores := s5b.cores.map unalias } : State).core c = unalias (s5b.core c) := Vector.getElem_map _ _
    rw [core]
    unfold unalias
    split <;> rfl
  have free (c : Fin 192) : (s6.core c).ctx ≠ some x := by
    unfold s6
    rw [State.ctx_released, renamed, held]
    split
    · nofun
    next other => exact fun own => other (State.mem_ctxCores.2 own)
  have regions6 : s6.regions = s5.regions := State.regions_modCores _ _ _
  have sqs : Settled s6 s7 := Settled.foldl State.clearSq_settled _ s6
  have cqs : Settled s7 s8 := Settled.foldl State.clearCq_settled _ s7
  have fillers : Settled s8 s9 := Settled.foldl State.loseFiller_settled _ s8
  have settled : Settled s6 s9 := (sqs.trans cqs).trans fillers
  clear_value s9
  refine ⟨State.ctx_setCtx .., fun c => ?_, ?_⟩
  · exact (settled.held c).trans_ne (free c)
  · exact fun g left => gone g (regions6 ▸ settled.regions ▸ left)

/- RESTORE (R412). -/

section
variable {s : State} {w : Who} {x : Fin 64} {value : Word} (plane : planeWrites w = true)
include plane

/-- A context that runs, or that another snapshot operation holds, is not restored. -/
theorem restore_refused (busy : ((s.ctx x).state = .opened ∨ (s.ctx x).state = .orphaned) ∨ (s.ctx x).snap.phase ≠ 0) :
    exec (.restore w x value) s = .next (s.snapRefused x) := by
  refine (if_neg (by simp [plane])).trans (if_pos ?_)
  obtain (run | run) | held := busy
  · exact .inl (by rw [run]; decide)
  · exact .inl (by rw [run]; decide)
  · exact .inr held

variable (idle : (s.ctx x).snap.phase = 0) (host : bitOf value.toNat 9 = false)
include idle host

/-- A restore that is not refused holds the context's snapshot block; a parked context is closed first. -/
theorem restore_starts (rest : (s.ctx x).state = .closed ∨ (s.ctx x).state = .parkedBoundary ∨ (s.ctx x).state = .parkedMid) :
    exec (.restore w x value) s = .next
      ((if (s.ctx x).state = .parkedBoundary ∨ (s.ctx x).state = .parkedMid then (s.modCtx x fun k => { k with orphaned := true }).closeCtx x
        else s).modCtx x fun k => k.modSnap fun p => { p with phase := 3, restoreFunc := bitsOf value.toNat 8 4 }) := by
  refine (if_neg (by simp [plane])).trans ((if_neg ?_).trans (if_neg (by simp [host])))
  rintro (⟨opened, running⟩ | held)
  · exact rest.elim opened running
  · exact held idle

theorem restore_closed (closed : (s.ctx x).state = .closed) : exec (.restore w x value) s = .next
    (s.modCtx x fun k => k.modSnap fun p => { p with phase := 3, restoreFunc := bitsOf value.toNat 8 4 }) := by
  rw [restore_starts plane idle host (.inl closed), if_neg (by rw [closed]; decide)]

theorem restore_parked (parked : (s.ctx x).state = .parkedBoundary ∨ (s.ctx x).state = .parkedMid) : ∃ t, exec (.restore w x value) s = .next t ∧
    (t.ctx x).state = .closed ∧ (t.ctx x).snap.phase = 3 ∧ (∀ c, (t.core c).ctx ≠ some x) ∧ ∀ g ∈ t.regions, g.ctx ≠ x.val := by
  obtain ⟨ctx, cores, regions⟩ := (s.modCtx x fun k => { k with orphaned := true }).closeCtx_leaves x
  rw [restore_starts plane idle host (.inr parked), if_pos parked]
  generalize (s.modCtx x fun k => { k with orphaned := true }).closeCtx x = t at *
  refine ⟨_, rfl, ?_, ?_, cores, regions⟩
  · rw [State.ctx_modCtx_same, ctx]; rfl
  · rw [State.ctx_modCtx_same]; rfl

end

/- RESTORE_COMPLETE (R412). -/

section
variable {s : State} {x : Fin 64} {r : RestoreEnd} {d : Saved}

/-- A restore that fails leaves RESULT, and the context as it was. -/
theorem State.restoreFailed_leaves (s : State) (x : Fin 64) (result : Nat) :
    ((s.restoreFailed x result).ctx x).snap = { (s.ctx x).snap with phase := 0, result := result } ∧
      ((s.restoreFailed x result).ctx x).state = (s.ctx x).state ∧ (s.restoreFailed x result).mem = s.mem := by
  have ctx : (s.restoreFailed x result).ctx x = (s.ctx x).modSnap fun p => { p with phase := 0, result := result } := by
    unfold State.restoreFailed State.snapFailed
    simp [Ctx.modSnap]
  exact ⟨by rw [ctx]; rfl, by rw [ctx]; rfl, (State.logFault_noted _ _).mem⟩

/-- A restore that succeeds parks the context, reclaimed, at the boundary of the saved step. -/
theorem State.restoreInto_parks {t : State} (h : s.restoreInto x d = some t) :
    (t.ctx x).state = .parkedBoundary ∧ (t.ctx x).step = some d.step ∧ (t.ctx x).reclaimed = true ∧ (t.ctx x).inStep = false ∧
      (t.ctx x).snap.phase = 0 ∧ (t.ctx x).snap.result = 1 := by
  unfold State.restoreInto at h
  extract_lets fn snap own alias_ load at h
  split at h
  · extract_lets s1 s2 at h
    split at h <;> cases h
    rw [State.ctx_modCtx_same]
    exact ⟨rfl, rfl, rfl, rfl, rfl, rfl⟩
  · cases h

theorem restoreComplete_idle (idle : (s.ctx x).snap.phase ≠ 3) : exec (.restoreComplete x r d) s = .next s := if_pos idle

variable (held : (s.ctx x).snap.phase = 3)
include held

theorem restoreComplete_fails (fails : r ≠ .ok) : exec (.restoreComplete x r d) s = .next (s.restoreFailed x (restoreCode r)) :=
  (if_neg (not_not.2 held)).trans (if_pos fails)

theorem restoreComplete_unfit (unfit : s.restoreInto x d = none) : exec (.restoreComplete x .ok d) s = .next (s.restoreFailed x 5) := by
  show execRestoreComplete x .ok d s = _
  simp [execRestoreComplete, held, unfit]

theorem restoreComplete_fits {t : State} (fits : s.restoreInto x d = some t) : exec (.restoreComplete x .ok d) s = .next t := by
  show execRestoreComplete x .ok d s = _
  simp [execRestoreComplete, held, fits]

end

/- The statement. -/

/-- Settles O47: the commands by their conditions, a restore by the close before it, and its end by what the source delivered. -/
theorem snapshotCommands : Obligations.SnapshotCommands := by
  unfold Obligations.SnapshotCommands
  intro w x value s k v run snap refused
  refine ⟨snapCommands_other, fun plane => ⟨?now, ?noNow, ?accept, ?noAccept, ?taint, ?noTaint, ?held, ?closed, ?parked⟩, ?ends⟩
  case now => exact fun run training on => (snapNow_plane plane).trans (if_pos ⟨run, training, on⟩)
  case noNow => exact fun not => (snapNow_plane plane).trans (if_neg not)
  case accept => exact fun parked tainted => (accept_plane plane).trans (if_pos ⟨parked, tainted⟩)
  case noAccept => exact fun not => (accept_plane plane).trans (if_neg not)
  case taint => exact fun run training inStep _ => taint_open plane run training inStep
  case noTaint => exact fun not => (taint_plane plane).trans (if_neg fun ⟨inStep, training, run⟩ => not ⟨run, training, inStep⟩)
  case held => exact restore_refused plane
  case closed => exact fun closed idle host => restore_closed plane idle host closed
  case parked => exact fun parked idle host => restore_parked plane idle host parked
  case ends =>
    refine fun r d => ⟨restoreComplete_idle, fun held => ⟨?fails, ?unfit, ?restored⟩⟩
    case fails =>
      intro fails
      obtain ⟨block, state, mem⟩ := s.restoreFailed_leaves x (restoreCode r)
      exact ⟨_, restoreComplete_fails held fails, by rw [block], by rw [block], mem, state⟩
    case unfit =>
      rintro rfl unfit
      obtain ⟨block, -, -⟩ := s.restoreFailed_leaves x 5
      refine ⟨_, restoreComplete_unfit held unfit, by rw [block], by rw [block]⟩
    case restored =>
      rintro rfl fits
      obtain ⟨t, into⟩ := Option.ne_none_iff_exists'.1 fits
      exact ⟨t, restoreComplete_fits held into, State.restoreInto_parks into⟩

end Sys2Proof.Machine
end

section
/-! PROOF. Steward words: decoding and encoding are inverse (O58), and words written by hand decode to their instructions (O60). -/

namespace Sys2Proof

/- The table: one row per operation, and no two rows share an opcode unless their function values tell them apart. -/

theorem row_of_mem_stewardTable : ∀ r ∈ stewardTable, r.1.row = r.2 := by decide

theorem row_mem_stewardTable (o : SOp) : (o, o.row) ∈ stewardTable := by cases o <;> decide

/-- A row is the only one of its opcode, or of its opcode and function value. -/
theorem stewardTable_unique : ∀ r ∈ stewardTable, (stewardTable.filter fun q =>
    q.2.1 == r.2.1 && (q.2.2.1 != .g || r.2.2.1 != .g || q.2.2.2 == r.2.2.2)) = [r] := by decide

/-- The row that a word names is its operation's own. -/
theorem stewardRow_some {opc fn : Nat} {r : SRow} (h : stewardRow opc fn = some r) :
    r.1.row = r.2 ∧ r.2.1 = opc ∧ (r.2.2.1 = .g → r.2.2.2 = fn) := by
  have named := List.find?_some h
  simp only [Bool.and_eq_true, beq_iff_eq, Bool.or_eq_true, bne_iff_ne] at named
  exact ⟨row_of_mem_stewardTable r (List.mem_of_find?_eq_some h), named.1, fun g => named.2.resolve_left (· g)⟩

/-- An operation's opcode, with its function value in the G form, names its row. -/
theorem stewardRow_row (o : SOp) {fn : Nat} (h : o.row.2.1 = .g → fn = o.row.2.2) : stewardRow o.row.1 fn = some (o, o.row) := by
  have mem := row_mem_stewardTable o
  cases named : stewardRow o.row.1 fn with
  | none =>
    have other := List.find?_eq_none.1 named _ mem
    by_cases g : o.row.2.1 = .g
    · simp [h g] at other
    · simp [g] at other
  | some q =>
    obtain ⟨-, code, value⟩ := stewardRow_some named
    have same : q ∈ [(o, o.row)] := by
      rw [← stewardTable_unique _ mem, List.mem_filter]
      refine ⟨List.mem_of_find?_eq_some named, ?_⟩
      by_cases gq : q.2.2.1 = .g
      · by_cases g : o.row.2.1 = .g <;> simp [code, g, h, value gq]
      · simp [code, gq]
    rw [List.mem_singleton.1 same]

theorem SOp.row_lt (o : SOp) : o.row.1 < 64 ∧ o.row.2.2 < 2 ^ 11 := by cases o <;> decide

/- Decoding, said of the row that a word names. -/

/-- The fields of a word in an instruction form (Table 5.2). -/
def fieldsOf (op : SOp) (form : SForm) (w : Nat) : SInstr :=
  match form with
  | .g => ⟨op, BitVec.ofNat 5 (w / 2 ^ 21), BitVec.ofNat 5 (w / 2 ^ 16), BitVec.ofNat 5 (w / 2 ^ 11), 0⟩
  | .i => ⟨op, BitVec.ofNat 5 (w / 2 ^ 21), BitVec.ofNat 5 (w / 2 ^ 16), 0, BitVec.ofNat 21 (w % 2 ^ 16)⟩
  | .b => ⟨op, 0, BitVec.ofNat 5 (w / 2 ^ 21), BitVec.ofNat 5 (w / 2 ^ 16), BitVec.ofNat 21 (w % 2 ^ 16)⟩
  | .j => ⟨op, BitVec.ofNat 5 (w / 2 ^ 21), 0, 0, BitVec.ofNat 21 (w % 2 ^ 21)⟩

@[simp] theorem fieldsOf_op (op : SOp) (form : SForm) (w : Nat) : (fieldsOf op form w).op = op := by cases form <;> rfl

theorem decodeSteward_eq_some_iff {w : Nat} {i : SInstr} :
    decodeSteward w = some i ↔ ∃ r, stewardRow (w / 2 ^ 26 % 64) (w % 2 ^ 11) = some r ∧ fieldsOf r.1 r.2.2.1 w = i ∧ i.legal = true := by
  unfold decodeSteward
  split
  next unnamed => rw [unnamed]; simp
  next op opc form fn row =>
    simp only [row, Option.some.injEq, exists_eq_left']
    cases form <;> simp only [fieldsOf] <;> split <;> simp_all <;> rintro rfl <;> assumption

/-- A decoded instruction is legal. -/
theorem legal_of_decodeSteward {w : Nat} {i : SInstr} (h : decodeSteward w = some i) : i.legal = true := by
  obtain ⟨r, -, -, legal⟩ := decodeSteward_eq_some_iff.1 h
  exact legal

/-- Fields read from a word are those that the form has, and with the opcode they make up the word. -/
theorem fieldsOf_spec {op : SOp} {w : Nat} (lt : w < 2 ^ 32) (opc : op.row.1 = w / 2 ^ 26 % 64) (fn : op.row.2.1 = .g → op.row.2.2 = w % 2 ^ 11) :
    (fieldsOf op op.row.2.1 w).fieldsOk = true ∧ encodeSteward (fieldsOf op op.row.2.1 w) = w := by
  unfold SInstr.fieldsOk encodeSteward
  simp only [fieldsOf_op]
  generalize op.row = row at *
  obtain ⟨o, form, f⟩ := row
  cases form <;> simp [fieldsOf] at * <;> omega

/-- The word of a well-formed instruction is a 32-bit word that names the operation's row and holds its fields. -/
theorem encodeSteward_spec {i : SInstr} (h : i.fieldsOk = true) :
    encodeSteward i < 2 ^ 32 ∧ encodeSteward i / 2 ^ 26 % 64 = i.op.row.1 ∧
      (i.op.row.2.1 = .g → encodeSteward i % 2 ^ 11 = i.op.row.2.2) ∧ fieldsOf i.op i.op.row.2.1 (encodeSteward i) = i := by
  obtain ⟨op, d, a, b, imm⟩ := i
  obtain ⟨opcLt, fnLt⟩ := op.row_lt
  unfold SInstr.fieldsOk at h
  unfold encodeSteward
  dsimp only at h ⊢
  generalize op.row = row at *
  obtain ⟨o, form, f⟩ := row
  have hd := d.isLt
  have ha := a.isLt
  have hb := b.isLt
  have him := imm.isLt
  cases form <;> simp [fieldsOf, ← BitVec.toNat_inj] at * <;> omega

/-- Settles O58: an operation's opcode and function value name its row, and the form of the row tells which fields the word holds. -/
theorem stewardWordsRoundTrip : Obligations.StewardWordsRoundTrip := by
  refine ⟨fun i wf => ?_, fun w i lt decodes => ?_⟩
  · obtain ⟨fields, legal⟩ := Bool.and_eq_true_iff.1 wf
    obtain ⟨lt, opc, fn, same⟩ := encodeSteward_spec fields
    exact ⟨lt, decodeSteward_eq_some_iff.2 ⟨_, opc ▸ stewardRow_row i.op fn, same, legal⟩⟩
  · obtain ⟨⟨op, opc, form, fn⟩, named, rfl, legal⟩ := decodeSteward_eq_some_iff.1 decodes
    obtain ⟨row, code, value⟩ := stewardRow_some named
    dsimp only at row code value
    obtain ⟨fields, word⟩ := fieldsOf_spec (op := op) lt (by rw [row]; exact code) (by rw [row]; exact value)
    rw [row] at fields word
    exact ⟨Bool.and_eq_true_iff.2 ⟨fields, legal⟩, word⟩

/-- Settles O60: the words are few and fixed, and the decoders read each. -/
theorem writtenWords : Obligations.WrittenWords := by
  unfold Obligations.WrittenWords
  decide

end Sys2Proof
end

section
/-! PROOF. The Steward's integer instructions (O2), with its registers (O1) and what all its instructions share. -/

namespace Sys2Proof.Machine

open Sys2Proof.Safety

/- Registers (R113). -/

theorem Core.g_zero (k : Core) : k.g 0 = 0 := if_pos rfl

theorem Core.setG_zero (k : Core) (v : Word) : k.setG 0 v = k := if_pos rfl

theorem Core.g_setG (k : Core) {r : BitVec 5} (h : r ≠ 0) (v : Word) : (k.setG r v).g r = v := by
  rw [Core.setG, if_neg h, Core.g, if_neg h]
  exact Vector.getElem_set_self _

theorem Core.g_setG_ne (k : Core) {q r : BitVec 5} (h : q ≠ r) (v : Word) : (k.setG r v).g q = k.g q := by
  unfold Core.setG
  split
  · rfl
  · unfold Core.g
    split
    · rfl
    · exact Vector.getElem_set_ne r.isLt q.isLt fun e => h (BitVec.eq_of_toNat_eq e.symm)

/-- A write of a register is to the Steward, and there to the registers. -/
theorem Core.setG_shape (k : Core) (r : BitVec 5) (v : Word) : ∃ g, k.setG r v = { k with stw := { k.stw with g := g } } := by
  unfold Core.setG
  split
  · exact ⟨k.stw.g, rfl⟩
  · exact ⟨_, rfl⟩

/-- A register that may name a pair has a successor, another register, which is not g0. -/
theorem pairOk_next {r : BitVec 5} (h : pairOk r = true) : r ≠ 0 ∧ r + 1 ≠ 0 ∧ r ≠ r + 1 := by
  revert h; revert r; decide

/-- The words of a pair after a write of the pair. -/
theorem Core.setPair_words (k : Core) {r : BitVec 5} (h : pairOk r = true) (v : Nat) :
    (k.setPair r v).g r = BitVec.ofNat 32 v ∧ (k.setPair r v).g (r + 1) = BitVec.ofNat 32 (v / 2 ^ 32) := by
  obtain ⟨even, odd, ne⟩ := pairOk_next h
  exact ⟨by rw [Core.setPair, Core.g_setG_ne _ ne, Core.g_setG _ even], by rw [Core.setPair, Core.g_setG _ odd]⟩

theorem pairOk_iff (r : BitVec 5) : pairOk r = true ↔ r.toNat % 2 = 0 ∧ 2 ≤ r.toNat := by
  revert r; decide

/-- What a legal FP instruction names as pairs are pairs. -/
theorem SInstr.legal_pairs {i : SInstr} (h : i.legal = true) : (i.op.fpRoles.1 = true → pairOk i.d = true) ∧
    (i.op.fpRoles.2.1 = true → pairOk i.a = true) ∧ (i.op.fpRoles.2.2.1 = true → pairOk i.b = true) := by
  unfold SInstr.legal at h
  split at h
  case h_7 =>
    generalize i.op.fpRoles = roles at h ⊢
    obtain ⟨pd, pa, pb, nob⟩ := roles
    simp only [Bool.and_eq_true, Bool.or_eq_true, Bool.not_eq_true'] at h
    obtain ⟨⟨⟨d, a⟩, b⟩, -⟩ := h
    exact ⟨fun (p : pd = true) => d.resolve_left (by simp [p]), fun (p : pa = true) => a.resolve_left (by simp [p]),
      fun (p : pb = true) => b.resolve_left (by simp [p])⟩
  all_goals simp_all [SOp.fpRoles]

/-- Settles O1: a register write is a write of one place of the Steward's registers, and the decoder refuses a pair that is none. -/
theorem stewardRegisters : Obligations.StewardRegisters := by
  refine ⟨fun k r q v => ⟨k.g_zero, k.setG_zero v, fun h => k.g_setG h v, fun h => k.g_setG_ne h v, ?_, ?_⟩,
    fun k r v pair lt => ?_, fun w i decodes => ?_⟩
  · obtain ⟨g, e⟩ := k.setG_shape r v; rw [e]
  · obtain ⟨g, e⟩ := k.setG_shape r v; rw [e]
  · obtain ⟨low, high⟩ := k.setPair_words pair v
    refine ⟨low, high, ?_⟩
    rw [Core.gPair, low, high, BitVec.toNat_ofNat, BitVec.toNat_ofNat]
    omega
  · obtain ⟨d, a, b⟩ := SInstr.legal_pairs (legal_of_decodeSteward decodes)
    exact ⟨fun p => (pairOk_iff _).1 (d p), fun p => (pairOk_iff _).1 (a p), fun p => (pairOk_iff _).1 (b p)⟩

/- An instruction that goes on to the next word (R114, R115). -/

section
variable {c : Fin 192} {e : Ecc} {i : SInstr} {s : State}

/-- The instruction fetched is legal. -/
theorem FetchesOn.legal (h : FetchesOn c e i s) : i.legal = true := by
  obtain ⟨⟨-, -, -, decodes⟩, -⟩ := h
  exact legal_of_decodeSteward decodes

/-- The row of the instruction fetched acts on the state in which a corrected error is counted. -/
theorem stewardStep_act (h : Fetches c e i s) {op : SOp} (o : i.op = op) (act : SInstr → State → State) :
    stewardStep op c e act s = .next (act i (counted e s)) := (stewardStep_eq h op act).trans (if_pos o)

/-- An instruction that updates its core, and not the program counter, ran. -/
theorem stewardStep_done (h : FetchesOn c e i s) {op : SOp} (o : i.op = op) {act : SInstr → State → State} {f : Core → Core}
    (pc : (f (s.core c)).stw.pc = (s.core c).stw.pc) (ha : act i (counted e s) = (counted e s).stwDone c f) :
    stewardStep op c e act s = ran c e s f := by
  obtain ⟨fetches, more⟩ := h
  rw [stewardStep_act fetches o, ha, State.stwDone_eq _ _ _ (by simpa using pc) (by simpa using more), counted_core, ran]

theorem aluReg_ran (h : FetchesOn c e i s) {op : SOp} (o : i.op = op) {f : Word → Word → Word} {v : Word}
    (hv : f ((s.core c).g i.a) ((s.core c).g i.b) = v) :
    stewardStep op c e (aluReg c f) s = ran c e s fun k => k.setG i.d v :=
  stewardStep_done h o (Core.setG_pc ..) (by rw [← hv, aluReg, State.stwWrite, counted_core])

theorem aluImm_ran (h : FetchesOn c e i s) {op : SOp} (o : i.op = op) {f : Word → Word → Word} {imm : SInstr → Word} {v : Word}
    (hv : f ((s.core c).g i.a) (imm i) = v) :
    stewardStep op c e (aluImm c f imm) s = ran c e s fun k => k.setG i.d v :=
  stewardStep_done h o (Core.setG_pc ..) (by rw [← hv, aluImm, State.stwWrite, counted_core])

end

/- Results: the model's operations on integers are those of bit vectors. -/

theorem toNat_and_31 (y : Word) : (y &&& 31).toNat = y.toNat % 32 := Nat.and_two_pow_sub_one_eq_mod y.toNat 5

theorem ofNat_b2n (b : Bool) : BitVec.ofNat 32 (b2n b) = if b then 1 else 0 := by cases b <;> rfl

theorem ofNat_b2n_slt (x y : Word) : BitVec.ofNat 32 (b2n (x.slt y)) = if x.toInt < y.toInt then 1 else 0 := by
  rw [ofNat_b2n, BitVec.slt]; exact if_congr decide_eq_true_iff rfl rfl

theorem ofNat_b2n_ult (x y : Word) : BitVec.ofNat 32 (b2n (x.ult y)) = if x.toNat < y.toNat then 1 else 0 := by
  rw [ofNat_b2n, BitVec.ult]; exact if_congr decide_eq_true_iff rfl rfl

/-- The high word of the product as 64-bit vectors is that of the product of the integers. -/
theorem mulHigh_eq (x y : Word) : mulHigh x y = (x.signExtend 64 * y.signExtend 64).extractLsb' 32 32 := by
  apply BitVec.eq_of_toNat_eq
  have product : x.signExtend 64 * y.signExtend 64 = BitVec.ofInt 64 (x.toInt * y.toInt) := by
    rw [BitVec.signExtend, BitVec.signExtend, BitVec.ofInt_mul]
  rw [product, mulHigh, BitVec.extractLsb'_toNat, BitVec.toNat_ofInt, BitVec.toNat_ofInt, Nat.shiftRight_eq_div_pow]
  generalize x.toInt * y.toInt = p
  omega

theorem divSigned_eq (x y : Word) : divSigned x y = if y = 0 then 0xFFFFFFFF else x.sdiv y := by
  unfold divSigned
  split
  · rfl
  · exact BitVec.eq_of_toInt_eq (by rw [BitVec.toInt_ofInt, BitVec.toInt_sdiv])

theorem remSigned_eq (x y : Word) : remSigned x y = if y = 0 then x else x.srem y := by
  unfold remSigned
  split
  · rfl
  · rw [← BitVec.toInt_srem, BitVec.ofInt_toInt]

theorem divUnsigned_eq (x y : Word) : divUnsigned x y = if y = 0 then 0xFFFFFFFF else x / y := by
  unfold divUnsigned
  split
  · rfl
  · rw [← BitVec.toNat_udiv, BitVec.ofNat_toNat, BitVec.setWidth_eq]

theorem remUnsigned_eq (x y : Word) : remUnsigned x y = if y = 0 then x else x % y := by
  unfold remUnsigned
  split
  · rfl
  · rw [← BitVec.toNat_umod, BitVec.ofNat_toNat, BitVec.setWidth_eq]

/- IMM16. -/

theorem simmOf_eq (i : SInstr) : simmOf i = (i.imm.setWidth 16).signExtend 32 := by rw [simmOf, BitVec.ofNat_toNat]

theorem uimmOf_eq (i : SInstr) : uimmOf i = (i.imm.setWidth 16).setWidth 32 :=
  BitVec.eq_of_toNat_eq (by simp [uimmOf])

/-- A legal shift's amount is below 32. -/
theorem SInstr.legal_shift {i : SInstr} (h : i.legal = true) (o : i.op = .shli ∨ i.op = .shri ∨ i.op = .srai) : (uimmOf i).toNat < 32 := by
  have lt : i.imm.toNat < 32 := by
    unfold SInstr.legal at h
    rcases o with o | o | o <;> simpa [o] using h
  simp [uimmOf]; omega

theorem SInstr.legal_lui {i : SInstr} (h : i.legal = true) (o : i.op = .lui) : i.a = 0 := by
  unfold SInstr.legal at h; simpa [o] using h

/-- IMM16 × 2¹⁶ is IMM16 above sixteen zeros. -/
theorem uimmOf_high (i : SInstr) : uimmOf i <<< 16 = i.imm.setWidth 16 ++ 0#16 := by
  rw [uimmOf_eq]
  generalize i.imm.setWidth 16 = z
  have joined : (z ++ 0#16).toNat = z.toNat <<< 16 := (BitVec.toNat_append z 0#16).trans (Nat.or_zero _)
  have lt := z.isLt
  apply BitVec.eq_of_toNat_eq
  rw [joined, BitVec.toNat_shiftLeft, BitVec.toNat_setWidth, Nat.shiftLeft_eq, Nat.shiftLeft_eq]
  omega

/-- Settles O2: each row is its operation on two registers, or on a register and IMM16, and goes on. -/
theorem stewardArithmetic : Obligations.StewardArithmetic := by
  refine ⟨fun c e i s h => ?_, fun c e i s h => ?_⟩
  · intro x y gives
    exact ⟨fun o => aluReg_ran h o rfl, fun o => aluReg_ran h o rfl, fun o => aluReg_ran h o rfl, fun o => aluReg_ran h o rfl,
      fun o => aluReg_ran h o rfl,
      fun o => aluReg_ran h o (by rw [← toNat_and_31]; rfl), fun o => aluReg_ran h o (by rw [← toNat_and_31]; rfl),
      fun o => aluReg_ran h o (by rw [← toNat_and_31]; rfl),
      fun o => aluReg_ran h o (ofNat_b2n_slt x y), fun o => aluReg_ran h o (ofNat_b2n_ult x y),
      fun o => aluReg_ran h o rfl, fun o => aluReg_ran h o (mulHigh_eq x y),
      fun o => aluReg_ran h o (divSigned_eq x y), fun o => aluReg_ran h o (divUnsigned_eq x y),
      fun o => aluReg_ran h o (remSigned_eq x y), fun o => aluReg_ran h o (remUnsigned_eq x y)⟩
  · intro x imm16 z gives
    have shift (o : i.op = .shli ∨ i.op = .shri ∨ i.op = .srai) : (uimmOf i).toNat < 32 := SInstr.legal_shift (FetchesOn.legal h) o
    have amount (lt : (uimmOf i).toNat < 32) : (uimmOf i).toNat % 32 = (uimmOf i).toNat := Nat.mod_eq_of_lt lt
    have hz : z = uimmOf i := (uimmOf_eq i).symm
    rw [hz]
    exact ⟨fun o => aluImm_ran h o (by rw [simmOf_eq]), fun o => aluImm_ran h o rfl, fun o => aluImm_ran h o rfl,
      fun o => aluImm_ran h o rfl,
      fun o => ⟨shift (by simp [o]), aluImm_ran h o (by rw [amount (shift (by simp [o]))]; rfl)⟩,
      fun o => ⟨shift (by simp [o]), aluImm_ran h o (by rw [amount (shift (by simp [o]))]; rfl)⟩,
      fun o => ⟨shift (by simp [o]), aluImm_ran h o (by rw [amount (shift (by simp [o]))]; rfl)⟩,
      fun o => ⟨SInstr.legal_lui (FetchesOn.legal h) o, aluImm_ran h o (uimmOf_high i)⟩⟩

end Sys2Proof.Machine
end

section
/-! PROOF. The Steward's loads, stores, branches, jumps and floating-point instructions (O3 to O6). -/

namespace Sys2Proof.Machine

open Sys2Proof.Safety

/- Addresses (R114, R119). -/

theorem accessFault_none {a n size : Nat} (range : a + n ≤ size) (aligned : a % n = 0) : accessFault a n size = none := by
  rw [accessFault, if_neg (by omega), if_neg (by simpa using aligned)]

theorem effAddr_eq (k : Core) (i : SInstr) : (k.g i.a + (i.imm.setWidth 16).signExtend 32).toNat = effAddr k i := by
  rw [effAddr, simmOf_eq]

section
variable {c : Fin 192} {e : Ecc} {i : SInstr} {s : State} {op : SOp} {n : Nat}

/- Loads. -/

theorem stwLoad_ran (h : FetchesOn c e i s) (o : i.op = op) {f : Nat → Word} (range : effAddr (s.core c) i + n ≤ 0x20000)
    (aligned : effAddr (s.core c) i % n = 0) :
    stewardStep op c e (stwLoad c n f) s = ran c e s fun k => k.setG i.d (f ((s.core c).dmem.readLE (effAddr (s.core c) i) n)) :=
  stewardStep_done h o (Core.setG_pc ..) (by
    rw [stwLoad, counted_core, accessFault_none range aligned]; rfl)

theorem lws_ran (h : FetchesOn c e i s) (o : i.op = .lws) (range : effAddr (s.core c) i + 4 ≤ 0x800000)
    (aligned : effAddr (s.core c) i % 4 = 0) :
    exec (.lws c e) s = ran c e s fun k =>
      (k.bump64 0x20610 1).setG i.d (BitVec.ofNat 32 ((s.core c).sp.readLE (effAddr (s.core c) i) 4)) := by
  show execLws c e s = _
  unfold execLws
  refine stewardStep_done h o (Core.setG_pc ..) ?_
  simp only [counted_core, spBytes, accessFault_none range aligned]
  simp [State.stwWrite, State.stwDone, State.modCore, State.setCore_setCore]

end

/-- Settles O3: an access in range and aligned is the read and a register write. -/
theorem stewardLoads : Obligations.StewardLoads := by
  intro c e i s h k a gives
  have ha : a = effAddr k i := effAddr_eq k i
  rw [ha]
  exact ⟨fun o aligned range => stwLoad_ran h o range aligned, fun o aligned range => stwLoad_ran h o range aligned,
    fun o aligned range => stwLoad_ran h o range aligned, fun o range => stwLoad_ran h o range (Nat.mod_one _),
    fun o range => stwLoad_ran h o range (Nat.mod_one _), fun o aligned range => lws_ran h o range aligned⟩

/- Stores. -/

theorem leBytes_getD {n j : Nat} (v : Nat) (h : j < n) : (leBytes n v).getD j 0 = BitVec.ofNat 8 (v / 2 ^ (8 * j)) := by
  induction n generalizing v j with
  | zero => omega
  | succ n ih =>
    cases j with
    | zero => simp [leBytes]
    | succ j =>
      rw [leBytes, List.getD_cons_succ, ih _ (by omega), Nat.div_div_eq_div_mul, Nat.mul_succ, Nat.pow_add, Nat.mul_comm (2 ^ (8 * j))]

/-- A little-endian write changes the bytes of the number and no other. -/
theorem Memory.read_writeLE {m : Memory} (hm : m.wf = true) (a n v b : Nat) :
    (m.writeLE a n v).read b = if a ≤ b ∧ b < a + n then BitVec.ofNat 8 (v / 2 ^ (8 * (b - a))) else m.read b := by
  rw [Memory.writeLE, Memory.read_writeRun hm, leBytes_length]
  split
  · exact leBytes_getD v (by omega)
  · rfl

/-- The POISON byte of the entry whose word 0 a store reaches is the byte at its offset 9 (R182). -/
theorem entryAddr_poison {a : Nat} (h : 0x1F000 ≤ a ∧ a % 16 < 4) : entryAddr ((a - 0x1F000) / 16) + 9 = a / 16 * 16 + 9 := by
  unfold entryAddr; omega

/-- A store to data memory changes data memory only. -/
theorem Core.storeData_shape (k : Core) (a n v : Nat) : k.storeData a n v = { k with dmem := (k.storeData a n v).dmem } := by
  unfold Core.storeData; split <;> rfl

/-- What data memory holds after a store. -/
theorem Core.read_storeData {k : Core} (hm : k.dmem.wf = true) (a n v b : Nat) : (k.storeData a n v).dmem.read b =
    if (0x1F000 ≤ a ∧ a % 16 < 4) ∧ b = a / 16 * 16 + 9 then 0
    else if a ≤ b ∧ b < a + n then BitVec.ofNat 8 (v / 2 ^ (8 * (b - a))) else k.dmem.read b := by
  by_cases word0 : 0x1F000 ≤ a ∧ a % 16 < 4
  · have stored : (k.storeData a n v).dmem = (k.dmem.writeLE a n v).writeRun (a / 16 * 16 + 9) [0] := by
      rw [Core.storeData, if_pos word0, ← entryAddr_poison word0]; rfl
    have wf : (k.dmem.writeLE a n v).wf = true := Memory.writeRun_wf hm _ _
    rw [stored, Memory.read_writeRun wf, Memory.read_writeLE hm]
    by_cases at9 : b = a / 16 * 16 + 9
    · rw [if_pos (by simp [at9]), if_pos ⟨word0, at9⟩, at9, Nat.sub_self]; rfl
    · rw [if_neg (by simp only [List.length_singleton]; omega)]
      exact (if_neg fun h => at9 h.2).symm
  · have stored : (k.storeData a n v).dmem = k.dmem.writeLE a n v := by rw [Core.storeData, if_neg word0]
    rw [stored, Memory.read_writeLE hm]
    exact (if_neg fun h => word0 h.1).symm

/-- A store of at most four bytes leaves `m` in data memory: the bytes of `v`, a cleared POISON, and the others as before. -/
def StoresBytes (k : Core) (a n v : Nat) (m : Memory) : Prop :=
  (∀ j < n, m.read (a + j) = BitVec.ofNat 8 (v / 2 ^ (8 * j))) ∧
    (0x1F000 ≤ a → a % 16 < 4 → m.read (a / 16 * 16 + 9) = 0) ∧
    ∀ b, (b < a ∨ a + n ≤ b) → ¬ (0x1F000 ≤ a ∧ a % 16 < 4 ∧ b = a / 16 * 16 + 9) → m.read b = k.dmem.read b

theorem Core.storeData_bytes {k : Core} (hm : k.dmem.wf = true) (a v : Nat) {n : Nat} (few : n ≤ 4) :
    StoresBytes k a n v (k.storeData a n v).dmem := by
  refine ⟨fun j lt => ?_, fun entry word => ?_, fun b outside other => ?_⟩
  · rw [Core.read_storeData hm, if_neg (by omega), if_pos (by omega), Nat.add_sub_cancel_left]
  · rw [Core.read_storeData hm, if_pos ⟨⟨entry, word⟩, rfl⟩]
  · rw [Core.read_storeData hm, if_neg (by tauto), if_neg (by omega)]

section
variable {c : Fin 192} {e : Ecc} {i : SInstr} {s : State} {op : SOp} {n : Nat}

theorem stwStore_ran (h : FetchesOn c e i s) (o : i.op = op) (few : n ≤ 4) (hm : (s.core c).dmem.wf = true)
    (range : effAddr (s.core c) i + n ≤ 0x20000) (aligned : effAddr (s.core c) i % n = 0) :
    ∃ m, stewardStep op c e (stwStore c n) s = (ran c e s fun k => { k with dmem := m }) ∧
      StoresBytes (s.core c) (effAddr (s.core c) i) n ((s.core c).g i.d).toNat m := by
  refine ⟨_, ?_, Core.storeData_bytes hm _ _ few⟩
  refine stewardStep_done h o rfl ?_
  rw [stwStore, counted_core, accessFault_none range aligned]
  simp only [State.stwDone, State.modCore, counted_core]
  rw [Core.storeData_shape]

theorem sws_ran (h : FetchesOn c e i s) (o : i.op = .sws) (range : effAddr (s.core c) i + 4 ≤ 0x800000) (aligned : effAddr (s.core c) i % 4 = 0) :
    exec (.sws c e) s = ran c e s fun k =>
      { k.bump64 0x20610 1 with sp := (s.core c).sp.writeLE (effAddr (s.core c) i) 4 ((s.core c).g i.d).toNat } := by
  show execSws c e s = _
  unfold execSws
  refine stewardStep_done h o rfl ?_
  simp only [counted_core, spBytes, accessFault_none range aligned]
  simp only [State.stwDone, State.modCore, counted_core]

end

/-- Settles O4: an access in range and aligned is the write, with POISON of the entry whose word 0 it reaches. -/
theorem stewardStores : Obligations.StewardStores := by
  intro c e i s h k a stores dwf swf
  have ha : a = effAddr k i := effAddr_eq k i
  have stored (n : Nat) (r : Result) (ran : ∃ m, r = (ran c e s fun k => { k with dmem := m }) ∧
      StoresBytes k (effAddr k i) n (k.g i.d).toNat m) : stores n r := by rw [← ha] at ran; exact ran
  rw [ha]
  refine ⟨fun o aligned range => stored _ _ (stwStore_ran h o (by decide) dwf range aligned), fun o aligned range => stored _ _ (stwStore_ran h o (by decide) dwf range aligned),
    fun o range => stored _ _ (stwStore_ran h o (by decide) dwf range (Nat.mod_one _)), fun o aligned range =>
      ⟨_, sws_ran h o range aligned, fun j lt => ?_, fun b outside => ?_⟩⟩
  · rw [Memory.read_writeLE swf, if_pos ⟨Nat.le_add_right .., Nat.add_lt_add_left lt _⟩, Nat.add_sub_cancel_left]
  · exact (Memory.read_writeLE swf (effAddr k i) 4 _ b).trans (if_neg (by omega))

/- Branches and jumps. -/

section
variable {c : Fin 192} {e : Ecc} {i : SInstr} {s : State} {op : SOp}

/-- Going to a word of the bank. -/
theorem stewardStep_goto (h : FetchesOn c e i s) (o : i.op = op) {act : SInstr → State → State} {n : Int} (low : 0 ≤ n) (high : n < 16384)
    (ha : act i (counted e s) = (counted e s).stwGoto c n) :
    stewardStep op c e act s = .next ((counted e s).setCore c (atWord (s.core c) n.toNat)) := by
  rw [stewardStep_act h.1 o, ha, State.stwGoto_eq _ _ _ ⟨low, high⟩, counted_core]

/-- A branch goes OFFSET words on when its comparison holds, and else to the next word. -/
theorem branch_goes (h : FetchesOn c e i s) (o : i.op = op) {test : Word → Word → Bool} {p : Prop}
    (ht : test ((s.core c).g i.a) ((s.core c).g i.b) = true ↔ p) :
    (p → 0 ≤ ((s.core c).stw.pc.toNat + (i.imm.setWidth 16).toInt : Int) → ((s.core c).stw.pc.toNat + (i.imm.setWidth 16).toInt : Int) < 16384 →
      stewardStep op c e (branch c test) s =
        .next ((counted e s).setCore c (atWord (s.core c) ((s.core c).stw.pc.toNat + (i.imm.setWidth 16).toInt : Int).toNat))) ∧
    (¬ p → stewardStep op c e (branch c test) s =
      .next ((counted e s).setCore c (atWord (s.core c) ((s.core c).stw.pc.toNat + 1 : Int).toNat))) := by
  refine ⟨fun holds low high => stewardStep_goto h o low high ?_, fun fails => stewardStep_goto h o (by omega) (by have := h.2; omega) ?_⟩
  · rw [branch, counted_core, if_pos (ht.2 holds), simmOf_eq, BitVec.toInt_signExtend_of_le (by decide)]
  · rw [branch, counted_core, if_neg fun t => fails (ht.1 t), State.stwNext, counted_core]

/-- A jump to a word of the bank writes the index of the next word. -/
theorem jump_goes (h : FetchesOn c e i s) (o : i.op = op) {act : SInstr → State → State} {t : Int} (low : 0 ≤ t) (high : t < 16384)
    (ha : act i (counted e s) = jumpTo c i.d t (counted e s)) :
    stewardStep op c e act s =
      .next ((counted e s).setCore c (atWord ((s.core c).setG i.d (BitVec.ofNat 32 ((s.core c).stw.pc.toNat + 1))) t.toNat)) := by
  rw [stewardStep_act h.1 o, ha, jumpTo, if_pos ⟨low, high⟩, State.stwGoto_eq _ _ _ ⟨low, high⟩]
  simp [State.modCore_eq]

end

/-- Settles O5: each branch is its comparison, each jump its target. -/
theorem stewardBranchesAndJumps : Obligations.StewardBranchesAndJumps := by
  intro c e i s h k x y pc t goes jumps branches
  refine ⟨fun o => branch_goes h o beq_iff_eq, fun o => branch_goes h o bne_iff_ne, fun o => branch_goes h o BitVec.slt_iff_toInt_lt,
    fun o => branch_goes h o ?_, fun o => branch_goes h o BitVec.ult_iff_toNat_lt, fun o => branch_goes h o ?_,
    fun o low high => ?_, fun o high => ?_⟩
  · rw [Bool.not_eq_true', ← Bool.not_eq_true, BitVec.slt_iff_toInt_lt]; exact not_lt
  · rw [Bool.not_eq_true', ← Bool.not_eq_true, BitVec.ult_iff_toNat_lt]; exact not_lt
  · show execJal c e s = _
    unfold execJal
    exact jump_goes h o low high (by rw [counted_core])
  · rw [show x + (i.imm.setWidth 16).signExtend 32 = k.g i.a + simmOf i by rw [simmOf_eq]] at high ⊢
    show execJalr c e s = _
    unfold execJalr
    exact jump_goes h o (Int.natCast_nonneg _) (Int.ofNat_lt.2 high) (by rw [counted_core]; rfl)

/- Floating point (R116). -/

section
variable {c : Fin 192} {e : Ecc} {i : SInstr} {s : State} {op : SOp}

theorem fpDone_ran (h : FetchesOn c e i s) (o : i.op = op) {act : SInstr → State → State} {r : Nat × FFlags}
    (ha : act i (counted e s) = fpDone c i r (counted e s)) :
    stewardStep op c e act s = ran c e s fun k => (k.setG i.d (BitVec.ofNat 32 r.1)).raise r.2 :=
  stewardStep_done h o (by simp) ha

theorem fpDonePair_ran (h : FetchesOn c e i s) (o : i.op = op) {act : SInstr → State → State} {r : Nat × FFlags}
    (ha : act i (counted e s) = fpDonePair c i r (counted e s)) :
    stewardStep op c e act s = ran c e s fun k => (k.setPair i.d r.1).raise r.2 :=
  stewardStep_done h o (by simp) ha

theorem fpS2_ran (h : FetchesOn c e i s) (o : i.op = op) (f : Nat → Nat → Nat × FFlags) :
    stewardStep op c e (fpS2 c f) s = ran c e s fun k =>
      (k.setG i.d (BitVec.ofNat 32 (f ((s.core c).g i.a).toNat ((s.core c).g i.b).toNat).1)).raise
        (f ((s.core c).g i.a).toNat ((s.core c).g i.b).toNat).2 := fpDone_ran h o (by rw [fpS2, counted_core])

theorem fpS1_ran (h : FetchesOn c e i s) (o : i.op = op) (f : Nat → Nat × FFlags) :
    stewardStep op c e (fpS1 c f) s = ran c e s fun k =>
      (k.setG i.d (BitVec.ofNat 32 (f ((s.core c).g i.a).toNat).1)).raise (f ((s.core c).g i.a).toNat).2 :=
  fpDone_ran h o (by rw [fpS1, counted_core])

theorem fpD2_ran (h : FetchesOn c e i s) (o : i.op = op) (f : Nat → Nat → Nat × FFlags) :
    stewardStep op c e (fpD2 c f) s = ran c e s fun k =>
      (k.setPair i.d (f ((s.core c).gPair i.a) ((s.core c).gPair i.b)).1).raise (f ((s.core c).gPair i.a) ((s.core c).gPair i.b)).2 :=
  fpDonePair_ran h o (by rw [fpD2, counted_core])

theorem fpDCmp_ran (h : FetchesOn c e i s) (o : i.op = op) (f : Nat → Nat → Nat × FFlags) :
    stewardStep op c e (fpDCmp c f) s = ran c e s fun k =>
      (k.setG i.d (BitVec.ofNat 32 (f ((s.core c).gPair i.a) ((s.core c).gPair i.b)).1)).raise
        (f ((s.core c).gPair i.a) ((s.core c).gPair i.b)).2 := fpDone_ran h o (by rw [fpDCmp, counted_core])

end

/-- Settles O6: each row gives the result of its operation to gd or its pair, and its flags. -/
theorem stewardFloatingPoint : Obligations.StewardFloatingPoint := by
  refine ⟨fun c e i s h => ?_, fun c e i s h => ?_⟩
  · intro k x y gives
    refine ⟨fun o => fpS2_ran h o _, fun o => fpS2_ran h o _, fun o => fpS2_ran h o _, fun o => fpS2_ran h o _, fun o => fpS1_ran h o _,
      fun o => fpS2_ran h o _, fun o => fpS2_ran h o _, fun o => fpS2_ran h o _, fun o => fpS2_ran h o _, fun o => fpS2_ran h o _,
      fun o => fpS1_ran h o _, fun o => fpS1_ran h o _, fun o => ?_⟩
    show execFmaS c e s = _
    unfold execFmaS
    exact fpDone_ran h o (by rw [counted_core])
  · intro k x y one two
    refine ⟨fun o => fpD2_ran h o _, fun o => fpD2_ran h o _, fun o => fpD2_ran h o _, fun o => fpD2_ran h o _,
      fun o => ?_, fun o => fpD2_ran h o _, fun o => fpD2_ran h o _, fun o => fpDCmp_ran h o _, fun o => fpDCmp_ran h o _,
      fun o => fpDCmp_ran h o _, fun o => ?_, fun o => ?_, fun o => ?_, fun o => ?_, fun o => ?_⟩
    · show execFsqrtD c e s = _
      unfold execFsqrtD
      exact fpDonePair_ran h o (by rw [counted_core])
    · show execFcvtDW c e s = _
      unfold execFcvtDW
      exact fpDonePair_ran h o (by rw [counted_core])
    · show execFcvtWD c e s = _
      unfold execFcvtWD
      exact fpDone_ran h o (by rw [counted_core])
    · show execFmaD c e s = _
      unfold execFmaD
      exact fpDonePair_ran h o (by rw [counted_core])
    · show execFcvtDS c e s = _
      unfold execFcvtDS
      exact fpDonePair_ran h o (by rw [counted_core])
    · show execFcvtSD c e s = _
      unfold execFcvtSD
      exact fpDone_ran h o (by rw [counted_core])

end Sys2Proof.Machine
end

section
/-! PROOF. What a core keeps while instances that do not run end: what the Steward's faults (O8) and the ends of instances (O12, O22) leave alone. -/

namespace Sys2Proof.Machine

open Sys2Proof.Safety

/- The end of an instance that is only armed, and all that follows it, disturbs no scratchpad, no accumulator, no empty slot, and of a
Steward only its events, which rise (R131, R183, R205, R212, R350, R398). -/

/-- Slots returned change the billet table and the endpoints only. -/
theorem Core.returnSlots_shape (k : Core) (n : Inst) : ∃ dmem ends, k.returnSlots n = { k with dmem := dmem, ends := ends } := by
  unfold Core.returnSlots
  generalize n.taken = l
  induction l generalizing k with
  | nil => exact ⟨_, _, rfl⟩
  | cons t l ih =>
    rw [List.foldl_cons]
    split <;> obtain ⟨dmem, ends, e⟩ := ih _ <;> exact ⟨dmem, ends, e⟩

theorem Core.slot_returnSlots (k : Core) (n : Inst) (i : Fin 8) : (k.returnSlots n).slot i = k.slot i := by
  obtain ⟨dmem, ends, e⟩ := k.returnSlots_shape n
  rw [e]; rfl

/-- The core with the instance `n` of slot `i` cancelled (R131, R189). -/
def Core.cancelled (k : Core) (i : Fin 8) (n : Inst) (st : Byte) : Core :=
  k.modSlot i fun v => { v with gen := v.gen + 1, inst := some { n with cancel := some (n.cancel.getD st) } }

/-- A cancellation marks the instance, and records the requests that it drops; an armed instance then ends. -/
theorem State.cancelInst_eq (s : State) {c : Fin 192} {i : Fin 8} {n : Inst} (inst : ((s.core c).slot i).inst = some n) (st : Byte)
    (unstarted : List Nat) : ∃ regs porterQ, s.cancelInst c i st unstarted =
      if n.running then s.modCore c fun k => ({ k with regs := regs, porterQ := porterQ } : Core).cancelled i n st
      else (s.modCore c fun k => ({ k with regs := regs, porterQ := porterQ } : Core).cancelled i n st).endCore c i (n.cancel.getD st) := by
  unfold State.cancelInst
  rw [inst]
  extract_lets stale mark s1
  have recorded (gone : List (PJob × Nat)) (k : Core) : ∃ regs, gone.foldl (fun k p =>
      k.recordCmdFault i stCancelled p.1.cmd.args.opcode false p.1.seq p.1.mb.toNat) k = { k with regs := regs } := by
    induction gone generalizing k with
    | nil => exact ⟨k.regs, rfl⟩
    | cons p gone ih =>
      obtain ⟨regs, e⟩ := k.recordW1C_shape 0x20500 4 (i.val * 2 + stCancelled.toNat * 2 ^ 8 + p.1.cmd.args.opcode % 256 * 2 ^ 16 + b2n false * 2 ^ 24)
        [(0x20504, p.1.seq % 2 ^ 16 + p.1.mb.toNat * 2 ^ 16)]
      rw [List.foldl_cons, Core.recordCmdFault, e]
      exact ih _
  obtain ⟨regs, told⟩ := recorded ((s.core c).porterQ.zipIdx.filter fun p => (stale p).isNone) (s.core c)
  refine ⟨regs, (s.core c).porterQ.zipIdx.filterMap stale, ?_⟩
  have marked : s1 = s.modCore c fun k => ({ k with regs := regs, porterQ := (s.core c).porterQ.zipIdx.filterMap stale } : Core).cancelled i n st := by
    unfold s1
    rw [State.modCore, State.modCore]
    dsimp only
    rw [told, Core.cancelled, Core.modSlot, Core.modSlot]
    congr 3
    exact congrArg (Option.map mark) inst
  rw [marked]

/-- What core `q` keeps of core `k`. -/
structure CoreUndisturbed (k q : Core) : Prop where
  sp : q.sp = k.sp
  stw : q.stw = { k.stw with events := q.stw.events }
  events : ∀ b, k.stw.events.getLsbD b = true → q.stw.events.getLsbD b = true
  live : q.live = k.live
  shadow : q.shadow = k.shadow
  liveOwner : q.liveOwner = k.liveOwner
  slots : ∀ i, (k.slot i).inst = none → q.slot i = k.slot i
  dmem : (∀ i, (k.slot i).inst = none) → q.dmem = k.dmem

namespace CoreUndisturbed

/-- All that `CoreUndisturbed` speaks of. -/
def part (k : Core) := (k.sp, k.stw, k.live, k.shadow, k.liveOwner, k.slots, k.dmem)

theorem of_same {k q : Core} (h : part q = part k) : CoreUndisturbed k q := by
  simp only [part, Prod.mk.injEq] at h
  obtain ⟨sp, stw, live, shadow, owner, slots, dmem⟩ := h
  exact ⟨sp, by rw [stw], by rw [stw]; exact fun _ h => h, live, shadow, owner, fun i _ => by rw [Core.slot, slots]; rfl, fun _ => dmem⟩

theorem refl (k : Core) : CoreUndisturbed k k := .of_same rfl

theorem trans {k q r : Core} (h : CoreUndisturbed k q) (h' : CoreUndisturbed q r) : CoreUndisturbed k r where
  sp := h'.sp.trans h.sp
  stw := by rw [h'.stw, h.stw]
  events b e := h'.events b (h.events b e)
  live := h'.live.trans h.live
  shadow := h'.shadow.trans h.shadow
  liveOwner := h'.liveOwner.trans h.liveOwner
  slots i e := (h'.slots i ((h.slots i e).symm ▸ e)).trans (h.slots i e)
  dmem e := (h'.dmem fun i => (h.slots i (e i)).symm ▸ e i).trans (h.dmem e)

theorem ite {k a b : Core} {p : Prop} [Decidable p] (ha : CoreUndisturbed k a) (hb : CoreUndisturbed k b) :
    CoreUndisturbed k (if p then a else b) := by
  split <;> assumption

theorem foldl {α : Type} {f : Core → α → Core} (hf : ∀ k a, CoreUndisturbed k (f k a)) (l : List α) (k : Core) :
    CoreUndisturbed k (l.foldl f k) := by
  induction l generalizing k with
  | nil => exact .refl k
  | cons a l ih => exact (hf k a).trans (ih _)

theorem g {k q : Core} (h : CoreUndisturbed k q) : q.stw.g = k.stw.g := by rw [h.stw]

theorem state {k q : Core} (h : CoreUndisturbed k q) : q.stw.state = k.stw.state := by rw [h.stw]

/-- An event of a Steward's events rises and none falls (R118). -/
theorem raiseEvent (k : Core) (bit : Nat) : CoreUndisturbed k (k.raiseEvent bit) where
  sp := rfl
  stw := rfl
  events b h := by rw [Core.raiseEvent, BitVec.getLsbD_or, h]; rfl
  live := rfl
  shadow := rfl
  liveOwner := rfl
  slots _ _ := rfl
  dmem _ := rfl

/-- The update of a slot that holds an instance. -/
theorem setSlot {k : Core} {i : Fin 8} (v : Slot) (h : (k.slot i).inst ≠ none) : CoreUndisturbed k (k.setSlot i v) where
  sp := rfl
  stw := rfl
  events _ h := h
  live := rfl
  shadow := rfl
  liveOwner := rfl
  slots _ e := Core.slot_setSlot_ne _ _ fun same => h (same ▸ e)
  dmem _ := rfl

theorem postNotice (k : Core) (m : Nat) : CoreUndisturbed k (k.postNotice m) := by
  have admission (done : List (BitVec 16)) (queue held : List Word) : CoreUndisturbed k { k with fwdDone := done, admitQ := queue, heldNotices := held } :=
    .of_same rfl
  have post (w : Word) : CoreUndisturbed k (k.postAdmit w) := (admission k.fwdDone _ k.heldNotices).trans (raiseEvent _ _)
  exact (ite (admission _ _ _) (ite (post _) (admission _ _ _))).trans (raiseEvent _ _)

/-- Slots are returned while a slot holds their instance. -/
theorem returnSlots {k : Core} {i : Fin 8} (n : Inst) (h : (k.slot i).inst ≠ none) : CoreUndisturbed k (k.returnSlots n) := by
  obtain ⟨dmem, ends, e⟩ := k.returnSlots_shape n
  rw [e]
  exact ⟨rfl, rfl, fun _ h => h, rfl, rfl, rfl, fun _ _ => rfl, fun none => absurd (none i) h⟩

end CoreUndisturbed

/-- From `s` to `t` every core keeps what `CoreUndisturbed` names. -/
def Undisturbed (s t : State) : Prop := ∀ c, CoreUndisturbed (s.core c) (t.core c)

namespace Undisturbed

theorem refl (s : State) : Undisturbed s s := fun _ => .refl _

theorem trans {s t u : State} (h : Undisturbed s t) (h' : Undisturbed t u) : Undisturbed s u := fun c => (h c).trans (h' c)

theorem ite {s a b : State} {p : Prop} [Decidable p] (ha : Undisturbed s a) (hb : Undisturbed s b) : Undisturbed s (if p then a else b) := by
  split <;> assumption

theorem foldl {α : Type} {f : State → α → State} (hf : ∀ s a, Undisturbed s (f s a)) (l : List α) (s : State) : Undisturbed s (l.foldl f s) := by
  induction l generalizing s with
  | nil => exact .refl s
  | cons a l ih => exact (hf s a).trans (ih _)

theorem of_cores {s t : State} (h : t.cores = s.cores) : Undisturbed s t := fun c => by
  rw [State.core, State.core, h]; exact .refl _

theorem modCore {s : State} {c : Fin 192} {g : Core → Core} (h : CoreUndisturbed (s.core c) (g (s.core c))) : Undisturbed s (s.modCore c g) := by
  intro d
  by_cases e : d = c
  · subst e; rw [State.core_modCore_same]; exact h
  · rw [State.core_modCore_other _ _ e]; exact .refl _

theorem modCtx {s : State} {x : Fin 64} {g : Ctx → Ctx} : Undisturbed s (s.modCtx x g) := of_cores rfl

theorem onCtxCores {s : State} {x : Fin 64} {f : Core → Core} (hf : ∀ k, CoreUndisturbed k (f k)) : Undisturbed s (s.onCtxCores x f) :=
  foldl (fun _ _ => modCore (hf _)) _ s

/- Decode batches and micro-batches. -/

theorem complete {s : State} (d : DescRef) (st : Byte) (d16 d32 d64 : Nat) : Undisturbed s (s.complete d st d16 d32 d64) := by
  obtain ⟨_, _, _, e⟩ := s.complete_shape d st d16 d32 d64
  exact of_cores (by rw [e])

theorem cores_putFull (s : State) (a : Nat) (bs : List Byte) : (s.putFull a bs).cores = s.cores := by
  obtain ⟨shape, -⟩ := s.putFull_shape a bs
  unfold MemOnly TierOnly at shape
  rw [shape]

theorem cores_closeBatch (s : State) (x : Fin 64) (mb : Nat) : (s.closeBatch x mb).cores = s.cores := by
  unfold State.closeBatch
  dsimp only
  split
  · rw [State.modCtx, State.setCtx_cores, cores_putFull, cores_putFull]
  · rfl

theorem cores_joinBatch (s : State) (x : Fin 64) (q : DecReq) : (s.joinBatch x q).cores = s.cores := by
  have put (s : State) (a mb : Nat) (bs : List Byte) (p : Prop) [Decidable p] (g : Ctx → Ctx) :
      (if p then ((s.putFull a bs).modCtx x g).closeBatch x mb else (s.putFull a bs).modCtx x g).cores = s.cores := by
    split
    · rw [cores_closeBatch, State.modCtx, State.setCtx_cores, cores_putFull]
    · rw [State.modCtx, State.setCtx_cores, cores_putFull]
  unfold State.joinBatch
  dsimp only
  split
  · rfl
  · split
    · exact put _ _ _ _ _ _
    · split
      · rfl
      · exact put _ _ _ _ _ _

theorem joinWaiting (s : State) (x : Fin 64) : Undisturbed s (s.joinWaiting x) :=
  trans modCtx (foldl (fun s q => of_cores (cores_joinBatch s x q)) _ _)

theorem endBatch (s : State) (x : Fin 64) (mb : Nat) (st : Byte) : Undisturbed s (s.endBatch x mb st) := by
  unfold State.endBatch
  dsimp only
  split
  · have written (s : State) (a : Nat) (bs : List Byte) : Undisturbed s (s.hostWrite x a bs) := .ite (.refl s) (.of_cores rfl)
    refine trans (trans (trans (foldl (fun s p => ?_) _ s) (onCtxCores (x := x) fun k => ?_)) modCtx) (joinWaiting _ _)
    · exact trans (.ite (written s _ _) (.refl s)) (complete _ _ _ _ _)
    · exact .of_same rfl
  · exact .refl s

theorem finishMb (s : State) (x : Fin 64) (m : Nat) (st : Byte) : Undisturbed s (s.finishMb x m st) := by
  unfold State.finishMb
  split
  · exact .refl s
  · refine .ite (.refl s) ?_
    extract_lets s1 ok count s2
    have counted : Undisturbed s s2 := .of_cores rfl
    refine .ite ((counted.trans (endBatch _ _ _ _)).trans (of_cores rfl)) ?_
    split
    · exact counted.trans (complete _ _ _ _ _)
    · exact counted

theorem settleMb (s : State) (x : Fin 64) (m : Nat) : Undisturbed s (s.settleMb x m) := by
  unfold State.settleMb
  split
  · exact .refl s
  · exact .ite (.refl s) (.ite (finishMb s _ _ _) (.refl s))

theorem recordAbort (s : State) (x : Fin 64) (m : Nat) (st : Byte) : Undisturbed s (s.recordAbort x m st) := by
  unfold State.recordAbort
  split
  · exact .refl s
  · extract_lets s1 s2 s3
    have noticed : Undisturbed s s3 := trans (t := s2) (of_cores rfl) (onCtxCores fun k => CoreUndisturbed.postNotice k m)
    exact .ite noticed (noticed.trans (finishMb s3 _ _ _))

/- The end of an instance. -/

theorem putToken (s : State) (ep : Nat) (st : Byte) : Undisturbed s (s.putToken ep st) := by
  obtain e | ⟨d, e, v, h⟩ := s.putToken_shape ep st
  · rw [e]; exact .refl s
  · rw [h]; exact modCore (.of_same rfl)

theorem poisonFlush (s : State) (c : Fin 192) (i : Fin 8) (n : Inst) (f : Frame) (st : Byte) : Undisturbed s (s.poisonFlush c i n f st) :=
  State.poisonFlush_keeps (p := Undisturbed s) (fun _ _ _ h => h.trans (putToken _ _ _)) (.refl s) c i n f st

theorem flushed {s : State} {c : Fin 192} {i : Fin 8} {n : Inst} {f : Frame} {st : Byte} {p : Prop} [Decidable p] :
    Undisturbed s (if p then s.poisonFlush c i n f st else s) := .ite (poisonFlush s _ _ _ _ _) (.refl s)

/-- An instance that is only armed ends with no other effect on what is kept. -/
theorem endCore_armed {s : State} {c : Fin 192} {i : Fin 8} {n : Inst} (inst : ((s.core c).slot i).inst = some n) (armed : n.running = false)
    (st : Byte) : Undisturbed s (s.endCore c i st) := by
  unfold State.endCore
  rw [inst]
  split
  next m f held frame =>
    cases held
    extract_lets s1 s2
    have flush : Undisturbed s s1 := flushed
    have slots : (s1.core c).slot i = (s.core c).slot i := by
      unfold s1
      split
      · rw [Core.slot, State.slots_poisonFlush]; rfl
      · rfl
    have ended : Undisturbed s s2 := by
      refine flush.trans (modCore ?_)
      have inst1 : ((s1.core c).slot i).inst ≠ none := by rw [slots, inst]; nofun
      generalize s1.core c = k at inst1 ⊢
      rw [armed]
      simp only [Bool.false_eq_true, if_false, false_and]
      refine (CoreUndisturbed.trans ?_ (CoreUndisturbed.setSlot _ ?_)).trans (.raiseEvent _ _)
      · exact .returnSlots n inst1
      · rw [Core.slot_returnSlots]; exact inst1
    split
    · exact .ite (ended.trans (of_cores rfl)) ended
    · exact ended
  · exact .refl s

/-- A cancellation marks an instance that runs, and ends one that is only armed. -/
theorem cancelInst (s : State) (c : Fin 192) (i : Fin 8) (st : Byte) (unstarted : List Nat) : Undisturbed s (s.cancelInst c i st unstarted) := by
  cases inst : ((s.core c).slot i).inst with
  | none => rw [State.cancelInst, inst]; exact .refl s
  | some n =>
    obtain ⟨regs, porterQ, e⟩ := s.cancelInst_eq inst st unstarted
    have held : (({ s.core c with regs := regs, porterQ := porterQ } : Core).slot i).inst ≠ none := by rintro none; cases inst.symm.trans none
    have marked : Undisturbed s (s.modCore c fun k => (({ k with regs := regs, porterQ := porterQ } : Core).cancelled i n st)) :=
      modCore (CoreUndisturbed.trans (q := { s.core c with regs := regs, porterQ := porterQ }) (.of_same rfl) (.setSlot _ held))
    rw [e]
    split
    · exact marked
    next stopped =>
      refine marked.trans (endCore_armed (n := { n with cancel := some (n.cancel.getD st) }) ?_ (by simpa using stopped) _)
      rw [State.core_modCore_same, Core.cancelled, Core.slot_modSlot]

theorem cancelAll (l : List (Fin 192 × Fin 8)) (s : State) (st : Byte) :
    Undisturbed s (l.foldl (fun s p => s.cancelInst p.1 p.2 st []) s) := foldl (fun _ _ => cancelInst _ _ _ _ _) _ _

theorem failMb (s : State) (x : Fin 64) (f : Frame) (m : Nat) (st : Byte) : Undisturbed s (s.failMb x f m st) := by
  have tainted (s : State) (cause : Nat) : Undisturbed s (s.taintStep x cause st) := modCtx
  have aborted : Undisturbed s (s.abortMb x m st) := by
    unfold State.abortMb
    split
    · exact .refl s
    · exact .ite (.refl s) ((recordAbort s _ _ _).trans (cancelAll _ _ _))
  have marked : Undisturbed s (s.modCtx x fun k => k.mbMod m fun r => { r with failed := some (r.failed.getD st) }) := modCtx
  exact .ite (.ite (.refl s) (tainted s 2)) (.ite aborted (.ite marked (marked.trans (tainted _ 1))))

theorem instEnded (s : State) (n : Inst) (f : Frame) (st : Byte) : Undisturbed s (s.instEnded n f st) := by
  unfold State.instEnded
  split
  · exact .refl s
  · exact trans (.ite (failMb s _ _ _ _) (.refl s)) (settleMb _ _ _)

theorem parkMid (s : State) (x : Fin 64) (st : Byte) : Undisturbed s (s.parkMid x st) := by
  unfold State.parkMid
  exact .ite (trans modCtx (cancelAll _ _ _)) (.refl s)

theorem settleFault (s : State) (c : Fin 192) : Undisturbed s (s.settleFault c) := by
  unfold State.settleFault
  dsimp only
  refine .ite ?_ (.refl s)
  have fenced : Undisturbed s (s.modCore c fun k => { k with role := 3 }) := modCore (.of_same rfl)
  split
  · exact fenced.trans (parkMid _ _ _)
  · exact fenced

/- Urgent loads (R188) are marked in the Porter's queue, and counted. -/

theorem markLate (s : State) (c : Fin 192) : Undisturbed s (s.markLate c) :=
  foldl (fun _ _ => .ite (modCore (.of_same rfl)) (.refl _)) _ s

theorem markLateAll (s : State) : Undisturbed s s.markLateAll := foldl (fun _ _ => markLate _ _) _ s

end Undisturbed

/- The Steward's fault (R120, R364, R398). -/

theorem State.cores_logFault (s : State) (e : LogEntry) : (s.logFault e).cores = s.cores := by
  obtain ⟨_, _, _, _, h⟩ := s.logFault_shape e
  rw [h]

theorem State.cores_tellOwner (s : State) (x : Fin 64) (evt : Nat) (body : List Byte) : (s.tellOwner x evt body).cores = s.cores := by
  unfold State.tellOwner
  split
  · rfl
  · obtain ⟨_, _, h⟩ := s.postEvent_shape (fnOf (s.ctx x).fn) evt 0 stOk true body
    rw [h]

/-- A fault stops the Steward with its cause; what follows disturbs nothing else. -/
theorem State.stwFault_undisturbed (s : State) (c : Fin 192) (cause : Nat) : Undisturbed
    (s.modCore c fun k => { k with stw := { k.stw with state := .faulted, cause := cause, stopReq := false } }) (s.stwFault c cause) := by
  unfold State.stwFault
  extract_lets s1 k s2
  have logged : Undisturbed s1 s2 := .of_cores (s1.cores_logFault _)
  refine logged.trans ?_
  unfold State.stwFaulted
  dsimp only
  refine Undisturbed.trans ?_ (Undisturbed.settleFault _ _)
  split
  · exact .of_cores (s2.cores_tellOwner _ _ _)
  · exact .refl _

end Sys2Proof.Machine
end

section
/-! PROOF. Where a Steward faults, with which cause, and what it keeps (O8). -/

namespace Sys2Proof.Machine

open Sys2Proof.Safety

/- What a fault leaves. -/

/-- Core `c`'s Steward has faulted with cause `q`: it stands where it stood with its registers and its data memory, and no other Steward
changed its state or registers. -/
def FaultsWith (c : Fin 192) (q : Nat) (s : State) (r : Result) : Prop :=
  ∃ t, r = .next t ∧ (t.core c).stw.state = .faulted ∧ (t.core c).stw.cause = q ∧ (t.core c).stw.pc = (s.core c).stw.pc ∧
    (t.core c).stw.bank = (s.core c).stw.bank ∧ (t.core c).stw.g = (s.core c).stw.g ∧ (t.core c).dmem = (s.core c).dmem ∧
    ∀ d, d ≠ c → (t.core d).stw.state = (s.core d).stw.state ∧ (t.core d).stw.g = (s.core d).stw.g

/-- While the core holds an instance its fault is not yet settled (R398). -/
theorem State.settleFault_occupied {s : State} {c : Fin 192} {i : Fin 8} (h : ((s.core c).slot i).inst ≠ none) : s.settleFault c = s :=
  if_neg fun ⟨_, _, empty⟩ => h (by simpa [allSlots] using List.all_eq_true.1 empty i (List.mem_finRange i))

/-- A fault leaves data memory alone: instances of the core are left to end. -/
theorem State.dmem_stwFault (s : State) (c : Fin 192) (cause : Nat) : ((s.stwFault c cause).core c).dmem = (s.core c).dmem := by
  by_cases empty : ∀ i, ((s.core c).slot i).inst = none
  · have kept := (s.stwFault_undisturbed c cause c).dmem
    rw [State.core_modCore_same] at kept
    exact kept empty
  · obtain ⟨i, held⟩ := not_forall.1 empty
    unfold State.stwFault State.stwFaulted
    extract_lets s1 k s2 k' s3
    have cores : s3.cores = s1.cores := by
      unfold s3
      split
      · rw [State.cores_tellOwner]; exact s1.cores_logFault _
      · exact s1.cores_logFault _
    have same : s3.core c = s1.core c := by rw [State.core, cores]; rfl
    have core1 : s1.core c = _ := s.core_modCore_same c _
    rw [State.settleFault_occupied (i := i) (by rw [same, core1]; exact held), same, core1]

theorem faultsWith_stwFault {s u : State} (cores : u.cores = s.cores) (c : Fin 192) (q : Nat) : FaultsWith c q s (.next (u.stwFault c q)) := by
  have core (d : Fin 192) : u.core d = s.core d := by rw [State.core, cores]; rfl
  have kept := u.stwFault_undisturbed c q
  have own := (kept c).stw
  rw [State.core_modCore_same, core] at own
  refine ⟨_, rfl, by rw [own], by rw [own], by rw [own], by rw [own], by rw [own], by rw [State.dmem_stwFault, core], fun d ne => ?_⟩
  have other := (kept d).stw
  rw [State.core_modCore_other _ _ ne, core] at other
  rw [other]
  exact ⟨rfl, rfl⟩

theorem cores_counted (e : Ecc) (s : State) : (counted e s).cores = s.cores := by
  unfold counted; split <;> rfl

/- Faults before the instruction is known (R114, R115). -/

/-- A row of the Steward is an instruction of one operation, taken while the Steward runs. -/
def IsStewardRow (r : Fin 192 → Ecc → Instr) : Prop :=
  ∃ (may : StwState → Bool) (op : SOp) (act : Fin 192 → SInstr → State → State),
    may .running = true ∧ ∀ c e s, exec (r c e) s = stewardIn may op c e (act c) s

theorem IsStewardRow.of_step {r : Fin 192 → Ecc → Instr} {op : SOp} {act : Fin 192 → SInstr → State → State}
    (h : ∀ c e s, exec (r c e) s = stewardStep op c e (act c) s) : IsStewardRow r := ⟨_, op, act, rfl, h⟩

theorem stewardCmds_rows : ∀ r ∈ stewardCmds, IsStewardRow r := by
  simp only [stewardCmds, List.forall_mem_cons]
  refine ⟨?_, ?_, ?_, ?_, ?_, ?_, ?_, ?_, ?_, ?_, ?_, ?_, ?_, ?_, ?_, ?_, ?_, ?_, ?_, ?_, ?_, ?_, ?_, ?_, ?_, ?_, ?_, ?_, ?_, ?_, ?_, ?_, ?_, ?_, ?_,
    ?_, ?_, ?_, ?_, ?_, ?_, ?_, ?_, ?_, ?_, ?_, ?_, ?_, ?_, ?_, ?_, ?_, ?_, ?_, ?_, ?_, ?_, ?_, ?_, ?_, ?_, ?_, ?_, ?_, ?_, ?_, ?_, ?_, ?_, ?_,
    ?_, ?_, ?_, ?_, ?_, ?_, ?_, ?wait, ?_, ?_, ?_, fun _ h => absurd h List.not_mem_nil⟩
  case wait => exact ⟨_, _, _, rfl, fun c e s => by delta exec; dsimp only; exact rfl⟩
  all_goals exact .of_step fun c e s => by delta exec; dsimp only; exact rfl

section
variable {c : Fin 192} {e : Ecc} {s : State} {r : Fin 192 → Ecc → Instr}

theorem IsStewardRow.uncorrectable (h : IsStewardRow r) (running : (s.core c).stw.state = .running) (free : s.stwHeld c = false) :
    FaultsWith c 4 s (exec (r c .uncorrectable) s) := by
  obtain ⟨may, op, act, runs, row⟩ := h
  have faults : exec (r c .uncorrectable) s = .next ((s.bumpField 0x90030 31 16 1).stwFault c causeMemory) := by
    rw [row]; simp [stewardIn, running, runs, free]
  rw [faults]
  exact faultsWith_stwFault (s := s) (u := s.bumpField 0x90030 31 16 1) rfl c 4

theorem IsStewardRow.illegal (h : IsStewardRow r) (running : (s.core c).stw.state = .running) (free : s.stwHeld c = false)
    (read : e ≠ .uncorrectable) (spells : decodeSteward ((s.core c).fetch (s.core c).stw.pc.toNat).toNat = none) :
    FaultsWith c 1 s (exec (r c e) s) := by
  obtain ⟨may, op, act, runs, row⟩ := h
  have faults : exec (r c e) s = .next ((counted e s).stwFault c causeIllegal) := by
    rw [row]; cases e <;> simp_all [stewardIn, counted]
  rw [faults]
  exact faultsWith_stwFault (cores_counted e s) c 1

end

/- Faults of an access (R120, Table 5.10). -/

theorem accessFault_range {a n size : Nat} (out : size < a + n) : accessFault a n size = some causeRange := if_pos out

theorem accessFault_align {a n size : Nat} (range : a + n ≤ size) (off : a % n ≠ 0) : accessFault a n size = some causeAlign := by
  rw [accessFault, if_neg (by omega), if_pos off]

section
variable {c : Fin 192} {e : Ecc} {i : SInstr} {s : State} {op : SOp}

/-- An access checks its address first, whatever it does then. -/
theorem access_faults (h : Fetches c e i s) (o : i.op = op) {act : SInstr → State → State} {n size : Nat}
    (ha : ∀ q, accessFault (effAddr (s.core c) i) n size = some q → act i (counted e s) = (counted e s).stwFault c q) :
    (size < effAddr (s.core c) i + n → FaultsWith c 2 s (stewardStep op c e act s)) ∧
      (effAddr (s.core c) i + n ≤ size → effAddr (s.core c) i % n ≠ 0 → FaultsWith c 3 s (stewardStep op c e act s)) := by
  rw [stewardStep_act h o]
  refine ⟨fun out => ?_, fun range off => ?_⟩
  · rw [ha _ (accessFault_range out)]; exact faultsWith_stwFault (cores_counted e s) c 2
  · rw [ha _ (accessFault_align range off)]; exact faultsWith_stwFault (cores_counted e s) c 3

theorem stwLoad_fault {n : Nat} {f : Nat → Word} {q : Nat} (h : accessFault (effAddr (s.core c) i) n 0x20000 = some q) :
    stwLoad c n f i (counted e s) = (counted e s).stwFault c q := by rw [stwLoad, counted_core, h]

theorem stwStore_fault {n : Nat} {q : Nat} (h : accessFault (effAddr (s.core c) i) n 0x20000 = some q) :
    stwStore c n i (counted e s) = (counted e s).stwFault c q := by rw [stwStore, counted_core, h]

theorem lws_faults (h : Fetches c e i s) (o : i.op = .lws) :
    (0x800000 < effAddr (s.core c) i + 4 → FaultsWith c 2 s (exec (.lws c e) s)) ∧
      (effAddr (s.core c) i + 4 ≤ 0x800000 → effAddr (s.core c) i % 4 ≠ 0 → FaultsWith c 3 s (exec (.lws c e) s)) := by
  show (_ → FaultsWith c 2 s (execLws c e s)) ∧ (_ → _ → FaultsWith c 3 s (execLws c e s))
  unfold execLws
  exact access_faults h o fun q fault => by simp only [counted_core, spBytes, fault]

theorem sws_faults (h : Fetches c e i s) (o : i.op = .sws) :
    (0x800000 < effAddr (s.core c) i + 4 → FaultsWith c 2 s (exec (.sws c e) s)) ∧
      (effAddr (s.core c) i + 4 ≤ 0x800000 → effAddr (s.core c) i % 4 ≠ 0 → FaultsWith c 3 s (exec (.sws c e) s)) := by
  show (_ → FaultsWith c 2 s (execSws c e s)) ∧ (_ → _ → FaultsWith c 3 s (execSws c e s))
  unfold execSws
  exact access_faults h o fun q fault => by simp only [counted_core, spBytes, fault]

end

/-- Settles O8: every row faults alike before its instruction is known, and an access by its address. -/
theorem stewardFaults : Obligations.StewardFaults := by
  intro c e s running free k faults
  refine ⟨?_, fun read spells r mem => (stewardCmds_rows r mem).illegal running free read spells, fun i h => ?_⟩
  · rintro rfl r mem
    exact (stewardCmds_rows r mem).uncorrectable running free
  · intro a access
    have ha : a = effAddr k i := effAddr_eq k i
    unfold access
    rw [ha]
    exact ⟨fun o => access_faults h o fun _ => stwLoad_fault, fun o => access_faults h o fun _ => stwLoad_fault,
      fun o => access_faults h o fun _ => stwLoad_fault, fun o => access_faults h o fun _ => stwLoad_fault,
      fun o => access_faults h o fun _ => stwLoad_fault, fun o => access_faults h o fun _ => stwStore_fault,
      fun o => access_faults h o fun _ => stwStore_fault, fun o => access_faults h o fun _ => stwStore_fault,
      fun o => lws_faults h o, fun o => sws_faults h o⟩

end Sys2Proof.Machine
end

section
/-! PROOF. The Steward's frame instructions: FLD, FARM, FSTAT and FRD (O9). -/

namespace Sys2Proof.Machine

open Sys2Proof.Safety

/- FLD (R125): what a load of a frame leaves in its slot and of its Steward. -/

theorem Core.dropTile_stw (k : Core) (i : Fin 8) : (k.dropTile i).stw = k.stw := by
  unfold Core.dropTile; dsimp only; split <;> rfl

theorem Core.carFlush_stw (k : Core) : k.carFlush.stw = k.stw := by unfold Core.carFlush; split <;> rfl

theorem Core.freePlaces_shape (k : Core) : ∃ car, k.freePlaces = { k with car := car } := by
  unfold Core.freePlaces
  split
  · exact ⟨k.car, rfl⟩
  · split <;> exact ⟨_, rfl⟩

/-- A load drops the resident tile and perhaps the port's tiles, and then sets the slot. -/
theorem Core.loadFrame_empty {k : Core} {i : Fin 8} (h : (k.slot i).inst = none) (img : List Byte) (st : Byte) :
    ∃ q : Core, q.stw = k.stw ∧ k.loadFrame i img st = (if st = stOk then q.modSlot i fun v => { v with image := some img }
      else q.modSlot i fun v => { v with image := none, lastStatus := st }).freePlaces := by
  unfold Core.loadFrame
  rw [h, Option.isSome_none, if_neg Bool.false_ne_true]
  extract_lets bound k1 k2 k3
  refine ⟨k2, ?_, rfl⟩
  unfold k2
  split
  · rw [Core.carFlush_stw]; exact k.dropTile_stw i
  · exact k.dropTile_stw i

theorem Core.loadFrame_pc (k : Core) (i : Fin 8) (img : List Byte) (st : Byte) : (k.loadFrame i img st).stw = k.stw := by
  cases h : (k.slot i).inst with
  | some n => rw [Core.loadFrame, h]; rfl
  | none =>
    obtain ⟨q, same, e⟩ := Core.loadFrame_empty h img st
    obtain ⟨car, freed⟩ := Core.freePlaces_shape (if st = stOk then q.modSlot i fun v => { v with image := some img }
      else q.modSlot i fun v => { v with image := none, lastStatus := st })
    rw [e, freed, ← same]
    split <;> rfl

theorem Core.slot_freePlaces (k : Core) (i : Fin 8) : k.freePlaces.slot i = k.slot i := by
  obtain ⟨car, e⟩ := k.freePlaces_shape
  rw [e]; rfl

/-- A load that passes its checks leaves the image in its slot. -/
theorem Core.loadFrame_ok {k : Core} {i : Fin 8} (h : (k.slot i).inst = none) (img : List Byte) : ((k.loadFrame i img stOk).slot i).image = some img := by
  obtain ⟨q, -, e⟩ := Core.loadFrame_empty h img stOk
  rw [e, if_pos rfl, Core.slot_freePlaces, Core.slot_modSlot]

/-- A load that fails leaves its slot empty and its status there. -/
theorem Core.loadFrame_fails {k : Core} {i : Fin 8} (h : (k.slot i).inst = none) (img : List Byte) {st : Byte} (fails : st ≠ stOk) :
    ((k.loadFrame i img st).slot i).image = none ∧ ((k.loadFrame i img st).slot i).lastStatus = st := by
  obtain ⟨q, -, e⟩ := Core.loadFrame_empty h img st
  rw [e, if_neg fails, Core.slot_freePlaces, Core.slot_modSlot]
  exact ⟨rfl, rfl⟩

/-- An image of another version ends with VERSION (Table 5.7). -/
theorem frameCheck_version {img : List Byte} (h : img.getD 0 0 ≠ 1) (own filler : Option Nat) (fused : Nat → Bool) :
    frameCheck img own filler fused = stVersion := by
  have version : (frameOf img).version ≠ 1 := by
    show leNat ((img.drop 0).take 1) ≠ 1
    cases img with
    | nil => simp [leNat]
    | cons b img =>
      have byte : b ≠ 1 := h
      simpa [leNat, ← BitVec.toNat_inj] using byte
  exact if_pos version

/-- An image that passes names the core's owning context or the filler that it names. -/
theorem frameCheck_context {img : List Byte} {own filler : Option Nat} {fused : Nat → Bool} (h : frameCheck img own filler fused = stOk) :
    own = some (frameOf img).context ∨ filler = some (frameOf img).context := by
  by_contra other
  have strange : own ≠ some (frameOf img).context ∧ filler ≠ some (frameOf img).context := not_or.1 other
  unfold frameCheck at h
  dsimp only at h
  rw [if_pos strange] at h
  split at h
  · cases h
  · split at h <;> cases h

section
variable {s : State} {c : Fin 192} {n : Fin 8} {img : List Byte}

theorem State.loadStatus_version (h : img.getD 0 0 ≠ 1) : s.loadStatus c n img = stVersion := by
  unfold State.loadStatus
  dsimp only
  rw [frameCheck_version h, if_pos (by decide)]

/-- A load passes when the image does and the slot holds no instance. -/
theorem State.loadStatus_ok (h : s.loadStatus c n img = stOk) :
    frameCheck img ((s.core c).ctx.map (·.val)) (s.fillerOf c) s.fused = stOk ∧ ((s.core c).slot n).inst = none := by
  unfold State.loadStatus at h
  dsimp only at h
  by_cases check : frameCheck img ((s.core c).ctx.map (·.val)) (s.fillerOf c) s.fused = stOk
  · rw [if_neg (not_not.2 check)] at h
    refine ⟨check, ?_⟩
    by_contra held
    rw [if_pos (Option.isSome_iff_ne_none.2 held)] at h
    cases h
  · rw [if_pos check] at h
    exact absurd h check

theorem State.loadStatus_counted (e : Ecc) : (counted e s).loadStatus c n img = s.loadStatus c n img := by
  have fused : (counted e s).fused = s.fused := by
    funext m; unfold State.fused; split <;> simp
  have filler : (counted e s).fillerOf c = s.fillerOf c := by
    unfold State.fillerOf; rw [counted_core]; split <;> simp
  simp only [State.loadStatus, counted_core, fused, filler]

end

/- FARM (R126). -/

/-- A FARM's status is OK exactly under R126's conditions. -/
theorem Core.armStatus_ok_iff (k : Core) (a b : Nat) :
    k.armStatus a b = stOk ↔ ∃ f, k.frame (slotOf a) = some f ∧ (k.slot (slotOf a)).inst = none ∧ bitsOf a 15 3 = 0 ∧ bitsOf b 31 16 ≠ 0 ∧
      bitsOf b 15 0 + bitsOf b 31 16 ≤ 7936 ∧ ¬ (f.cls = 0 ∧ k.fwdDone.contains (BitVec.ofNat 16 (a / 2 ^ 16)) = true) := by
  unfold Core.armStatus
  dsimp only
  generalize bitsOf a 15 3 = reserved
  generalize bitsOf b 15 0 = start
  generalize bitsOf b 31 16 = len
  split
  next f frame inst =>
    rw [frame, inst]
    simp only [Option.some.injEq, exists_eq_left', true_and]
    split
    next bad =>
      refine iff_of_false (by decide) fun ⟨zero, long, fits, _⟩ => ?_
      omega
    next good =>
      have fits : reserved = 0 ∧ len ≠ 0 ∧ start + len ≤ 7936 := by omega
      split
      next declared => exact iff_of_false (by decide) fun ⟨_, _, _, open_⟩ => open_ declared
      next open_ => exact iff_of_true rfl ⟨fits.1, fits.2.1, fits.2.2, open_⟩
  next other =>
    refine iff_of_false (by split <;> decide) fun ⟨f, frame, inst, _⟩ => other f frame inst

theorem Core.armStatus_fails {k : Core} {a b : Nat} (h : k.armStatus a b ≠ stOk) : k.armStatus a b = stReserved ∨ k.armStatus a b = stBankActive := by
  revert h
  unfold Core.armStatus
  dsimp only
  split
  · split
    · exact fun _ => .inl rfl
    · split
      · exact fun _ => .inl rfl
      · exact fun h => absurd rfl h
  · split
    · exact fun _ => .inl rfl
    · exact fun _ => .inr rfl

/-- What a request is but for its urgency (R188). -/
def PJob.calm (j : PJob) : PJob := { j with urgent := false }

theorem Core.makeLate_calm (k : Core) (p : PJob → Bool) : (k.makeLate p).porterQ.map PJob.calm = k.porterQ.map PJob.calm := by
  show (k.porterQ.map _).map PJob.calm = _
  rw [List.map_map]
  refine List.map_congr_left fun j _ => ?_
  simp only [Function.comp]
  split <;> rfl

/-- Urgency is all that loads marked late differ in. -/
theorem State.markLate_calm (s : State) (c : Fin 192) : ((s.markLate c).core c).porterQ.map PJob.calm = (s.core c).porterQ.map PJob.calm := by
  unfold State.markLate
  generalize (s.core c).armedFor true = l
  induction l generalizing s with
  | nil => rfl
  | cons d l ih =>
    rw [List.foldl_cons, ih]
    dsimp only
    split
    · rw [State.core_modCore_same, Core.makeLate_calm]
    · rfl

section
variable {c : Fin 192} {e : Ecc} {i : SInstr} {s : State} {a b : Nat} {f : Frame}

theorem State.armBlocked_of_ctxs {s t : State} (h : t.ctxs = s.ctxs) (x : Nat) (m : BitVec 16) : t.armBlocked x m = s.armBlocked x m := by
  have same (y : Fin 64) : t.ctx y = s.ctx y := by rw [State.ctx, h]; rfl
  unfold State.armBlocked
  split
  · rfl
  · simp only [same]

/-- The core with an instance armed (R126). -/
def Core.armed (k : Core) (a b : Nat) : Core :=
  k.modSlot (slotOf a) fun v =>
    { v with inst := some (newInst (BitVec.ofNat 16 (a / 2 ^ 16)) (bitsOf b 15 0) (bitsOf b 31 16)), gen := v.gen + 1 }

theorem State.arm_eq (frame : (s.core c).frame (slotOf a) = some f) (open_ : s.armBlocked f.context (BitVec.ofNat 16 (a / 2 ^ 16)) = none) :
    s.arm c a b = s.setCore c ((s.core c).armed a b) := by
  unfold State.arm
  dsimp only
  rw [frame]
  dsimp only
  have blocked (g : Core → Core) : (s.modCore c g).armBlocked f.context (BitVec.ofNat 16 (a / 2 ^ 16)) = none :=
    (State.armBlocked_of_ctxs rfl _ _).trans open_
  rw [blocked]
  rfl

theorem ctxs_counted : (counted e s).ctxs = s.ctxs := by unfold counted; split <;> rfl

/-- A FARM that passes arms its instance; loads may become urgent. -/
theorem farm_arms (h : FetchesOn c e i s) (o : i.op = .farm) (frame : (s.core c).frame (slotOf ((s.core c).g i.a).toNat) = some f)
    (open_ : s.armBlocked f.context (BitVec.ofNat 16 (((s.core c).g i.a).toNat / 2 ^ 16)) = none)
    (ok : (s.core c).armStatus ((s.core c).g i.a).toNat ((s.core c).g i.b).toNat = stOk) :
    ∃ regs porterQ, exec (.farm c e) s = (ran c e s fun _ => { ((s.core c).armed ((s.core c).g i.a).toNat ((s.core c).g i.b).toNat).setG i.d 0 with
      regs := regs, porterQ := porterQ }) ∧ porterQ.map PJob.calm = (s.core c).porterQ.map PJob.calm := by
  generalize ha : ((s.core c).g i.a).toNat = a at *
  generalize hb : ((s.core c).g i.b).toNat = b at *
  have arms : (counted e s).arm c a b = (counted e s).setCore c ((s.core c).armed a b) := by
    rw [State.arm_eq (f := f) (by rw [counted_core]; exact frame) (by rw [State.armBlocked_of_ctxs ctxs_counted]; exact open_), counted_core]
  obtain ⟨regs, porterQ, late⟩ := ((counted e s).setCore c ((s.core c).armed a b)).markLate_shape c
  have calm := ((counted e s).setCore c ((s.core c).armed a b)).markLate_calm c
  rw [late, State.core_setCore, State.core_setCore] at calm
  rw [State.core_setCore, State.setCore_setCore] at late
  refine ⟨regs, porterQ, ?_, calm⟩
  show execFarm c e s = _
  unfold execFarm
  rw [stewardStep_act h.1 o]
  simp only [counted_core, ha, hb, ok, if_true]
  rw [arms, late, State.stwWrite_eq _ _ _ _ (by rw [State.core_setCore]; exact h.2), State.core_setCore, State.setCore_setCore, ran]
  congr 3
  unfold Core.setG
  split <;> rfl

/-- A FARM that fails tells its status. -/
theorem farm_fails (h : FetchesOn c e i s) (o : i.op = .farm)
    (fails : (s.core c).armStatus ((s.core c).g i.a).toNat ((s.core c).g i.b).toNat ≠ stOk) :
    exec (.farm c e) s = ran c e s fun k => (k.modSlot (slotOf ((s.core c).g i.a).toNat) fun v =>
      { v with lastStatus := (s.core c).armStatus ((s.core c).g i.a).toNat ((s.core c).g i.b).toNat }).setG i.d
        (((s.core c).armStatus ((s.core c).g i.a).toNat ((s.core c).g i.b).toNat).setWidth 32) := by
  show execFarm c e s = _
  unfold execFarm
  refine stewardStep_done h o (Core.setG_pc ..) ?_
  simp only [counted_core, fails, if_false]
  simp [State.stwWrite, State.stwDone, State.modCore, State.setCore_setCore]

/- FLD, FSTAT and FRD. -/

theorem fld_ran (h : FetchesOn c e i s) (o : i.op = .fld) (aligned : ((s.core c).g i.a).toNat % 64 = 0)
    (range : ((s.core c).g i.a).toNat + 1024 ≤ 0x20000) {n : Fin 8} (slot : slotOf i.imm.toNat = n) {img : List Byte}
    (image : (s.core c).dmem.readRun ((s.core c).g i.a).toNat 1024 = img) :
    exec (.fld c e) s = ran c e s fun k => (k.loadFrame n img (s.loadStatus c n img)).setG i.d ((s.loadStatus c n img).setWidth 32) := by
  show execFld c e s = _
  unfold execFld
  refine stewardStep_done h o (by rw [Core.setG_pc, Core.loadFrame_pc]) ?_
  simp only [counted_core]
  rw [if_neg (by omega), if_neg (not_not.2 aligned), slot, image, State.loadStatus_counted]

theorem fstat_ran (h : FetchesOn c e i s) (o : i.op = .fstat) :
    exec (.fstat c e) s = ran c e s fun k => k.setG i.d (BitVec.ofNat 32 ((s.core c).frameStatus (slotOf ((s.core c).g i.a).toNat))) := by
  show execFstat c e s = _
  unfold execFstat
  refine stewardStep_done h o (Core.setG_pc ..) ?_
  simp only [counted_core, State.stwWrite]

/-- An offset within a frame is IMM16 itself. -/
theorem simmOf_toNat {i : SInstr} (small : i.imm.toNat < 2 ^ 15) : (simmOf i).toNat = i.imm.toNat := by
  rw [simmOf, BitVec.toNat_signExtend, BitVec.msb_eq_decide, BitVec.toNat_setWidth, BitVec.toNat_ofNat]
  have same : i.imm.toNat % 2 ^ 16 = i.imm.toNat := Nat.mod_eq_of_lt (by omega)
  rw [same, decide_eq_false (by omega), Nat.mod_eq_of_lt (by omega)]
  rfl

theorem frd_ran (h : FetchesOn c e i s) (o : i.op = .frd) {image : List Byte}
    (loaded : ((s.core c).slot (slotOf ((s.core c).g i.a).toNat)).image = some image) (aligned : i.imm.toNat % 4 = 0)
    (range : i.imm.toNat + 4 ≤ 1024) :
    exec (.frd c e) s = ran c e s fun k => k.setG i.d (BitVec.ofNat 32 (leNat ((image.drop i.imm.toNat).take 4))) := by
  show execFrd c e s = _
  unfold execFrd
  refine stewardStep_done h o (Core.setG_pc ..) ?_
  simp only [counted_core, simmOf_toNat (i := i) (by omega), accessFault_none range aligned, loaded, Option.getD_some, State.stwWrite, imgLE]

end

/-- Settles O9: a load's slot tells whether its checks passed, and a FARM that passes arms its instance. -/
theorem stewardFrames : Obligations.StewardFrames := by
  intro c e i s h k a b n m img st
  refine ⟨fun o aligned range => ⟨fld_ran h o aligned range rfl rfl, fun empty ok => ?_, fun empty fails => Core.loadFrame_fails empty img fails,
      fun other => State.loadStatus_version other, fun ok => (State.loadStatus_ok ok).2, fun ok => frameCheck_context (State.loadStatus_ok ok).1⟩,
    fun o => ⟨Core.armStatus_ok_iff k a b, fun fails => Core.armStatus_fails fails, farm_fails h o, fun f frame open_ ok => ?_⟩,
    fun o => fstat_ran h o, fun o image loaded aligned range => frd_ran h o loaded aligned range⟩
  · rw [ok]
    exact Core.loadFrame_ok empty img
  · obtain ⟨regs, porterQ, farms, calm⟩ := farm_arms h o frame open_ ok
    exact ⟨_, farms, rfl, calm⟩

end Sys2Proof.Machine
end

section
/-! PROOF. How instances end (O22). -/

namespace Sys2Proof.Machine

open Sys2Proof.Safety

/- The end of an instance, on its own core (R131, R132, R186). -/

/-- The sets after the instance `n`: cleared only when it ran (R132). -/
def Core.setsAfter (k : Core) (i : Fin 8) (n : Inst) (f : Frame) : Core := if n.running then k.clearSets i f else k

/-- The core once the instance `n` of slot `i`, of frame `f`, has ended with status `st`. -/
def Core.instGone (k : Core) (i : Fin 8) (n : Inst) (f : Frame) (st : Byte) : Core :=
  let k3 := ((k.setsAfter i n f).returnSlots n).modSlot i fun v => { v with inst := none, lastStatus := st, lastMb := n.mb }
  (if n.running ∧ f.accUse ≠ 0 then { k3 with draw := 0 } else k3).raiseEvent i.val

section
variable (k : Core) (i : Fin 8) (n : Inst) (f : Frame) (st : Byte)

theorem Core.clearSets_none (h : f.accUse = 0) : k.clearSets i f = k := by
  rw [Core.clearSets, if_neg (by omega), if_neg (by omega)]

theorem Core.clearSets_transient (h : f.accUse = 1) : k.clearSets i f = { k with live := .cleared, shadow := .cleared, liveOwner := none } :=
  if_pos h

theorem Core.clearSets_resident (h : f.accUse = 2) : k.clearSets i f =
    { k.modSlot i fun v => { v with resident := true } with shadow := .cleared, liveOwner := some i } := by
  rw [Core.clearSets, if_neg (by omega), if_pos h]

/-- The sets and a slot's mark are all that the clearing of the sets changes. -/
theorem Core.clearSets_keeps : (k.clearSets i f).sp = k.sp ∧ (k.clearSets i f).stw = k.stw ∧ ((k.clearSets i f).slot i).image = (k.slot i).image := by
  unfold Core.clearSets
  split
  · exact ⟨rfl, rfl, rfl⟩
  · split
    · exact ⟨rfl, rfl, (congrArg Slot.image (k.slot_modSlot i fun v => { v with resident := true }) :)⟩
    · exact ⟨rfl, rfl, rfl⟩

theorem Core.setsAfter_keeps : (k.setsAfter i n f).sp = k.sp ∧ (k.setsAfter i n f).stw = k.stw ∧
    ((k.setsAfter i n f).slot i).image = (k.slot i).image := by
  unfold Core.setsAfter
  split
  · exact k.clearSets_keeps i f
  · exact ⟨rfl, rfl, rfl⟩

/-- Beyond the sets, the end of an instance changes its slot, what its BQTs took, the draw and the Steward's events. -/
theorem Core.instGone_shape : ∃ dmem ends draw, k.instGone i n f st =
    (({ k.setsAfter i n f with dmem := dmem, ends := ends, draw := draw } : Core).modSlot i fun v =>
      { v with inst := none, lastStatus := st, lastMb := n.mb }).raiseEvent i.val := by
  obtain ⟨dmem, ends, e⟩ := (k.setsAfter i n f).returnSlots_shape n
  unfold Core.instGone
  rw [e]
  dsimp only
  split
  · exact ⟨dmem, ends, 0, rfl⟩
  · exact ⟨dmem, ends, _, rfl⟩

theorem Core.slot_raiseEvent (b : Nat) (j : Fin 8) : (k.raiseEvent b).slot j = k.slot j := rfl

theorem Core.instGone_slot : ((k.instGone i n f st).slot i).inst = none ∧ ((k.instGone i n f st).slot i).lastStatus = st ∧
    ((k.instGone i n f st).slot i).lastMb = n.mb ∧ ((k.instGone i n f st).slot i).image = (k.slot i).image := by
  obtain ⟨dmem, ends, draw, e⟩ := k.instGone_shape i n f st
  have slot : (k.instGone i n f st).slot i = { (k.setsAfter i n f).slot i with inst := none, lastStatus := st, lastMb := n.mb } := by
    rw [e, Core.slot_raiseEvent, Core.slot_modSlot]; rfl
  rw [slot]
  exact ⟨rfl, rfl, rfl, (k.setsAfter_keeps i n f).2.2⟩

/-- The slot's event is raised (R118). -/
theorem Core.raiseEvent_getLsbD (i : Fin 8) : (k.raiseEvent i.val).stw.events.getLsbD i.val = true := by
  show (k.stw.events ||| 1#16 <<< i.val).getLsbD i.val = true
  have lt : i.val < 16 := by omega
  simp [lt]

theorem Core.instGone_event : (k.instGone i n f st).stw.events.getLsbD i.val = true := Core.raiseEvent_getLsbD _ i

theorem Core.instGone_keeps : (k.instGone i n f st).sp = k.sp ∧ (k.instGone i n f st).stw.g = k.stw.g ∧
    (k.instGone i n f st).stw.state = k.stw.state := by
  obtain ⟨dmem, ends, draw, e⟩ := k.instGone_shape i n f st
  obtain ⟨sp, stw, -⟩ := k.setsAfter_keeps i n f
  have g := congrArg Steward.g stw
  have state := congrArg Steward.state stw
  rw [e]
  exact ⟨sp, g, state⟩

/-- The accumulators are as the clearing of the sets leaves them. -/
theorem Core.instGone_sets : (k.instGone i n f st).live = (k.setsAfter i n f).live ∧
    (k.instGone i n f st).shadow = (k.setsAfter i n f).shadow ∧ (k.instGone i n f st).liveOwner = (k.setsAfter i n f).liveOwner := by
  obtain ⟨dmem, ends, draw, e⟩ := k.instGone_shape i n f st
  rw [e]
  exact ⟨rfl, rfl, rfl⟩

end

/- The end of an instance, on the module. -/

section
variable {s : State} {c : Fin 192} {i : Fin 8} {n : Inst} {f : Frame}

/-- An instance that ends first flushes its tokens; its core is then the one that `Core.instGone` gives. -/
theorem State.endCore_cores (inst : ((s.core c).slot i).inst = some n) (frame : (s.core c).frame i = some f) (st : Byte) :
    ∃ u, Undisturbed s u ∧ (∀ d, (u.core d).slots = (s.core d).slots) ∧ ∀ d, (s.endCore c i st).core d =
      if d = c then (u.core c).instGone i n f st else u.core d := by
  unfold State.endCore
  split
  next m g held framed =>
    cases inst.symm.trans held
    cases frame.symm.trans framed
    extract_lets s1 s2
    refine ⟨s1, Undisturbed.flushed, fun d => ?_, fun d => ?_⟩
    · unfold s1
      split
      · exact s.slots_poisonFlush _ _ _ _ _ _
      · rfl
    · have core (t : State) (h : t.cores = s2.cores) : t.core d = if d = c then (s1.core c).instGone i n f st else s1.core d := by
        rw [State.core, h]
        split
        next e => subst e; exact State.core_modCore_same ..
        next e => exact State.core_modCore_other _ _ e
      split
      · split <;> exact core _ rfl
      · exact core _ rfl
  next other => exact absurd frame (other n f inst)

/-- What follows the end of an instance disturbs nothing of it. -/
theorem State.endInst_cores (inst : ((s.core c).slot i).inst = some n) (frame : (s.core c).frame i = some f) (st : Byte) :
    ∃ u, Undisturbed s u ∧ (∀ d, (u.core d).slots = (s.core d).slots) ∧ ∀ d, CoreUndisturbed
      (if d = c then (u.core c).instGone i n f st else u.core d) ((s.endInst c i st).core d) := by
  obtain ⟨u, flushed, slots, cores⟩ := s.endCore_cores inst frame st
  refine ⟨u, flushed, slots, fun d => ?_⟩
  have settled : s.endInst c i st = ((s.endCore c i st).instEnded n f st).settleFault c := by rw [State.endInst, inst, frame]
  rw [settled, ← cores]
  exact ((Undisturbed.instEnded _ n f st).trans (.settleFault _ c)) d

end

/- Ports and waits at the end of an instance change no more (R394, R137). -/

theorem Core.settlePort_shape (k : Core) : ∃ car, k.settlePort = { k with car := car } := by
  unfold Core.settlePort; split <;> exact ⟨_, rfl⟩

theorem Core.carResume_shape (k : Core) : ∃ car, k.carResume = { k with car := car } := by
  have tail (k : Core) : ∃ car, k.resumeTail = { k with car := car } := by
    unfold Core.resumeTail
    dsimp only
    split
    · obtain ⟨car, e⟩ := Core.settlePort_shape { k with car := { k.car with
        tiles := (k.car.tiles.filter fun t => !t.consumed).drop (min k.car.owed (k.car.tiles.filter fun t => !t.consumed).length)
        owed := k.car.owed - min k.car.owed (k.car.tiles.filter fun t => !t.consumed).length } }
      exact ⟨car, e⟩
    · exact ⟨k.car, rfl⟩
  unfold Core.carResume
  split
  · obtain ⟨car, e⟩ := tail { k with car := { k.car with resuming := true } }
    obtain ⟨car', e'⟩ := Core.settlePort_shape ({ k with car := { k.car with resuming := true } } : Core).resumeTail
    rw [e', e]
    exact ⟨car', rfl⟩
  · exact ⟨k.car, rfl⟩

theorem CoreUndisturbed.carResume (k : Core) : CoreUndisturbed k k.carResume := by
  obtain ⟨car, e⟩ := k.carResume_shape
  rw [e]
  exact .of_same rfl

theorem CoreUndisturbed.waited (k : Core) (w : Waits) : CoreUndisturbed k (k.waited w) := .of_same rfl

/- INSTANCE_END. -/

section
variable {s : State} {c : Fin 192} {i : Fin 8} {n : Inst} {f : Frame} {w : Waits}

/-- An instance whose commands have ended, ends. -/
theorem exec_instanceEnd (inst : ((s.core c).slot i).inst = some n) (frame : (s.core c).frame i = some f) (running : n.running = true)
    (done : (s.core c).outstanding i = false) (last : n.failed ≠ none ∨ (n.held = none ∧ n.len ≤ n.next)) :
    ∃ t, exec (.instanceEnd c i w) s = .next t ∧ Undisturbed ((s.modCore c fun k => k.waited w).endInst c i n.status) t := by
  have canEnd : (s.core c).canEnd i = true := by
    rw [Core.canEnd, inst]
    simpa [running, done, Option.isSome_iff_ne_none] using last
  refine ⟨_, show execInstanceEnd c i w s = _ by rw [execInstanceEnd, inst, frame, canEnd]; rfl, ?_⟩
  exact Undisturbed.trans (.ite (.modCore (.carResume _)) (.refl _)) (.markLateAll _)

end

/-- Settles O22: the instance's core is the one that `Core.instGone` gives, and what follows disturbs nothing that is told of it. -/
theorem instanceEnds : Obligations.InstanceEnds := by
  intro c i w s n f k inst frame running done last
  obtain ⟨t, runs, after⟩ := exec_instanceEnd (w := w) inst frame running done last
  generalize hw : (s.modCore c fun k => k.waited w) = s0 at after
  have waited : Undisturbed s s0 := hw ▸ .modCore (.waited _ w)
  have slot0 : (s0.core c).slot i = k.slot i := by rw [← hw, State.core_modCore_same]; rfl
  obtain ⟨u, flushed, slots, ends⟩ := s0.endInst_cores (i := i) (by rw [slot0]; exact inst) (by rw [Core.frame, slot0]; exact frame) n.status
  have before : Undisturbed s u := waited.trans flushed
  have own : CoreUndisturbed ((u.core c).instGone i n f n.status) (t.core c) := by simpa using (ends c).trans (after c)
  have other (d : Fin 192) (ne : d ≠ c) : CoreUndisturbed (u.core d) (t.core d) := by simpa [ne] using (ends d).trans (after d)
  obtain ⟨none, status, mb, image⟩ := (u.core c).instGone_slot i n f n.status
  obtain ⟨sp, g, -⟩ := (u.core c).instGone_keeps i n f n.status
  obtain ⟨live, shadow, owner⟩ := (u.core c).instGone_sets i n f n.status
  have slot := own.slots i none
  have image0 : ((u.core c).slot i).image = (k.slot i).image := by rw [← slot0, Core.slot, slots]; rfl
  have ran : (u.core c).setsAfter i n f = (u.core c).clearSets i f := if_pos running
  rw [ran] at live shadow owner
  refine ⟨t, runs, by rw [slot, none], by rw [slot, status], by rw [slot, mb], by rw [slot, image, image0],
    own.events _ (Core.instGone_event ..), fun d => ?_, fun use => ?_, fun use => ?_, fun use => ?_⟩
  · by_cases e : d = c
    · subst e
      exact ⟨(own.sp.trans sp).trans (before d).sp, (own.g.trans g).trans (before d).g⟩
    · exact ⟨(other d e).sp.trans (before d).sp, (other d e).g.trans (before d).g⟩
  · rw [Core.clearSets_none _ _ _ use] at live shadow
    exact ⟨(own.live.trans live).trans (before c).live, (own.shadow.trans shadow).trans (before c).shadow⟩
  · rw [Core.clearSets_transient _ _ _ use] at live shadow
    exact ⟨own.live.trans live, own.shadow.trans shadow⟩
  · rw [Core.clearSets_resident _ _ _ use] at live shadow owner
    exact ⟨(own.live.trans live).trans (before c).live, own.shadow.trans shadow, own.liveOwner.trans owner⟩

end Sys2Proof.Machine
end

section
/-! PROOF. The picker's choice, the start of an instance, and cancellation (O12). -/

namespace Sys2Proof.Machine

open Sys2Proof.Safety

/- The picker's order (R137). -/

/-- The rank of a candidate, the first to start lowest. -/
def Core.rank (k : Core) (d : Cand) : Nat :=
  ((3 - d.frame.priority) * 2 ^ 16 + d.inst.mb.toNat) * 16 + (if k.liveOwner = some d.slot then 0 else 1) * 8 + d.slot.val

theorem Core.before_iff (k : Core) (a b : Cand) : k.before a b = true ↔ k.rank a < k.rank b := decide_eq_true_iff

/-- The picker takes a candidate of the lowest rank. -/
theorem Core.best_rank {k : Core} {l : List Cand} {d : Cand} (h : k.best l = some d) : d ∈ l ∧ ∀ e ∈ l, k.rank d ≤ k.rank e := by
  induction l generalizing d with
  | nil => cases h
  | cons a l ih =>
    rw [Core.best] at h
    split at h
    next none =>
      cases h
      have empty : l = [] := by
        cases l with
        | nil => rfl
        | cons b l => rw [Core.best] at none; split at none <;> cases none
      subst empty
      simp
    next e best =>
      obtain ⟨mem, least⟩ := ih best
      cases h
      by_cases first : k.rank a < k.rank e
      · rw [if_pos ((k.before_iff a e).2 first)]
        exact ⟨List.mem_cons_self, List.forall_mem_cons.2 ⟨le_refl _, fun b hb => first.le.trans (least b hb)⟩⟩
      · rw [if_neg fun before => first ((k.before_iff a e).1 before)]
        exact ⟨List.mem_cons_of_mem _ mem, List.forall_mem_cons.2 ⟨not_lt.1 first, least⟩⟩

/-- A rank orders by priority, micro-batch, live resident tile and slot. -/
theorem Core.rank_le {k : Core} {d e : Cand} (hd : d.frame.priority ≤ 3) (he : e.frame.priority ≤ 3) (h : k.rank d ≤ k.rank e) :
    e.frame.priority < d.frame.priority ∨ (e.frame.priority = d.frame.priority ∧ (d.inst.mb < e.inst.mb ∨ (d.inst.mb = e.inst.mb ∧
      ((k.liveOwner = some d.slot ∧ k.liveOwner ≠ some e.slot) ∨
        ((k.liveOwner = some d.slot ↔ k.liveOwner = some e.slot) ∧ d.slot ≤ e.slot))))) := by
  have md := d.inst.mb.isLt
  have me := e.inst.mb.isLt
  have sd := d.slot.isLt
  have se := e.slot.isLt
  unfold Core.rank at h
  have live (a : Cand) : (if k.liveOwner = some a.slot then 0 else 1) ≤ 1 := by split <;> decide
  have liveD := live d
  have liveE := live e
  generalize hD : (if k.liveOwner = some d.slot then 0 else 1) = x at h liveD
  generalize hE : (if k.liveOwner = some e.slot then 0 else 1) = y at h liveE
  have order : e.frame.priority < d.frame.priority ∨ (e.frame.priority = d.frame.priority ∧ (d.inst.mb.toNat < e.inst.mb.toNat ∨
      (d.inst.mb.toNat = e.inst.mb.toNat ∧ (x < y ∨ (x = y ∧ d.slot.val ≤ e.slot.val))))) := by omega
  subst hD hE
  refine order.imp_right (And.imp_right (Or.imp_right (And.imp BitVec.eq_of_toNat_eq (Or.imp (fun lt => ?_) (And.imp_left fun eq => ?_)))))
  · by_cases owns : k.liveOwner = some d.slot
    · refine ⟨owns, fun same => ?_⟩
      rw [if_pos owns, if_pos same] at lt
      exact lt_irrefl _ lt
    · rw [if_neg owns] at lt
      exact absurd (lt.trans_le (live e)) (lt_irrefl _)
  · by_cases ownsD : k.liveOwner = some d.slot <;> by_cases ownsE : k.liveOwner = some e.slot
    · exact iff_of_true ownsD ownsE
    · rw [if_pos ownsD, if_neg ownsE] at eq; cases eq
    · rw [if_neg ownsD, if_pos ownsE] at eq; cases eq
    · exact iff_of_false ownsD ownsE

/- Candidates are the instances armed in their slots (R130, R137). -/

theorem Core.mem_armedFor {k : Core} {array : Bool} {d : Cand} (h : d ∈ k.armedFor array) : (k.slot d.slot).inst = some d.inst := by
  obtain ⟨i, -, h⟩ := List.mem_filterMap.1 h
  split at h
  next n f inst frame =>
    split at h
    · cases h; exact inst
    · cases h
  · cases h

theorem Core.mem_preferOwner {k : Core} {array : Bool} {l : List Cand} {d : Cand} (h : d ∈ k.preferOwner array l) : d ∈ l := by
  unfold Core.preferOwner at h
  dsimp only at h
  split at h
  · exact (List.mem_filter.1 h).1
  · split at h
    · cases h
    · exact h

/- The start of an instance (R131, R138). -/

/-- From `s` to `t` only core `c` changed, and of slot `i` there neither the image nor, but by `g`, the instance. -/
structure StartsIn (c : Fin 192) (i : Fin 8) (g : Inst → Inst) (s t : State) : Prop where
  others : ∀ q, q ≠ c → t.core q = s.core q
  inst : ((t.core c).slot i).inst = ((s.core c).slot i).inst.map g
  image : ((t.core c).slot i).image = ((s.core c).slot i).image

section
variable {c : Fin 192} {i : Fin 8} {s t u : State}

theorem StartsIn.trans {g g' : Inst → Inst} (h : StartsIn c i g s t) (h' : StartsIn c i g' t u) : StartsIn c i (g' ∘ g) s u where
  others q ne := (h'.others q ne).trans (h.others q ne)
  inst := by rw [h'.inst, h.inst, Option.map_map]
  image := h'.image.trans h.image

theorem StartsIn.of_cores (h : t.cores = s.cores) : StartsIn c i id s t := by
  have core (q : Fin 192) : t.core q = s.core q := by rw [State.core, h]; rfl
  exact ⟨fun q _ => core q, by rw [core, Option.map_id_apply], by rw [core]⟩

theorem StartsIn.modCore {g : Inst → Inst} {f : Core → Core} (inst : ((f (s.core c)).slot i).inst = ((s.core c).slot i).inst.map g)
    (image : ((f (s.core c)).slot i).image = ((s.core c).slot i).image) : StartsIn c i g s (s.modCore c f) :=
  ⟨fun _ ne => State.core_modCore_other _ _ ne, by rw [State.core_modCore_same, inst], by rw [State.core_modCore_same, image]⟩

/-- A tile is parked from the slot of another frame. -/
theorem StartsIn.park {j : Fin 8} (ne : j ≠ i) : StartsIn c i id s (s.modCore c fun k => k.park j) := by
  have slot : ((s.core c).park j).slot i = (s.core c).slot i := Core.slot_setSlot_ne _ _ ne
  exact .modCore (by rw [slot, Option.map_id_apply]) (by rw [slot])

/-- A restore marks the slot that its tile is no longer parked. -/
theorem StartsIn.restore : StartsIn c i id s (s.restore c i) := by
  have marked (s : State) (live : AccSet) : StartsIn c i id s (s.modCore c fun k =>
      (({ k with live := live, liveOwner := some i }).modSlot i fun v => { v with parked := none }).parkBeats) := by
    have slot : ((({ s.core c with live := live, liveOwner := some i } : Core).modSlot i fun v => { v with parked := none }).parkBeats).slot i =
        { (s.core c).slot i with parked := none } := Core.slot_setSlot _ _ _
    exact .modCore (by rw [slot, Option.map_id_apply]) (by rw [slot])
  unfold State.restore
  dsimp only
  split
  · refine StartsIn.trans (g := id) (g' := id) ?_ (marked _ _)
    split
    · exact .of_cores rfl
    · exact .of_cores rfl
  · exact .of_cores rfl

theorem Core.bindPort_shape (k : Core) (f : Frame) : ∃ car, k.bindPort f = { k with car := car } := by
  unfold Core.bindPort
  split
  · obtain ⟨car, e⟩ := Core.freePlaces_shape { k with car := { k.car with
      state := .bound, forward := f.forward, id := f.caravanId, position := f.position, prev := f.prev, next := f.next } }
    exact ⟨car, e⟩
  · exact ⟨k.car, rfl⟩

theorem Core.slot_started (k : Core) (f : Frame) (i : Fin 8) (g : Inst → Inst) :
    ((k.bindPort f).modInst i g).slot i = { k.slot i with inst := (k.slot i).inst.map g } := by
  obtain ⟨car, e⟩ := k.bindPort_shape f
  rw [e]
  exact Core.slot_setSlot _ _ _

/-- An instance whose start checks pass runs from now. -/
theorem State.startInst_ok {d : Cand} (ok : s.startStatus c d.slot d.frame = stOk) :
    StartsIn c d.slot (fun n => { n with running := true, startedAt := s.time }) s (s.startInst c d) := by
  unfold State.startInst
  extract_lets st array k s1 s2 s3 s4
  rw [if_neg (not_not.2 ok)]
  have parked : StartsIn c d.slot id s s1 := by
    unfold s1
    split
    next j owner =>
      split
      next other => exact .park other.2
      next => exact .of_cores rfl
    next => exact .of_cores rfl
  have restored : StartsIn c d.slot id s1 s2 := by
    unfold s2
    split
    · exact .restore
    · exact .of_cores rfl
  have runs : StartsIn c d.slot (fun n => { n with running := true, startedAt := s.time }) s2 s3 := by
    have slot := (s2.core c).slot_started d.frame d.slot fun n => { n with running := true, startedAt := s.time }
    have inst := congrArg Slot.inst slot
    have image := congrArg Slot.image slot
    refine .modCore (Eq.trans ?_ inst) (Eq.trans ?_ image)
    all_goals dsimp only; split <;> rfl
  have counted : StartsIn c d.slot id s3 s4 := by
    unfold s4
    split
    · exact .of_cores rfl
    · exact .of_cores rfl
  have started := (parked.trans restored).trans (runs.trans counted)
  split
  · exact started.trans (StartsIn.of_cores (t := s4.modCtx _ _) rfl)
  · exact started

end

/- The pick (R137). -/

section
variable {c : Fin 192} {s : State} {array : Bool} {d : Cand}

/-- Candidates that the energy rule permits: it bears on array instances only (R356). -/
theorem State.permitted_eq (s : State) (c : Fin 192) (array : Bool) (l : List Cand) :
    (if array then l.filter fun d => s.energyPermits c d.frame else l) = l.filter fun d => !array || s.energyPermits c d.frame := by
  cases array
  · simp
  · rfl

/-- A pick that finds no poisoned instance and a free place takes the best of the permitted candidates. -/
theorem State.pick_best (clean : s.endPoisoned c array = none) (free : ((s.markLate c).core c).placeFree array = true)
    (role : ((s.markLate c).core c).role = 0) (best : ((s.markLate c).core c).best (((s.markLate c).core c).preferOwner array
      (((s.markLate c).candidates c array).filter fun d => !array || (s.markLate c).energyPermits c d.frame)) = some d)
    (clear : ((s.markLate c).core c).parkClear d.slot d.frame = true) :
    ∃ t : State, t.cores = (s.markLate c).cores ∧ t.time = (s.markLate c).time ∧ s.pick c array = t.startInst c d := by
  unfold State.pick
  rw [clean]
  dsimp only
  rw [if_neg (by simp [free, role]), State.permitted_eq, best]
  dsimp only
  rw [if_pos clear]
  refine ⟨_, ?_, ?_, rfl⟩ <;> split <;> rfl

theorem State.startStatus_of_cores {s t : State} (h : t.cores = s.cores) (i : Fin 8) (f : Frame) : t.startStatus c i f = s.startStatus c i f := by
  have core (q : Fin 192) : t.core q = s.core q := by rw [State.core, h]; rfl
  have neighbor (n : Nat) : t.neighborOk c n = s.neighborOk c n := by
    unfold State.neighborOk
    congr 1
    split
    · rw [core, core]
    · rfl
  simp only [State.startStatus, core, neighbor]

theorem exec_pick_starts (serving : s.innkPaused = false) (clean : s.endPoisoned c array = none)
    (free : ((s.markLate c).core c).placeFree array = true) (role : ((s.markLate c).core c).role = 0)
    (best : ((s.markLate c).core c).best (((s.markLate c).core c).preferOwner array
      (((s.markLate c).candidates c array).filter fun d => !array || (s.markLate c).energyPermits c d.frame)) = some d)
    (clear : ((s.markLate c).core c).parkClear d.slot d.frame = true) (ok : (s.markLate c).startStatus c d.slot d.frame = stOk) :
    ∃ t, exec (.pick c array) s = .next t ∧ ((t.core c).slot d.slot).inst = some { d.inst with running := true, startedAt := s.time } ∧
      ((t.core c).slot d.slot).image = ((s.core c).slot d.slot).image ∧ ∀ q, q ≠ c → t.core q = s.core q := by
  obtain ⟨u, cores, time, picks⟩ := State.pick_best clean free role best clear
  obtain ⟨regs, porterQ, late⟩ := s.markLate_shape c
  have core (q : Fin 192) : u.core q = (s.markLate c).core q := by rw [State.core, cores]; rfl
  have slot : (u.core c).slot d.slot = (s.core c).slot d.slot := by rw [core, late, State.core_setCore]; rfl
  have now : u.time = s.time := by rw [time, late]; rfl
  obtain ⟨others, inst, image⟩ := State.startInst_ok (s := u) ((State.startStatus_of_cores cores _ _).trans ok)
  have armed : ((s.core c).slot d.slot).inst = some d.inst := by
    have mem := Core.mem_armedFor (List.mem_filter.1 (List.mem_filter.1 (Core.mem_preferOwner (Core.best_rank best).1)).1).1
    rw [late, State.core_setCore] at mem
    exact mem
  refine ⟨u.startInst c d, ?_, by rw [inst, slot, armed, now]; rfl, by rw [image, slot], fun q ne => ?_⟩
  · show execPick c array s = _
    rw [execPick, serving, picks]
    rfl
  · rw [others q ne, core, State.core_markLate_ne s ne]

end

/- Cancellation (R131, R189). -/

/-- From `s` to `t` a core changed in its registers and its Porter's queue only. -/
def LateOnly (s t : State) : Prop := ∀ q, ∃ regs porterQ, t.core q = { s.core q with regs := regs, porterQ := porterQ }

theorem LateOnly.trans {s t u : State} (h : LateOnly s t) (h' : LateOnly t u) : LateOnly s u := fun q => by
  obtain ⟨_, _, e⟩ := h q
  obtain ⟨regs, porterQ, e'⟩ := h' q
  exact ⟨regs, porterQ, by rw [e', e]⟩

theorem State.markLateAll_late (s : State) : LateOnly s s.markLateAll := by
  unfold State.markLateAll
  generalize allCores = l
  induction l generalizing s with
  | nil => exact fun q => ⟨(s.core q).regs, (s.core q).porterQ, rfl⟩
  | cons c l ih =>
    refine LateOnly.trans (fun q => ?_) (ih _)
    by_cases same : c = q
    · obtain ⟨regs, porterQ, e⟩ := s.markLate_shape c
      subst same
      exact ⟨regs, porterQ, by rw [e, State.core_setCore]⟩
    · exact ⟨(s.core q).regs, (s.core q).porterQ, by rw [State.core_markLate_ne s (Ne.symm same)]⟩

/-- What the cancellation of a running instance shows of the core. -/
theorem Core.cancelled_running (k : Core) (i : Fin 8) (n : Inst) (st : Byte) :
    (k.cancelled i n st).slot i = { k.slot i with gen := (k.slot i).gen + 1, inst := some { n with cancel := some (n.cancel.getD st) } } ∧
      (∀ j, j ≠ i → (k.cancelled i n st).slot j = k.slot j) ∧ (k.cancelled i n st).arrayQ = k.arrayQ ∧ (k.cancelled i n st).live = k.live :=
  ⟨Core.slot_setSlot _ _ _, fun _ ne => Core.slot_setSlot_ne _ _ ne.symm, rfl, rfl⟩

section
variable {c : Fin 192} {i : Fin 8} {s : State} {n : Inst} {f : Frame} {st : Byte} {un : List Nat}

theorem exec_instanceCancel (fails : failingStatus st = true) :
    exec (.instanceCancel c i st un) s = .next (s.cancelOne c i st un).markLateAll := if_pos fails

/-- A running instance is marked, and nothing ends. -/
theorem State.cancelOne_running (inst : ((s.core c).slot i).inst = some n) (running : n.running = true) :
    ∃ regs porterQ, s.cancelOne c i st un = s.modCore c fun k => ({ k with regs := regs, porterQ := porterQ } : Core).cancelled i n st := by
  obtain ⟨regs, porterQ, e⟩ := s.cancelInst_eq inst st un
  rw [if_pos running] at e
  refine ⟨regs, porterQ, ?_⟩
  unfold State.cancelOne
  dsimp only
  rw [e, inst]
  split
  next m f held frame =>
    cases held
    rw [if_pos running, State.settleFault_occupied (i := i)]
    rw [State.core_modCore_same, Core.cancelled, Core.slot_modSlot]
    nofun
  · rfl

/-- An armed instance ends at once, and what follows disturbs nothing of it. -/
theorem State.cancelOne_armed (inst : ((s.core c).slot i).inst = some n) (frame : (s.core c).frame i = some f) (armed : n.running = false) :
    ∃ u, Undisturbed s u ∧ (u.core c).setsAfter i { n with cancel := some (n.cancel.getD st) } f = u.core c ∧
      CoreUndisturbed ((u.core c).instGone i { n with cancel := some (n.cancel.getD st) } f (n.cancel.getD st)) ((s.cancelOne c i st un).core c) := by
  obtain ⟨regs, porterQ, e⟩ := s.cancelInst_eq inst st un
  rw [if_neg (by rw [armed]; exact Bool.false_ne_true)] at e
  generalize hm : (s.modCore c fun k => ({ k with regs := regs, porterQ := porterQ } : Core).cancelled i n st) = m at e
  have slot : (m.core c).slot i = { (s.core c).slot i with
      gen := ((s.core c).slot i).gen + 1, inst := some { n with cancel := some (n.cancel.getD st) } } := by
    rw [← hm, State.core_modCore_same, Core.cancelled, Core.slot_modSlot]; rfl
  have marked : Undisturbed s m := by
    have held : (({ s.core c with regs := regs, porterQ := porterQ } : Core).slot i).inst ≠ none := by rintro none; cases inst.symm.trans none
    rw [← hm]
    exact .modCore (CoreUndisturbed.trans (q := { s.core c with regs := regs, porterQ := porterQ }) (.of_same rfl) (.setSlot _ held))
  have framed : (m.core c).frame i = some f := by rw [Core.frame, slot]; exact frame
  obtain ⟨u, flushed, -, cores⟩ := m.endCore_cores (by rw [slot]) framed (n.cancel.getD st)
  refine ⟨u, marked.trans flushed, by rw [Core.setsAfter, armed]; rfl, ?_⟩
  have gone := cores c
  rw [if_pos rfl] at gone
  have ended : s.cancelOne c i st un = ((m.endCore c i (n.cancel.getD st)).instEnded { n with cancel := some (n.cancel.getD st) } f
      (n.cancel.getD st)).settleFault c := by
    unfold State.cancelOne
    dsimp only
    rw [e, inst, frame]
    dsimp only
    rw [armed]
    rfl
  rw [ended, ← gone]
  exact ((Undisturbed.instEnded _ _ f _).trans (.settleFault _ c)) c

end

/-- Settles O12: the pick starts the candidate of the lowest rank; a cancellation marks a running instance and ends an armed one. -/
theorem instancesPicked : Obligations.InstancesPicked := by
  refine ⟨fun k l d low best => ?_, fun c s serving => ⟨fun array d => ?_, fun i st un passes => ?_, fun i st un n fails inst running => ?_,
    fun i st un n f fails inst frame armed _ _ => ?_, fun idle => ?_, fun refused => ?_⟩⟩
  · obtain ⟨mem, least⟩ := Core.best_rank best
    exact ⟨mem, fun e he => Core.rank_le (low d mem) (low e he) (least e he)⟩
  · intro s1 k ok clean free role best clear start
    exact exec_pick_starts serving clean free role best clear start
  · exact if_neg (by rw [passes]; exact Bool.false_ne_true)
  · obtain ⟨regs, porterQ, e⟩ := State.cancelOne_running (st := st) (un := un) inst running
    have late := (s.cancelOne c i st un).markLateAll_late
    obtain ⟨regs', porterQ', own⟩ := late c
    have core (q : Fin 192) := congrArg (State.core · q) e
    rw [core c, State.core_modCore_same] at own
    obtain ⟨slot, slots, arrayQ, live⟩ := ({ s.core c with regs := regs, porterQ := porterQ } : Core).cancelled_running i n st
    refine ⟨_, exec_instanceCancel fails, ?_, fun j ne => ?_, ?_, ?_, fun q ne => ?_⟩
    · rw [own]; exact slot
    · rw [own]; exact slots j ne
    · rw [own]; exact arrayQ
    · rw [own]; exact live
    · obtain ⟨_, _, other⟩ := late q
      rw [core q, State.core_modCore_other _ _ ne] at other
      rw [other]
  · obtain ⟨u, before, sets, ends⟩ := State.cancelOne_armed (st := st) (un := un) inst frame armed
    have own := ends.trans (Undisturbed.markLateAll (s.cancelOne c i st un) c)
    obtain ⟨none, status, mb, -⟩ := (u.core c).instGone_slot i { n with cancel := some (n.cancel.getD st) } f (n.cancel.getD st)
    obtain ⟨live, -, -⟩ := (u.core c).instGone_sets i { n with cancel := some (n.cancel.getD st) } f (n.cancel.getD st)
    rw [sets] at live
    have slot := own.slots i none
    exact ⟨_, exec_instanceCancel fails, by rw [slot, none], by rw [slot, status], by rw [slot, mb], own.events _ (Core.instGone_event ..),
      (own.live.trans live).trans (before c).live⟩
  · exact if_pos (.inl idle)
  · show execGuardUsExpiry c s = execPick c true (s.modCore c fun k => { k with guardPassed := true })
    rw [execGuardUsExpiry, if_neg (by simp [refused, serving])]
    exact (if_neg (by rw [show (s.modCore c fun k => { k with guardPassed := true }).innkPaused = s.innkPaused from rfl, serving]; exact Bool.false_ne_true)).symm

end Sys2Proof.Machine
end

section
/-! PROOF. A command that fails or is skipped as it comes to issue, whatever row names it (O13). -/

namespace Sys2Proof.Machine

open Sys2Proof.Safety

section
variable {c : Fin 192} {i : Fin 8} {stall code : Nat} {n : Inst} {f : Frame} {s : State} {accept : Core → Bool} {ok1 : Frame → TileArgs → Bool}
  {ok2 : Frame → TileCmd → Core → Bool} {body : Frame → Inst → TileCmd → State → Verdict}

/-- Instance `n` of frame `f`, in slot `i`, runs, waits for nothing and has a command left (R127). -/
def Core.Runs (k : Core) (i : Fin 8) (n : Inst) (f : Frame) : Prop :=
  (k.slot i).inst = some n ∧ k.frame i = some f ∧ n.running = true ∧ n.held = none ∧ n.failed = none ∧ n.next < n.len

/-- The core once the next command of slot `i` has failed at issue (R131, R145, R195). -/
def Core.failsNext (i : Fin 8) (n : Inst) (f : Frame) (st : Byte) (k : Core) : Core :=
  (k.opxLost f (k.cmdWords n n.next).1 (k.cmdWords n n.next).2.1).cmdEnded i n.next (k.cmdWords n n.next).1 true st

/-- The core once the next command of slot `i` has been skipped (R134). -/
def Core.skipsNext (i : Fin 8) (k : Core) : Core := (k.advance i).bump 0x2043C 1

theorem Core.opxLost_shape (k : Core) (f : Frame) (w0 w1 : Nat) : ∃ car, k.opxLost f w0 w1 = { k with car := car } := by
  unfold Core.opxLost Core.carHold
  split
  · split
    · exact ⟨_, rfl⟩
    · exact ⟨k.car, rfl⟩
  · exact ⟨k.car, rfl⟩

/-- A failure at issue ends the instance's issue with the status, and no queue and no byte of the scratchpad changes. -/
theorem Core.failsNext_inst {k : Core} (inst : (k.slot i).inst = some n) (failed : n.failed = none) :
    ((k.failsNext i n f stReserved).slot i).inst = some { n with failed := some stReserved } ∧
      (k.failsNext i n f stReserved).arrayQ = k.arrayQ ∧ (k.failsNext i n f stReserved).sp = k.sp := by
  obtain ⟨car, lost⟩ := k.opxLost_shape f (k.cmdWords n n.next).1 (k.cmdWords n n.next).2.1
  obtain ⟨regs, ended⟩ := ({ k with car := car } : Core).cmdEnded_failed i n.next (k.cmdWords n n.next).1 true (st := stReserved)
    (by decide) (by decide)
  rw [Core.failsNext, lost, ended]
  refine ⟨?_, rfl, rfl⟩
  rw [Core.failInst, Core.inst_modInst (k := { k with car := car, regs := regs }) inst, failed]
  rfl

/- What `issueStep` answers of a command that does not act. -/

theorem issueStep_undefined (h : (s.core c).Runs i n f) (undefined : opcodeDefined ((s.core c).cmdWords n n.next).1 = false) :
    issueStep c i stall code accept ok1 ok2 body s = .next (s.setCore c ((s.core c).failsNext i n f stReserved)) := by
  obtain ⟨inst, frame, running, held, failed, more⟩ := h
  simp [issueStep, inst, frame, running, held, failed, not_le.2 more, undefined]
  rfl

theorem issueStep_otherRow (h : (s.core c).Runs i n f) (defined : opcodeDefined ((s.core c).cmdWords n n.next).1 = true)
    (other : rowCode ((s.core c).cmdWords n n.next).1 ((s.core c).cmdWords n n.next).2.1 ≠ code) :
    issueStep c i stall code accept ok1 ok2 body s = .next s := by
  obtain ⟨inst, frame, running, held, failed, more⟩ := h
  simp [issueStep, inst, frame, running, held, failed, not_le.2 more, defined, other]

section
variable (defined : opcodeDefined ((s.core c).cmdWords n n.next).1 = true)
  (row : rowCode ((s.core c).cmdWords n n.next).1 ((s.core c).cmdWords n n.next).2.1 = code) (accepts : accept (s.core c) = true)
include defined row accepts

theorem issueStep_undecodable (h : (s.core c).Runs i n f) (none : decodeTile ((s.core c).cmdWords n n.next).1
      ((s.core c).cmdWords n n.next).2.1 ((s.core c).cmdWords n n.next).2.2.1 ((s.core c).cmdWords n n.next).2.2.2 = none) :
    issueStep c i stall code accept ok1 ok2 body s = .next (s.setCore c ((s.core c).failsNext i n f stReserved)) := by
  obtain ⟨inst, frame, running, held, failed, more⟩ := h
  simp [issueStep, inst, frame, running, held, failed, not_le.2 more, defined, row, accepts, none]
  rfl

variable {cmd : TileCmd} (decodes : decodeTile ((s.core c).cmdWords n n.next).1 ((s.core c).cmdWords n n.next).2.1
  ((s.core c).cmdWords n n.next).2.2.1 ((s.core c).cmdWords n n.next).2.2.2 = some cmd)
include decodes

theorem issueStep_refused (h : (s.core c).Runs i n f) (bad : ok1 f cmd.args = false ∨ ok2 f cmd (s.core c) = false) :
    issueStep c i stall code accept ok1 ok2 body s = .next (s.setCore c ((s.core c).failsNext i n f stReserved)) := by
  obtain ⟨inst, frame, running, held, failed, more⟩ := h
  simp [issueStep, inst, frame, running, held, failed, not_le.2 more, defined, row, accepts, decodes, bad]
  rfl

theorem issueStep_skipped (h : (s.core c).Runs i n f) (h1 : ok1 f cmd.args = true) (h2 : ok2 f cmd (s.core c) = true)
    (predicate : (s.core c).predTrue i cmd = false) :
    issueStep c i stall code accept ok1 ok2 body s = .next (s.setCore c ((s.core c).skipsNext i)) := by
  obtain ⟨inst, frame, running, held, failed, more⟩ := h
  simp [issueStep, inst, frame, running, held, failed, not_le.2 more, defined, row, accepts, decodes, h1, h2, predicate]
  rfl

end

/- The rows: `issueStep` of each, but for the granules that LDT meets. -/

/-- Row `r` brings a command to issue as `issueStep` says with these checks, whatever granules it meets. -/
def IssueRow (c : Fin 192) (i : Fin 8) (stall : Nat) (r : Instr) (code : Nat) (accept : Core → Bool) (ok1 : Frame → TileArgs → Bool)
    (ok2 : Frame → TileCmd → Core → Bool) : Prop :=
  ∃ body, (∀ s, exec r s = issueStep c i stall code accept ok1 ok2 body s) ∨
    ∃ errs, ∀ s, exec r s = meetRow errs (issueStep c i stall code accept ok1 ok2 body) s

theorem IssueRow.plain {r : Instr} (row : State → Result) {body : Frame → Inst → TileCmd → State → Verdict} (h : ∀ s, exec r s = row s)
    (steps : ∀ s, row s = issueStep c i stall code accept ok1 ok2 body s) : IssueRow c i stall r code accept ok1 ok2 :=
  ⟨body, .inl fun s => (h s).trans (steps s)⟩

theorem IssueRow.meets {r : Instr} (errs : List GranErr) (row : State → Result) {body : Frame → Inst → TileCmd → State → Verdict}
    (h : ∀ s, exec r s = row s) (steps : ∀ s, row s = meetRow errs (issueStep c i stall code accept ok1 ok2 body) s) :
    IssueRow c i stall r code accept ok1 ok2 := ⟨body, .inr ⟨errs, fun s => (h s).trans (steps s)⟩⟩

/-- What `issueStep` does to the core alone, on any granules met, the row does. -/
theorem IssueRow.answers {r : Instr} (h : IssueRow c i stall r code accept ok1 ok2) {k : Core}
    (steps : ∀ (body : Frame → Inst → TileCmd → State → Verdict) (m : Meet),
      issueStep c i stall code accept ok1 ok2 body { s with meet := m } = .next (({ s with meet := m } : State).setCore c k)) :
    exec r s = .next (s.setCore c k) := by
  obtain ⟨body, plain | ⟨errs, met⟩⟩ := h
  · exact (plain s).trans (steps body s.meet)
  · rw [met, meetRow, State.meeting, steps body]
    rfl

end

/-- Settles O13: whatever row names the next command, its words, checks and predicate decide what comes of it. -/
theorem commandsComeToIssue : Obligations.CommandsComeToIssue := by
  intro c i stall tie errs s n f k w code rows fails inst frame running held failed more
  have runs : k.Runs i n f := ⟨inst, frame, running, held, failed, more⟩
  have isRow : ∀ r ∈ rows, IssueRow c i stall r.1 r.2.1 r.2.2.1 r.2.2.2.1 r.2.2.2.2 := by
    unfold rows
    simp only [List.forall_mem_cons, List.not_mem_nil, false_imp_iff, implies_true, and_true]
    exact ⟨.plain (execNop c i stall) (fun _ => rfl) fun _ => rfl, .plain (execOpx c i stall) (fun _ => rfl) fun _ => rfl,
      .plain (execRed c i stall) (fun _ => rfl) fun _ => rfl, .plain (execEwl c i stall) (fun _ => rfl) fun _ => rfl,
      .plain (execTload c i stall) (fun _ => rfl) fun _ => rfl, .plain (execSwp c i stall) (fun _ => rfl) fun _ => rfl,
      .plain (execAccld c i stall) (fun _ => rfl) fun _ => rfl, .plain (execDrn c i stall) (fun _ => rfl) fun _ => rfl,
      .meets errs (execLdt c i stall errs) (fun _ => rfl) fun _ => rfl, .plain (execStt c i stall) (fun _ => rfl) fun _ => rfl,
      .plain (execAcw c i stall) (fun _ => rfl) fun _ => rfl, .plain (execXmt c i stall) (fun _ => rfl) fun _ => rfl,
      .plain (execBqp c i stall tie) (fun _ => rfl) fun _ => rfl, .plain (execBqt c i stall) (fun _ => rfl) fun _ => rfl,
      .plain (execWct c i stall) (fun _ => rfl) fun _ => rfl, .plain (execPset c i stall) (fun _ => rfl) fun _ => rfl,
      .plain (execPsetCounter c i stall) (fun _ => rfl) fun _ => rfl, .plain (execFence c i stall) (fun _ => rfl) fun _ => rfl⟩
  have ends {r} (step : exec r s = .next (s.setCore c ((s.core c).failsNext i n f stReserved))) : fails r := by
    obtain ⟨ended, arrayQ, sp⟩ := Core.failsNext_inst (f := f) inst failed
    refine ⟨_, step, ?_⟩
    rw [State.core_setCore]
    exact ⟨ended, arrayQ, sp⟩
  refine ⟨fun undefined r mem => ends ((isRow r mem).answers fun _ m => ?_), fun defined r mem other => ?_,
    fun defined r mem row accepts => ⟨fun none => ends ((isRow r mem).answers fun _ m => ?_), fun cmd decodes =>
      ⟨fun bad => ends ((isRow r mem).answers fun _ m => ?_), fun h1 h2 predicate => (isRow r mem).answers fun _ m => ?_⟩⟩⟩
  · exact issueStep_undefined (s := { s with meet := m }) runs undefined
  · have stays : exec r.1 s = .next (s.setCore c (s.core c)) := (isRow r mem).answers fun _ m =>
      (issueStep_otherRow (s := { s with meet := m }) runs defined other).trans (congrArg _ (State.setCore_core _ c).symm)
    rwa [State.setCore_core] at stays
  · exact issueStep_undecodable (s := { s with meet := m }) defined row accepts runs none
  · exact issueStep_refused (s := { s with meet := m }) defined row accepts decodes runs bad
  · exact issueStep_skipped (s := { s with meet := m }) defined row accepts decodes runs h1 h2 predicate

end Sys2Proof.Machine
end

section
/-! PROOF. Commands of the array engine and of the shadow path join their queue (O14). -/

namespace Sys2Proof.Machine

open Sys2Proof.Safety

section
variable {s : State} {c : Fin 192} {i : Fin 8} {n : Inst} {f : Frame} {cmd : TileCmd} {stall fuel : Nat} {j : Job}

/- An engine whose head runs starts nothing (R128). -/

theorem busy_append {l : List Job} (h : busy l = true) (m : List Job) : busy (l ++ m) = true := by
  cases l with
  | nil => cases h
  | cons a l => exact h

theorem State.startArray_busy (h : busy (s.core c).arrayQ = true) : s.startArray fuel c = s := by
  cases fuel with
  | zero => rfl
  | succ fuel =>
    rw [State.startArray]
    split
    · rfl
    next a l head =>
      have runs : a.started = true := by rwa [head] at h
      exact if_pos (by rw [runs]; rfl)

theorem State.startShadow_busy (h : busy (s.core c).shadowQ = true) : s.startShadow fuel c = s := by
  cases fuel with
  | zero => rfl
  | succ fuel =>
    rw [State.startShadow]
    split
    · rfl
    next a l head =>
      have runs : a.started = true := by rwa [head] at h
      exact if_pos (by rw [runs]; rfl)

theorem State.startEngines_busy (array : busy (s.core c).arrayQ = true) (shadow : busy (s.core c).shadowQ = true) : s.startEngines c = s :=
  State.startEngines_eq (fun _ => State.startShadow_busy shadow) (fun _ => State.startArray_busy array) fun _ => State.startShadow_busy shadow

/-- The core with its scoreboard stall counted and a job at the end of the array engine's queue, or of the shadow path's. -/
def Core.withJob (k : Core) (stall : Nat) (live : Bool) (j : Job) : Core :=
  if live then { k.bump 0x20444 stall with arrayQ := k.arrayQ ++ [j] } else { k.bump 0x20444 stall with shadowQ := k.shadowQ ++ [j] }

theorem Core.withJob_busy {k : Core} (array : busy k.arrayQ = true) (shadow : busy k.shadowQ = true) (live : Bool) :
    busy (k.withJob stall live j).arrayQ = true ∧ busy (k.withJob stall live j).shadowQ = true := by
  cases live
  · exact ⟨array, busy_append shadow _⟩
  · exact ⟨busy_append array _, shadow⟩

theorem State.pushJob_stalled (live : Bool) :
    (s.stalled c stall).pushJob c (!live) j = (s.setCore c ((s.core c).withJob stall live j)).startEngines c := by
  cases live <;> simp [State.pushJob, State.modCore_eq, State.stalled, Core.withJob] <;> rfl

/-- Job `j` joins its queue, what can start starts, and the instance goes on; behind engines at work nothing starts. -/
def Joins (c : Fin 192) (i : Fin 8) (stall : Nat) (s : State) (live : Bool) (j : Job) (x : Result) : Prop :=
  x = .next (((s.setCore c ((s.core c).withJob stall live j)).startEngines c).modCore c fun k => k.advance i) ∧
    (busy (s.core c).arrayQ = true → busy (s.core c).shadowQ = true → x = .next (s.setCore c (((s.core c).withJob stall live j).advance i)))

theorem Joins.of_run {live : Bool} {x : Result}
    (run : x = .next (((s.stalled c stall).pushJob c (!live) j).modCore c fun k => k.advance i)) : Joins c i stall s live j x := by
  rw [State.pushJob_stalled] at run
  refine ⟨run, fun array shadow => ?_⟩
  obtain ⟨arrays, shadows⟩ := Core.withJob_busy (stall := stall) (j := j) array shadow live
  rw [run, State.startEngines_busy (by rwa [State.core_setCore]) (by rwa [State.core_setCore])]
  simp [State.modCore_eq]

variable {code : Nat} {ok1 : Frame → TileArgs → Bool} {ok2 : Frame → TileCmd → Core → Bool} {body : Frame → Inst → TileCmd → State → Verdict}

/-- A command whose checks pass, and whose body queues it once its billets are ready, joins its engine. -/
theorem issueStep_queues {live extra : Bool} {us : List BUse} (h : Issues c i n f cmd s) (row : rowOfArgs cmd.args = code)
    (h1 : ok1 f cmd.args = true) (h2 : ok2 f cmd (s.core c) = true) (ready : BilletsReady c f cmd.args us s) (more : extra = true)
    (acts : body f n cmd (s.stalled c stall) = (s.stalled c stall).withBillets c f cmd.args us extra fun ents =>
      .run ((s.stalled c stall).pushJob c (!live) (newJob i n cmd ents))) :
    Joins c i stall s live (newJob i n cmd (us.map fun u => (s.core c).entry u.num)) (issueStep c i stall code always ok1 ok2 body s) :=
  .of_run (issueStep_run h row rfl h1 h2 (acts.trans (State.withBillets_ready ready more _)))

end

/-- Settles O14: each command's body queues it once its billets are ready. -/
theorem arrayCommandsQueue : Obligations.ArrayCommandsQueue := by
  unfold Obligations.ArrayCommandsQueue
  intro c i stall s n f cmd h k joins ready
  have joined {live : Bool} {us : List BUse} {r : Instr} (x : Result) (row : exec r s = x)
      (queues : Joins c i stall s live (newJob i n cmd (us.map fun u => k.entry u.num)) x) : joins live us r := by
    subst row; exact queues
  split
  next args =>
    intro h1 h2 billets
    exact joined (execOpx c i stall s) rfl (issueStep_queues h (by rw [args]; rfl) h1 h2 billets rfl (by rw [args]; rfl))
  next args =>
    intro h1 h2 billets
    exact joined (execRed c i stall s) rfl (issueStep_queues h (by rw [args]; rfl) h1 h2 billets rfl (by rw [args]; rfl))
  next args =>
    constructor
    · intro other h1 uses vectors billets
      exact joined (execEwl c i stall s) rfl (issueStep_queues h (by rw [args]; exact if_neg other) h1 uses billets vectors (by rw [args]; rfl))
    · intro tload h1 uses billets
      exact joined (execTload c i stall s) rfl (issueStep_queues h (by rw [args]; exact if_pos tload) h1 uses billets rfl (by rw [args]; rfl))
  next args =>
    intro uses
    exact joined (execSwp c i stall s) rfl (.of_run (issueStep_run h (by rw [args]; rfl) rfl (by rw [args]; rfl) uses rfl))
  next args =>
    intro h1 uses billets
    exact joined (execAccld c i stall s) rfl (issueStep_queues h (by rw [args]; rfl) h1 uses billets rfl (by rw [args]))
  next args =>
    intro us h1 uses vectors billets
    exact joined (execDrn c i stall s) rfl (issueStep_queues h (by rw [args]; rfl) h1 uses billets vectors (by rw [args, State.core_stalled]; rfl))
  next => trivial

end Sys2Proof.Machine
end

section
/-! PROOF. The control commands: NOP, WCT, FENCE and PSET (O20). -/

namespace Sys2Proof.Machine

open Sys2Proof.Safety

/- Instances of a slot: two updates in a row, and an update that is known by its result. -/

section
variable {k : Core} {i : Fin 8} {n : Inst}

theorem Core.setSlot_setSlot (k : Core) (i : Fin 8) (v w : Slot) : (k.setSlot i v).setSlot i w = k.setSlot i w := by
  simp [Core.setSlot, Vector.set_set]

theorem Core.modInst_modInst (k : Core) (i : Fin 8) (g g' : Inst → Inst) : (k.modInst i g).modInst i g' = k.modInst i (g' ∘ g) := by
  rw [Core.modInst, Core.modInst, Core.modInst, Core.modSlot, Core.modSlot, Core.modSlot, Core.slot_setSlot, Core.setSlot_setSlot, Option.map_map]

theorem Core.modInst_congr (inst : (k.slot i).inst = some n) {g g' : Inst → Inst} (h : g n = g' n) : k.modInst i g = k.modInst i g' := by
  simp [Core.modInst, Core.modSlot, inst, h]

end

/- The software bits (R133, R169). -/

/-- The 16 bits of a set once those of `mask` that are software bits are `value`'s. -/
def softMix (mask value old : BitVec 16) : BitVec 16 := (old &&& ~~~(mask &&& 0x0FFE#16)) ||| (value &&& (mask &&& 0x0FFE#16))

/-- The core with a software set replaced: the filler's, or its owner's. -/
def Core.putSoft (k : Core) (filler : Bool) (b : BitVec 16) : Core := if filler then { k with softFill := b } else { k with soft := b }

theorem Core.writeSoft_eq (k : Core) (filler : Bool) (mask value : BitVec 16) :
    k.writeSoft filler mask value = k.putSoft filler (softMix mask value (if filler then k.softFill else k.soft)) := by
  cases filler <;> rfl

theorem Core.modInst_putSoft (k : Core) (i : Fin 8) (g : Inst → Inst) (filler : Bool) (b : BitVec 16) :
    (k.putSoft filler b).modInst i g = (k.modInst i g).putSoft filler b := by
  cases filler <;> rfl

theorem softMask_getLsbD (b : Nat) : (0x0FFE#16).getLsbD b = decide (1 ≤ b ∧ b ≤ 11) := by
  by_cases small : b < 16
  · exact (by decide : ∀ b : Fin 16, (0x0FFE#16).getLsbD b = decide (1 ≤ b.val ∧ b.val ≤ 11)) ⟨b, small⟩
  · rw [BitVec.getLsbD_of_ge _ _ (not_lt.1 small), decide_eq_false (by omega)]

theorem softMix_getLsbD (mask value old : BitVec 16) (b : Nat) : (softMix mask value old).getLsbD b =
    if 1 ≤ b ∧ b ≤ 11 ∧ mask.getLsbD b = true then value.getLsbD b else old.getLsbD b := by
  rw [softMix, BitVec.getLsbD_or, BitVec.getLsbD_and, BitVec.getLsbD_and, BitVec.getLsbD_not, BitVec.getLsbD_and, softMask_getLsbD]
  by_cases soft : 1 ≤ b ∧ b ≤ 11
  · have small : b < 16 := by omega
    cases mask.getLsbD b <;> simp [soft, small]
  · have none : ¬ (1 ≤ b ∧ b ≤ 11 ∧ mask.getLsbD b = true) := fun h => soft ⟨h.1, h.2.1⟩
    rw [decide_eq_false soft, if_neg none]
    by_cases small : b < 16
    · simp [small]
    · simp [BitVec.getLsbD_of_ge _ _ (not_lt.1 small)]

/-- A single bit set from a condition. -/
theorem softMix_bit (p : Bool) (old : BitVec 16) {d : Nat} (low : 1 ≤ d) (high : d ≤ 11) (b : Nat) :
    (softMix (1#16 <<< d) (if p then 1#16 <<< d else 0) old).getLsbD b = if b = d then p else old.getLsbD b := by
  have bit : (1#16 <<< d).getLsbD b = decide (b = d) := by
    have wide : d < 16 := by omega
    show (BitVec.twoPow 16 d).getLsbD b = _
    rw [BitVec.getLsbD_twoPow, decide_eq_true wide, Bool.true_and, decide_eq_decide]
    exact eq_comm
  rw [softMix_getLsbD, bit]
  by_cases same : b = d
  · subst same
    cases p <;> simp_all
  · simp [same]

/- Counters (R168). -/

theorem State.reached_iff (s : State) (n : Nat) (count : Word) : s.reached n count = true ↔ (s.counter n - count).toNat < 2 ^ 31 := by
  simp [State.reached, BitVec.msb_eq_decide]

section
variable {s : State} {c : Fin 192} {i : Fin 8} {n : Inst} {f : Frame} {cmd : TileCmd} {stall : Nat}

/-- A command whose body changes its own core only: `g` says how. -/
theorem issueStep_core {code : Nat} {ok1 : Frame → TileArgs → Bool} {ok2 : Frame → TileCmd → Core → Bool}
    {body : Frame → Inst → TileCmd → State → Verdict} (g : Core → Core) (h : Issues c i n f cmd s) (row : rowOfArgs cmd.args = code)
    (h1 : ok1 f cmd.args = true) (h2 : ok2 f cmd (s.core c) = true)
    (acts : body f n cmd (s.stalled c stall) = .run ((s.stalled c stall).modCore c g)) :
    issueStep c i stall code always ok1 ok2 body s = .next (s.setCore c ((g ((s.core c).bump 0x20444 stall)).advance i)) := by
  rw [issueStep_run h row rfl h1 h2 acts]
  simp [State.modCore_eq, State.stalled]

/-- A hold of the instance's issue and its step past the command may come in either order. -/
theorem Core.advance_hold (k : Core) (cmd : TileCmd) :
    (k.modInst i fun m => { m with held := some cmd }).advance i = (k.advance i).modInst i fun m => { m with held := some cmd } := by
  rw [Core.advance, Core.advance, Core.modInst_modInst, Core.modInst_modInst]
  rfl

/-- The software set that the instance's frame sees (R133). -/
def Core.softOf (k : Core) (f : Frame) : BitVec 16 := if k.owned f then k.soft else k.softFill

theorem Core.softOf_eq (k : Core) (f : Frame) : (if (!k.owned f) = true then k.softFill else k.soft) = k.softOf f := by
  unfold Core.softOf; cases k.owned f <;> rfl

/-- The core with the condition bits of slot `i`'s instance that a PSET may write: NONFINITE and POISONED (R169). -/
def Core.setConds (k : Core) (i : Fin 8) (n : Inst) (m v : BitVec 16) : Core := k.modInst i fun q => { q with
  nonfinite := if m.getLsbD 13 then v.getLsbD 13 else n.nonfinite
  poisoned := if m.getLsbD 14 then v.getLsbD 14 else n.poisoned }

theorem Core.psetBits_advance {k : Core} (inst : (k.slot i).inst = some n) (m v : BitVec 16) :
    (k.psetBits i (!k.owned f) m v).advance i =
      ((k.advance i).setConds i n m v).putSoft (!k.owned f) (softMix m v (k.softOf f)) := by
  rw [Core.psetBits, Core.writeSoft_eq, Core.softOf_eq, Core.modInst_putSoft, Core.advance, Core.modInst_putSoft, Core.setConds, Core.advance,
    Core.modInst_modInst, Core.modInst_modInst]
  congr 1
  exact Core.modInst_congr inst rfl

section
variable (h : Issues c i n f cmd s)
include h

theorem exec_nop_issues (args : cmd.args = .nop) : exec (.nop c i stall) s = .next (s.setCore c (issued i stall (s.core c))) := by
  have run : execNop c i stall s = _ := issueStep_run h (by rw [args]; rfl) rfl (by rw [args]; rfl) rfl rfl
  refine Eq.trans run ?_
  simp [State.modCore_eq, State.stalled, issued]

theorem exec_wct_issues {ctr : BitVec 12} {count : BitVec 32} {limit : BitVec 24} (args : cmd.args = .wct ctr count limit)
    (opened : s.counterOpen f ctr.toNat = true) : exec (.wct c i stall) s =
      .next (s.setCore c ((issued i stall (s.core c)).modInst i fun m => { m with held := some cmd })) := by
  have run : execWct c i stall s = _ := issueStep_core (fun k => k.modInst i fun m => { m with held := some cmd }) h (by rw [args]; rfl)
    (by rw [args]; rfl) rfl (by simp only [args]; exact if_pos opened)
  refine Eq.trans run ?_
  rw [Core.advance_hold, issued]

theorem exec_fence_issues (args : cmd.args = .fence) : exec (.fence c i stall) s =
    .next (s.setCore c ((issued i stall (s.core c)).modInst i fun m => { m with held := some cmd })) := by
  have run : execFence c i stall s = _ := issueStep_core (fun k => k.modInst i fun m => { m with held := some cmd }) h (by rw [args]; rfl)
    (by rw [args]; rfl) rfl rfl
  refine Eq.trans run ?_
  rw [Core.advance_hold, issued]

theorem exec_pset_issues {m v : BitVec 16} (args : cmd.args = .psetMask m v) : exec (.pset c i stall) s =
    .next (s.setCore c (((issued i stall (s.core c)).setConds i n m v).putSoft (!(s.core c).owned f) (softMix m v ((s.core c).softOf f)))) := by
  have ⟨⟨inst, _⟩, _⟩ := h
  have run : execPset c i stall s = _ := issueStep_core (fun k => k.psetBits i (!k.owned f) m v) h (by rw [args]; rfl)
    (by rw [args]; rfl) rfl (by rw [args])
  rw [Core.psetBits_advance (k := (s.core c).bump 0x20444 stall) inst] at run
  exact run

theorem exec_psetCounter_issues {d : BitVec 4} {ctr : BitVec 12} {count : BitVec 32} (args : cmd.args = .psetCounter d ctr count)
    (low : 1 ≤ d.toNat) (high : d.toNat ≤ 11) (opened : s.counterOpen f ctr.toNat = true) :
    exec (.psetCounter c i stall) s = .next (s.setCore c ((issued i stall (s.core c)).putSoft (!(s.core c).owned f)
      (softMix (1#16 <<< d.toNat) (if s.reached ctr.toNat count then 1#16 <<< d.toNat else 0) ((s.core c).softOf f)))) := by
  have opened' : (s.stalled c stall).counterOpen f ctr.toNat = true := opened
  have run : execPsetCounter c i stall s = _ := issueStep_core (fun k => k.writeSoft (!k.owned f) (1#16 <<< d.toNat)
      (if s.reached ctr.toNat count then 1#16 <<< d.toNat else 0)) h (by rw [args]; rfl)
    (by rw [args]; exact decide_eq_true ⟨low, high⟩) rfl (by simp only [args]; rw [opened']; rfl)
  rw [Core.writeSoft_eq, Core.softOf_eq, Core.advance, Core.modInst_putSoft] at run
  exact run

end

end

/- What releases an issue that is held (R168, R170). -/

section
variable {s : State} {c : Fin 192} {i : Fin 8} {n : Inst} {be : Nat} {p : BitVec 4} {v : Bool} {ctr : BitVec 12} {count : BitVec 32}
  {limit : BitVec 24} (inst : ((s.core c).slot i).inst = some n)
include inst

theorem Core.heldWct_eq (held : n.held = some ⟨p, v, .wct ctr count limit⟩) :
    (s.core c).heldWct i = some (ctr.toNat, count, limit.toNat) := by
  simp [Core.heldWct, inst, held]

theorem execWctCountMet_eq (held : n.held = some ⟨p, v, .wct ctr count limit⟩) : execWctCountMet c i be s =
    if s.reached ctr.toNat count then .next (s.modCore c fun k => k.release i be) else .next s := by
  rw [execWctCountMet, Core.heldWct_eq inst held]

/-- A WCT whose LIMIT is reached first fails with TIMEOUT. -/
theorem execWctTimeout_fails (held : n.held = some ⟨p, v, .wct ctr count limit⟩) (waits : s.reached ctr.toNat count = false) (limited : limit ≠ 0) :
    ∃ q, execWctTimeout c i be s = .next (s.setCore c q) ∧ (q.slot i).inst = some { n with held := none, failed := some (n.failed.getD 0x0F) } := by
  have released : (((s.core c).release i be).slot i).inst = some { n with held := none } :=
    Core.inst_modInst (k := (s.core c).bump 0x20438 be) inst _
  obtain ⟨regs, ended⟩ := ((s.core c).release i be).cmdEnded_failed i ((s.core c).lastSeq i) 0x20 false (st := stTimeout) (by decide) (by decide)
  refine ⟨((s.core c).release i be).cmdEnded i ((s.core c).lastSeq i) 0x20 false stTimeout, ?_, ?_⟩
  · rw [execWctTimeout, Core.heldWct_eq inst held]
    exact if_neg (by simp [waits, ← BitVec.toNat_inj] at limited ⊢; exact limited)
  · rw [ended]
    exact Core.inst_modInst (k := { (s.core c).release i be with regs := regs }) released _

theorem execFenceRelease_eq (held : n.held = some ⟨p, v, .fence⟩) : execFenceRelease c i be s =
    if (s.core c).outstanding i then .next s else .next (s.modCore c fun k => k.release i be) := by
  rw [execFenceRelease, inst]
  dsimp only
  rw [held]

end

/-- Settles O20: each command at issue, then what releases a WCT and a FENCE that holds its instance. -/
theorem controlCommands : Obligations.ControlCommands := by
  intro c i stall s n f k puts met old soft
  have softs (k' : Core) (same : k'.owned f = k.owned f) (b : BitVec 16) : soft k' b = k'.putSoft (!k.owned f) b := by
    unfold soft Core.putSoft
    rw [same]
    cases k.owned f <;> rfl
  refine ⟨fun cmd h => ?_, fun be p v ctr count limit inst held => ⟨fun reached => ?_, fun waits => ?_, fun waits limited => ?_⟩,
    fun be p v inst held => ⟨fun clear => ?_, fun waits => ?_⟩⟩
  · obtain ⟨p, v, args⟩ := cmd
    cases args with
    | nop => exact exec_nop_issues h rfl
    | wct ctr count limit => exact exec_wct_issues h rfl
    | fence => exact exec_fence_issues h rfl
    | psetMask m v =>
      refine ⟨softMix m v (k.softOf f), _, _, ?_, softMix_getLsbD m v _, rfl, rfl⟩
      exact (exec_pset_issues h rfl).trans (congrArg puts (softs ((issued i stall k).setConds i n m v) rfl _).symm)
    | psetCounter d ctr count =>
      intro low high opened
      have bit := softMix_bit (s.reached ctr.toNat count) (k.softOf f) low high
      refine ⟨softMix (1#16 <<< d.toNat) (if s.reached ctr.toNat count then 1#16 <<< d.toNat else 0) (k.softOf f), ?_, ?_, fun b other => ?_⟩
      · exact (exec_psetCounter_issues h rfl low high opened).trans (congrArg puts (softs (issued i stall k) rfl _).symm)
      · rw [bit, if_pos rfl]
        exact s.reached_iff ..
      · rw [bit, if_neg other]
        rfl
    | _ => trivial
  · show execWctCountMet c i be s = _
    exact (execWctCountMet_eq inst held).trans (if_pos ((s.reached_iff ..).2 reached))
  · show execWctCountMet c i be s = _
    exact (execWctCountMet_eq inst held).trans (if_neg fun reached => waits ((s.reached_iff ..).1 reached))
  · exact execWctTimeout_fails inst held (Bool.eq_false_iff.2 fun reached => waits ((s.reached_iff ..).1 reached)) limited
  · show execFenceRelease c i be s = _
    exact (execFenceRelease_eq inst held).trans (if_neg (by rw [show (s.core c).outstanding i = false from clear]; exact Bool.false_ne_true))
  · show execFenceRelease c i be s = _
    exact (execFenceRelease_eq inst held).trans (if_pos waits)

end Sys2Proof.Machine
end

section
/-! PROOF. What the memory tiers' operations leave of the rings: a descriptor that reads or writes memory completes in its ring (O39). -/

namespace Sys2Proof.Machine

open Sys2Proof.Safety

/- Module registers, canonical or not: a write leaves every other register alone. -/

theorem State.rd_wrBits_other (s : State) {off o : Nat} (ne : o ≠ off) (hi lo v : Nat) : (s.wrBits off hi lo v).rd o = s.rd o :=
  congrArg BitVec.toNat (SMap.get_set_ne _ _ _ ne)

theorem State.rd_report_other (s : State) (r : Report) {o : Nat} (ne : o ≠ 0x1010) : (s.report r).rd o = s.rd o := by
  unfold State.report
  dsimp only
  split
  · exact State.rd_wrBits_other { s with gatehouse := _, out := _ } ne _ _ _
  · rfl

theorem State.rd_logFault_other (s : State) (e : LogEntry) {o : Nat} (tail : o ≠ 0x90004) (lost : o ≠ 0x1010) :
    (s.logFault e).rd o = s.rd o := by
  unfold State.logFault
  extract_lets
  rw [State.rd_report_other _ _ lost]
  split
  · exact (State.rd_wrBits_other _ tail _ _ _).trans (State.rd_wrBits_other _ tail _ _ _)
  · exact State.rd_wrBits_other _ tail _ _ _

/-- From `s` to `t` the rings' places and settings, what waits in completion rings, the contexts and the functions are as before, and what went
out stays gone. -/
structure RingsKept (s t : State) : Prop where
  ring : ∀ r, (t.sq r).ctx = (s.sq r).ctx
  cqs : t.cqs = s.cqs
  ctxs : t.ctxs = s.ctxs
  fns : t.fns = s.fns
  cfg : ∀ r : Fin 256, t.rd (sqCfgOff r) = s.rd (sqCfgOff r)
  out : ∃ o, t.out = s.out ++ o

section
variable {s t u : State}

theorem RingsKept.refl (s : State) : RingsKept s s :=
  ⟨fun _ => rfl, rfl, rfl, rfl, fun _ => rfl, [], (List.append_nil _).symm⟩

theorem RingsKept.trans (h : RingsKept s t) (h' : RingsKept t u) : RingsKept s u where
  ring r := (h'.ring r).trans (h.ring r)
  cqs := h'.cqs.trans h.cqs
  ctxs := h'.ctxs.trans h.ctxs
  fns := h'.fns.trans h.fns
  cfg r := (h'.cfg r).trans (h.cfg r)
  out := by
    obtain ⟨o, e⟩ := h.out
    obtain ⟨o', e'⟩ := h'.out
    exact ⟨o ++ o', by rw [e', e, List.append_assoc]⟩

theorem RingsKept.ite {p : Prop} [Decidable p] (ht : RingsKept s t) (hu : RingsKept s u) : RingsKept s (if p then t else u) := by
  split <;> assumption

theorem RingsKept.foldl {α : Type} {f : State → α → State} (h : ∀ s a, RingsKept s (f s a)) (l : List α) (s : State) :
    RingsKept s (l.foldl f s) := by
  induction l generalizing s with
  | nil => exact .refl s
  | cons a l ih => exact (h s a).trans (ih _)

/-- An update of other parts than those named. -/
theorem RingsKept.of_same (sqs : t.sqs = s.sqs) (cqs : t.cqs = s.cqs) (ctxs : t.ctxs = s.ctxs) (fns : t.fns = s.fns)
    (regs : t.regs = s.regs) (out : ∃ o, t.out = s.out ++ o) : RingsKept s t where
  ring r := by rw [State.sq, sqs]; rfl
  cqs := cqs
  ctxs := ctxs
  fns := fns
  cfg r := by rw [State.rd, regs]; rfl
  out := out

theorem RingsKept.of_eq (sqs : t.sqs = s.sqs) (cqs : t.cqs = s.cqs) (ctxs : t.ctxs = s.ctxs) (fns : t.fns = s.fns)
    (regs : t.regs = s.regs) (out : t.out = s.out) : RingsKept s t :=
  .of_same sqs cqs ctxs fns regs ⟨[], by rw [out, List.append_nil]⟩

theorem RingsKept.cqOf (h : RingsKept s t) (r : Fin 256) : t.cqOf r = s.cqOf r := by
  unfold State.cqOf; rw [h.cfg]

end

/- Controllers (R221, R222, R246 to R249). -/

section
variable {s : State}

theorem RingsKept.modChan (s : State) (c : Fin 208) (f : Chan → Chan) : RingsKept s (s.modChan c f) :=
  .of_eq rfl rfl rfl rfl rfl rfl

theorem RingsKept.markGrans (s : State) (gs : List Nat) : RingsKept s (s.markGrans gs) :=
  .of_eq rfl rfl rfl rfl rfl rfl

theorem RingsKept.setDir (s : State) (slot : Nat) (d : DirEnt) : RingsKept s (s.setDir slot d) :=
  .of_eq rfl rfl rfl rfl rfl rfl

theorem RingsKept.inClass (s : State) (cls : Nat) : RingsKept s (s.inClass cls) :=
  .of_eq rfl rfl rfl rfl rfl rfl

theorem State.logFault_out (s : State) (e : LogEntry) : ∃ o, (s.logFault e).out = s.out ++ o := by
  have report (s : State) (r : Report) : ∃ o, (s.report r).out = s.out ++ o := by
    unfold State.report
    extract_lets g full q n g1 s1
    have sent : ∃ o, s1.out = s.out ++ o := by
      unfold s1
      split
      · exact ⟨_, rfl⟩
      · exact ⟨[], (List.append_nil _).symm⟩
    split
    · exact sent
    · exact sent
  unfold State.logFault
  extract_lets
  split
  · exact report ..
  · exact report ..

theorem RingsKept.logFault (s : State) (e : LogEntry) : RingsKept s (s.logFault e) := by
  have out := s.logFault_out e
  have cfg (r : Fin 256) : (s.logFault e).rd (sqCfgOff r) = s.rd (sqCfgOff r) :=
    State.rd_logFault_other s e (by unfold sqCfgOff; omega) (by unfold sqCfgOff; omega)
  obtain ⟨l, g, regs, o, h⟩ := s.logFault_shape e
  rw [h] at out cfg ⊢
  exact ⟨fun _ => rfl, rfl, rfl, rfl, cfg, out⟩

theorem RingsKept.logChan (s : State) (c : Fin 208) (kind : Nat) (st : Byte) (x : Option (Fin 64)) : RingsKept s (s.logChan c kind st x) :=
  .logFault ..

theorem RingsKept.corrected (s : State) (c : Fin 208) (die : Nat) : RingsKept s (s.corrected c die) := by
  unfold State.corrected
  extract_lets s1 k
  have counted : RingsKept s s1 := .modChan s c _
  exact .ite ((counted.trans (.modChan s1 c _)).trans (.logChan ..)) counted

theorem RingsKept.decodeGran (s : State) (g : Nat) : RingsKept s (s.decodeGran g).2 := by
  unfold State.decodeGran
  dsimp only
  split
  · exact RingsKept.modChan s (chanOf (64 * g)) fun k => k.bump 0x30014 1
  · split
    · exact .refl s
    · exact .corrected ..
    · exact RingsKept.modChan s (chanOf (64 * g)) fun k => k.bump 0x30014 1

theorem RingsKept.decodeGrans (s : State) (gs : List Nat) : RingsKept s (s.decodeGrans gs).2 := by
  have keeps (gs : List Nat) (p : List Nat × State) : RingsKept p.2 (gs.foldl (fun p g =>
      let (bad, t) := p.2.decodeGran g
      (if bad then p.1 ++ [g] else p.1, t)) p).2 := by
    induction gs generalizing p with
    | nil => exact .refl _
    | cons g gs ih =>
      have decoded := RingsKept.decodeGran p.2 g
      rw [List.foldl_cons]
      generalize p.2.decodeGran g = q at decoded ⊢
      obtain ⟨bad, t⟩ := q
      exact decoded.trans (ih (if bad then p.1 ++ [g] else p.1, t))
  exact keeps gs ([], s)

theorem RingsKept.charge (s : State) (a n cls cost : Nat) : RingsKept s (s.charge a n cls cost) := by
  unfold State.charge
  dsimp only
  exact .ite (.refl s) (.foldl (fun s (r : Fin 208 × Nat) => .modChan s r.1 _) _ s)

theorem RingsKept.mergeGran (s : State) (g : Nat) : RingsKept s (s.mergeGran g) := by
  unfold State.mergeGran
  dsimp only
  have merged : RingsKept s ((s.decodeGran g).2.charge (64 * g) 64 (s.decodeGran g).2.meet.cls 128) :=
    (RingsKept.decodeGran s g).trans (.charge ..)
  exact .ite (merged.trans (.markGrans ..)) merged

theorem RingsKept.evictGran (s : State) (g : Nat) : RingsKept s (s.evictGran g) :=
  (RingsKept.modChan s (chanOf (64 * g)) _).trans (.mergeGran ..)

theorem RingsKept.evictRange (s : State) (a n : Nat) : RingsKept s (s.evictRange a n) :=
  .foldl (fun s _ => .foldl (fun s (e : WcEntry) => .evictGran s e.gran) _ s) _ s

theorem RingsKept.putWhole (s : State) (a : Nat) (bs : List Byte) : RingsKept s (s.putWhole a bs) :=
  .of_eq rfl rfl rfl rfl rfl rfl

theorem RingsKept.putFull (s : State) (a : Nat) (bs : List Byte) : RingsKept s (s.putFull a bs) := (RingsKept.charge ..).trans (.putWhole ..)

theorem RingsKept.putPartial (s : State) (a : Nat) (bs : List Byte) : RingsKept s (s.putPartial a bs) := by
  have wrote : RingsKept s { s with mem := s.mem.writeRun a bs } := .of_eq rfl rfl rfl rfl rfl rfl
  refine wrote.trans ?_
  unfold State.putPartial
  dsimp only
  split
  · exact .mergeGran ..
  · split
    · split
      · exact ((RingsKept.modChan _ (chanOf a) _).trans (RingsKept.charge _ (64 * (a / 64)) 64 s.meet.cls 64)).trans
          (.of_eq rfl rfl rfl rfl rfl rfl)
      · exact .modChan _ (chanOf a) _
    · refine RingsKept.trans ?_ (.modChan _ (chanOf a) _)
      split
      · exact .ite (.evictGran ..) (.refl _)
      · exact .refl _

theorem RingsKept.putBytes (s : State) (a : Nat) (bs : List Byte) : RingsKept s (s.putBytes a bs) := by
  unfold State.putBytes
  extract_lets head s1 rest mid s2 tail
  have first : RingsKept s s1 := .ite (.refl s) (.putPartial ..)
  have middle : RingsKept s s2 := first.trans (.ite (.refl s1) (.putFull ..))
  exact .ite middle (middle.trans (.putPartial ..))

theorem RingsKept.zero (s : State) (a n : Nat) : RingsKept s (s.zero a n) :=
  .of_eq rfl rfl rfl rfl rfl rfl

/- Slots of a region, their refetches and write-back (R233, R239 to R242). -/

theorem RingsKept.storeTile (s : State) (a : Nat) (bs : List Byte) : RingsKept s (s.storeTile a bs) := .putFull ..

theorem RingsKept.askMirror (s : State) (r : Region) (serial slot : Nat) : RingsKept s (s.askMirror r serial slot) := by
  unfold State.askMirror
  split
  · dsimp only
    refine .foldl (fun s n => ?_) _ s
    exact .of_eq rfl rfl rfl rfl rfl rfl
  · exact .of_same rfl rfl rfl rfl rfl ⟨_, rfl⟩
  · exact .refl s

theorem RingsKept.startRefetches (s : State) (die : Nat) : RingsKept s (s.startRefetches die) := by
  refine .foldl (fun s f => ?_) _ s
  dsimp only
  split
  next r _ =>
    split
    · refine RingsKept.trans ?_ (.askMirror _ r f.serial f.slot)
      exact .of_eq rfl rfl rfl rfl rfl rfl
    · exact .refl s
  · exact .refl s

theorem RingsKept.faultSlot (s : State) (r : Region) (slot : Nat) (bad : List Nat) : RingsKept s (s.faultSlot r slot bad) := by
  unfold State.faultSlot
  extract_lets d s1 home s2 f s3
  have marked : RingsKept s s1 := .markGrans ..
  refine .ite ?_ ((marked.trans (.setDir ..)).trans (.logChan ..))
  have queued : RingsKept s2 s3 := .of_eq rfl rfl rfl rfl rfl rfl
  exact ((marked.trans (.setDir ..)).trans queued).trans (.startRefetches ..)

theorem RingsKept.readSlot (s : State) (r : Region) (slot a n : Nat) : RingsKept s (s.readSlot r slot a n).2 := by
  unfold State.readSlot
  split
  · exact .refl s
  · exact .refl s
  · dsimp only
    split
    · exact .decodeGrans ..
    · exact (RingsKept.decodeGrans ..).trans (.faultSlot ..)

theorem RingsKept.writeBack (s : State) (r : Region) (slot : Nat) : RingsKept s (s.writeBack r slot) := by
  unfold State.writeBack
  extract_lets home s0
  refine .ite (.refl s) ?_
  have evicted : RingsKept s s0 := (RingsKept.inClass s _).trans (.evictRange ..)
  have read := evicted.trans (.readSlot s0 r slot slot r.slotBytes)
  split
  next s1 e =>
    rw [e] at read
    exact (((read.trans (.charge ..)).trans (.storeTile ..)).trans (.inClass ..)).trans (.setDir ..)
  next s1 _ e =>
    rw [e] at read
    exact read.trans (.inClass ..)

theorem RingsKept.flushRegion (s : State) (r : Region) : RingsKept s (s.flushRegion r) := .foldl (fun s slot => .writeBack s r slot) _ s

/- The host (R323, R335). -/

theorem RingsKept.hostRead (s : State) (x : Fin 64) (a n : Nat) : RingsKept s (s.hostRead x a n) := .of_same rfl rfl rfl rfl rfl ⟨_, rfl⟩

theorem RingsKept.hostWrite (s : State) (x : Fin 64) (a : Nat) (bs : List Byte) : RingsKept s (s.hostWrite x a bs) :=
  .ite (.refl s) (.of_same rfl rfl rfl rfl rfl ⟨_, rfl⟩)

theorem RingsKept.modCore (s : State) (c : Fin 192) (f : Core → Core) : RingsKept s (s.modCore c f) :=
  .of_eq rfl rfl rfl rfl rfl rfl

/- Transfers and the contents of a region (R224, R226, R237). -/

theorem RingsKept.prepaid {f : State → State} (h : ∀ t, RingsKept t (f t)) (s : State) : RingsKept s (s.prepaid f) := by
  have paid : RingsKept s { s with meet := { s.meet with paid := true } } := .of_eq rfl rfl rfl rfl rfl rfl
  exact (paid.trans (h _)).trans (.of_eq rfl rfl rfl rfl rfl rfl)

theorem RingsKept.fillReads (s : State) (x : Fin 64) (d : DescRef) (g : Region) : RingsKept s (s.fillReads x d g) := by
  refine .ite (.hostRead ..) ?_
  split
  · exact .of_same rfl rfl rfl rfl rfl ⟨_, rfl⟩
  · exact .refl s

theorem RingsKept.fillContents (s : State) (g : Region) (bs : List Byte) : RingsKept s (s.fillContents g bs) := by
  unfold State.fillContents
  extract_lets s1 one
  have wrote : RingsKept s s1 := .putFull ..
  refine .ite wrote (wrote.trans (.foldl (fun s i => ?_) _ s1))
  unfold one
  extract_lets slot t s2 h code
  have stored : RingsKept s s2 := .ite (.prepaid (fun s => .storeTile s slot t) s) (.refl s)
  exact stored.trans (.setDir ..)

end

end Sys2Proof.Machine
end

section
/-! PROOF. Transfers, loads, regions, windows and table loads once their descriptor starts (O39). -/

namespace Sys2Proof.Machine

open Sys2Proof.Safety

/- A descriptor that starts (R329, R331), completes (R333) or waits. -/

section
variable {r : Fin 256} {n type : Nat} {x : Fin 64} {d : DescRef} {s u : State}

/-- The state on which a started descriptor acts. -/
def State.begun (s : State) (d : DescRef) : State := (s.started d).setWaits d false

theorem RingsKept.modSq (s : State) (r : Fin 256) {g : SubRing → SubRing} (h : ∀ k, (g k).ctx = k.ctx) : RingsKept s (s.modSq r g) where
  ring q := by
    by_cases same : r = q
    · subst same; rw [State.sq_modSq, h]
    · rw [State.sq_modSq_ne _ _ _ same]
  cqs := rfl
  ctxs := rfl
  fns := rfl
  cfg _ := rfl
  out := ⟨[], (List.append_nil _).symm⟩

theorem RingsKept.begun (s : State) (d : DescRef) : RingsKept s (s.begun d) := by
  unfold State.begun State.started State.setWaits
  exact (RingsKept.modSq _ _ (by intro; rfl)).trans (.modSq _ _ (by intro; rfl))

theorem RingsKept.meeting (s : State) (errs : List GranErr) : RingsKept s (s.meeting errs) := .of_eq rfl rfl rfl rfl rfl rfl

theorem ringOf_val (r : Fin 256) : ringOf r.val = r := Fin.ext (Nat.mod_eq_of_lt r.isLt)

section
variable (h : Starts r n type x d s)
include h

theorem Starts.meeting (errs : List GranErr) : Starts r n type x d (s.meeting errs) := h

theorem Starts.ctx : (s.sq r).ctx = some x := by
  obtain ⟨⟨o, start, -⟩, -⟩ := h
  unfold State.mayStart at start
  dsimp only at start
  split at start
  next y p ring _ =>
    split at start
    · cases start; exact ring
    · cases start
  · cases start

theorem Starts.runs (go : Fin 64 → DescRef → State → State) : s.startDesc r n type go = .next (go x d (s.begun d)) := by
  obtain ⟨⟨o, start, ref, checked⟩, -⟩ := h
  unfold State.startDesc
  rw [start]
  dsimp only
  rw [ref]
  have passes : (if o.waits then none else ((s.started d).setWaits d false).check3 x d) = none := by
    split
    · rfl
    next begins => exact checked.resolve_left begins
  rw [passes]
  rfl

theorem Starts.runsHost (go : Fin 64 → DescRef → State → State) : s.startHost r n type go = .next (go x d (s.begun d)) := by
  have ring := Starts.ctx h
  obtain ⟨-, -, fetches⟩ := id h
  unfold State.startHost
  rw [ring]
  dsimp only
  rw [if_pos fetches, Starts.runs h]

/-- The context is served: its host writes go out and its records are not held (R360, R361). -/
theorem Starts.served : (s.ctx x).orphaned = false ∧ (s.fn (fnOf (s.ctx x).fn)).lease ≠ .expired := by
  obtain ⟨-, -, fetches⟩ := h
  simp only [State.fetches, Bool.and_eq_true, Bool.not_eq_true', bne_iff_ne] at fetches
  exact ⟨fetches.1.2, fetches.2⟩

/-- The record of a descriptor that completes without details (Table 12.5). -/
def doneRec (d : DescRef) (st : Byte) (time : Nat) : Rec :=
  { sq := d.ring, idx := some d.idx, tag := d.le 4 4, status := st, type := d.le 1 1, d16 := 0, d32 := 0, d64 := 0,
    irq := bitOf (d.le 2 1) 0, time := time }

/-- The completion of a started descriptor changes one completion ring (R333). -/
theorem Starts.complete_eq (kept : RingsKept s u) (st : Byte) : u.complete d st 0 0 0 =
    u.modCq (s.cqOf r) fun k => { k with waiting := k.waiting ++ [doneRec d st u.time] } := by
  have ring : ringOf d.ring = r := by rw [h.2.1, ringOf_val]
  have ctx : u.ctx x = s.ctx x := by rw [State.ctx, kept.ctxs]; rfl
  rw [State.complete_record (x := x) (by rw [ring, kept.ring, Starts.ctx h]) (by rw [ctx]; exact (Starts.served h).1), ring, kept.cqOf]
  rfl

/-- A row that completes its descriptor on `u`: the record joins its ring, and the rest is as in `u`. -/
theorem Starts.gives {i : Instr} {m : Meet} {P : State → Prop} {st : Byte} (kept : RingsKept s u)
    (run : exec i s = .next { u.complete d st 0 0 0 with meet := m }) (same : ∀ cqs, P { u with cqs := cqs, meet := m }) :
    ∃ t, exec i s = .next t ∧ Completed r d st 0 0 0 s t ∧ P t := by
  rw [Starts.complete_eq h kept] at run
  refine ⟨_, run, ⟨doneRec d st u.time, ?_, h.2.1, rfl, rfl, rfl, rfl, rfl, rfl, rfl⟩, same _⟩
  have cq : u.cq (s.cqOf r) = s.cq (s.cqOf r) := by rw [State.cq, kept.cqs]; rfl
  rw [← cq]
  show ((u.modCq (s.cqOf r) fun k => { k with waiting := k.waiting ++ [doneRec d st u.time] }).cq (s.cqOf r)).waiting = _
  rw [State.cq_modCq]

/-- A row that leaves its descriptor waiting on `u`. -/
theorem Starts.waits {i : Instr} {m : Meet} {P : State → Prop} (kept : RingsKept s u)
    (run : exec i s = .next { u.setWaits d true with meet := m }) (same : ∀ sqs, P { u with sqs := sqs, meet := m }) :
    ∃ t : State, exec i s = .next t ∧ t.cqs = s.cqs ∧ (∀ o ∈ (t.sq r).out, o.ref.idx = d.idx → o.waits = true) ∧ P t := by
  have ring : ringOf d.ring = r := by rw [h.2.1, ringOf_val]
  refine ⟨_, run, kept.cqs, fun o mem named => ?_, same _⟩
  have out : ((u.setWaits d true).sq r).out = (u.sq r).out.map fun o => if o.ref.idx = d.idx then { o with waits := true } else o := by
    rw [State.setWaits, ring, State.sq_modSq]
  replace mem : o ∈ ((u.setWaits d true).sq r).out := mem
  rw [out] at mem
  obtain ⟨p, -, rfl⟩ := List.mem_map.1 mem
  split
  · rfl
  next other => rw [if_neg other] at named; exact absurd named other

/-- A host write of a served context goes out. -/
theorem Starts.hostWrite_eq (kept : RingsKept s u) (a : Nat) (bs : List Byte) :
    u.hostWrite x a bs = { u with out := u.out ++ [.hostWrite (s.ctx x).fn a bs] } := by
  obtain ⟨orphaned, lease⟩ := Starts.served h
  have ctx : u.ctx x = s.ctx x := by rw [State.ctx, kept.ctxs]; rfl
  have fn (f : Fin 32) : u.fn f = s.fn f := by rw [State.fn, kept.fns]; rfl
  rw [State.hostWrite, ctx, fn, if_neg]
  rintro (held | lost)
  · rw [orphaned] at held; cases held
  · exact lease lost

/-- A transfer of a row that meets granules. -/
theorem Starts.meets (errs : List GranErr) (go : Fin 64 → DescRef → State → State) : meetRow errs (fun s => s.startHost r n type go) s =
    .next { go x d ((s.meeting errs).begun d) with meet := s.meet } := by
  rw [meetRow, Starts.runsHost (Starts.meeting h errs)]

theorem Starts.meetsDesc (errs : List GranErr) (go : Fin 64 → DescRef → State → State) : meetRow errs (fun s => s.startDesc r n type go) s =
    .next { go x d ((s.meeting errs).begun d) with meet := s.meet } := by
  rw [meetRow, Starts.runs (Starts.meeting h errs)]

end

end

/- COPY (Table 12.4): ranges of regions without slots. -/

theorem State.decodeGrans_tier (s : State) (gs : List Nat) : TierOnly s (s.decodeGrans gs).2 := by
  have keeps (gs : List Nat) (p : List Nat × State) : TierOnly p.2 (gs.foldl (fun p g =>
      let (bad, t) := p.2.decodeGran g
      (if bad then p.1 ++ [g] else p.1, t)) p).2 := by
    induction gs generalizing p with
    | nil => exact .refl _
    | cons g gs ih =>
      have decoded := p.2.decodeGran_tier g
      rw [List.foldl_cons]
      generalize p.2.decodeGran g = q at decoded ⊢
      obtain ⟨bad, t⟩ := q
      exact decoded.trans (ih (if bad then p.1 ++ [g] else p.1, t))
  exact keeps gs ([], s)

section
variable {s : State} {x : Fin 64} {a len : Nat} {g : Region} (plain : g.tiled = false)
include plain

theorem State.writeLocal_plain {bs : List Byte} (region : s.copyRegion x a bs.length true = some g) : s.writeLocal x a bs = s.putBytes a bs := by
  rw [State.writeLocal, region]
  dsimp only
  rw [State.writeIn, plain]
  rfl

variable (region : s.copyRegion x a len false = some g)
include region

theorem State.readLocal_sound (sound : ((s.chargeReads a len).decodeGrans (granules a len)).1 = []) :
    s.readLocal x a len = (.bytes (s.mem.readRun a len), ((s.chargeReads a len).decodeGrans (granules a len)).2) := by
  have raw : (s.chargeReads a len).readRaw g a len = (.ok, ((s.chargeReads a len).decodeGrans (granules a len)).2) := by
    rw [State.readRaw, plain]
    generalize (s.chargeReads a len).decodeGrans (granules a len) = p at sound ⊢
    obtain ⟨bad, t⟩ := p
    subst sound
    rfl
  have other : g.kind ≠ 3 := fun three => by simp [Region.tiled, three] at plain
  rw [State.readLocal, region]
  dsimp only
  rw [raw, State.rangeBytes, if_neg other]

theorem State.readLocal_bad (bad : ((s.chargeReads a len).decodeGrans (granules a len)).1 ≠ []) :
    ∃ t, s.readLocal x a len = (.bad, t) ∧ RingsKept s t ∧ t.mem = s.mem := by
  have kept := (RingsKept.charge s a len s.meet.cls 64).trans (.decodeGrans (s.chargeReads a len) (granules a len))
  have mem := ((s.charge_tier a len s.meet.cls 64).trans ((s.chargeReads a len).decodeGrans_tier (granules a len))).mem
  have raw : ∃ q, (s.chargeReads a len).readRaw g a len =
      (.bad, ((s.chargeReads a len).decodeGrans (granules a len)).2.logChan (chanOf (64 * q)) 0x03 stWeightPoison g.owner) := by
    rw [State.readRaw, plain]
    generalize (s.chargeReads a len).decodeGrans (granules a len) = p at bad ⊢
    obtain ⟨l, t⟩ := p
    cases l with
    | nil => exact absurd rfl bad
    | cons q l => exact ⟨q, rfl⟩
  obtain ⟨q, raw⟩ := raw
  refine ⟨_, ?_, kept.trans (.logChan _ (chanOf (64 * q)) 0x03 stWeightPoison g.owner), (State.logFault_tier _ _).mem.trans mem⟩
  rw [State.readLocal, region]
  dsimp only
  rw [raw]

end

section
variable {r : Fin 256} {n : Nat} {x : Fin 64} {d : DescRef} {data : List Byte} {errs : List GranErr} {s : State}

theorem RingsKept.starting (s : State) (errs : List GranErr) (d : DescRef) : RingsKept s ((s.meeting errs).begun d) :=
  (RingsKept.meeting s errs).trans (.begun ..)

section
variable (h : Starts r n 0x10 x d s)
include h

theorem exec_copy_held (held : s.heldAt (d.le 0x18 6) (d.le 0x20 4) = true) : ∃ t : State, exec (.copy r n data errs) s = .next t ∧
    t.cqs = s.cqs ∧ (∀ o ∈ (t.sq r).out, o.ref.idx = d.idx → o.waits = true) ∧ t.mem = s.mem := by
  refine Starts.waits h (u := (s.meeting errs).begun d) (m := s.meet) (.starting s errs d) ?_ fun _ => rfl
  show execCopy r n data errs s = _
  rw [execCopy, Starts.meets h]
  dsimp only
  rw [if_pos (show ((s.meeting errs).begun d).heldAt (d.le 0x18 6) (d.le 0x20 4) = true from held)]

variable {g : Region} (free : s.heldAt (d.le 0x18 6) (d.le 0x20 4) = false) (plain : g.tiled = false)
include free plain

/-- A COPY from the host writes its bytes (R226). -/
theorem exec_copy_in (wf : s.mem.wf = true) (dir : d.bits 8 1 0 0 = 0) (region : s.copyRegion x (d.le 0x18 6) (d.le 0x20 4) true = some g)
    (fits : data.length = d.le 0x20 4) : ∃ t : State, exec (.copy r n data errs) s = .next t ∧ Completed r d stOk 0 0 0 s t ∧
      t.mem = s.mem.writeRun (d.le 0x18 6) data ∧ ∃ o, t.out = s.out ++ Out.hostRead (s.ctx x).fn (d.le 0x10 8) (d.le 0x20 4) :: o := by
  have read : ∃ v : State, v = ((s.meeting errs).begun d).hostRead x (d.le 0x10 8) (d.le 0x20 4) := ⟨_, rfl⟩
  obtain ⟨v, hv⟩ := read
  have kept : RingsKept s v := hv ▸ (RingsKept.starting s errs d).trans (.hostRead ..)
  have wrote := RingsKept.putBytes v (d.le 0x18 6) data
  have mem : (v.putBytes (d.le 0x18 6) data).mem = s.mem.writeRun (d.le 0x18 6) data := by
    subst hv; exact State.putBytes_mem (s := ((s.meeting errs).begun d).hostRead x (d.le 0x10 8) (d.le 0x20 4)) wf _ _
  obtain ⟨o, out⟩ := wrote.out
  refine Starts.gives h (u := v.putBytes (d.le 0x18 6) data) (m := s.meet) (kept.trans wrote) ?_ fun _ => ⟨mem, o, ?_⟩
  · show execCopy r n data errs s = _
    rw [execCopy, Starts.meets h]
    dsimp only
    rw [if_neg (show ¬ ((s.meeting errs).begun d).heldAt (d.le 0x18 6) (d.le 0x20 4) = true from Bool.eq_false_iff.1 free), if_pos dir,
      ← fits, List.take_length, fits, ← hv, State.writeLocal_plain (g := g) plain (by subst hv; rw [fits]; exact region)]
  · show (v.putBytes (d.le 0x18 6) data).out = _
    rw [out, hv]
    exact List.append_assoc ..

theorem exec_copy_out (dir : d.bits 8 1 0 0 = 1) (region : s.copyRegion x (d.le 0x18 6) (d.le 0x20 4) false = some g)
    (sound : ((((s.meeting errs).begun d).chargeReads (d.le 0x18 6) (d.le 0x20 4)).decodeGrans (granules (d.le 0x18 6) (d.le 0x20 4))).1 = []) :
    ∃ t : State, exec (.copy r n data errs) s = .next t ∧ Completed r d stOk 0 0 0 s t ∧ t.mem = s.mem ∧
      ∃ o, t.out = o ++ [.hostWrite (s.ctx x).fn (d.le 0x10 8) (s.mem.readRun (d.le 0x18 6) (d.le 0x20 4))] := by
  have read := State.readLocal_sound (s := (s.meeting errs).begun d) plain region sound
  have kept := ((RingsKept.charge ((s.meeting errs).begun d) (d.le 0x18 6) (d.le 0x20 4) _ 64).trans
    (.decodeGrans (((s.meeting errs).begun d).chargeReads (d.le 0x18 6) (d.le 0x20 4)) (granules (d.le 0x18 6) (d.le 0x20 4))))
  have mem := ((((s.meeting errs).begun d).charge_tier (d.le 0x18 6) (d.le 0x20 4) _ 64).trans
    ((((s.meeting errs).begun d).chargeReads (d.le 0x18 6) (d.le 0x20 4)).decodeGrans_tier (granules (d.le 0x18 6) (d.le 0x20 4)))).mem
  generalize ((((s.meeting errs).begun d).chargeReads (d.le 0x18 6) (d.le 0x20 4)).decodeGrans (granules (d.le 0x18 6) (d.le 0x20 4))).2 = v
    at read kept mem
  replace kept := (RingsKept.starting s errs d).trans kept
  have sent := Starts.hostWrite_eq h kept (d.le 0x10 8) (s.mem.readRun (d.le 0x18 6) (d.le 0x20 4))
  refine Starts.gives h (m := s.meet) (kept.trans (.hostWrite v x (d.le 0x10 8) (s.mem.readRun (d.le 0x18 6) (d.le 0x20 4)))) ?_ fun _ => ⟨?_, ?_⟩
  · show execCopy r n data errs s = _
    rw [execCopy, Starts.meets h]
    dsimp only
    rw [if_neg (show ¬ ((s.meeting errs).begun d).heldAt (d.le 0x18 6) (d.le 0x20 4) = true from Bool.eq_false_iff.1 free),
      if_neg (by rw [dir]; decide), read]
    rfl
  · rw [sent]; exact mem
  · rw [sent]; exact ⟨v.out, rfl⟩

theorem exec_copy_bad (dir : d.bits 8 1 0 0 = 1) (region : s.copyRegion x (d.le 0x18 6) (d.le 0x20 4) false = some g)
    (bad : ((((s.meeting errs).begun d).chargeReads (d.le 0x18 6) (d.le 0x20 4)).decodeGrans (granules (d.le 0x18 6) (d.le 0x20 4))).1 ≠ []) :
    ∃ t : State, exec (.copy r n data errs) s = .next t ∧ Completed r d stWeightPoison 0 0 0 s t ∧ t.mem = s.mem := by
  obtain ⟨t, fails, kept, mem⟩ := State.readLocal_bad (s := (s.meeting errs).begun d) plain region bad
  refine Starts.gives h (u := t) (m := s.meet) ((RingsKept.starting s errs d).trans kept) ?_ fun _ => mem
  show execCopy r n data errs s = _
  rw [execCopy, Starts.meets h]
  dsimp only
  rw [if_neg (show ¬ ((s.meeting errs).begun d).heldAt (d.le 0x18 6) (d.le 0x20 4) = true from Bool.eq_false_iff.1 free),
    if_neg (by rw [dir]; decide), fails]

end

end

end Sys2Proof.Machine
end

section
/-! PROOF. Loads of a core's banks and data memory, regions, windows and tables (O39). -/

namespace Sys2Proof.Machine

open Sys2Proof.Safety

/- Words written at consecutive keys. -/

theorem SMap.get_setAll_zipIdx {α β : Type} [DecidableEq α] {e : Nat → α} (g : β → α) (off : Nat) (l : List β) {m : SMap α}
    (hm : SMap.wf e m = true) (j a : Nat) :
    SMap.get e (SMap.setAll e m ((l.zipIdx j).map fun p => (off + p.2, g p.1))) a =
      if h : off + j ≤ a ∧ a < off + j + l.length then g (l[a - (off + j)]'(by omega)) else SMap.get e m a := by
  induction l generalizing m j with
  | nil => rw [dif_neg (by rw [List.length_nil]; omega)]; rfl
  | cons b l ih =>
    have step : SMap.setAll e m (((b :: l).zipIdx j).map fun p => (off + p.2, g p.1)) =
        SMap.setAll e (SMap.set e m (off + j) (g b)) ((l.zipIdx (j + 1)).map fun p => (off + p.2, g p.1)) := rfl
    rw [step, ih (SMap.set_wf hm _ _), SMap.get_set hm]
    by_cases first : a = off + j
    · subst first
      rw [dif_neg (by omega), if_pos rfl, dif_pos (by simp only [List.length_cons]; omega)]
      simp only [Nat.sub_self, List.getElem_cons_zero]
    · by_cases later : off + (j + 1) ≤ a ∧ a < off + (j + 1) + l.length
      · have at' : a - (off + j) = a - (off + (j + 1)) + 1 := by omega
        rw [dif_pos later, dif_pos (by simp only [List.length_cons]; omega)]
        simp only [at', List.getElem_cons_succ]
      · rw [dif_neg later, if_neg first, dif_neg (by simp only [List.length_cons]; omega)]

theorem chunks_eq {α : Type} {n : Nat} (pos : 0 < n) (k : Nat) {l : List α} (h : l.length = n * k) :
    chunks n k l = (List.range k).map fun i => (l.drop (n * i)).take n := by
  induction k generalizing l with
  | zero => rfl
  | succ k ih =>
    have some' : l.isEmpty = false := by
      cases l with
      | nil => simp only [List.length_nil] at h; exact absurd h.symm (Nat.mul_ne_zero (by omega) (by omega))
      | cons => rfl
    have rest : (l.drop n).length = n * k := by rw [List.length_drop, h, Nat.mul_succ]; omega
    rw [chunks, some', List.range_succ_eq_map, List.map_cons, List.map_map]
    show _ :: chunks n k (l.drop n) = _
    rw [ih rest]
    refine congrArg₂ _ (by simp) (List.map_congr_left fun i _ => ?_)
    rw [List.drop_drop, Function.comp_apply, Nat.mul_succ, Nat.add_comm]

section
variable {r : Fin 256} {n : Nat} {x : Fin 64} {d : DescRef} {data : List Byte} {s : State} {c : Fin 192}

/-- A row that meets no granule and completes its descriptor on `u`. -/
theorem Starts.completes {type : Nat} {u : State} {i : Instr} {P : State → Prop} {st : Byte} (h : Starts r n type x d s) (kept : RingsKept s u)
    (run : exec i s = .next (u.complete d st 0 0 0)) (same : ∀ cqs, P { u with cqs := cqs }) :
    ∃ t, exec i s = .next t ∧ Completed r d st 0 0 0 s t ∧ P t :=
  Starts.gives h kept (m := u.meet) (by rw [run, Starts.complete_eq h kept]; rfl) same

/-- The bank that an IMEM_LOAD names. -/
def Core.bankOf (k : Core) (d : DescRef) : SMap Word := if d.bits 9 1 0 0 = 0 then k.imem0 else k.imem1

theorem Core.bankOf_loadBank (k : Core) (d : DescRef) (off : Nat) (ws : List Nat) : (k.loadBank (d.bits 9 1 0 0) off ws).bankOf d =
    SMap.setAll (fun _ => 0) (k.bankOf d) (ws.zipIdx.map fun p => (off + p.2, BitVec.ofNat 32 p.1)) := by
  unfold Core.loadBank Core.bankOf
  split <;> rfl

theorem exec_imemLoad (h : Starts r n 0x11 x d s) (core : coreOf? (d.le 8 1) = some c) (fits : data.length = 4 * d.bits 0x0C 2 14 0)
    (wf : SMap.wf (fun _ => (0 : Word)) ((s.core c).bankOf d) = true) :
    ∃ t, exec (.imemLoad r n data) s = .next t ∧ Completed r d stOk 0 0 0 s t ∧ (t.mem = s.mem ∧ ∀ k, k ≠ c → t.core k = s.core k) ∧
      (∀ i < d.bits 0x0C 2 14 0, SMap.get (fun _ => 0) ((t.core c).bankOf d) (d.bits 0x0A 2 13 0 + i) =
        BitVec.ofNat 32 (leNat ((data.drop (4 * i)).take 4))) ∧
      ∀ i, (i < d.bits 0x0A 2 13 0 ∨ d.bits 0x0A 2 13 0 + d.bits 0x0C 2 14 0 ≤ i) →
        SMap.get (fun _ => 0) ((t.core c).bankOf d) i = SMap.get (fun _ => 0) ((s.core c).bankOf d) i := by
  let ws := (List.range (d.bits 0x0C 2 14 0)).map fun i => leNat ((data.drop (4 * i)).take 4)
  let u := ((s.begun d).hostRead x (d.le 0x10 8) (4 * d.bits 0x0C 2 14 0)).modCore c fun k => k.loadBank (d.bits 9 1 0 0) (d.bits 0x0A 2 13 0) ws
  have kept : RingsKept s u := ((RingsKept.begun s d).trans (.hostRead ..)).trans (.modCore _ c _)
  have words : (chunks 4 (d.bits 0x0C 2 14 0) (data.take (4 * d.bits 0x0C 2 14 0))).map leNat = ws := by
    rw [← fits, List.take_length, chunks_eq (by decide) _ fits, List.map_map]; rfl
  have bank : (u.core c).bankOf d = _ :=
    (congrArg (Core.bankOf · d) (State.core_modCore_same ..)).trans ((s.core c).bankOf_loadBank d (d.bits 0x0A 2 13 0) ws)
  have loaded (a : Nat) := SMap.get_setAll_zipIdx (BitVec.ofNat 32) (d.bits 0x0A 2 13 0) ws wf 0 a
  rw [← bank] at loaded
  have length : ws.length = d.bits 0x0C 2 14 0 := by simp [ws]
  refine Starts.completes h kept ?_ fun cqs => ⟨⟨rfl, fun k ne => ?_⟩, fun i small => ?_, fun i outside => ?_⟩
  · show execImemLoad r n data s = _
    rw [execImemLoad, Starts.runsHost h]
    dsimp only
    rw [core]
    dsimp only
    rw [words]
  · show u.core k = s.core k
    exact State.core_modCore_other _ _ ne
  · refine (loaded _).trans ((dif_pos (by omega)).trans ?_)
    simp [ws]
  · exact (loaded _).trans (dif_neg (by omega))

theorem exec_dmemLoad (h : Starts r n 0x12 x d s) (core : coreOf? (d.le 8 1) = some c) (wf : (s.core c).dmem.wf = true)
    (fits : data.length = d.bits 0x18 4 17 0) :
    ∃ t, exec (.dmemLoad r n data) s = .next t ∧ Completed r d stOk 0 0 0 s t ∧ (t.mem = s.mem ∧ ∀ k, k ≠ c → t.core k = s.core k) ∧
      (∀ i < data.length, (t.core c).dmem.read (d.bits 0x0C 4 16 0 + i) = data.getD i 0) ∧
      ∀ a, (a < d.bits 0x0C 4 16 0 ∨ d.bits 0x0C 4 16 0 + data.length ≤ a) → (t.core c).dmem.read a = (s.core c).dmem.read a := by
  let u := ((s.begun d).hostRead x (d.le 0x10 8) (d.bits 0x18 4 17 0)).modCore c fun k =>
    { k with dmem := k.dmem.writeRun (d.bits 0x0C 4 16 0) data }
  have kept : RingsKept s u := ((RingsKept.begun s d).trans (.hostRead ..)).trans (.modCore _ c _)
  have dmem : (u.core c).dmem = (s.core c).dmem.writeRun (d.bits 0x0C 4 16 0) data := congrArg Core.dmem (State.core_modCore_same ..)
  have loaded (a : Nat) := Memory.read_writeRun wf (d.bits 0x0C 4 16 0) data a
  rw [← dmem] at loaded
  refine Starts.completes h kept ?_ fun cqs => ⟨⟨rfl, fun k ne => ?_⟩, fun i small => ?_, fun i outside => ?_⟩
  · show execDmemLoad r n data s = _
    rw [execDmemLoad, Starts.runsHost h]
    dsimp only
    rw [core]
    dsimp only
    rw [← fits, List.take_length, fits]
  · show u.core k = s.core k
    exact State.core_modCore_other _ _ ne
  · refine (loaded _).trans ((if_pos (by omega)).trans ?_)
    rw [Nat.add_sub_cancel_left]
  · exact (loaded _).trans (if_neg (by omega))

end

end Sys2Proof.Machine
end

section
/-! PROOF. Regions, windows and table loads, and the settlement of O39. -/

namespace Sys2Proof.Machine

open Sys2Proof.Safety

/- The contents of a region that opens (R224, R237). -/

/-- `n` bytes: those given, and zeros. -/
def padded (data : List Byte) (n : Nat) : List Byte := data.take n ++ List.replicate (n - (data.take n).length) 0

theorem padded_length (data : List Byte) (n : Nat) : (padded data n).length = n := by
  simp only [padded, List.length_append, List.length_take, List.length_replicate]; omega

theorem padded_getD {data : List Byte} {n i : Nat} (h : i < n) : (padded data n).getD i 0 = data.getD i 0 := by
  unfold padded
  by_cases given : i < data.length
  · rw [List.getD_append _ _ _ _ (by rw [List.length_take]; omega)]
    simp [List.getD_eq_getElem?_getD, h]
  · rw [List.getD_append_right _ _ _ _ (by rw [List.length_take]; omega), List.getD_eq_default data 0 (by omega)]
    simp only [List.getD_eq_getElem?_getD, List.getElem?_replicate]
    split <;> rfl

/-- What no step of a fold changes, the fold does not change. -/
theorem State.foldl_keeps {α β : Type} (p : State → β) {f : State → α → State} (h : ∀ s a, p (f s a) = p s) (l : List α) (s : State) :
    p (l.foldl f s) = p s := by
  induction l generalizing s with
  | nil => rfl
  | cons a l ih => exact (ih _).trans (h s a)

theorem State.putFull_regions (s : State) (a : Nat) (bs : List Byte) : (s.putFull a bs).regions = s.regions := by
  obtain ⟨only, -⟩ := s.putFull_shape a bs
  unfold MemOnly TierOnly at only
  rw [only]

theorem State.fillContents_regions (s : State) (g : Region) (bs : List Byte) : (s.fillContents g bs).regions = s.regions := by
  unfold State.fillContents
  extract_lets s1 one
  have wrote : s1.regions = s.regions := State.putFull_regions ..
  split
  · exact wrote
  · refine (State.foldl_keeps State.regions (fun s i => ?_) _ s1).trans wrote
    unfold one
    extract_lets slot t s2 h code
    show s2.regions = s.regions
    unfold s2
    split
    · show ({ s with meet := { s.meet with paid := true } }.storeTile slot t).regions = s.regions
      exact State.putFull_regions ..
    · rfl

theorem State.fillContents_mem (s : State) {g : Region} (near : g.kind ≠ 3) (bs : List Byte) :
    (s.fillContents g bs).mem = s.mem.writeRun g.base bs := by
  unfold State.fillContents
  extract_lets s1 one
  have wrote : s1.mem = s.mem.writeRun g.base bs := (s.putFull_shape g.base bs).2
  split
  · exact wrote
  · refine (State.foldl_keeps State.mem (fun s i => ?_) _ s1).trans wrote
    unfold one
    extract_lets slot t s2 h code
    show s2.mem = s.mem
    unfold s2
    rw [if_neg near]

theorem State.fillReads_keeps (s : State) (x : Fin 64) (d : DescRef) (g : Region) :
    (s.fillReads x d g).mem = s.mem ∧ (s.fillReads x d g).regions = s.regions := by
  unfold State.fillReads
  split
  · exact ⟨rfl, rfl⟩
  · split <;> exact ⟨rfl, rfl⟩

section
variable {r : Fin 256} {n : Nat} {x : Fin 64} {d : DescRef} {data : List Byte} {errs : List GranErr} {s : State} {g : Region}

theorem exec_regionOpen_zero (h : Starts r n 0x20 x d s) (wf : s.mem.wf = true) (hg : regionOf x d = g) (fill : d.bits 8 1 6 5 = 0) :
    ∃ t, exec (.regionOpen r n data) s = .next t ∧ Completed r d stOk 0 0 0 s t ∧ t.regions = s.regions ++ [g] ∧
      MemOutside g.base g.bytes s t ∧ ∀ i < g.bytes, t.mem.read (g.base + i) = 0 := by
  let w : State := { s.begun d with regions := s.regions ++ [g] }
  have kept : RingsKept s (w.zero g.base g.bytes) :=
    ((RingsKept.begun s d).trans (.of_eq (t := w) rfl rfl rfl rfl rfl rfl)).trans (.zero w g.base g.bytes)
  obtain ⟨-, reads⟩ := State.zero_mem (s := w) wf g.base g.bytes
  refine Starts.completes h kept ?_ fun _ => ⟨rfl, fun b outside => (reads b).trans (if_neg (by omega)), fun i inside =>
    (reads _).trans (if_pos (by omega))⟩
  show execRegionOpen r n data s = _
  rw [execRegionOpen, Starts.runsHost h]
  dsimp only
  rw [if_pos fill, hg]
  rfl

theorem exec_regionOpen_filled (h : Starts r n 0x20 x d s) (wf : s.mem.wf = true) (hg : regionOf x d = g) (fill : d.bits 8 1 6 5 ≠ 0) :
    ∃ t, exec (.regionOpen r n data) s = .next t ∧ Completed r d stOk 0 0 0 s t ∧ t.regions = s.regions ++ [g] ∧
      (g.kind ≠ 3 → MemOutside g.base g.bytes s t ∧ ∀ i < g.bytes, t.mem.read (g.base + i) = data.getD i 0) := by
  let w : State := { s.begun d with regions := s.regions ++ [g] }
  let v := w.fillReads x d g
  let u := v.fillContents g (padded data g.bytes)
  have kept : RingsKept s u :=
    (((RingsKept.begun s d).trans (.of_eq (t := w) rfl rfl rfl rfl rfl rfl)).trans (.fillReads w x d g)).trans (.fillContents v g _)
  obtain ⟨mem, regions⟩ := w.fillReads_keeps x d g
  have reads (near : g.kind ≠ 3) (b : Nat) : u.mem.read b = _ :=
    (congrArg (Memory.read · b) ((v.fillContents_mem near _).trans (congrArg (Memory.writeRun · _ _) mem))).trans
      (Memory.read_writeRun wf g.base (padded data g.bytes) b)
  rw [padded_length] at reads
  refine Starts.completes h kept ?_ fun _ => ⟨(v.fillContents_regions g _).trans regions, fun near => ⟨fun b outside => ?_, fun i inside => ?_⟩⟩
  · show execRegionOpen r n data s = _
    rw [execRegionOpen, Starts.runsHost h]
    dsimp only
    rw [if_neg fill, hg]
    rfl
  · exact (reads near b).trans (if_neg (by omega))
  · refine (reads near _).trans ((if_pos (by omega)).trans ?_)
    rw [Nat.add_sub_cancel_left, padded_getD inside]

theorem exec_regionOpen (h : Starts r n 0x20 x d s) (wf : s.mem.wf = true) (hg : regionOf x d = g) :
    ∃ t, exec (.regionOpen r n data) s = .next t ∧ Completed r d stOk 0 0 0 s t ∧ t.regions = s.regions ++ [g] ∧
      (d.bits 8 1 6 5 = 0 ∨ g.kind ≠ 3 → MemOutside g.base g.bytes s t ∧
        ∀ i < g.bytes, t.mem.read (g.base + i) = if d.bits 8 1 6 5 = 0 then 0 else data.getD i 0) := by
  by_cases fill : d.bits 8 1 6 5 = 0
  · obtain ⟨t, run, completed, regions, outside, inside⟩ := exec_regionOpen_zero (data := data) h wf hg fill
    exact ⟨t, run, completed, regions, fun _ => ⟨outside, fun i small => (inside i small).trans (if_pos fill).symm⟩⟩
  · obtain ⟨t, run, completed, regions, filled⟩ := exec_regionOpen_filled (data := data) h wf hg fill
    refine ⟨t, run, completed, regions, fun near => ?_⟩
    obtain ⟨outside, inside⟩ := filled (near.resolve_left fill)
    exact ⟨outside, fun i small => (inside i small).trans (if_neg fill).symm⟩

/-- A close is asked for: the region named keeps its descriptor, and the others stay (R227). -/
theorem exec_regionClose (h : Starts r n 0x21 x d s) : ∃ t, exec (.regionClose r n) s = .next t ∧ t.mem = s.mem ∧ t.cqs = s.cqs ∧
    (∀ g ∈ s.regions, g.base = d.le 0x10 6 → g.ctx = x.val → { g with closing := some d } ∈ t.regions) ∧
    ∀ g ∈ s.regions, (g.base ≠ d.le 0x10 6 ∨ g.ctx ≠ x.val) → g ∈ t.regions := by
  let mark (g : Region) : Region := if g.base = d.le 0x10 6 ∧ g.ctx = x.val then { g with closing := some d } else g
  have run : execRegionClose r n s = .next { s.begun d with regions := s.regions.map mark } := Starts.runs h _
  refine ⟨_, run, rfl, rfl, fun g mem base ctx => ?_, fun g mem other => ?_⟩
  · exact List.mem_map.2 ⟨g, mem, if_pos ⟨base, ctx⟩⟩
  · exact List.mem_map.2 ⟨g, mem, if_neg fun named => other.elim (· named.1) (· named.2)⟩

/- REGION_FLUSH (R239, R409). -/

section
variable (h : Starts r n 0x22 x d s) (named : s.namedRegion x (d.le 0x10 6) = some g)
include h named

/-- A flush writes back unless a draining snapshot holds it, and completes when nothing is left. -/
theorem exec_regionFlush_eq : exec (.regionFlush r n errs) s = .next { (if s.drainHolds g then ((s.meeting errs).begun d).setWaits d true
    else if (((s.meeting errs).begun d).flushRegion g).flushed g then (((s.meeting errs).begun d).flushRegion g).complete d stOk 0 0 0
    else (((s.meeting errs).begun d).flushRegion g).setWaits d true) with meet := s.meet } := by
  show execRegionFlush r n errs s = _
  rw [execRegionFlush, Starts.meetsDesc h]
  dsimp only
  rw [show ((s.meeting errs).begun d).namedRegion x (d.le 0x10 6) = some g from named]
  rfl

theorem exec_regionFlush_held (holds : s.drainHolds g = true) : ∃ t : State, exec (.regionFlush r n errs) s = .next t ∧ t.cqs = s.cqs ∧
    (∀ o ∈ (t.sq r).out, o.ref.idx = d.idx → o.waits = true) ∧ t.mem = s.mem ∧ t.dir = s.dir := by
  refine Starts.waits h (u := (s.meeting errs).begun d) (m := s.meet) (.starting s errs d) ?_ fun _ => ⟨rfl, rfl⟩
  rw [exec_regionFlush_eq h named, if_pos holds]

variable (free : s.drainHolds g = false)
include free

theorem exec_regionFlush_done (done : (((s.meeting errs).begun d).flushRegion g).flushed g = true) :
    ∃ t, exec (.regionFlush r n errs) s = .next t ∧ Completed r d stOk 0 0 0 s t ∧ t.dirtySlots g = [] ∧
      t.mem = (((s.meeting errs).begun d).flushRegion g).mem := by
  refine Starts.gives h (u := ((s.meeting errs).begun d).flushRegion g) (m := s.meet) ((RingsKept.starting s errs d).trans (.flushRegion ..)) ?_
    fun _ => ⟨?_, rfl⟩
  · rw [exec_regionFlush_eq h named, if_neg (Bool.eq_false_iff.1 free), if_pos done]
  · rw [State.flushed, Bool.and_eq_true] at done
    exact List.isEmpty_iff.1 done.1

theorem exec_regionFlush_waits (left : (((s.meeting errs).begun d).flushRegion g).flushed g = false) :
    ∃ t : State, exec (.regionFlush r n errs) s = .next t ∧ t.cqs = s.cqs ∧ (∀ o ∈ (t.sq r).out, o.ref.idx = d.idx → o.waits = true) ∧
      t.mem = (((s.meeting errs).begun d).flushRegion g).mem := by
  refine Starts.waits h (u := ((s.meeting errs).begun d).flushRegion g) (m := s.meet) ((RingsKept.starting s errs d).trans (.flushRegion ..)) ?_
    fun _ => rfl
  rw [exec_regionFlush_eq h named, if_neg (Bool.eq_false_iff.1 free), if_neg (Bool.eq_false_iff.1 left)]

end

/- Windows (R277, R279). -/

theorem exec_windowOpen (h : Starts r n 0x24 x d s) : ∃ t, exec (.windowOpen r n) s = .next t ∧ Completed r d stOk 0 0 0 s t ∧ t.mem = s.mem ∧
    ∃ w, t.windows = s.windows ++ [w] ∧ w.ctx = x.val ∧ w.id = d.bits 8 2 11 0 ∧ w.gen = d.bits 0x0C 4 19 0 ∧ w.base = d.le 0x10 6 ∧
      w.size = 4096 * d.le 0x18 3 ∧ w.target = d.bits 0x0A 1 2 0 := by
  let w : Window :=
    { id := d.bits 8 2 11 0, gen := d.bits 0x0C 4 19 0, ctx := x.val, base := d.le 0x10 6, size := d.le 0x18 3 * 4096,
      target := d.bits 0x0A 1 2 0, op := d.bits 0x0A 1 4 3, fmt := d.le 0x0B 1, read := bitOf (d.le 0x0A 1) 5 }
  let u : State := { s.begun d with windows := s.windows ++ [w] }
  have kept : RingsKept s u := (RingsKept.begun s d).trans (.of_eq rfl rfl rfl rfl rfl rfl)
  have run : execWindowOpen r n s = .next (u.complete d stOk 0 0 0) := Starts.runs h _
  exact Starts.completes h kept run fun _ => ⟨rfl, w, rfl, rfl, rfl, rfl, rfl, Nat.mul_comm .., rfl⟩

/-- The window, closing for descriptor `d` if it is the one named. -/
def Window.marked (d : DescRef) (v : Window) : Window := if v.id = d.bits 8 2 11 0 then { v with closing := some d } else v

theorem Window.marked_id (d : DescRef) (v : Window) : (v.marked d).id = v.id := by
  unfold Window.marked; split <;> rfl

theorem Window.marked_named {v : Window} (named : v.id = d.bits 8 2 11 0) : v.marked d = { v with closing := some d } := if_pos named

/-- The state in which a WINDOW_CLOSE has marked its window. -/
def State.windowMarked (s : State) (d : DescRef) : State := { s.begun d with windows := s.windows.map (Window.marked d) }

/-- Only the window named may close, and only when no packet holds it. -/
theorem State.windowMarked_settling {w : Window} (named : s.windows.filter (fun v => v.id == d.bits 8 2 11 0) = [w])
    (opened : ∀ v ∈ s.windows, v.closing = none) :
    (s.windowMarked d).windows.filter (fun v => v.closing.isSome && !(s.windowMarked d).windowBusy v) =
      if s.windowBusy w then [] else [w.marked d] := by
  have settles : ∀ v ∈ s.windows, ((v.marked d).closing.isSome && !(s.windowMarked d).windowBusy (v.marked d)) =
      (!s.windowBusy v && v.id == d.bits 8 2 11 0) := fun v mem => by
    have busy : (s.windowMarked d).windowBusy (v.marked d) = s.windowBusy v := by
      show (s.inbox.any fun p => (p.passed.map (·.id)) == some (v.marked d).id) = _
      rw [Window.marked_id]
      rfl
    rw [busy]
    by_cases named : v.id = d.bits 8 2 11 0
    · simp [Window.marked_named named, named]
    · simp [Window.marked, named, opened v mem]
  show (s.windows.map (Window.marked d)).filter _ = _
  have picked : s.windows.filter ((fun v => v.closing.isSome && !(s.windowMarked d).windowBusy v) ∘ Window.marked d) =
      s.windows.filter fun v => !s.windowBusy v && v.id == d.bits 8 2 11 0 := List.filter_congr settles
  rw [List.filter_map, picked, ← List.filter_filter, named]
  cases busy : s.windowBusy w <;> simp [busy]

section
variable {w : Window} (h : Starts r n 0x25 x d s) (named : s.windows.filter (fun v => v.id == d.bits 8 2 11 0) = [w])
  (opened : ∀ v ∈ s.windows, v.closing = none)
include h named opened

theorem exec_windowClose_busy (busy : s.windowBusy w = true) : ∃ t : State, exec (.windowClose r n) s = .next t ∧ t.cqs = s.cqs ∧ t.mem = s.mem ∧
    { w with closing := some d } ∈ t.windows := by
  have mem : w ∈ s.windows.filter fun v => v.id == d.bits 8 2 11 0 := by rw [named]; exact List.mem_singleton_self w
  obtain ⟨mem, isNamed⟩ := List.mem_filter.1 mem
  have run : execWindowClose r n s = .next (s.windowMarked d).settleWindows := Starts.runs h _
  have settled : (s.windowMarked d).settleWindows = s.windowMarked d := by
    rw [State.settleWindows, State.windowMarked_settling named opened, if_pos busy]; rfl
  rw [settled] at run
  exact ⟨_, run, rfl, rfl, List.mem_map.2 ⟨w, mem, Window.marked_named (beq_iff_eq.1 isNamed)⟩⟩

theorem exec_windowClose_free (free : s.windowBusy w = false) : ∃ t, exec (.windowClose r n) s = .next t ∧ Completed r d stOk 0 0 0 s t ∧
    t.mem = s.mem ∧ t.windows = s.windows.filter fun v => v.id != d.bits 8 2 11 0 := by
  have mem : w ∈ s.windows.filter fun v => v.id == d.bits 8 2 11 0 := by rw [named]; exact List.mem_singleton_self w
  obtain ⟨-, isNamed⟩ := List.mem_filter.1 mem
  have marked : w.marked d = { w with closing := some d } := Window.marked_named (beq_iff_eq.1 isNamed)
  have run : execWindowClose r n s = .next (s.windowMarked d).settleWindows := Starts.runs h _
  have settled : (s.windowMarked d).settleWindows = ((s.windowMarked d).dropWindow { w with closing := some d }).complete d stOk 0 0 0 := by
    rw [State.settleWindows, State.windowMarked_settling named opened, if_neg (Bool.eq_false_iff.1 free), marked]; rfl
  rw [settled] at run
  have kept : RingsKept s ((s.windowMarked d).dropWindow { w with closing := some d }) :=
    (RingsKept.begun s d).trans (.of_eq rfl rfl rfl rfl rfl rfl)
  refine Starts.completes h kept run fun _ => ⟨rfl, ?_⟩
  show (s.windows.map (Window.marked d)).filter (fun v => v.id != w.id) = _
  have others : ∀ v ∈ s.windows.filter (fun v => v.id != d.bits 8 2 11 0), v.marked d = v := fun v mem =>
    if_neg fun named => by simp [named] at mem
  rw [List.filter_map, beq_iff_eq.1 isNamed]
  simp only [Function.comp_def, Window.marked_id]
  exact (List.map_congr_left others).trans (List.map_id _)

end

/- Table loads (R299, R301). -/

theorem exec_tableLoad (h : Starts r n 0x28 x d s) :
    let layers := d.bits 0x18 2 12 0
    let entries := chunks 128 layers (data.take (128 * layers))
    let rules := chunks 64 (d.bits 0x1A 2 12 0) (data.drop (128 * layers))
    ∃ t, exec (.tableLoad r n data) s = .next t ∧ Completed r d (s.tableStatus entries rules) 0 0 0 s t ∧
      t.layerTab = s.layerTab ∧ t.ruleTab = s.ruleTab ∧ t.layers = s.layers ∧
      t.nextTabs = if s.tableStatus entries rules = stOk then some (asTable entries, asTable rules) else s.nextTabs := by
  intro layers entries rules
  let v := (s.begun d).hostRead x (d.le 0x10 8) (128 * layers + 64 * d.bits 0x1A 2 12 0)
  let u : State := if s.tableStatus entries rules = stOk then { v with nextTabs := some (asTable entries, asTable rules) } else v
  have read : RingsKept s v := (RingsKept.begun s d).trans (.hostRead ..)
  have kept : RingsKept s u := .ite (read.trans (.of_eq rfl rfl rfl rfl rfl rfl)) read
  have run : execTableLoad r n data s = .next (u.complete d (s.tableStatus entries rules) 0 0 0) := Starts.runsHost h _
  refine Starts.completes h kept run fun _ => ?_
  dsimp only [u]
  split <;> exact ⟨rfl, rfl, rfl, rfl⟩

end

/-- Settles O39: the lemmas above, type by type. -/
theorem loadsRegionsAndWindows : Obligations.LoadsRegionsAndWindows := by
  intro r n x d data errs s wf gives waits begun others
  refine ⟨fun h => ⟨exec_copy_held h, fun g free dir region plain fits => exec_copy_in h free plain wf dir region fits,
      fun g free dir region plain => ⟨exec_copy_out h free plain dir region, exec_copy_bad h free plain dir region⟩⟩,
    fun c h core => fun fits bank => exec_imemLoad h core fits bank, fun c h core dmem fits => exec_dmemLoad h core dmem fits,
    fun h => exec_regionOpen h wf rfl, exec_regionClose,
    fun g h named => ⟨exec_regionFlush_held h named, exec_regionFlush_done h named, exec_regionFlush_waits h named⟩,
    exec_windowOpen, fun w h named opened => ⟨exec_windowClose_busy h named opened, exec_windowClose_free h named opened⟩, exec_tableLoad⟩

end Sys2Proof.Machine
end

section
/-! PROOF. The ways out of hold and UNBIND (O18). -/

namespace Sys2Proof.Machine

/- A core with another port. -/

/-- The core with the port `p`. -/
def Core.withCar (k : Core) (p : Caravan) : Core := { k with car := p }

/-- A RESUME has begun (R195). -/
def Core.resumed (k : Core) : Core := k.withCar { k.car with resuming := true }

/- Who reaches the port (R124, R198). -/

theorem State.coreWrite_reaches {w : Who} {c : Fin 192} {s : State} (owns : s.owns w (s.core c).ctx = true) (role : (s.core c).role ≠ 2)
    (g : Core → Core) : s.coreWrite w c g = .next (s.setCore c (g (s.core c))) := by
  rw [State.coreWrite, owns, bne_iff_ne.2 role]; rfl

/- What each write does to the port (R195, R198). -/

section
variable {k : Core}

theorem Core.carFlush_hold (hold : k.car.state = .hold) :
    k.carFlush = k.withCar { k.car with state := .bound, resuming := false, owed := 0, tiles := [] } := if_pos hold

theorem Core.carFlush_other (other : k.car.state ≠ .hold) : k.carFlush = k := if_neg other

theorem Core.carResume_other (other : k.car.state ≠ .hold) : k.carResume = k := if_neg other

theorem Core.carUnbind_empty (bound : k.car.state = .bound) (empty : k.car.tiles = []) :
    k.carUnbind = k.withCar { inbound := k.car.inbound } := if_pos ⟨bound, empty⟩

theorem Core.carUnbind_other (other : k.car.state ≠ .bound ∨ k.car.tiles ≠ []) : k.carUnbind = k :=
  if_neg fun ⟨bound, empty⟩ => other.elim (· bound) (· empty)

theorem Core.settlePort_owing (owes : k.car.owed ≠ 0) : k.settlePort = k := if_neg fun ⟨_, paid, _⟩ => owes paid

theorem Core.settlePort_paid (resuming : k.car.resuming = true) (paid : k.car.owed = 0) (fresh : ∀ t ∈ k.car.tiles, t.consumed = false) :
    k.settlePort = k.withCar { k.car with state := .bound, resuming := false } :=
  if_pos ⟨resuming, paid, by simpa using fresh⟩

theorem Core.settlePort_still (still : k.car.resuming = false) : k.settlePort = k :=
  if_neg fun ⟨resuming, _⟩ => by simp [still] at resuming

theorem Core.resumeTail_still (still : k.car.resuming = false) : k.resumeTail = k :=
  if_neg fun ⟨resuming, _⟩ => by simp [still] at resuming

theorem Core.resumeTail_forwards (forward : k.car.forward = true) : k.resumeTail = k :=
  if_neg fun ⟨_, last⟩ => by simp [forward] at last

/-- During a RESUME a member that does not forward drops what it owes, as far as tiles have come. -/
theorem Core.resumeTail_drops (resuming : k.car.resuming = true) (last : k.car.forward = false) :
    let ts := k.car.tiles.filter fun t => !t.consumed
    k.resumeTail = k.withCar (if k.car.owed ≤ ts.length
      then { k.car with state := .bound, resuming := false, tiles := ts.drop k.car.owed, owed := 0 }
      else { k.car with tiles := [], owed := k.car.owed - ts.length }) := by
  intro ts
  have drops : k.resumeTail = (k.withCar { k.car with
      tiles := ts.drop (min k.car.owed ts.length), owed := k.car.owed - min k.car.owed ts.length }).settlePort :=
    if_pos ⟨resuming, last⟩
  rw [drops]
  split
  next enough =>
    rw [Nat.min_eq_left enough, Nat.sub_self]
    refine Core.settlePort_paid resuming rfl fun t mem => ?_
    simpa using (List.mem_filter.1 (List.mem_of_mem_drop mem)).2
  next short =>
    have owes : k.car.owed - ts.length ≠ 0 := by omega
    rw [Nat.min_eq_right (by omega), List.drop_length]
    exact Core.settlePort_owing owes

/- RESUME. -/

variable (hold : k.car.state = .hold)
include hold

theorem Core.carResume_hold : k.carResume = k.resumed.resumeTail.settlePort := if_pos hold

/-- A port that forwards and has nothing left to forward is bound again; else it starts to forward. -/
theorem Core.carResume_forwards (forward : k.car.forward = true) : k.carResume = k.resumed.settlePort := by
  rw [Core.carResume_hold hold, Core.resumeTail_forwards (k := k.resumed) forward]

/-- A port that does not forward frees what it owes. -/
theorem Core.carResume_last (last : k.car.forward = false) :
    let ts := k.car.tiles.filter fun t => !t.consumed
    k.carResume = k.withCar (if k.car.owed ≤ ts.length
      then { k.car with state := .bound, resuming := false, tiles := ts.drop k.car.owed, owed := 0 }
      else { k.car with resuming := true, tiles := [], owed := k.car.owed - ts.length }) := by
  intro ts
  have drops := Core.resumeTail_drops (k := k.resumed) rfl last
  change _ = k.withCar (ite (k.car.owed ≤ ts.length) _ _) at drops
  rw [Core.carResume_hold hold, drops]
  split
  next => exact Core.settlePort_still rfl
  next short =>
    have owes : k.car.owed - ts.length ≠ 0 := by omega
    exact Core.settlePort_owing owes

end

/-- Settles O18: a writer that reaches the port does to it what the equations above say. -/
theorem caravanControl : Obligations.CaravanControl := by
  intro w c s owns role k puts
  have reach (g : Core → Core) : s.coreWrite w c g = .next (s.setCore c (g k)) := State.coreWrite_reaches owns role g
  have does {g : Core → Core} {p : Caravan} (h : g k = k.withCar p) : s.coreWrite w c g = puts p := by rw [reach, h]; rfl
  have leaves {g : Core → Core} (h : g k = k) : s.coreWrite w c g = .next s := by rw [reach, h, State.setCore_core]
  refine ⟨fun hold => ⟨?flush, fun forward owes => ?owing, fun forward paid fresh => ?paid, fun last => ?last⟩, ?unbind, ?notHold, ?notUnbound⟩
  case flush => exact does (Core.carFlush_hold hold)
  case owing => exact does ((Core.carResume_forwards hold forward).trans (Core.settlePort_owing owes))
  case paid => exact does ((Core.carResume_forwards hold forward).trans (Core.settlePort_paid rfl paid fresh))
  case last => exact does (Core.carResume_last hold last)
  case unbind => exact fun bound empty => does (Core.carUnbind_empty bound empty)
  case notHold => exact fun other => ⟨leaves (Core.carFlush_other other), leaves (Core.carResume_other other)⟩
  case notUnbound => exact fun other => leaves (Core.carUnbind_other other)

end Sys2Proof.Machine
end

section
/-! PROOF. The tiles of a Caravan port: how they arrive and how they leave (O19). -/

namespace Sys2Proof.Machine

/- Places of the buffer (R193). -/

/-- What the port keeps of the tiles `ts`. -/
def Core.places (k : Core) (ts : List CTile) : List CTile :=
  if k.car.forward = true ∨ k.car.state ≠ .bound then ts
  else if k.consumer = true then ts.filter fun t => !t.consumed else []

theorem Core.freePlaces_eq (k : Core) : k.freePlaces = k.setTiles (k.places k.car.tiles) := by
  unfold Core.freePlaces Core.places
  split
  · rfl
  · split <;> rfl

/-- A consumer keeps what it has still to consume, and all if it forwards. -/
theorem Core.places_consumer {k : Core} (consumer : k.consumer = true) (ts : List CTile) :
    k.places ts = if k.car.forward = true ∨ k.car.state ≠ .bound then ts else ts.filter fun t => !t.consumed := by
  rw [Core.places, if_pos consumer]

/- The wait of an OPX (Table 2.6). -/

@[simp] theorem Core.skewLimit_waited (k : Core) (w : Waits) : (k.waited w).skewLimit = k.skewLimit := by
  simp only [Core.skewLimit, Core.waited, Core.rd_bump_ne _ _ (o := 0x20108) (off := 0x20228) (by decide),
    Core.rd_bump_ne _ _ (o := 0x20108) (off := 0x2022C) (by decide), Core.rd_bump_ne _ _ (o := 0x20108) (off := 0x20624) (by decide),
    Core.rd_bump_ne _ _ (o := 0x20108) (off := 0x20438) (by decide), Core.rd_bump_ne _ _ (o := 0x20108) (off := 0x20618) (by decide)]

@[simp] theorem State.core_skewTime (s : State) (c : Fin 192) (be : Nat) (r : Fin 192) : (s.skewTime c be).core r = s.core r := by
  unfold State.skewTime; split <;> rfl

theorem State.opxOverdue_inTime {s : State} {c : Fin 192} {be : Nat}
    (h : ∀ j f, (s.core c).arrayHead = some (j, f) → j.waiting = true → be < (s.core c).skewLimit) : s.opxOverdue c be = s := by
  unfold State.opxOverdue
  split
  next j f head =>
    split
    · exact if_neg fun late => absurd late.2 (Nat.not_le.2 (h j f head late.1))
    · rfl
  · rfl

/- A tile is present (R193). -/

/-- The core with the tile `t` in the buffer, behind the others. -/
def Core.withTile (k : Core) (t : CTile) : Core := k.setTiles (k.places (k.car.tiles ++ [t]))

theorem Core.tile_joins {k : Core} (still : k.car.resuming = false) (t : CTile) :
    ((k.setTiles (k.car.tiles ++ [t])).freePlaces).resumeTail = k.withTile t := by
  rw [Core.freePlaces_eq]
  exact Core.resumeTail_still still

section
variable {s : State} {c : Fin 192} {be : Nat} (still : (s.core c).car.resuming = false) (t : CTile)
include still

theorem State.tilePresent_idle (idle : ∀ j f, (s.core c).arrayHead = some (j, f) → j.waiting = false) :
    s.tilePresent c t be = (s.setCore c ((s.core c).withTile t)).markLate c := by
  have inTime : s.opxOverdue c be = s := State.opxOverdue_inTime fun j f head waiting => by simp [idle j f head] at waiting
  unfold State.tilePresent
  simp only [inTime, State.modCore_eq, State.core_setCore, Core.tile_joins still]
  split
  next j f head =>
    split
    · exact if_neg (by simp [idle j f head])
    · rfl
  · rfl

theorem State.tilePresent_waiting {j : Job} {f : Frame} {a b : BitVec 8} {kk : BitVec 24} {m : BitVec 4} {bl : Bool} {first s0 s1 : BitVec 16}
    (head : (s.core c).arrayHead = some (j, f)) (waiting : j.waiting = true) (args : j.cmd.args = .opx a b kk m bl first s0 s1)
    (limit : be < (s.core c).skewLimit) : s.tilePresent c t be =
      (((s.setCore c ((s.core c).withTile t)).skewTime c be).modCore c fun k => { k with skewStall := k.skewStall + be }).slotCheck c
        { j with waiting := false } f kk.toNat first.toNat m bl := by
  have inTime : s.opxOverdue c be = s := State.opxOverdue_inTime fun _ _ _ _ => limit
  have head' : ((s.core c).withTile t).arrayHead = some (j, f) := head
  unfold State.tilePresent
  simp only [inTime, State.modCore_eq, State.core_setCore, Core.tile_joins still, head', args, waiting, if_true]

end

/- CARAVAN_TILE_ARRIVE (R191). -/

/-- The next tile has left the mesh, and the wait for it is counted. -/
def Core.delivered (k : Core) (rest : List (Nat × CTile)) (w : Waits) : Core := (k.withCar { k.car with inbound := rest }).waited w

section
variable {c : Fin 192} {w : Waits} {s : State} {src : Nat} {t : CTile} {rest : List (Nat × CTile)} {p : Fin 192}
  (inbound : (s.core c).car.inbound = (src, t) :: rest) (unfenced : (s.core c).car.state ≠ .fenced) (sender : coreOf? src = some p)
include inbound unfenced sender

theorem exec_caravanTileArrive_discards (other : (s.core p).ctx ≠ (s.core c).ctx) :
    exec (.caravanTileArrive c w) s = .next (s.setCore c ((s.core c).withCar { (s.core c).car with inbound := rest })) := by
  show execCaravanTileArrive c w s = _
  simp only [execCaravanTileArrive, inbound, unfenced, sender, beq_false_of_ne other, if_false, Bool.false_and, Bool.false_eq_true]
  rfl

theorem exec_caravanTileArrive_delivers (same : (s.core p).ctx = (s.core c).ctx) (owned : (s.core c).ctx ≠ none) :
    exec (.caravanTileArrive c w) s = .next ((s.setCore c ((s.core c).delivered rest w)).tilePresent c t w.skew) := by
  show execCaravanTileArrive c w s = _
  simp only [execCaravanTileArrive, inbound, unfenced, sender, same, beq_self_eq_true, Option.isSome_iff_ne_none.2 owned, if_false, if_true,
    Bool.and_self, State.modCore_eq, State.core_setCore, State.setCore_setCore]
  rfl

variable (still : (s.core c).car.resuming = false) (same : (s.core p).ctx = (s.core c).ctx) (owned : (s.core c).ctx ≠ none)
include still same owned

/-- With no OPX that waits, the tile joins the buffer. -/
theorem exec_caravanTileArrive_idle (idle : ∀ j f, (s.core c).arrayHead = some (j, f) → j.waiting = false) :
    exec (.caravanTileArrive c w) s = .next ((s.setCore c (((s.core c).delivered rest w).withTile t)).markLate c) := by
  rw [exec_caravanTileArrive_delivers inbound unfenced sender same owned, State.tilePresent_idle]
  · rw [State.core_setCore, State.setCore_setCore]
  · rw [State.core_setCore]; exact still
  · rw [State.core_setCore]; exact idle

/-- An OPX that waits for a tile in tolerant mode checks the one that comes (Table 2.6). -/
theorem exec_caravanTileArrive_waiting {j : Job} {f : Frame} {a b : BitVec 8} {kk : BitVec 24} {m : BitVec 4} {bl : Bool}
    {first s0 s1 : BitVec 16} (head : (s.core c).arrayHead = some (j, f)) (waiting : j.waiting = true)
    (args : j.cmd.args = .opx a b kk m bl first s0 s1) (limit : w.skew < (s.core c).skewLimit) :
    let q := ((s.core c).delivered rest w).withTile t
    ∃ u : State, exec (.caravanTileArrive c w) s =
        .next (u.slotCheck c { j with waiting := false } f kk.toNat first.toNat m bl) ∧
      u.core c = { q with skewStall := (s.core c).skewStall + w.skew } ∧ ∀ d, d ≠ c → u.core d = s.core d := by
  intro q
  refine ⟨((s.setCore c q).skewTime c w.skew).modCore c fun k => { k with skewStall := k.skewStall + w.skew }, ?_, ?_, fun d ne => ?_⟩
  · rw [exec_caravanTileArrive_delivers inbound unfenced sender same owned, State.tilePresent_waiting (j := j) (f := f)]
    · rw [State.core_setCore, State.setCore_setCore]
    · rw [State.core_setCore]; exact still
    · rw [State.core_setCore]; exact head
    · exact waiting
    · exact args
    · rw [State.core_setCore]; exact (Core.skewLimit_waited _ w).symm ▸ limit
  · rw [State.core_modCore_same, State.core_skewTime, State.core_setCore]; rfl
  · rw [State.core_modCore_other _ _ ne, State.core_skewTime, State.core_setCore_ne _ _ _ ne.symm]

end

/-- Of the core only the port and counts have changed, and of the port its tiles and what is on the mesh. -/
theorem Core.delivered_withTile (k : Core) (rest : List (Nat × CTile)) (w : Waits) (t : CTile) :
    let q := (k.delivered rest w).withTile t
    q = { k with regs := q.regs, car := { k.car with inbound := rest, tiles := q.car.tiles } } ∧ q.car.tiles = k.places (k.car.tiles ++ [t]) :=
  ⟨rfl, rfl⟩

/- CARAVAN_FORWARD (R190, R193). -/

/-- From `k` to `q` only counts, the port and the conditions of instances have changed: each instance keeps the status that it is to report. -/
structure PortMoves (k q : Core) : Prop where
  rest : q = { k with regs := q.regs, slots := q.slots, car := q.car, skewStall := q.skewStall }
  insts : ∀ i n, (k.slot i).inst = some n → ∃ n', (q.slot i).inst = some n' ∧ n'.failed = n.failed

namespace PortMoves

theorem refl (k : Core) : PortMoves k k := ⟨rfl, fun _ n h => ⟨n, h, rfl⟩⟩

theorem trans {k q r : Core} (h : PortMoves k q) (h' : PortMoves q r) : PortMoves k r := by
  refine ⟨?_, fun i n hn => ?_⟩
  · rw [h'.rest, h.rest]
  · obtain ⟨n', hn', failed⟩ := h.insts i n hn
    obtain ⟨n'', hn'', failed'⟩ := h'.insts i n' hn'
    exact ⟨n'', hn'', failed'.trans failed⟩

theorem arrayQ {k q : Core} (h : PortMoves k q) : q.arrayQ = k.arrayQ := by rw [h.rest]
theorem sp {k q : Core} (h : PortMoves k q) : q.sp = k.sp := by rw [h.rest]

theorem of_port (k : Core) (m : Regs) (p : Caravan) (n : Nat) : PortMoves k { k with regs := m, car := p, skewStall := n } :=
  ⟨rfl, fun _ n h => ⟨n, h, rfl⟩⟩

theorem withCar (k : Core) (p : Caravan) : PortMoves k (k.withCar p) := .of_port k _ p _
theorem setTiles (k : Core) (ts : List CTile) : PortMoves k (k.setTiles ts) := .of_port k _ _ _
theorem carHold (k : Core) (owed : Nat) : PortMoves k (k.carHold owed) := by
  unfold Core.carHold; split <;> exact .of_port k _ _ _

theorem settlePort (k : Core) : PortMoves k k.settlePort := by
  obtain ⟨car, e⟩ := k.settlePort_shape
  rw [e]; exact .withCar k car

theorem freePlaces (k : Core) : PortMoves k k.freePlaces := by
  obtain ⟨car, e⟩ := k.freePlaces_shape
  rw [e]; exact .withCar k car

theorem condMaskEmpty (k : Core) (i : Fin 8) (b : Bool) : PortMoves k (k.condMaskEmpty i b) :=
  have books : Books k (k.condMaskEmpty i b) := .modInst k i fun _ => ⟨rfl, id⟩
  ⟨rfl, fun i n h => (books.insts i n h).imp fun _ kept => ⟨kept.1, kept.2.1⟩⟩

/-- An update of one core that only moves its port moves, at most, the port of any. -/
theorem modCore {g : Core → Core} (h : ∀ k, PortMoves k (g k)) (s : State) (c r : Fin 192) : PortMoves (s.core r) ((s.modCore c g).core r) := by
  by_cases e : r = c
  · subst e; rw [State.core_modCore_same]; exact h _
  · rw [State.core_modCore_other _ _ e]; exact .refl _

end PortMoves

/-- The port that forwards the tile `t`: its place is free and its transfer counts. -/
def Core.sendsTile (k : Core) (t : CTile) : Core :=
  (((k.withCar { k.car with
    tiles := k.car.tiles.erase t
    owed := if k.car.state = .hold ∧ t.consumed = false then k.car.owed - 1 else k.car.owed }).bump 0x2062C 1).bump64 0x2061C
      (max 1 (ceilDiv t.bytes.length 256))).settlePort

/-- The port towards which core `c` sends the tile `t`. -/
def Core.expectsTile (k : Core) (c : Fin 192) (t : CTile) : Core :=
  k.withCar { k.car with inbound := k.car.inbound ++ [(c.val, { t with consumed := false, forwarded := false })] }

theorem Core.settlePort_tiles (k : Core) : k.settlePort.car.tiles = k.car.tiles := by
  unfold Core.settlePort; split <;> rfl

theorem Core.settlePort_slots (k : Core) : k.settlePort.slots = k.slots := by
  obtain ⟨car, e⟩ := k.settlePort_shape
  rw [e]

theorem Core.sendsTile_tiles (k : Core) (t : CTile) : (k.sendsTile t).car.tiles = k.car.tiles.erase t := Core.settlePort_tiles _

theorem Core.sendsTile_slots (k : Core) (t : CTile) : (k.sendsTile t).slots = k.slots := Core.settlePort_slots _

theorem Core.sendsTile_moves (k : Core) (t : CTile) : PortMoves k (k.sendsTile t) := .trans (.of_port k _ _ _) (.settlePort _)

theorem Core.expectsTile_moves (k : Core) (c : Fin 192) (t : CTile) : PortMoves k (k.expectsTile c t) := .withCar k _

section
variable {s u : State} {c d : Fin 192} {t : CTile}

theorem State.forward_eq (next : (s.core c).nextForward = some t) (target : coreOf? (s.core c).car.next = some d)
    (unfenced : (s.core d).car.state ≠ .fenced) (room : (s.core d).car.tiles.length + (s.core d).car.inbound.length < 4) :
    s.forward c = some ((s.modCore c fun k => k.sendsTile t).modCore d fun k => k.expectsTile c t) := by
  unfold State.forward
  simp only [next, target, unfenced, Nat.not_le.2 room, or_self, if_false]
  rfl

/-- Whatever forwards, of every core only the port moves. -/
theorem State.forward_moves (h : s.forward c = some u) (r : Fin 192) : PortMoves (s.core r) (u.core r) := by
  unfold State.forward at h
  dsimp only at h
  split at h
  next t d _ _ =>
    split at h
    · cases h
    · cases h
      have sends : PortMoves (s.core r) ((s.modCore c fun k => k.sendsTile t).core r) := .modCore (fun k => k.sendsTile_moves t) s c r
      exact sends.trans (.modCore (fun k => k.expectsTile_moves c t) _ d r)
  · cases h

theorem State.forwardConsumed_moves (n : Nat) (s : State) (c r : Fin 192) : PortMoves (s.core r) ((s.forwardConsumed n c).core r) := by
  induction n generalizing s with
  | zero => exact .refl _
  | succ n ih =>
    unfold State.forwardConsumed
    split
    · split
      next u sent => exact (State.forward_moves sent r).trans (ih u)
      · exact .refl _
    · exact .refl _

/-- A tile that the port may forward leaves for NEXT_CORE, and its place is free. -/
theorem exec_caravanForward {w : Waits} (next : (s.core c).nextForward = some t) (target : coreOf? (s.core c).car.next = some d) (ne : d ≠ c)
    (unfenced : (s.core d).car.state ≠ .fenced) (room : (s.core d).car.tiles.length + (s.core d).car.inbound.length < 4) :
    ∃ u, exec (.caravanForward c w) s = .next u ∧ u.core c = ((s.core c).sendsTile t).waited w ∧ u.core d = (s.core d).expectsTile c t ∧
      ∀ q, q ≠ c → q ≠ d → u.core q = s.core q := by
  refine ⟨((s.modCore c fun k => k.sendsTile t).modCore d fun k => k.expectsTile c t).modCore c fun k => k.waited w, ?_, ?_, ?_, fun q qc qd => ?_⟩
  · show execCaravanForward c w s = _
    rw [execCaravanForward, State.forward_eq next target unfenced room]
  · rw [State.core_modCore_same, State.core_modCore_other _ _ ne.symm, State.core_modCore_same]
  · rw [State.core_modCore_other _ _ ne, State.core_modCore_same, State.core_modCore_other _ _ ne]
  · rw [State.core_modCore_other _ _ qc, State.core_modCore_other _ _ qd, State.core_modCore_other _ _ qc]

end

end Sys2Proof.Machine
end

section
/-! PROOF. The slot check of an OPX, what ends a tolerant wait, and with the lemmas above the settlement of O19. -/

namespace Sys2Proof.Machine

/- A head of the array engine that fails (R41, R131). -/

/-- The row `i` fails the job `j` at the head of the array engine with `st`: the job leaves the queue, its instance fails and takes POISONED,
no byte of the scratchpad changes, and `p` holds of the core before what waits starts. -/
def FailsHead (i : Instr) (s : State) (c : Fin 192) (j : Job) (st : Byte) (p : Core → Prop) : Prop :=
  ∃ u : State, exec i s = .next (u.startEngines c) ∧ (u.core c).arrayQ = (s.core c).arrayQ.tail ∧ (u.core c).sp = (s.core c).sp ∧
    p (u.core c) ∧ ∀ n, ((s.core c).slot j.slot).inst = some n → ∃ n' : Inst, ((u.core c).slot j.slot).inst = some n' ∧
      n'.failed = some (n.failed.getD st) ∧ n'.poisoned = true

theorem FailsHead.imp {i : Instr} {s : State} {c : Fin 192} {j : Job} {st : Byte} {p q : Core → Prop} (h : FailsHead i s c j st p)
    (pq : ∀ k, p k → q k) : FailsHead i s c j st q := by
  obtain ⟨u, run, array, sp, after, insts⟩ := h
  exact ⟨u, run, array, sp, pq _ after, insts⟩

/-- What an OPX that fails at a slot check leaves (R41, R194, R195): the live set is poisoned, the port holds for the tiles still owed. -/
def Core.opxEnds (k : Core) (j : Job) (owed : Nat) (st : Byte) : Core :=
  (({ k.carHold owed with live := (k.carHold owed).live.taint st, arrayQ := (k.carHold owed).arrayQ.tail }).condPoisoned j.slot).cmdEnded
    j.slot j.seq 0x01 false st

section
variable {i : Instr} {s v : State} {c : Fin 192} {j : Job} {st : Byte} (ok : st ≠ stOk) (part : st ≠ stPartial)
include ok part

/-- A core `r` without the head, whose instances keep their status, and then the end of the command. -/
theorem FailsHead.of_ended {p : Core → Prop} {r : Core} {opcode : Nat}
    (run : exec i s = .next (v.startEngines c)) (core : v.core c = (r.condPoisoned j.slot).cmdEnded j.slot j.seq opcode false st)
    (array : r.arrayQ = (s.core c).arrayQ.tail) (sp : r.sp = (s.core c).sp)
    (insts : ∀ n, ((s.core c).slot j.slot).inst = some n → ∃ n', (r.slot j.slot).inst = some n' ∧ n'.failed = n.failed)
    (after : ∀ regs slots, p { r with regs := regs, slots := slots }) : FailsHead i s c j st p := by
  obtain ⟨regs, slots, ended⟩ := (r.condPoisoned j.slot).cmdEnded_shape j.slot j.seq opcode false st
  have shape : v.core c = { r with regs := regs, slots := slots } := core.trans ended
  refine ⟨v, run, ?_, ?_, ?_, fun n inst => ?_⟩
  · rw [shape]; exact array
  · rw [shape]; exact sp
  · rw [shape]; exact after regs slots
  · obtain ⟨n', inst', failed⟩ := insts n inst
    have poisoned : ((r.condPoisoned j.slot).slot j.slot).inst = some { n' with poisoned := true } := Core.inst_modInst inst' _
    exact ⟨_, core ▸ Core.cmdEnded_inst poisoned _ _ ok part, by rw [failed], rfl⟩

theorem FailsHead.of_opxEnds {g : Core → Core} {owed : Nat}
    (run : exec i s = .next ((v.modCore c fun k => (g k).opxEnds j owed st).startEngines c)) (moves : PortMoves (s.core c) (g (v.core c))) :
    FailsHead i s c j st fun q => q.skewStall = (g (v.core c)).skewStall := by
  have moved := moves.trans (.carHold (g (v.core c)) owed)
  refine .of_ended ok part run (State.core_modCore_same ..) (congrArg List.tail moved.arrayQ) moved.sp (moved.insts j.slot) fun _ _ => ?_
  show ((g (v.core c)).carHold owed).skewStall = _
  unfold Core.carHold; split <;> rfl

end

/-- An OPX that fails its check, on a core that has moved its port at most. -/
theorem FailsHead.of_opxFail {i : Instr} {s v : State} {c : Fin 192} {j : Job} {f : Frame} {tc : Nat} {wrongTag : Bool} {expected found : Nat}
    (run : exec i s = .next (v.opxFail c j f tc wrongTag expected found)) (moves : PortMoves (s.core c) (v.core c)) :
    FailsHead i s c j stSkew fun q => q.skewStall = (v.core c).skewStall := by
  let mark (t : CTile) : CTile := if t.poison = 0 then { t with poison := stSkew } else t
  obtain ⟨regs, record⟩ := v.core_recordSkew c true f.tolerant wrongTag expected found j.seq
  have failed := FailsHead.of_opxEnds (v := v.recordSkew c true f.tolerant wrongTag expected found j.seq) (st := stSkew) (by decide) (by decide)
    (g := fun k => k.setTiles (modHead mark k.car.tiles)) (owed := tc - j.tile) run ?_
  · rw [record] at failed; exact failed
  · rw [record]
    exact (moves.trans (.of_port _ regs _ _)).trans (.setTiles _ _)

/- The check of tile n, outcome by outcome (R37, R41, R151, R194, Table 2.6). -/

/-- The core whose head tile is consumed; at tile 0 the mask is latched. -/
def Core.consumes (k : Core) (j : Job) (m : BitVec 4) (bl : Bool) : Core :=
  let bits := if j.tile = 0 then k.mask[m.toNat]'m.isLt else j.mask
  let k1 := k.setTiles (modHead (fun t => { t with consumed := true }) k.car.tiles)
  if j.tile = 0 then k1.condMaskEmpty j.slot (MaskSel.none ⟨bits, bl⟩) else k1

theorem Core.consumes_moves (k : Core) (j : Job) (m : BitVec 4) (bl : Bool) : PortMoves k (k.consumes j m bl) := by
  unfold Core.consumes
  dsimp only
  split
  · exact (PortMoves.setTiles k _).trans (.condMaskEmpty _ _ _)
  · exact .setTiles k _

section
variable {s : State} {c : Fin 192} {j : Job} {f : Frame} {kk first : Nat} {m : BitVec 4} {bl : Bool}

theorem State.slotCheck_waits (empty : (s.core c).carHead = none) (later : j.tile ≠ 0) (tolerant : f.tolerant = true) :
    s.slotCheck c j f kk first m bl = s.setCore c { s.core c with arrayQ := { j with waiting := true } :: (s.core c).arrayQ.tail } := by
  simp only [State.slotCheck, empty, later, tolerant, if_false, if_true, State.modCore_eq]

theorem State.slotCheck_late (empty : (s.core c).carHead = none) (later : j.tile ≠ 0) (strict : f.tolerant = false) :
    s.slotCheck c j f kk first m bl = s.opxFail c j f (caravanTiles kk) false ((first + j.tile) % 2 ^ 16) 0xFFFF := by
  simp only [State.slotCheck, empty, later, strict, if_false, Bool.false_eq_true]

variable {t : CTile} (head : (s.core c).carHead = some t)
include head

theorem State.slotCheck_wrongTag (wrong : t.tag.toNat ≠ (first + j.tile) % 2 ^ 16) :
    s.slotCheck c j f kk first m bl = s.opxFail c j f (caravanTiles kk) true ((first + j.tile) % 2 ^ 16) t.tag.toNat := by
  simp only [State.slotCheck, head, if_pos wrong]

variable (right : t.tag.toNat = (first + j.tile) % 2 ^ 16)
include right

theorem State.slotCheck_poisoned (poison : t.poison ≠ 0) : s.slotCheck c j f kk first m bl =
    ((((s.setCore c ((s.core c).consumes j m bl).freePlaces).forwardConsumed 4 c).modCore c fun k =>
      k.opxEnds j (caravanTiles kk - j.tile - 1) t.poison).startEngines c) := by
  simp only [State.slotCheck, head, right, ne_eq, not_true_eq_false, if_false, poison, not_false_eq_true, if_true]
  rfl

theorem State.slotCheck_consumes (clean : t.poison = 0) {ea : BEntry} {rest : List BEntry} (ents : j.ents = ea :: rest) :
    let k := s.core c
    let bits := if j.tile = 0 then k.mask[m.toNat]'m.isLt else j.mask
    let q := (k.consumes j m bl).accumulate f ⟨bits, bl⟩ (opxPositions (k.consumes j m bl) f ea (128 * j.tile) (min 128 (kk - 128 * j.tile))
      fun n e => tileVal f t.bytes n e)
    s.slotCheck c j f kk first m bl = s.setCore c { q.freePlaces with
      arrayQ := { j with tile := j.tile + 1, waiting := false, mask := bits } :: k.arrayQ.tail } := by
  intro k bits q
  have queue : q.freePlaces.arrayQ = k.arrayQ := (PortMoves.freePlaces q).arrayQ.trans (k.consumes_moves j m bl).arrayQ
  simp only [State.slotCheck, head, right, ne_eq, not_true_eq_false, if_false, clean, ents]
  rw [← queue, (PortMoves.freePlaces q).arrayQ]
  rfl

end

/-- A core with a loaded Caravan frame consumes (R193). -/
theorem Core.consumer_of_frame {k : Core} {i : Fin 8} {f : Frame} (frame : k.frame i = some f) (caravan : f.bCaravan = true) :
    k.consumer = true := by
  refine List.any_eq_true.2 ⟨i, List.mem_finRange i, ?_⟩
  rw [frame]; exact caravan

theorem Core.frame_of_arrayHead {k : Core} {j : Job} {f : Frame} (head : k.arrayHead = some (j, f)) : k.frame j.slot = some f := by
  unfold Core.arrayHead at head
  split at head
  · cases head
  · split at head
    · obtain ⟨f', frame, e⟩ := Option.map_eq_some_iff.1 head
      cases e; exact frame
    · cases head

/-- The OPX at the head of the array engine consumes (R37, R193). -/
theorem Core.consumes_consumer {k : Core} {j : Job} {f : Frame} (frame : k.frame j.slot = some f) (caravan : f.bCaravan = true) (m : BitVec 4)
    (bl : Bool) : (k.consumes j m bl).consumer = true := by
  refine Core.consumer_of_frame (i := j.slot) (f := f) ?_ caravan
  unfold Core.consumes
  dsimp only
  split
  · exact (congrArg (fun v : Slot => v.image.map frameOf) (Core.slot_modSlot ..)).trans frame
  · exact frame

/-- Only the tiles and the condition MASK_EMPTY change as a tile is consumed. -/
theorem Core.consumes_shape (k : Core) (j : Job) (m : BitVec 4) (bl : Bool) : ∃ slots, k.consumes j m bl =
    { k.setTiles (modHead (fun t => { t with consumed := true }) k.car.tiles) with slots := slots } := by
  unfold Core.consumes
  dsimp only
  split
  · exact ⟨_, rfl⟩
  · exact ⟨k.slots, rfl⟩

/-- What the consumption of a tile at the head leaves: its place free unless the port forwards, and its products in the live set. -/
theorem Core.consumes_accumulates {k : Core} {j : Job} {f : Frame} (frame : k.frame j.slot = some f) (caravan : f.bCaravan = true) (m : BitVec 4)
    (bl : Bool) (bits : BitVec 128) (ea : BEntry) (n0 n1 : Nat) (val : Nat → Nat → Val) (jobs : List Job) :
    let q := { ((k.consumes j m bl).accumulate f ⟨bits, bl⟩ (opxPositions (k.consumes j m bl) f ea n0 n1 val)).freePlaces with arrayQ := jobs }
    q = { k with
      regs := q.regs, slots := q.slots, car := { k.car with tiles := q.car.tiles }, arrayQ := jobs
      live := k.live.opx (k.shape f) ⟨bits, bl⟩ f.rows f.cols (beatsOf f.isFp32 f.p (opxPositions k f ea n0 n1 val)) } ∧
    q.car.tiles = (let ts := modHead (fun t => { t with consumed := true }) k.car.tiles
      if k.car.forward = true ∨ k.car.state ≠ .bound then ts else ts.filter fun t => !t.consumed) := by
  have consumer := Core.consumes_consumer frame caravan m bl
  obtain ⟨slots, e⟩ := k.consumes_shape j m bl
  have free : ((k.consumes j m bl).accumulate f ⟨bits, bl⟩ (opxPositions (k.consumes j m bl) f ea n0 n1 val)).freePlaces =
      ((k.consumes j m bl).accumulate f ⟨bits, bl⟩ (opxPositions (k.consumes j m bl) f ea n0 n1 val)).setTiles
        ((k.consumes j m bl).places (k.consumes j m bl).car.tiles) := Core.freePlaces_eq _
  rw [free, Core.places_consumer consumer, e]
  exact ⟨rfl, rfl⟩

/- CARAVAN_SLOT_CHECK and SKEW_LIMIT_EXPIRY. -/

section
variable {c : Fin 192} {w : Waits} {s : State} {j : Job} {f : Frame} (head : (s.core c).arrayHead = some (j, f)) {a b : BitVec 8} {kk : BitVec 24}
  {m : BitVec 4} {bl : Bool} {first s0 s1 : BitVec 16} (args : j.cmd.args = .opx a b kk m bl first s0 s1)
include head args

/-- At tile 0 an empty buffer is awaited: nothing is checked (R54). -/
theorem exec_caravanSlotCheck_first (empty : (s.core c).carHead = none) (tile : j.tile = 0) : exec (.caravanSlotCheck c w) s = .next s := by
  show execCaravanSlotCheck c w s = _
  simp only [execCaravanSlotCheck, head, args, tile, empty, and_self, if_true, ite_self]

/-- Otherwise the tile is checked, with the beats up to its slot counted (R23). -/
theorem exec_caravanSlotCheck (caravan : f.bCaravan = true) (going : j.waiting = false) (more : j.tile < caravanTiles kk.toNat)
    (due : j.tile = 0 → (s.core c).carHead ≠ none) : ∃ regs, exec (.caravanSlotCheck c w) s =
      .next ((s.setCore c { s.core c with regs := regs }).slotCheck c j f kk.toNat first.toNat m bl) := by
  refine ⟨(((s.core c).slotBeats f j.tile s0.toNat s1.toNat).waited w).regs, ?_⟩
  show execCaravanSlotCheck c w s = _
  have checks : ¬ (j.tile = 0 ∧ (s.core c).carHead = none) := fun ⟨tile, empty⟩ => due tile empty
  simp only [execCaravanSlotCheck, head, args, caravan, going, decide_eq_false (Nat.not_le.2 more), Bool.not_true, Bool.or_self,
    Bool.false_eq_true, if_false, if_neg checks]
  rfl

theorem skewLimitExpiry_opx (waiting : j.waiting = true) : FailsHead (.skewLimitExpiry c) s c j 0x05 fun q =>
    q.skewStall = (s.core c).skewStall + (s.core c).skewLimit := by
  let v := (s.skewTime c (s.core c).skewLimit).modCore c fun k => { k with skewStall := k.skewStall + (s.core c).skewLimit }
  have core : v.core c = { s.core c with skewStall := (s.core c).skewStall + (s.core c).skewLimit } := by
    rw [State.core_modCore_same, State.core_skewTime]
  have run : exec (.skewLimitExpiry c) s =
      .next (v.opxFail c j f (caravanTiles kk.toNat) false ((first.toNat + j.tile) % 2 ^ 16) 0xFFFF) := by
    show execSkewLimitExpiry c s = _
    simp only [execSkewLimitExpiry, head, args, waiting, Bool.not_true, Bool.false_eq_true, if_false]
    rfl
  have fails := FailsHead.of_opxFail run (by rw [core]; exact .of_port _ _ _ _)
  rw [core] at fails
  exact fails

end

section
variable {c : Fin 192} {s : State} {j : Job} {f : Frame} (head : (s.core c).arrayHead = some (j, f))
include head

theorem skewLimitExpiry_swp {tag : BitVec 8} (args : j.cmd.args = .swp tag) (waiting : j.waiting = true) :
    FailsHead (.skewLimitExpiry c) s c j 0x05 fun q => q.skewStall = (s.core c).skewStall + (s.core c).skewLimit ∧
      q.live.cells = (s.core c).live.cells ∧ q.shadow.cells = (s.core c).shadow.cells := by
  let found := match (s.core c).shadow.tag with
    | some t => t.toNat
    | none => 0xFFFF
  let v := (s.skewTime c (s.core c).skewLimit).modCore c fun k =>
    { k with skewStall := k.skewStall + (s.core c).skewLimit, arrayQ := k.arrayQ.tail }
  have run : exec (.skewLimitExpiry c) s = .next ((v.swpFail c j f.tolerant false tag found).startEngines c) := by
    show execSkewLimitExpiry c s = _
    simp only [execSkewLimitExpiry, head, args, waiting, Bool.not_true, Bool.false_eq_true, if_false]
    rfl
  obtain ⟨regs, record⟩ := v.core_recordSkew c false f.tolerant false tag.toNat found j.seq
  have core : v.core c = { s.core c with
      skewStall := (s.core c).skewStall + (s.core c).skewLimit, arrayQ := (s.core c).arrayQ.tail } := by
    rw [State.core_modCore_same, State.core_skewTime]
  rw [core] at record
  refine .of_ended (by decide) (by decide) run (r := { s.core c with
      regs := regs, skewStall := (s.core c).skewStall + (s.core c).skewLimit, arrayQ := (s.core c).arrayQ.tail
      live := (s.core c).live.taint stSkew, shadow := (s.core c).shadow.taint stSkew }) (opcode := 0x04) ?_ rfl rfl (fun n inst => ⟨n, inst, rfl⟩)
    fun _ _ => ⟨rfl, AccSet.taint_cells .., AccSet.taint_cells ..⟩
  rw [State.swpFail, State.core_modCore_same, record]
  rfl

theorem skewLimitExpiry_running (running : j.waiting = false) : exec (.skewLimitExpiry c) s = .next s := by
  show execSkewLimitExpiry c s = _
  simp only [execSkewLimitExpiry, head, running, Bool.not_false, if_true]

end

/- CARAVAN_SLOT_CHECK, by what the buffer holds. -/

section
variable {c : Fin 192} {w : Waits} {s : State} {j : Job} {f : Frame} (head : (s.core c).arrayHead = some (j, f)) {a b : BitVec 8} {kk : BitVec 24}
  {m : BitVec 4} {bl : Bool} {first s0 s1 : BitVec 16} (args : j.cmd.args = .opx a b kk m bl first s0 s1) (caravan : f.bCaravan = true)
  (going : j.waiting = false) (more : j.tile < caravanTiles kk.toNat)
include head args caravan going more

section
variable (empty : (s.core c).carHead = none) (later : j.tile ≠ 0)
include empty later

theorem caravanSlotCheck_waits (tolerant : f.tolerant = true) : ∃ q, exec (.caravanSlotCheck c w) s = .next (s.setCore c q) ∧
    q = { s.core c with regs := q.regs, arrayQ := { j with waiting := true } :: (s.core c).arrayQ.tail } := by
  obtain ⟨regs, run⟩ := exec_caravanSlotCheck (w := w) head args caravan going more fun tile => absurd tile later
  rw [State.slotCheck_waits (by rw [State.core_setCore]; exact empty) later tolerant, State.core_setCore, State.setCore_setCore] at run
  exact ⟨_, run, rfl⟩

theorem caravanSlotCheck_late (strict : f.tolerant = false) : FailsHead (.caravanSlotCheck c w) s c j 0x05 fun _ => True := by
  obtain ⟨regs, run⟩ := exec_caravanSlotCheck (w := w) head args caravan going more fun tile => absurd tile later
  rw [State.slotCheck_late (by rw [State.core_setCore]; exact empty) later strict] at run
  exact (FailsHead.of_opxFail run (by rw [State.core_setCore]; exact .of_port _ _ _ _)).imp fun _ _ => trivial

end

variable {t : CTile} (next : (s.core c).carHead = some t)
include next

theorem caravanSlotCheck_wrongTag (wrong : t.tag.toNat ≠ (first.toNat + j.tile) % 2 ^ 16) :
    FailsHead (.caravanSlotCheck c w) s c j 0x05 fun _ => True := by
  obtain ⟨regs, run⟩ := exec_caravanSlotCheck (w := w) head args caravan going more fun _ => by simp [next]
  rw [State.slotCheck_wrongTag (t := t) (by rw [State.core_setCore]; exact next) wrong] at run
  exact (FailsHead.of_opxFail run (by rw [State.core_setCore]; exact .of_port _ _ _ _)).imp fun _ _ => trivial

variable (right : t.tag.toNat = (first.toNat + j.tile) % 2 ^ 16)
include right

theorem caravanSlotCheck_poisoned (poison : t.poison ≠ 0) (part : t.poison ≠ stPartial) :
    FailsHead (.caravanSlotCheck c w) s c j t.poison fun _ => True := by
  obtain ⟨regs, run⟩ := exec_caravanSlotCheck (w := w) head args caravan going more fun _ => by simp [next]
  rw [State.slotCheck_poisoned (t := t) (by rw [State.core_setCore]; exact next) right poison, State.core_setCore, State.setCore_setCore] at run
  refine (FailsHead.of_opxEnds poison part (g := id) run ?_).imp fun _ _ => trivial
  have consumed : PortMoves (s.core c) (({ s.core c with regs := regs } : Core).consumes j m bl).freePlaces :=
    ((PortMoves.of_port _ _ _ _).trans (Core.consumes_moves _ _ _ _)).trans (.freePlaces _)
  have forwarded := State.forwardConsumed_moves 4 (s.setCore c (({ s.core c with regs := regs } : Core).consumes j m bl).freePlaces) c c
  rw [State.core_setCore] at forwarded
  exact consumed.trans forwarded

theorem caravanSlotCheck_consumes (clean : t.poison = 0) {ea : BEntry} {rest : List BEntry} (ents : j.ents = ea :: rest) :
    let k := s.core c
    let bits := if j.tile = 0 then k.mask[m.toNat]'m.isLt else j.mask
    ∃ q, exec (.caravanSlotCheck c w) s = .next (s.setCore c q) ∧ q = { k with
      regs := q.regs, slots := q.slots, car := { k.car with tiles := q.car.tiles }
      arrayQ := { j with tile := j.tile + 1, waiting := false, mask := bits } :: k.arrayQ.tail
      live := k.live.opx (k.shape f) ⟨bits, bl⟩ f.rows f.cols (beatsOf f.isFp32 f.p (opxPositions k f ea (128 * j.tile)
        (min 128 (kk.toNat - 128 * j.tile)) fun n e => tileVal f t.bytes n e)) } ∧
      q.car.tiles = (let ts := modHead (fun t => { t with consumed := true }) k.car.tiles
        if k.car.forward = true ∨ k.car.state ≠ .bound then ts else ts.filter fun t => !t.consumed) := by
  intro k bits
  obtain ⟨regs, run⟩ := exec_caravanSlotCheck (w := w) head args caravan going more fun _ => by simp [next]
  have frame : ({ k with regs := regs } : Core).frame j.slot = some f := Core.frame_of_arrayHead head
  rw [State.slotCheck_consumes (t := t) (by rw [State.core_setCore]; exact next) right clean ents, State.core_setCore, State.setCore_setCore] at run
  exact ⟨_, run, Core.consumes_accumulates frame caravan ..⟩

end

/-- Settles O19: tiles arrive and leave, and are checked in their slot, as the lemmas above say case by case. -/
theorem caravanTileFlow : Obligations.CaravanTileFlow := by
  refine ⟨fun c w s => ?_, fun c w s j f head => ?_⟩
  · intro k
    refine ⟨?arrives, ?discards, ?forwards⟩
    case arrives =>
      intro src t rest p inbound unfenced still sender same owned come
      have joins : come ((k.delivered rest w).withTile t) := k.delivered_withTile rest w t
      refine ⟨fun idle => ⟨_, exec_caravanTileArrive_idle inbound unfenced sender still same owned idle, joins⟩,
        fun j f a b kk m bl first s0 s1 head waiting args limit => ?_⟩
      obtain ⟨u, run, core, others⟩ := exec_caravanTileArrive_waiting inbound unfenced sender still same owned head waiting args limit
      exact ⟨u, _, run, joins, core, others⟩
    case discards =>
      exact fun src t rest p inbound unfenced sender other => exec_caravanTileArrive_discards inbound unfenced sender other
    case forwards =>
      intro t d next target ne unfenced room
      obtain ⟨u, run, own, dest, others⟩ := exec_caravanForward (w := w) next target ne unfenced room
      exact ⟨u, run, own ▸ k.sendsTile_tiles t, dest ▸ rfl, dest ▸ rfl, own ▸ (k.sendsTile_moves t).sp, own ▸ k.sendsTile_slots t, others⟩
  · intro k fails any
    refine ⟨fun a b kk m bl first s0 s1 args caravan going more => ?check, ?opx, ?swp, skewLimitExpiry_running head⟩
    case opx => exact fun waiting a b kk m bl first s0 s1 args => skewLimitExpiry_opx head args waiting
    case swp => exact fun waiting tag args => skewLimitExpiry_swp head args waiting
    case check =>
      intro bits used
      refine ⟨fun t ea rest next right clean ents => ?_, fun t next right poison part => ?_, fun t next wrong => ?_,
        fun empty later strict => ?_, fun empty later tolerant => ?_, fun empty first => exec_caravanSlotCheck_first head args empty first⟩
      · exact caravanSlotCheck_consumes head args caravan going more next right clean ents
      · exact caravanSlotCheck_poisoned head args caravan going more next right poison part
      · exact caravanSlotCheck_wrongTag head args caravan going more next wrong
      · exact caravanSlotCheck_late head args caravan going more empty later strict
      · exact caravanSlotCheck_waits head args caravan going more empty later tolerant

end Sys2Proof.Machine
end
